-- ==== Sys2Proof/Word.lean ====
section
/-! DEFINITION. The machine's words, and the sorted key-and-value list that every sparse store of the model is. -/

namespace Sys2Proof

/-- A byte of memory (R2: bit 0 is the least significant). -/
abbrev Byte := BitVec 8
/-- A V or S register (R113). -/
abbrev W32 := BitVec 32
/-- A register pair, an address, a meter (R92). -/
abbrev W64 := BitVec 64
/-- A set of the 64 thread positions of a crew, bit t for thread t. -/
abbrev Mask := BitVec 64

/-- A store from keys to values: a list with strictly rising keys. -/
abbrev KMap (α : Type) := List (Nat × α)

end Sys2Proof
end

