-- ==== Sys2Proof/Config.lean ====
section
/-! DEFINITION. What the part fixes outside the spec's words, and the values that the spec leaves open: opaque constants,
so that nothing proved of the model rests on a value of them. -/

namespace Sys2Proof.Config

/-- Which of the values that a register may hold an early read returns (R75, R120): by the draw, the place (thread, or 64
for the crew) and the register. Assumption 3. -/
opaque early : Nat → Nat → Nat → Nat

/-- E0 in fJ of an event class (R343, R457); the reserved classes hold 0 (R345). Assumption 8. -/
opaque fuseE0 : Nat → BitVec 32

/-- The temperature coefficient of a class as S16, ppm per degree (R343, R457). Assumption 8. -/
opaque fuseAlpha : Nat → BitVec 16

/-- The result that a special function returns where R143 leaves it open, as the bits of its format: by function, format
and input bits. Assumption 7. -/
opaque special : Nat → Nat → Nat → Nat

/-- The way that a cluster TLB replaces (R221 names no policy). Assumption 12. -/
opaque tlbVictim : Nat → Nat

/-- The set of a slice that holds a superblock (R212 gives the count of sets alone). Assumption 12. -/
opaque l2Set : Nat → Nat

/-- The segments that the codec needs for a line of a page with CMP = 1, less 1 (R212). Assumption 12. -/
opaque l2Segs : List Byte → Nat → Nat → Nat

/-- The bytes a command entry is saved as (R422: opaque). Assumption 13. -/
opaque cmdImage : Nat → List Byte

/-- The part's stepping (R88). Assumption 11. -/
opaque stepping : W32

/-- The part's 16-byte identity (R425, R455). Assumption 11. -/
opaque partId : List Byte

/-- SHAKE256 of bytes, 64 bytes of it (R453). Assumption 13. -/
opaque shake256 : List Byte → List Byte

/-- Whether the ML-DSA-65 signature of a start-up image verifies against the fused key (R453). Assumption 13. -/
opaque mldsaOk : List Byte → Bool

/-- The image of a start-up step, primary or alternate (R453, R454). Assumption 13. -/
opaque bootImage : Nat → Bool → List Byte

/-- Whether the component of a step comes up (R454, result 2). Assumption 13. -/
opaque componentOk : Nat → Nat → Bool

/-- The part's signature over its measurements (R455). Assumption 13. -/
opaque sign : List Byte → List Byte

/-- The AES-256-XTS image of bytes of a confidential export or page (R426), by function and place. Assumption 13. -/
opaque xts : Nat → Nat → List Byte → List Byte

/-- What decrypting bytes under a function's key gives, where they were not encrypted under it (R183, R426). Assumption 13. -/
opaque unxts : Nat → Nat → List Byte → List Byte

/-- The type that heads a section of a state export (R434 numbers none). Assumption 36. -/
opaque sectionType : Nat → Nat

/-- The list of fenced cores as a state export writes it (R434 gives no layout). Assumption 36. -/
opaque fencedImage : List Nat → List Byte

/-- The boot record's header (R454 gives no fields). Assumption 36. -/
opaque bootHeader : Nat → List Byte

/-- KIND of the error-log records of a link that goes down and of a missed heartbeat (R450, R453; R433 lists none).
Assumption 37. -/
opaque logKind : Nat → Nat

/-- The cause of the aborts that follow a missed heartbeat (R453 names none). Assumption 37. -/
opaque heartbeatCause : Nat

/-- The reading of a core's tile sensor at a tick, in tenths of a degree (R346). Assumption 40. -/
opaque tileTemp : Nat → Nat → Int

/-- The reading of the substrate's sensor at a tick (R346, R461). Assumption 40. -/
opaque substrateTemp : Nat → Int

/-- The energy in pJ that the package sensors measure of a domain in a tick (R352). Assumption 40. -/
opaque domainEnergy : Nat → Nat → Nat

/-- The four times of a sampled load (R342): by the tick of its record, and the place. Assumption 40. -/
opaque sampleTime : Nat → Nat → Nat

end Sys2Proof.Config
end

