-- ==== Sys2Proof/Machine/Maps.lean ====
section
/-! DEFINITION. Sorted key-and-value lists, sorted sets, and lists addressed by place: the operations that every store of
the model goes through. -/

namespace Sys2Proof.Machine

open Sys2Proof

variable {α β : Type}

/-- The value at a key. -/
def kfind (k : Nat) : KMap α → Option α
  | [] => none
  | (a, v) :: t => if a = k then some v else kfind k t

/-- Insert or replace, keeping the keys rising. -/
def kput (k : Nat) (v : α) : KMap α → KMap α
  | [] => [(k, v)]
  | (a, w) :: t => if k < a then (k, v) :: (a, w) :: t else if k = a then (k, v) :: t else (a, w) :: kput k v t

def kdel (k : Nat) (m : KMap α) : KMap α := m.filter (fun e => e.1 != k)

/-- A store whose unlisted keys hold `d`. -/
def kget (d : α) (k : Nat) (m : KMap α) : α := (kfind k m).getD d

/-- Writing `d` removes the entry, so that equal stores are equal lists. -/
def kset [DecidableEq α] (d : α) (k : Nat) (v : α) (m : KMap α) : KMap α :=
  if v = d then kdel k m else kput k v m

/-- Replace the value of a key by a function of it. -/
def kmod (k : Nat) (f : α → α) (m : KMap α) : KMap α :=
  match kfind k m with
  | some v => kput k (f v) m
  | none => m

def kkeys (m : KMap α) : List Nat := m.map Prod.fst
def kvals (m : KMap α) : List α := m.map Prod.snd
/-- Apply a function to every value. -/
def kmap (f : Nat → α → α) (m : KMap α) : KMap α := m.map (fun e => (e.1, f e.1 e.2))

/-- Keys strictly rising. -/
def ksorted : KMap α → Bool
  | [] => true
  | [_] => true
  | (a, _) :: (b, w) :: t => decide (a < b) && ksorted ((b, w) :: t)

/-- The lowest natural number below `n` that is no key. -/
def kfree (n : Nat) (m : KMap α) : Option Nat := (List.range n).find? (fun k => (kfind k m).isNone)

/-- A set as a strictly rising list. -/
def sins (k : Nat) : List Nat → List Nat
  | [] => [k]
  | a :: t => if k < a then k :: a :: t else if k = a then a :: t else a :: sins k t
def sdel (k : Nat) (l : List Nat) : List Nat := l.filter (· != k)
def smem (k : Nat) (l : List Nat) : Bool := l.contains k
/-- Put in or take out. -/
def sput (b : Bool) (k : Nat) (l : List Nat) : List Nat := if b then sins k l else sdel k l

/-- Replace the element at a place. -/
def lset (l : List α) (i : Nat) (x : α) : List α := l.set i x
def lmod (l : List α) (i : Nat) (f : α → α) : List α := l.modify i f

/-- Bytes `k` to `k + n - 1` of a store, least first. -/
def kbytes (d : Byte) (m : KMap Byte) (k n : Nat) : List Byte := (List.range n).map (fun i => kget d (k + i) m)
/-- Write bytes from `k` up. -/
def kputBytes (m : KMap Byte) (k : Nat) : List Byte → KMap Byte
  | [] => m
  | b :: t => kputBytes (kset 0 k b m) (k + 1) t

/-- The bits of a mask, ascending. -/
def bitsOf {n : Nat} (m : BitVec n) : List Nat := (List.range n).filter (fun i => m.getLsbD i)
/-- The mask of a list of places. -/
def maskOf (n : Nat) (l : List Nat) : BitVec n := l.foldl (fun m i => m ||| (1#n <<< i)) 0

end Sys2Proof.Machine
end

