-- ==== Sys2Proof/Syntax.lean ====
section
/-! DEFINITION. The instruction set as data: one constructor of Instr per row of spec/opcode_table.json.
An encoded instruction holds its control fields (Hdr) and its operands. A row without an encoding is an event of the
part (95_what_each_step_holds.md): its arguments say where it happens and what the outside supplies. -/

namespace Sys2Proof

/-- The three lengths of an instruction word (R69, R70). -/
inductive Form | w64 | w96 | w128
  deriving DecidableEq, Repr

/-- The control fields that every instruction carries (R69). `wait` is the wait set of R78, bit k for F_k. -/
structure Hdr where
  form : Form
  bt   : BitVec 5
  sd   : BitVec 3
  uni  : Bool
  wait : BitVec 12
  sf   : Option (Fin 12)
  pg   : BitVec 3
  pn   : Bool
  deriving DecidableEq, Repr

/-- A register operand by the code of R80: V0-V191, S0-S61, or S62 (reads zero, discards writes). -/
inductive Reg
  | v (r : Fin 192)
  | s (r : Fin 62)
  | z
  deriving DecidableEq, Repr

/-- A source: a register, or S63, the immediate that the word carries (R81). In the SC layout the value
is the sign-extended 24-bit field. -/
inductive Src
  | r (x : Reg)
  | imm (x : W32)
  deriving DecidableEq, Repr

/-- A predicate operand by the code of R123: P0-P7, Q0-Q3. -/
inductive Pred
  | p (i : Fin 8)
  | q (i : Fin 4)
  deriving DecidableEq, Repr

/-- A field that must hold an even S number from 192 to 252, or 254 (S62). -/
inductive SPair
  | pr (k : Fin 31)
  | z
  deriving DecidableEq, Repr

/-- Integer types (R84). -/
inductive IntTy | s32 | n32 | s64 | n64 | s16x2 | n16x2 | s8x4 | n8x4
  deriving DecidableEq, Repr

/-- Float types of the float family (R84). -/
inductive FlTy | f32 | f16x2 | bf16x2
  deriving DecidableEq, Repr

/-- Rounding modes (R96). -/
inductive Rm | rn | rz | rp | rm
  deriving DecidableEq, Repr

/-- The float family's MOD (R84). -/
structure FlMod where
  ty   : FlTy
  rm   : Rm
  sat  : Bool
  nega : Bool
  absa : Bool
  deriving DecidableEq, Repr

/-- Conditions of ICMP (R130). -/
inductive Cc | eq | ne | lt | le | gt | ge
  deriving DecidableEq, Repr

/-- Conditions of FCMP: those of ICMP, then UN and OR (R130). -/
inductive FCc | eq | ne | lt | le | gt | ge | un | or
  deriving DecidableEq, Repr

/-- The float formats that conversions and dot products name (R94, R102). -/
inductive FFmt | f32 | f16 | bf16 | e4m3 | e5m2 | e2m1
  deriving DecidableEq, Repr

/-- Destination and source integer codes of CVTFI and CVTIF (R136). -/
inductive CvtInt | s32 | n32 | s64 | n64 | s16 | n16 | s8 | n8
  deriving DecidableEq, Repr

/-- The targets of CVTNE (all of them) and of QSCALE (E4M3 to S4) by R136. -/
inductive NarrowFmt | f16 | bf16 | e4m3 | e5m2 | e2m1 | s8 | s4
  deriving DecidableEq, Repr

/-- Block sizes of CVTNE and QSCALE (R139). -/
inductive Blk | b16 | b32 | b64
  deriving DecidableEq, Repr

/-- Element widths of PACK and UNPACK (R140). -/
inductive PkW | w2 | w4 | w8 | w16
  deriving DecidableEq, Repr

/-- How PACK narrows (R140). -/
inductive PkMode | trunc | ss | sn
  deriving DecidableEq, Repr

/-- The modes of QSCALE (R141). APPLY has neither block nor target, and only APPLY reads B. -/
inductive QMode
  | scale (bg : Blk) (tgt : NarrowFmt)
  | div (bg : Blk) (tgt : NarrowFmt)
  | apply (b : Src)
  deriving DecidableEq, Repr

/-- The outputs of TERN (R142). -/
inductive TernOut | s8x4 | s16x2 | s32
  deriving DecidableEq, Repr

/-- Operand formats of DOT2, DOT4 and DOT8 (R144). -/
inductive Dot2Fmt | f16 | bf16
  deriving DecidableEq, Repr
inductive Dot4Fmt | e4m3 | e5m2 | s8
  deriving DecidableEq, Repr
inductive Dot8Fmt | e2m1 | s4
  deriving DecidableEq, Repr

/-- Segment widths of the cross-lane instructions (R146). -/
inductive SegW | w64 | w32 | w16 | w8 | w4 | w2
  deriving DecidableEq, Repr

/-- Operations and types of SCAN and VRED (R149). -/
inductive ScanOp | add | min | max | and | or | xor
  deriving DecidableEq, Repr
inductive ScanTy | s32 | n32 | s64 | n64 | f32
  deriving DecidableEq, Repr

/-- What PEERS writes: a mask, or with ALL a predicate (R148). -/
inductive PeersDst
  | mask (d : Reg)
  | all (pd : Pred)
  deriving DecidableEq, Repr

/-- Access sizes (R84). -/
inductive MSize | b1 | b2 | b4 | b8 | b16
  deriving DecidableEq, Repr

/-- Scopes (R52, R70). -/
inductive Scope | thread | crew | wg | die | dev | sys | pod
  deriving DecidableEq, Repr

/-- The order of an access, with its scope where it has one (R84, R237). -/
inductive Order
  | plain
  | acq (sc : Scope)
  | rel (sc : Scope)
  | ar (sc : Scope)
  deriving DecidableEq, Repr

/-- Hints (R84). -/
inductive Hint | normal | ef | el | na
  deriving DecidableEq, Repr

/-- A reference to global memory: base pair, offset, displacement (R49, R238). -/
structure MemRef where
  base : SPair
  off  : Reg
  disp : BitVec 24
  deriving DecidableEq, Repr

/-- A reference to scratchpad: base, offset, displacement (R239). -/
structure ScrRef where
  base : Reg
  off  : Reg
  disp : BitVec 24
  deriving DecidableEq, Repr

/-- Modes of LDT (R251); SCL names the scale base pair. -/
inductive LdtMode
  | wide
  | code
  | scl (ss : SPair)
  deriving DecidableEq, Repr

/-- Element counts of LDT (R251). -/
inductive LdtCount | x1 | x2 | x4
  deriving DecidableEq, Repr

/-- Operations of ATOM, RED and ATOMS (R254). -/
inductive AOp
  | add | and | or | xor | exch | mins | maxs | minn | maxn | inc | dec | fadd | fmin | fmax
  deriving DecidableEq, Repr

/-- Sizes of the atomics (R254). -/
inductive ASize | b4 | b8
  deriving DecidableEq, Repr

/-- Kinds of FENCE (R258). -/
inductive FenceKind | acq | rel | both
  deriving DecidableEq, Repr

/-- Levels and modes of HINT (R260). -/
inductive HintLevels | l1 | l2 | l12
  deriving DecidableEq, Repr
inductive HintMode | norm | ef | el
  deriving DecidableEq, Repr

/-- Line counts of IPF (R261). -/
inductive IpfCount | n1 | n2 | n4 | n8
  deriving DecidableEq, Repr

/-- A barrier named by scratchpad offset or through a group slot (R327). -/
inductive BarRef
  | off (x : Src)
  | slot (k : Fin 4)
  deriving DecidableEq, Repr

/-- The order bits of the engine commands (R294): the scope is named only with ACQ or REL. -/
inductive EngOrder
  | none
  | acq (sc : Scope)
  | rel (sc : Scope)
  | ar (sc : Scope)
  deriving DecidableEq, Repr

/-- Directions of COPY and COPY2D (R317). -/
inductive CopyDir | gg | gs | sg | ss
  deriving DecidableEq, Repr

/-- Modes of MREAD (R362); EV reads the class from A. -/
inductive MreadMode
  | tot
  | wg
  | ev (cls : Src)
  deriving DecidableEq, Repr

/-- A crew's place: core 0-767, and sequencer x 16 + crew slot, 0-63 (R9, R13). -/
structure CrewKey where
  core : Nat
  slot : Nat
  deriving DecidableEq, Repr

/-- Where an ECC error is found (R229). -/
inductive EccSite
  | storage (pa : Nat)                      -- a DRAM sector or second-level segment, by physical address
  | firstLevel (core : Nat) (ctx : Nat) (va : Nat)
  | scratch (core : Nat) (wg : Nat) (off : Nat)
  | cimRow (core : Nat) (mac : Nat) (row : Nat)
  | ruleValue (core : Nat) (entry : Nat)
  | icacheLine (core : Nat) (ctx : Nat) (va : Nat)
  deriving DecidableEq, Repr

/-- What is wrong with a core that is fenced (R207): whether its first level can still be read, and whether the fault lies in its
slice or channel. -/
structure FenceSite where
  l1Readable : Bool
  memFailed  : Bool
  deriving DecidableEq, Repr

/-- Bytes that come in from outside, and whether they are poisoned (R229). -/
structure DataIn where
  bytes  : List Byte
  poison : Bool
  deriving DecidableEq, Repr

/-- What a peer device asks of this device (R449). -/
inductive RemoteOp
  | read (n : Nat)
  | write (data : DataIn)
  | atom (op : AOp) (sz : ASize) (v : W64) (ftz : Bool) -- the FTZ of the kernel that asks goes with it (R98)
  | cas (sz : ASize) (c v : W64)
  deriving DecidableEq, Repr

/-- Who writes a system register (R407). -/
inductive RegAgent
  | bench
  | pf
  | vf (f : Nat)
  deriving DecidableEq, Repr

/-- The instruction set and the events of the part: one constructor per row of spec/opcode_table.json. -/
inductive Instr
  -- group 0x0
  | udf
  | iadd (h : Hdr) (ty : IntTy) (d : Reg) (a b : Src)
  | isub (h : Hdr) (ty : IntTy) (d : Reg) (a b : Src)
  | iadds (h : Hdr) (ty : IntTy) (d : Reg) (a b : Src)
  | isubs (h : Hdr) (ty : IntTy) (d : Reg) (a b : Src)
  | imul (h : Hdr) (ty : IntTy) (d : Reg) (a b : Src)
  | imulh (h : Hdr) (ty : IntTy) (d : Reg) (a b : Src)
  | imad (h : Hdr) (ty : IntTy) (d : Reg) (a b c : Src)
  | imadw (h : Hdr) (ty : IntTy) (d : Reg) (a b c : Src)
  | idiv (h : Hdr) (ty : IntTy) (d : Reg) (a b : Src)
  | irem (h : Hdr) (ty : IntTy) (d : Reg) (a b : Src)
  | imin (h : Hdr) (ty : IntTy) (d : Reg) (a b : Src)
  | imax (h : Hdr) (ty : IntTy) (d : Reg) (a b : Src)
  | iabs (h : Hdr) (ty : IntTy) (d : Reg) (a : Src)
  | ineg (h : Hdr) (ty : IntTy) (d : Reg) (a : Src)
  | iaddc (h : Hdr) (ty : IntTy) (d : Reg) (a b : Src) (pc : Pred)
  | isubb (h : Hdr) (ty : IntTy) (d : Reg) (a b : Src) (pc : Pred)
  | lea (h : Hdr) (ty : IntTy) (sh : BitVec 3) (d : Reg) (a b : Src)
  -- group 0x1
  | and (h : Hdr) (ty : IntTy) (d : Reg) (a b : Src)
  | or (h : Hdr) (ty : IntTy) (d : Reg) (a b : Src)
  | xor (h : Hdr) (ty : IntTy) (d : Reg) (a b : Src)
  | andn (h : Hdr) (ty : IntTy) (d : Reg) (a b : Src)
  | not (h : Hdr) (ty : IntTy) (d : Reg) (a : Src)
  | bool3 (h : Hdr) (fn : BitVec 8) (d : Reg) (a b c : Src)
  | shl (h : Hdr) (ty : IntTy) (d : Reg) (a b : Src)
  | shr (h : Hdr) (ty : IntTy) (d : Reg) (a b : Src)
  | sar (h : Hdr) (ty : IntTy) (d : Reg) (a b : Src)
  | rol (h : Hdr) (ty : IntTy) (d : Reg) (a b : Src)
  | fshr (h : Hdr) (d : Reg) (a b c : Src)
  | popc (h : Hdr) (ty : IntTy) (d : Reg) (a : Src)
  | clz (h : Hdr) (ty : IntTy) (d : Reg) (a : Src)
  | ctz (h : Hdr) (ty : IntTy) (d : Reg) (a : Src)
  | brev (h : Hdr) (ty : IntTy) (d : Reg) (a : Src)
  | bfx (h : Hdr) (ty : IntTy) (d : Reg) (a b : Src)
  | bfi (h : Hdr) (d : Reg) (a b c : Src)
  | bsel (h : Hdr) (d : Reg) (a b c : Src)
  -- group 0x2
  | icmp (h : Hdr) (ty : IntTy) (cc : Cc) (pd : Pred) (a b : Src)
  | fcmp (h : Hdr) (cc : FCc) (nega absa : Bool) (pd : Pred) (a b : Src)
  | sel (h : Hdr) (wide : Bool) (pc : Pred) (d : Reg) (a b : Src)
  | mov (h : Hdr) (ty : IntTy) (d : Reg) (a : Src)
  | movi (h : Hdr) (sx hi : Bool) (d : Reg) (imm : BitVec 16)
  | movs (h : Hdr) (d : Reg) (num : BitVec 8)
  | rdl (h : Hdr) (d : Reg)
  | fclass (h : Hdr) (ty : FlTy) (d : Reg) (a : Src)
  | pand (h : Hdr) (na nb : Bool) (pd pa pb : Pred)
  | por (h : Hdr) (na nb : Bool) (pd pa pb : Pred)
  | pxor (h : Hdr) (na nb : Bool) (pd pa pb : Pred)
  | pnot (h : Hdr) (pd pa : Pred)
  | p2v (h : Hdr) (d : Reg) (a : Src)
  | v2p (h : Hdr) (a b : Src)
  -- group 0x3
  | fadd (h : Hdr) (m : FlMod) (d : Reg) (a b : Src)
  | fsub (h : Hdr) (m : FlMod) (d : Reg) (a b : Src)
  | fmul (h : Hdr) (m : FlMod) (d : Reg) (a b : Src)
  | ffma (h : Hdr) (m : FlMod) (d : Reg) (a b c : Src)
  | fmin (h : Hdr) (m : FlMod) (d : Reg) (a b : Src)
  | fmax (h : Hdr) (m : FlMod) (d : Reg) (a b : Src)
  | fdiv (h : Hdr) (m : FlMod) (d : Reg) (a b : Src)
  | fsqrt (h : Hdr) (m : FlMod) (d : Reg) (a : Src)
  | fscale (h : Hdr) (m : FlMod) (d : Reg) (a b : Src)
  | frnd (h : Hdr) (m : FlMod) (d : Reg) (a : Src)
  | fmed3 (h : Hdr) (m : FlMod) (d : Reg) (a b c : Src)
  -- group 0x4
  | cvtfi (h : Hdr) (src : FlTy) (hi : Bool) (rm : Rm) (dst : CvtInt) (d : Reg) (a : Src)
  | cvtif (h : Hdr) (src : CvtInt) (rm : Rm) (dst : FlTy) (d : Reg) (a : Src)
  | cvtff (h : Hdr) (dst src : FFmt) (rm : Rm) (d : Reg) (a b : Src)
  | cvtne (h : Hdr) (bg : Blk) (tgt : NarrowFmt) (d : Reg) (a : Src)
  | pack (h : Hdr) (w : PkW) (md : PkMode) (d : Reg) (a b : Src)
  | unpack (h : Hdr) (w : PkW) (sx : Bool) (d : Reg) (a b : Src)
  | qscale (h : Hdr) (md : QMode) (d : Reg) (a : Src)
  | tern (h : Hdr) (out : TernOut) (d : Reg) (a b : Src)
  -- group 0x5
  | rcp (h : Hdr) (m : FlMod) (d : Reg) (a : Src)
  | rsq (h : Hdr) (m : FlMod) (d : Reg) (a : Src)
  | ex2 (h : Hdr) (m : FlMod) (d : Reg) (a : Src)
  | lg2 (h : Hdr) (m : FlMod) (d : Reg) (a : Src)
  | sin (h : Hdr) (m : FlMod) (d : Reg) (a : Src)
  | cos (h : Hdr) (m : FlMod) (d : Reg) (a : Src)
  | sincos (h : Hdr) (m : FlMod) (d : Reg) (a : Src)
  | tanh (h : Hdr) (m : FlMod) (d : Reg) (a : Src)
  | dot2 (h : Hdr) (fa fb : Dot2Fmt) (d : Reg) (a b c : Src)
  | dot4 (h : Hdr) (fa fb : Dot4Fmt) (sc : Option Reg) (d : Reg) (a b c : Src)
  | dot8 (h : Hdr) (fa fb : Dot8Fmt) (sc : Option Reg) (d : Reg) (a b c : Src)
  | tdot (h : Hdr) (byte : BitVec 2) (d : Reg) (a b c : Src)
  -- group 0x6
  | geti (h : Hdr) (wide : Bool) (sw : SegW) (d : Reg) (a b : Src)
  | getb (h : Hdr) (wide wrap : Bool) (sw : SegW) (d : Reg) (a b : Src)
  | geta (h : Hdr) (wide wrap : Bool) (sw : SegW) (d : Reg) (a b : Src)
  | getx (h : Hdr) (wide : Bool) (sw : SegW) (d : Reg) (a b : Src)
  | pany (h : Hdr) (sw : SegW) (pd pa : Pred)
  | pall (h : Hdr) (sw : SegW) (pd pa : Pred)
  | pmask (h : Hdr) (cnt : Bool) (d : Reg) (pa : Pred)
  | peers (h : Hdr) (wide : Bool) (d : PeersDst) (a : Src)
  | lead (h : Hdr) (last : Bool) (pd : Pred)
  | scan (h : Hdr) (ty : ScanTy) (op : ScanOp) (excl sat : Bool) (d : Reg) (a : Src)
  | vred (h : Hdr) (ty : ScanTy) (op : ScanOp) (sat : Bool) (d : Reg) (a : Src)
  | regroup (h : Hdr) (a : Src) (n : BitVec 8)
  | regroupExchange (core wg : Nat)
  -- group 0x7
  | bx (h : Hdr) (tgt : BitVec 5)
  | bxc (h : Hdr) (once : Bool) (tt ft : BitVec 5) (pc : Pred)
  | bxi (h : Hdr) (a : Src)
  | next (h : Hdr)
  | call (h : Hdr) (link : Fin 192) (a : Src) (rb : BitVec 5)
  | calli (h : Hdr) (link : Fin 192) (sa save : SPair) (rb : BitVec 5)
  | ret (h : Hdr) (a : Src) (restore : SPair)
  | exit (h : Hdr)
  | exitn (h : Hdr) (k : BitVec 8) (a : Src)
  | yield (h : Hdr) (tgt : BitVec 5)
  | nop (h : Hdr)
  -- group 0x8
  | ld (h : Hdr) (sz : MSize) (sx : Bool) (ord : Order) (hint : Hint) (d : Reg) (m : MemRef)
  | st (h : Hdr) (sz : MSize) (ord : Order) (hint : Hint) (a : Reg) (m : MemRef)
  | ldc (h : Hdr) (sz : MSize) (sx : Bool) (d : Reg) (m : MemRef)
  | lds (h : Hdr) (sz : MSize) (sx : Bool) (d : Reg) (m : ScrRef)
  | sts (h : Hdr) (sz : MSize) (a : Reg) (m : ScrRef)
  | ldt (h : Hdr) (k : LdtCount) (md : LdtMode) (hint : Hint) (d : Reg) (m : MemRef)
  -- group 0x9
  | atom (h : Hdr) (op : AOp) (sz : ASize) (ord : Order) (d : Reg) (m : MemRef)
  | atomcas (h : Hdr) (sz : ASize) (ord : Order) (d : Reg) (m : MemRef)
  | red (h : Hdr) (op : AOp) (sz : ASize) (ord : Order) (a : Reg) (m : MemRef)
  | atoms (h : Hdr) (op : AOp) (sz : ASize) (d : Reg) (m : ScrRef)
  | atomcass (h : Hdr) (sz : ASize) (d : Reg) (m : ScrRef)
  -- group 0xA
  | fence (h : Hdr) (kind : FenceKind) (sc : Scope)
  | bind (h : Hdr) (k : Src) (img : Src)
  | unbind (h : Hdr) (k : Src)
  | cflush (h : Hdr) (l2 : Bool) (m : MemRef)
  | cinv (h : Hdr) (l2 : Bool) (m : MemRef)
  | prf (h : Hdr) (l2 : Bool) (hint : Hint) (m : MemRef)
  | hint (h : Hdr) (md : HintMode) (lv : HintLevels) (m : MemRef)
  | ipf (h : Hdr) (n : IpfCount) (m : MemRef)
  | isync (h : Hdr)
  | stashmap (h : Hdr) (d : Reg) (sg : SPair) (sp : Src)
  | stashwb (h : Hdr) (sh : Src)
  | stashdrop (h : Hdr) (nowb : Bool) (sh : Src)
  -- group 0xB
  | binit (h : Hdr) (o : Reg) (a b : Src)
  | arrive (h : Hdr) (d : Reg) (bar : BarRef)
  | bexpect (h : Hdr) (bar : BarRef) (b : Src)
  | wait (h : Hdr) (k : BitVec 2) (all : Bool) (qd : Fin 3) (d : Reg) (sl timeout : Src)
  | waitSatisfaction (key : CrewKey)
  | waitTimeout (key : CrewKey)
  | waitMemoryRead (key : CrewKey)
  | pause (h : Hdr) (n : Src)
  | pauseExpiry (key : CrewKey)
  | drain (h : Hdr) (mem eng flg : Bool)
  | gbar (h : Hdr)
  | gbarRelease (key : CrewKey)
  -- group 0xC
  | copy (h : Hdr) (o : EngOrder) (dir : CopyDir) (dst : Reg) (src len : Src) (bar : Src)
  | copy2d (h : Hdr) (o : EngOrder) (dir : CopyDir) (dst : Reg) (src shape : Src) (bar : Src)
  | rsv (h : Hdr) (grainer : Bool) (qd : Fin 3) (grp : Option (Fin 4)) (d : Reg) (count : Src)
  | rls (h : Hdr) (grp : Option (Fin 4)) (mask : Src)
  | cld (h : Hdr) (o : EngOrder) (place : Reg) (src stride : Src)
  | mma (h : Hdr) (o : EngOrder) (s4 acc sum : Bool) (out : Reg) (act ctl : Src)
  | gmv (h : Hdr) (o : EngOrder) (desc : Src)
  | mfence (h : Hdr) (d : Reg)
  | copyBeat (core cmd : Nat)
  | cldRow (core cmd : Nat)
  | mmaVector (core cmd : Nat)
  | gmvSegmentStart (core cmd : Nat)
  | engineFailureDelivery (key : CrewKey)
  -- group 0xD
  | enq (h : Hdr) (n : BitVec 4) (k : BitVec 2) (va : Fin 192)
  | enqr (h : Hdr) (n : BitVec 4) (k : BitVec 2) (ss cnt : Src)
  | deq (h : Hdr) (n : BitVec 4) (pd : Fin 8) (vd : Fin 192)
  | launch (h : Hdr) (d : Reg) (q : Src) (rec : Fin 31)
  -- group 0xE
  | trap (h : Hdr) (a : Src)
  | rte (h : Hdr)
  | movsr (h : Hdr) (num : BitVec 8) (d : Reg)
  | setsr (h : Hdr) (num : BitVec 8) (a : Src)
  | mread (h : Hdr) (md : MreadMode) (d : Reg)
  | bkpt (h : Hdr) (tag : BitVec 8)
  | halt (h : Hdr)
  | tmark (h : Hdr) (a : Src)
  -- events of the cores and the Bench
  | instructionCompletion (key : CrewKey) (id : Nat)
  | demandFetch (key : CrewKey)
  | faultRecordWrite (key : CrewKey)
  | faultRecordRetry (ctx : Nat)
  | replay (ctx : Nat)
  | launchQueueWatch (func q : Nat)
  | codeObjectLoad (func q : Nat)
  | codeObjectUnload (func q : Nat)
  | queueVisit (func q : Nat)
  | cooperativeAdmission (launch : Nat)
  | gangReserve (launch : Nat)
  | gangReserveTimeout (launch : Nat)
  | nodeConsumerDispatch (launch : Nat)
  | retirementWriteback (core wg : Nat)
  | workgroupRetirement (core wg : Nat)
  | invalidationRequest (func : Nat)
  | forcedPreemption (core wg : Nat) (cause : Nat)
  | engineDrainTimeout (core wg : Nat)
  | restore (ix : Nat)
  | workgroupAbort (core wg : Nat)
  | coreFence (core : Nat) (site : FenceSite)
  | eccError (site : EccSite) (correctable : Bool)
  -- events of the meters
  | sensorSample (tiles : KMap Int) (substrate : Int)
  | intervalEnd (measured : KMap Nat)
  | grant (core func : Nat)
  | debtReport (core func : Nat)
  | stallSample (core seq : Nat)
  | loadSample (key : CrewKey) (pc va : Nat) (level : Nat) (tlbMiss poison : Bool) (times : List Nat)
  -- debug and state requests
  | stop (core seq : Nat)
  | resume (core seq : Nat)
  | step (core seq : Nat) (slot : Nat)
  | breakpointMatch (key : CrewKey)
  | systemRegisterWrite (agent : RegAgent) (num : Nat) (sel : Nat) (x : W64)
  | stateExport
  | restart
  | release
  -- host port, links, management, start-up
  | cxlMemRead (off n : Nat)
  | cxlMemWrite (off : Nat) (data : DataIn)
  | remoteRequest (peer : Nat) (pa : Nat) (op : RemoteOp)
  | flitReplay (link : Nat)
  | linkDown (link : Nat)
  | telemetry
  | panWrite (func off : Nat) (bytes : List Byte)
  | podIndex (x : Nat)
  | linkEnable (link : Nat)
  | recovery (alternate : Option Nat)
  | reset
  | heartbeatMiss
  | debuggerWrite (key : CrewKey) (off : Nat) (bytes : List Byte)
  | configurationRequest (write : Bool)
  | getMeasurements
  | pauseAndResumeFlits (link : Nat) (pause : Bool)
  | msiXUnmask (func vec : Nat)
  deriving DecidableEq, Repr

end Sys2Proof
end

