-- ==== Sys2Proof/WellFormed.lean ====
section
/-! DEFINITION. Which instructions the encodings of the spec admit (R69-R89 and the encoding table of each family), and
which events name places that the part has. Instr.wf is what a decoded instruction always meets. -/

namespace Sys2Proof

/-- The wait set that a wait selector names (R78). -/
def waitSet (wt : BitVec 4) : BitVec 12 :=
  if wt = 0 then 0
  else if wt = 13 then 0x03F
  else if wt = 14 then 0xFC0
  else if wt = 15 then 0xFFF
  else (1 : BitVec 12) <<< (wt.toNat - 1)

/-- All sixteen wait selectors. -/
def waitSels : List (BitVec 4) := [0, 1, 2, 3, 4, 5, 6, 7, 8, 9, 10, 11, 12, 13, 14, 15]

/-- The selector that names a wait set, where one does. -/
def selOf (w : BitVec 12) : Option (BitVec 4) := waitSels.find? (fun k => waitSet k == w)

/-- A wait set that the form can carry: any in the 128-bit form, a selector's otherwise (R70, R78). -/
def Hdr.waitOk (h : Hdr) : Bool := h.form == .w128 || (selOf h.wait).isSome

/-- PG 4-6 are reserved in a uniform word (R73). -/
def Hdr.guardOk (h : Hdr) : Bool := !h.uni || decide (h.pg.toNat < 4) || h.pg == 7

def Hdr.wf (h : Hdr) : Bool := h.waitOk && h.guardOk

/-- A uniform word names no V register (R73). -/
def Reg.okIn (h : Hdr) : Reg → Bool
  | .v _ => !h.uni
  | _ => true

/-- A source: S63 needs a longer form (R81). -/
def Src.okIn (h : Hdr) : Src → Bool
  | .r x => x.okIn h
  | .imm _ => h.form != .w64

/-- A uniform word names only Q predicates (R123). -/
def Pred.okIn (h : Hdr) : Pred → Bool
  | .p _ => !h.uni
  | .q _ => true

def Src.imms : Src → List W32
  | .imm x => [x]
  | .r _ => []

/-- Two fields that name S63 read the same value (R81). -/
def immsAgree (l : List Src) : Bool :=
  match l.flatMap Src.imms with
  | [] => true
  | x :: t => t.all (· == x)

/-- An immediate of the SC layout is a sign-extended 24-bit value (R81). -/
def isS24 (x : W32) : Bool := (x.extractLsb' 0 24).signExtend 32 == x

def scImmsOk (l : List Src) : Bool := immsAgree l && (l.flatMap Src.imms).all isS24

/-- The third source: in the 64-bit form it is D (R122). -/
def thirdOk (h : Hdr) (d : Reg) (c : Src) : Bool := h.form != .w64 || c == .r d

def wf1 (h : Hdr) (d : Reg) (a : Src) : Bool := h.wf && d.okIn h && a.okIn h
def wf2 (h : Hdr) (d : Reg) (a b : Src) : Bool :=
  h.wf && d.okIn h && a.okIn h && b.okIn h && immsAgree [a, b]
def wf3 (h : Hdr) (d : Reg) (a b c : Src) : Bool :=
  h.wf && d.okIn h && a.okIn h && b.okIn h && c.okIn h && thirdOk h d c && scImmsOk [a, b, c]
/-- Sources without a register destination. -/
def wfS (h : Hdr) (l : List Src) : Bool := h.wf && l.all (Src.okIn h) && immsAgree l

/-- A 64-bit word of the memory layout has displacement 0 (R237). -/
def MemRef.okIn (h : Hdr) (m : MemRef) : Bool := m.off.okIn h && (h.form != .w64 || m.disp == 0)
def ScrRef.okIn (h : Hdr) (m : ScrRef) : Bool :=
  m.base.okIn h && m.off.okIn h && (h.form != .w64 || m.disp == 0)
/-- An ordered access carries its scope in X32 (R85). -/
def Order.okIn (h : Hdr) (o : Order) : Bool := h.form != .w64 || o == .plain
/-- The orders of LD (R248). -/
def Order.plainOrAcq : Order → Bool
  | .plain | .acq _ => true
  | _ => false
/-- The orders of ST and RED (R248, R254). -/
def Order.plainOrRel : Order → Bool
  | .plain | .rel _ => true
  | _ => false
/-- Only loads narrower than a register sign-extend (R240). -/
def sxOk (sz : MSize) (sx : Bool) : Bool := !sx || sz == .b1 || sz == .b2
/-- The sizes that an atomic operation has (R254). -/
def AOp.sizeOk : AOp → ASize → Bool
  | .inc, .b8 | .dec, .b8 | .fadd, .b8 | .fmin, .b8 | .fmax, .b8 => false
  | _, _ => true

def IntTy.std : IntTy → Bool
  | .s32 | .n32 | .s64 | .n64 => true
  | _ => false
def IntTy.w32 : IntTy → Bool
  | .s32 | .n32 => true
  | _ => false
def IntTy.signedOnly : IntTy → Bool
  | .s32 | .s64 | .s16x2 | .s8x4 => true
  | _ => false

/-- QSCALE's targets run from E4M3 to S4 (R141). -/
def NarrowFmt.qOk : NarrowFmt → Bool
  | .f16 | .bf16 => false
  | _ => true

/-- SCAN and VRED: F32 has no bitwise operation, and .SAT is integer ADD's (R149). -/
def scanOk (ty : ScanTy) (op : ScanOp) (sat : Bool) : Bool :=
  (ty != .f32 || op == .add || op == .min || op == .max) && (!sat || (op == .add && ty != .f32))

/-- A barrier offset, or the group slot (R327). -/
def BarRef.okIn (h : Hdr) : BarRef → Bool
  | .off x => x.okIn h
  | .slot _ => true
def BarRef.srcs : BarRef → List Src
  | .off x => [x]
  | .slot _ => []

/-- A place that the part has: 768 cores (R8), 64 crew slots. -/
def CrewKey.ok (k : CrewKey) : Bool := decide (k.core < 768) && decide (k.slot < 64)

/-- Operand positions whose word must have UNI = 1, or UNI = 0. -/
def u1 (h : Hdr) : Bool := h.uni
def u0 (h : Hdr) : Bool := !h.uni

/-- COPY and COPY2D: the 64-bit form names no barrier (R293). -/
def copyOk (h : Hdr) (dst : Reg) (src x bar : Src) : Bool :=
  u1 h && h.wf && dst.okIn h && src.okIn h && x.okIn h && bar.okIn h && scImmsOk [src, x, bar] &&
    (h.form != .w64 || bar == .r .z)

/-- The fields that NEXT fixes (R165's entry). -/
def nextOk (h : Hdr) : Bool := h.bt == 31 && h.pg == 7 && !h.pn && !h.uni && h.sf.isNone && h.waitOk
/-- The fields that REGROUP fixes (R151). -/
def regroupOk (h : Hdr) : Bool := h.bt == 31 && h.pg == 7 && !h.pn && !h.uni && h.waitOk

/-- The encodings' own conditions, constructor by constructor; of an event, that its place exists. -/
def Instr.wf : Instr → Bool
  | .udf => true
  | .iadd h _ d a b | .isub h _ d a b | .iadds h _ d a b | .isubs h _ d a b
  | .imul h _ d a b | .imulh h _ d a b | .imin h _ d a b | .imax h _ d a b => wf2 h d a b
  | .imad h _ d a b c => wf3 h d a b c
  | .imadw h ty d a b c => ty.w32 && wf3 h d a b c
  | .idiv h ty d a b | .irem h ty d a b => ty.std && wf2 h d a b
  | .iabs h ty d a => ty.signedOnly && wf1 h d a
  | .ineg h _ d a => wf1 h d a
  | .iaddc h ty d a b pc | .isubb h ty d a b pc => ty.w32 && pc.okIn h && wf2 h d a b
  | .lea h ty _ d a b => ty.w32 && wf2 h d a b
  | .and h _ d a b | .or h _ d a b | .xor h _ d a b | .andn h _ d a b => wf2 h d a b
  | .not h _ d a => wf1 h d a
  | .bool3 h _ d a b c | .fshr h d a b c | .bfi h d a b c | .bsel h d a b c => wf3 h d a b c
  | .shl h _ d a b | .shr h _ d a b | .sar h _ d a b | .rol h _ d a b => wf2 h d a b
  | .popc h ty d a | .clz h ty d a | .ctz h ty d a | .brev h ty d a => ty.std && wf1 h d a
  | .bfx h ty d a b => ty.w32 && wf2 h d a b
  | .icmp h ty _ pd a b => ty.std && pd.okIn h && wfS h [a, b]
  | .fcmp h _ _ _ pd a b => pd.okIn h && wfS h [a, b]
  | .sel h _ pc d a b => pc.okIn h && wf2 h d a b
  | .mov h _ d a => wf1 h d a
  | .movi h sx hi d _ => !(sx && hi) && h.wf && d.okIn h
  | .movs h d _ => h.wf && d.okIn h
  | .rdl h d => u0 h && h.wf && d.okIn h
  | .fclass h _ d a => wf1 h d a
  | .pand h _ _ pd pa pb | .por h _ _ pd pa pb | .pxor h _ _ pd pa pb =>
      h.wf && pd.okIn h && pa.okIn h && pb.okIn h
  | .pnot h pd pa => h.wf && pd.okIn h && pa.okIn h
  | .p2v h d a => wf1 h d a
  | .v2p h a b => wfS h [a, b]
  | .fadd h _ d a b | .fsub h _ d a b | .fmul h _ d a b | .fdiv h _ d a b | .fscale h _ d a b =>
      wf2 h d a b
  | .fmin h m d a b | .fmax h m d a b => m.rm == .rn && wf2 h d a b
  | .ffma h _ d a b c => wf3 h d a b c
  | .fmed3 h m d a b c => m.rm == .rn && wf3 h d a b c
  | .fsqrt h _ d a | .frnd h _ d a => wf1 h d a
  | .cvtfi h src hi _ _ d a => (src != .f32 || !hi) && wf1 h d a
  | .cvtif h _ _ _ d a => wf1 h d a
  | .cvtff h dst src rm d a b =>
      (dst == .f32) != (src == .f32) && (dst != .f32 || rm == .rn) && wf2 h d a b
  | .cvtne h _ _ d a => u0 h && wf1 h d a
  | .pack h _ _ d a b => wf2 h d a b
  | .unpack h _ _ d a b => wf2 h d a b
  | .qscale h md d a =>
      u0 h && match md with
        | .scale _ t | .div _ t => t.qOk && wf1 h d a
        | .apply b => wf2 h d a b
  | .tern h _ d a b => wf2 h d a b
  | .rcp h m d a | .rsq h m d a | .ex2 h m d a | .lg2 h m d a | .sin h m d a | .cos h m d a
  | .sincos h m d a | .tanh h m d a => m.rm == .rn && wf1 h d a
  | .dot2 h _ _ d a b c | .tdot h _ d a b c => wf3 h d a b c
  | .dot4 h _ _ sc d a b c | .dot8 h _ _ sc d a b c =>
      wf3 h d a b c && match sc with
        | none => true
        | some e => h.form == .w128 && e.okIn h
  | .geti h _ _ d a b | .getx h _ _ d a b => u0 h && wf2 h d a b
  | .getb h _ _ _ d a b | .geta h _ _ _ d a b => u0 h && wf2 h d a b
  | .pany h _ _ _ | .pall h _ _ _ => u0 h && h.wf
  | .pmask h _ _ _ => u0 h && h.wf
  | .peers h _ _ a => u0 h && h.wf && a.okIn h
  | .lead h _ _ => u0 h && h.wf
  | .scan h ty op _ sat d a => u0 h && scanOk ty op sat && wf1 h d a
  | .vred h ty op sat d a => u0 h && scanOk ty op sat && wf1 h d a
  | .regroup h a n => regroupOk h && a.okIn h && decide (n.toNat ≤ 192)
  | .bx h _ => u0 h && h.wf
  | .bxc h _ _ _ pc => u0 h && h.wf && pc.okIn h
  | .bxi h a => u0 h && wfS h [a]
  | .next h => nextOk h
  | .call h _ a _ => u0 h && wfS h [a]
  | .calli h _ _ _ _ => u0 h && h.wf
  | .ret h a _ => u0 h && wfS h [a]
  | .exit h => u0 h && h.wf
  | .exitn h k a => u0 h && wfS h [a] && decide (k.toNat ≤ 192)
  | .yield h _ => u0 h && h.wf
  | .nop h => h.wf
  | .ld h sz sx o _ d m => h.wf && sxOk sz sx && o.okIn h && o.plainOrAcq && d.okIn h && m.okIn h
  | .st h _ o _ a m => h.wf && o.okIn h && o.plainOrRel && a.okIn h && m.okIn h
  | .ldc h sz sx d m => h.wf && sxOk sz sx && d.okIn h && m.okIn h
  | .lds h sz sx d m => h.wf && sxOk sz sx && d.okIn h && m.okIn h
  | .sts h _ a m => h.wf && a.okIn h && m.okIn h
  | .ldt h _ md _ d m => h.wf && d.okIn h && m.okIn h && match md with
      | .scl _ => h.form == .w128
      | _ => true
  | .atom h op sz o d m => h.wf && op.sizeOk sz && o.okIn h && d.okIn h && m.okIn h
  | .atomcas h _ o d m => h.wf && o.okIn h && d.okIn h && m.okIn h
  | .red h op sz o a m => h.wf && op.sizeOk sz && o.okIn h && o.plainOrRel && a.okIn h && m.okIn h
  | .atoms h op sz d m => h.wf && op.sizeOk sz && d.okIn h && m.okIn h
  | .atomcass h _ d m => h.wf && d.okIn h && m.okIn h
  | .fence h _ _ => h.wf
  | .bind h k img => u1 h && wfS h [k, img]
  | .unbind h k => u1 h && wfS h [k]
  | .cflush h _ m | .cinv h _ m => h.wf && m.okIn h
  | .prf h _ _ m => h.wf && m.okIn h
  | .hint h _ _ m => h.wf && m.okIn h
  | .ipf h _ m => h.wf && m.okIn h
  | .isync h => h.wf
  | .stashmap h d _ sp => u1 h && wf1 h d sp
  | .stashwb h sh | .stashdrop h _ sh => u1 h && wfS h [sh]
  | .binit h o a b => u1 h && wf2 h o a b
  | .arrive h d bar => u1 h && h.wf && d.okIn h && bar.okIn h
  | .bexpect h bar b => u1 h && h.wf && bar.okIn h && b.okIn h && immsAgree (b :: bar.srcs)
  | .wait h _ _ _ d sl t => u1 h && wf2 h d sl t
  | .pause h n => u1 h && wfS h [n]
  | .drain h m e f => u1 h && h.wf && (m || e || f)
  | .gbar h => u1 h && h.wf
  | .copy h _ _ dst src len bar => copyOk h dst src len bar
  | .copy2d h _ _ dst src shape bar => copyOk h dst src shape bar
  | .rsv h g _ _ d count => u1 h && wf1 h d count && (!g || count == .r .z)
  | .rls h _ mask => u1 h && wfS h [mask]
  | .cld h _ place src stride => u1 h && wf2 h place src stride
  | .mma h _ _ _ _ out act ctl => u1 h && wf2 h out act ctl
  | .gmv h _ desc => u1 h && wfS h [desc]
  | .mfence h d => u1 h && h.wf && d.okIn h
  | .enq h _ _ _ => u0 h && h.wf
  | .enqr h _ _ ss cnt => u1 h && wfS h [ss, cnt]
  | .deq h _ _ _ => u0 h && h.wf
  | .launch h d q _ => u1 h && wf1 h d q
  | .trap h a => u1 h && wfS h [a]
  | .rte h => u1 h && h.wf
  | .movsr h _ d => u1 h && h.wf && d.okIn h
  | .setsr h _ a => u1 h && wfS h [a]
  | .mread h md d => u1 h && match md with
      | .ev c => wf1 h d c
      | _ => h.wf && d.okIn h
  | .bkpt h _ => u1 h && h.wf
  | .halt h => u1 h && h.wf
  | .tmark h a => u1 h && wfS h [a]
  -- events
  | .waitSatisfaction k | .waitTimeout k | .waitMemoryRead k | .pauseExpiry k | .gbarRelease k
  | .engineFailureDelivery k | .instructionCompletion k _ | .demandFetch k | .faultRecordWrite k
  | .loadSample k _ _ _ _ _ _ | .breakpointMatch k | .debuggerWrite k _ _ => k.ok
  | .regroupExchange c _ | .copyBeat c _ | .cldRow c _ | .mmaVector c _ | .gmvSegmentStart c _
  | .retirementWriteback c _ | .workgroupRetirement c _ | .forcedPreemption c _ _
  | .engineDrainTimeout c _ | .workgroupAbort c _ | .coreFence c _ => decide (c < 768)
  | .grant c f | .debtReport c f => decide (c < 768) && decide (f < 64)
  | .stallSample c q | .stop c q | .resume c q => decide (c < 768) && decide (q < 4)
  | .step c q k => decide (c < 768) && decide (q < 4) && decide (k < 16)
  | .faultRecordRetry c | .replay c => decide (c < 4096)
  | .launchQueueWatch f _ | .codeObjectLoad f _ | .codeObjectUnload f _ | .queueVisit f _
  | .invalidationRequest f | .panWrite f _ _ | .msiXUnmask f _ => decide (f < 64)
  | .cooperativeAdmission _ | .gangReserve _ | .gangReserveTimeout _ | .nodeConsumerDispatch _
  | .restore _ | .eccError _ _ | .sensorSample _ _ | .intervalEnd _ | .systemRegisterWrite _ _ _ _
  | .stateExport | .restart | .release | .cxlMemRead _ _ | .cxlMemWrite _ _ | .remoteRequest _ _ _
  | .flitReplay _ | .linkDown _ | .telemetry | .podIndex _ | .linkEnable _ | .recovery _ | .reset
  | .heartbeatMiss | .configurationRequest _ | .getMeasurements | .pauseAndResumeFlits _ _ => true

end Sys2Proof
end

