-- ==== Sys2Proof/Decode.lean ====
section
/-! DEFINITION. The instruction word (R69, R70), the decoder, total on any bits and refusing by name (R89), and the
encoder, both written from the encoding tables of the spec. -/

namespace Sys2Proof

/-- Why a word is not an instruction (R71, R89). -/
inductive DecErr
  | pad | op | sf | wt | guard | uni | vReg | imm | predCode | field | mod | x32 | scope | order | ext | len
  deriving DecidableEq, Repr

abbrev Dec := Except DecErr

/-- The fields of a word (R69, R70). -/
structure Raw where
  form : Form
  bt   : BitVec 5
  sd   : BitVec 3
  uni  : Bool
  wt   : BitVec 4
  sf   : BitVec 4
  op   : BitVec 9
  dst  : BitVec 8
  sa   : BitVec 8
  sb   : BitVec 8
  pg   : BitVec 3
  pn   : Bool
  mod  : BitVec 8
  x32  : W32
  wm   : BitVec 12
  ext  : BitVec 20
  deriving DecidableEq, Repr

def Form.code : Form → BitVec 2
  | .w64 => 0
  | .w96 => 1
  | .w128 => 2

/-- Bytes of each form. -/
def Form.bytes : Form → Nat
  | .w64 => 8
  | .w96 => 12
  | .w128 => 16

def Form.ofCode (c : BitVec 2) : Option Form :=
  if c = 0 then some .w64 else if c = 1 then some .w96 else if c = 2 then some .w128 else none

/-- Is bit `k` of `x` 1. -/
def bitAt {n : Nat} (x : BitVec n) (k : Nat) : Bool := x.extractLsb' k 1 == 1

/-- The fields of a word of the given form; the bits that the form lacks read 0. -/
def Raw.ofBits (f : Form) (w : BitVec 128) : Raw where
  form := f
  bt := w.extractLsb' 2 5
  sd := w.extractLsb' 7 3
  uni := bitAt w 10
  wt := w.extractLsb' 11 4
  sf := w.extractLsb' 15 4
  op := w.extractLsb' 19 9
  dst := w.extractLsb' 28 8
  sa := w.extractLsb' 36 8
  sb := w.extractLsb' 44 8
  pg := w.extractLsb' 52 3
  pn := bitAt w 55
  mod := w.extractLsb' 56 8
  x32 := if f == .w64 then 0 else w.extractLsb' 64 32
  wm := if f == .w128 then w.extractLsb' 96 12 else 0
  ext := if f == .w128 then w.extractLsb' 108 20 else 0

def bit1 (b : Bool) : BitVec 1 := BitVec.ofBool b

/-- The word of its fields. -/
def Raw.toBits (r : Raw) : BitVec 128 :=
  r.ext ++ r.wm ++ r.x32 ++ r.mod ++ bit1 r.pn ++ r.pg ++ r.sb ++ r.sa ++ r.dst ++ r.op ++ r.sf ++ r.wt ++
    bit1 r.uni ++ r.sd ++ r.bt ++ r.form.code

/-- A field that the word's form lacks is 0 in the Raw of it. -/
def Raw.fits (r : Raw) : Bool :=
  match r.form with
  | .w64 => r.x32 == 0 && r.wm == 0 && r.ext == 0
  | .w96 => r.wm == 0 && r.ext == 0
  | .w128 => true

/-! ## Codes of the enumerated fields -/

def IntTy.code : IntTy → BitVec 3
  | .s32 => 0 | .n32 => 1 | .s64 => 2 | .n64 => 3 | .s16x2 => 4 | .n16x2 => 5 | .s8x4 => 6 | .n8x4 => 7
def IntTy.ofCode (c : BitVec 3) : IntTy :=
  match c with
  | 0 => .s32 | 1 => .n32 | 2 => .s64 | 3 => .n64 | 4 => .s16x2 | 5 => .n16x2 | 6 => .s8x4 | _ => .n8x4
def FlTy.code : FlTy → BitVec 3
  | .f32 => 0 | .f16x2 => 1 | .bf16x2 => 2
def FlTy.ofCode (c : BitVec 3) : Option FlTy :=
  match c with
  | 0 => some .f32 | 1 => some .f16x2 | 2 => some .bf16x2 | _ => none
def Rm.code : Rm → BitVec 2
  | .rn => 0 | .rz => 1 | .rp => 2 | .rm => 3
def Rm.ofCode (c : BitVec 2) : Rm :=
  match c with
  | 0 => .rn | 1 => .rz | 2 => .rp | _ => .rm
def Cc.code : Cc → BitVec 3
  | .eq => 0 | .ne => 1 | .lt => 2 | .le => 3 | .gt => 4 | .ge => 5
def Cc.ofCode (c : BitVec 3) : Option Cc :=
  match c with
  | 0 => some .eq | 1 => some .ne | 2 => some .lt | 3 => some .le | 4 => some .gt | 5 => some .ge | _ => none
def FCc.code : FCc → BitVec 3
  | .eq => 0 | .ne => 1 | .lt => 2 | .le => 3 | .gt => 4 | .ge => 5 | .un => 6 | .or => 7
def FCc.ofCode (c : BitVec 3) : FCc :=
  match c with
  | 0 => .eq | 1 => .ne | 2 => .lt | 3 => .le | 4 => .gt | 5 => .ge | 6 => .un | _ => .or
/-- CVTFF's format codes (R136). -/
def FFmt.code : FFmt → BitVec 3
  | .f32 => 0 | .f16 => 1 | .bf16 => 2 | .e4m3 => 3 | .e5m2 => 4 | .e2m1 => 5
def FFmt.ofCode (c : BitVec 3) : Option FFmt :=
  match c with
  | 0 => some .f32 | 1 => some .f16 | 2 => some .bf16 | 3 => some .e4m3 | 4 => some .e5m2 | 5 => some .e2m1
  | _ => none
def CvtInt.code : CvtInt → BitVec 3
  | .s32 => 0 | .n32 => 1 | .s64 => 2 | .n64 => 3 | .s16 => 4 | .n16 => 5 | .s8 => 6 | .n8 => 7
def CvtInt.ofCode (c : BitVec 3) : CvtInt :=
  match c with
  | 0 => .s32 | 1 => .n32 | 2 => .s64 | 3 => .n64 | 4 => .s16 | 5 => .n16 | 6 => .s8 | _ => .n8
/-- CVTNE's and QSCALE's target codes (R136). -/
def NarrowFmt.code : NarrowFmt → BitVec 3
  | .f16 => 0 | .bf16 => 1 | .e4m3 => 2 | .e5m2 => 3 | .e2m1 => 4 | .s8 => 5 | .s4 => 6
def NarrowFmt.ofCode (c : BitVec 3) : Option NarrowFmt :=
  match c with
  | 0 => some .f16 | 1 => some .bf16 | 2 => some .e4m3 | 3 => some .e5m2 | 4 => some .e2m1 | 5 => some .s8
  | 6 => some .s4 | _ => none
def Blk.code : Blk → BitVec 2
  | .b16 => 0 | .b32 => 1 | .b64 => 2
def Blk.ofCode (c : BitVec 2) : Option Blk :=
  match c with
  | 0 => some .b16 | 1 => some .b32 | 2 => some .b64 | _ => none
def PkW.code : PkW → BitVec 2
  | .w2 => 0 | .w4 => 1 | .w8 => 2 | .w16 => 3
def PkW.ofCode (c : BitVec 2) : PkW :=
  match c with
  | 0 => .w2 | 1 => .w4 | 2 => .w8 | _ => .w16
def PkMode.code : PkMode → BitVec 2
  | .trunc => 0 | .ss => 1 | .sn => 2
def PkMode.ofCode (c : BitVec 2) : Option PkMode :=
  match c with
  | 0 => some .trunc | 1 => some .ss | 2 => some .sn | _ => none
def TernOut.code : TernOut → BitVec 3
  | .s8x4 => 0 | .s16x2 => 1 | .s32 => 2
def TernOut.ofCode (c : BitVec 3) : Option TernOut :=
  match c with
  | 0 => some .s8x4 | 1 => some .s16x2 | 2 => some .s32 | _ => none
def Dot2Fmt.code : Dot2Fmt → BitVec 2
  | .f16 => 0 | .bf16 => 1
def Dot2Fmt.ofCode (c : BitVec 2) : Option Dot2Fmt :=
  match c with
  | 0 => some .f16 | 1 => some .bf16 | _ => none
def Dot4Fmt.code : Dot4Fmt → BitVec 2
  | .e4m3 => 0 | .e5m2 => 1 | .s8 => 2
def Dot4Fmt.ofCode (c : BitVec 2) : Option Dot4Fmt :=
  match c with
  | 0 => some .e4m3 | 1 => some .e5m2 | 2 => some .s8 | _ => none
def Dot8Fmt.code : Dot8Fmt → BitVec 2
  | .e2m1 => 0 | .s4 => 1
def Dot8Fmt.ofCode (c : BitVec 2) : Option Dot8Fmt :=
  match c with
  | 0 => some .e2m1 | 1 => some .s4 | _ => none
def SegW.code : SegW → BitVec 3
  | .w64 => 0 | .w32 => 1 | .w16 => 2 | .w8 => 3 | .w4 => 4 | .w2 => 5
def SegW.ofCode (c : BitVec 3) : Option SegW :=
  match c with
  | 0 => some .w64 | 1 => some .w32 | 2 => some .w16 | 3 => some .w8 | 4 => some .w4 | 5 => some .w2
  | _ => none
def ScanOp.code : ScanOp → BitVec 3
  | .add => 0 | .min => 1 | .max => 2 | .and => 3 | .or => 4 | .xor => 5
def ScanOp.ofCode (c : BitVec 3) : Option ScanOp :=
  match c with
  | 0 => some .add | 1 => some .min | 2 => some .max | 3 => some .and | 4 => some .or | 5 => some .xor
  | _ => none
def ScanTy.code : ScanTy → BitVec 3
  | .s32 => 0 | .n32 => 1 | .s64 => 2 | .n64 => 3 | .f32 => 4
def ScanTy.ofCode (c : BitVec 3) : Option ScanTy :=
  match c with
  | 0 => some .s32 | 1 => some .n32 | 2 => some .s64 | 3 => some .n64 | 4 => some .f32 | _ => none
def MSize.code : MSize → BitVec 3
  | .b1 => 0 | .b2 => 1 | .b4 => 2 | .b8 => 3 | .b16 => 4
def MSize.ofCode (c : BitVec 3) : Option MSize :=
  match c with
  | 0 => some .b1 | 1 => some .b2 | 2 => some .b4 | 3 => some .b8 | 4 => some .b16 | _ => none
def Scope.code : Scope → BitVec 3
  | .thread => 0 | .crew => 1 | .wg => 2 | .die => 3 | .dev => 4 | .sys => 5 | .pod => 6
def Scope.ofCode (c : BitVec 3) : Option Scope :=
  match c with
  | 0 => some .thread | 1 => some .crew | 2 => some .wg | 3 => some .die | 4 => some .dev | 5 => some .sys
  | 6 => some .pod | _ => none
def Hint.code : Hint → BitVec 2
  | .normal => 0 | .ef => 1 | .el => 2 | .na => 3
def Hint.ofCode (c : BitVec 2) : Hint :=
  match c with
  | 0 => .normal | 1 => .ef | 2 => .el | _ => .na
def LdtCount.code : LdtCount → BitVec 2
  | .x1 => 0 | .x2 => 1 | .x4 => 2
def LdtCount.ofCode (c : BitVec 2) : Option LdtCount :=
  match c with
  | 0 => some .x1 | 1 => some .x2 | 2 => some .x4 | _ => none
def AOp.code : AOp → BitVec 4
  | .add => 0 | .and => 1 | .or => 2 | .xor => 3 | .exch => 4 | .mins => 5 | .maxs => 6 | .minn => 7
  | .maxn => 8 | .inc => 9 | .dec => 10 | .fadd => 11 | .fmin => 12 | .fmax => 13
def AOp.ofCode (c : BitVec 4) : Option AOp :=
  match c with
  | 0 => some .add | 1 => some .and | 2 => some .or | 3 => some .xor | 4 => some .exch | 5 => some .mins
  | 6 => some .maxs | 7 => some .minn | 8 => some .maxn | 9 => some .inc | 10 => some .dec
  | 11 => some .fadd | 12 => some .fmin | 13 => some .fmax | _ => none
def ASize.code : ASize → BitVec 2
  | .b4 => 0 | .b8 => 1
def ASize.ofCode (c : BitVec 2) : Option ASize :=
  match c with
  | 0 => some .b4 | 1 => some .b8 | _ => none
def FenceKind.code : FenceKind → BitVec 2
  | .acq => 1 | .rel => 2 | .both => 3
def FenceKind.ofCode (c : BitVec 2) : Option FenceKind :=
  match c with
  | 1 => some .acq | 2 => some .rel | 3 => some .both | _ => none
def HintMode.code : HintMode → BitVec 2
  | .norm => 0 | .ef => 1 | .el => 2
def HintMode.ofCode (c : BitVec 2) : Option HintMode :=
  match c with
  | 0 => some .norm | 1 => some .ef | 2 => some .el | _ => none
def HintLevels.code : HintLevels → BitVec 2
  | .l1 => 1 | .l2 => 2 | .l12 => 3
def HintLevels.ofCode (c : BitVec 2) : Option HintLevels :=
  match c with
  | 1 => some .l1 | 2 => some .l2 | 3 => some .l12 | _ => none
def IpfCount.code : IpfCount → BitVec 2
  | .n1 => 0 | .n2 => 1 | .n4 => 2 | .n8 => 3
def IpfCount.ofCode (c : BitVec 2) : IpfCount :=
  match c with
  | 0 => .n1 | 1 => .n2 | 2 => .n4 | _ => .n8
def CopyDir.code : CopyDir → BitVec 2
  | .gg => 0 | .gs => 1 | .sg => 2 | .ss => 3
def CopyDir.ofCode (c : BitVec 2) : CopyDir :=
  match c with
  | 0 => .gg | 1 => .gs | 2 => .sg | _ => .ss
/-- Qd of WAIT and RSV (R301, R327). -/
def qdOf (c : BitVec 2) : Option (Fin 3) :=
  match c with
  | 0 => some 0 | 1 => some 1 | 2 => some 2 | _ => none
def fin2 (k : BitVec 2) : Fin 4 := k.toFin
def codeFin4 (k : Fin 4) : BitVec 2 := BitVec.ofFin k

/-! ## Reading the fields of a word -/

def need (b : Bool) (e : DecErr) : Dec Unit := if b then .ok () else .error e

def optE {α : Type} (o : Option α) (e : DecErr) : Dec α :=
  match o with
  | some x => .ok x
  | none => .error e

/-- A register field (R80). S63 is no register, and a uniform word names no V register (R73). -/
def regOf (uni : Bool) (c : BitVec 8) : Dec Reg :=
  if h : c.toNat < 192 then (if uni then .error .vReg else .ok (.v ⟨c.toNat, h⟩))
  else if h2 : c.toNat < 254 then .ok (.s ⟨c.toNat - 192, by omega⟩)
  else if c.toNat = 254 then .ok .z
  else .error .imm

/-- A predicate code (R123). -/
def predOf (uni : Bool) (c : Nat) : Dec Pred :=
  if h : c < 8 then (if uni then .error .predCode else .ok (.p ⟨c, h⟩))
  else if h2 : c < 12 then .ok (.q ⟨c - 8, by omega⟩)
  else .error .predCode

/-- An even S number from 192 to 252, or 254. -/
def spairOf (c : BitVec 8) : Dec SPair :=
  if c.toNat = 254 then .ok .z
  else if h : 192 ≤ c.toNat ∧ c.toNat ≤ 252 ∧ c.toNat % 2 = 0 then .ok (.pr ⟨(c.toNat - 192) / 2, by omega⟩)
  else .error .field

def vOf (c : BitVec 8) : Dec (Fin 192) :=
  if h : c.toNat < 192 then .ok ⟨c.toNat, h⟩ else .error .field

/-- The control fields (R69, R70, R73). -/
def hdrOf (r : Raw) : Dec Hdr := do
  need (r.form != .w128 || r.wt == 0) .wt
  need (!r.uni || decide (r.pg.toNat < 4) || r.pg == 7) .guard
  let sf ← if h : r.sf.toNat < 12 then Except.ok (some (⟨r.sf.toNat, h⟩ : Fin 12))
           else if r.sf = 15 then .ok none else .error .sf
  .ok { form := r.form, bt := r.bt, sd := r.sd, uni := r.uni,
        wait := if r.form == .w128 then r.wm else waitSet r.wt, sf := sf, pg := r.pg, pn := r.pn }

/-- The sign-extended immediate of the SC layout (R70, R81). -/
def scImm (r : Raw) : W32 := (r.x32.extractLsb' 8 24).signExtend 32

def srcOf (r : Raw) (imm : W32) (c : BitVec 8) : Dec Src :=
  if c = 255 then (if r.form == .w64 then .error .imm else .ok (.imm imm))
  else (regOf r.uni c).map .r

def dstR (r : Raw) : Dec Reg := regOf r.uni r.dst
def srcI (r : Raw) (c : BitVec 8) : Dec Src := srcOf r r.x32 c
def srcC (r : Raw) (c : BitVec 8) : Dec Src := srcOf r (scImm r) c

/-- X32 in the immediate layout is 0 unless one of these fields names S63 (R70). -/
def immX (r : Raw) (l : List (BitVec 8)) : Dec Unit := need (r.x32 == 0 || l.any (· == 255)) .x32
def noX (r : Raw) : Dec Unit := need (r.x32 == 0) .x32
def noE (r : Raw) : Dec Unit := need (r.ext == 0) .ext
def scCode (r : Raw) : BitVec 8 := r.x32.extractLsb' 0 8
/-- X32 bits 31:8 in the SC layout (R122). -/
def scX (r : Raw) : Dec Unit :=
  need (r.x32.extractLsb' 8 24 == 0 || [r.sa, r.sb, scCode r].any (· == 255)) .x32
def fix0 (r : Raw) : Dec Unit := need (!r.uni) .uni
def fix1 (r : Raw) : Dec Unit := need r.uni .uni
/-- Bits `k` and up of MOD are 0 (R85). -/
def modZ (r : Raw) (k : Nat) : Dec Unit := need (r.mod.toNat / 2 ^ k == 0) .mod
/-- Bits `k` to `k + n - 1` of MOD. -/
def mf (r : Raw) (k n : Nat) : BitVec n := r.mod.extractLsb' k n
def mb (r : Raw) (k : Nat) : Bool := bitAt r.mod k

/-! ## The shapes of operand lists -/

/-- D, A. -/
def dec1 (r : Raw) (f : Hdr → Reg → Src → Instr) : Dec Instr := do
  let h ← hdrOf r
  let d ← dstR r
  let a ← srcI r r.sa
  immX r [r.sa]
  noE r
  .ok (f h d a)

/-- D, A, B. -/
def dec2 (r : Raw) (f : Hdr → Reg → Src → Src → Instr) : Dec Instr := do
  let h ← hdrOf r
  let d ← dstR r
  let a ← srcI r r.sa
  let b ← srcI r r.sb
  immX r [r.sa, r.sb]
  noE r
  .ok (f h d a b)

/-- The three sources of R122, EXT left to the caller. -/
def dec3E (r : Raw) (f : Hdr → Reg → Src → Src → Src → Instr) : Dec Instr := do
  let h ← hdrOf r
  let d ← dstR r
  let a ← srcC r r.sa
  let b ← srcC r r.sb
  let c ← if r.form == .w64 then .ok (.r d) else srcC r (scCode r)
  if r.form == .w64 then .ok () else scX r
  .ok (f h d a b c)

/-- D, A, B, C. -/
def dec3 (r : Raw) (f : Hdr → Reg → Src → Src → Src → Instr) : Dec Instr := do
  noE r
  dec3E r f

/-- A alone, in SA. -/
def decA (r : Raw) (f : Hdr → Src → Instr) : Dec Instr := do
  let h ← hdrOf r
  let a ← srcI r r.sa
  immX r [r.sa]
  noE r
  .ok (f h a)

/-- A and B, DST unused. -/
def decAB (r : Raw) (f : Hdr → Src → Src → Instr) : Dec Instr := do
  let h ← hdrOf r
  let a ← srcI r r.sa
  let b ← srcI r r.sb
  immX r [r.sa, r.sb]
  noE r
  .ok (f h a b)

/-- No operand field. -/
def dec0 (r : Raw) (f : Hdr → Instr) : Dec Instr := do
  let h ← hdrOf r
  noX r
  noE r
  .ok (f h)

/-- DST alone. -/
def decD (r : Raw) (f : Hdr → Reg → Instr) : Dec Instr := do
  let d ← dstR r
  dec0 r (fun h => f h d)

/-- A predicate in DST (R123). -/
def decPd (r : Raw) : Dec Pred := predOf r.uni r.dst.toNat

/-- The memory layout: base pair, offset, displacement (R236, R237), scope left to the caller. -/
def memOf (r : Raw) : Dec MemRef := do
  let base ← spairOf r.sa
  let off ← regOf r.uni r.sb
  need (r.x32.extractLsb' 3 5 == 0) .x32
  .ok { base := base, off := off, disp := r.x32.extractLsb' 8 24 }

/-- A reference to scratchpad. A V number in SA is read by each thread for itself (assumption 66). -/
def scrOf (r : Raw) : Dec ScrRef := do
  let base ← regOf r.uni r.sa
  let off ← regOf r.uni r.sb
  need (r.x32.extractLsb' 0 8 == 0) .x32
  .ok { base := base, off := off, disp := r.x32.extractLsb' 8 24 }

/-- An access without an order has no scope (R237). -/
def noScope (r : Raw) : Dec Unit := need (r.x32.extractLsb' 0 3 == 0) .scope

/-- The order field and the scope it carries (R85, R237). -/
def ordOf (r : Raw) (c : BitVec 2) : Dec Order :=
  if c = 0 then (noScope r).map (fun _ => .plain)
  else do
    need (r.form != .w64) .order
    let sc ← optE (Scope.ofCode (r.x32.extractLsb' 0 3)) .scope
    .ok (if c = 1 then .acq sc else if c = 2 then .rel sc else .ar sc)

/-- D and a global reference. -/
def decMem (r : Raw) (f : Hdr → Reg → MemRef → Instr) : Dec Instr := do
  let h ← hdrOf r
  let d ← dstR r
  let m ← memOf r
  noE r
  .ok (f h d m)

/-- A global reference alone, with no order. -/
def decLine (r : Raw) (f : Hdr → MemRef → Instr) : Dec Instr := do
  let h ← hdrOf r
  let m ← memOf r
  noScope r
  noE r
  .ok (f h m)

/-- D and a scratchpad reference. -/
def decScr (r : Raw) (f : Hdr → Reg → ScrRef → Instr) : Dec Instr := do
  let h ← hdrOf r
  let d ← dstR r
  let m ← scrOf r
  noE r
  .ok (f h d m)

/-! ## The modifiers -/

def intTy (r : Raw) (ok : IntTy → Bool) : Dec IntTy := do
  let ty := IntTy.ofCode (mf r 0 3)
  need (ok ty) .mod
  .ok ty

def allTy (_ : IntTy) : Bool := true

def flMod (r : Raw) : Dec FlMod := do
  let ty ← optE (FlTy.ofCode (mf r 0 3)) .mod
  .ok { ty := ty, rm := Rm.ofCode (mf r 3 2), sat := mb r 5, nega := mb r 7, absa := mb r 6 }

/-- Float MOD with rounding fixed at 00. -/
def flModN (r : Raw) : Dec FlMod := do
  let m ← flMod r
  need (m.rm == .rn) .mod
  .ok m

/-- The order bits of the engine commands (R294). -/
def engOrd (r : Raw) : Dec EngOrder :=
  match mb r 7, mb r 6 with
  | false, false => (need (mf r 3 3 == 0) .mod).map (fun _ => .none)
  | true, false => (optE (Scope.ofCode (mf r 3 3)) .mod).map .acq
  | false, true => (optE (Scope.ofCode (mf r 3 3)) .mod).map .rel
  | true, true => (optE (Scope.ofCode (mf r 3 3)) .mod).map .ar

/-! ## The groups -/

def decIntTy (r : Raw) (ok : IntTy → Bool) (k : IntTy → Dec Instr) : Dec Instr := do
  modZ r 3
  let ty ← intTy r ok
  k ty

def decCarry (r : Raw) (f : Hdr → IntTy → Reg → Src → Src → Pred → Instr) : Dec Instr := do
  modZ r 7
  let ty ← intTy r IntTy.w32
  let pc ← predOf r.uni (mf r 3 4).toNat
  dec2 r (fun h d a b => f h ty d a b pc)

/-- Group 0x0 (R126). -/
def decG0 (minor : Nat) (r : Raw) : Dec Instr :=
  match minor with
  | 0x00 => .ok .udf
  | 0x01 => decIntTy r allTy (fun ty => dec2 r (fun h d a b => .iadd h ty d a b))
  | 0x02 => decIntTy r allTy (fun ty => dec2 r (fun h d a b => .isub h ty d a b))
  | 0x03 => decIntTy r allTy (fun ty => dec2 r (fun h d a b => .iadds h ty d a b))
  | 0x04 => decIntTy r allTy (fun ty => dec2 r (fun h d a b => .isubs h ty d a b))
  | 0x05 => decIntTy r allTy (fun ty => dec2 r (fun h d a b => .imul h ty d a b))
  | 0x06 => decIntTy r allTy (fun ty => dec2 r (fun h d a b => .imulh h ty d a b))
  | 0x07 => decIntTy r allTy (fun ty => dec3 r (fun h d a b c => .imad h ty d a b c))
  | 0x08 => decIntTy r IntTy.w32 (fun ty => dec3 r (fun h d a b c => .imadw h ty d a b c))
  | 0x09 => decIntTy r IntTy.std (fun ty => dec2 r (fun h d a b => .idiv h ty d a b))
  | 0x0A => decIntTy r IntTy.std (fun ty => dec2 r (fun h d a b => .irem h ty d a b))
  | 0x0B => decIntTy r allTy (fun ty => dec2 r (fun h d a b => .imin h ty d a b))
  | 0x0C => decIntTy r allTy (fun ty => dec2 r (fun h d a b => .imax h ty d a b))
  | 0x0D => decIntTy r IntTy.signedOnly (fun ty => dec1 r (fun h d a => .iabs h ty d a))
  | 0x0E => decIntTy r allTy (fun ty => dec1 r (fun h d a => .ineg h ty d a))
  | 0x0F => decCarry r .iaddc
  | 0x10 => decCarry r .isubb
  | 0x11 => do
      modZ r 6
      let ty ← intTy r IntTy.w32
      dec2 r (fun h d a b => .lea h ty (mf r 3 3) d a b)
  | _ => .error .op

/-- Group 0x1 (R128). -/
def decG1 (minor : Nat) (r : Raw) : Dec Instr :=
  match minor with
  | 0x00 => decIntTy r allTy (fun ty => dec2 r (fun h d a b => .and h ty d a b))
  | 0x01 => decIntTy r allTy (fun ty => dec2 r (fun h d a b => .or h ty d a b))
  | 0x02 => decIntTy r allTy (fun ty => dec2 r (fun h d a b => .xor h ty d a b))
  | 0x03 => decIntTy r allTy (fun ty => dec2 r (fun h d a b => .andn h ty d a b))
  | 0x04 => decIntTy r allTy (fun ty => dec1 r (fun h d a => .not h ty d a))
  | 0x05 => dec3 r (fun h d a b c => .bool3 h r.mod d a b c)
  | 0x06 => decIntTy r allTy (fun ty => dec2 r (fun h d a b => .shl h ty d a b))
  | 0x07 => decIntTy r allTy (fun ty => dec2 r (fun h d a b => .shr h ty d a b))
  | 0x08 => decIntTy r allTy (fun ty => dec2 r (fun h d a b => .sar h ty d a b))
  | 0x09 => decIntTy r allTy (fun ty => dec2 r (fun h d a b => .rol h ty d a b))
  | 0x0A => do
      modZ r 0
      dec3 r (fun h d a b c => .fshr h d a b c)
  | 0x0B => decIntTy r IntTy.std (fun ty => dec1 r (fun h d a => .popc h ty d a))
  | 0x0C => decIntTy r IntTy.std (fun ty => dec1 r (fun h d a => .clz h ty d a))
  | 0x0D => decIntTy r IntTy.std (fun ty => dec1 r (fun h d a => .ctz h ty d a))
  | 0x0E => decIntTy r IntTy.std (fun ty => dec1 r (fun h d a => .brev h ty d a))
  | 0x0F => decIntTy r IntTy.w32 (fun ty => dec2 r (fun h d a b => .bfx h ty d a b))
  | 0x10 => do
      modZ r 0
      dec3 r (fun h d a b c => .bfi h d a b c)
  | 0x11 => do
      modZ r 0
      dec3 r (fun h d a b c => .bsel h d a b c)
  | _ => .error .op

def decP3 (r : Raw) (f : Hdr → Bool → Bool → Pred → Pred → Pred → Instr) : Dec Instr := do
  modZ r 2
  let pd ← decPd r
  let pa ← predOf r.uni r.sa.toNat
  let pb ← predOf r.uni r.sb.toNat
  dec0 r (fun h => f h (mb r 0) (mb r 1) pd pa pb)

/-- Group 0x2 (R130-R132). -/
def decG2 (minor : Nat) (r : Raw) : Dec Instr :=
  match minor with
  | 0x00 => do
      modZ r 6
      let ty ← intTy r IntTy.std
      let cc ← optE (Cc.ofCode (mf r 3 3)) .mod
      let pd ← decPd r
      decAB r (fun h a b => .icmp h ty cc pd a b)
  | 0x01 => do
      need (mf r 0 3 == 0) .mod
      let pd ← decPd r
      decAB r (fun h a b => .fcmp h (FCc.ofCode (mf r 3 3)) (mb r 7) (mb r 6) pd a b)
  | 0x02 => do
      modZ r 5
      let pc ← predOf r.uni (mf r 0 4).toNat
      dec2 r (fun h d a b => .sel h (mb r 4) pc d a b)
  | 0x03 => decIntTy r allTy (fun ty => dec1 r (fun h d a => .mov h ty d a))
  | 0x04 => do
      modZ r 2
      need (!(mb r 0 && mb r 1)) .mod
      decD r (fun h d => .movi h (mb r 0) (mb r 1) d (r.sb ++ r.sa))
  | 0x05 => do
      modZ r 0
      decD r (fun h d => .movs h d r.sa)
  | 0x06 => decP3 r .pand
  | 0x07 => decP3 r .por
  | 0x08 => decP3 r .pxor
  | 0x09 => do
      modZ r 0
      let pd ← decPd r
      let pa ← predOf r.uni r.sa.toNat
      dec0 r (fun h => .pnot h pd pa)
  | 0x0A => do
      modZ r 0
      dec1 r (fun h d a => .p2v h d a)
  | 0x0B => do
      modZ r 0
      decAB r (fun h a b => .v2p h a b)
  | 0x0C => do
      modZ r 0
      fix0 r
      decD r (fun h d => .rdl h d)
  | 0x0D => do
      modZ r 3
      let ty ← optE (FlTy.ofCode (mf r 0 3)) .mod
      dec1 r (fun h d a => .fclass h ty d a)
  | _ => .error .op

def decFl1 (r : Raw) (m : Raw → Dec FlMod) (f : Hdr → FlMod → Reg → Src → Instr) : Dec Instr := do
  let m ← m r
  dec1 r (fun h d a => f h m d a)
def decFl2 (r : Raw) (m : Raw → Dec FlMod) (f : Hdr → FlMod → Reg → Src → Src → Instr) : Dec Instr := do
  let m ← m r
  dec2 r (fun h d a b => f h m d a b)
def decFl3 (r : Raw) (m : Raw → Dec FlMod) (f : Hdr → FlMod → Reg → Src → Src → Src → Instr) : Dec Instr := do
  let m ← m r
  dec3 r (fun h d a b c => f h m d a b c)

/-- Group 0x3 (R134). -/
def decG3 (minor : Nat) (r : Raw) : Dec Instr :=
  match minor with
  | 0x00 => decFl2 r flMod .fadd
  | 0x01 => decFl2 r flMod .fsub
  | 0x02 => decFl2 r flMod .fmul
  | 0x03 => decFl3 r flMod .ffma
  | 0x04 => decFl2 r flModN .fmin
  | 0x05 => decFl2 r flModN .fmax
  | 0x06 => decFl2 r flMod .fdiv
  | 0x07 => decFl1 r flMod .fsqrt
  | 0x08 => decFl2 r flMod .fscale
  | 0x09 => decFl1 r flMod .frnd
  | 0x0A => decFl3 r flModN .fmed3
  | _ => .error .op

def flTy2 (c : BitVec 2) : Option FlTy :=
  match c with
  | 0 => some .f32 | 1 => some .f16x2 | 2 => some .bf16x2 | _ => none

/-- Group 0x4 (R137-R142). -/
def decG4 (minor : Nat) (r : Raw) : Dec Instr :=
  match minor with
  | 0x00 => do
      let src ← optE (flTy2 (mf r 0 2)) .mod
      need (src != .f32 || !mb r 2) .mod
      dec1 r (fun h d a => .cvtfi h src (mb r 2) (Rm.ofCode (mf r 3 2)) (CvtInt.ofCode (mf r 5 3)) d a)
  | 0x01 => do
      modZ r 7
      let dst ← optE (flTy2 (mf r 5 2)) .mod
      dec1 r (fun h d a => .cvtif h (CvtInt.ofCode (mf r 0 3)) (Rm.ofCode (mf r 3 2)) dst d a)
  | 0x02 => do
      let dst ← optE (FFmt.ofCode (mf r 0 3)) .mod
      let src ← optE (FFmt.ofCode (mf r 3 3)) .mod
      need ((dst == .f32) != (src == .f32)) .mod
      need (dst != .f32 || mf r 6 2 == 0) .mod
      dec2 r (fun h d a b => .cvtff h dst src (Rm.ofCode (mf r 6 2)) d a b)
  | 0x03 => do
      modZ r 5
      fix0 r
      let bg ← optE (Blk.ofCode (mf r 0 2)) .mod
      let tgt ← optE (NarrowFmt.ofCode (mf r 2 3)) .mod
      dec1 r (fun h d a => .cvtne h bg tgt d a)
  | 0x04 => do
      modZ r 4
      let md ← optE (PkMode.ofCode (mf r 2 2)) .mod
      dec2 r (fun h d a b => .pack h (PkW.ofCode (mf r 0 2)) md d a b)
  | 0x05 => do
      modZ r 3
      dec2 r (fun h d a b => .unpack h (PkW.ofCode (mf r 0 2)) (mb r 2) d a b)
  | 0x06 => do
      modZ r 7
      fix0 r
      if mf r 5 2 = 2 then do
        need (mf r 0 5 == 0) .mod
        dec2 r (fun h d a b => .qscale h (.apply b) d a)
      else do
        need (mf r 5 2 != 3) .mod
        let bg ← optE (Blk.ofCode (mf r 0 2)) .mod
        let tgt ← optE (NarrowFmt.ofCode (mf r 2 3)) .mod
        need tgt.qOk .mod
        dec1 r (fun h d a => .qscale h (if mf r 5 2 = 0 then .scale bg tgt else .div bg tgt) d a)
  | 0x07 => do
      modZ r 3
      let out ← optE (TernOut.ofCode (mf r 0 3)) .mod
      dec2 r (fun h d a b => .tern h out d a b)
  | _ => .error .op

/-- The scale operand E in EXT bits 7:0 (R144). -/
def scaleOp (r : Raw) : Dec (Option Reg) :=
  if mb r 4 then do
    need (r.form == .w128) .ext
    need (r.ext.extractLsb' 8 12 == 0) .ext
    (regOf r.uni (r.ext.extractLsb' 0 8)).map some
  else (noE r).map (fun _ => none)

/-- Group 0x5 (R143, R144). -/
def decG5 (minor : Nat) (r : Raw) : Dec Instr :=
  match minor with
  | 0x00 => decFl1 r flModN .rcp
  | 0x01 => decFl1 r flModN .rsq
  | 0x02 => decFl1 r flModN .ex2
  | 0x03 => decFl1 r flModN .lg2
  | 0x04 => decFl1 r flModN .sin
  | 0x05 => decFl1 r flModN .cos
  | 0x06 => decFl1 r flModN .sincos
  | 0x07 => decFl1 r flModN .tanh
  | 0x08 => do
      modZ r 4
      let fa ← optE (Dot2Fmt.ofCode (mf r 0 2)) .mod
      let fb ← optE (Dot2Fmt.ofCode (mf r 2 2)) .mod
      dec3 r (fun h d a b c => .dot2 h fa fb d a b c)
  | 0x09 => do
      modZ r 5
      let fa ← optE (Dot4Fmt.ofCode (mf r 0 2)) .mod
      let fb ← optE (Dot4Fmt.ofCode (mf r 2 2)) .mod
      let sc ← scaleOp r
      dec3E r (fun h d a b c => .dot4 h fa fb sc d a b c)
  | 0x0A => do
      modZ r 5
      let fa ← optE (Dot8Fmt.ofCode (mf r 0 2)) .mod
      let fb ← optE (Dot8Fmt.ofCode (mf r 2 2)) .mod
      let sc ← scaleOp r
      dec3E r (fun h d a b c => .dot8 h fa fb sc d a b c)
  | 0x0B => do
      modZ r 2
      dec3 r (fun h d a b c => .tdot h (mf r 0 2) d a b c)
  | _ => .error .op

def segW (r : Raw) : Dec SegW := optE (SegW.ofCode (mf r 0 3)) .mod

/-- Group 0x6 (R147-R151). REGROUP's n above 192 is a reserved value of its field (R85; assumption 87). -/
def decG6 (minor : Nat) (r : Raw) : Dec Instr := do
  fix0 r
  match minor with
  | 0x00 => do
      modZ r 4
      let sw ← segW r
      dec2 r (fun h d a b => .geti h (mb r 3) sw d a b)
  | 0x01 => do
      modZ r 5
      let sw ← segW r
      dec2 r (fun h d a b => .getb h (mb r 3) (mb r 4) sw d a b)
  | 0x02 => do
      modZ r 5
      let sw ← segW r
      dec2 r (fun h d a b => .geta h (mb r 3) (mb r 4) sw d a b)
  | 0x03 => do
      modZ r 4
      let sw ← segW r
      dec2 r (fun h d a b => .getx h (mb r 3) sw d a b)
  | 0x04 => do
      modZ r 3
      let sw ← segW r
      let pd ← decPd r
      let pa ← predOf r.uni r.sa.toNat
      dec0 r (fun h => .pany h sw pd pa)
  | 0x05 => do
      modZ r 3
      let sw ← segW r
      let pd ← decPd r
      let pa ← predOf r.uni r.sa.toNat
      dec0 r (fun h => .pall h sw pd pa)
  | 0x06 => do
      modZ r 1
      let pa ← predOf r.uni r.sa.toNat
      decD r (fun h d => .pmask h (mb r 0) d pa)
  | 0x07 => do
      modZ r 2
      if mb r 1 then do
        let pd ← decPd r
        decA r (fun h a => .peers h (mb r 0) (.all pd) a)
      else dec1 r (fun h d a => .peers h (mb r 0) (.mask d) a)
  | 0x08 => do
      let ty ← optE (ScanTy.ofCode (mf r 0 3)) .mod
      let op ← optE (ScanOp.ofCode (mf r 3 3)) .mod
      need (scanOk ty op (mb r 7)) .mod
      dec1 r (fun h d a => .scan h ty op (mb r 6) (mb r 7) d a)
  | 0x09 => do
      let ty ← optE (ScanTy.ofCode (mf r 0 3)) .mod
      let op ← optE (ScanOp.ofCode (mf r 3 3)) .mod
      need (scanOk ty op (mb r 7)) .mod
      need (!mb r 6) .mod
      dec1 r (fun h d a => .vred h ty op (mb r 7) d a)
  | 0x0A => do
      modZ r 1
      let pd ← decPd r
      dec0 r (fun h => .lead h (mb r 0) pd)
  | 0x0B => do
      need (decide (r.mod.toNat ≤ 192)) .mod
      need (r.bt == 31 && r.pg == 7 && !r.pn) .field
      decA r (fun h a => .regroup h a r.mod)
  | _ => .error .op

/-- Group 0x7 (R172). A kept count of EXITN above 192 is a reserved value of its field (R85; assumption 87). -/
def decG7 (minor : Nat) (r : Raw) : Dec Instr :=
  match minor with
  | 0x00 => do
      fix0 r
      modZ r 5
      dec0 r (fun h => .bx h (mf r 0 5))
  | 0x01 => do
      fix0 r
      modZ r 6
      need (r.dst.extractLsb' 5 3 == 0) .field
      let pc ← predOf r.uni r.sa.toNat
      dec0 r (fun h => .bxc h (mb r 5) (mf r 0 5) (r.dst.extractLsb' 0 5) pc)
  | 0x02 => do
      fix0 r
      modZ r 0
      decA r (fun h a => .bxi h a)
  | 0x03 => do
      fix0 r
      modZ r 0
      need (r.bt == 31 && r.pg == 7 && !r.pn && r.sf == 15) .field
      dec0 r (fun h => .next h)
  | 0x04 => do
      fix0 r
      modZ r 5
      let link ← vOf r.dst
      decA r (fun h a => .call h link a (mf r 0 5))
  | 0x05 => do
      fix0 r
      modZ r 5
      let link ← vOf r.dst
      let sa ← spairOf r.sa
      let sv ← spairOf r.sb
      dec0 r (fun h => .calli h link sa sv (mf r 0 5))
  | 0x06 => do
      fix0 r
      modZ r 0
      let rs ← spairOf r.sb
      decA r (fun h a => .ret h a rs)
  | 0x07 => do
      fix0 r
      modZ r 0
      dec0 r (fun h => .exit h)
  | 0x08 => do
      fix0 r
      need (decide (r.mod.toNat ≤ 192)) .mod
      decA r (fun h a => .exitn h r.mod a)
  | 0x09 => do
      fix0 r
      modZ r 5
      dec0 r (fun h => .yield h (mf r 0 5))
  | 0x0A => do
      modZ r 0
      dec0 r (fun h => .nop h)
  | _ => .error .op

/-- Group 0x8 (R236, R251). -/
def decG8 (minor : Nat) (r : Raw) : Dec Instr :=
  match minor with
  | 0x00 => do
      let sz ← optE (MSize.ofCode (mf r 0 3)) .mod
      need (sxOk sz (mb r 3)) .mod
      need (!mb r 5) .order
      let o ← ordOf r (mf r 4 2)
      decMem r (fun h d m => .ld h sz (mb r 3) o (Hint.ofCode (mf r 6 2)) d m)
  | 0x01 => do
      let sz ← optE (MSize.ofCode (mf r 0 3)) .mod
      need (!mb r 3) .mod
      need (!mb r 4) .order
      let o ← ordOf r (mf r 4 2)
      decMem r (fun h d m => .st h sz o (Hint.ofCode (mf r 6 2)) d m)
  | 0x02 => do
      modZ r 4
      let sz ← optE (MSize.ofCode (mf r 0 3)) .mod
      need (sxOk sz (mb r 3)) .mod
      decScr r (fun h d m => .lds h sz (mb r 3) d m)
  | 0x03 => do
      modZ r 3
      let sz ← optE (MSize.ofCode (mf r 0 3)) .mod
      decScr r (fun h d m => .sts h sz d m)
  | 0x04 => do
      let k ← optE (LdtCount.ofCode (mf r 0 2)) .mod
      need (mf r 4 2 == 0) .mod
      noScope r
      let md ← if mf r 2 2 = 0 then (noE r).map (fun _ => LdtMode.wide)
               else if mf r 2 2 = 1 then (noE r).map (fun _ => LdtMode.code)
               else if mf r 2 2 = 2 then do
                 need (r.form == .w128) .ext
                 need (r.ext.extractLsb' 8 12 == 0) .ext
                 let ss ← spairOf (r.ext.extractLsb' 0 8)
                 .ok (LdtMode.scl ss)
               else .error .mod
      let h ← hdrOf r
      let d ← dstR r
      let m ← memOf r
      .ok (.ldt h k md (Hint.ofCode (mf r 6 2)) d m)
  | 0x05 => do
      modZ r 4
      let sz ← optE (MSize.ofCode (mf r 0 3)) .mod
      need (sxOk sz (mb r 3)) .mod
      noScope r
      decMem r (fun h d m => .ldc h sz (mb r 3) d m)
  | _ => .error .op

/-- Group 0x9 (R254). -/
def decG9 (minor : Nat) (r : Raw) : Dec Instr := do
  let sz ← optE (ASize.ofCode (mf r 6 2)) .mod
  match minor with
  | 0x00 => do
      let op ← optE (AOp.ofCode (mf r 0 4)) .mod
      need (op.sizeOk sz) .mod
      let o ← ordOf r (mf r 4 2)
      decMem r (fun h d m => .atom h op sz o d m)
  | 0x01 => do
      need (mf r 0 4 == 0) .mod
      let o ← ordOf r (mf r 4 2)
      decMem r (fun h d m => .atomcas h sz o d m)
  | 0x02 => do
      let op ← optE (AOp.ofCode (mf r 0 4)) .mod
      need (op.sizeOk sz) .mod
      need (!mb r 4) .order
      let o ← ordOf r (mf r 4 2)
      decMem r (fun h d m => .red h op sz o d m)
  | 0x03 => do
      let op ← optE (AOp.ofCode (mf r 0 4)) .mod
      need (op.sizeOk sz) .mod
      need (mf r 4 2 == 0) .order
      decScr r (fun h d m => .atoms h op sz d m)
  | 0x04 => do
      need (mf r 0 6 == 0) .mod
      decScr r (fun h d m => .atomcass h sz d m)
  | _ => .error .op

/-- Group 0xA (R236, R258-R267). -/
def decGA (minor : Nat) (r : Raw) : Dec Instr :=
  match minor with
  | 0x00 => do
      modZ r 5
      let k ← optE (FenceKind.ofCode (mf r 0 2)) .mod
      let sc ← optE (Scope.ofCode (mf r 2 3)) .mod
      dec0 r (fun h => .fence h k sc)
  | 0x01 => do
      fix1 r
      modZ r 0
      decAB r (fun h a b => .bind h a b)
  | 0x02 => do
      fix1 r
      modZ r 0
      decA r (fun h a => .unbind h a)
  | 0x03 => do
      modZ r 1
      decLine r (fun h m => .cflush h (mb r 0) m)
  | 0x04 => do
      modZ r 1
      decLine r (fun h m => .cinv h (mb r 0) m)
  | 0x05 => do
      need (mf r 1 5 == 0) .mod
      decLine r (fun h m => .prf h (mb r 0) (Hint.ofCode (mf r 6 2)) m)
  | 0x06 => do
      modZ r 2
      decLine r (fun h m => .ipf h (IpfCount.ofCode (mf r 0 2)) m)
  | 0x07 => do
      modZ r 0
      dec0 r (fun h => .isync h)
  | 0x08 => do
      fix1 r
      modZ r 0
      let h ← hdrOf r
      let d ← dstR r
      let sg ← spairOf r.sa
      let sp ← srcI r r.sb
      immX r [r.sb]
      noE r
      .ok (.stashmap h d sg sp)
  | 0x09 => do
      fix1 r
      modZ r 0
      decA r (fun h a => .stashwb h a)
  | 0x0A => do
      fix1 r
      modZ r 1
      decA r (fun h a => .stashdrop h (mb r 0) a)
  | 0x0B => do
      modZ r 4
      let md ← optE (HintMode.ofCode (mf r 0 2)) .mod
      let lv ← optE (HintLevels.ofCode (mf r 2 2)) .mod
      decLine r (fun h m => .hint h md lv m)
  | _ => .error .op

/-- The barrier of ARRIVE and BEXPECT: SA, or the slot of MOD 1:0 (R327). -/
def barOf (r : Raw) : Dec BarRef :=
  if mb r 2 then do
    need (r.sa == 254) .field
    .ok (.slot (fin2 (mf r 0 2)))
  else do
    need (mf r 0 2 == 0) .mod
    let a ← srcI r r.sa
    .ok (.off a)

/-- Group 0xB (R327). -/
def decGB (minor : Nat) (r : Raw) : Dec Instr := do
  fix1 r
  match minor with
  | 0x00 => do
      modZ r 0
      dec2 r (fun h d a b => .binit h d a b)
  | 0x01 => do
      modZ r 3
      let bar ← barOf r
      let h ← hdrOf r
      let d ← dstR r
      immX r [r.sa]
      noE r
      .ok (.arrive h d bar)
  | 0x02 => do
      modZ r 5
      let qd ← optE (qdOf (mf r 3 2)) .mod
      dec2 r (fun h d a b => .wait h (mf r 0 2) (mb r 2) qd d a b)
  | 0x03 => do
      modZ r 0
      decA r (fun h a => .pause h a)
  | 0x04 => do
      modZ r 3
      need (mf r 0 3 != 0) .mod
      dec0 r (fun h => .drain h (mb r 0) (mb r 1) (mb r 2))
  | 0x05 => do
      modZ r 0
      dec0 r (fun h => .gbar h)
  | 0x06 => do
      modZ r 3
      let bar ← barOf r
      let h ← hdrOf r
      let b ← srcI r r.sb
      immX r [r.sa, r.sb]
      noE r
      .ok (.bexpect h bar b)
  | _ => .error .op

/-- COPY and COPY2D: the SC layout, SC naming the barrier (R293). -/
def decCopy (r : Raw) (f : Hdr → EngOrder → CopyDir → Reg → Src → Src → Src → Instr) : Dec Instr := do
  need (!mb r 2) .mod
  let o ← engOrd r
  let h ← hdrOf r
  let d ← dstR r
  let a ← srcC r r.sa
  let b ← srcC r r.sb
  let bar ← if r.form == .w64 then .ok (.r .z) else srcC r (scCode r)
  if r.form == .w64 then .ok () else scX r
  noE r
  .ok (f h o (CopyDir.ofCode (mf r 0 2)) d a b bar)

/-- The group slot of RSV and RLS (R301). -/
def grpOf (r : Raw) : Option (Fin 4) := if mb r 7 then some (fin2 (mf r 5 2)) else none

/-- Group 0xC (R293). -/
def decGC (minor : Nat) (r : Raw) : Dec Instr := do
  fix1 r
  match minor with
  | 0x00 => decCopy r .copy
  | 0x01 => decCopy r .copy2d
  | 0x02 => do
      need (!mb r 1) .mod
      need (!mb r 4) .mod
      let qd ← optE (qdOf (mf r 2 2)) .mod
      if mb r 0 then do
        let d ← dstR r
        dec0 r (fun h => .rsv h true qd (grpOf r) d (.r .z))
      else dec1 r (fun h d a => .rsv h false qd (grpOf r) d a)
  | 0x03 => do
      need (mf r 0 5 == 0) .mod
      decA r (fun h a => .rls h (grpOf r) a)
  | 0x04 => do
      need (mf r 0 3 == 0) .mod
      let o ← engOrd r
      dec2 r (fun h d a b => .cld h o d a b)
  | 0x05 => do
      let o ← engOrd r
      dec2 r (fun h d a b => .mma h o (mb r 0) (mb r 1) (mb r 2) d a b)
  | 0x06 => do
      need (mf r 0 3 == 0) .mod
      let o ← engOrd r
      decA r (fun h a => .gmv h o a)
  | 0x07 => do
      modZ r 0
      decD r (fun h d => .mfence h d)
  | _ => .error .op

/-- Group 0xD (R393). -/
def decGD (minor : Nat) (r : Raw) : Dec Instr :=
  match minor with
  | 0x00 => do
      fix0 r
      modZ r 6
      let va ← vOf r.dst
      dec0 r (fun h => .enq h (mf r 0 4) (mf r 4 2) va)
  | 0x01 => do
      fix1 r
      modZ r 6
      decAB r (fun h a b => .enqr h (mf r 0 4) (mf r 4 2) a b)
  | 0x02 => do
      fix1 r
      modZ r 0
      let rec' ← spairOf r.sb
      match rec' with
      | .z => .error .field
      | .pr k => dec1 r (fun h d a => .launch h d a k)
  | 0x03 => do
      fix0 r
      modZ r 4
      let vd ← vOf r.dst
      if hp : r.sb.toNat < 8 then dec0 r (fun h => .deq h (mf r 0 4) ⟨r.sb.toNat, hp⟩ vd)
      else .error .predCode
  | _ => .error .op

/-- Group 0xE (R415, R362). -/
def decGE (minor : Nat) (r : Raw) : Dec Instr := do
  fix1 r
  match minor with
  | 0x00 => do
      modZ r 0
      decA r (fun h a => .trap h a)
  | 0x01 => do
      modZ r 0
      dec0 r (fun h => .rte h)
  | 0x02 => decD r (fun h d => .movsr h r.mod d)
  | 0x03 => decA r (fun h a => .setsr h r.mod a)
  | 0x04 => do
      modZ r 2
      if mf r 0 2 = 2 then dec1 r (fun h d a => .mread h (.ev a) d)
      else if mf r 0 2 = 0 then decD r (fun h d => .mread h .tot d)
      else if mf r 0 2 = 1 then decD r (fun h d => .mread h .wg d)
      else .error .mod
  | 0x05 => dec0 r (fun h => .bkpt h r.mod)
  | 0x06 => do
      modZ r 0
      dec0 r (fun h => .halt h)
  | 0x07 => do
      modZ r 0
      decA r (fun h a => .tmark h a)
  | _ => .error .op

/-- The instruction of a word's fields (R86): the major group is OP bits 8:5, the minor code bits 4:0. -/
def decodeRaw (r : Raw) : Dec Instr :=
  let minor := (r.op.extractLsb' 0 5).toNat
  match (r.op.extractLsb' 5 4).toNat with
  | 0x0 => decG0 minor r
  | 0x1 => decG1 minor r
  | 0x2 => decG2 minor r
  | 0x3 => decG3 minor r
  | 0x4 => decG4 minor r
  | 0x5 => decG5 minor r
  | 0x6 => decG6 minor r
  | 0x7 => decG7 minor r
  | 0x8 => decG8 minor r
  | 0x9 => decG9 minor r
  | 0xA => decGA minor r
  | 0xB => decGB minor r
  | 0xC => decGC minor r
  | 0xD => decGD minor r
  | 0xE => decGE minor r
  | _ => .error .op

/-- Decode 128 bits: the instruction and its length in bytes. LEN = 11 is a pad (R71). -/
def decodeBits (w : BitVec 128) : Dec (Instr × Nat) :=
  match Form.ofCode (w.extractLsb' 0 2) with
  | none => .error .pad
  | some f => (decodeRaw (Raw.ofBits f w)).map (fun i => (i, f.bytes))

/-- Little-endian bytes as a number (R2). -/
def natOfBytes : List Byte → Nat
  | [] => 0
  | b :: t => b.toNat + 256 * natOfBytes t

def bytesOfNat : Nat → Nat → List Byte
  | 0, _ => []
  | n + 1, x => BitVec.ofNat 8 x :: bytesOfNat n (x / 256)

/-- Decode the bytes at an instruction address, `room` bytes before the end of the fetch block (R71). -/
def decodeBytes (room : Nat) (l : List Byte) : Dec (Instr × Nat) :=
  match decodeBits (BitVec.ofNat 128 (natOfBytes (l.take 16))) with
  | .error e => .error e
  | .ok (i, n) => if n ≤ room then .ok (i, n) else .error .len

/-- The instruction that the decoder reads from a word given as a number, bit 0 the least significant bit of the
first byte. -/
def decodeTableWord (nbits w : Nat) : Option Instr :=
  match decodeBits (BitVec.ofNat 128 (w % 2 ^ nbits)) with
  | .ok (i, _) => some i
  | .error _ => none

/-! ## The encoder -/

def Reg.code : Reg → BitVec 8
  | .v r => BitVec.ofNat 8 r.val
  | .s r => BitVec.ofNat 8 (192 + r.val)
  | .z => 254

def Src.code : Src → BitVec 8
  | .r x => x.code
  | .imm _ => 255

def Pred.code : Pred → Nat
  | .p i => i.val
  | .q i => 8 + i.val

def Pred.code8 (p : Pred) : BitVec 8 := BitVec.ofNat 8 p.code

def SPair.code : SPair → BitVec 8
  | .pr k => BitVec.ofNat 8 (192 + 2 * k.val)
  | .z => 254

/-- The control fields of a word, every operand field 254, MOD, X32 and EXT 0. -/
def Hdr.raw (h : Hdr) (op : Nat) : Raw where
  form := h.form
  bt := h.bt
  sd := h.sd
  uni := h.uni
  wt := if h.form == .w128 then 0 else (selOf h.wait).getD 0
  sf := match h.sf with
    | some k => BitVec.ofNat 4 k.val
    | none => 15
  op := BitVec.ofNat 9 op
  dst := 254
  sa := 254
  sb := 254
  pg := h.pg
  pn := h.pn
  mod := 0
  x32 := 0
  wm := if h.form == .w128 then h.wait else 0
  ext := 0

/-- X32 of the immediate layout. -/
def immOf (l : List Src) : W32 :=
  match l.flatMap Src.imms with
  | [] => 0
  | x :: _ => x

def enc1 (h : Hdr) (op : Nat) (mod : BitVec 8) (d : Reg) (a : Src) : Raw :=
  { h.raw op with mod := mod, dst := d.code, sa := a.code, x32 := immOf [a] }
def enc2 (h : Hdr) (op : Nat) (mod : BitVec 8) (d : Reg) (a b : Src) : Raw :=
  { h.raw op with mod := mod, dst := d.code, sa := a.code, sb := b.code, x32 := immOf [a, b] }
/-- X32 of the SC layout: the immediate above, the third source below. -/
def scWord (l : List Src) (c : Src) : W32 := (immOf l).extractLsb' 0 24 ++ c.code
def enc3 (h : Hdr) (op : Nat) (mod : BitVec 8) (d : Reg) (a b c : Src) : Raw :=
  { h.raw op with mod := mod, dst := d.code, sa := a.code, sb := b.code,
                  x32 := if h.form == .w64 then 0 else scWord [a, b, c] c }
def encA (h : Hdr) (op : Nat) (mod : BitVec 8) (a : Src) : Raw :=
  { h.raw op with mod := mod, sa := a.code, x32 := immOf [a] }
def encAB (h : Hdr) (op : Nat) (mod dst : BitVec 8) (a b : Src) : Raw :=
  { h.raw op with mod := mod, dst := dst, sa := a.code, sb := b.code, x32 := immOf [a, b] }
def enc0 (h : Hdr) (op : Nat) (mod dst sa sb : BitVec 8) : Raw :=
  { h.raw op with mod := mod, dst := dst, sa := sa, sb := sb }

def Order.code : Order → BitVec 2
  | .plain => 0
  | .acq _ => 1
  | .rel _ => 2
  | .ar _ => 3
def Order.scope : Order → BitVec 3
  | .plain => 0
  | .acq s | .rel s | .ar s => s.code

def encMem (h : Hdr) (op : Nat) (mod : BitVec 8) (o : Order) (d : BitVec 8) (m : MemRef) : Raw :=
  { h.raw op with mod := mod, dst := d, sa := m.base.code, sb := m.off.code,
                  x32 := m.disp ++ (0 : BitVec 5) ++ o.scope }
def encScr (h : Hdr) (op : Nat) (mod : BitVec 8) (d : Reg) (m : ScrRef) : Raw :=
  { h.raw op with mod := mod, dst := d.code, sa := m.base.code, sb := m.off.code,
                  x32 := m.disp ++ (0 : BitVec 8) }

def IntTy.mod (ty : IntTy) : BitVec 8 := (0 : BitVec 5) ++ ty.code
def FlMod.mod (m : FlMod) : BitVec 8 := bit1 m.nega ++ bit1 m.absa ++ bit1 m.sat ++ m.rm.code ++ m.ty.code
def FlTy.code2 : FlTy → BitVec 2
  | .f32 => 0 | .f16x2 => 1 | .bf16x2 => 2
def EngOrder.mod : EngOrder → BitVec 5
  | .none => 0
  | .acq s => (2 : BitVec 2) ++ s.code
  | .rel s => (1 : BitVec 2) ++ s.code
  | .ar s => (3 : BitVec 2) ++ s.code
def grpMod : Option (Fin 4) → BitVec 3
  | none => 0
  | some k => (1 : BitVec 1) ++ codeFin4 k
def BarRef.mod : BarRef → BitVec 8
  | .off _ => 0
  | .slot k => (0 : BitVec 5) ++ (1 : BitVec 1) ++ codeFin4 k
def BarRef.sa : BarRef → BitVec 8
  | .off x => x.code
  | .slot _ => 254
def carryMod (ty : IntTy) (pc : Pred) : BitVec 8 := (0 : BitVec 1) ++ BitVec.ofNat 4 pc.code ++ ty.code
def memMod (sz : MSize) (sx : Bool) (o : Order) (hi : Hint) : BitVec 8 :=
  hi.code ++ o.code ++ bit1 sx ++ sz.code
def atomMod (op : AOp) (sz : ASize) (o : Order) : BitVec 8 := sz.code ++ o.code ++ op.code
def segMod (b4 b3 : Bool) (sw : SegW) : BitVec 8 := (0 : BitVec 3) ++ bit1 b4 ++ bit1 b3 ++ sw.code

/-- The scale operand of DOT4 and DOT8 in EXT. -/
def encScale (r : Raw) : Option Reg → Raw
  | none => r
  | some e => { r with ext := (0 : BitVec 12) ++ e.code }

/-- The fields of an instruction; an event has none. -/
def Instr.raw : Instr → Option Raw
  | .udf => some (Raw.ofBits .w64 0)
  | .iadd h ty d a b => some (enc2 h 0x001 ty.mod d a b)
  | .isub h ty d a b => some (enc2 h 0x002 ty.mod d a b)
  | .iadds h ty d a b => some (enc2 h 0x003 ty.mod d a b)
  | .isubs h ty d a b => some (enc2 h 0x004 ty.mod d a b)
  | .imul h ty d a b => some (enc2 h 0x005 ty.mod d a b)
  | .imulh h ty d a b => some (enc2 h 0x006 ty.mod d a b)
  | .imad h ty d a b c => some (enc3 h 0x007 ty.mod d a b c)
  | .imadw h ty d a b c => some (enc3 h 0x008 ty.mod d a b c)
  | .idiv h ty d a b => some (enc2 h 0x009 ty.mod d a b)
  | .irem h ty d a b => some (enc2 h 0x00A ty.mod d a b)
  | .imin h ty d a b => some (enc2 h 0x00B ty.mod d a b)
  | .imax h ty d a b => some (enc2 h 0x00C ty.mod d a b)
  | .iabs h ty d a => some (enc1 h 0x00D ty.mod d a)
  | .ineg h ty d a => some (enc1 h 0x00E ty.mod d a)
  | .iaddc h ty d a b pc => some (enc2 h 0x00F (carryMod ty pc) d a b)
  | .isubb h ty d a b pc => some (enc2 h 0x010 (carryMod ty pc) d a b)
  | .lea h ty sh d a b => some (enc2 h 0x011 ((0 : BitVec 2) ++ sh ++ ty.code) d a b)
  | .and h ty d a b => some (enc2 h 0x020 ty.mod d a b)
  | .or h ty d a b => some (enc2 h 0x021 ty.mod d a b)
  | .xor h ty d a b => some (enc2 h 0x022 ty.mod d a b)
  | .andn h ty d a b => some (enc2 h 0x023 ty.mod d a b)
  | .not h ty d a => some (enc1 h 0x024 ty.mod d a)
  | .bool3 h fn d a b c => some (enc3 h 0x025 fn d a b c)
  | .shl h ty d a b => some (enc2 h 0x026 ty.mod d a b)
  | .shr h ty d a b => some (enc2 h 0x027 ty.mod d a b)
  | .sar h ty d a b => some (enc2 h 0x028 ty.mod d a b)
  | .rol h ty d a b => some (enc2 h 0x029 ty.mod d a b)
  | .fshr h d a b c => some (enc3 h 0x02A 0 d a b c)
  | .popc h ty d a => some (enc1 h 0x02B ty.mod d a)
  | .clz h ty d a => some (enc1 h 0x02C ty.mod d a)
  | .ctz h ty d a => some (enc1 h 0x02D ty.mod d a)
  | .brev h ty d a => some (enc1 h 0x02E ty.mod d a)
  | .bfx h ty d a b => some (enc2 h 0x02F ty.mod d a b)
  | .bfi h d a b c => some (enc3 h 0x030 0 d a b c)
  | .bsel h d a b c => some (enc3 h 0x031 0 d a b c)
  | .icmp h ty cc pd a b => some (encAB h 0x040 ((0 : BitVec 2) ++ cc.code ++ ty.code) pd.code8 a b)
  | .fcmp h cc nega absa pd a b =>
      some (encAB h 0x041 (bit1 nega ++ bit1 absa ++ cc.code ++ (0 : BitVec 3)) pd.code8 a b)
  | .sel h wide pc d a b =>
      some (enc2 h 0x042 ((0 : BitVec 3) ++ bit1 wide ++ BitVec.ofNat 4 pc.code) d a b)
  | .mov h ty d a => some (enc1 h 0x043 ty.mod d a)
  | .movi h sx hi d imm => some (enc0 h 0x044 ((0 : BitVec 6) ++ bit1 hi ++ bit1 sx) d.code
      (imm.extractLsb' 0 8) (imm.extractLsb' 8 8))
  | .movs h d num => some (enc0 h 0x045 0 d.code num 254)
  | .pand h na nb pd pa pb =>
      some (enc0 h 0x046 ((0 : BitVec 6) ++ bit1 nb ++ bit1 na) pd.code8 pa.code8 pb.code8)
  | .por h na nb pd pa pb =>
      some (enc0 h 0x047 ((0 : BitVec 6) ++ bit1 nb ++ bit1 na) pd.code8 pa.code8 pb.code8)
  | .pxor h na nb pd pa pb =>
      some (enc0 h 0x048 ((0 : BitVec 6) ++ bit1 nb ++ bit1 na) pd.code8 pa.code8 pb.code8)
  | .pnot h pd pa => some (enc0 h 0x049 0 pd.code8 pa.code8 254)
  | .p2v h d a => some (enc1 h 0x04A 0 d a)
  | .v2p h a b => some (encAB h 0x04B 0 254 a b)
  | .rdl h d => some (enc0 h 0x04C 0 d.code 254 254)
  | .fclass h ty d a => some (enc1 h 0x04D ((0 : BitVec 5) ++ ty.code) d a)
  | .fadd h m d a b => some (enc2 h 0x060 m.mod d a b)
  | .fsub h m d a b => some (enc2 h 0x061 m.mod d a b)
  | .fmul h m d a b => some (enc2 h 0x062 m.mod d a b)
  | .ffma h m d a b c => some (enc3 h 0x063 m.mod d a b c)
  | .fmin h m d a b => some (enc2 h 0x064 m.mod d a b)
  | .fmax h m d a b => some (enc2 h 0x065 m.mod d a b)
  | .fdiv h m d a b => some (enc2 h 0x066 m.mod d a b)
  | .fsqrt h m d a => some (enc1 h 0x067 m.mod d a)
  | .fscale h m d a b => some (enc2 h 0x068 m.mod d a b)
  | .frnd h m d a => some (enc1 h 0x069 m.mod d a)
  | .fmed3 h m d a b c => some (enc3 h 0x06A m.mod d a b c)
  | .cvtfi h src hi rm dst d a =>
      some (enc1 h 0x080 (dst.code ++ rm.code ++ bit1 hi ++ src.code2) d a)
  | .cvtif h src rm dst d a =>
      some (enc1 h 0x081 ((0 : BitVec 1) ++ dst.code2 ++ rm.code ++ src.code) d a)
  | .cvtff h dst src rm d a b => some (enc2 h 0x082 (rm.code ++ src.code ++ dst.code) d a b)
  | .cvtne h bg tgt d a => some (enc1 h 0x083 ((0 : BitVec 3) ++ tgt.code ++ bg.code) d a)
  | .pack h w md d a b => some (enc2 h 0x084 ((0 : BitVec 4) ++ md.code ++ w.code) d a b)
  | .unpack h w sx d a b => some (enc2 h 0x085 ((0 : BitVec 5) ++ bit1 sx ++ w.code) d a b)
  | .qscale h md d a => match md with
      | .scale bg t => some (enc1 h 0x086 ((0 : BitVec 3) ++ t.code ++ bg.code) d a)
      | .div bg t => some (enc1 h 0x086 ((1 : BitVec 3) ++ t.code ++ bg.code) d a)
      | .apply b => some (enc2 h 0x086 0x40 d a b)
  | .tern h out d a b => some (enc2 h 0x087 ((0 : BitVec 5) ++ out.code) d a b)
  | .rcp h m d a => some (enc1 h 0x0A0 m.mod d a)
  | .rsq h m d a => some (enc1 h 0x0A1 m.mod d a)
  | .ex2 h m d a => some (enc1 h 0x0A2 m.mod d a)
  | .lg2 h m d a => some (enc1 h 0x0A3 m.mod d a)
  | .sin h m d a => some (enc1 h 0x0A4 m.mod d a)
  | .cos h m d a => some (enc1 h 0x0A5 m.mod d a)
  | .sincos h m d a => some (enc1 h 0x0A6 m.mod d a)
  | .tanh h m d a => some (enc1 h 0x0A7 m.mod d a)
  | .dot2 h fa fb d a b c => some (enc3 h 0x0A8 ((0 : BitVec 4) ++ fb.code ++ fa.code) d a b c)
  | .dot4 h fa fb sc d a b c =>
      some (encScale (enc3 h 0x0A9 ((0 : BitVec 3) ++ bit1 sc.isSome ++ fb.code ++ fa.code) d a b c) sc)
  | .dot8 h fa fb sc d a b c =>
      some (encScale (enc3 h 0x0AA ((0 : BitVec 3) ++ bit1 sc.isSome ++ fb.code ++ fa.code) d a b c) sc)
  | .tdot h byte d a b c => some (enc3 h 0x0AB ((0 : BitVec 6) ++ byte) d a b c)
  | .geti h wide sw d a b => some (enc2 h 0x0C0 (segMod false wide sw) d a b)
  | .getb h wide wrap sw d a b => some (enc2 h 0x0C1 (segMod wrap wide sw) d a b)
  | .geta h wide wrap sw d a b => some (enc2 h 0x0C2 (segMod wrap wide sw) d a b)
  | .getx h wide sw d a b => some (enc2 h 0x0C3 (segMod false wide sw) d a b)
  | .pany h sw pd pa => some (enc0 h 0x0C4 (segMod false false sw) pd.code8 pa.code8 254)
  | .pall h sw pd pa => some (enc0 h 0x0C5 (segMod false false sw) pd.code8 pa.code8 254)
  | .pmask h cnt d pa => some (enc0 h 0x0C6 ((0 : BitVec 7) ++ bit1 cnt) d.code pa.code8 254)
  | .peers h wide d a => match d with
      | .mask r => some (enc1 h 0x0C7 ((0 : BitVec 7) ++ bit1 wide) r a)
      | .all pd => some { encA h 0x0C7 ((0 : BitVec 6) ++ (1 : BitVec 1) ++ bit1 wide) a with dst := pd.code8 }
  | .scan h ty op excl sat d a =>
      some (enc1 h 0x0C8 (bit1 sat ++ bit1 excl ++ op.code ++ ty.code) d a)
  | .vred h ty op sat d a =>
      some (enc1 h 0x0C9 (bit1 sat ++ (0 : BitVec 1) ++ op.code ++ ty.code) d a)
  | .lead h last pd => some (enc0 h 0x0CA ((0 : BitVec 7) ++ bit1 last) pd.code8 254 254)
  | .regroup h a n => some (encA h 0x0CB n a)
  | .bx h tgt => some (enc0 h 0x0E0 ((0 : BitVec 3) ++ tgt) 254 254 254)
  | .bxc h once tt ft pc => some (enc0 h 0x0E1 ((0 : BitVec 2) ++ bit1 once ++ tt)
      ((0 : BitVec 3) ++ ft) pc.code8 254)
  | .bxi h a => some (encA h 0x0E2 0 a)
  | .next h => some (enc0 h 0x0E3 0 254 254 254)
  | .call h link a rb =>
      some { encA h 0x0E4 ((0 : BitVec 3) ++ rb) a with dst := (Reg.v link).code }
  | .calli h link sa sv rb =>
      some (enc0 h 0x0E5 ((0 : BitVec 3) ++ rb) (Reg.v link).code sa.code sv.code)
  | .ret h a rs => some { encA h 0x0E6 0 a with sb := rs.code }
  | .exit h => some (enc0 h 0x0E7 0 254 254 254)
  | .exitn h k a => some (encA h 0x0E8 k a)
  | .yield h tgt => some (enc0 h 0x0E9 ((0 : BitVec 3) ++ tgt) 254 254 254)
  | .nop h => some (enc0 h 0x0EA 0 254 254 254)
  | .ld h sz sx o hi d m => some (encMem h 0x100 (memMod sz sx o hi) o d.code m)
  | .st h sz o hi a m => some (encMem h 0x101 (memMod sz false o hi) o a.code m)
  | .lds h sz sx d m => some (encScr h 0x102 (memMod sz sx .plain .normal) d m)
  | .sts h sz a m => some (encScr h 0x103 (memMod sz false .plain .normal) a m)
  | .ldt h k md hi d m => match md with
      | .wide => some (encMem h 0x104 (hi.code ++ (0 : BitVec 2) ++ (0 : BitVec 2) ++ k.code) .plain d.code m)
      | .code => some (encMem h 0x104 (hi.code ++ (0 : BitVec 2) ++ (1 : BitVec 2) ++ k.code) .plain d.code m)
      | .scl ss => some { encMem h 0x104 (hi.code ++ (0 : BitVec 2) ++ (2 : BitVec 2) ++ k.code) .plain d.code m
                          with ext := (0 : BitVec 12) ++ ss.code }
  | .ldc h sz sx d m => some (encMem h 0x105 (memMod sz sx .plain .normal) .plain d.code m)
  | .atom h op sz o d m => some (encMem h 0x120 (atomMod op sz o) o d.code m)
  | .atomcas h sz o d m => some (encMem h 0x121 (atomMod .add sz o) o d.code m)
  | .red h op sz o a m => some (encMem h 0x122 (atomMod op sz o) o a.code m)
  | .atoms h op sz d m => some (encScr h 0x123 (atomMod op sz .plain) d m)
  | .atomcass h sz d m => some (encScr h 0x124 (atomMod .add sz .plain) d m)
  | .fence h k sc => some (enc0 h 0x140 ((0 : BitVec 3) ++ sc.code ++ k.code) 254 254 254)
  | .bind h k img => some (encAB h 0x141 0 254 k img)
  | .unbind h k => some (encA h 0x142 0 k)
  | .cflush h l2 m => some (encMem h 0x143 ((0 : BitVec 7) ++ bit1 l2) .plain 254 m)
  | .cinv h l2 m => some (encMem h 0x144 ((0 : BitVec 7) ++ bit1 l2) .plain 254 m)
  | .prf h l2 hi m => some (encMem h 0x145 (hi.code ++ (0 : BitVec 5) ++ bit1 l2) .plain 254 m)
  | .ipf h n m => some (encMem h 0x146 ((0 : BitVec 6) ++ n.code) .plain 254 m)
  | .isync h => some (enc0 h 0x147 0 254 254 254)
  | .stashmap h d sg sp => some { enc2 h 0x148 0 d (.r .z) sp with sa := sg.code }
  | .stashwb h sh => some (encA h 0x149 0 sh)
  | .stashdrop h nowb sh => some (encA h 0x14A ((0 : BitVec 7) ++ bit1 nowb) sh)
  | .hint h md lv m => some (encMem h 0x14B ((0 : BitVec 4) ++ lv.code ++ md.code) .plain 254 m)
  | .binit h o a b => some (enc2 h 0x160 0 o a b)
  | .arrive h d bar => some { enc0 h 0x161 bar.mod d.code bar.sa 254 with x32 := immOf bar.srcs }
  | .wait h k all qd d sl t =>
      some (enc2 h 0x162 ((0 : BitVec 3) ++ BitVec.ofNat 2 qd.val ++ bit1 all ++ k) d sl t)
  | .pause h n => some (encA h 0x163 0 n)
  | .drain h mem eng flg => some (enc0 h 0x164 ((0 : BitVec 5) ++ bit1 flg ++ bit1 eng ++ bit1 mem) 254 254 254)
  | .gbar h => some (enc0 h 0x165 0 254 254 254)
  | .bexpect h bar b =>
      some { enc0 h 0x166 bar.mod 254 bar.sa b.code with x32 := immOf (bar.srcs ++ [b]) }
  | .copy h o dir dst src len bar =>
      some (enc3 h 0x180 (o.mod ++ (0 : BitVec 1) ++ dir.code) dst src len bar)
  | .copy2d h o dir dst src shape bar =>
      some (enc3 h 0x181 (o.mod ++ (0 : BitVec 1) ++ dir.code) dst src shape bar)
  | .rsv h g qd grp d count =>
      some (enc1 h 0x182 (grpMod grp ++ (0 : BitVec 1) ++ BitVec.ofNat 2 qd.val ++ (0 : BitVec 1) ++ bit1 g) d count)
  | .rls h grp mask => some (encA h 0x183 (grpMod grp ++ (0 : BitVec 5)) mask)
  | .cld h o place src stride => some (enc2 h 0x184 (o.mod ++ (0 : BitVec 3)) place src stride)
  | .mma h o s4 acc sum out act ctl =>
      some (enc2 h 0x185 (o.mod ++ bit1 sum ++ bit1 acc ++ bit1 s4) out act ctl)
  | .gmv h o desc => some (encA h 0x186 (o.mod ++ (0 : BitVec 3)) desc)
  | .mfence h d => some (enc0 h 0x187 0 d.code 254 254)
  | .enq h n k va => some (enc0 h 0x1A0 ((0 : BitVec 2) ++ k ++ n) (Reg.v va).code 254 254)
  | .enqr h n k ss cnt => some (encAB h 0x1A1 ((0 : BitVec 2) ++ k ++ n) 254 ss cnt)
  | .launch h d q rc => some { enc1 h 0x1A2 0 d q with sb := (SPair.pr rc).code }
  | .deq h n pd vd => some (enc0 h 0x1A3 ((0 : BitVec 4) ++ n) (Reg.v vd).code 254 (BitVec.ofNat 8 pd.val))
  | .trap h a => some (encA h 0x1C0 0 a)
  | .rte h => some (enc0 h 0x1C1 0 254 254 254)
  | .movsr h num d => some (enc0 h 0x1C2 num d.code 254 254)
  | .setsr h num a => some (encA h 0x1C3 num a)
  | .mread h md d => match md with
      | .tot => some (enc0 h 0x1C4 0 d.code 254 254)
      | .wg => some (enc0 h 0x1C4 1 d.code 254 254)
      | .ev c => some (enc1 h 0x1C4 2 d c)
  | .bkpt h tag => some (enc0 h 0x1C5 tag 254 254 254)
  | .halt h => some (enc0 h 0x1C6 0 254 254 254)
  | .tmark h a => some (encA h 0x1C7 0 a)
  | .regroupExchange _ _ | .waitSatisfaction _ | .waitTimeout _ | .waitMemoryRead _ | .pauseExpiry _
  | .gbarRelease _ | .copyBeat _ _ | .cldRow _ _ | .mmaVector _ _ | .gmvSegmentStart _ _
  | .engineFailureDelivery _ | .instructionCompletion _ _ | .demandFetch _ | .faultRecordWrite _
  | .faultRecordRetry _ | .replay _ | .launchQueueWatch _ _ | .codeObjectLoad _ _ | .codeObjectUnload _ _
  | .queueVisit _ _ | .cooperativeAdmission _ | .gangReserve _ | .gangReserveTimeout _
  | .nodeConsumerDispatch _ | .retirementWriteback _ _ | .workgroupRetirement _ _
  | .invalidationRequest _ | .forcedPreemption _ _ _ | .engineDrainTimeout _ _ | .restore _
  | .workgroupAbort _ _ | .coreFence _ _ | .eccError _ _ | .sensorSample _ _ | .intervalEnd _
  | .grant _ _ | .debtReport _ _ | .stallSample _ _ | .loadSample _ _ _ _ _ _ _ | .stop _ _ | .resume _ _
  | .step _ _ _ | .breakpointMatch _ | .systemRegisterWrite _ _ _ _ | .stateExport | .restart | .release
  | .cxlMemRead _ _ | .cxlMemWrite _ _ | .remoteRequest _ _ _ | .flitReplay _ | .linkDown _ | .telemetry
  | .panWrite _ _ _ | .podIndex _ | .linkEnable _ | .recovery _ | .reset | .heartbeatMiss
  | .debuggerWrite _ _ _ | .configurationRequest _ | .getMeasurements | .pauseAndResumeFlits _ _
  | .msiXUnmask _ _ => none

/-- The bytes of an instruction, first byte at the lowest address. -/
def encode (i : Instr) : Option (List Byte) :=
  i.raw.map (fun r => bytesOfNat r.form.bytes r.toBits.toNat)

/-- Whether the constructor has an encoding. -/
def Instr.encoded (i : Instr) : Bool := i.raw.isSome

/-- The control fields of an encoded instruction. -/
def Instr.hdr? (i : Instr) : Option Hdr :=
  match i.raw with
  | none => none
  | some r => match hdrOf r with
    | .ok h => some h
    | .error _ => none

end Sys2Proof
end

