-- ==== Sys2Proof/Machine/State.lean ====
section
/-! DEFINITION. The state of the part: every item of the inventory rules (R113, R154, R206, R291, R320, R343, R376,
R404, R451-R456), as plain data, with the reasons a step can stop and the state after reset. -/

namespace Sys2Proof.Machine

open Sys2Proof

/-- Why the machine stops. -/
inductive Fault
  /-- Raised by an encoded instruction run where no crew is issuing. Step never raises it: step names the crew whose
  instruction it runs. Safe: the part has no such step. -/
  | noCrew
  deriving DecidableEq, Repr

/-- Why the model gives an instruction no meaning. -/
inductive Refusal
  /-- Raised by an arm of exec whose instruction has no meaning in the model yet. Safe: the machine stops. -/
  | notModelled (mnemonic : String)
  deriving DecidableEq, Repr

abbrev Memory := KMap Byte

/-- The codec's view of a page (R111, R212), and the function whose key encrypts it, for a page with CONF = 1 (R183). -/
structure Attr where
  cmp  : Bool
  fmt  : Nat
  bg   : Nat
  key  : Option Nat
  page : Bool              -- of a page: an access by physical address says nothing of how its line is stored
  deriving DecidableEq, Repr

def Attr.plain : Attr := { cmp := false, fmt := 0, bg := 0, key := none, page := false }

/-- A workgroup of the part: its launch and its index there. -/
structure WgId where
  launch : Nat
  idx    : Nat
  deriving DecidableEq, Repr

/-- A crew of the part. -/
structure CrewId where
  wg   : WgId
  cidx : Nat
  deriving DecidableEq, Repr

/-- One write of one 32-bit register or predicate (R83 gives the order: the last of a list wins). -/
inductive RegWrite
  | v (t r : Nat) (x : W32)
  | s (r : Nat) (x : W32)
  | p (t i : Nat) (b : Bool)
  | q (i : Nat) (b : Bool)
  deriving DecidableEq, Repr

/-- Bytes of one sector that a load has read: whether at a home slice and still to be performed, the storage key of the first, and what was read. -/
structure LatePiece where
  home  : Bool
  key   : Nat
  at_   : Attr
  bytes : List Byte
  deriving DecidableEq, Repr

/-- An element of LDT (R251): its bytes, its bit place in the first, its page's format, and whether a scale byte follows. -/
structure LateElem where
  n      : Nat
  sh     : Nat
  fmt    : Nat
  scaled : Bool
  deriving DecidableEq, Repr

/-- What a load has read for one thread, sector by sector (R273): the bytes of its elements in order, for an LDT. -/
structure LateRow where
  t      : Nat
  pieces : List LatePiece
  elems  : List LateElem := []
  deriving DecidableEq, Repr

/-- How a load makes registers of the bytes: as words, or as elements, of a kernel with FTZ and the exceptions that it enables. -/
inductive LateForm
  | words (sx : Bool)
  | elems (md : LdtMode) (ftz : Bool) (enables : BitVec 5)
  deriving DecidableEq, Repr

/-- A plain load whose home reads may still be performed: its destination, its form, and its rows (R243, R273). -/
structure LateLoad where
  d    : Reg
  form : LateForm
  rows : List LateRow
  deriving DecidableEq, Repr

/-- The registers that an issued instruction has yet to write (R75, R77): of a fixed-latency instruction with the
ac at which they have landed at the latest. `fps` and `sat` land with them. `link`: a link write of CALL, which
lands before the crew's next vote. -/
structure Owed where
  id     : Nat
  flag   : Option (Fin 12)
  due    : Option Nat
  writes : List RegWrite
  fps    : BitVec 5
  sat    : Bool
  link   : Bool := false
  late   : Option LateLoad := none
  mem    : Bool := false   -- it is a load or an atomic (R335)
  deriving DecidableEq, Repr

/-- A thread's registers (R10, R113, R115, R154). -/
structure Thread where
  v       : KMap W32
  p       : BitVec 7
  br      : BitVec 16
  tidx    : W32
  holdCnt : Nat
  yld     : Bool
  swp     : Bool
  deriving DecidableEq, Repr

/-- A flag-table entry (R118). -/
structure FlagEntry where
  pc   : W64
  cnt  : Nat
  dreg : BitVec 8
  dn   : Nat
  dp   : BitVec 3
  dq   : Bool
  pall : Bool
  deriving DecidableEq, Repr

/-- The hidden walk frame (R412). -/
structure Frame where
  hb   : W64
  pos  : W64
  cr   : Nat
  ss   : Nat
  sid  : Nat
  sset : BitVec 31
  held : Mask
  deriving DecidableEq, Repr

/-- A barrier object's place: scratchpad offset of the workgroup, or VA with its scope (R326). -/
inductive BarAddr
  | scr (off : Nat)
  | glob (va : W64) (sc : Scope)
  deriving DecidableEq, Repr

/-- A condition of a WAIT list (R330). -/
inductive WaitCond
  | token (bar : BarAddr) (tok : W32)
  | batch (k : Nat)
  | mem (va : W64) (sc : Scope) (v : W32)
  | flags (m : BitVec 12)
  | node (va : W64)
  deriving DecidableEq, Repr

/-- The progress of a WAIT (R320, R331): its conditions, the stamp at which each was satisfied (the latched mask), the
ticks left, and what its end writes. -/
structure WaitSt where
  conds : List WaitCond
  first : List (Option Nat)
  all   : Bool
  qd    : Nat
  d     : Reg
  ticks : Option Nat
  sf    : Option (Fin 12)
  mask  : Mask
  next  : W64
  deriving DecidableEq, Repr

/-- What a blocked crew waits for (R27, R331, R335, R336, R152). The crew stands at the instruction until it ends. -/
inductive Block
  | none
  | wait (w : WaitSt)
  | drain (mem eng flg : Bool) (sf : Option (Fin 12)) (next : W64)
  | gbar (sf : Option (Fin 12)) (next : W64)
  | regroup (key : List (Option W32)) (n : Nat) (sf : Option (Fin 12)) (before : Option FlagEntry)
            (next : W64)
  deriving DecidableEq, Repr

/-- A crew parked on a replayable fault (R226, R227). -/
structure Park where
  mask   : Mask
  cause  : Nat
  va     : W64
  write  : Bool
  fetch  : Bool
  level  : Nat
  at_    : Nat
  handle : Option Nat
  logged : Bool
  reload : List (Nat × Nat) := [] -- of a restore's reload (R305): the macro blocks still to load
  deriving DecidableEq, Repr

/-- A pending engine failure (R291, R299). -/
structure EngFail where
  cause : Nat
  pc    : W64              -- EARG: the command's PC, or the source VA of a restore reload (R305)
  cmd   : Option Nat
  deriving DecidableEq, Repr

/-- The kernel header that a launch runs under (R197), read at admission. -/
structure Kernel where
  entry    : W64
  vregs    : Nat
  sregs    : Nat
  crews    : Nat
  roles    : BitVec 8
  scratch  : Nat
  stash    : Nat
  traps    : W32
  handler  : W32
  flags    : BitVec 16
  maxrec   : Nat
  keep     : Nat
  energy   : Nat
  argsz    : Nat
  lifetime : W32
  stepping : W32
  deriving DecidableEq, Repr

/-- A crew (R10). -/
structure Crew where
  wg      : Nat            -- meter slot of its workgroup
  cidx    : Nat
  threads : List Thread    -- 64
  s       : KMap W32
  q       : BitVec 3
  flags   : List FlagEntry -- 12
  owed    : List Owed      -- oldest first
  nextId  : Nat
  fps     : W32
  cst     : W32
  abscnt  : W32
  groups  : List (Option Nat) -- G0-G3
  hb      : W64
  dir     : W64            -- of the header at HB: the region directory's address and size, read with HB (assumption 63)
  nreg    : Nat
  rdesc   : BitVec 256     -- the descriptor of the region whose body runs, with the state that the vote entered (assumption 63)
  pos     : W64            -- body position: the address of the next instruction
  cr      : Nat
  ss      : Nat
  sid     : Nat
  sset    : BitVec 31      -- SET of the state whose body runs (R158, R160)
  sweep   : BitVec 31
  retry   : Bool
  votePending : Bool
  epc     : W64
  ecause  : W64
  earg    : W64
  ethr    : W64
  esave   : List W64       -- 4
  hmode   : Bool
  frame   : Frame
  batchCnt : W32
  openSet : List Nat       -- command ids
  batches : List (List Nat) -- 16 entries of outstanding command ids
  failures : List EngFail
  outRes  : List Nat       -- 4
  park    : Option Park
  replay  : Option Mask
  block   : Block
  pause   : W32
  gbarArr : W32
  fbuf    : KMap (List Byte) -- fetched 32-byte blocks by address
  ready   : Nat            -- the ac before which a vote or a handler's entry lets it issue nothing (R170, R412)
  voteTill : Nat           -- the ac before which a NEXT is in progress (R170, R339)
  lastIssue : Option Nat   -- the ac of its last issue since dispatch or restore (R27, R74)
  bpSkip  : Bool
  finished : Bool
  deriving DecidableEq, Repr

/-- Why a workgroup is being aborted (R410, R411). -/
structure AbortInfo where
  cause : Nat
  orig  : Nat
  epc   : W64
  earg  : W64
  ethr  : W64
  slot  : Nat
  eng   : Bool
  at_   : Nat
  deriving DecidableEq, Repr

/-- A group of a launch, as the Bench read it (R189, R190). -/
structure GroupE where
  barrier : W64
  count   : Nat
  scope   : Nat
  bar     : Bool
  init    : Bool
  rsvown  : Bool
  members : List Nat
  deriving DecidableEq, Repr

/-- Hint classes (R232). -/
inductive HClass | ef | normal | el
  deriving DecidableEq, Repr

/-- A first-level or stash line (R214, R219): the sectors that a fill has made valid, its valid bytes by place in the line, a
dirty mask with the crews that wrote the dirty bytes, a poison bit per sector. `pa` is the storage line's key. -/
structure Line where
  ctx    : Nat
  lva    : Nat             -- VA / 128
  pa     : Nat             -- storage key / 128
  w      : Bool
  d      : Bool            -- D of the translation that filled it: a first store through a clean one walks (R186)
  hint   : HClass
  excl   : Bool
  tag    : Option Nat      -- binding tag (R188)
  at_    : Attr            -- of the translation that filled it
  valid  : BitVec 4
  bytes  : KMap Byte
  dirty  : BitVec 128
  writers : KMap CrewId    -- by the place of a dirty byte (R335)
  poison : BitVec 4
  deriving DecidableEq, Repr

/-- An instruction-cache line (R220). -/
structure ILine where
  ctx    : Nat
  lva    : Nat
  pa     : Nat
  bytes  : List Byte       -- 128
  poison : BitVec 4
  deriving DecidableEq, Repr

/-- A mapped range of the stash (R219, R265); the lines filled, by their place in the window. -/
structure Window where
  wg    : Nat
  va    : W64
  off   : Nat
  len   : Nat
  lines : KMap Line
  handle : Nat             -- the number by which its workgroup names it: the entry's, until a restore (assumption 59)
  deriving DecidableEq, Repr

/-- Who holds an engine resource (R291): a crew slot of the core, or a group of a workgroup. -/
inductive Owner
  | crew (slot : Nat)
  | group (wg g : Nat)
  deriving DecidableEq, Repr

/-- A macro block's reload record (R305): its source, the stride, and the first row. -/
structure Reload where
  va     : W64
  stride : W32
  row    : Nat
  deriving DecidableEq, Repr

/-- Element formats of a leaf (R111), by code. -/
abbrev FmtCode := Nat

/-- A CIM macro (R206, R291): cells by row x 256 + column, unlisted 0; poisoned rows; its owner, format (an R111 code) and
reload records by block. -/
structure CimMac where
  cells  : KMap Int
  poison : List Nat
  owner  : Option Owner
  fmt    : Option FmtCode
  reload : KMap Reload
  busy   : Nat             -- the ac that its bit-plane passes still take, one each (R345)
  name   : Nat             -- the number by which its workgroup names it: the macro's, until a restore (assumption 59)
  stamp  : Nat             -- the order of the grants
  deriving DecidableEq, Repr

/-- A translation that a cluster TLB holds (R221). -/
structure TlbEntry where
  key    : Nat             -- context, or for a G entry the function
  glob   : Bool
  va     : Nat             -- page base
  size   : Nat             -- page bytes
  pa     : Nat             -- physical address of the page base
  w      : Bool
  x      : Bool
  u      : Bool
  fmt    : Nat
  bg     : Nat
  cmp    : Bool
  plc    : Bool
  conf   : Bool
  acc    : Bool            -- A, and D, as the walk that filled the entry left them
  d      : Bool
  leaf   : Nat             -- physical address of the leaf entry
  level  : Nat
  deriving DecidableEq, Repr

/-- Where an engine command stands. -/
inductive CmdState
  | ready
  | parked (p : Park)
  | failed
  | stopped
  | ending (status : Nat) (fail : Option Nat) (sat : Bool) -- the Grainer knows how it ends and still reads symbols (R312, R367)
  deriving DecidableEq, Repr

/-- The operands of an engine command, read at issue, and its progress (R300). -/
inductive CmdOp
  | copy (dir : CopyDir) (src dst : Nat) (rb nr : Nat) (sstr dstr : Int) (bar : Option Nat) (row off : Nat)
  | cld (mac fblk nr : Nat) (src : W64) (stride : Nat) (fmt : Option FmtCode) (row : Nat)
  | mma (s4 acc sum : Bool) (out act : Nat) (nv : Nat) (mask : BitVec 8) (fmts : List FmtCode) (vec : Nat) (clamped : Bool)
  | gmv (seg : W64) (inp out stat ncol b : Nat) (s16 acc : Bool) (maxrow : Nat) (rows : Nat) (satcol : BitVec 8)
  deriving DecidableEq, Repr

/-- A command entry (R291). `engine` 0-3 is copy channel 0-3, 4 the CIM array, 5 the Grainer. -/
structure Cmd where
  id     : Nat
  slot   : Nat             -- issuing crew
  wg     : Nat
  engine : Nat
  flag   : Option (Fin 12)
  pc     : W64
  ord    : EngOrder
  begun  : Bool
  st     : CmdState
  op     : CmdOp
  rd     : Option TlbEntry -- the pages that its read and its write stream are in (R298, R319)
  wr     : Option TlbEntry
  early  : KMap Byte       -- by offset: scratchpad bytes of its next unit that it has read already (R297)
  deriving DecidableEq, Repr

/-- A cached state descriptor with its tag (R158, R162). -/
structure SCEntry where
  dir    : W64
  region : Nat
  set    : BitVec 31
  desc   : BitVec 128
  slot   : Nat
  rdesc  : BitVec 256      -- the region's descriptor when the state's was read (R439)
  deriving DecidableEq, Repr

/-- A sequencer: its state cache and its debug register (R162, R404). -/
structure Seq where
  cache : List SCEntry
  dseq  : W64
  held  : Option (Nat × Nat × Nat) -- a stop held under R430: REASON, SLOT, BPIX
  sampled : KMap Nat       -- by function: the slot of its last stall sample (R339)
  stepping : Option Nat    -- the slot that a STEP lets issue (R428)
  issued : Option Nat      -- the ac in which it last started an instruction (R27)
  deriving DecidableEq, Repr

/-- A sampled load whose record is not written yet (R342). -/
structure Sample where
  pc     : W64
  va     : W64
  ctx    : Nat
  func   : Nat
  level  : Nat
  tlb    : Bool
  poison : Bool
  deriving DecidableEq, Repr

/-- The grant remainder and the debt of one function on a core (R343). -/
structure GrantRec where
  rem  : Nat
  debt : Nat
  deriving DecidableEq, Repr

/-- A resident workgroup, by its meter slot (R13, R343). -/
structure Wg where
  launch  : Nat
  ctx     : Nat
  conf    : Bool
  func    : Nat
  cls     : Nat
  wgidx   : Nat
  nwg     : W32
  kernel  : Kernel
  groups  : KMap GroupE
  node    : Option W64     -- the launch's node descriptor
  part    : Nat
  scr     : KMap Byte      -- scratchpad bytes, unlisted 0
  scrPoison : List Nat     -- poisoned sectors
  cum     : Nat
  flushed : Nat
  frac    : Nat
  est     : Nat            -- the estimate debited at dispatch, uJ
  cest    : Nat            -- the estimate committed on its die (R359), uJ
  save    : Option (Nat × Nat) -- a forced save asked for: its cause, and when
  abort   : Option AbortInfo
  written : Bool           -- the write-back of R19 or R410 is done
  stopped : Bool           -- its commands begin no further unit (R410)
  crews   : List Nat       -- crew slots, in CIDX order
  deriving DecidableEq, Repr

structure Core where
  fenced  : Bool
  seqs    : List Seq       -- 4
  crews   : KMap Crew      -- by sequencer x 16 + crew slot
  wgs     : KMap Wg
  l1      : KMap (List Line)   -- by set; most recently used first
  icache  : KMap (List ILine)
  windows : KMap Window
  cim     : List CimMac    -- 8
  grainer : Option Owner
  grainBusy : Nat          -- the ac in which it still reads symbols, 32 to an ac (R7, R345)
  rvf     : KMap W32       -- rule x 8 + column, unlisted 0
  rvfPoison : List Nat
  cmds    : List Cmd       -- in issue order
  nextCmd : Nat
  pmcnt   : List Nat       -- 8
  loads   : Nat            -- loads of observed contexts, for R342
  samples : List Sample    -- oldest first
  pmsel   : List W32       -- 8
  ovf     : List Nat       -- 8: one more than the ac in which the selector's OVF was last set, 0 before that (R4)
  grants  : KMap GrantRec  -- by function
  temp    : BitVec 16      -- S16, units of 0.1 degree: 600, at which R346 gives E0, until the first sensor sample (R343)
  deriving DecidableEq, Repr

/-- What a second-level slice holds of a superblock of four lines (R212): which lines, which are dirty, their owners, its
class and the stamp of its last use. -/
structure L2Sb where
  present : BitVec 4
  dirty   : BitVec 4
  owner   : List (Option Nat)  -- 4
  cmp     : BitVec 4
  fmt     : Nat
  bg      : Nat
  hint    : HClass
  used    : Nat
  deriving DecidableEq, Repr

/-- What a gang holds in one partition (R386): a core for each of its workgroups there. -/
structure GangRes where
  part  : Nat
  cores : List Nat
  deriving DecidableEq, Repr

/-- How far a launch is (R376, R384, R386). -/
inductive LState
  | waiting                -- cooperative or gang, not yet started
  | reserved (res : List GangRes) (since : Nat)
  | running
  | failing (core part : Nat) (index : Option Nat) (since : Nat) -- a gang whose members are being saved (R431)
  deriving DecidableEq, Repr

/-- Where a crew starts (R114): the region and block of its threads, the slot and set of state 0, the descriptor of the region,
and the region directory. -/
structure Start where
  region : Nat
  block  : Nat
  slot   : Nat
  set    : BitVec 31
  rdesc  : BitVec 256
  dir    : W64
  nreg   : Nat
  deriving DecidableEq, Repr

/-- An admitted launch (R376). -/
structure Launch where
  id      : Nat
  func    : Nat
  queue   : Nat
  slotPa  : Nat
  ctx     : Nat
  conf    : Bool
  record  : List Byte      -- 64
  kernel  : Kernel
  args    : List W32
  groups  : KMap GroupE
  next    : Nat
  nwg     : Nat
  live    : Nat
  energy  : Nat            -- final CUM of retired workgroups, pJ
  retired : Nat
  start   : Start
  prep    : Option (List (List Byte)) -- records taken for the node's next workgroup (R390)
  coop    : Bool
  gang    : Bool
  node    : Option W64
  st      : LState
  aborted : Bool
  closed  : Bool           -- partitions closed for it (R384)
  retryAt : Nat
  deriving DecidableEq, Repr

/-- What the Bench knows of a launch queue beyond its header in memory. -/
structure QState where
  en      : Bool
  dc      : Int
  overrun : Bool
  cleared : Bool           -- EN has been seen 0 since the overrun
  held    : Bool
  run     : Bool           -- STATE reads 1, not 0, where it reads neither 2 nor 3
  load    : Option (Nat × List Byte) -- a load record taken and not yet performed: its slot's address and bytes
  deriving DecidableEq, Repr

/-- A saved workgroup (R421): where its image is in the function's pool, and what R422 and R423 save. -/
structure Saved where
  func   : Nat
  off    : Nat
  size   : Nat
  launch : Launch          -- the launch as the Bench held it
  wg     : Wg
  crews  : List Crew
  macs   : List CimMac     -- by grant order
  grain  : Option Owner
  cmds   : List Cmd
  wins   : List Window
  cause  : Nat             -- 0 debugger, 1 overdraft, 2 gang failure
  at_    : Nat             -- REFCLK at the save
  dbg    : Bool            -- a debugger's save, or a stop of one of its sequencers (R422)
  index  : Option Nat      -- the pool offset of the dump index block that holds it (R431)
  deriving DecidableEq, Repr

/-- A loaded code object: where its allocated sections lie (R204). -/
structure CodeObj where
  ctx   : Nat
  va    : W64
  secs  : List (Nat × Nat)  -- offset and length
  deriving DecidableEq, Repr

/-- Who is charged (R347, R348): the meter slot of a workgroup, with its context and the workgroup, or the house. -/
inductive Payer
  | slot (core wg ctx : Nat) (id : WgId)
  | house
  deriving DecidableEq, Repr

structure Link where
  enabled : Bool
  up      : Bool
  paused  : Bool
  replays : Nat            -- in a row (R450)
  heard   : Nat            -- the tick at which a flit last arrived (R450)
  trained : Bool           -- since it was last down (R450)
  sender  : Payer          -- who sent its last flit, and sends it again (R345, R448)
  deriving DecidableEq, Repr

/-- An entry of the boot record (R454). -/
structure BootEntry where
  step   : Nat
  alt    : Bool
  result : Nat
  refclk : Nat
  meas   : List Byte
  deriving DecidableEq, Repr

structure Boot where
  next    : Nat            -- the next step of R453, 8 when start-up is over
  stopped : Bool
  record  : List BootEntry -- newest last
  hdrCount : Nat
  meas    : List (List Byte) -- 16 slots of 64 bytes
  altReq  : List Nat
  deriving DecidableEq, Repr

/-- What the part has answered to the outside. -/
inductive Reply
  | hostRead (bytes : List Byte) (poison : Bool)
  | hostWrite
  | unsupported
  | regRead (x : W64)
  | peerRead (peer : Nat) (bytes : List Byte) (poison : Bool)
  | peerWrite (peer : Nat)
  | peerAtomic (peer : Nat) (bytes : List Byte) (poison : Bool) (fps : BitVec 5)
  | peerErr (peer : Nat)
  | msix (func vec : Nat)
  | telemetry (temps : KMap Int) (energy : List Nat) (links : List Bool) (fenced : List Nat) (bootHdr : List Byte) (accounts : KMap Nat)
  | measurements (slots : List (List Byte)) (sig : List Byte)
  | configRetry
  | configDone
  | flit (link : Nat)
  | stopped (core seq : Nat)
  | debug (bytes : List Byte)
  | stateCache (entries : List SCEntry)
  deriving DecidableEq, Repr

/-- Bytes of one sector on their way to a home slice (R270, R273): the core that sends them, who pays, and the crews whose bytes
they are. `must`: a FENCE or a release of the core waits for them. `eng`: the engine command whose bytes they are (R282). -/
structure Flight where
  core  : Nat
  payer : Payer
  writers : List CrewId
  ctx   : Nat
  func  : Nat
  conf  : Bool
  at_   : Attr
  ws    : List (Nat × Byte)
  bad   : Bool             -- the data are poisoned
  whole : Bool             -- the write covers its line (R212)
  must  : Bool
  eng   : Option Nat := none
  deriving DecidableEq, Repr

/-- One entry of the schedule that the environment gives the part (assumption 1). -/
inductive Move
  | issue (key : CrewKey)
  | event (i : Instr)
  | turn (core seq : Nat)  -- a sequencer issues for the crew that it chooses (R27, R79)
  | accept (i : Nat)       -- the home slice accepts the `i`-th write on its way (R273)
  | late (key : CrewKey) (id row piece : Nat) -- a load's read of one sector is performed now (R243, R273)
  | sendOut (key : CrewKey)                -- the write-backs of the instruction that a crew stands at set out (R245, R273)
  | sendFor (core cmd : Nat)               -- the write-backs of an engine command's acquire set out (R273, R282)
  | engRead (core cmd off n : Nat)         -- an engine command reads scratchpad bytes of its next unit (R297)
  | fill (key : CrewKey) (va : Nat)        -- the load that a crew stands at fills one of its sectors (R242, R273)
  | ac                     -- one arithmetic cycle passes
  | divide (p : Nat) (clusters : List Nat) -- the PF gives a partition its clusters (R24)
  | allow (func : Nat) (mask : BitVec 8)   -- the PF sets the partitions on which a function may run (R24)
  | regRead (agent : RegAgent) (num sel : Nat) -- an agent reads a system register (R407)
  | acctRead (func ctx : Nat)              -- a driver reads an account through its window (R361)
  | debugRead (key : CrewKey) (off n : Nat) -- the debugger reads a crew of a stopped sequencer (R427)
  | cacheRead (core seq : Nat)             -- the debugger reads the state cache of a stopped sequencer (R154)
  | outside (pa : Nat) (data : DataIn)     -- the host or a peer stores into its own memory (R208, R380)
  | mask (func vec : Nat)                  -- the host masks an MSI-X vector (R447)
  | retrain (link : Nat)                   -- a link that is down has retrained (R450)
  | otherRequest                           -- the host uses an option that the port does not support (R444)
  deriving DecidableEq, Repr

/-- An open interval of a domain (R343, R352): the energy in pJ that its sensors have measured, the dynamic energy in fJ charged
to it, and slot-cycles by context. -/
structure Domain where
  meas : Nat
  dyn  : Nat
  slotAc : KMap Nat
  last : Nat               -- energy of the last interval
  deriving DecidableEq, Repr

/-- The exact BALANCE and GRANTED of a function that owns a CONF context (R361). -/
structure PanHold where
  bal  : Int
  gr   : Nat
  deriving DecidableEq, Repr

/-- An error record not yet in its context's fault queue (R227, R411). -/
structure FqRec where
  ctx     : Nat
  bytes   : List Byte
  counted : Bool           -- in the overflow count
  deriving DecidableEq, Repr

/-- The part. -/
structure State where
  -- the model's own
  agenda  : List Move
  cur     : Option CrewKey
  fresh   : Nat
  blocked : Bool           -- the step needs a flit on a paused link: it does not happen yet (R448)
  out     : List Reply     -- newest first
  -- storage
  mem     : Memory         -- by storage key, unlisted 0
  poison  : List Nat       -- poisoned sectors of storage, by key / 32
  crypt   : KMap Nat       -- the function whose key encrypts a 16-byte block of storage, by key / 16 (R183)
  flight  : List Flight    -- writes of cores that no home slice has accepted yet, oldest first
  failed  : List Nat       -- cores whose slice or channel has failed (R207)
  l2      : KMap L2Sb      -- by storage key / 512
  hostHeld : List (Nat × Bool) -- host lines that the device holds, by storage key / 128, oldest first; whether the Bench does (R444)
  tlb     : KMap (List TlbEntry) -- by cluster
  cores   : KMap Core      -- a core not listed is as at reset
  -- the device
  refclk  : Nat
  sub     : Nat            -- the ac of the tick, 0-6 (R3)
  sysregs : KMap W64       -- by number x 65536 + selector, unlisted at its reset value
  accounts : KMap Nat
  confAcc : KMap Nat       -- accounts of CONF contexts as others last saw them (R361)
  panHold : KMap PanHold   -- by function
  house   : Nat
  lateAcc : KMap Nat       -- by context: fJ charged after the workgroup's slot was freed (R461)
  panEn   : List Nat       -- functions whose pan has had EN = 1 ever since its last use (R353)
  domains : List Domain    -- 5
  substrate : BitVec 16    -- as Core.temp, of the substrate's sensor (R461)
  sensed  : Bool           -- the sensors have been sampled since reset
  throttle : List Nat      -- per die: how many of 4 ac may issue
  pod     : Option Nat
  links   : List Link      -- 36
  boot    : Boot
  msixOpen : List Nat      -- func x 64 + vector: the vectors whose mask bit is clear
  msixPend : List Nat
  errCount : KMap Nat
  -- the Bench
  parts   : KMap (List Nat)  -- clusters of each partition
  funcParts : KMap (BitVec 8) -- unlisted 0xFF
  rotation : KMap Nat
  launches : KMap Launch
  queues  : KMap QState    -- func x 64 + queue
  visit   : Nat
  saved   : KMap Saved
  objects : List CodeObj
  nextLaunch : Nat
  nextHandle : Nat
  nextSaved : Nat
  fqFailed : KMap Bool     -- contexts whose fault queue could not be written: whether a write to its header's line came (R227)
  fqPend  : List FqRec     -- error records that wait for their fault queue
  liveCtx : List Nat       -- contexts seen with VALID = 1: the others are created when it goes to 1 (R179, R343)
  deriving DecidableEq, Repr

/-! ## Reset -/

def FlagEntry.zero : FlagEntry := { pc := 0, cnt := 0, dreg := 0, dn := 0, dp := 0, dq := false, pall := false }

def Frame.zero : Frame := { hb := 0, pos := 0, cr := 0, ss := 0, sid := 0, sset := 0, held := 0 }

def Seq.zero : Seq := { cache := [], dseq := 0, held := none, sampled := [], stepping := none, issued := none }

def CimMac.zero : CimMac := { cells := [], poison := [], owner := none, fmt := none, reload := [], busy := 0, name := 0, stamp := 0 }

/-- A core at reset (R206, R291, R343, R404). -/
def Core.zero : Core where
  fenced := false
  seqs := List.replicate 4 Seq.zero
  crews := []
  wgs := []
  l1 := []
  icache := []
  windows := []
  cim := List.replicate 8 CimMac.zero
  grainer := none
  grainBusy := 0
  rvf := []
  rvfPoison := []
  cmds := []
  nextCmd := 0
  pmcnt := List.replicate 8 0
  loads := 0
  samples := []
  pmsel := List.replicate 8 0
  ovf := List.replicate 8 0
  grants := []
  temp := 600

def Link.zero : Link :=
  { enabled := false, up := false, paused := false, replays := 0, heard := 0, trained := false, sender := .house }

def Domain.zero : Domain := { meas := 0, dyn := 0, slotAc := [], last := 0 }

/-- Before step 0 of R453; assumption 16 for the record of an earlier boot. -/
def Boot.zero : Boot where
  next := 0
  stopped := false
  record := []
  hdrCount := 0
  meas := List.replicate 16 (List.replicate 64 0)
  altReq := []

/-- The part right after reset (R206, R291, R320, R343, R376, R404, R451, R453; assumptions 1, 3, 6, 10, 14-18). -/
def State.reset : State where
  agenda := []
  cur := none
  fresh := 0
  blocked := false
  out := []
  mem := []
  poison := []
  crypt := []
  flight := []
  failed := []
  l2 := []
  hostHeld := []
  tlb := []
  cores := []
  refclk := 0
  sub := 0
  sysregs := []
  accounts := []
  confAcc := []
  panHold := []
  house := 0
  lateAcc := []
  panEn := []
  domains := List.replicate 5 Domain.zero
  substrate := 600
  sensed := false
  throttle := List.replicate 4 4
  pod := none
  links := List.replicate 36 Link.zero
  boot := Boot.zero
  msixOpen := []
  msixPend := []
  errCount := []
  parts := [(0, List.range 96)]
  funcParts := []
  rotation := []
  launches := []
  queues := []
  visit := 0
  saved := []
  objects := []
  nextLaunch := 1
  nextHandle := 1
  nextSaved := 1
  fqFailed := []
  fqPend := []
  liveCtx := []

end Sys2Proof.Machine
end

