-- ==== Sys2Proof/Machine/Ops.lean ====
section
/-! DEFINITION. The named operations that every meaning goes through: places in the state, who takes part (R11, R73, R160),
reading and writing registers with writes owed (R75, R83), flags (R77, R118), charges (R347, R349), counters (R340), taking
an exception (R412, R414) and returning from one (R417). -/

namespace Sys2Proof.Machine

open Sys2Proof

abbrev Out := Host.Outcome State Fault Refusal

/-! ## Places -/

def State.core (s : State) (c : Nat) : Core := (kfind c s.cores).getD Core.zero
def State.setCore (s : State) (c : Nat) (x : Core) : State := { s with cores := kput c x s.cores }
def State.modCore (s : State) (c : Nat) (f : Core → Core) : State := s.setCore c (f (s.core c))

def State.crew? (s : State) (k : CrewKey) : Option Crew := kfind k.slot (s.core k.core).crews
def State.setCrew (s : State) (k : CrewKey) (x : Crew) : State :=
  s.modCore k.core (fun c => { c with crews := kput k.slot x c.crews })
def State.modCrew (s : State) (k : CrewKey) (f : Crew → Crew) : State :=
  match s.crew? k with
  | some x => s.setCrew k (f x)
  | none => s

def State.wg? (s : State) (c w : Nat) : Option Wg := kfind w (s.core c).wgs
def State.setWg (s : State) (c w : Nat) (x : Wg) : State :=
  s.modCore c (fun co => { co with wgs := kput w x co.wgs })
def State.modWg (s : State) (c w : Nat) (f : Wg → Wg) : State :=
  match s.wg? c w with
  | some x => s.setWg c w (f x)
  | none => s

def Wg.id (x : Wg) : WgId := { launch := x.launch, idx := x.wgidx }

/-- The number of the current ac: seven to a tick (R3). -/
def State.now (s : State) : Nat := 7 * s.refclk + s.sub

/-- A core's cluster lies in a partition; clusters in none run no work (R24). -/
def State.serves (s : State) (c : Nat) : Bool := s.parts.any (fun e => e.2.contains (c / 8))

/-- The sequencer of a crew slot. -/
def seqOf (slot : Nat) : Nat := slot / 16
/-- A debugger stop of the slot's sequencer (R428). -/
def Core.stopped (co : Core) (slot : Nat) : Bool := (co.seqs.getD (seqOf slot) Seq.zero).dseq.getLsbD 16

def State.say (s : State) (r : Reply) : State := { s with out := r :: s.out }

/-- Modify every crew of a workgroup. -/
def State.modCrewsOf (s : State) (c w : Nat) (f : Crew → Crew) : State :=
  s.modCore c (fun co => { co with crews := kmap (fun _ x => if x.wg = w then f x else x) co.crews })

/-! ## Threads and BR (R115) -/

def Thread.exited (t : Thread) : Bool := t.br.getLsbD 14
def Thread.held (t : Thread) : Bool := t.br.getLsbD 15
def Thread.region (t : Thread) : Nat := (t.br.extractLsb' 5 9).toNat
def Thread.block (t : Thread) : Nat := (t.br.extractLsb' 0 5).toNat

/-- A BR value of its fields. -/
def mkBr (held exited : Bool) (region block : Nat) : BitVec 16 :=
  BitVec.ofBool held ++ BitVec.ofBool exited ++ BitVec.ofNat 9 region ++ BitVec.ofNat 5 block

def Thread.setHeld (t : Thread) (b : Bool) : Thread := { t with br := mkBr b t.exited t.region t.block }
def Thread.setExited (t : Thread) (b : Bool) : Thread := { t with br := mkBr t.held b t.region t.block }
def Thread.goto (t : Thread) (region block : Nat) : Thread :=
  { t with br := mkBr t.held t.exited region block }

/-- A position that holds no live thread. -/
def Thread.gone : Thread where
  v := []
  p := 0
  br := mkBr false true 0 0
  tidx := 0
  holdCnt := 0
  yld := false
  swp := false

def Crew.thr (cr : Crew) (t : Nat) : Thread := cr.threads.getD t Thread.gone
def Crew.setThr (cr : Crew) (t : Nat) (x : Thread) : Crew := { cr with threads := cr.threads.set t x }
def Crew.modThr (cr : Crew) (t : Nat) (f : Thread → Thread) : Crew := cr.setThr t (f (cr.thr t))
/-- Apply a function to every thread, by its position. -/
def Crew.mapThr (cr : Crew) (f : Nat → Thread → Thread) : Crew := { cr with threads := cr.threads.mapIdx f }

def Crew.live (cr : Crew) : List Nat := (List.range 64).filter (fun t => !(cr.thr t).exited)
def Crew.liveMask (cr : Crew) : Mask := maskOf 64 cr.live

/-! ## Registers, with the writes that are owed (R75) -/

def Crew.landedV (cr : Crew) (t r : Nat) : W32 := kget 0 r (cr.thr t).v
def Crew.landedS (cr : Crew) (r : Nat) : W32 := kget 0 r cr.s
/-- P7 reads 1 (R113). -/
def Crew.landedP (cr : Crew) (t i : Nat) : Bool := i == 7 || (cr.thr t).p.getLsbD i
/-- Q3 reads 1 (R113). -/
def Crew.landedQ (cr : Crew) (i : Nat) : Bool := i == 3 || cr.q.getLsbD i

/-- What each owed instruction will write to a place: the last of its writes there (R83). -/
def Crew.owedBy {α : Type} (cr : Crew) (f : RegWrite → Option α) : List α :=
  cr.owed.flatMap (fun o => (o.writes.filterMap f).getLast?.toList)

def Crew.owedV (cr : Crew) (t r : Nat) : List W32 :=
  cr.owedBy (fun w => match w with
    | .v t' r' x => if t' = t ∧ r' = r then some x else none
    | _ => none)
def Crew.owedS (cr : Crew) (r : Nat) : List W32 :=
  cr.owedBy (fun w => match w with
    | .s r' x => if r' = r then some x else none
    | _ => none)
def Crew.owedP (cr : Crew) (t i : Nat) : List Bool :=
  cr.owedBy (fun w => match w with
    | .p t' i' x => if t' = t ∧ i' = i then some x else none
    | _ => none)
def Crew.owedQ (cr : Crew) (i : Nat) : List Bool :=
  cr.owedBy (fun w => match w with
    | .q i' x => if i' = i then some x else none
    | _ => none)

/-- An early read returns the value before or an owed one, and nothing says which (R75; assumption 3). -/
def pick {α : Type} (fresh place reg : Nat) (old : α) (owed : List α) : α :=
  match owed with
  | [] => old
  | _ => (old :: owed).getD (Config.early fresh place reg % (owed.length + 1)) old

def Crew.rdV (cr : Crew) (fresh t r : Nat) : W32 := pick fresh t r (cr.landedV t r) (cr.owedV t r)
def Crew.rdS (cr : Crew) (fresh r : Nat) : W32 := pick fresh 64 r (cr.landedS r) (cr.owedS r)
/-- P7 reads 1 whatever was written to it (R113). -/
def Crew.rdP (cr : Crew) (fresh t i : Nat) : Bool := i == 7 || pick fresh t (256 + i) (cr.landedP t i) (cr.owedP t i)
/-- Q3 reads 1 whatever was written to it (R113). -/
def Crew.rdQ (cr : Crew) (fresh i : Nat) : Bool := i == 3 || pick fresh 64 (256 + i) (cr.landedQ i) (cr.owedQ i)

/-- A write lands. Writes to P7 and Q3 are discarded (R113). -/
def Crew.land1 (cr : Crew) : RegWrite → Crew
  | .v t r x => cr.modThr t (fun th => { th with v := kset 0 r x th.v })
  | .s r x => { cr with s := kset 0 r x cr.s }
  | .p t i b => if i < 7 then cr.modThr t (fun th => { th with p := if b then th.p ||| (1#7 <<< i) else th.p &&& ~~~(1#7 <<< i) })
                else cr
  | .q i b => if i < 3 then { cr with q := if b then cr.q ||| (1#3 <<< i) else cr.q &&& ~~~(1#3 <<< i) } else cr

def Crew.landAll (cr : Crew) (l : List RegWrite) : Crew := l.foldl Crew.land1 cr

/-- FPS and CST.SAT are sticky (R99, R116). -/
def Crew.raiseFps (cr : Crew) (f : BitVec 5) : Crew := { cr with fps := cr.fps ||| f.zeroExtend 32 }
def Crew.raiseSat (cr : Crew) (b : Bool) : Crew := if b then { cr with cst := cr.cst ||| 1 } else cr
def Crew.raiseUv (cr : Crew) : Crew := { cr with cst := cr.cst ||| 2 }

/-! ## Flags (R77, R118) -/

def Crew.flag (cr : Crew) (k : Nat) : FlagEntry := cr.flags.getD k FlagEntry.zero
def Crew.flagDown (cr : Crew) (k : Option (Fin 12)) : Crew :=
  match k with
  | some f => { cr with flags := lmod cr.flags f.val (fun e => { e with cnt := e.cnt - 1 }) }
  | none => cr

/-- What the flag table records of an instruction's destinations (R118). -/
structure Dest where
  dreg : BitVec 8
  dn   : Nat
  dp   : BitVec 3
  dq   : Bool
  pall : Bool
  deriving DecidableEq, Repr

def Dest.none : Dest := { dreg := 254, dn := 0, dp := 7, dq := false, pall := false }
def Dest.reg (d : Reg) (n : Nat) : Dest :=
  match d with
  | .z => Dest.none
  | _ => { Dest.none with dreg := d.code, dn := n }
/-- The predicate of an instruction that names Q3, whose write is discarded, is recorded as Q3 (assumption 50). -/
def Dest.withPred (x : Dest) (p : Pred) : Dest :=
  match p with
  | .p i => { x with dp := BitVec.ofNat 3 i.val, dq := false }
  | .q i => { x with dp := BitVec.ofNat 3 i.val, dq := true }

def Crew.flagUp (cr : Crew) (k : Option (Fin 12)) (pc : W64) (d : Dest) : Crew :=
  match k with
  | some f => { cr with flags := lmod cr.flags f.val (fun e =>
      { pc := pc, cnt := e.cnt + 1, dreg := d.dreg, dn := d.dn, dp := d.dp, dq := d.dq, pall := d.pall }) }
  | none => cr

/-- The writes of one owed instruction land and its flag counts down (R77). -/
def Crew.landOwed (cr : Crew) (o : Owed) : Crew :=
  (((cr.landAll o.writes).raiseFps o.fps).raiseSat o.sat).flagDown o.flag

/-- Whether two writes are of one register or predicate. -/
def RegWrite.same : RegWrite → RegWrite → Bool
  | .v t r _, .v t' r' _ => t == t' && r == r'
  | .s r _, .s r' _ => r == r'
  | .p t i _, .p t' i' _ => t == t' && i == i'
  | .q i _, .q i' _ => i == i'
  | _, _ => false

/-- A fixed-latency write whose delay has passed by the ac `now` (R75). -/
def Owed.isDue (o : Owed) (now : Nat) : Bool :=
  match o.due with
  | some d => decide (d ≤ now)
  | none => false

/-- A write that a fixed-latency instruction still owes is lost in a write of the same register by a later instruction, once
that one has landed (R75). -/
def Owed.without (o : Owed) (ws : List RegWrite) : Owed :=
  if o.due.isSome then { o with writes := o.writes.filter (fun w => !ws.any w.same) } else o

/-- What is still owed once `landed` have landed. -/
def Owed.unless (o : Owed) (landed : List Owed) : Owed :=
  o.without ((landed.filter (fun p => decide (o.id < p.id))).flatMap Owed.writes)

/-- Land, in issue order, every owed write that the test selects; an earlier one that is still owed is lost in it (R75). -/
def Crew.landIf (cr : Crew) (p : Owed → Bool) : Crew :=
  { (cr.owed.filter p).foldl Crew.landOwed cr with
    owed := (cr.owed.filter (fun o => !p o)).map (·.unless (cr.owed.filter p)) }

/-- Writes that land at once, after every write of an earlier fixed-latency instruction (R75). -/
def Crew.landNow (cr : Crew) (ws : List RegWrite) : Crew :=
  { cr.landAll ws with owed := cr.owed.map (·.without ws) }

/-- The fixed-latency writes whose delay has passed land (R75). -/
def Crew.landDue (cr : Crew) (now : Nat) : Crew := cr.landIf (·.isDue now)

/-- R76: every fixed-latency write lands. -/
def Crew.landFixed (cr : Crew) : Crew := cr.landIf (fun o => o.due.isSome)

/-! ## Taking part -/

/-- R160: the thread is in the state whose body the crew runs. -/
def Crew.inState (cr : Crew) (th : Thread) : Bool :=
  !th.exited && !th.held && th.region == cr.cr && cr.sset.getLsbD th.block

/-- R11, R72 and, in handler mode, R413: the BT part. -/
def Crew.matchBt (cr : Crew) (bt : BitVec 5) (th : Thread) : Bool :=
  if cr.hmode then !th.exited && bt == 31
  else cr.inState th && (bt == 31 || bt.toNat == th.block)

/-- The guard of a thread (R73); for UNI = 1 the crew's. -/
def Crew.guard (cr : Crew) (h : Hdr) (fresh t : Nat) : Bool :=
  (h.pg == 7 || (if h.uni then cr.rdQ fresh h.pg.toNat else cr.rdP fresh t h.pg.toNat)) != h.pn

/-- The threads that take part (R11). For UNI = 1 a non-empty mask says that the instruction executes (R73). -/
def Crew.taking (cr : Crew) (h : Hdr) (fresh : Nat) : Mask :=
  maskOf 64 ((List.range 64).filter (fun t => cr.matchBt h.bt (cr.thr t) && cr.guard h fresh t))

/-! ## The context of an issue -/

/-- What a meaning is given: the crew as it issues, after the writes that are due have landed. -/
structure Cx where
  key   : CrewKey
  crew  : Crew
  wg    : Wg
  fresh : Nat
  h     : Hdr
  mask  : Mask
  pc    : W64
  next  : W64
  deriving DecidableEq, Repr

def Cx.kernel (x : Cx) : Kernel := x.wg.kernel
/-- The lanes that a body runs for: one for UNI = 1 (R124). -/
def Cx.lanes (x : Cx) : List Nat := if x.h.uni then [0] else bitsOf x.mask
/-- No thread takes part, or a uniform instruction does not execute (R72, R73). -/
def Cx.idle (x : Cx) : Bool := x.mask == 0
def Cx.replaying (x : Cx) : Bool := x.crew.replay.isSome

/-- The issue of the current crew's instruction: the ac of it (R74), the landing of what is due, and T, which on a
replay is the replay mask (R228). -/
def State.begin (s : State) (h : Hdr) : Option (Cx × State) :=
  match s.cur with
  | none => none
  | some key =>
    match s.crew? key with
    | none => none
    | some cr =>
      match s.wg? key.core cr.wg with
      | none => none
      | some wg =>
        let cr := { cr with lastIssue := some s.now }.landDue s.now
        let mask := match cr.replay with
          | some m => m
          | none => cr.taking h s.fresh
        some ({ key := key, crew := cr, wg := wg, fresh := s.fresh, h := h, mask := mask, pc := cr.pos,
                next := cr.pos + BitVec.ofNat 64 h.form.bytes },
              { s with fresh := s.fresh + 1 }.setCrew key cr)

/-- An event of a crew, or of a workgroup: it happens where the place exists. -/
def atCrew (s : State) (key : CrewKey) (f : Crew → Wg → State) : Out :=
  match s.crew? key with
  | none => .next s
  | some cr =>
    match s.wg? key.core cr.wg with
    | none => .next s
    | some wg => .next (f cr wg)
def atWg (s : State) (c w : Nat) (f : Wg → State) : Out :=
  match s.wg? c w with
  | none => .next s
  | some wg => .next (f wg)

/-- Run a meaning on the issuing crew. -/
def withCx (h : Hdr) (s : State) (k : Cx → State → Out) : Out :=
  match s.begin h with
  | none => .fault .noCrew
  | some (x, s') => k x s'

/-! ## Charges (R345-R349, R461) -/

/-- Where an event takes place (R461). -/
inductive Place
  | core (c : Nat)
  | substrate
  deriving DecidableEq, Repr

/-- R346. -/
def calibrated (cls : Nat) (temp : BitVec 16) : Nat :=
  if cls ≤ 20 then
    min (((Config.fuseE0 cls).toNat : Int) * (10000000 + (Config.fuseAlpha cls).toInt * (temp.toInt - 600)) / 10000000).toNat 0xFFFFFFFF
  else 0

def State.energy (s : State) (p : Place) (cls : Nat) : Nat :=
  match p with
  | .core c => calibrated cls (s.core c).temp
  | .substrate => calibrated cls s.substrate

def Place.domain : Place → Nat
  | .core c => c / 192
  | .substrate => 4

def State.addDyn (s : State) (p : Place) (e : Nat) : State :=
  { s with domains := lmod s.domains p.domain (fun d => { d with dyn := d.dyn + e }) }

/-- The charge of `pj` against the core's grant (R354): what the remainder lacks becomes debt. -/
def GrantRec.draw (g : GrantRec) (pj : Nat) : GrantRec :=
  { rem := g.rem - pj, debt := g.debt + (pj - g.rem) }

/-- `n` events of a class, charged to a workgroup's slot (R347, R349). -/
def State.charge (s : State) (c w : Nat) (p : Place) (cls n : Nat) : State :=
  let e := n * s.energy p cls
  match s.wg? c w with
  | none => s.addDyn p e
  | some x =>
    let t := x.frac + e
    let s := (s.setWg c w { x with cum := x.cum + t / 1000, frac := t % 1000 }).addDyn p e
    if x.func = 0 then s
    else s.modCore c (fun co =>
      { co with grants := kput x.func (((kfind x.func co.grants).getD { rem := 0, debt := 0 }).draw (t / 1000)) co.grants })

/-- Events that are charged after their workgroup's slot was freed: to its context at the next interval end (R461). -/
def State.chargeLate (s : State) (ctx : Nat) (p : Place) (cls n : Nat) : State :=
  let e := n * s.energy p cls
  { s with lateAcc := kset 0 ctx (kget 0 ctx s.lateAcc + e) s.lateAcc }.addDyn p e

/-- Events charged to the house account (R348). -/
def State.chargeHouse (s : State) (p : Place) (cls n : Nat) : State :=
  let e := n * s.energy p cls
  { s with house := s.house + e / 1000 }.addDyn p e

/-- The selectors of a core count an event of a context (R340); never one of a confidential context (R338). -/
def countSel (ctx : Nat) (conf : Bool) (ev n : Nat) : List Nat → List W32 → List Nat × List W32
  | c :: cs, x :: xs =>
    let r := countSel ctx conf ev n cs xs
    let f := (x.extractLsb' 19 12).toNat
    if (x.extractLsb' 0 8).toNat = ev ∧ ev ≠ 0 ∧ !conf ∧ (f = ctx ∨ f = 0xFFF) then
      ((c + n) % 2 ^ 48 :: r.1, (if c + n ≥ 2 ^ 48 then x ||| 0x80000000 else x) :: r.2)
    else (c :: r.1, x :: r.2)
  | cs, xs => (cs, xs)

/-- Which counters wrap as they count: theirs is the OVF that is set in the ac `now` (R4, R340). -/
def wrapsAt (now : Nat) : List Nat → List Nat → List Nat → List Nat
  | a :: as, b :: bs, o :: os => (if b < a then now + 1 else o) :: wrapsAt now as bs os
  | _, _, os => os

def State.count (s : State) (c : Nat) (ctx : Nat) (conf : Bool) (ev n : Nat) : State :=
  s.modCore c (fun co =>
    let r := countSel ctx conf ev n co.pmcnt co.pmsel
    { co with pmcnt := r.1, pmsel := r.2, ovf := wrapsAt s.now co.pmcnt r.1 co.ovf })

def State.chargeCx (s : State) (x : Cx) (cls n : Nat) : State := s.charge x.key.core x.crew.wg (.core x.key.core) cls n
def State.countCx (s : State) (x : Cx) (ev n : Nat) : State := s.count x.key.core x.wg.ctx x.wg.conf ev n

/-- The passes of R11. -/
def passes (m : Mask) : Nat :=
  (if m.extractLsb' 0 32 = 0 then 0 else 1) + (if m.extractLsb' 32 32 = 0 then 0 else 1)

/-- The charges and counts of an issue: class 0, and the lane class per taking-part thread or class 4 for UNI = 1 (R345).
A replay is no second issue (R228). -/
def State.issueCost (s : State) (x : Cx) (cls : Nat) : State :=
  if x.replaying then s else
  let s := (s.chargeCx x 0 1).countCx x 1 1
  if x.idle then s
  else if x.h.uni then s.chargeCx x 4 1
  else if cls = 0 then s.countCx x 2 (passes x.mask)
  else (s.chargeCx x cls (bitsOf x.mask).length).countCx x 2 (passes x.mask)

/-! ## Retiring -/

/-- The body position moves past the word, a replay is over, and a breakpoint that was let pass is live again. -/
def Crew.advance (cr : Crew) (next : W64) : Crew := { cr with pos := next, replay := none, bpSkip := false }

/-- Add owed writes with the flag they will count down. -/
def Crew.owe (cr : Crew) (flag : Option (Fin 12)) (due : Option Nat) (ws : List RegWrite) (fps : BitVec 5) (sat : Bool) :
    Crew :=
  { cr with owed := cr.owed ++ [{ id := cr.nextId, flag := flag, due := due, writes := ws, fps := fps, sat := sat }],
            nextId := cr.nextId + 1 }

/-- The SF flag of an issue; a replay named it at its first issue. -/
def Cx.flagUp (x : Cx) (cr : Crew) (d : Dest) : Crew := if x.replaying then cr else cr.flagUp x.h.sf x.pc d

/-- An instruction in which no thread takes part changes nothing but the clock (R11, R77). -/
def retireIdle (x : Cx) (s : State) : State :=
  (s.issueCost x 0).modCrew x.key (·.advance x.next)

/-- A fixed-latency instruction: its writes land `d` later, 2 for UNI = 1 (R75). FPS and CST reflect it at once (R133). -/
def retireFixed (x : Cx) (s : State) (cls d : Nat) (dst : Dest) (ws : List RegWrite) (fps : BitVec 5) (sat : Bool) : State :=
  (s.issueCost x cls).modCrew x.key (fun cr =>
    ((((x.flagUp cr dst).owe x.h.sf (some (s.now + if x.h.uni then 2 else d)) ws 0 false).raiseFps fps).raiseSat sat).advance
      x.next)

/-- A variable-latency instruction: its writes land at INSTRUCTION_COMPLETION (R75, R77). -/
def retireVar (x : Cx) (s : State) (cls : Nat) (dst : Dest) (ws : List RegWrite) (fps : BitVec 5) (sat : Bool) : State :=
  (s.issueCost x cls).modCrew x.key (fun cr =>
    ((x.flagUp cr dst).owe x.h.sf none ws fps sat).advance x.next)

/-- An instruction without a register destination completes once its sources are read (R77). -/
def retireNone (x : Cx) (s : State) (cls : Nat) : State :=
  (s.issueCost x cls).modCrew x.key (fun cr => ((x.flagUp cr Dest.none).flagDown x.h.sf).advance x.next)

/-- An instruction without a register destination that completes when its actions are done: a flag it names falls at
INSTRUCTION_COMPLETION, which comes after the writes it waits for (R77, R258). -/
def retireLater (x : Cx) (s : State) : State :=
  if x.h.sf.isSome then retireVar x s 0 Dest.none [] 0 false else retireNone x s 0

/-- A transfer of control in which no thread takes part: every fixed-latency write lands all the same (R11, R76). -/
def retireIdleCtl (x : Cx) (s : State) : State :=
  (s.issueCost x 0).modCrew x.key (·.landFixed.advance x.next)

/-! ## Taking an exception, and returning from one -/

/-- The workgroup is to be aborted for its first aborting cause; its commands begin no further unit (R410). -/
def State.abortWg (s : State) (c w : Nat) (i : AbortInfo) : State :=
  s.modWg c w (fun x => match x.abort with
    | some _ => x
    | none => { x with abort := some i, stopped := true })

/-- Causes 0x0001-0x0026 of R408 as an exception raises them. -/
structure Exc where
  cause : Nat
  eng   : Bool
  epc   : W64
  earg  : W64
  ethr  : Mask
  toH   : Bool      -- the cause goes to the handler when HANDLER ≠ 0 (R408)
  deriving DecidableEq, Repr

/-- The held bits of a crew's threads. -/
def Crew.heldMask (cr : Crew) : Mask := maskOf 64 ((List.range 64).filter (fun t => (cr.thr t).held))

/-- ECAUSE (R406). -/
def ecauseOf (cause : Nat) (eng : Bool) : W64 :=
  BitVec.ofNat 64 cause ||| (if eng then 0x10000 else 0)

/-- R412: the trap frame and the hidden walk frame are written and the handler entered, in the ac `now`: an issue cycle and
four ac more. -/
def Crew.enterHandler (cr : Crew) (k : Kernel) (e : Exc) (now : Nat) : Crew :=
  let cr := cr.landFixed
  { cr with epc := e.epc, ecause := ecauseOf e.cause e.eng, earg := e.earg, ethr := e.ethr,
            frame := { hb := cr.hb, pos := cr.pos, cr := cr.cr, ss := cr.ss, sid := cr.sid, sset := cr.sset,
                       held := cr.heldMask },
            hmode := true, pos := k.entry + k.handler.zeroExtend 64, block := .none, bpSkip := false, fbuf := [],
            ready := now + 5 }

/-- A precise fault or trap at a crew's instruction boundary: the handler, or the end of the workgroup; in handler mode a
double fault (R408, R410, R412, R414). -/
def raiseAt (s : State) (key : CrewKey) (e : Exc) : State :=
  match s.crew? key with
  | none => s
  | some cr =>
    match s.wg? key.core cr.wg with
    | none => s
    | some wg =>
      let info : AbortInfo := { cause := e.cause, orig := 0, epc := e.epc, earg := e.earg, ethr := e.ethr,
                                slot := key.slot, eng := e.eng, at_ := s.refclk }
      if cr.hmode then s.abortWg key.core cr.wg { info with cause := 0x23, orig := e.cause }
      else if e.toH && wg.kernel.handler != 0 then s.setCrew key (cr.enterHandler wg.kernel e s.now)
      else s.abortWg key.core cr.wg info

/-- The flag that a replayed instruction named at its first issue is not pending after its precise fault. -/
def Cx.unflag (x : Cx) (cr : Crew) : Crew :=
  if x.replaying then { cr.flagDown x.h.sf with replay := none } else cr

/-- An exception of the word itself, taken before the instruction issues (R409): nothing is charged. -/
def Cx.raiseWord (x : Cx) (s : State) (e : Exc) : State := raiseAt (s.modCrew x.key x.unflag) x.key e

/-- The instruction takes an exception as it executes: its issue and its lanes are charged (R345, R347), and it changes nothing
else. -/
def Cx.raiseAs (x : Cx) (s : State) (cls : Nat) (e : Exc) : State := x.raiseWord (s.issueCost x cls) e
def Cx.raise (x : Cx) (s : State) (e : Exc) : State := x.raiseAs s 0 e

/-- The exception of an instruction, EPC at its own address (R408). -/
def Cx.exc (x : Cx) (cause : Nat) (earg : W64) (toH : Bool) : Exc :=
  { cause := cause, eng := false, epc := x.pc, earg := earg, ethr := x.mask, toH := toH }

/-- Illegal instruction: EARG the word's address, ETHR every non-exited thread (R408, R412). -/
def Cx.illegalExc (x : Cx) : Exc := { x.exc 0x01 x.pc true with ethr := x.crew.liveMask }
/-- Illegal operand: EARG the instruction's address (R408). -/
def Cx.operandExc (x : Cx) : Exc := x.exc 0x02 x.pc true
/-- The two as faults of the word. -/
def Cx.illegal (x : Cx) (s : State) : State := x.raiseWord s x.illegalExc
def Cx.badOperand (x : Cx) (s : State) : State := x.raiseWord s x.operandExc
/-- An illegal operand that is found as the instruction executes. -/
def Cx.badValue (x : Cx) (s : State) : State := x.raise s x.operandExc
/-- Floating-point exception: the FPS bits are set first (R100). -/
def Cx.fpTrap (x : Cx) (s : State) (cls : Nat) (fps : BitVec 5) : State :=
  x.raiseAs (s.modCrew x.key (·.raiseFps fps)) cls (x.exc 0x03 (fps.zeroExtend 64) true)

/-- TRAPS (R198). -/
def Kernel.fpEnables (k : Kernel) : BitVec 5 := k.traps.extractLsb' 2 5
def Kernel.univ (k : Kernel) : Bool := k.traps.getLsbD 0
def Kernel.absent (k : Kernel) : Bool := k.traps.getLsbD 1
def Kernel.poison (k : Kernel) : Bool := k.traps.getLsbD 7
def Kernel.rule (k : Kernel) : Bool := k.traps.getLsbD 8
def Kernel.align (k : Kernel) : Bool := k.traps.getLsbD 9
def Kernel.coop (k : Kernel) : Bool := k.flags.getLsbD 0
def Kernel.isNode (k : Kernel) : Bool := k.flags.getLsbD 1
def Kernel.ftz (k : Kernel) : Bool := k.flags.getLsbD 2
def Kernel.confOk (k : Kernel) : Bool := k.flags.getLsbD 3

/-- R417 but for the owed vote: the walk frame is restored and handler mode left. -/
def Crew.leaveHandler (cr : Crew) : Crew :=
  let f := cr.frame
  let cr := cr.landFixed
  { cr with hb := f.hb, pos := f.pos, cr := f.cr, ss := f.ss, sid := f.sid, sset := f.sset, hmode := false }.mapThr
    (fun t th => th.setHeld (f.held.getLsbD t))

end Sys2Proof.Machine
end

