-- ==== Sys2Proof/Machine/Operands.lean ====
section
/-! DEFINITION. Operand forms: register-number checks (R82, R240), reading sources (R80, R81), lanes of the packed types
(R92), and the writes of a destination (R80, R83). -/

namespace Sys2Proof

/-- Registers that a group of a memory operand takes (R240). -/
def MSize.regs : MSize → Nat
  | .b1 | .b2 | .b4 => 1
  | .b8 => 2
  | .b16 => 4
def MSize.bytes : MSize → Nat
  | .b1 => 1 | .b2 => 2 | .b4 => 4 | .b8 => 8 | .b16 => 16
def ASize.bytes : ASize → Nat
  | .b4 => 4 | .b8 => 8

/-- Bits of one lane. -/
def IntTy.width : IntTy → Nat
  | .s32 | .n32 => 32
  | .s64 | .n64 => 64
  | .s16x2 | .n16x2 => 16
  | .s8x4 | .n8x4 => 8
def IntTy.lanes : IntTy → Nat
  | .s32 | .n32 | .s64 | .n64 => 1
  | .s16x2 | .n16x2 => 2
  | .s8x4 | .n8x4 => 4
def IntTy.signed : IntTy → Bool
  | .s32 | .s64 | .s16x2 | .s8x4 => true
  | _ => false
def IntTy.wide : IntTy → Bool
  | .s64 | .n64 => true
  | _ => false

def IntTy.regs (ty : IntTy) : Nat := if ty.wide then 2 else 1

/-- Which ends of a copy are in global memory (R293). -/
def CopyDir.srcGlobal : CopyDir → Bool
  | .gg | .gs => true
  | _ => false
def CopyDir.dstGlobal : CopyDir → Bool
  | .gg | .sg => true
  | _ => false

end Sys2Proof

namespace Sys2Proof.Machine

open Sys2Proof

/-! ## Register-number checks (R82) -/

/-- `n` registers from `r`, whose number must be a multiple of `align`, lie below VREGS or SREGS. -/
def Kernel.regOk (k : Kernel) (n align : Nat) : Reg → Bool
  | .v r => r.val % align == 0 && decide (r.val + n ≤ k.vregs)
  | .s r => r.val % align == 0 && decide (r.val + n ≤ k.sregs)
  | .z => true

def Kernel.srcOk (k : Kernel) (n : Nat) : Src → Bool
  | .r x => k.regOk n n x
  | .imm _ => true

def Kernel.r1 (k : Kernel) (d : Reg) : Bool := k.regOk 1 1 d
def Kernel.s1 (k : Kernel) (a : Src) : Bool := k.srcOk 1 a
def Kernel.rw (k : Kernel) (wide : Bool) (d : Reg) : Bool := if wide then k.regOk 2 2 d else k.regOk 1 1 d
def Kernel.sw (k : Kernel) (wide : Bool) (a : Src) : Bool := if wide then k.srcOk 2 a else k.srcOk 1 a

def Kernel.spairOk (k : Kernel) : SPair → Bool
  | .pr i => decide (2 * i.val + 2 ≤ k.sregs)
  | .z => true

/-- A group of a memory operand (R240): 254 is no multiple of 4. -/
def Kernel.groupOk (k : Kernel) (n : Nat) (d : Reg) : Bool := k.regOk n n d && !(d == .z && n == 4)

/-- A global endpoint or source of an engine (R293): an even S number from 192 to 252, naming a pair. -/
def pairReg (k : Kernel) : Reg → Option SPair
  | .s r => if r.val % 2 = 0 ∧ r.val + 2 ≤ k.sregs then some (.pr ⟨r.val / 2, by omega⟩) else none
  | _ => none
def pairSrc (k : Kernel) : Src → Option SPair
  | .r r => pairReg k r
  | .imm _ => none

def Kernel.memOk (k : Kernel) (m : MemRef) : Bool := k.spairOk m.base && k.r1 m.off
def Kernel.scrOk (k : Kernel) (m : ScrRef) : Bool := k.r1 m.base && k.r1 m.off

/-! ## Reading -/

/-- A register as thread `t` reads it; S62 reads 0. -/
def Cx.rdReg (x : Cx) (t : Nat) : Reg → W32
  | .v r => x.crew.rdV x.fresh t r.val
  | .s r => x.crew.rdS x.fresh r.val
  | .z => 0

/-- Register `k` of the group that `r` begins. -/
def Cx.rdRegAt (x : Cx) (t : Nat) (r : Reg) (k : Nat) : W32 :=
  match r with
  | .v r => x.crew.rdV x.fresh t (r.val + k)
  | .s r => x.crew.rdS x.fresh (r.val + k)
  | .z => 0

def Cx.rd (x : Cx) (t : Nat) : Src → W32
  | .r r => x.rdReg t r
  | .imm v => v

/-- A pair, lower register first (R47, R92). -/
def Cx.rdReg64 (x : Cx) (t : Nat) (r : Reg) : W64 := x.rdRegAt t r 1 ++ x.rdRegAt t r 0

/-- A 64-bit source; an immediate is sign-extended for an S type and zero-extended otherwise (R81). -/
def Cx.rd64 (x : Cx) (t : Nat) (signed : Bool) : Src → W64
  | .r r => x.rdReg64 t r
  | .imm v => if signed then v.signExtend 64 else v.zeroExtend 64

/-- An S pair. -/
def Cx.rdPair (x : Cx) : SPair → W64
  | .pr k => x.crew.rdS x.fresh (2 * k.val + 1) ++ x.crew.rdS x.fresh (2 * k.val)
  | .z => 0

/-- A predicate as thread `t` reads it (R123). -/
def Cx.pred (x : Cx) (t : Nat) : Pred → Bool
  | .p i => x.crew.rdP x.fresh t i.val
  | .q i => x.crew.rdQ x.fresh i.val

/-! ## Writing -/

def wrReg (t : Nat) (d : Reg) (x : W32) : List RegWrite :=
  match d with
  | .v r => [.v t r.val x]
  | .s r => [.s r.val x]
  | .z => []

/-- Register `k` of the group that `d` begins. -/
def wrRegAt (t : Nat) (d : Reg) (k : Nat) (x : W32) : List RegWrite :=
  match d with
  | .v r => [.v t (r.val + k) x]
  | .s r => [.s (r.val + k) x]
  | .z => []

def wrReg64 (t : Nat) (d : Reg) (x : W64) : List RegWrite :=
  wrRegAt t d 0 (x.extractLsb' 0 32) ++ wrRegAt t d 1 (x.extractLsb' 32 32)

def wrPred (t : Nat) (p : Pred) (b : Bool) : List RegWrite :=
  match p with
  | .p i => [.p t i.val b]
  | .q i => [.q i.val b]

/-- The words of a group, first register first. -/
def wrWords (t : Nat) (d : Reg) : Nat → List W32 → List RegWrite
  | _, [] => []
  | k, x :: l => wrRegAt t d k x ++ wrWords t d (k + 1) l

/-- A pair of S registers. -/
def wrPair (p : SPair) (x : W64) : List RegWrite :=
  match p with
  | .pr k => [.s (2 * k.val) (x.extractLsb' 0 32), .s (2 * k.val + 1) (x.extractLsb' 32 32)]
  | .z => []

/-! ## Lanes of the integer types (R92, R124) -/

/-- The low `w` bits of `x` read as S or N. -/
def asInt (signed : Bool) (w x : Nat) : Int :=
  let y := x % 2 ^ w
  if signed && decide (2 ^ (w - 1) ≤ y) then (y : Int) - 2 ^ w else y

/-- Lane `k` of a register's value, as the type reads it. -/
def lane (signed : Bool) (w k x : Nat) : Int := asInt signed w (x / 2 ^ (w * k))

/-- The value that the lanes make, lane 0 lowest. -/
def joinLanes (w : Nat) : List Nat → Nat
  | [] => 0
  | x :: t => x % 2 ^ w + 2 ^ w * joinLanes w t

/-- A source as a number of its register width. -/
def Cx.rdTy (x : Cx) (t : Nat) (ty : IntTy) (a : Src) : Nat :=
  if ty.wide then (x.rd64 t ty.signed a).toNat else (x.rd t a).toNat

/-- The writes of a result of the type's width. -/
def wrTy (t : Nat) (ty : IntTy) (d : Reg) (v : Nat) : List RegWrite :=
  if ty.wide then wrReg64 t d (BitVec.ofNat 64 v) else wrReg t d (BitVec.ofNat 32 v)

/-- Element `k` of width `w` of a register (R105). -/
def elem (w k : Nat) (x : W32) : Nat := x.toNat / 2 ^ (w * k) % 2 ^ w

end Sys2Proof.Machine
end

