-- ==== Sys2Proof/Machine/Flags.lean ====
section
/-! DEFINITION. Flag computations: the narrowing functions of R93 with their SAT, the exception bits of R99, carry and
borrow (R126), and the outcome of an instruction that computes in registers (R100). -/

namespace Sys2Proof.Machine

open Sys2Proof

/-- Trunc_w (R93). -/
def truncW (w : Nat) (x : Int) : Nat := (x % (2 ^ w : Int)).toNat
/-- SatS_w, with whether it clamped (R93). -/
def satS (w : Nat) (x : Int) : Int × Bool :=
  if x < -(2 ^ (w - 1)) then (-(2 ^ (w - 1)), true)
  else if x > 2 ^ (w - 1) - 1 then (2 ^ (w - 1) - 1, true)
  else (x, false)
/-- SatN_w, with whether it clamped (R93). -/
def satN (w : Nat) (x : Int) : Int × Bool :=
  if x < 0 then (0, true) else if x > 2 ^ w - 1 then (2 ^ w - 1, true) else (x, false)
/-- SatS_w or SatN_w by the type (R126). -/
def satTy (signed : Bool) (w : Nat) (x : Int) : Int × Bool := if signed then satS w x else satN w x

/-! ## Exceptions of floating point (R99) -/

abbrev Fps := BitVec 5
def fNV : Fps := 1
def fDZ : Fps := 2
def fOF : Fps := 4
def fUF : Fps := 8
def fNX : Fps := 16
def fpsIf (b : Bool) (f : Fps) : Fps := if b then f else 0

/-! ## What an instruction that computes in registers does -/

/-- What a body computes: its writes in order, the exceptions raised, whether something clamped; or a fault. -/
inductive Eff
  | done (ws : List RegWrite) (fps : Fps) (sat : Bool)
  | bad                                      -- illegal operand
  | illegal                                  -- illegal instruction
  deriving DecidableEq, Repr

/-- Write, exceptions and clamp of one lane or thread. -/
structure Res where
  ws  : List RegWrite
  fps : Fps
  sat : Bool
  deriving DecidableEq, Repr

def Res.ofWrites (ws : List RegWrite) : Res := { ws := ws, fps := 0, sat := false }

/-- The threads' results together, in thread order (R83, R99). -/
def joinRes : List Res → Res
  | [] => { ws := [], fps := 0, sat := false }
  | r :: t => let u := joinRes t; { ws := r.ws ++ u.ws, fps := r.fps ||| u.fps, sat := r.sat || u.sat }

/-- The per-thread loop of R124. -/
def Cx.loop (x : Cx) (f : Nat → Res) : Eff :=
  let r := joinRes (x.lanes.map f)
  .done r.ws r.fps r.sat

/-- A loop of writes alone. -/
def Cx.loopW (x : Cx) (f : Nat → List RegWrite) : Eff := x.loop (fun t => Res.ofWrites (f t))

/-- An instruction of groups 0x0-0x6: the checks of R82 first, whether or not a thread takes part (R89); then its body,
the exception trap of R100, and the writes with their latency (`delay` none is variable, R75). -/
def computeOn (x : Cx) (s : State) (ok : Bool) (cls : Nat) (delay : Option Nat) (dst : Dest) (body : Cx → Eff) : State :=
  if !ok then x.badOperand s
  else if x.idle then retireIdle x s
  else match body x with
    | .bad => x.badValue s
    | .illegal => x.raise s x.illegalExc
    | .done ws fps sat =>
      if fps &&& x.kernel.fpEnables != 0 then x.fpTrap s cls fps
      else match delay with
        | some d => retireFixed x s cls d dst ws fps sat
        | none => retireVar x s cls dst ws fps sat

/-- The same, from the state. -/
def compute (h : Hdr) (s : State) (ok : Kernel → Bool) (cls : Nat) (delay : Option Nat) (dst : Dest) (body : Cx → Eff) :
    Out :=
  withCx h s (fun x s => .next (computeOn x s (ok x.kernel) cls delay dst body))

end Sys2Proof.Machine
end

