-- ==== Sys2Proof/Machine/Float.lean ====
section
/-! DEFINITION. Number formats, rounding and exact arithmetic (R94-R108): every operand becomes an exact dyadic, every
result is rounded once. -/

namespace Sys2Proof.Machine

open Sys2Proof

/-! ## Formats (R94, R102) -/

/-- How a format uses its top exponent: IEEE, or finite values there (E4M3 has one NaN code, E2M1 none). -/
inductive FKind | ieee | e4m3 | e2m1
  deriving DecidableEq, Repr

structure FSpec where
  eb   : Nat     -- exponent bits
  mb   : Nat     -- fraction bits
  bias : Nat
  kind : FKind
  deriving DecidableEq, Repr

def fF32 : FSpec := { eb := 8, mb := 23, bias := 127, kind := .ieee }
def fF16 : FSpec := { eb := 5, mb := 10, bias := 15, kind := .ieee }
def fBF16 : FSpec := { eb := 8, mb := 7, bias := 127, kind := .ieee }
def fE4M3 : FSpec := { eb := 4, mb := 3, bias := 7, kind := .e4m3 }
def fE5M2 : FSpec := { eb := 5, mb := 2, bias := 15, kind := .ieee }
def fE2M1 : FSpec := { eb := 2, mb := 1, bias := 1, kind := .e2m1 }

def FSpec.width (f : FSpec) : Nat := 1 + f.eb + f.mb
/-- The canonical NaN (R94, R102; E2M1 has none and gives 0, R106). -/
def FSpec.nan (f : FSpec) : Nat :=
  match f.kind with
  | .ieee => (2 ^ f.eb - 1) * 2 ^ f.mb + 2 ^ (f.mb - 1)
  | .e4m3 => 0x7F
  | .e2m1 => 0
def FSpec.signBit (f : FSpec) (neg : Bool) : Nat := if neg then 2 ^ (f.eb + f.mb) else 0
def FSpec.inf (f : FSpec) (neg : Bool) : Nat := (2 ^ f.eb - 1) * 2 ^ f.mb + f.signBit neg
/-- The code of the largest finite value. -/
def FSpec.maxCode (f : FSpec) : Nat :=
  match f.kind with
  | .ieee => (2 ^ f.eb - 1) * 2 ^ f.mb - 1
  | .e4m3 => 0x7E
  | .e2m1 => 7
/-- The exponent of the least place: that of a subnormal's fraction. -/
def FSpec.qmin (f : FSpec) : Int := 1 - (f.bias : Int) - f.mb

/-- A value: a NaN with whether it signals, an infinity, or (-1)^neg x m x 2^e. -/
inductive FVal
  | nan (sig : Bool)
  | inf (neg : Bool)
  | fin (neg : Bool) (m : Nat) (e : Int)
  deriving DecidableEq, Repr

def fracOf (f : FSpec) (x : Nat) : Nat := x % 2 ^ f.mb
def expOf (f : FSpec) (x : Nat) : Nat := x / 2 ^ f.mb % 2 ^ f.eb
def signOf (f : FSpec) (x : Nat) : Bool := x.testBit (f.eb + f.mb)

/-- The value of a code (R94, R102). -/
def fval (f : FSpec) (x : Nat) : FVal :=
  let s := signOf f x
  let e := expOf f x
  let m := fracOf f x
  if f.kind = .ieee ∧ e = 2 ^ f.eb - 1 then (if m = 0 then .inf s else .nan (decide (m < 2 ^ (f.mb - 1))))
  else if f.kind = .e4m3 ∧ e = 15 ∧ m = 7 then .nan false
  else if e = 0 then .fin s m f.qmin
  else .fin s (2 ^ f.mb + m) ((e : Int) - f.bias - f.mb)

def isSub (f : FSpec) (x : Nat) : Bool := expOf f x == 0 && fracOf f x != 0
def FVal.isNan : FVal → Bool
  | .nan _ => true
  | _ => false
def FVal.isSig : FVal → Bool
  | .nan b => b
  | _ => false
def FVal.isInf : FVal → Bool
  | .inf _ => true
  | _ => false
def FVal.isZero : FVal → Bool
  | .fin _ 0 _ => true
  | _ => false
def FVal.sign : FVal → Bool
  | .nan _ => false
  | .inf s => s
  | .fin s _ _ => s

/-! ## Rounding (R96, R106) -/

/-- Whether rounding goes up in magnitude, by the remainder `r` of `d` and the parity of the kept part. -/
def roundUp (md : Rm) (neg odd : Bool) (r d : Nat) : Bool :=
  match md with
  | .rn => decide (2 * r > d) || (decide (2 * r = d) && odd)
  | .rz => false
  | .rp => decide (r > 0) && !neg
  | .rm => decide (r > 0) && neg

/-- m x 2^e in units of 2^q: the rounded count and whether anything was lost. -/
def roundAt (md : Rm) (neg : Bool) (m : Nat) (e q : Int) : Nat × Bool :=
  if q ≤ e then (m * 2 ^ (e - q).toNat, false)
  else
    let d := 2 ^ (q - e).toNat
    let n := m / d
    let r := m % d
    (if roundUp md neg (n % 2 == 1) r d then n + 1 else n, r != 0)

/-- Whether n x 2^q exceeds the largest finite value. -/
def FSpec.exceeds (f : FSpec) (n : Nat) (q : Int) : Bool :=
  match fval f f.maxCode with
  | .fin _ m e => if q ≤ e then decide (n > m * 2 ^ (e - q).toNat) else decide (n * 2 ^ (q - e).toNat > m)
  | _ => false

/-- What a finite overflow gives (R96; R106 for the formats without infinity and for saturating narrowing). -/
def overflowCode (f : FSpec) (md : Rm) (sat neg : Bool) : Nat :=
  let toMax := sat || f.kind != .ieee || (match md with
    | .rn => false
    | .rz => true
    | .rp => neg
    | .rm => !neg)
  if toMax then f.maxCode + f.signBit neg else f.inf neg

/-- A rounded result: its code, its exceptions, and whether it overflowed. -/
structure FRes where
  code : Nat
  fps  : Fps
  ovf : Bool
  deriving DecidableEq, Repr

def FRes.exact (c : Nat) : FRes := { code := c, fps := 0, ovf := false }
def FRes.withFlag (c : Nat) (b : Fps) : FRes := { code := c, fps := b, ovf := false }

/-- Round(f, md, (-1)^neg x m x 2^e) for m > 0: overflow and tininess are judged after rounding as if the exponent range
were unbounded (R96). -/
def roundFin (f : FSpec) (md : Rm) (sat neg : Bool) (m : Nat) (e : Int) : FRes :=
  let top : Int := e + Nat.log2 m
  let q0 : Int := top - f.mb
  let r0 := roundAt md neg m e q0
  if f.exceeds r0.1 q0 then { code := overflowCode f md sat neg, fps := fOF ||| fNX, ovf := true }
  else
    let tiny : Bool := decide (q0 < f.qmin) && !(decide (q0 = f.qmin - 1) && decide (r0.1 ≥ 2 ^ (f.mb + 1)))
    let q := max q0 f.qmin
    let r := roundAt md neg m e q
    { code := (q - f.qmin).toNat * 2 ^ f.mb + r.1 + f.signBit neg,
      fps := fpsIf r.2 fNX ||| fpsIf (tiny && r.2) fUF, ovf := false }

/-- Round, a zero keeping its sign. -/
def roundF (f : FSpec) (md : Rm) (sat neg : Bool) (m : Nat) (e : Int) : FRes :=
  if m = 0 then FRes.exact (f.signBit neg) else roundFin f md sat neg m e

/-- A quotient or root with something lost below its last place. -/
def withSticky (m : Nat) (lost : Bool) : Nat := 4 * m + lost.toNat

def FSpec.nanRes (f : FSpec) (nv : Bool) : FRes := FRes.withFlag f.nan (fpsIf nv fNV)

/-! ## FTZ (R98) -/

/-- A subnormal input becomes a zero of its sign. -/
def flushIn (ftz : Bool) (f : FSpec) (x : Nat) : Nat := if ftz && isSub f x then f.signBit (signOf f x) else x
/-- A subnormal result becomes a zero of its sign, with UF and NX. -/
def flushOut (ftz : Bool) (f : FSpec) (r : FRes) : FRes :=
  if ftz && isSub f r.code then { r with code := f.signBit (signOf f r.code), fps := r.fps ||| fUF ||| fNX } else r

/-! ## Exact sums and products -/

/-- An exact term of a sum. -/
structure Term where
  neg : Bool
  m   : Nat
  e   : Int
  deriving DecidableEq, Repr

def Term.toInt (t : Term) (q : Int) : Int :=
  let v : Int := t.m * 2 ^ (t.e - q).toNat
  if t.neg then -v else v

/-- The exact sum in units of 2^q, q the least exponent of the terms. -/
def sumTerms (l : List Term) : Int × Int :=
  let q := l.foldl (fun a t => min a t.e) (match l with
    | [] => 0
    | t :: _ => t.e)
  ((l.map (fun t => t.toInt q)).foldl (· + ·) 0, q)

/-- Round an exact integer multiple of 2^q; `zeroNeg` is the sign of an exact zero. -/
def roundInt (f : FSpec) (md : Rm) (v : Int) (q : Int) (zeroNeg : Bool) : FRes :=
  if v = 0 then FRes.exact (f.signBit zeroNeg) else roundF f md false (decide (v < 0)) v.natAbs q

/-- a + b (R95-R97). -/
def fAdd (f : FSpec) (md : Rm) (a b : FVal) : FRes :=
  match a, b with
  | .fin s m e, .fin s' m' e' =>
    let v := sumTerms [⟨s, m, e⟩, ⟨s', m', e'⟩]
    roundInt f md v.1 v.2 (if s == s' then s else md == .rm)
  | .inf s, .inf s' => if s == s' then FRes.exact (f.inf s) else f.nanRes true
  | .inf s, .fin _ _ _ => FRes.exact (f.inf s)
  | .fin _ _ _, .inf s => FRes.exact (f.inf s)
  | x, y => f.nanRes (x.isSig || y.isSig)

def FVal.neg : FVal → FVal
  | .nan b => .nan b
  | .inf s => .inf (!s)
  | .fin s m e => .fin (!s) m e

def fSub (f : FSpec) (md : Rm) (a b : FVal) : FRes := fAdd f md a b.neg

def fMul (f : FSpec) (md : Rm) (a b : FVal) : FRes :=
  match a, b with
  | .fin s m e, .fin s' m' e' => roundF f md false (s != s') (m * m') (e + e')
  | .inf s, .inf s' => FRes.exact (f.inf (s != s'))
  | .inf s, .fin s' m _ => if m = 0 then f.nanRes true else FRes.exact (f.inf (s != s'))
  | .fin s m _, .inf s' => if m = 0 then f.nanRes true else FRes.exact (f.inf (s != s'))
  | x, y => f.nanRes (x.isSig || y.isSig)

/-- The invalid product 0 x ∞. -/
def badProd (a b : FVal) : Bool := (a.isInf && b.isZero) || (a.isZero && b.isInf)

/-- a x b + c with one rounding; 0 x ∞ sets NV whatever c holds (R134). -/
def fFma (f : FSpec) (md : Rm) (a b c : FVal) : FRes :=
  if badProd a b then f.nanRes true
  else if a.isNan || b.isNan || c.isNan then f.nanRes (a.isSig || b.isSig || c.isSig)
  else match a, b with
    | .fin s m e, .fin s' m' e' => fAdd f md (.fin (s != s') (m * m') (e + e')) c
    | _, _ => fAdd f md (.inf (a.sign != b.sign)) c

def bitLen (n : Nat) : Nat := if n = 0 then 0 else Nat.log2 n + 1

def fDiv (f : FSpec) (md : Rm) (a b : FVal) : FRes :=
  match a, b with
  | .fin s m e, .fin s' m' e' =>
    if m' = 0 then (if m = 0 then f.nanRes true else FRes.withFlag (f.inf (s != s')) fDZ)
    else
      let k := 64 + bitLen m'
      roundF f md false (s != s') (if m = 0 then 0 else withSticky (m * 2 ^ k / m') (m * 2 ^ k % m' != 0)) (e - e' - k - 2)
  | .inf _, .inf _ => f.nanRes true
  | .inf s, .fin s' _ _ => FRes.exact (f.inf (s != s'))
  | .fin s _ _, .inf s' => FRes.exact (f.signBit (s != s'))
  | x, y => f.nanRes (x.isSig || y.isSig)

/-- The integer square root, one bit at a time from bit `k` down. -/
def isqrtFrom (n : Nat) : Nat → Nat → Nat
  | 0, r => r
  | k + 1, r => isqrtFrom n k (if (r + 2 ^ k) * (r + 2 ^ k) ≤ n then r + 2 ^ k else r)
def isqrt (n : Nat) : Nat := isqrtFrom n (bitLen n / 2 + 1) 0

/-- The root of m x 2^e with what is lost of it, for m > 0. -/
def sqrtParts (m : Nat) (e : Int) : Nat × Int :=
  let e2 : Int := (e - 128) - (e - 128) % 2
  let m2 := m * 2 ^ (e - e2).toNat
  let r := isqrt m2
  (withSticky r (r * r != m2), e2 / 2 - 2)

def fSqrt (f : FSpec) (md : Rm) (a : FVal) : FRes :=
  match a with
  | .nan b => f.nanRes b
  | .inf s => if s then f.nanRes true else FRes.exact (f.inf false)
  | .fin s m e =>
    if m = 0 then FRes.exact (f.signBit s)
    else if s then f.nanRes true
    else let p := sqrtParts m e; roundF f md false false p.1 p.2

/-- a x 2^s with one rounding (R135); beyond 4,096 places every s rounds alike. -/
def fScale (f : FSpec) (md : Rm) (a : FVal) (s : Int) : FRes :=
  match a with
  | .nan b => f.nanRes b
  | .inf n => FRes.exact (f.inf n)
  | .fin n m e => roundF f md false n m (e + max (-4096) (min 4096 s))

/-- a rounded to an integral value; NX where it differs (R134). -/
def fRnd (f : FSpec) (md : Rm) (a : FVal) (code : Nat) : FRes :=
  match a with
  | .nan b => f.nanRes b
  | .inf _ => FRes.exact code
  | .fin s m e =>
    let r := roundAt md s m e 0
    if 0 ≤ e then FRes.exact code
    else { code := (roundF f .rz false s r.1 0).code, fps := fpsIf r.2 fNX, ovf := false }

/-- a < b as reals, infinities included; no NaN. -/
def fLt (a b : FVal) : Bool :=
  match a, b with
  | .fin s m e, .fin s' m' e' => decide ((sumTerms [⟨s, m, e⟩, ⟨!s', m', e'⟩]).1 < 0)
  | .inf s, .inf s' => s && !s'
  | .inf s, .fin _ _ _ => s
  | .fin _ _ _, .inf s => !s
  | _, _ => false

/-- The order of R101: −0 below +0. -/
def fBelow (a b : FVal) : Bool := fLt a b || (!fLt b a && a.sign && !b.sign)

/-- Min or Max of codes with the NaN rules of R101; NV for a signalling operand. -/
def fMinMax (f : FSpec) (isMax : Bool) (a b : Nat) : FRes :=
  let va := fval f a
  let vb := fval f b
  let nv := fpsIf (va.isSig || vb.isSig) fNV
  if va.isNan && vb.isNan then FRes.withFlag f.nan nv
  else if va.isNan then FRes.withFlag b nv
  else if vb.isNan then FRes.withFlag a nv
  else FRes.withFlag (if fBelow va vb != isMax then a else b) nv

/-! ## Conversions -/

/-- A float to an integral value in mode md, with whether anything was lost. -/
def toIntegral (md : Rm) (s : Bool) (m : Nat) (e : Int) : Int × Bool :=
  let r := roundAt md s m e 0
  (if s then -(r.1 : Int) else r.1, r.2)

/-- CVTFI (R137): NaN gives 0 and NV; out of range the nearer bound and NV. -/
def floatToInt (md : Rm) (lo hi : Int) (a : FVal) : Int × Fps :=
  match a with
  | .nan _ => (0, fNV)
  | .inf s => (if s then lo else hi, fNV)
  | .fin s m e =>
    let r := toIntegral md s m e
    if r.1 < lo then (lo, fNV) else if r.1 > hi then (hi, fNV) else (r.1, fpsIf r.2 fNX)

/-- Round(f, md, v) of an integer. -/
def intToFloat (f : FSpec) (md : Rm) (v : Int) : FRes := roundF f md false (decide (v < 0)) v.natAbs 0

/-- Round of a value into a format: R96 for the IEEE formats, R106 for the narrow ones. -/
def narrow (f : FSpec) (md : Rm) (sat : Bool) (a : FVal) : FRes :=
  match a with
  | .nan b => FRes.withFlag f.nan (fpsIf (b || f.kind == .e2m1) fNV)
  | .inf s =>
    if f.kind = .ieee then FRes.exact (f.inf s)
    else { code := f.maxCode + f.signBit s, fps := fNV, ovf := true }
  | .fin s m e => roundF f md sat s m e

/-- Into S8 or S4 (R106): NaN gives 0 and NV; a clamp sets NV and NX; a fraction sets NX. -/
def narrowInt (w : Nat) (md : Rm) (a : FVal) : FRes :=
  match a with
  | .nan _ => FRes.withFlag 0 fNV
  | .inf s => { code := truncW w (if s then -(2 ^ (w - 1)) else 2 ^ (w - 1) - 1), fps := fNV ||| fNX, ovf := true }
  | .fin s m e =>
    let r := toIntegral md s m e
    let c := satS w r.1
    { code := truncW w c.1, fps := fpsIf (r.2 || c.2) fNX ||| fpsIf c.2 fNV, ovf := c.2 }

/-- An integer code as a value. -/
def intVal (w x : Nat) : FVal :=
  let v := asInt true w x
  .fin (decide (v < 0)) v.natAbs 0

/-- 2^(E - 127) applied to a value (R103). -/
def FVal.scale (a : FVal) (k : Int) : FVal :=
  match a with
  | .fin s m e => .fin s m (e + k)
  | x => x

/-! ## Dot products (R108) -/

/-- The product of two values as a value: exact; NaN where R108 says so. A zero product has the sign of its factors, an integer
factor's too (assumption 68). -/
def prodVal (a b : FVal) : FVal :=
  if a.isNan || b.isNan then .nan (a.isSig || b.isSig)
  else match a, b with
    | .fin s m e, .fin s' m' e' => .fin (s != s') (m * m') (e + e')
    | _, _ => .inf (a.sign != b.sign)

/-- acc + Σ a_k x b_k with one rounding and the special cases of R108 in their order. -/
def dotRes (acc : FVal) (ab : List (FVal × FVal)) : FRes :=
  let ins := acc :: ab.flatMap (fun p => [p.1, p.2])
  if ins.any FVal.isNan then fF32.nanRes (ins.any FVal.isSig)
  else
    let terms := acc :: ab.map (fun p => prodVal p.1 p.2)
    let infs := terms.filter FVal.isInf
    if ab.any (fun p => badProd p.1 p.2) || (infs.any FVal.sign && infs.any (fun v => !v.sign)) then fF32.nanRes true
    else match infs with
      | v :: _ => FRes.exact (fF32.inf v.sign)
      | [] =>
        let ts := terms.map (fun v => match v with
          | .fin s m e => (⟨s, m, e⟩ : Term)
          | _ => ⟨false, 0, 0⟩)
        let v := sumTerms ts
        roundInt fF32 .rn v.1 v.2 (terms.all FVal.sign)

end Sys2Proof.Machine
end

