-- ==== Sys2Proof/Machine/Integer.lean ====
section
/-! DEFINITION. Group 0x0, integer arithmetic (R125-R127). -/

namespace Sys2Proof.Machine

open Sys2Proof

/-- A lane result with whether it clamped. -/
abbrev LaneOut := Nat × Bool

def plain (x : Nat) : LaneOut := (x, false)

/-- The lanes of one thread, and its write (R124). -/
def lanesOut (t : Nat) (ty : IntTy) (d : Reg) (f : Nat → LaneOut) : Res :=
  let rs := (List.range ty.lanes).map f
  { ws := wrTy t ty d (joinLanes ty.width (rs.map Prod.fst)), fps := 0, sat := rs.any Prod.snd }

/-- Lane operations on A. -/
def lanes1 (ty : IntTy) (d : Reg) (a : Src) (f : Int → LaneOut) (x : Cx) : Eff :=
  x.loop (fun t => lanesOut t ty d (fun k => f (lane ty.signed ty.width k (x.rdTy t ty a))))

/-- Lane operations on A and B. -/
def lanes2 (ty : IntTy) (d : Reg) (a b : Src) (f : Int → Int → LaneOut) (x : Cx) : Eff :=
  x.loop (fun t => lanesOut t ty d (fun k =>
    f (lane ty.signed ty.width k (x.rdTy t ty a)) (lane ty.signed ty.width k (x.rdTy t ty b))))

/-- Lane operations on A, B and C. -/
def lanes3 (ty : IntTy) (d : Reg) (a b c : Src) (f : Int → Int → Int → LaneOut) (x : Cx) : Eff :=
  x.loop (fun t => lanesOut t ty d (fun k =>
    f (lane ty.signed ty.width k (x.rdTy t ty a)) (lane ty.signed ty.width k (x.rdTy t ty b))
      (lane ty.signed ty.width k (x.rdTy t ty c))))

def ok1 (ty : IntTy) (d : Reg) (a : Src) (k : Kernel) : Bool := k.rw ty.wide d && k.sw ty.wide a
def ok2 (ty : IntTy) (d : Reg) (a b : Src) (k : Kernel) : Bool := ok1 ty d a k && k.sw ty.wide b
def ok3 (ty : IntTy) (d : Reg) (a b c : Src) (k : Kernel) : Bool := ok2 ty d a b k && k.sw ty.wide c

def int1 (h : Hdr) (ty : IntTy) (d : Reg) (a : Src) (f : Int → LaneOut) (s : State) : Out :=
  compute h s (ok1 ty d a) 1 (some 4) (Dest.reg d ty.regs) (lanes1 ty d a f)
def int2 (h : Hdr) (ty : IntTy) (delay : Option Nat) (d : Reg) (a b : Src) (f : Int → Int → LaneOut) (s : State) : Out :=
  compute h s (ok2 ty d a b) 1 delay (Dest.reg d ty.regs) (lanes2 ty d a b f)
def int3 (h : Hdr) (ty : IntTy) (delay : Option Nat) (d : Reg) (a b c : Src) (f : Int → Int → Int → LaneOut) (s : State) :
    Out :=
  compute h s (ok3 ty d a b c) 1 delay (Dest.reg d ty.regs) (lanes3 ty d a b c f)

/-- R125: every word with OP 0x000 is an illegal instruction. -/
def execUdf (s : State) : Out :=
  withCx { form := .w64, bt := 31, sd := 0, uni := false, wait := 0, sf := none, pg := 7, pn := false } s
    (fun x s => .next (x.illegal s))

def execIadd (h : Hdr) (ty : IntTy) (d : Reg) (a b : Src) (s : State) : Out :=
  int2 h ty (some 4) d a b (fun a b => plain (truncW ty.width (a + b))) s
def execIsub (h : Hdr) (ty : IntTy) (d : Reg) (a b : Src) (s : State) : Out :=
  int2 h ty (some 4) d a b (fun a b => plain (truncW ty.width (a - b))) s

/-- Sat_w by the type, as lane bits. -/
def satLane (ty : IntTy) (x : Int) : LaneOut :=
  let r := satTy ty.signed ty.width x
  (truncW ty.width r.1, r.2)

def execIadds (h : Hdr) (ty : IntTy) (d : Reg) (a b : Src) (s : State) : Out :=
  int2 h ty (some 4) d a b (fun a b => satLane ty (a + b)) s
def execIsubs (h : Hdr) (ty : IntTy) (d : Reg) (a b : Src) (s : State) : Out :=
  int2 h ty (some 4) d a b (fun a b => satLane ty (a - b)) s
def execImul (h : Hdr) (ty : IntTy) (d : Reg) (a b : Src) (s : State) : Out :=
  int2 h ty (some 6) d a b (fun a b => plain (truncW ty.width (a * b))) s
def execImulh (h : Hdr) (ty : IntTy) (d : Reg) (a b : Src) (s : State) : Out :=
  int2 h ty (some 6) d a b (fun a b => plain (truncW ty.width (a * b / 2 ^ ty.width))) s
def execImad (h : Hdr) (ty : IntTy) (d : Reg) (a b c : Src) (s : State) : Out :=
  int3 h ty (some 6) d a b c (fun a b c => plain (truncW ty.width (a * b + c))) s

/-- R126: D and C are pairs, A and B of the type's 32 bits, C read as N64. -/
def execImadw (h : Hdr) (ty : IntTy) (d : Reg) (a b c : Src) (s : State) : Out :=
  compute h s (fun k => k.rw true d && k.s1 a && k.s1 b && k.sw true c) 1 (some 6) (Dest.reg d 2)
    (fun x => x.loopW (fun t =>
      let p := asInt ty.signed 32 (x.rd t a).toNat * asInt ty.signed 32 (x.rd t b).toNat
      wrReg64 t d (BitVec.ofNat 64 (truncW 64 (p + (x.rd64 t false c).toNat)))))

/-- Quotient and remainder (R126, R127). -/
def divRem (signed : Bool) (w : Nat) (a b : Int) : Int × Int :=
  if b = 0 then (-1, a)
  else if signed && a == -(2 ^ (w - 1)) && b == -1 then (a, 0)
  else (a.tdiv b, a - a.tdiv b * b)

def execIdiv (h : Hdr) (ty : IntTy) (d : Reg) (a b : Src) (s : State) : Out :=
  int2 h ty none d a b (fun a b => plain (truncW ty.width (divRem ty.signed ty.width a b).1)) s
def execIrem (h : Hdr) (ty : IntTy) (d : Reg) (a b : Src) (s : State) : Out :=
  int2 h ty none d a b (fun a b => plain (truncW ty.width (divRem ty.signed ty.width a b).2)) s
def execImin (h : Hdr) (ty : IntTy) (d : Reg) (a b : Src) (s : State) : Out :=
  int2 h ty (some 4) d a b (fun a b => plain (truncW ty.width (min a b))) s
def execImax (h : Hdr) (ty : IntTy) (d : Reg) (a b : Src) (s : State) : Out :=
  int2 h ty (some 4) d a b (fun a b => plain (truncW ty.width (max a b))) s
def execIabs (h : Hdr) (ty : IntTy) (d : Reg) (a : Src) (s : State) : Out :=
  int1 h ty d a (fun a => plain (truncW ty.width (a.natAbs : Int))) s
def execIneg (h : Hdr) (ty : IntTy) (d : Reg) (a : Src) (s : State) : Out :=
  int1 h ty d a (fun a => plain (truncW ty.width (-a))) s

/-- IADDC and ISUBB: the sum or difference with carry, and its carry or borrow (R126, R127). -/
def carryOp (h : Hdr) (d : Reg) (a b : Src) (pc : Pred) (f : Int → Int → Int → Int) (out : Int → Bool) (s : State) : Out :=
  compute h s (fun k => k.r1 d && k.s1 a && k.s1 b) 1 (some 4) ((Dest.reg d 1).withPred pc)
    (fun x => x.loopW (fun t =>
      let v := f (x.rd t a).toNat (x.rd t b).toNat (if x.pred t pc then 1 else 0)
      wrReg t d (BitVec.ofNat 32 (truncW 32 v)) ++ wrPred t pc (out v)))

def execIaddc (h : Hdr) (_ty : IntTy) (d : Reg) (a b : Src) (pc : Pred) (s : State) : Out :=
  carryOp h d a b pc (fun a b c => a + b + c) (fun v => decide (v ≥ 2 ^ 32)) s
def execIsubb (h : Hdr) (_ty : IntTy) (d : Reg) (a b : Src) (pc : Pred) (s : State) : Out :=
  carryOp h d a b pc (fun a b c => a - b - c) (fun v => decide (v < 0)) s

/-- R126: D and A are pairs, A zero-extended (R81); B extended by its type. -/
def execLea (h : Hdr) (ty : IntTy) (sh : BitVec 3) (d : Reg) (a b : Src) (s : State) : Out :=
  compute h s (fun k => k.rw true d && k.sw true a && k.s1 b) 1 (some 6) (Dest.reg d 2)
    (fun x => x.loopW (fun t =>
      wrReg64 t d (BitVec.ofNat 64 (truncW 64 ((x.rd64 t false a).toNat +
        asInt ty.signed 32 (x.rd t b).toNat * 2 ^ sh.toNat)))))

end Sys2Proof.Machine
end

