-- ==== Sys2Proof/Machine/Logic.lean ====
section
/-! DEFINITION. Group 0x1, logic and bit operations (R128, R129). -/

namespace Sys2Proof.Machine

open Sys2Proof

/-- A bitwise operation on 32 bits, or on pairs for S64 and N64. -/
def bitwise2 (h : Hdr) (ty : IntTy) (d : Reg) (a b : Src) (f : Nat → Nat → Nat) (s : State) : Out :=
  compute h s (ok2 ty d a b) 1 (some 4) (Dest.reg d ty.regs)
    (fun x => x.loopW (fun t => wrTy t ty d (f (x.rdTy t ty a) (x.rdTy t ty b))))

/-- All ones of the type's register width. -/
def ones (ty : IntTy) : Nat := if ty.wide then 2 ^ 64 - 1 else 2 ^ 32 - 1

def execAnd (h : Hdr) (ty : IntTy) (d : Reg) (a b : Src) (s : State) : Out := bitwise2 h ty d a b (fun a b => a &&& b) s
def execOr (h : Hdr) (ty : IntTy) (d : Reg) (a b : Src) (s : State) : Out := bitwise2 h ty d a b (fun a b => a ||| b) s
def execXor (h : Hdr) (ty : IntTy) (d : Reg) (a b : Src) (s : State) : Out := bitwise2 h ty d a b (fun a b => a ^^^ b) s
def execAndn (h : Hdr) (ty : IntTy) (d : Reg) (a b : Src) (s : State) : Out :=
  bitwise2 h ty d a b (fun a b => a &&& (ones ty ^^^ b)) s
def execNot (h : Hdr) (ty : IntTy) (d : Reg) (a : Src) (s : State) : Out :=
  compute h s (ok1 ty d a) 1 (some 4) (Dest.reg d ty.regs)
    (fun x => x.loopW (fun t => wrTy t ty d (ones ty ^^^ x.rdTy t ty a)))

/-- A three-source operation on 32 bits. -/
def word3 (h : Hdr) (d : Reg) (a b c : Src) (f : W32 → W32 → W32 → W32) (s : State) : Out :=
  compute h s (fun k => k.r1 d && k.s1 a && k.s1 b && k.s1 c) 1 (some 4) (Dest.reg d 1)
    (fun x => x.loopW (fun t => wrReg t d (f (x.rd t a) (x.rd t b) (x.rd t c))))

/-- Bit i of the result is bit a + 2b + 4c of fn (R128). -/
def bool3Word (fn : BitVec 8) (a b c : W32) : W32 :=
  maskOf 32 ((List.range 32).filter (fun i =>
    fn.getLsbD ((a.getLsbD i).toNat + 2 * (b.getLsbD i).toNat + 4 * (c.getLsbD i).toNat)))

def execBool3 (h : Hdr) (fn : BitVec 8) (d : Reg) (a b c : Src) (s : State) : Out := word3 h d a b c (bool3Word fn) s

/-- Shifts: lanes of A by the count B[7:0] (R129). -/
def shiftOp (h : Hdr) (ty : IntTy) (d : Reg) (a b : Src) (signed : Bool) (f : Int → Nat → Nat) (s : State) : Out :=
  compute h s (fun k => ok1 ty d a k && k.s1 b) 1 (some 4) (Dest.reg d ty.regs)
    (fun x => x.loop (fun t => lanesOut t ty d (fun k =>
      plain (f (lane signed ty.width k (x.rdTy t ty a)) ((x.rd t b).toNat % 256)))))

def execShl (h : Hdr) (ty : IntTy) (d : Reg) (a b : Src) (s : State) : Out :=
  shiftOp h ty d a b false (fun a n => if n ≥ ty.width then 0 else truncW ty.width (a * 2 ^ n)) s
def execShr (h : Hdr) (ty : IntTy) (d : Reg) (a b : Src) (s : State) : Out :=
  shiftOp h ty d a b false (fun a n => if n ≥ ty.width then 0 else truncW ty.width (a / 2 ^ n)) s
def execSar (h : Hdr) (ty : IntTy) (d : Reg) (a b : Src) (s : State) : Out :=
  shiftOp h ty d a b true (fun a n => truncW ty.width (a / 2 ^ min n (ty.width - 1))) s
def execRol (h : Hdr) (ty : IntTy) (d : Reg) (a b : Src) (s : State) : Out :=
  shiftOp h ty d a b false (fun a n =>
    let m := n % ty.width
    truncW ty.width (a * 2 ^ m) ||| truncW ty.width (a / 2 ^ (ty.width - m))) s

def execFshr (h : Hdr) (d : Reg) (a b c : Src) (s : State) : Out :=
  word3 h d a b c (fun a b c => BitVec.ofNat 32 ((b.toNat * 2 ^ 32 + a.toNat) / 2 ^ (c.toNat % 64))) s

/-- The bits of a `w`-bit number, bit 0 first. -/
def natBits (w x : Nat) : List Bool := (List.range w).map (fun i => x.testBit i)
def bitsNat : List Bool → Nat
  | [] => 0
  | b :: t => b.toNat + 2 * bitsNat t
def countTrue (l : List Bool) : Nat := (l.filter id).length
def leadFalse (l : List Bool) : Nat := (l.takeWhile not).length

/-- POPC, CLZ, CTZ: a single 32-bit D (R129). -/
def bitCount (h : Hdr) (ty : IntTy) (d : Reg) (a : Src) (f : List Bool → Nat) (s : State) : Out :=
  compute h s (fun k => k.r1 d && k.sw ty.wide a) 1 (some 4) (Dest.reg d 1)
    (fun x => x.loopW (fun t => wrReg t d (BitVec.ofNat 32 (f (natBits ty.width (x.rdTy t ty a))))))

def execPopc (h : Hdr) (ty : IntTy) (d : Reg) (a : Src) (s : State) : Out := bitCount h ty d a countTrue s
def execClz (h : Hdr) (ty : IntTy) (d : Reg) (a : Src) (s : State) : Out :=
  bitCount h ty d a (fun l => leadFalse l.reverse) s
def execCtz (h : Hdr) (ty : IntTy) (d : Reg) (a : Src) (s : State) : Out := bitCount h ty d a leadFalse s
def execBrev (h : Hdr) (ty : IntTy) (d : Reg) (a : Src) (s : State) : Out :=
  compute h s (ok1 ty d a) 1 (some 4) (Dest.reg d ty.regs)
    (fun x => x.loopW (fun t => wrTy t ty d (bitsNat (natBits ty.width (x.rdTy t ty a)).reverse)))

/-- The position and length of BFX and BFI; none where pos ≥ 32 or len = 0 (R128). -/
def fieldOf (b : W32) : Option (Nat × Nat) :=
  let pos := b.toNat % 256
  let len := b.toNat / 256 % 256
  if pos ≥ 32 ∨ len = 0 then none else some (pos, min len (32 - pos))

def bfxWord (signed : Bool) (a b : W32) : W32 :=
  match fieldOf b with
  | none => 0
  | some (pos, len) => BitVec.ofInt 32 (asInt signed len (a.toNat / 2 ^ pos))

def bfiWord (a b c : W32) : W32 :=
  match fieldOf b with
  | none => c
  | some (pos, len) =>
    let m : W32 := BitVec.ofNat 32 ((2 ^ len - 1) * 2 ^ pos)
    (c &&& ~~~m) ||| ((a <<< pos) &&& m)

def execBfx (h : Hdr) (ty : IntTy) (d : Reg) (a b : Src) (s : State) : Out :=
  compute h s (fun k => k.r1 d && k.s1 a && k.s1 b) 1 (some 4) (Dest.reg d 1)
    (fun x => x.loopW (fun t => wrReg t d (bfxWord ty.signed (x.rd t a) (x.rd t b))))
def execBfi (h : Hdr) (d : Reg) (a b c : Src) (s : State) : Out := word3 h d a b c bfiWord s

/-- One output byte of BSEL by its selector (R128). -/
def bselByte (v : Nat) (sel : Nat) : Nat :=
  let y := v / 2 ^ (8 * (sel % 8)) % 256
  match sel / 8 % 4 with
  | 0 => y
  | 1 => 0
  | 2 => if y ≥ 128 then 255 else 0
  | _ => 255 - y

def bselWord (a b c : W32) : W32 :=
  BitVec.ofNat 32 (joinLanes 8 ((List.range 4).map (fun k =>
    bselByte (b.toNat * 2 ^ 32 + a.toNat) (c.toNat / 2 ^ (5 * k) % 32))))

def execBsel (h : Hdr) (d : Reg) (a b c : Src) (s : State) : Out := word3 h d a b c bselWord s

end Sys2Proof.Machine
end

