-- ==== Sys2Proof/Machine/Move.lean ====
section
/-! DEFINITION. Group 0x2, compare, select, move and predicates (R130-R133). -/

namespace Sys2Proof.Machine

open Sys2Proof

def predDest (p : Pred) : Dest := Dest.none.withPred p

def icmpRel (cc : Cc) (a b : Int) : Bool :=
  match cc with
  | .eq => decide (a = b)
  | .ne => decide (a ≠ b)
  | .lt => decide (a < b)
  | .le => decide (a ≤ b)
  | .gt => decide (a > b)
  | .ge => decide (a ≥ b)

def execIcmp (h : Hdr) (ty : IntTy) (cc : Cc) (pd : Pred) (a b : Src) (s : State) : Out :=
  compute h s (fun k => k.sw ty.wide a && k.sw ty.wide b) 1 (some 4) (predDest pd)
    (fun x => x.loopW (fun t => wrPred t pd (icmpRel cc (asInt ty.signed ty.width (x.rdTy t ty a))
      (asInt ty.signed ty.width (x.rdTy t ty b)))))

/-- Negation and absolute value as bit operations (R84, R134). -/
def signOps (f : FSpec) (nega absa : Bool) (x : Nat) : Nat :=
  let x := if absa then x % 2 ^ (f.eb + f.mb) else x
  if nega then x ^^^ f.signBit true else x

/-- FCMP's relation and its NV (R130). -/
def fcmpRel (cc : FCc) (a b : FVal) : Bool × Fps :=
  let un := a.isNan || b.isNan
  let lt := fLt a b
  let gt := fLt b a
  let ord : Bool := match cc with
    | .lt | .le | .gt | .ge => true
    | _ => false
  let r := match cc with
    | .eq => !un && !lt && !gt
    | .ne => un || lt || gt
    | .lt => !un && lt
    | .le => !un && !gt
    | .gt => !un && gt
    | .ge => !un && !lt
    | .un => un
    | .or => !un
  (r, fpsIf (a.isSig || b.isSig || (un && ord)) fNV)

def execFcmp (h : Hdr) (cc : FCc) (nega absa : Bool) (pd : Pred) (a b : Src) (s : State) : Out :=
  compute h s (fun k => k.s1 a && k.s1 b) 1 (some 4) (predDest pd)
    (fun x => x.loop (fun t =>
      let va := fval fF32 (flushIn x.kernel.ftz fF32 (signOps fF32 nega absa (x.rd t a).toNat))
      let vb := fval fF32 (flushIn x.kernel.ftz fF32 (x.rd t b).toNat)
      let r := fcmpRel cc va vb
      { ws := wrPred t pd r.1, fps := r.2, sat := false }))

def execSel (h : Hdr) (wide : Bool) (pc : Pred) (d : Reg) (a b : Src) (s : State) : Out :=
  compute h s (fun k => k.rw wide d && k.sw wide a && k.sw wide b) 1 (some 4) (Dest.reg d (if wide then 2 else 1))
    (fun x => x.loopW (fun t =>
      let y := if x.pred t pc then a else b
      if wide then wrReg64 t d (x.rd64 t false y) else wrReg t d (x.rd t y)))

def execMov (h : Hdr) (ty : IntTy) (d : Reg) (a : Src) (s : State) : Out :=
  compute h s (ok1 ty d a) 1 (some 4) (Dest.reg d ty.regs)
    (fun x => x.loopW (fun t => wrTy t ty d (x.rdTy t ty a)))

def moviWord (sx hi : Bool) (imm : BitVec 16) : W32 :=
  if hi then imm.zeroExtend 32 <<< 16 else if sx then imm.signExtend 32 else imm.zeroExtend 32

def execMovi (h : Hdr) (sx hi : Bool) (d : Reg) (imm : BitVec 16) (s : State) : Out :=
  compute h s (fun k => k.r1 d) 1 (some 4) (Dest.reg d 1) (fun x => x.loopW (fun t => wrReg t d (moviWord sx hi imm)))

/-- G0-G3 (R17). -/
def slotWord : Option Nat → W32
  | some g => BitVec.ofNat 32 (g % 256)
  | none => 0xFFFFFFFF

/-- The 32-bit special registers by number (R117), as thread `t` reads them. -/
def Cx.special (x : Cx) (t : Nat) (n : Nat) : W32 :=
  match n with
  | 0 => (x.crew.thr t).tidx
  | 1 => BitVec.ofNat 32 x.crew.cidx
  | 2 => BitVec.ofNat 32 x.wg.wgidx
  | 3 => x.wg.nwg
  | 4 => BitVec.ofNat 32 x.key.core
  | 5 => BitVec.ofNat 32 (x.key.slot / 16)
  | 6 => slotWord (x.crew.groups.getD 0 none)
  | 7 => slotWord (x.crew.groups.getD 1 none)
  | 8 => slotWord (x.crew.groups.getD 2 none)
  | 9 => slotWord (x.crew.groups.getD 3 none)
  | 10 => BitVec.ofNat 32 x.wg.launch
  | 11 => BitVec.ofNat 32 x.wg.ctx
  | 12 => x.crew.fps
  | 13 => x.crew.cst
  | 15 => x.crew.abscnt
  | _ => 0

/-- R117, R133: numbers above 15 and a uniform TIDX are illegal operands; REFCLK takes a pair. -/
def execMovs (h : Hdr) (d : Reg) (num : BitVec 8) (s : State) : Out :=
  withCx h s (fun x s =>
    let n := num.toNat
    let wide := n == 14
    .next (computeOn x s (x.kernel.rw wide d && decide (n < 16) && !(h.uni && n == 0)) 1 (some 4)
      (Dest.reg d (if wide then 2 else 1))
      (fun x => x.loopW (fun t =>
        if wide then wrReg64 t d (BitVec.ofNat 64 s.refclk) else wrReg t d (x.special t n)))))

/-- HELD and EXITED read 0 in any thread of T (R131), in handler mode too, where a held thread takes part. -/
def execRdl (h : Hdr) (d : Reg) (s : State) : Out :=
  compute h s (fun k => k.r1 d) 1 (some 4) (Dest.reg d 1)
    (fun x => x.loopW (fun t => wrReg t d (((x.crew.thr t).br &&& 0x3FFF).zeroExtend 32)))

/-- The class bits of a code (R131). -/
def classBits (f : FSpec) (c : Nat) : Nat :=
  let neg := signOf f c
  2 ^ (match fval f c with
    | .nan sig => if sig then 8 else 9
    | .inf _ => if neg then 0 else 7
    | .fin _ m _ =>
      if m = 0 then (if neg then 3 else 4)
      else if isSub f c then (if neg then 2 else 5)
      else (if neg then 1 else 6))

def execFclass (h : Hdr) (ty : FlTy) (d : Reg) (a : Src) (s : State) : Out :=
  compute h s (fun k => k.r1 d && k.s1 a) 1 (some 4) (Dest.reg d 1)
    (fun x => x.loopW (fun t =>
      let v := x.rd t a
      wrReg t d (BitVec.ofNat 32 (match ty with
        | .f32 => classBits fF32 v.toNat
        | .f16x2 => classBits fF16 (elem 16 0 v) + 2 ^ 16 * classBits fF16 (elem 16 1 v)
        | .bf16x2 => classBits fBF16 (elem 16 0 v) + 2 ^ 16 * classBits fBF16 (elem 16 1 v)))))

/-- PAND, POR, PXOR (R132). -/
def predOp (h : Hdr) (na nb : Bool) (pd pa pb : Pred) (f : Bool → Bool → Bool) (s : State) : Out :=
  compute h s (fun _ => true) 1 (some 4) (predDest pd)
    (fun x => x.loopW (fun t => wrPred t pd (f (x.pred t pa != na) (x.pred t pb != nb))))

def execPand (h : Hdr) (na nb : Bool) (pd pa pb : Pred) (s : State) : Out := predOp h na nb pd pa pb (fun a b => a && b) s
def execPor (h : Hdr) (na nb : Bool) (pd pa pb : Pred) (s : State) : Out := predOp h na nb pd pa pb (fun a b => a || b) s
def execPxor (h : Hdr) (na nb : Bool) (pd pa pb : Pred) (s : State) : Out := predOp h na nb pd pa pb (fun a b => a != b) s
def execPnot (h : Hdr) (pd pa : Pred) (s : State) : Out :=
  compute h s (fun _ => true) 1 (some 4) (predDest pd) (fun x => x.loopW (fun t => wrPred t pd (!x.pred t pa)))

/-- The predicates as a word: P0-P7, or Q0-Q3 for UNI = 1 (R132). -/
def Cx.predWord (x : Cx) (t : Nat) : W32 :=
  if x.h.uni then BitVec.ofNat 32 (bitsNat ((List.range 4).map (fun i => x.crew.rdQ x.fresh i)))
  else BitVec.ofNat 32 (bitsNat ((List.range 8).map (fun i => x.crew.rdP x.fresh t i)))

def execP2v (h : Hdr) (d : Reg) (a : Src) (s : State) : Out :=
  compute h s (fun k => k.r1 d && k.s1 a) 1 (some 4) (Dest.reg d 1)
    (fun x => x.loopW (fun t => wrReg t d (x.predWord t &&& x.rd t a)))

/-- The predicates that a V2P writes: the lowest is DP of the flag table (R133; assumption 19). -/
def Cx.v2pDest (x : Cx) (b : Src) : Dest :=
  let m := x.lanes.foldl (fun m t => m ||| x.rd t b) (0 : W32)
  let n := if x.h.uni then 3 else 7
  match (List.range n).find? (fun i => m.getLsbD i) with
  | some i => { Dest.none with dp := BitVec.ofNat 3 i, dq := x.h.uni }
  | none => Dest.none

def execV2p (h : Hdr) (a b : Src) (s : State) : Out :=
  withCx h s (fun x s => .next (computeOn x s (x.kernel.s1 a && x.kernel.s1 b) 1 (some 4) (x.v2pDest b)
    (fun x => x.loopW (fun t =>
      let v := x.rd t a
      let m := x.rd t b
      ((List.range (if h.uni then 3 else 7)).filter (fun i => m.getLsbD i)).map (fun i =>
        if h.uni then RegWrite.q i (v.getLsbD i) else RegWrite.p t i (v.getLsbD i))))))

end Sys2Proof.Machine
end

