-- ==== Sys2Proof/Machine/FloatOps.lean ====
section
/-! DEFINITION. Group 0x3, floating-point arithmetic (R134, R135). -/

namespace Sys2Proof

def FlTy.elems : FlTy → Nat
  | .f32 => 1
  | _ => 2

end Sys2Proof

namespace Sys2Proof.Machine

open Sys2Proof

def flSpec : FlTy → FSpec
  | .f32 => fF32
  | .f16x2 => fF16
  | .bf16x2 => fBF16

/-- Element `k` of a register under a float type. -/
def flElem (ty : FlTy) (k : Nat) (x : W32) : Nat :=
  match ty with
  | .f32 => x.toNat
  | _ => elem 16 k x

/-- .SAT, after rounding and flushing (R134, R135): NaN and what is not above 0 give +0, above 1 gives 1. -/
def satUnit (f : FSpec) (c : Nat) : Nat :=
  match fval f c with
  | .nan _ => 0
  | v =>
    if v.isZero || v.sign then 0
    else if fLt (.fin false 1 0) v then f.bias * 2 ^ f.mb
    else c

/-- The end of every float operation: flush, then saturate. -/
def finishF (ftz : Bool) (f : FSpec) (sat : Bool) (r : FRes) : FRes :=
  let r := flushOut ftz f r
  if sat then { r with code := satUnit f r.code } else r

/-- The elements of one thread, joined, and their exceptions. -/
def elemsOut (t : Nat) (ty : FlTy) (d : Reg) (f : Nat → FRes) : Res :=
  let rs := (List.range ty.elems).map f
  { ws := wrReg t d (BitVec.ofNat 32 (joinLanes (flSpec ty).width (rs.map FRes.code))),
    fps := rs.foldl (fun a r => a ||| r.fps) 0, sat := false }

/-- Operand A of the float family: its sign operations, then flushing. -/
def Cx.flA (x : Cx) (m : FlMod) (t k : Nat) (a : Src) : Nat :=
  flushIn x.kernel.ftz (flSpec m.ty) (signOps (flSpec m.ty) m.nega m.absa (flElem m.ty k (x.rd t a)))
def Cx.flB (x : Cx) (m : FlMod) (t k : Nat) (b : Src) : Nat :=
  flushIn x.kernel.ftz (flSpec m.ty) (flElem m.ty k (x.rd t b))

/-- An operation on elements of A. -/
def fl1 (h : Hdr) (m : FlMod) (cls : Nat) (delay : Option Nat) (d : Reg) (a : Src) (f : FSpec → Nat → FRes) (s : State) :
    Out :=
  compute h s (fun k => k.r1 d && k.s1 a) cls delay (Dest.reg d 1)
    (fun x => x.loop (fun t => elemsOut t m.ty d (fun k =>
      finishF x.kernel.ftz (flSpec m.ty) m.sat (f (flSpec m.ty) (x.flA m t k a)))))

/-- An operation on elements of A and B. -/
def fl2 (h : Hdr) (m : FlMod) (delay : Option Nat) (d : Reg) (a b : Src) (f : FSpec → Nat → Nat → FRes) (s : State) : Out :=
  compute h s (fun k => k.r1 d && k.s1 a && k.s1 b) 2 delay (Dest.reg d 1)
    (fun x => x.loop (fun t => elemsOut t m.ty d (fun k =>
      finishF x.kernel.ftz (flSpec m.ty) m.sat (f (flSpec m.ty) (x.flA m t k a) (x.flB m t k b)))))

/-- An operation on elements of A, B and C. -/
def fl3 (h : Hdr) (m : FlMod) (d : Reg) (a b c : Src) (f : FSpec → Nat → Nat → Nat → FRes) (s : State) : Out :=
  compute h s (fun k => k.r1 d && k.s1 a && k.s1 b && k.s1 c) 2 (some 6) (Dest.reg d 1)
    (fun x => x.loop (fun t => elemsOut t m.ty d (fun k =>
      finishF x.kernel.ftz (flSpec m.ty) m.sat (f (flSpec m.ty) (x.flA m t k a) (x.flB m t k b) (x.flB m t k c)))))

def execFadd (h : Hdr) (m : FlMod) (d : Reg) (a b : Src) (s : State) : Out :=
  fl2 h m (some 6) d a b (fun f a b => fAdd f m.rm (fval f a) (fval f b)) s
def execFsub (h : Hdr) (m : FlMod) (d : Reg) (a b : Src) (s : State) : Out :=
  fl2 h m (some 6) d a b (fun f a b => fSub f m.rm (fval f a) (fval f b)) s
def execFmul (h : Hdr) (m : FlMod) (d : Reg) (a b : Src) (s : State) : Out :=
  fl2 h m (some 6) d a b (fun f a b => fMul f m.rm (fval f a) (fval f b)) s
def execFfma (h : Hdr) (m : FlMod) (d : Reg) (a b c : Src) (s : State) : Out :=
  fl3 h m d a b c (fun f a b c => fFma f m.rm (fval f a) (fval f b) (fval f c)) s
def execFmin (h : Hdr) (m : FlMod) (d : Reg) (a b : Src) (s : State) : Out :=
  fl2 h m (some 6) d a b (fun f a b => fMinMax f false a b) s
def execFmax (h : Hdr) (m : FlMod) (d : Reg) (a b : Src) (s : State) : Out :=
  fl2 h m (some 6) d a b (fun f a b => fMinMax f true a b) s
def execFdiv (h : Hdr) (m : FlMod) (d : Reg) (a b : Src) (s : State) : Out :=
  fl2 h m none d a b (fun f a b => fDiv f m.rm (fval f a) (fval f b)) s
def execFsqrt (h : Hdr) (m : FlMod) (d : Reg) (a : Src) (s : State) : Out :=
  fl1 h m 2 none d a (fun f a => fSqrt f m.rm (fval f a)) s

/-- s is B as S32 for F32, its S16 element for the packed types (R134). -/
def execFscale (h : Hdr) (m : FlMod) (d : Reg) (a b : Src) (s : State) : Out :=
  compute h s (fun k => k.r1 d && k.s1 a && k.s1 b) 2 (some 6) (Dest.reg d 1)
    (fun x => x.loop (fun t => elemsOut t m.ty d (fun k =>
      let f := flSpec m.ty
      let sc := match m.ty with
        | .f32 => (x.rd t b).toInt
        | _ => asInt true 16 (elem 16 k (x.rd t b))
      finishF x.kernel.ftz f m.sat (fScale f m.rm (fval f (x.flA m t k a)) sc))))

def execFrnd (h : Hdr) (m : FlMod) (d : Reg) (a : Src) (s : State) : Out :=
  fl1 h m 2 (some 6) d a (fun f a => fRnd f m.rm (fval f a) a) s

/-- Max(Min(a, b), Min(Max(a, b), c)), NV for a signalling input (R134, R135). -/
def fMed3 (f : FSpec) (a b c : Nat) : FRes :=
  let lo := fMinMax f false a b
  let hi := fMinMax f true a b
  let mid := fMinMax f false hi.code c
  let r := fMinMax f true lo.code mid.code
  FRes.withFlag r.code (lo.fps ||| hi.fps ||| mid.fps ||| r.fps)

def execFmed3 (h : Hdr) (m : FlMod) (d : Reg) (a b c : Src) (s : State) : Out :=
  fl3 h m d a b c fMed3 s

end Sys2Proof.Machine
end

