-- ==== Sys2Proof/Machine/Convert.lean ====
section
/-! DEFINITION. Group 0x4, conversions (R136-R142). -/

namespace Sys2Proof

def CvtInt.width : CvtInt → Nat
  | .s32 | .n32 => 32
  | .s64 | .n64 => 64
  | .s16 | .n16 => 16
  | .s8 | .n8 => 8
def CvtInt.signed : CvtInt → Bool
  | .s32 | .s64 | .s16 | .s8 => true
  | _ => false
def CvtInt.wide : CvtInt → Bool
  | .s64 | .n64 => true
  | _ => false
def Blk.size : Blk → Nat
  | .b16 => 16
  | .b32 => 32
  | .b64 => 64
def PkW.bits : PkW → Nat
  | .w2 => 2
  | .w4 => 4
  | .w8 => 8
  | .w16 => 16

end Sys2Proof

namespace Sys2Proof.Machine

open Sys2Proof

def ffSpec : FFmt → FSpec
  | .f32 => fF32
  | .f16 => fF16
  | .bf16 => fBF16
  | .e4m3 => fE4M3
  | .e5m2 => fE5M2
  | .e2m1 => fE2M1

/-- FTZ reaches the register formats and not the narrow ones (R98). -/
def ftzFmt : FFmt → Bool
  | .f32 | .f16 | .bf16 => true
  | _ => false

def intLo (signed : Bool) (w : Nat) : Int := if signed then -(2 ^ (w - 1)) else 0
def intHi (signed : Bool) (w : Nat) : Int := if signed then 2 ^ (w - 1) - 1 else 2 ^ w - 1

/-- A result of a CVTFI: a pair for 64 bits; narrower ones extended to 32 bits by signedness (R137). -/
def wrCvt (t : Nat) (ty : CvtInt) (d : Reg) (v : Int) : List RegWrite :=
  if ty.wide then wrReg64 t d (BitVec.ofInt 64 v) else wrReg t d (BitVec.ofInt 32 v)

def execCvtfi (h : Hdr) (src : FlTy) (hi : Bool) (rm : Rm) (dst : CvtInt) (d : Reg) (a : Src) (s : State) : Out :=
  compute h s (fun k => k.rw dst.wide d && k.s1 a) 2 (some 6) (Dest.reg d (if dst.wide then 2 else 1))
    (fun x => x.loop (fun t =>
      let f := flSpec src
      let c := flushIn x.kernel.ftz f (flElem src (if hi then 1 else 0) (x.rd t a))
      let r := floatToInt rm (intLo dst.signed dst.width) (intHi dst.signed dst.width) (fval f c)
      { ws := wrCvt t dst d r.1, fps := r.2, sat := false }))

def execCvtif (h : Hdr) (src : CvtInt) (rm : Rm) (dst : FlTy) (d : Reg) (a : Src) (s : State) : Out :=
  compute h s (fun k => k.r1 d && k.sw src.wide a) 2 (some 6) (Dest.reg d 1)
    (fun x => x.loop (fun t =>
      let v := if src.wide then (x.rd64 t src.signed a).toNat else (x.rd t a).toNat
      let r := intToFloat (flSpec dst) rm (asInt src.signed src.width v)
      { ws := wrReg t d (BitVec.ofNat 32 r.code), fps := r.fps, sat := false }))

/-- Element `k` of width `w` replaced. -/
def putElem (w k : Nat) (old : W32) (v : Nat) : W32 :=
  BitVec.ofNat 32 (joinLanes w ((List.range (32 / w)).map (fun i => if i = k then v else elem w i old)))

def execCvtff (h : Hdr) (dst src : FFmt) (rm : Rm) (d : Reg) (a b : Src) (s : State) : Out :=
  compute h s (fun k => k.r1 d && k.s1 a && k.s1 b) 2 (some 6) (Dest.reg d 1)
    (fun x => x.loop (fun t =>
      if src = .f32 then
        let f := ffSpec dst
        let k := (x.rd t b).toNat % (32 / f.width)
        let r := narrow f rm false (fval fF32 (flushIn x.kernel.ftz fF32 (x.rd t a).toNat))
        let r := flushOut (x.kernel.ftz && ftzFmt dst) f r
        { ws := wrReg t d (putElem f.width k (x.rdReg t d) r.code), fps := r.fps, sat := false }
      else
        let f := ffSpec src
        let k := (x.rd t b).toNat % (32 / f.width)
        let v := fval f (elem f.width k (x.rd t a))
        { ws := wrReg t d (BitVec.ofNat 32 (narrow fF32 .rn false v).code), fps := fpsIf v.isSig fNV, sat := false }))

/-! ## Error feedback (R107, R139) -/

/-- Rounding into a target of CVTNE, saturating. -/
def narrowTo (tgt : NarrowFmt) (a : FVal) : FRes :=
  match tgt with
  | .f16 => narrow fF16 .rn true a
  | .bf16 => narrow fBF16 .rn true a
  | .e4m3 => narrow fE4M3 .rn true a
  | .e5m2 => narrow fE5M2 .rn true a
  | .e2m1 => narrow fE2M1 .rn true a
  | .s8 => narrowInt 8 .rn a
  | .s4 => narrowInt 4 .rn a

/-- The value of a code of a target. -/
def narrowVal (tgt : NarrowFmt) (c : Nat) : FVal :=
  match tgt with
  | .f16 => fval fF16 c
  | .bf16 => fval fBF16 c
  | .e4m3 => fval fE4M3 c
  | .e5m2 => fval fE5M2 c
  | .e2m1 => fval fE2M1 c
  | .s8 => intVal 8 c
  | .s4 => intVal 4 c

/-- F32 addition in RN under FTZ, on codes. -/
def add32 (ftz : Bool) (a b : Nat) : FRes :=
  flushOut ftz fF32 (fAdd fF32 .rn (fval fF32 (flushIn ftz fF32 a)) (fval fF32 (flushIn ftz fF32 b)))

/-- One element: its code, the next residual, the flags (R107). -/
def feedStep (ftz : Bool) (tgt : NarrowFmt) (x r : Nat) : Nat × Nat × Fps :=
  let e := add32 ftz x r
  let ev := fval fF32 e.code
  let q := narrowTo tgt ev
  if ev.isNan || ev.isInf || q.ovf then (q.code, 0, e.fps ||| q.fps)
  else
    let res := flushOut ftz fF32 (fSub fF32 .rn ev (narrowVal tgt q.code))
    (q.code, res.code, e.fps ||| q.fps ||| res.fps)

/-- The chain of a block over its threads, in order. -/
def feedBlock (ftz : Bool) (tgt : NarrowFmt) (val : Nat → Nat) (d : Reg) : Nat → List Nat → List Res
  | _, [] => []
  | r, t :: ts =>
    let u := feedStep ftz tgt (val t) r
    { ws := wrReg t d (BitVec.ofNat 32 u.1), fps := u.2.2, sat := false } :: feedBlock ftz tgt val d u.2.1 ts

/-- Insert a thread by a key, after its equals. -/
def insBy (key : Nat → Nat) (t : Nat) : List Nat → List Nat
  | [] => [t]
  | u :: us => if key t < key u then t :: u :: us else u :: insBy key t us
def sortBy (key : Nat → Nat) (l : List Nat) : List Nat := l.foldl (fun a t => insBy key t a) []

/-- The threads of T in block `b` of `n` positions, in TIDX order. -/
def Cx.blockThreads (x : Cx) (n b : Nat) : List Nat :=
  sortBy (fun t => (x.crew.thr t).tidx.toNat) (x.lanes.filter (fun t => t / n == b))

/-- Writes in thread order, so that an S destination follows R83. -/
def byThread (l : List (Nat × Res)) : List Res :=
  (List.range 64).flatMap (fun t => (l.filter (fun p => p.1 == t)).map Prod.snd)

def execCvtne (h : Hdr) (bg : Blk) (tgt : NarrowFmt) (d : Reg) (a : Src) (s : State) : Out :=
  compute h s (fun k => k.r1 d && k.s1 a) 2 (some 6) (Dest.reg d 1)
    (fun x =>
      let rs := (List.range (64 / bg.size)).flatMap (fun b =>
        let ts := x.blockThreads bg.size b
        ts.zip (feedBlock x.kernel.ftz tgt (fun t => (x.rd t a).toNat) d 0 ts))
      let r := joinRes (byThread rs)
      .done r.ws r.fps r.sat)

/-! ## Widths (R140) -/

/-- N of PACK: the low w bits, or a saturation (R140). -/
def packElem (w : Nat) (md : PkMode) (e : Nat) : LaneOut :=
  match md with
  | .trunc => plain (e % 2 ^ w)
  | .ss => let r := satS w (asInt true (2 * w) e); (truncW w r.1, r.2)
  | .sn => let r := satN w (asInt false (2 * w) e); (truncW w r.1, r.2)

def execPack (h : Hdr) (w : PkW) (md : PkMode) (d : Reg) (a b : Src) (s : State) : Out :=
  compute h s (fun k => k.r1 d && k.s1 a && k.s1 b) 2 (some 6) (Dest.reg d 1)
    (fun x => x.loop (fun t =>
      let k := 16 / w.bits
      let rs := (List.range (2 * k)).map (fun i =>
        packElem w.bits md (if i < k then elem (2 * w.bits) i (x.rd t a) else elem (2 * w.bits) (i - k) (x.rd t b)))
      { ws := wrReg t d (BitVec.ofNat 32 (joinLanes w.bits (rs.map Prod.fst))), fps := 0, sat := rs.any Prod.snd }))

def execUnpack (h : Hdr) (w : PkW) (sx : Bool) (d : Reg) (a b : Src) (s : State) : Out :=
  compute h s (fun k => k.r1 d && k.s1 a && k.s1 b) 2 (some 6) (Dest.reg d 1)
    (fun x => x.loopW (fun t =>
      let k := 16 / w.bits
      let hh := if (x.rd t b).getLsbD 0 then 1 else 0
      wrReg t d (BitVec.ofNat 32 (joinLanes (2 * w.bits) ((List.range k).map (fun i =>
        truncW (2 * w.bits) (asInt sx w.bits (elem w.bits (hh * k + i) (x.rd t a)))))))))

/-! ## Block scales (R103, R141) -/

/-- The exponent of the largest power of two within the target (R141). -/
def emaxOf : NarrowFmt → Int
  | .f16 => 15
  | .bf16 => 127
  | .e4m3 => 8
  | .e5m2 => 15
  | .e2m1 => 2
  | .s8 => 6
  | .s4 => 2

/-- floor(log2 |v|) of a finite non-zero value. -/
def expoOf : FVal → Option Int
  | .fin _ m e => if m = 0 then none else some (e + Nat.log2 m)
  | _ => none

/-- The E8 scale of a block (R141). -/
def blockScale (tgt : NarrowFmt) (vs : List FVal) : Nat :=
  if vs.any (fun v => v.isNan || v.isInf) then 0xFF
  else match (vs.filterMap expoOf).foldl (fun (a : Option Int) e => match a with
      | none => some e
      | some m => some (max m e)) none with
    | none => 0
    | some e => (max 0 (min 254 (e - emaxOf tgt + 127))).toNat

/-- A x 2^k rounded into F32, NV for a signalling A (R141). -/
def scaled (ftz : Bool) (a : Nat) (k : Int) : FRes :=
  flushOut ftz fF32 (fScale fF32 .rn (fval fF32 (flushIn ftz fF32 a)) k)

def execQscale (h : Hdr) (md : QMode) (d : Reg) (a : Src) (s : State) : Out :=
  match md with
  | .apply b =>
    compute h s (fun k => k.r1 d && k.s1 a && k.s1 b) 2 (some 6) (Dest.reg d 1)
      (fun x => x.loop (fun t =>
        let e := (x.rd t b).toNat % 256
        let r := if e = 0xFF then FRes.exact 0x7FC00000 else scaled x.kernel.ftz (x.rd t a).toNat ((e : Int) - 127)
        { ws := wrReg t d (BitVec.ofNat 32 r.code), fps := r.fps, sat := false }))
  | .scale bg tgt =>
    compute h s (fun k => k.r1 d && k.s1 a) 2 (some 6) (Dest.reg d 1)
      (fun x => x.loopW (fun t =>
        let vs := (x.blockThreads bg.size (t / bg.size)).map (fun u => fval fF32 (flushIn x.kernel.ftz fF32 (x.rd u a).toNat))
        wrReg t d (BitVec.ofNat 32 (blockScale tgt vs))))
  | .div bg tgt =>
    compute h s (fun k => k.r1 d && k.s1 a) 2 (some 6) (Dest.reg d 1)
      (fun x => x.loop (fun t =>
        let vs := (x.blockThreads bg.size (t / bg.size)).map (fun u => fval fF32 (flushIn x.kernel.ftz fF32 (x.rd u a).toNat))
        let e := blockScale tgt vs
        let r := if e = 0xFF then FRes.withFlag 0x7FC00000 (fpsIf (fval fF32 (x.rd t a).toNat).isSig fNV)
                 else scaled x.kernel.ftz (x.rd t a).toNat (127 - (e : Int))
        { ws := wrReg t d (BitVec.ofNat 32 r.code), fps := r.fps, sat := false }))

/-! ## Ternary codes (R104, R142) -/

/-- The value of a T2 code; 0b10 gives 0 and is invalid. -/
def t2 (c : Nat) : Int := if c = 1 then 1 else if c = 3 then -1 else 0
def t2Bad (c : Nat) : Bool := c == 2

def execTern (h : Hdr) (out : TernOut) (d : Reg) (a b : Src) (s : State) : Out :=
  compute h s (fun k => k.r1 d && k.s1 a && k.s1 b) 2 (some 6) (Dest.reg d 1)
    (fun x => x.loop (fun t =>
      let p : Nat × Nat := match out with
        | .s8x4 => (8, 4)
        | .s16x2 => (16, 2)
        | .s32 => (32, 1)
      let n := p.2
      let hh := (x.rd t b).toNat % (16 / n)
      let cs := (List.range n).map (fun i => elem 2 (n * hh + i) (x.rd t a))
      { ws := wrReg t d (BitVec.ofNat 32 (joinLanes p.1 (cs.map (fun c => truncW p.1 (t2 c))))),
        fps := fpsIf (cs.any t2Bad) fNV, sat := false }))

end Sys2Proof.Machine
end

