-- ==== Sys2Proof/Machine/Special.lean ====
section
/-! DEFINITION. Group 0x5, special functions and dot products (R143-R145). A special function's result is free within the
bounds of R143 (assumption 7): a fixed-point reference, far more precise than the bounds, judges the free candidate. -/

namespace Sys2Proof.Machine

open Sys2Proof

/-! ## References in fixed point, 192 places -/

def fpOne : Nat := 2 ^ 192
/-- ln 2. -/
def fpLn2 : Nat := 0xb17217f7d1cf79abc9e3b39803f2f6af40f343267298b62d
/-- π / 2. -/
def fpHalfPi : Nat := 0x1921fb54442d18469898cc51701b839a252049c1114cf98e8
/-- 2 / π with 384 places. -/
def fpTwoOverPi : Nat :=
  0xa2f9836e4e441529fc2757d1f534ddc0db6295993c439041fe5163abdebbc561b7246e3a424dd2e006492eea09d1921c

def fpMul (a b : Nat) : Nat := a * b / fpOne

/-- Σ of a Taylor series whose next term is the last times `y` over (k+1)...(k+step). -/
def taylor (y : Nat) (step : Nat) (alt : Bool) : Nat → Nat → Nat → Bool → Int
  | 0, _, _, _ => 0
  | fuel + 1, k, term, neg =>
    let nextTerm := fpMul term y / ((List.range step).foldl (fun a i => a * (k + 1 + i)) 1)
    (if neg then -(term : Int) else term) + taylor y step alt fuel (k + step) nextTerm (if alt then !neg else false)

/-- exp of y in [0, 1), fixed point. -/
def fpExp (y : Nat) : Nat := (taylor y 1 false 60 0 fpOne false).toNat
/-- sine and cosine of y in [0, π/2], fixed point. -/
def fpSin (y : Nat) : Nat := (taylor (fpMul y y) 2 true 40 1 y false).toNat
def fpCos (y : Nat) : Nat := (taylor (fpMul y y) 2 true 40 0 fpOne false).toNat

/-- 64 binary places of log2 of x in [1, 2), fixed point, most significant first. -/
def log2Bits : Nat → Nat → Nat → Nat
  | 0, _, acc => acc
  | n + 1, x, acc =>
    let y := fpMul x x
    if y ≥ 2 * fpOne then log2Bits n (y / 2) (2 * acc + 1) else log2Bits n y (2 * acc)

/-- A reference value: (-1)^neg x m x 2^e. -/
structure Approx where
  neg : Bool
  m   : Nat
  e   : Int
  deriving DecidableEq, Repr

/-- Fixed point with `p` places of an Int. -/
def Approx.ofInt (v : Int) (p : Nat) : Approx := { neg := decide (v < 0), m := v.natAbs, e := -(p : Int) }

/-- a finite value in fixed point with 192 places, rounded down. -/
def toFix (s : Bool) (m : Nat) (e : Int) : Int :=
  let v : Int := if 0 ≤ e + 192 then m * 2 ^ (e + 192).toNat else (m / 2 ^ (-(e + 192)).toNat : Nat)
  if s then -v else v

/-- 2^t of a fixed-point t. -/
def exp2Approx (t : Int) : Approx :=
  let n := t / fpOne
  let f := (t % fpOne).toNat
  { neg := false, m := fpExp (fpMul f fpLn2), e := n - 192 }

/-- A value just below m x 2^e in magnitude. -/
def justBelow (s : Bool) (m : Nat) (e : Int) : Approx := { neg := s, m := m * 2 ^ 64 - 1, e := e - 64 }

/-- The quarter turns of |a| modulo 4, and the rest of a quarter as an angle in fixed point. -/
def reduceQuarter (m : Nat) (e : Int) : Nat × Nat :=
  let t := if 0 ≤ e then m * fpTwoOverPi * 2 ^ e.toNat else m * fpTwoOverPi / 2 ^ (-e).toNat
  let q := t / 2 ^ 384
  let f := t % 2 ^ 384 / 2 ^ 192
  (q % 4, fpMul f fpHalfPi)

def sinApprox (s : Bool) (m : Nat) (e : Int) (shift : Nat) : Approx :=
  let r := reduceQuarter m e
  let v : Int := match (r.1 + shift) % 4 with
    | 0 => fpSin r.2
    | 1 => fpCos r.2
    | 2 => -(fpSin r.2 : Int)
    | _ => -(fpCos r.2 : Int)
  Approx.ofInt (if s then -v else v) 192

/-- Whether |a| < 2^k. -/
def smaller (m : Nat) (e : Int) (k : Int) : Bool := decide (e + bitLen m ≤ k)

/-- The special functions. -/
inductive SFn | rcp | rsq | ex2 | lg2 | sin | cos | tanh
  deriving DecidableEq, Repr

def SFn.code : SFn → Nat
  | .rcp => 0 | .rsq => 1 | .ex2 => 2 | .lg2 => 3 | .sin => 4 | .cos => 5 | .tanh => 6

/-- A reference value of a function of a finite non-zero value. -/
def approx (fn : SFn) (s : Bool) (m : Nat) (e : Int) : Approx :=
  match fn with
  | .rcp => { neg := s, m := withSticky (2 ^ (128 + bitLen m) / m) (2 ^ (128 + bitLen m) % m != 0), e := -e - 128 - bitLen m - 2 }
  | .rsq =>
    let k := 128 + bitLen m
    let p := sqrtParts (2 ^ k / m) (-e - k)
    { neg := false, m := p.1, e := p.2 }
  | .ex2 => exp2Approx (toFix s m e)
  | .lg2 =>
    let l := Nat.log2 m
    let n := e + l
    let x := m * fpOne / 2 ^ l
    Approx.ofInt (n * 2 ^ 64 + (log2Bits 64 x 0 : Nat)) 64
  | .sin => if smaller m e (-32) then justBelow s m e else sinApprox s m e 0
  | .cos => if smaller m e (-32) then justBelow false 1 0 else sinApprox false m e 1
  | .tanh =>
    if smaller m e (-32) then justBelow s m e
    else if !smaller m e 5 then justBelow s 1 0
    else
      -- (exp(2|a|) - 1) / (exp(2|a|) + 1), exp(2|a|) as a power of 2
      let t := (toFix false m e) * 2 * fpOne / fpLn2
      let p := exp2Approx t
      let num := p.m * 2 ^ (p.e + 192).toNat
      { neg := s, m := (num - fpOne) * fpOne / (num + fpOne), e := -192 }

/-- |value of c - reference| ≤ n x 2^q. -/
def within (f : FSpec) (c : Nat) (r : Approx) (n : Nat) (q : Int) : Bool :=
  match fval f c with
  | .fin s m e =>
    let d := sumTerms [⟨s, m, e⟩, ⟨!r.neg, r.m, r.e⟩]
    decide ((sumTerms [⟨false, d.1.natAbs, d.2⟩, ⟨true, n, q⟩]).1 ≤ 0)
  | _ => false

/-- The unit in the last place of a value in a format. -/
def ulpExp (f : FSpec) (r : Approx) : Int := max (r.e + Nat.log2 r.m - f.mb) f.qmin

/-- Whether a result meets the bound of R143; faithful in F16 and BF16. LG2's absolute bound holds for an input in
[0.5, 2]. -/
def boundOk (fn : SFn) (f : FSpec) (inHalfTwo : Bool) (c : Nat) (r : Approx) : Bool :=
  if f.mb = 23 then
    match fn with
    | .rcp | .rsq => within f c r 1 (ulpExp f r)
    | .ex2 => within f c r 2 (ulpExp f r)
    | .lg2 => within f c r 2 (ulpExp f r) || (inHalfTwo && within f c r 1 (-22))
    | .sin | .cos => within f c r 1 (-22)
    | .tanh => within f c r 1 (-21)
  else c == (roundF f .rp false r.neg r.m r.e).code || c == (roundF f .rm false r.neg r.m r.e).code

/-- The result where R143 leaves it open: the free candidate if it meets the bound, else the reference rounded; NX, and OF
and UF by R96. -/
def openResult (fn : SFn) (f : FSpec) (inHalfTwo : Bool) (bits : Nat) (r : Approx) : FRes :=
  let n := roundF f .rn false r.neg r.m r.e
  let c := Config.special fn.code f.mb bits % 2 ^ f.width
  if n.ovf then n
  else { code := if boundOk fn f inHalfTwo c r then c else n.code, fps := n.fps ||| fNX, ovf := false }

/-- A power of two: its exponent. -/
def pow2Exp (m : Nat) (e : Int) : Option Int := if m = 2 ^ Nat.log2 m then some (e + Nat.log2 m) else none

/-- The exact cases of R143 first; `bits` is the input after its operations. -/
def special (fn : SFn) (f : FSpec) (bits : Nat) : FRes :=
  match fval f bits with
  | .nan sig => f.nanRes sig
  | .inf s =>
    match fn with
    | .rcp => FRes.exact (f.signBit s)
    | .rsq | .lg2 => if s then f.nanRes true else (if fn == .rsq then FRes.exact 0 else FRes.exact (f.inf false))
    | .ex2 => FRes.exact (if s then 0 else f.inf false)
    | .sin | .cos => f.nanRes true
    | .tanh => FRes.exact (f.bias * 2 ^ f.mb + f.signBit s)
  | .fin s m e =>
    if m = 0 then
      match fn with
      | .rcp | .rsq => FRes.withFlag (f.inf s) fDZ
      | .ex2 | .cos => FRes.exact (f.bias * 2 ^ f.mb)
      | .lg2 => FRes.withFlag (f.inf true) fDZ
      | .sin | .tanh => FRes.exact bits
    else
      let inHT : Bool := !s && !fLt (.fin false m e) (.fin false 1 (-1)) && !fLt (.fin false 2 0) (.fin false m e)
      match fn, pow2Exp m e with
      | .rcp, some k => roundF f .rn false s 1 (-k)
      | .rsq, some k => if s then f.nanRes true
          else if k % 2 = 0 then roundF f .rn false false 1 (-(k / 2))
          else openResult fn f inHT bits (approx fn s m e)
      | .rsq, none => if s then f.nanRes true else openResult fn f inHT bits (approx fn s m e)
      | .lg2, some k => if s then f.nanRes true else intToFloat f .rn k
      | .lg2, none => if s then f.nanRes true else openResult fn f inHT bits (approx fn s m e)
      | .ex2, _ =>
        -- an integral a gives 2^a exactly; beyond 2^12 every result overflows or vanishes alike
        if !smaller m e 12 then roundF f .rn false false 1 (if s then -8192 else 8192)
        else
          let r := roundAt .rz s m e 0
          if !r.2 then roundF f .rn false false 1 (if s then -(r.1 : Int) else r.1)
          else openResult fn f inHT bits (approx fn s m e)
      | _, _ => openResult fn f inHT bits (approx fn s m e)

def sfn (h : Hdr) (m : FlMod) (d : Reg) (a : Src) (fn : SFn) (s : State) : Out :=
  fl1 h m 3 none d a (special fn) s

def execRcp (h : Hdr) (m : FlMod) (d : Reg) (a : Src) (s : State) : Out := sfn h m d a .rcp s
def execRsq (h : Hdr) (m : FlMod) (d : Reg) (a : Src) (s : State) : Out := sfn h m d a .rsq s
def execEx2 (h : Hdr) (m : FlMod) (d : Reg) (a : Src) (s : State) : Out := sfn h m d a .ex2 s
def execLg2 (h : Hdr) (m : FlMod) (d : Reg) (a : Src) (s : State) : Out := sfn h m d a .lg2 s
def execSin (h : Hdr) (m : FlMod) (d : Reg) (a : Src) (s : State) : Out := sfn h m d a .sin s
def execCos (h : Hdr) (m : FlMod) (d : Reg) (a : Src) (s : State) : Out := sfn h m d a .cos s
def execTanh (h : Hdr) (m : FlMod) (d : Reg) (a : Src) (s : State) : Out := sfn h m d a .tanh s

/-- D is a pair: the sine in the lower register, the cosine in the upper (R143). -/
def execSincos (h : Hdr) (m : FlMod) (d : Reg) (a : Src) (s : State) : Out :=
  compute h s (fun k => k.rw true d && k.s1 a) 3 none (Dest.reg d 2)
    (fun x => x.loop (fun t =>
      let f := flSpec m.ty
      let rs (fn : SFn) := (List.range m.ty.elems).map (fun k => finishF x.kernel.ftz f m.sat (special fn f (x.flA m t k a)))
      let val (l : List FRes) : W32 := BitVec.ofNat 32 (joinLanes f.width (l.map FRes.code))
      { ws := wrRegAt t d 0 (val (rs .sin)) ++ wrRegAt t d 1 (val (rs .cos)),
        fps := (rs .sin ++ rs .cos).foldl (fun a r => a ||| r.fps) 0, sat := false }))

/-! ## Dot products (R144, R145) -/

/-- C + 2^k x Σ a_i x b_i with the accumulator and the result under FTZ (R108). -/
def dotOne (ftz : Bool) (c : Nat) (k : Int) (va vb : List FVal) : FRes :=
  flushOut ftz fF32 (dotRes (fval fF32 (flushIn ftz fF32 c)) ((va.map (fun v => v.scale k)).zip vb))

def dot (h : Hdr) (d : Reg) (a b c : Src) (sc : Option Reg) (n : Nat) (ea eb : Nat → FVal) (s : State) : Out :=
  compute h s (fun k => k.r1 d && k.s1 a && k.s1 b && k.s1 c && (match sc with
      | some e => k.r1 e
      | none => true)) 3 (some 7) (Dest.reg d 1)
    (fun x => x.loop (fun t =>
      let e : Nat := match sc with
        | some e => (x.rdReg t e).toNat
        | none => 0x7F7F
      let sA := e % 256
      let sB := e / 256 % 256
      let els (f : Nat → FVal) (v : W32) := (List.range n).map (fun i => f (elem (32 / n) i v))
      let r := if sA = 0xFF ∨ sB = 0xFF then FRes.exact 0x7FC00000
               else dotOne x.kernel.ftz (x.rd t c).toNat ((sA : Int) - 127 + ((sB : Int) - 127))
                      (els ea (x.rd t a)) (els eb (x.rd t b))
      { ws := wrReg t d (BitVec.ofNat 32 r.code), fps := r.fps, sat := false }))

def dot2Val : Dot2Fmt → Nat → FVal
  | .f16, x => fval fF16 x
  | .bf16, x => fval fBF16 x
def dot4Val : Dot4Fmt → Nat → FVal
  | .e4m3, x => fval fE4M3 x
  | .e5m2, x => fval fE5M2 x
  | .s8, x => intVal 8 x
def dot8Val : Dot8Fmt → Nat → FVal
  | .e2m1, x => fval fE2M1 x
  | .s4, x => intVal 4 x

def execDot2 (h : Hdr) (fa fb : Dot2Fmt) (d : Reg) (a b c : Src) (s : State) : Out :=
  dot h d a b c none 2 (dot2Val fa) (dot2Val fb) s
def execDot4 (h : Hdr) (fa fb : Dot4Fmt) (sc : Option Reg) (d : Reg) (a b c : Src) (s : State) : Out :=
  dot h d a b c sc 4 (dot4Val fa) (dot4Val fb) s
def execDot8 (h : Hdr) (fa fb : Dot8Fmt) (sc : Option Reg) (d : Reg) (a b c : Src) (s : State) : Out :=
  dot h d a b c sc 8 (dot8Val fa) (dot8Val fb) s

/-- Whether an experimental opcode executes: the kernel's Stepping is the part's (R88). -/
def Kernel.steppingOk (k : Kernel) : Bool := k.stepping == Config.stepping

/-- Experimental (R88); SatS32 of C and the ternary products, code 0b10 as 0 with NV (R144, R145). -/
def execTdot (h : Hdr) (byte : BitVec 2) (d : Reg) (a b c : Src) (s : State) : Out :=
  withCx h s (fun x s =>
    if !x.kernel.steppingOk then .next (x.illegal s)
    else .next (computeOn x s (x.kernel.r1 d && x.kernel.s1 a && x.kernel.s1 b && x.kernel.s1 c) 3 (some 7) (Dest.reg d 1)
      (fun x => x.loop (fun t =>
        let cs := (List.range 4).map (fun i => elem 2 (4 * byte.toNat + i) (x.rd t a))
        let ps := (List.range 4).map (fun i => t2 (cs.getD i 0) * asInt true 8 (elem 8 i (x.rd t b)))
        let r := satS 32 ((x.rd t c).toInt + ps.foldl (· + ·) 0)
        { ws := wrReg t d (BitVec.ofNat 32 (truncW 32 r.1)), fps := fpsIf (cs.any t2Bad) fNV, sat := r.2 }))))

end Sys2Proof.Machine
end

