-- ==== Sys2Proof/Machine/Boundary.lean ====
section
/-! DEFINITION. An instruction boundary: the bytes and the word at a crew's position (R71, R89), and what decoding finds wrong with
the word by its own fields (R82, R409). -/

namespace Sys2Proof

/-! ## The register groups that R82 checks -/

def wd (b : Bool) : Nat := if b then 2 else 1
def Src.grp (n : Nat) : Src → List (Nat × Reg)
  | .r x => [(n, x)]
  | .imm _ => []
def SPair.grp : SPair → List (Nat × Reg)
  | .pr k => [(1, .s ⟨2 * k.val, by omega⟩), (1, .s ⟨2 * k.val + 1, by omega⟩)]
  | .z => []
def MemRef.grp (m : MemRef) : List (Nat × Reg) := m.base.grp ++ [(1, m.off)]
def ScrRef.grp (m : ScrRef) : List (Nat × Reg) := [(1, m.base), (1, m.off)]
def BarRef.grp : BarRef → List (Nat × Reg)
  | .off a => a.grp 1
  | .slot _ => []
def grpTy (n : Nat) (d : Reg) (l : List Src) : List (Nat × Reg) := (n, d) :: l.flatMap (Src.grp n)
/-- `n` single V registers from one; registers past V191 are a group that no kernel has. -/
def singles (n : Nat) (r : Fin 192) : List (Nat × Reg) :=
  (List.range n).map (fun k => if h : r.val + k < 192 then (1, .v ⟨r.val + k, h⟩) else (193, .v 0))

/-- The operand registers of an instruction, by how many consecutive ones each names (R80, R82, R240). -/
def Instr.groups : Instr → List (Nat × Reg)
  | .iadd _ ty d a b | .isub _ ty d a b | .iadds _ ty d a b | .isubs _ ty d a b | .imin _ ty d a b | .imax _ ty d a b
  | .and _ ty d a b | .or _ ty d a b | .xor _ ty d a b | .andn _ ty d a b | .imul _ ty d a b | .imulh _ ty d a b
  | .idiv _ ty d a b | .irem _ ty d a b => grpTy ty.regs d [a, b]
  | .imad _ ty d a b c => grpTy ty.regs d [a, b, c]
  | .imadw _ _ d a b c => (2, d) :: (a.grp 1 ++ b.grp 1 ++ c.grp 2)
  | .iabs _ ty d a | .ineg _ ty d a | .not _ ty d a | .brev _ ty d a | .mov _ ty d a => grpTy ty.regs d [a]
  | .iaddc _ _ d a b _ | .isubb _ _ d a b _ => grpTy 1 d [a, b]
  | .lea _ _ _ d a b => (2, d) :: (a.grp 2 ++ b.grp 1)
  | .bool3 _ _ d a b c | .fshr _ d a b c | .bfi _ d a b c | .bsel _ d a b c | .ffma _ _ d a b c | .fmed3 _ _ d a b c
  | .dot2 _ _ _ d a b c | .tdot _ _ d a b c => grpTy 1 d [a, b, c]
  | .shl _ ty d a b | .shr _ ty d a b | .sar _ ty d a b | .rol _ ty d a b => (ty.regs, d) :: (a.grp ty.regs ++ b.grp 1)
  | .popc _ ty d a | .clz _ ty d a | .ctz _ ty d a => (1, d) :: a.grp ty.regs
  | .bfx _ _ d a b | .fadd _ _ d a b | .fsub _ _ d a b | .fmul _ _ d a b | .fmin _ _ d a b | .fmax _ _ d a b
  | .fscale _ _ d a b | .fdiv _ _ d a b | .cvtff _ _ _ _ d a b | .pack _ _ _ d a b | .unpack _ _ _ d a b
  | .tern _ _ d a b => grpTy 1 d [a, b]
  | .icmp _ ty _ _ a b => a.grp ty.regs ++ b.grp ty.regs
  | .fcmp _ _ _ _ _ a b => a.grp 1 ++ b.grp 1
  | .sel _ w _ d a b => grpTy (wd w) d [a, b]
  | .movi _ _ _ d _ | .rdl _ d => [(1, d)]
  | .movs _ d num => [(wd (num == 14), d)]
  | .pand _ _ _ _ _ _ | .por _ _ _ _ _ _ | .pxor _ _ _ _ _ _ | .pnot _ _ _ | .pany _ _ _ _ | .pall _ _ _ _
  | .lead _ _ _ => []
  | .fclass _ _ d a | .p2v _ d a | .fsqrt _ _ d a | .frnd _ _ d a | .cvtne _ _ _ d a | .rcp _ _ d a | .rsq _ _ d a
  | .ex2 _ _ d a | .lg2 _ _ d a | .sin _ _ d a | .cos _ _ d a | .tanh _ _ d a => grpTy 1 d [a]
  | .v2p _ a b => a.grp 1 ++ b.grp 1
  | .cvtfi _ _ _ _ dst d a => (wd (dst == .s64 || dst == .n64), d) :: a.grp 1
  | .cvtif _ src _ _ d a => (1, d) :: a.grp (wd (src == .s64 || src == .n64))
  | .qscale _ md d a => grpTy 1 d (a :: match md with
      | .apply b => [b]
      | _ => [])
  | .sincos _ _ d a => (2, d) :: a.grp 1
  | .dot4 _ _ _ sc d a b c | .dot8 _ _ _ sc d a b c => grpTy 1 d ([a, b, c] ++ (sc.map Src.r).toList)
  | .geti _ w _ d a b | .getb _ w _ _ d a b | .geta _ w _ _ d a b | .getx _ w _ d a b =>
      (wd w, d) :: (a.grp (wd w) ++ b.grp 1)
  | .pmask _ cnt d _ => [(wd !cnt, d)]
  | .peers _ w d a => (match d with
      | .mask r => [(2, r)]
      | .all _ => []) ++ a.grp (wd w)
  | .scan _ ty _ _ _ d a | .vred _ ty _ _ d a => grpTy (wd (ty == .s64 || ty == .n64)) d [a]
  | .regroup _ a n => (if n = 0 then [] else [(1, .v (Fin.ofNat 192 (n.toNat - 1)))]) ++ a.grp 1
  | .bx _ _ | .yield _ _ | .exit _ | .nop _ | .bxc _ _ _ _ _ => []
  | .bxi _ a => a.grp 1
  | .call _ link a _ => (1, .v link) :: a.grp 1
  | .calli _ link sa save _ => (1, .v link) :: (sa.grp ++ save.grp)
  | .ret _ a r => a.grp 1 ++ r.grp
  | .exitn _ _ a => a.grp 1
  | .ld _ sz _ _ _ d m | .ldc _ sz _ d m | .st _ sz _ _ d m => (sz.regs, d) :: m.grp
  | .lds _ sz _ d m | .sts _ sz d m => (sz.regs, d) :: m.grp
  | .ldt _ k md _ d m => ((match k with | .x1 => 1 | .x2 => 2 | .x4 => 4), d) :: (m.grp ++ match md with
        | .scl ss => ss.grp
        | _ => [])
  | .atom _ _ sz _ d m | .red _ _ sz _ d m => (sz.bytes / 4, d) :: m.grp
  | .atomcas _ sz _ d m => (sz.bytes / 2, d) :: m.grp
  | .atoms _ _ sz d m => (sz.bytes / 4, d) :: m.grp
  | .atomcass _ sz d m => (sz.bytes / 2, d) :: m.grp
  | .fence _ _ _ | .isync _ | .next _ | .drain _ _ _ _ | .gbar _ | .rte _ | .bkpt _ _ | .halt _ => []
  | .bind _ k img => k.grp 1 ++ img.grp 2
  | .unbind _ k | .stashwb _ k | .stashdrop _ _ k | .pause _ k | .trap _ k | .tmark _ k => k.grp 1
  | .cflush _ _ m | .cinv _ _ m | .prf _ _ _ m | .hint _ _ _ m | .ipf _ _ m => m.grp
  | .stashmap _ d sg sp => (1, d) :: (sg.grp ++ sp.grp 1)
  | .binit _ o a b => (1, o) :: (a.grp 1 ++ b.grp 1)
  | .arrive _ d bar => (1, d) :: bar.grp
  | .bexpect _ bar b => bar.grp ++ b.grp 1
  | .wait _ _ _ _ d sl t => (1, d) :: (sl.grp 1 ++ t.grp 1)
  | .copy _ _ dir dst src x bar | .copy2d _ _ dir dst src x bar =>
      (wd (dir == .gg || dir == .sg), dst) :: (src.grp (wd (dir == .gg || dir == .gs)) ++ x.grp 1 ++ bar.grp 1)
  | .rsv _ _ _ _ d count => (1, d) :: count.grp 1
  | .rls _ _ mask => mask.grp 1
  | .cld _ _ place src stride => (1, place) :: (src.grp 2 ++ stride.grp 1)
  | .mma _ _ _ _ _ out act ctl => (1, out) :: (act.grp 1 ++ ctl.grp 1)
  | .gmv _ _ desc => desc.grp 1
  | .mfence _ d => [(1, d)]
  | .enq _ n _ va => singles (n.toNat + 1) va
  | .enqr _ _ _ ss cnt => ss.grp 1 ++ cnt.grp 1
  | .deq _ n _ vd => singles (n.toNat + 1) vd
  | .launch _ d q rc => (2, d) :: (q.grp 1 ++ (SPair.pr rc).grp)
  | .movsr _ _ d => [(2, d)]
  | .setsr _ _ a => a.grp 2
  | .mread _ md d => match md with
      | .ev c => (1, d) :: c.grp 1
      | _ => [(2, d)]
  | .udf | .regroupExchange _ _ | .waitSatisfaction _ | .waitTimeout _ | .waitMemoryRead _ | .pauseExpiry _
  | .gbarRelease _ | .copyBeat _ _ | .cldRow _ _ | .mmaVector _ _ | .gmvSegmentStart _ _
  | .engineFailureDelivery _ | .instructionCompletion _ _ | .demandFetch _ | .faultRecordWrite _
  | .faultRecordRetry _ | .replay _ | .launchQueueWatch _ _ | .codeObjectLoad _ _ | .codeObjectUnload _ _
  | .queueVisit _ _ | .cooperativeAdmission _ | .gangReserve _ | .gangReserveTimeout _
  | .nodeConsumerDispatch _ | .retirementWriteback _ _ | .workgroupRetirement _ _
  | .invalidationRequest _ | .forcedPreemption _ _ _ | .engineDrainTimeout _ _ | .restore _
  | .workgroupAbort _ _ | .coreFence _ _ | .eccError _ _ | .sensorSample _ _ | .intervalEnd _
  | .grant _ _ | .debtReport _ _ | .stallSample _ _ | .loadSample _ _ _ _ _ _ _ | .stop _ _ | .resume _ _
  | .step _ _ _ | .breakpointMatch _ | .systemRegisterWrite _ _ _ _ | .stateExport | .restart | .release
  | .cxlMemRead _ _ | .cxlMemWrite _ _ | .remoteRequest _ _ _ | .flitReplay _ | .linkDown _ | .telemetry
  | .panWrite _ _ _ | .podIndex _ | .linkEnable _ | .recovery _ | .reset | .heartbeatMiss
  | .debuggerWrite _ _ _ | .configurationRequest _ | .getMeasurements | .pauseAndResumeFlits _ _
  | .msiXUnmask _ _ => []

end Sys2Proof

namespace Sys2Proof.Machine

open Sys2Proof

/-- What a crew's fetch buffer holds at its position. -/
inductive Fetch
  | misaligned
  | need (pos : Nat)                -- the block of this address is to be asked for; a pad has been skipped
  | word (bytes : List Byte)        -- the bytes from the position to the end of its block
  deriving DecidableEq, Repr

def Crew.fetchAt (cr : Crew) : Fetch :=
  let p := cr.pos.toNat
  if p % 4 ≠ 0 then .misaligned
  else match kfind (p / 32 * 32) cr.fbuf with
    | none => .need p
    | some bs =>
      let w := bs.drop (p % 32)
      if natOfBytes (w.take 1) % 4 = 3 then .need (p / 32 * 32 + 32) else .word w

/-! ## The word at a crew's position -/

/-- What decoding finds there: no word yet, a fault of the word itself (R89), or an instruction. -/
inductive Word
  | absent
  | bad
  | ok (i : Instr)
  deriving DecidableEq, Repr

def Crew.word (cr : Crew) : Word :=
  match cr.fetchAt with
  | .misaligned => .bad
  | .need _ => .absent
  | .word bs =>
    match decodeBytes bs.length bs with
    | .ok (i, _) => .ok i
    | .error _ => .bad

/-- Register numbers of R82, for the kernel that a word belongs to. -/
def Kernel.numbersOk (k : Kernel) (i : Instr) : Bool := i.groups.all (fun e => k.groupOk e.1 e.2)

/-- What else an entry checks of a word's fields alone: the opcodes of R88 and R125, the rule of handler mode (R413, R417), the
registers that MOVS, MOVSR and SETSR number (R117, R407), SETSR's source, the counts of REGROUP and EXITN, and the pairs of the
engine instructions. -/
def Kernel.fieldsOk (k : Kernel) (hmode : Bool) : Instr → Bool
  | .udf => false
  | .next _ | .bx _ _ | .bxc _ _ _ _ _ | .bxi _ _ | .call _ _ _ _ | .calli _ _ _ _ _ | .ret _ _ _ | .exit _
  | .yield _ _ | .gbar _ | .trap _ _ => !hmode
  | .exitn _ n _ => !hmode && decide (n.toNat ≤ k.vregs)
  | .copy _ _ dir dst src _ _ | .copy2d _ _ dir dst src _ _ =>
      (!dir.srcGlobal || (pairSrc k src).isSome) && (!dir.dstGlobal || (pairSrc k (.r dst)).isSome)
  | .cld _ _ _ src _ => (pairSrc k src).isSome
  | .regroup _ _ n => !hmode && decide (n.toNat ≤ k.vregs)
  | .rte _ => hmode
  | .tmark _ _ | .tdot _ _ _ _ _ _ => k.steppingOk
  | .movs h _ num => decide (num.toNat < 16) && !(h.uni && num.toNat == 0)
  | .movsr _ num _ => decide (num.toNat < 8)
  | .setsr _ num a => decide (num.toNat < 8) && (match a with
      | .r _ => true
      | .imm _ => false)
  | _ => true

/-- A fault of the word itself, which goes before anything else at the boundary (R409). A replay has decoded its word already. -/
def Crew.wordBad (cr : Crew) (k : Kernel) : Bool :=
  cr.replay.isNone &&
  (match cr.word with
    | .absent => false
    | .bad => true
    | .ok i => !(k.numbersOk i && k.fieldsOk cr.hmode i))

end Sys2Proof.Machine
end

