-- ==== Sys2Proof/Machine/Element.lean ====
section
/-! DEFINITION. The elements of LDT: widths and blocks of the page formats (R111), and the register that an element gives
(R251, R252). -/

namespace Sys2Proof.Machine

open Sys2Proof

/-- Bits of an element of a page format (R111); 0 for RAW and the reserved codes. -/
def fmtWidth (f : Nat) : Nat :=
  match f with
  | 0x01 | 0x04 | 0x05 | 0x07 => 8
  | 0x02 | 0x06 => 4
  | 0x03 => 2
  | 0x08 | 0x09 | 0x0B => 16
  | 0x0A | 0x0C => 32
  | _ => 0

/-- Elements of a block (R111). -/
def bgSize (g : Nat) : Nat := 16 * 2 ^ g

/-- The value of an element as a float would hold it; T2's 0b10 counts as 0. -/
def elemVal (f x : Nat) : FVal :=
  match f with
  | 0x01 => intVal 8 x
  | 0x02 => intVal 4 x
  | 0x03 => .fin (x == 3) (t2 x).natAbs 0
  | 0x04 => fval fE4M3 x
  | 0x05 => fval fE5M2 x
  | 0x06 => fval fE2M1 x
  | 0x08 => fval fF16 x
  | 0x09 => fval fBF16 x
  | 0x0A => fval fF32 x
  | 0x0B => intVal 16 x
  | 0x0C => intVal 32 x
  | _ => if x = 0xFF then .nan false else .fin false 1 ((x : Int) - 127)

def t2Nv (f x : Nat) : Fps := fpsIf (f == 3 && t2Bad x) fNV

/-- Widen(f, x) (R252). -/
def widen (f x : Nat) : W32 × Fps :=
  match f with
  | 0x01 => ((BitVec.ofNat 8 x).signExtend 32, 0)
  | 0x02 => ((BitVec.ofNat 4 x).signExtend 32, 0)
  | 0x03 => (BitVec.ofInt 32 (t2 x), t2Nv 3 x)
  | 0x0B => ((BitVec.ofNat 16 x).signExtend 32, 0)
  | 0x0A | 0x0C => (BitVec.ofNat 32 x, 0)
  | _ =>
    let r := match elemVal f x with
      | .nan b => fF32.nanRes b
      | .inf n => FRes.exact (fF32.inf n)
      | .fin n m e => roundF fF32 .rn false n m e
    (BitVec.ofNat 32 r.code, r.fps)

/-- SCL of an element under a scale byte (R252, R103). -/
def scaleElem (ftz : Bool) (f x e : Nat) : W32 × Fps :=
  if e = 0xFF then (0x7FC00000, 0)
  else
    let r := flushOut ftz fF32 (fScale fF32 .rn (elemVal f x) ((e : Int) - 127))
    (BitVec.ofNat 32 r.code, r.fps ||| t2Nv f x)

/-- The register of an element whose bytes are `bs`, with its scale byte where it has one. -/
def elemReg (ftz : Bool) (md : LdtMode) (fmt sh : Nat) (bs sc : List Byte) : W32 × Fps :=
  let v := natOfBytes bs / 2 ^ sh % 2 ^ fmtWidth fmt
  match md with
  | .wide => widen fmt v
  | .code => (BitVec.ofNat 32 v, 0)
  | .scl _ => scaleElem ftz fmt v (natOfBytes sc)

end Sys2Proof.Machine
end

