-- ==== Sys2Proof/Machine/Phys.lean ====
section
/-! DEFINITION. Storage and translation: system registers (R406), physical addresses (R208-R210), the fabric (R460, R461),
second-level slices (R212, R213), recalls (R247), context descriptors (R181), page walks (R182-R186), cluster TLBs (R221),
and what the Bench reads and writes through a context's translations (R185, R203). -/

namespace Sys2Proof.Machine

open Sys2Proof

/-! ## System registers (R406) -/

/-- DIECAP0-3 reset to 65,000,000, every other register to 0 (R404). -/
def sysregReset (num : Nat) : W64 := if 0x12 ≤ num ∧ num ≤ 0x15 then 65000000 else 0
def State.sysreg (s : State) (num sel : Nat) : W64 := kget (sysregReset num) (num * 65536 + sel) s.sysregs
def State.setSysreg (s : State) (num sel : Nat) (v : W64) : State :=
  { s with sysregs := kset (sysregReset num) (num * 65536 + sel) v s.sysregs }

/-! ## Physical addresses (R208-R210) -/

def localDev : Nat := 0x3FF
def hostDev : Nat := 0x3FE

/-- R209: the storage location of a local address, channel x 2^29 + offset, and whether through the channel window. -/
def localPlace (a : Nat) : Option (Nat × Bool) :=
  if a / 2 ^ 39 = 0 then
    if a < 0x6000000000 then
      let q := a / 4096 / 768
      let c := (a / 4096 % 768 + q * 0x9E3779B1 % 2 ^ 32 / 2 ^ 22) % 768
      some (c * 2 ^ 29 + q * 4096 + a % 4096, false)
    else none
  else if a / 2 ^ 39 = 1 ∧ a % 2 ^ 39 / 2 ^ 29 < 768 then some (a % 2 ^ 39, true)
  else none

/-- R208, R451: the storage key of a physical address, with its window; host memory has none. -/
def placeOf (pod : Option Nat) (pa : Nat) : Option (Nat × Option Bool) :=
  let dev := pa / 2 ^ 42
  let a := pa % 2 ^ 42
  let loc (d : Nat) := (localPlace a).map (fun r => (d * 2 ^ 42 + r.1, some r.2))
  if dev = localDev then loc localDev
  else if dev = hostDev then some (hostDev * 2 ^ 42 + a, none)
  else match pod with
    | none => none
    | some p => if dev = p then loc localDev else if dev < 576 then loc dev else none

def State.place (s : State) (pa : Nat) : Option (Nat × Option Bool) := placeOf s.pod pa
def State.key (s : State) (pa : Nat) : Option Nat := (s.place pa).map Prod.fst

/-- R210. -/
inductive Home
  | core (c : Nat)
  | peer (d : Nat)
  | host
  deriving DecidableEq, Repr

def homeOf (k : Nat) : Home :=
  let d := k / 2 ^ 42
  if d = localDev then .core (k % 2 ^ 42 / 2 ^ 29) else if d = hostDev then .host else .peer d

/-! ## Bytes of storage -/

/-- Consecutive bytes as (key, byte) pairs. -/
def bytesAt (k : Nat) : List Byte → List (Nat × Byte)
  | [] => []
  | b :: t => (k, b) :: bytesAt (k + 1) t

def sectorsOf (ws : List (Nat × Byte)) : List Nat := (ws.map (fun w => w.1 / 32)).foldl (fun l q => sins q l) []

/-- The 16 bytes of a block as a view under one key shows what is held under another: none is a view of raw storage (R183). -/
def convert (held key : Option Nat) (b : Nat) (bs : List Byte) : List Byte :=
  if held = key then bs
  else
    let raw := match held with
      | some f => Config.xts f b bs
      | none => bs
    ((match key with
      | some g => Config.unxts g b raw
      | none => raw) ++ List.replicate 16 0).take 16

/-- The 16-byte blocks of `n` bytes from `k`. -/
def spanBlocks (k n : Nat) : List Nat :=
  if n = 0 then [] else (List.range ((k + n - 1) / 16 - k / 16 + 1)).map (k / 16 + ·)

/-- Bytes of storage as they read under a key (R183). -/
def State.view (s : State) (key : Option Nat) (k n : Nat) : List Byte :=
  if (spanBlocks k n).all (fun b => kfind b s.crypt == key) then kbytes 0 s.mem k n
  else (List.range n).map (fun i =>
    let b := (k + i) / 16
    (convert (kfind b s.crypt) key b (kbytes 0 s.mem (16 * b) 16)).getD ((k + i) % 16) 0)

/-- A block is held under another key from now on. -/
def State.rekey (s : State) (key : Option Nat) (b : Nat) : State :=
  if kfind b s.crypt = key then s
  else { s with mem := kputBytes s.mem (16 * b) (convert (kfind b s.crypt) key b (kbytes 0 s.mem (16 * b) 16)),
                crypt := match key with
                  | some f => kput b f s.crypt
                  | none => kdel b s.crypt }

/-- R231: a masked write of distinct keys under a key; `bad` names the sectors whose data are poisoned. -/
def State.store (s : State) (key : Option Nat) (ws : List (Nat × Byte)) (bad : Nat → Bool) : State :=
  let s := ((ws.map (fun w => w.1 / 16)).foldl (fun l b => sins b l) []).foldl (fun s b => s.rekey key b) s
  { s with mem := ws.foldl (fun m w => kset 0 w.1 w.2 m) s.mem,
           poison := (sectorsOf ws).foldl (fun l q =>
             if bad q then sins q l
             else if (ws.filter (fun w => w.1 / 32 == q)).length = 32 then sdel q l else l) s.poison }

/-- The sectors of `n` bytes from `k`. -/
def spanSectors (k n : Nat) : List Nat :=
  if n = 0 then [] else (List.range ((k + n - 1) / 32 - k / 32 + 1)).map (k / 32 + ·)
/-- A poisoned sector, or one of a failed slice or channel (R207, R229). -/
def State.badSector (s : State) (q : Nat) : Bool :=
  smem q s.poison || (!s.failed.isEmpty && decide (q * 32 / 2 ^ 42 = localDev) && s.failed.contains (q * 32 % 2 ^ 42 / 2 ^ 29))
def State.poisoned (s : State) (k n : Nat) : Bool := (spanSectors k n).any s.badSector

/-! ## On whose behalf (R347, R348) -/

/-- A workgroup whose slot is free, or another's by now, is charged late (R461). -/
def State.bill (s : State) (p : Payer) (pl : Place) (cls n : Nat) : State :=
  match p with
  | .slot c w ctx id => if ((s.wg? c w).map Wg.id) = some id then s.charge c w pl cls n else s.chargeLate ctx pl cls n
  | .house => s.chargeHouse pl cls n

/-- Who makes an access: a core for a context, and the crew whose instruction it is, or the Bench (`bench`), whose accesses
ignore USR (R185). -/
structure Acc where
  payer : Payer
  core  : Nat
  ctx   : Nat
  func  : Nat
  conf  : Bool
  bench : Bool
  crew  : Option CrewId := none
  deriving DecidableEq, Repr

def Acc.cluster (a : Acc) : Nat := a.core / 8

/-- Accesses of the Bench at physical addresses. -/
def Acc.part : Acc := { payer := .house, core := 0, ctx := 0, func := 0, conf := false, bench := true }

def State.tally (s : State) (a : Acc) (ev : Nat) : State := if a.bench then s else s.count a.core a.ctx a.conf ev 1

/-! ## The fabric (R460) -/

/-- The places left on the way from `a` to `b` along one axis. -/
def leaves (a b : Nat) : List Nat :=
  if a ≤ b then (List.range (b - a)).map (a + ·) else (List.range (a - b)).map (a - ·)

/-- The clusters that a beat leaves on die `d`, along its row and then its column. -/
def meshPath (d x1 y1 x2 y2 : Nat) : List Nat :=
  (leaves x1 x2).map (fun x => 24 * d + 6 * y1 + x) ++ (leaves y1 y2).map (fun y => 24 * d + 6 * y + x2)

def State.hops (s : State) (p : Payer) (path : List Nat) (n : Nat) : State :=
  path.foldl (fun s k => s.bill p (.core (8 * k)) 11 n) s

/-- `n` beats from cluster `a` to cluster `b`. -/
def State.beats (s : State) (p : Payer) (a b n : Nat) : State :=
  let s := s.hops p (meshPath (a / 24) (a % 6) (a % 24 / 6) (b % 6) (b % 24 / 6)) n
  if a / 24 = b / 24 then s else s.bill p .substrate 12 n

/-- `n` beats between a cluster and the substrate port of its die. -/
def State.beatsOut (s : State) (p : Payer) (a n : Nat) : State :=
  (s.hops p (meshPath (a / 24) (a % 6) (a % 24 / 6) 0 0) n).bill p .substrate 12 n
def State.beatsIn (s : State) (p : Payer) (b n : Nat) : State :=
  (s.hops p (meshPath (b / 24) 0 0 (b % 6) (b % 24 / 6)) n).bill p .substrate 12 n

/-- The physical address that the error log gives for a storage key: the channel window's (R209). -/
def paOfKey (k : Nat) : Nat :=
  if k / 2 ^ 42 = hostDev then k else k / 2 ^ 42 * 2 ^ 42 + 2 ^ 39 + k % 2 ^ 39

/-- The link that a request for a line takes: its plane, or the next one up (R448; assumption 62). -/
def State.linkOf (s : State) (ln : Nat) : Nat :=
  let p := paOfKey (128 * ln) / 128 % 2 ^ 45 * 0x9E3779B1 % 2 ^ 32 % 36
  let up (i : Nat) : Bool := (s.links.getD i Link.zero).up
  (((List.range 36).map (fun i => (p + i) % 36)).find? up).getD p

/-- A link carries no flit: it is paused, or it is not up (R448, R453). -/
def State.linkStops (s : State) (i : Nat) : Bool := (s.links.getD i Link.zero).paused || !(s.links.getD i Link.zero).up

/-- A flit is sent for a line, at the cost of its sender, and its acknowledgement arrives (R345, R348). A link that is paused or
not up sends none: the step waits (R448). -/
def State.flit (s : State) (p : Payer) (ln : Nat) : State :=
  let i := s.linkOf ln
  { s with links := lmod s.links i (fun l => { l with sender := p, replays := 0, heard := s.refclk }),
           blocked := s.blocked || s.linkStops i }.bill p .substrate 17 1

/-! ## First-level lines -/

def Core.l1Set (co : Core) (lva : Nat) : List Line := kget [] (lva % 128) co.l1
def Core.l1Find (co : Core) (ctx lva : Nat) : Option Line :=
  (co.l1Set lva).find? (fun l => l.ctx == ctx && l.lva == lva)
def Core.l1Del (co : Core) (ctx lva : Nat) : Core :=
  { co with l1 := kset [] (lva % 128) ((co.l1Set lva).filter (fun l => !(l.ctx == ctx && l.lva == lva))) co.l1 }
/-- Put a line in place of the one of its address, as the most recently used of its set. -/
def Core.l1Put (co : Core) (l : Line) : Core :=
  let others := (co.l1Set l.lva).filter (fun m => !(m.ctx == l.ctx && m.lva == l.lva))
  { co with l1 := kset [] (l.lva % 128) (l :: others) co.l1 }
/-- Change a line where it stands. -/
def Core.l1Mod (co : Core) (ctx lva : Nat) (f : Line → Line) : Core :=
  let set := (co.l1Set lva).map (fun l => if l.ctx == ctx && l.lva == lva then f l else l)
  { co with l1 := kset [] (lva % 128) set co.l1 }
def Core.lines (co : Core) : List Line := co.l1.flatMap Prod.snd
def Core.copyOf (co : Core) (ln : Nat) : Option Line := co.lines.find? (fun l => l.pa == ln)

/-- The dirty bytes of a line as (key, byte) pairs. -/
def Line.dirtyBytes (l : Line) : List (Nat × Byte) :=
  (bitsOf l.dirty).map (fun i => (l.pa * 128 + i, kget 0 i l.bytes))
def Line.badSector (l : Line) (q : Nat) : Bool := l.poison.getLsbD (q % 4)
def Line.dirtySectors (l : Line) : Nat :=
  ((List.range 4).filter (fun q => l.dirty.extractLsb' (32 * q) 32 != 0)).length
/-- The crews whose bytes a sector's dirty bytes are. -/
def Line.writersOf (l : Line) (q : Nat) : List CrewId :=
  (l.writers.filter (fun e => l.dirty.getLsbD e.1 && (l.pa * 128 + e.1) / 32 == q)).map Prod.snd

/-- The selected bytes are no longer dirty. In a sector that no fill has made valid, the valid bytes are the dirty bytes (R214). -/
def Line.clean (l : Line) (m : BitVec 128) : Line :=
  let d := l.dirty &&& ~~~m
  { l with dirty := d, writers := l.writers.filter (fun e => d.getLsbD e.1),
           bytes := l.bytes.filter (fun e => l.valid.getLsbD (e.1 / 32) || d.getLsbD e.1) }
def Line.cleanAll (l : Line) : Line := l.clean (BitVec.allOnes 128)

/-! ## Scratchpad bytes, and the stash lines that stand in them (R218, R219) -/

def Wg.scrRead (w : Wg) (off n : Nat) : List Byte := kbytes 0 w.scr off n
def Wg.scrBad (w : Wg) (off n : Nat) : Bool := (spanSectors off n).any (fun q => smem q w.scrPoison)
/-- A write; a sector written whole with good data is good (R231). -/
def Wg.scrWrite (w : Wg) (off : Nat) (bs : List Byte) : Wg :=
  let full := (spanSectors off bs.length).filter (fun q => decide (off ≤ 32 * q) && decide (32 * q + 32 ≤ off + bs.length))
  { w with scr := kputBytes w.scr off bs, scrPoison := full.foldl (fun l q => sdel q l) w.scrPoison }

def State.scrRead (s : State) (c w off n : Nat) : List Byte :=
  match s.wg? c w with
  | some x => x.scrRead off n
  | none => []
def State.scrBad (s : State) (c w off n : Nat) : Bool :=
  match s.wg? c w with
  | some x => x.scrBad off n
  | none => false
def State.scrWrite (s : State) (c w off : Nat) (bs : List Byte) : State := s.modWg c w (·.scrWrite off bs)

/-- The bytes of a stash line stand in the scratchpad (R219). -/
def State.stashLine (s : State) (c : Nat) (w : Window) (i : Nat) (l : Line) : Line :=
  let off := w.off + 128 * i
  { l with bytes := (s.scrRead c w.wg off 128).mapIdx (fun j b => (j, b)),
           poison := maskOf 4 ((List.range 4).filter (fun q => s.scrBad c w.wg (off + 32 * q) 32)) }

/-- The filled stash lines of a core: window, place, line. -/
def State.stashLines (s : State) (c : Nat) : List (Nat × Nat × Line) :=
  (s.core c).windows.flatMap (fun e => e.2.lines.map (fun l => (e.1, l.1, s.stashLine c e.2 l.1 l.2)))

def Core.stashMod (co : Core) (wi i : Nat) (f : Line → Line) : Core :=
  { co with windows := kmod wi (fun w => { w with lines := kmod i f w.lines }) co.windows }
def Core.stashDel (co : Core) (wi i : Nat) : Core :=
  { co with windows := kmod wi (fun w => { w with lines := kdel i w.lines }) co.windows }

/-! ## Second-level slices (R212, R213) -/

def L2Sb.zero : L2Sb where
  present := 0
  dirty := 0
  owner := List.replicate 4 none
  cmp := 0
  fmt := 0
  bg := 0
  hint := .normal
  used := 0

/-- FMT as the codec takes it: a reserved one as RAW (R111). -/
def codecFmt (f : Nat) : Nat := if f ≤ 0x0C then f else 0

def sbCore (sb : Nat) : Nat := sb * 512 % 2 ^ 42 / 2 ^ 29
def State.sbSegs (s : State) (sb : Nat) (x : L2Sb) : Nat :=
  ((List.range 4).map (fun i =>
    if x.present.getLsbD i then
      if x.cmp.getLsbD i then Config.l2Segs (kbytes 0 s.mem (sb * 512 + 128 * i) 128) (codecFmt x.fmt) x.bg % 4 + 1 else 4
    else 0)).foldl (· + ·) 0

def State.l2Has (s : State) (ln : Nat) : Bool :=
  match kfind (ln / 4) s.l2 with
  | some x => x.present.getLsbD (ln % 4)
  | none => false

/-- The core that holds a line exclusively (R212, R247). -/
def State.ownerOf (s : State) (ln : Nat) : Option Nat :=
  match homeOf (ln * 128) with
  | .core _ => match kfind (ln / 4) s.l2 with
    | some x => x.owner.getD (ln % 4) none
    | none => none
  | .host => (s.cores.find? (fun e => e.2.lines.any (fun l => l.pa == ln && l.excl))).map Prod.fst
  | .peer _ => none
def State.setOwner (s : State) (ln : Nat) (o : Option Nat) : State :=
  { s with l2 := kmod (ln / 4) (fun x => { x with owner := x.owner.set (ln % 4) o }) s.l2 }

/-- What a slice does for an access to a line, and its charges. How the line is stored follows the page of the access; an access by
physical address leaves it as it is, and has an absent line stored in 4 segments (R212). -/
def State.l2Use (s : State) (a : Acc) (ln : Nat) (write full : Bool) (segs : Nat) (at_ : Attr) : State :=
  let c := ln * 128 % 2 ^ 42 / 2 ^ 29
  let s := s.bill a.payer (.core c) 7 segs
  let s := if s.l2Has ln || (write && full) then s else (s.bill a.payer (.core c) 8 4).tally a 8
  let x := (kfind (ln / 4) s.l2).getD L2Sb.zero
  let bit : BitVec 4 := 1#4 <<< (ln % 4)
  let packed := if at_.page then at_.cmp else x.cmp &&& x.present &&& bit != 0
  { s with fresh := s.fresh + 1,
           l2 := kput (ln / 4) { x with present := x.present ||| bit, dirty := if write then x.dirty ||| bit else x.dirty,
                                        cmp := if packed then x.cmp ||| bit else x.cmp &&& ~~~bit,
                                        fmt := if at_.cmp then at_.fmt else x.fmt, bg := if at_.cmp then at_.bg else x.bg,
                                        used := s.fresh } s.l2 }

/-- The charges of the data of an access that travels between a core and a line's home, and what the slice does. -/
def State.travel (s : State) (a : Acc) (ln : Nat) (write full : Bool) (segs : Nat) (at_ : Attr) : State :=
  match homeOf (ln * 128) with
  | .core c =>
    let s := s.l2Use a ln write full segs at_
    if a.bench then s
    else if write then s.beats a.payer a.cluster (c / 8) segs else s.beats a.payer (c / 8) a.cluster segs
  | .peer _ =>
    let s := s.flit a.payer ln
    if write then s.beatsOut a.payer a.cluster segs else s.beatsIn a.payer a.cluster segs
  | .host =>
    let s := s.bill a.payer .substrate 18 1
    if a.bench then s
    else if write then s.beatsOut a.payer a.cluster segs else s.beatsIn a.payer a.cluster segs

/-- `whole`: the write of which these bytes are a part covers its line (R212). -/
def State.acceptRaw (s : State) (a : Acc) (at_ : Attr) (ws : List (Nat × Byte)) (bad : Nat → Bool) (whole : Bool := false) : State :=
  match ws with
  | [] => s
  | w :: _ => (s.travel a (w.1 / 128) true (whole || ws.length == 128) (sectorsOf ws).length at_).store at_.key ws bad

/-- The dirty bytes of a core's line travel to the home and are accepted (R215). -/
def State.sendDirty (s : State) (a : Acc) (l : Line) : State :=
  if l.dirty = 0 then s
  else (s.bill a.payer (.core a.core) 5 l.dirtySectors).acceptRaw a l.at_ l.dirtyBytes l.badSector

/-- R247: the owner gives the line up, with its data. -/
def State.recall (s : State) (a : Acc) (ln : Nat) : State :=
  match s.ownerOf ln with
  | none => s
  | some c =>
    match (s.core c).copyOf ln with
    | none => s.setOwner ln none
    | some l => ((s.sendDirty { a with core := c, bench := false } l).modCore c (·.l1Del l.ctx l.lva)).setOwner ln none

/-! ### Eviction from a slice (R213, R232) -/

def hintRank : HClass → Nat
  | .ef => 0
  | .normal => 1
  | .el => 2

/-- The superblock of a list that goes first: the first non-empty class, and in it the least recently used. -/
def l2Victim : List (Nat × L2Sb) → Option (Nat × L2Sb)
  | [] => none
  | e :: t =>
    match l2Victim t with
    | none => some e
    | some f =>
      if hintRank e.2.hint < hintRank f.2.hint ∨ (hintRank e.2.hint = hintRank f.2.hint ∧ e.2.used ≤ f.2.used) then some e
      else some f

def State.l2Evict (s : State) (a : Acc) (sb : Nat) : State :=
  let s := (List.range 4).foldl (fun s i => s.recall a (sb * 4 + i)) s
  match kfind sb s.l2 with
  | none => s
  | some x =>
    { (s.bill a.payer (.core (sbCore sb)) 9 (4 * (bitsOf x.dirty).length)) with l2 := kdel sb s.l2 }

/-- One eviction from the set of `sb` if its tags or segments have run out. -/
def State.l2Trim1 (s : State) (a : Acc) (sb : Nat) : State :=
  let slice := s.l2.filter (fun e => sbCore e.1 == sbCore sb && homeOf (e.1 * 512) == homeOf (sb * 512))
  if slice.length ≤ 8 then s
  else
    let set := slice.filter (fun e => Config.l2Set e.1 % 256 == Config.l2Set sb % 256)
    if set.length ≤ 16 ∧ (set.map (fun e => s.sbSegs e.1 e.2)).foldl (· + ·) 0 ≤ 128 then s
    else match l2Victim (set.filter (fun e => e.1 != sb)) with
      | some v => s.l2Evict a v.1
      | none => s
def State.l2Trim (s : State) (a : Acc) (ln : Nat) : State :=
  (List.range 17).foldl (fun s _ => s.l2Trim1 a (ln / 4)) s

/-! ### Lines of host memory (R444) -/

/-! ## Context descriptors (R181), and what is noted of the lines that the Bench uses (R227, R353, R361) -/

/-- What the home would serve, read by the device itself: an exclusive owner's bytes are the newest. -/
def State.peek (s : State) (k n : Nat) : List Byte :=
  if (spanSectors k n).all (fun q => (s.ownerOf (q / 4)).isNone) then s.view none k n
  else ((spanSectors k n).foldl (fun s q => s.recall Acc.part (q / 4)) s).view none k n
def State.peekNat (s : State) (k n : Nat) : Nat := natOfBytes (s.peek k n)

structure CtxDesc where
  valid : Bool
  conf  : Bool
  func  : Nat
  root  : Nat
  btab  : Nat
  fq    : W64
  clean : Bool             -- reserved bits are zero
  deriving DecidableEq, Repr

/-- R181. The low bits of ROOT and BTAB, which the rule says are zero, are left out of the addresses (assumption 90). -/
def CtxDesc.ofNat (v : Nat) : CtxDesc where
  valid := v.testBit 0
  conf := v.testBit 1
  func := v / 2 ^ 10 % 64
  root := v / 2 ^ 64 % 2 ^ 52 / 4096 * 4096
  btab := v / 2 ^ 128 % 2 ^ 52 / 2048 * 2048
  fq := BitVec.ofNat 64 (v / 2 ^ 192)
  clean := v / 4 % 2 ^ 8 == 0 && v / 2 ^ 16 % 2 ^ 48 == 0 && v / 2 ^ 116 % 2 ^ 12 == 0 && v / 2 ^ 180 % 2 ^ 12 == 0

/-- The descriptor of a context, where CTXBASE names storage and the sector is not poisoned. -/
def State.ctxDesc (s : State) (ctx : Nat) : Option CtxDesc :=
  match s.key ((s.sysreg 0x10 0).toNat + 32 * ctx) with
  | none => none
  | some k => if s.poisoned k 32 then none else some (CtxDesc.ofNat (s.peekNat k 32))

/-- R184: page size and frame of a leaf found at a level, if its condition holds. -/
def leafFrame (level va e : Nat) : Option (Nat × Nat) :=
  let pa := e / 2 ^ 12 % 2 ^ 40 * 4096
  match level with
  | 0 => if !e.testBit 7 then some (2 ^ 12, pa)
         else if pa / 2 ^ 12 % 16 = va / 2 ^ 12 % 16 then some (2 ^ 16, pa / 2 ^ 16 * 2 ^ 16) else none
  | 1 => if pa % 2 ^ 21 = 0 then some (2 ^ 21, pa) else none
  | 2 => if pa % 2 ^ 30 = 0 then some (2 ^ 30, pa) else none
  | _ => none

/-- Reserved bits of an entry (R183). -/
def pteReserved (leaf : Bool) (e : Nat) : Bool :=
  e / 2 ^ 60 != 0 || e.testBit 11 || (!leaf && (e / 2 ^ 52 % 256 != 0 || e / 16 % 128 != 0))

/-- Where an address lies by the tables, from a level down; nothing is read through the fabric. -/
def State.lookup (s : State) (va : Nat) : Nat → Nat → Option Nat
  | level, table =>
    match s.key (table + 8 * (va / 2 ^ (12 + 9 * level) % 512)) with
    | none => none
    | some k =>
      let e := s.peekNat k 8
      let leaf := level == 0 || e.testBit 7
      if !e.testBit 0 || pteReserved leaf e then none
      else if leaf then (leafFrame level va e).bind (fun f => s.key (f.2 + va % f.1))
      else match level with
        | 0 => none
        | l + 1 => State.lookup s va l (e / 2 ^ 12 % 2 ^ 40 * 4096)

/-- The storage line of a context's fault-queue header. -/
def State.fqLine (s : State) (ctx : Nat) : Option Nat :=
  (s.ctxDesc ctx).bind (fun d => (s.lookup d.fq.toNat 4 d.root).map (· / 128))

/-- The storage key of a function's pan (R353). -/
def State.panKey (s : State) (func : Nat) : Option Nat :=
  if func = 0 then none else s.key ((s.sysreg 0x11 0).toNat + 64 * func)

/-- Writes to these keys have been accepted: a fault queue that failed may be tried again (R227), EN of a pan may have been 0 (R353),
and the exact values of a pan follow a store to them (R353, R361). -/
def State.noted (s : State) (ws : List (Nat × Byte)) : State :=
  let hit (k n : Nat) : Bool := ws.any (fun w => decide (k ≤ w.1) && decide (w.1 < k + n))
  let s := if s.fqFailed.isEmpty then s else
    { s with fqFailed := kmap (fun c b => b || (match s.fqLine c with
        | some ln => ws.any (fun w => w.1 / 128 == ln)
        | none => false)) s.fqFailed }
  let s := if s.panEn.isEmpty then s else
    { s with panEn := s.panEn.filter (fun f => match s.panKey f with
        | some k => !hit (k + 0x30) 1 || (s.peekNat (k + 0x30) 1).testBit 0
        | none => true) }
  if s.panHold.isEmpty then s else
    { s with panHold := kmap (fun f h => match s.panKey f with
        | some k => { bal := if hit k 8 then asInt true 64 (s.peekNat k 8) else h.bal,
                      gr := if hit (k + 0x28) 8 then s.peekNat (k + 0x28) 8 else h.gr }
        | none => h) s.panHold }

/-! ## Accesses at the home (R210, R272) -/

/-- A masked write is accepted at the home, within one line. -/
def State.acceptAt (s : State) (a : Acc) (at_ : Attr) (ws : List (Nat × Byte)) (bad : Nat → Bool) (whole : Bool := false) : State :=
  match ws with
  | [] => s
  | w :: _ => (((s.recall a (w.1 / 128)).acceptRaw a at_ ws bad whole).noted ws).l2Trim a (w.1 / 128)

/-! ### Writes on their way (R270, R273) -/

def Flight.acc (f : Flight) : Acc :=
  { payer := f.payer, core := f.core, ctx := f.ctx, func := f.func, conf := f.conf, bench := false }
def Flight.line (f : Flight) : Nat := (f.ws.head?.map (fun w => w.1 / 128)).getD 0

/-- The write of an instruction, not of an engine command. -/
def Flight.own (f : Flight) : Bool := f.eng.isNone

/-- The selected writes of instructions are accepted, oldest first. -/
def State.landFlights (s : State) (p : Flight → Bool) : State :=
  (s.flight.filter (fun f => f.own && p f)).foldl (fun s f => s.acceptAt f.acc f.at_ f.ws (fun _ => f.bad) f.whole)
    { s with flight := s.flight.filter (fun f => !(f.own && p f)) }

/-- What a core has sent of a line reaches the home before the core's next access there (R243). -/
def State.landOwn (s : State) (a : Acc) (ln : Nat) : State :=
  if a.bench then s else s.landFlights (fun f => f.core == a.core && f.line == ln)

/-- A FENCE or a release of a core waits for every write that its crews have on its way. -/
def State.holdFor (s : State) (c : Nat) : State :=
  { s with flight := s.flight.map (fun f => if f.own && f.core == c then { f with must := true } else f) }

/-- Every write of a core's crews has been accepted. -/
def State.landCore (s : State) (c : Nat) : State := s.landFlights (fun f => f.core == c)

/-- A masked write of a core, or of engine command `eng`, sets out; its sectors are accepted each in its own time (R273). `who`:
the crews whose bytes a sector's are. -/
def State.sendOff (s : State) (a : Acc) (at_ : Attr) (ws : List (Nat × Byte)) (bad : Nat → Bool) (who : Nat → List CrewId)
    (must : Bool) (eng : Option Nat := none) : State :=
  { s with flight := s.flight ++ (sectorsOf ws).map (fun q =>
      { core := a.core, payer := a.payer, writers := who q, ctx := a.ctx, func := a.func, conf := a.conf, at_ := at_,
        ws := ws.filter (fun w => w.1 / 32 == q), bad := bad q, whole := ws.length == 128, must := must, eng := eng }) }

/-! ### Lines of host memory (R444) -/

/-- A core has a copy of a line, in its first level or in a stash window. -/
def State.hasCopy (s : State) (c ln : Nat) : Bool :=
  ((s.core c).copyOf ln).isSome || (s.core c).windows.any (fun w => w.2.lines.any (fun l => l.2.pa == ln))

/-- The copies of a host line go: what is dirty is written back first, after what its core has sent of the line before. -/
def State.dropHost (s : State) (a : Acc) (ln : Nat) : State :=
  (kkeys s.cores).foldl (fun s c =>
    let b : Acc := { a with core := c, bench := false }
    let s := if s.hasCopy c ln then s.landOwn b ln else s
    let s := match (s.core c).copyOf ln with
      | some l => (s.sendDirty b l).modCore c (·.l1Del l.ctx l.lva)
      | none => s
    match (s.stashLines c).find? (fun e => e.2.2.pa == ln) with
    | some e => (s.sendDirty b e.2.2).modCore c (·.stashDel e.1 e.2.1)
    | none => s) s

/-- The device holds a host line while a core has a copy of it, and the lines that the Bench has used (R380): at most 4,096 at once,
and the oldest goes first. This is before a core takes a copy, or the Bench uses the line. -/
def State.holdHost (s : State) (a : Acc) (ln : Nat) : State :=
  if homeOf (ln * 128) ≠ .host then s
  else
    let held := s.hostHeld.filter (fun e => e.2 || (kkeys s.cores).any (fun c => s.hasCopy c e.1))
    if held.any (fun e => e.1 == ln) then
      { s with hostHeld := held.map (fun e => if e.1 == ln then (ln, e.2 || a.bench) else e) }
    else match held with
      | old :: t =>
        if t.length < 4095 then { s with hostHeld := held ++ [(ln, a.bench)] }
        else { s.dropHost a old.1 with hostHeld := t ++ [(ln, a.bench)] }
      | [] => { s with hostHeld := [(ln, a.bench)] }

def State.benchHolds (s : State) (a : Acc) (ln : Nat) : State := if a.bench then s.holdHost a ln else s

/-! ### Accesses of a core, of an engine and of the Bench -/

/-- A read at the home of bytes of one line: bytes, and whether a sector of them is poisoned. -/
def State.serveRead (s : State) (a : Acc) (at_ : Attr) (k n : Nat) : State × List Byte × Bool :=
  let s := (s.benchHolds a (k / 128)).recall a (k / 128)
  let s := (s.travel a (k / 128) false false (spanSectors k n).length at_).l2Trim a (k / 128)
  (s, s.view at_.key k n, s.poisoned k n)

/-- The same for a core's own access: what it has sent of the line comes first (R243). -/
def State.homeRead (s : State) (a : Acc) (at_ : Attr) (k n : Nat) : State × List Byte × Bool :=
  (s.landOwn a (k / 128)).serveRead a at_ k n

/-- A masked write at the home, within one line, accepted at once. -/
def State.homeWrite (s : State) (a : Acc) (at_ : Attr) (ws : List (Nat × Byte)) (bad : Nat → Bool) : State :=
  match ws with
  | [] => s
  | w :: _ => ((s.landOwn a (w.1 / 128)).benchHolds a (w.1 / 128)).acceptAt a at_ ws bad

/-- R215: write-back of a line of core `a.core`, accepted at once; a line that another core owns is recalled first (R247). -/
def State.writeBack (s : State) (a : Acc) (l : Line) : State :=
  if l.dirty = 0 then s
  else
    let s := s.landOwn a l.pa
    ((if l.excl then s.sendDirty a l else ((s.recall a l.pa).sendDirty a l).noted l.dirtyBytes)).l2Trim a l.pa

/-- Write-back of a line, which sets out; an exclusively held line's bytes have been accepted already (R270). -/
def State.writeOff (s : State) (a : Acc) (l : Line) (must : Bool) : State :=
  if l.dirty = 0 then s
  else if l.excl then s.writeBack a l
  else ((s.landOwn a l.pa).bill a.payer (.core a.core) 5 l.dirtySectors).sendOff a l.at_ l.dirtyBytes l.badSector l.writersOf must

/-! ### Writes of engine commands (R282) -/

/-- Remove a line of the first level, ending its ownership. -/
def State.dropLine (s : State) (c : Nat) (l : Line) : State :=
  (if l.excl then s.setOwner l.pa none else s).modCore c (·.l1Del l.ctx l.lva)

/-- The issuing core's copy of a line goes when an engine's write of it is accepted; its other dirty bytes are written back
first. -/
def State.engTake (s : State) (a : Acc) (ws : List (Nat × Byte)) : State :=
  let ln := (ws.head?.map (fun w => w.1 / 128)).getD 0
  let m : BitVec 128 := maskOf 128 (ws.map (fun w => w.1 % 128))
  match (s.core a.core).copyOf ln with
  | some l => (s.writeBack a { l with dirty := l.dirty &&& ~~~m }).dropLine a.core l
  | none =>
    match (s.stashLines a.core).find? (fun e => e.2.2.pa == ln) with
    | some e => (s.writeBack a { e.2.2 with dirty := e.2.2.dirty &&& ~~~m }).modCore a.core (·.stashDel e.1 e.2.1)
    | none => s

/-- A write that has been on its way is accepted. -/
def State.takeFlight (s : State) (f : Flight) : State :=
  (if f.own then s else s.engTake f.acc f.ws).acceptAt f.acc f.at_ f.ws (fun _ => f.bad) f.whole

/-- The `i`-th write on its way is accepted, where no earlier one of its engine command to the line is still to come (R317). -/
def State.acceptOne (s : State) (i : Nat) : State :=
  match s.flight[i]? with
  | some f =>
    if (s.flight.take i).any (fun e => !e.own && e.core == f.core && e.eng == f.eng && e.line == f.line) then s
    else { s with flight := s.flight.eraseIdx i }.takeFlight f
  | none => s

/-- Writes of an engine command are accepted, oldest first: all, or those to homes on the core's own die (R282). -/
def State.landEng (s : State) (core id : Nat) (all : Bool) : State :=
  let p (f : Flight) : Bool := f.core == core && f.eng == some id &&
    (all || (match homeOf (128 * f.line) with
      | .core c => c / 192 == core / 192
      | _ => false))
  (s.flight.filter p).foldl State.takeFlight { s with flight := s.flight.filter (fun f => !p f) }

/-- Every write that is on its way is accepted, oldest first. -/
def State.landAll (s : State) : State := s.flight.foldl State.takeFlight { s with flight := [] }

/-! ## Contexts (R179, R181) -/

/-- The contexts of whose descriptors storage, or a line that a core holds exclusively, lists a byte. -/
def State.ctxListed (s : State) : List Nat :=
  let base := (s.sysreg 0x10 0).toNat
  let keys := s.mem.map Prod.fst ++
    s.cores.flatMap (fun c => (c.2.lines.filter Line.excl).flatMap (fun l => (List.range 4).map (fun q => l.pa * 128 + 32 * q)))
  (List.range 33).flatMap (fun i =>
    let pa := base / 4096 * 4096 + 4096 * i
    match s.key pa with
    | none => []
    | some k => keys.filterMap (fun x =>
        let a := pa + (x - k)
        if k ≤ x ∧ x < k + 4096 ∧ base ≤ a ∧ a < base + 131072 then some ((a - base) / 32) else none))

/-- VALID of every entry of a binding table is cleared (R179). -/
def State.clearBindings (s : State) (d : CtxDesc) : State :=
  match s.key d.btab with
  | none => s
  | some k => (List.range 64).foldl (fun s i =>
      let x := s.peekNat (k + 32 * i + 25) 1
      if x.testBit 0 then s.homeWrite Acc.part Attr.plain (bytesAt (k + 32 * i + 25) (bytesOfNat 1 (x - 1))) (fun _ => false) else s) s

/-- A context is created when its VALID goes from 0 to 1: its bindings are not in force, and its account is 0 (R179, R343). -/
def State.watchContexts (s : State) : State :=
  ((s.ctxListed).foldl (fun l c => sins c l) s.liveCtx).foldl (fun s c =>
    match (s.ctxDesc c).filter CtxDesc.valid with
    | none => { s with liveCtx := sdel c s.liveCtx }
    | some d =>
      if smem c s.liveCtx then s
      else { s with liveCtx := sins c s.liveCtx, accounts := kdel c s.accounts, confAcc := kdel c s.confAcc }.clearBindings d) s

/-! ## Walks (R182-R186) -/

inductive Xl
  | ok (t : TlbEntry)
  | fault (cause level : Nat)
  | poison
  deriving DecidableEq, Repr

/-- R185: rights by the kind of access. -/
def grants (a : Acc) (t : TlbEntry) (write exec : Bool) : Bool :=
  (!t.conf || a.conf) &&
    (if a.bench then !write || t.w else t.u && (!write || t.w) && (!exec || t.x))

/-- The leaf's physical address must lie in the window that PLC names (R209); host memory has no window. -/
def State.leafPlace (s : State) (plc : Bool) (pa : Nat) : Bool :=
  match s.place pa with
  | none => false
  | some (_, none) => true
  | some (_, some w) => w == plc

/-- A leaf entry `e` read at storage key `k`: R184, R209, then the A and D updates of R186. -/
def State.walkLeaf (s : State) (a : Acc) (va : Nat) (write : Bool) (level k e : Nat) (w x u : Bool) : State × Xl :=
  match leafFrame level va e with
  | none => (s, .fault 0x10 level)
  | some (size, pa) =>
    if !s.leafPlace (e.testBit 9) (pa + va % size) then (s, .fault 0x10 level)
    else
      let t : TlbEntry :=
        { key := if e.testBit 6 then a.func else a.ctx, glob := e.testBit 6, va := va / size * size, size := size, pa := pa,
          w := w, x := x, u := u, fmt := e / 2 ^ 52 % 64, bg := e / 2 ^ 58 % 4, cmp := e.testBit 8, plc := e.testBit 9,
          conf := e.testBit 10, acc := true, d := e.testBit 5, leaf := k, level := level }
      let setD := write && grants a t true false
      let e' := e ||| 0x10 ||| (if setD then 0x20 else 0)
      let s := if e' = e then s else s.homeWrite a Attr.plain (bytesAt k (bytesOfNat 8 e')) (fun _ => false)
      (s, .ok { t with d := t.d || setD })

/-- One level of the walk: the next table with the rights so far, or the end. -/
def State.walkStep (s : State) (a : Acc) (va : Nat) (write : Bool) (level table : Nat) (w x u : Bool) :
    State × (Xl ⊕ (Nat × Bool × Bool × Bool)) :=
  match s.key (table + 8 * (va / 2 ^ (12 + 9 * level) % 512)) with
  | none => (s, .inl (.fault 0x10 level))
  | some k =>
    let r := s.homeRead a Attr.plain k 8
    let s := match homeOf k with
      | .core c => r.1.bill a.payer (.core c) 10 1
      | _ => r.1.bill a.payer .substrate 10 1
    if r.2.2 then (s, .inl .poison)
    else
      let e := natOfBytes r.2.1
      let leaf := level == 0 || e.testBit 7
      if !e.testBit 0 || pteReserved leaf e then (s, .inl (.fault 0x10 level))
      else
        let w := w && e.testBit 1
        let x := x && e.testBit 2
        let u := u && e.testBit 3
        if leaf then
          let q := s.walkLeaf a va write level k e w x u
          (q.1, .inl q.2)
        else (s, .inr (e / 2 ^ 12 % 2 ^ 40 * 4096, w, x, u))

def State.walkFrom (a : Acc) (va : Nat) (write : Bool) : Nat → Nat → Bool → Bool → Bool → State → State × Xl
  | 0, table, w, x, u, s =>
    match s.walkStep a va write 0 table w x u with
    | (s, .inl r) => (s, r)
    | (s, .inr _) => (s, .fault 0x10 0)
  | l + 1, table, w, x, u, s =>
    match s.walkStep a va write (l + 1) table w x u with
    | (s, .inl r) => (s, r)
    | (s, .inr (t, w, x, u)) => State.walkFrom a va write l t w x u s

/-- R182. A context whose descriptor cannot be read has no translation. -/
def State.walk (s : State) (a : Acc) (va : Nat) (write : Bool) : State × Xl :=
  if va / 2 ^ 57 ≠ 0 then (s, .fault 0x10 0xFE)
  else match s.ctxDesc a.ctx with
    | none => (s, .fault 0x10 0xFE)
    | some d => State.walkFrom a va write 4 d.root true true true s

/-- A walk, and then the rights (R185). -/
def rightsOf (a : Acc) (write exec : Bool) : Xl → Xl
  | .ok t => if grants a t write exec then .ok t else .fault 0x11 0xFF
  | r => r

/-! ## Cluster TLBs (R221) -/

def State.tlbOf (s : State) (cl : Nat) : List TlbEntry := kget [] cl s.tlb
def TlbEntry.covers (t : TlbEntry) (a : Acc) (va : Nat) : Bool :=
  (if t.glob then t.key == a.func else t.key == a.ctx) && decide (t.va ≤ va) && decide (va < t.va + t.size)
def State.tlbFind (s : State) (a : Acc) (va : Nat) : Option TlbEntry :=
  (s.tlbOf a.cluster).find? (fun t => t.covers a va)
/-- Insert in place of an entry that covers the address; a full TLB replaces one (assumption 12). -/
def State.tlbPut (s : State) (a : Acc) (va : Nat) (t : TlbEntry) : State :=
  let l := (s.tlbOf a.cluster).filter (fun e => !e.covers a va)
  let l := if l.length < 4096 then l else l.eraseIdx (Config.tlbVictim s.fresh % l.length)
  { s with tlb := kset [] a.cluster (t :: l) s.tlb }

/-- A translation through the cluster TLB; a write through an entry with D = 0 walks again (R186). -/
def State.translate (s : State) (a : Acc) (va : Nat) (write exec : Bool) : State × Xl :=
  if va / 2 ^ 57 ≠ 0 then (s, .fault 0x10 0xFE)
  else
    let hit := match s.tlbFind a va with
      | some t => if write && !t.d && grants a t true exec then none else some t
      | none => none
    match hit with
    | some t => (s, rightsOf a write exec (.ok t))
    | none =>
      let r := (s.tally a 6).walk a va write
      match r.2 with
      | .ok t => (r.1.tlbPut a va t, rightsOf a write exec (.ok t))
      | x => (r.1, x)

/-- What a page's entry says of its bytes to an access of a context. -/
def TlbEntry.attr (t : TlbEntry) (a : Acc) : Attr :=
  { cmp := t.cmp, fmt := t.fmt, bg := t.bg, key := if t.conf then some a.func else none, page := true }
/-- The storage key of an address that an entry translates. -/
def State.keyOf (s : State) (t : TlbEntry) (va : Nat) : Option Nat := s.key (t.pa + (va - t.va))

/-- Whether a page table, at a level, maps bytes of a physical range through a CONF leaf. -/
def State.confTable (s : State) (pa n : Nat) : Nat → Nat → Bool
  | level, table =>
    (List.range 512).any (fun i => match s.key (table + 8 * i) with
      | none => false
      | some k =>
        let e := s.peekNat k 8
        let leaf := level == 0 || e.testBit 7
        e.testBit 0 && !pteReserved leaf e &&
          (if leaf then e.testBit 10 && (match leafFrame level (4096 * i) e with
              | some f => decide (f.2 < pa + n) && decide (pa < f.2 + f.1)
              | none => false)
           else match level with
             | 0 => false
             | l + 1 => State.confTable s pa n l (e / 2 ^ 12 % 2 ^ 40 * 4096)))

/-- Whether bytes lie on a CONF page: a leaf of a context's tables, a translation that is held, or an encrypted block says so
(assumption 38). -/
def State.confPa (s : State) (pa n : Nat) : Bool :=
  s.liveCtx.any (fun c => match s.ctxDesc c with
    | some d => d.conf && s.confTable pa n 4 d.root
    | none => false) ||
  s.tlb.any (fun e => e.2.any (fun t => t.conf && decide (t.pa < pa + n) && decide (pa < t.pa + t.size))) ||
    (List.range ((pa + n - 1) / 4096 - pa / 4096 + 1)).any (fun i => match s.key (4096 * (pa / 4096 + i)) with
      | some k => s.crypt.any (fun e => e.1 / 256 == k / 4096)
      | none => false)

/-! ## The Bench's accesses -/

/-- Accesses of the Bench for a context (R185, R203). -/
def State.benchAcc (s : State) (ctx : Nat) : Acc :=
  match s.ctxDesc ctx with
  | some d => { payer := .house, core := 0, ctx := ctx, func := d.func, conf := d.conf, bench := true }
  | none => { payer := .house, core := 0, ctx := ctx, func := 0, conf := false, bench := true }

/-- Pieces of `n` bytes from `va`, none crossing a 128-byte line. `fuel` bounds their number. -/
def linePieces : Nat → Nat → Nat → List (Nat × Nat)
  | 0, _, _ => []
  | f + 1, va, n => if n = 0 then [] else let m := min n (128 - va % 128); (va, m) :: linePieces f (va + m) (n - m)
def piecesOf (va n : Nat) : List (Nat × Nat) := linePieces (n / 128 + 2) va n

/-- A Bench read through a context's translations: none where it faults or meets poison. -/
def State.benchRead (s : State) (ctx va n : Nat) : State × Option (List Byte) :=
  let a := s.benchAcc ctx
  (piecesOf va n).foldl (fun r p =>
    match r.2 with
    | none => r
    | some bs =>
      let q := r.1.walk a p.1 false
      match rightsOf a false false q.2 with
      | .ok t =>
        match q.1.keyOf t p.1 with
        | none => (q.1, none)
        | some k =>
          let h := q.1.homeRead a (t.attr a) k p.2
          (h.1, if h.2.2 then none else some (bs ++ h.2.1))
      | _ => (q.1, none)) (s, some [])

/-- Bench writes of (va, bytes) through a context's translations, done together or, where one fails, not at all. -/
def State.benchKeys (s : State) (a : Acc) (va n : Nat) : State × Option (List (Nat × Attr)) :=
  (piecesOf va n).foldl (fun r p =>
    match r.2 with
    | none => r
    | some ks =>
      let q := r.1.walk a p.1 true
      match rightsOf a true false q.2 with
      | .ok t =>
        match q.1.keyOf t p.1 with
        | none => (q.1, none)
        | some k => (q.1, some (ks ++ [(k, t.attr a)]))
      | _ => (q.1, none)) (s, some [])

def State.benchStore (s : State) (a : Acc) : List (Nat × Attr) → List (Nat × Nat) → List Byte → State
  | (k, at_) :: ks, (_, m) :: ps, bs =>
    (s.homeWrite a at_ (bytesAt k (bs.take m)) (fun _ => false)).benchStore a ks ps (bs.drop m)
  | _, _, _ => s

def State.benchWrite (s : State) (ctx va : Nat) (bs : List Byte) : State × Bool :=
  let a := s.benchAcc ctx
  let r := s.benchKeys a va bs.length
  match r.2 with
  | none => (r.1, false)
  | some ks => (r.1.benchStore a ks (piecesOf va bs.length) bs, true)

/-- Reads and writes of the Bench at physical addresses take no translation and never fault (R203); an address that names
no storage is not accessed. -/
def State.physRead (s : State) (pa n : Nat) : State × Option (List Byte × Bool) :=
  (piecesOf pa n).foldl (fun r p =>
    match r.2 with
    | none => r
    | some bs =>
      match r.1.key p.1 with
      | none => (r.1, none)
      | some k => let h := r.1.homeRead Acc.part Attr.plain k p.2
                  (h.1, some (bs.1 ++ h.2.1, bs.2 || h.2.2))) (s, some ([], false))

def State.physStore (s : State) (a : Acc) : List (Nat × Nat) → List Byte → State
  | (pa, m) :: ps, bs =>
    let s' := match s.key pa with
      | none => s
      | some k => s.homeWrite a Attr.plain (bytesAt k (bs.take m)) (fun _ => false)
    s'.physStore a ps (bs.drop m)
  | [], _ => s
def State.physWrite (s : State) (pa : Nat) (bs : List Byte) : State := s.physStore Acc.part (piecesOf pa bs.length) bs

/-! ## MSI-X (R447) -/

def State.msix (s : State) (func vec : Nat) : State :=
  let k := func * 64 + vec
  if !smem k s.msixOpen || smem k s.msixPend then { s with msixPend := sins k s.msixPend } else s.say (.msix func vec)

/-! ## Rings in the format of R338 -/

/-- Whether a ring with these header words takes `n` more records, and where the first goes. -/
def ringSlots (w r lg n : Nat) : Bool := (w + 2 ^ 64 - r) % 2 ^ 64 + n ≤ 2 ^ lg

/-- A state in which what the Bench tried is undone, but not what it cost (R348). -/
def State.keepHouse (s t : State) : State := { s with house := t.house, domains := t.domains }

/-- The first of several Bench writes that fails: its address (R203). -/
def State.benchWrites (s : State) (ctx : Nat) : List (Nat × List Byte) → State × Option Nat
  | [] => (s, none)
  | e :: t =>
    match s.benchWrite ctx e.1 e.2 with
    | (s, true) => s.benchWrites ctx t
    | (s, false) => (s, some e.1)

/-- Records appended together or dropped together to a ring at a VA of a context (R338, R341): the new state and the address
of the access that failed, if one has (R203). -/
def State.ringPut (s : State) (ctx va : Nat) (recs : List (List Byte)) : State × Option Nat :=
  let h := s.benchRead ctx va 64
  match h.2 with
  | none => (h.1, some va)
  | some b =>
    let w := natOfBytes (b.take 8)
    let r := natOfBytes ((b.drop 8).take 8)
    let lg := min 16 (natOfBytes ((b.drop 16).take 1))
    let dropped := natOfBytes ((b.drop 24).take 8)
    if ringSlots w r lg recs.length then
      h.1.benchWrites ctx ((recs.zipIdx).map (fun e => (va + 64 + 32 * ((w + e.2) % 2 ^ lg), e.1)) ++
        [(va, bytesOfNat 8 (w + recs.length))])
    else h.1.benchWrites ctx [(va + 24, bytesOfNat 8 (dropped + 1))]

/-- The error log, a ring at a physical address (R433). -/
structure LogRec where
  kind : Nat
  die  : Nat
  core : Nat
  who  : Nat
  addr : Nat
  val  : Nat
  deriving DecidableEq, Repr

def LogRec.bytes (r : LogRec) (refclk : Nat) : List Byte :=
  bytesOfNat 2 r.kind ++ bytesOfNat 2 r.die ++ bytesOfNat 2 r.core ++ bytesOfNat 2 r.who ++ bytesOfNat 8 r.addr ++
    bytesOfNat 8 r.val ++ bytesOfNat 8 refclk

/-- Append a record; the ring is found through ERRLOG, and there is none while it reads 0. Vector 4 of the PF (R447). -/
def State.log (s : State) (r : LogRec) : State :=
  let base := (s.sysreg 0x16 0).toNat
  if base = 0 then s
  else
    let h := s.physRead base 64
    match h.2 with
    | none => h.1
    | some (b, _) =>
      let w := natOfBytes (b.take 8)
      let rd := natOfBytes ((b.drop 8).take 8)
      let lg := min 16 (natOfBytes ((b.drop 16).take 1))
      if ringSlots w rd lg 1 then
        (((h.1.physWrite (base + 64 + 32 * (w % 2 ^ lg)) (r.bytes s.refclk)).physWrite base (bytesOfNat 8 (w + 1))).msix 0 4)
      else h.1.physWrite (base + 24) (bytesOfNat 8 (natOfBytes ((b.drop 24).take 8) + 1))

end Sys2Proof.Machine
end

