-- ==== Sys2Proof/Machine/L1.lean ====
section
/-! DEFINITION. The first level and the stash windows: bindings (R187, R188, R244), lines and their fills (R214, R222),
places of access (R242, R247), write-back and invalidation (R215, R245, R246), scratchpad bytes and window touches
(R218, R266). -/

namespace Sys2Proof.Machine

open Sys2Proof

/-- The accesses of a crew. -/
def Cx.acc (x : Cx) : Acc :=
  { payer := .slot x.key.core x.crew.wg x.wg.ctx x.wg.id, core := x.key.core, ctx := x.wg.ctx, func := x.wg.func,
    conf := x.wg.conf, bench := false, crew := some { wg := x.wg.id, cidx := x.crew.cidx } }

/-! ## Bindings (R187, R188) -/

structure BindE where
  base  : Nat
  limit : Nat
  sync  : Nat
  tag   : Nat
  deriving DecidableEq, Repr

def BindE.ofNat (v : Nat) : Option BindE :=
  if v.testBit 200 then
    some { base := v % 2 ^ 64, limit := v / 2 ^ 64 % 2 ^ 64, sync := v / 2 ^ 128 % 2 ^ 64, tag := v / 2 ^ 192 % 64 }
  else none

/-- The valid entries of a context's table; none where a consulted sector is poisoned (R188). -/
def State.bindings (s : State) (a : Acc) : Option (List BindE) :=
  match s.ctxDesc a.ctx with
  | none => some []
  | some d =>
    match s.key d.btab with
    | none => some []
    | some k =>
      if s.poisoned k 2048 then none
      else some ((List.range 64).filterMap (fun i => BindE.ofNat (s.peekNat (k + 32 * i) 32)))

/-- R188: the tag of the lowest-indexed valid entry that holds the address. -/
def tagFor (l : List BindE) (va : Nat) : Option Nat :=
  (l.find? (fun b => decide (b.base ≤ va) && decide (va < b.limit))).map BindE.tag
/-- R244. -/
def syncTags (l : List BindE) (vas : List Nat) : List Nat :=
  (l.filter (fun b => vas.any (fun va => va / 8 * 8 == b.sync))).map BindE.tag

/-! ## Scratchpad bytes -/

def up1k (n : Nat) : Nat := (n + 1023) / 1024 * 1024
/-- R239: bytes of the allocation; STASH begins after SCRATCH. -/
def Kernel.stashAt (k : Kernel) : Nat := up1k k.scratch
def Kernel.alloc (k : Kernel) : Nat := up1k k.scratch + up1k k.stash

/-! ## Copies in a core -/

/-- Every selected line of the first level and the stash windows of a core is written back; with `inval` it is then
invalidated, and a stash line becomes unfilled (R245, R246, R258). What is written back is waited for. -/
def State.sweep (s : State) (a : Acc) (sel : Line → Bool) (inval : Bool) : State :=
  let s := ((s.core a.core).lines.filter sel).foldl (fun s l =>
    let s := s.writeOff a l true
    if inval then s.dropLine a.core l else s.modCore a.core (·.l1Mod l.ctx l.lva Line.cleanAll)) s
  ((s.stashLines a.core).filter (fun e => sel e.2.2)).foldl (fun s e =>
    let s := s.writeOff a e.2.2 true
    s.modCore a.core (fun co => if inval then co.stashDel e.1 e.2.1
                                else co.stashMod e.1 e.2.1 Line.cleanAll)) s

/-- R245 of a release at DIE or wider, for the addresses of its threads: what is on its way, tagged lines, then the lines that
it writes; each has been accepted before the release's own bytes. -/
def State.releaseAct (s : State) (a : Acc) (tags : List Nat) (lns : List Nat) : State :=
  ((s.sweep a (fun l => l.ctx == a.ctx && (match l.tag with | some t => tags.contains t | none => false)) false).sweep a
    (fun l => lns.contains l.pa) false).landCore a.core
/-- R246. -/
def State.acquireAct (s : State) (a : Acc) (tags : List Nat) : State :=
  s.sweep a (fun l => l.ctx == a.ctx && (match l.tag with | some t => tags.contains t | none => false)) true

/-- The places in a line of the sectors that `n` bytes at key `k` touch. -/
def sectorMask (k n : Nat) : BitVec 128 :=
  maskOf 128 ((spanSectors k n).flatMap (fun q => (List.range 32).map (fun i => (32 * q + i) % 128)))

/-- The dirty bytes of this core's copy of a line in the sectors of `n` bytes at key `k` reach the home before the crew reads
them there (R243); a sector goes whole, so that no write piece is parted (R274). -/
def State.syncOwn (s : State) (a : Acc) (k n : Nat) : State :=
  let m := sectorMask k n
  match (s.core a.core).copyOf (k / 128) with
  | some l =>
    if l.excl then s
    else (s.writeBack a { l with dirty := l.dirty &&& m }).modCore a.core (·.l1Mod l.ctx l.lva (·.clean m))
  | none =>
    match (s.stashLines a.core).find? (fun e => e.2.2.pa == k / 128) with
    | some e => (s.writeBack a { e.2.2 with dirty := e.2.2.dirty &&& m }).modCore a.core (·.stashMod e.1 e.2.1 (·.clean m))
    | none => s

/-! ## Hints (R232, R233) -/

def HClass.touch (c : HClass) : Hint → HClass
  | .ef => if c = .el then .el else .ef
  | .el => .el
  | .normal | .na => c

/-- The first-level victim of a set listed most recently used first. -/
def l1Victim : List Line → Option Line
  | [] => none
  | l :: t => match l1Victim t with
    | none => some l
    | some m => if hintRank l.hint < hintRank m.hint then some l else some m

/-- Make room in the set of a line (R232). -/
def State.l1Room (s : State) (a : Acc) (lva : Nat) : State :=
  let set := (s.core a.core).l1Set lva
  if set.length < 20 then s
  else match l1Victim set with
    | some l => (s.writeOff a l false).dropLine a.core l
    | none => s

/-! ## Parts of an access -/

/-- Bytes of an access within one line, translated: `hit` where a first-level hit passed the check (R225). -/
structure Part where
  va   : Nat
  n    : Nat
  key  : Nat
  w    : Bool
  d    : Bool
  at_  : Attr
  conf : Bool
  hit  : Bool
  deriving DecidableEq, Repr

/-- Why an access is not performed: a replayable fault, or one that is not, by cause and argument (R225, R268). -/
inductive AccFail
  | park (cause va level : Nat)
  | fault (cause arg : Nat)
  deriving DecidableEq, Repr

def Line.has (l : Line) (off n : Nat) : Bool := (List.range n).all (fun i => (kfind (off + i) l.bytes).isSome)

/-- The check of one part (R225). `hitOk` says which present line serves the access without a translation. A store walks
where the line's translation held D = 0 (R186; assumption 42). -/
def State.checkPart (s : State) (a : Acc) (va n : Nat) (write : Bool) (hitOk : Line → Bool) : State × Except AccFail Part :=
  let hit := match (s.core a.core).l1Find a.ctx (va / 128) with
    | some l => if hitOk l && (if write then l.w && l.d else l.has (va % 128) n) then some l else none
    | none => none
  match hit with
  | some l => (s, .ok { va := va, n := n, key := l.pa * 128 + va % 128, w := l.w, d := l.d, at_ := l.at_, conf := l.at_.key.isSome,
                        hit := true })
  | none =>
    let r := s.translate a va write false
    match r.2 with
    | .fault c lv => (r.1, .error (.park c va lv))
    | .poison => (r.1, .error (.fault 0x12 (va / 32 * 32)))
    | .ok t =>
      match r.1.keyOf t va with
      | none => (r.1, .error (.park 0x10 va t.level))
      | some k => (r.1, .ok { va := va, n := n, key := k, w := t.w, d := t.d, at_ := t.attr a, conf := t.conf, hit := false })

/-- The check of one thread's access: whole or not at all (R225, R238). -/
def State.checkSpan (s : State) (a : Acc) (va n : Nat) (write : Bool) (hitOk : Line → Bool) :
    State × Except AccFail (List Part) :=
  if (va + n - 1) / 2 ^ 57 ≠ 0 then (s, .error (.park 0x10 va 0xFE))
  else (piecesOf va n).foldl (fun r p =>
    match r.2 with
    | .error e => (r.1, .error e)
    | .ok ps =>
      let q := r.1.checkPart a p.1 p.2 write hitOk
      (q.1, match q.2 with
        | .error e => .error e
        | .ok part => .ok (ps ++ [part]))) (s, .ok [])

/-- What the checks of every thread found. -/
structure Checked (α : Type) where
  st     : State
  pass   : List (Nat × α)
  failed : List Nat
  first  : Option (Nat × Nat × Nat)   -- cause, VA and level of the lowest failing thread
  fault  : Option (Nat × Nat)         -- cause and argument of the lowest thread's fault that cannot be replayed
  deriving DecidableEq, Repr

def Checked.init {α : Type} (s : State) : Checked α := { st := s, pass := [], failed := [], first := none, fault := none }
def Checked.add {α : Type} (c : Checked α) (t : Nat) (r : State × Except AccFail α) : Checked α :=
  match r.2 with
  | .ok ps => { c with st := r.1, pass := c.pass ++ [(t, ps)] }
  | .error (.park cause va level) =>
    { c with st := r.1, failed := c.failed ++ [t], first := some (c.first.getD (cause, va, level)) }
  | .error (.fault cause arg) => { c with st := r.1, fault := some (c.fault.getD (cause, arg)) }

/-- R225: no thread's access before every check. -/
def State.checkAll (s : State) (a : Acc) (addrs : List (Nat × Nat)) (n : Nat) (write : Bool) (hitOk : Line → Bool) :
    Checked (List Part) :=
  addrs.foldl (fun c e => c.add e.1 (c.st.checkSpan a e.2 n write hitOk)) (Checked.init s)

/-! ## Lines: allocation and fill -/

/-- R222: the core's copy of a storage line under another address is removed, to be forwarded. -/
def State.takeCopy (s : State) (a : Acc) (ln : Nat) : State × Option Line :=
  match (s.core a.core).copyOf ln with
  | some l => (s.modCore a.core (·.l1Del l.ctx l.lva), some l)
  | none =>
    match (s.stashLines a.core).find? (fun e => e.2.2.pa == ln) with
    | some e => (s.modCore a.core (·.stashDel e.1 e.2.1), some e.2.2)
    | none => (s, none)

/-- Allocate the first-level line of a part (R214, R222, R233), none where a binding entry is poisoned. -/
def State.l1Alloc (s : State) (a : Acc) (p : Part) (hint : Hint) : State × Option Line :=
  match s.bindings a with
  | none => (s, none)
  | some bs =>
    let r := (s.holdHost a (p.key / 128)).takeCopy a (p.key / 128)
    let tag := tagFor bs (p.va / 128 * 128)
    let l : Line := match r.2 with
      | some o => { o with ctx := a.ctx, lva := p.va / 128, w := p.w, d := p.d, tag := tag, at_ := p.at_, hint := o.hint.touch hint }
      | none => { ctx := a.ctx, lva := p.va / 128, pa := p.key / 128, w := p.w, d := p.d, hint := HClass.normal.touch hint,
                  excl := false, tag := tag, at_ := p.at_, valid := 0, bytes := [], dirty := 0, writers := [], poison := 0 }
    let s := r.1.l1Room a l.lva
    (s.modCore a.core (·.l1Put l), some l)

/-- Bytes of a home fill that are not dirty take their place in the line, and the sector is valid (R214). Dirty bytes keep their
poison (R229). -/
def Line.fill (l : Line) (q : Nat) (bs : List Byte) (bad : Bool) : Line :=
  { l with
    valid := l.valid ||| (1#4 <<< q),
    bytes := (bs.zipIdx).foldl (fun m e =>
      if l.dirty.getLsbD (32 * q + e.2) then m else kput (32 * q + e.2) e.1 m) l.bytes,
    poison := if bad || (l.poison.getLsbD q && l.dirty.extractLsb' (32 * q) 32 != 0) then l.poison ||| (1#4 <<< q)
      else l.poison &&& ~~~(1#4 <<< q) }

/-- The sectors that `n` bytes at `off` need and the line lacks. -/
def Line.lacks (l : Line) (off n : Nat) : List Nat :=
  (spanSectors off n).filter (fun q =>
    !l.has (max off (32 * q)) (min (off + n) (32 * q + 32) - max off (32 * q)))

/-- Sectors of a line are read at the home and written into the line, at the charge of the writes (R345). -/
def State.fillSectors (s : State) (a : Acc) (at_ : Attr) (l : Line) (qs : List Nat) : State × Line :=
  qs.foldl (fun r q =>
    let h := r.1.homeRead a at_ (l.pa * 128 + 32 * q) 32
    (h.1.bill a.payer (.core a.core) 5 1, r.2.fill q h.2.1 h.2.2)) (s, l)

/-- Fill the sectors that `n` bytes at `off` need and the line lacks. -/
def State.l1Fill (s : State) (a : Acc) (at_ : Attr) (l : Line) (off n : Nat) : State × Line :=
  s.fillSectors a at_ l (l.lacks off n)

def Line.read (l : Line) (off n : Nat) : List Byte := (List.range n).map (fun i => kget 0 (off + i) l.bytes)
def Line.bad (l : Line) (off n : Nat) : Bool := (spanSectors off n).any (fun q => l.poison.getLsbD q)
/-- Written bytes are valid and dirty, and a crew's; a sector written whole is good (R214, R231). -/
def Line.write (l : Line) (off : Nat) (bs : List Byte) (who : Option CrewId) : Line :=
  let full := (spanSectors off bs.length).filter (fun q => decide (off ≤ 32 * q) && decide (32 * q + 32 ≤ off + bs.length))
  { l with bytes := (bs.zipIdx).foldl (fun m e => kput (off + e.2) e.1 m) l.bytes,
           dirty := l.dirty ||| maskOf 128 ((List.range bs.length).map (off + ·)),
           writers := match who with
             | some c => (List.range bs.length).foldl (fun m i => kput (off + i) c m) l.writers
             | none => l.writers,
           poison := l.poison &&& ~~~(maskOf 4 full) }

/-! ## Places of access (R242, R244, R247) -/

/-- What was read of a part: bytes, or the address of the sector whose poison was met (R230), of the bytes or of a
consulted binding entry (R188; the address accessed stands for it). -/
abbrev ReadRes := State × Except Nat (List Byte)

/-- The address of a part's first poisoned sector. -/
def sectorVa (va k : Nat) (q : Nat) : Nat := (va / 32 + (q - k / 32)) * 32
def firstBad (va k n : Nat) (bad : Nat → Bool) : Option Nat := ((spanSectors k n).find? bad).map (sectorVa va k)
def readOr (va k n : Nat) (bad : Nat → Bool) (bs : List Byte) : Except Nat (List Byte) :=
  match firstBad va k n bad with
  | some v => .error v
  | none => .ok bs

def State.readHome (s : State) (a : Acc) (p : Part) : ReadRes :=
  let h := (s.syncOwn a p.key p.n).homeRead a p.at_ p.key p.n
  (h.1, readOr p.va p.key p.n h.1.badSector h.2.1)

/-- A load that the first level does not serve, at the home (R340). -/
def State.readMiss (s : State) (a : Acc) (p : Part) : ReadRes := (s.tally a 5).readHome a p

/-- Serve a read from a line of the first level, filling what it lacks. -/
def State.readLine (s : State) (a : Acc) (p : Part) (l : Line) (missed : Bool) : ReadRes :=
  let off := p.va % 128
  let f := s.l1Fill a p.at_ l off p.n
  let s := (f.1.modCore a.core (·.l1Put f.2)).bill a.payer (.core a.core) 5 (spanSectors off p.n).length
  (if missed || !(l.lacks off p.n).isEmpty then s.tally a 5 else s,
    readOr p.va off p.n (fun q => f.2.poison.getLsbD q) (f.2.read off p.n))

/-- LD and LDT, plain (R242). -/
def State.readPlain (s : State) (a : Acc) (hint : Hint) (p : Part) : ReadRes :=
  match (s.core a.core).l1Find a.ctx (p.va / 128) with
  | some l => s.readLine a p { l with hint := l.hint.touch hint } false
  | none =>
    if hint = .na then s.readMiss a p
    else match s.l1Alloc a p hint with
      | (s, none) => (s, .error (p.va / 32 * 32))
      | (s, some l) => s.readLine a p l true

/-- LDC (R242). -/
def State.readCoherent (s : State) (a : Acc) (p : Part) : ReadRes :=
  match (s.core a.core).l1Find a.ctx (p.va / 128) with
  | some l => if l.excl then s.readLine a p l false else s.readMiss a p
  | none => s.readMiss a p

/-- What the core itself holds of a storage line takes bytes that it has sent to the home, clean (R243, R244). -/
def State.ownCopy (s : State) (a : Acc) (key : Nat) (bs : List Byte) : State :=
  let off := key % 128
  let m : BitVec 128 := maskOf 128 ((List.range bs.length).map (off + ·))
  match (s.core a.core).copyOf (key / 128) with
  | some l => s.modCore a.core (·.l1Mod l.ctx l.lva (fun l => (l.write off bs none).clean m))
  | none =>
    match (s.stashLines a.core).find? (fun e => e.2.2.pa == key / 128) with
    | some e =>
      let w := (kfind e.1 (s.core a.core).windows).getD { wg := 0, va := 0, off := 0, len := 0, lines := [], handle := 0 }
      (s.scrWrite a.core w.wg (w.off + 128 * e.2.1 + off) bs).modCore a.core (·.stashMod e.1 e.2.1 (·.clean m))
    | none => s

/-- A line that the core holds exclusively, under another address or context, is recalled for its own access at the home (R247). -/
def State.giveBackOwn (s : State) (a : Acc) (ln : Nat) : State := if s.ownerOf ln = some a.core then s.recall a ln else s

/-- A store that allocates nothing: a masked write that sets out for the home (R242, R273). -/
def State.writeNa (s : State) (a : Acc) (p : Part) (bs : List Byte) : State :=
  ((((s.syncOwn a p.key p.n).landOwn a (p.key / 128)).giveBackOwn a (p.key / 128)).sendOff a p.at_ (bytesAt p.key bs)
    (fun _ => false) (fun _ => a.crew.toList) false).ownCopy a p.key bs

/-- Bytes written into a line that stands in the first level; in one held exclusively they are accepted as they are performed
(R247). -/
def State.linePut (s : State) (a : Acc) (l : Line) (off : Nat) (bs : List Byte) : State :=
  let s := s.modCore a.core (·.l1Put (l.write off bs a.crew))
  if l.excl then s.noted (bytesAt (l.pa * 128 + off) bs) else s

/-- ST, plain (R242): false where a consulted binding entry is poisoned. -/
def State.writePlain (s : State) (a : Acc) (hint : Hint) (p : Part) (bs : List Byte) : State × Bool :=
  let off := p.va % 128
  let pay (s : State) := s.bill a.payer (.core a.core) 5 (spanSectors off p.n).length
  match (s.core a.core).l1Find a.ctx (p.va / 128) with
  | some l =>
    let s := if l.w then s else s.tally a 5
    ((pay s).linePut a { l with w := l.w || p.w, d := l.d || p.d, hint := l.hint.touch hint } off bs, true)
  | none =>
    if hint = .na then ((s.tally a 5).writeNa a p bs, true)
    else match s.l1Alloc a p hint with
      | (s, none) => (s, false)
      | (s, some l) => ((pay (s.tally a 5)).linePut a l off bs, true)

/-- A store at the home, whose bytes a copy on this core takes, clean (R244). -/
def State.writeHome (s : State) (a : Acc) (p : Part) (bs : List Byte) : State :=
  (s.homeWrite a p.at_ (bytesAt p.key bs) (fun _ => false)).ownCopy a p.key bs

/-- The same by a store that the first level does not take (R340). -/
def State.writeMiss (s : State) (a : Acc) (p : Part) (bs : List Byte) : State := (s.tally a 5).writeHome a p bs

/-- R247: hold the line of a part exclusively, whole; none where a consulted binding entry is poisoned. -/
def State.takeExcl (s : State) (a : Acc) (p : Part) : State × Option Line :=
  let got := match (s.core a.core).l1Find a.ctx (p.va / 128) with
    | some l => (s, some l)
    | none => s.l1Alloc a p .normal
  match got with
  | (s, none) => (s, none)
  | (s, some l) =>
    if l.excl then (s, some l)
    else
      let h := ((s.tally a 5).writeBack a l).fillSectors a p.at_ l.cleanAll (List.range 4)
      let l := { h.2 with excl := true, w := l.w || p.w, d := l.d || p.d }
      ((h.1.modCore a.core (·.l1Put l)).setOwner l.pa (some a.core), some l)

/-! ## Stash windows (R219, R266) -/

/-- A piece of a scratchpad access: with the window line it touches, and what the touch fills the line by, should it not be
filled when the piece is performed: a thread before may have taken it into another window (R222). -/
structure SPart where
  off  : Nat
  n    : Nat
  win  : Option (Nat × Nat)
  need : Option Part
  deriving DecidableEq, Repr

def Core.windowAt (co : Core) (wg off : Nat) : Option (Nat × Window) :=
  co.windows.find? (fun e => e.2.wg == wg && decide (e.2.off ≤ off) && decide (off < e.2.off + e.2.len))

/-- Bytes of a stash line are dirty, and a crew's (R219). -/
def Line.soil (l : Line) (off n : Nat) (who : Option CrewId) : Line :=
  let at_ := (List.range n).map (fun j => (off + j) % 128)
  { l with dirty := l.dirty ||| maskOf 128 at_,
           writers := match who with
             | some c => at_.foldl (fun m i => kput i c m) l.writers
             | none => l.writers }

/-- Scratchpad bytes of one line have been written: they are dirty where a filled window line that may be written holds them; a
first write through a translation with D = 0 walks (R185, R186). In a line without the right they stand in the scratchpad alone
(assumption 77); where the walk fails they are dirty all the same (assumption 91). -/
def State.soilWin (s : State) (a : Acc) (w off n : Nat) : State :=
  match (s.core a.core).windowAt w off with
  | some (wi, x) =>
    let i := (off - x.off) / 128
    match kfind i x.lines with
    | some l =>
      if !l.w then s
      else
        let s := if l.d then s else (s.translate a (l.lva * 128) true false).1
        s.modCore a.core (·.stashMod wi i (fun l => { l.soil (off - x.off) n a.crew with d := true }))
    | none => s
  | none => s

/-- Bytes that barrier updates and engines write: scratchpad bytes as they stand, in each line of a window that holds them. -/
def State.scrPut (s : State) (a : Acc) (w off : Nat) (bs : List Byte) : State :=
  (piecesOf off bs.length).foldl (fun s p => s.soilWin a w p.1 p.2) (s.scrWrite a.core w off bs)

def State.checkScr (s : State) (a : Acc) (wg off n : Nat) (write : Bool) : State × Except AccFail SPart :=
  match (s.core a.core).windowAt wg off with
  | none => (s, .ok { off := off, n := n, win := none, need := none })
  | some (wi, w) =>
    let i := (off - w.off) / 128
    let va := w.va.toNat + (off - w.off)
    let held := match kfind i w.lines with
      | some l => if !write || (l.w && l.d) then some l else none
      | none => none
    match held with
    | some l =>
      (s, .ok { off := off, n := n, win := some (wi, i),
                need := some { va := va, n := n, key := l.pa * 128 + va % 128, w := l.w, d := l.d, at_ := l.at_,
                               conf := l.at_.key.isSome, hit := true } })
    | none =>
      match s.checkPart a va n write (fun _ => false) with
      | (s, .ok p) => (s, .ok { off := off, n := n, win := some (wi, i), need := some p })
      | (s, .error e) => (s, .error e)

def State.checkScrSpan (s : State) (a : Acc) (wg off n : Nat) (write : Bool) : State × Except AccFail (List SPart) :=
  (piecesOf off n).foldl (fun r p =>
    match r.2 with
    | .error e => (r.1, .error e)
    | .ok ps =>
      let q := r.1.checkScr a wg p.1 p.2 write
      (q.1, match q.2 with
        | .error e => .error e
        | .ok part => .ok (ps ++ [part]))) (s, .ok [])

/-- The first touch fills the whole line; a first write makes it writable. False where a binding entry is poisoned. -/
def State.touchWin (s : State) (a : Acc) (wi i : Nat) (p : Part) : State × Bool :=
  match kfind wi (s.core a.core).windows with
  | none => (s, true)
  | some w =>
    match kfind i w.lines with
    | some _ => (s.modCore a.core (·.stashMod wi i (fun l => { l with w := l.w || p.w, d := l.d || p.d })), true)
    | none =>
      match s.bindings a with
      | none => (s, false)
      | some bs =>
        let ln := p.key / 128
        let s := match (s.core a.core).copyOf ln with
          | some l => if l.excl then s.recall a ln else s
          | none => s
        let r := (s.holdHost a ln).takeCopy a ln
        let va := w.va.toNat + 128 * i
        let l0 : Line := match r.2 with
          | some o => { o with ctx := a.ctx, lva := va / 128, w := p.w, d := p.d, tag := tagFor bs va, at_ := p.at_ }
          | none => { ctx := a.ctx, lva := va / 128, pa := ln, w := p.w, d := p.d, hint := .normal, excl := false,
                      tag := tagFor bs va, at_ := p.at_, valid := 0, bytes := [], dirty := 0, writers := [], poison := 0 }
        let f := r.1.l1Fill a p.at_ l0 0 128
        let off := w.off + 128 * i
        let s := (f.1.scrWrite a.core w.wg off (f.2.read 0 128)).modWg a.core w.wg (fun x =>
          { x with scrPoison := (List.range 4).foldl (fun l q => sput (f.2.poison.getLsbD q) (off / 32 + q) l)
                                  x.scrPoison })
        let s := s.bill a.payer (.core a.core) 5 (4 - (l0.lacks 0 128).length)
        (s.modCore a.core (fun co => { co with windows := kmod wi (fun w =>
          { w with lines := kput i { f.2 with valid := 15, bytes := [], poison := 0 } w.lines }) co.windows }), true)

def State.touchPart (s : State) (a : Acc) (p : SPart) : State × Bool :=
  match p.win, p.need with
  | some (wi, i), some q => s.touchWin a wi i q
  | _, _ => (s, true)

/-- The charge of scratchpad or stash sectors (R345). -/
def State.scrBill (s : State) (a : Acc) (p : SPart) : State :=
  s.bill a.payer (.core a.core) (if p.win.isSome then 5 else 6) (spanSectors p.off p.n).length

def State.readScr (s : State) (a : Acc) (wg : Nat) (p : SPart) : ReadRes :=
  match s.touchPart a p with
  | (s, false) => (s, .error (p.off / 32 * 32))
  | (s, true) => (s.scrBill a p, readOr p.off p.off p.n (fun q => s.scrBad a.core wg (32 * q) 32)
                                   (s.scrRead a.core wg p.off p.n))

def State.writeScr (s : State) (a : Acc) (wg : Nat) (p : SPart) (bs : List Byte) : State × Bool :=
  match s.touchPart a p with
  | (s, false) => (s, false)
  | (s, true) =>
    let s := (s.scrBill a p).scrWrite a.core wg p.off bs
    (match p.win with
      | some (wi, i) => s.modCore a.core (fun co => co.stashMod wi i (·.soil p.off bs.length a.crew))
      | none => s, true)

end Sys2Proof.Machine
end

