-- ==== Sys2Proof/Machine/Memory.lean ====
section
/-! DEFINITION. What every memory instruction shares: addresses (R238, R239), operand groups (R240), alignment (R241), the
checks of every thread before any access (R225), parking (R226), ordered actions (R244-R246), trace records and load
samples (R341, R342). -/

namespace Sys2Proof

def Scope.wide : Scope → Bool
  | .thread | .crew | .wg => false
  | _ => true

def Order.isPlain : Order → Bool
  | .plain => true
  | _ => false
/-- At DIE or wider (R244). -/
def Order.wide : Order → Bool
  | .plain => false
  | .acq sc | .rel sc | .ar sc => sc.wide
def Order.acquires : Order → Bool
  | .acq _ | .ar _ => true
  | _ => false
def Order.releases : Order → Bool
  | .rel _ | .ar _ => true
  | _ => false
/-- R244: at narrow scope an ordered access is performed as a plain access with hint normal. -/
def Order.hint (o : Order) (h : Hint) : Hint := if o.isPlain then h else .normal

def ASize.regs : ASize → Nat
  | .b4 => 1 | .b8 => 2

end Sys2Proof

namespace Sys2Proof.Machine

open Sys2Proof

/-! ## Addresses and groups -/

/-- EA(t) (R238). -/
def Cx.ea (x : Cx) (m : MemRef) (t : Nat) : W64 :=
  x.rdPair m.base + (x.rdReg t m.off).zeroExtend 64 + m.disp.signExtend 64

/-- O(t), exact (R239). -/
def Cx.scrOff (x : Cx) (m : ScrRef) (t : Nat) : Int :=
  ((x.rdReg t m.base).toNat : Int) + (x.rdReg t m.off).toNat + m.disp.toInt

/-- The low `n` bytes of the group that `r` begins. -/
def Cx.rdGroup (x : Cx) (t : Nat) (r : Reg) (n : Nat) : List Byte :=
  ((List.range ((n + 3) / 4)).flatMap (fun k => bytesOfNat 4 (x.rdRegAt t r k).toNat)).take n

/-- The registers of a loaded value (R240). -/
def assemble (sx : Bool) (bs : List Byte) : List W32 :=
  let n := bs.length
  let v := natOfBytes bs
  if n < 4 then [if sx then (BitVec.ofNat (8 * n) v).signExtend 32 else BitVec.ofNat 32 v]
  else (List.range (n / 4)).map (fun k => BitVec.ofNat 32 (v / 2 ^ (32 * k)))

/-! ## Profiling records (R338) -/

/-- Whether the ring of a companion register observes a context of a function. -/
def observes (cfg : W64) (owner func ctx : Nat) (conf : Bool) : Bool :=
  let f := (cfg.extractLsb' 40 12).toNat
  cfg.getLsbD 0 && !conf && (f == ctx || (f == 0xFFF && owner == func))

/-- Records into the ring of control register `num` of a function; a fault drops them, clears EN and is logged (R203). -/
def State.profile (s : State) (owner num : Nat) (recs : List (List Byte)) : State :=
  let cfg := s.sysreg (num + 1) owner
  let ctx := (cfg.extractLsb' 52 12).toNat
  let va := (s.sysreg num owner).toNat / 4096 * 4096
  let r := s.ringPut ctx va recs
  match r.2 with
  | none => r.1
  | some bad => (r.1.setSysreg (num + 1) owner (cfg &&& ~~~1#64)).log
      { kind := 7, die := 0xFFFF, core := 0xFFFF, who := ctx, addr := bad, val := 0 }

def leInt (n : Nat) (v : Int) : List Byte := bytesOfNat n (v % 2 ^ (8 * n)).toNat

def chunks {α : Type} (n : Nat) : Nat → List α → List (List α)
  | 0, _ => []
  | f + 1, l => if l.isEmpty then [] else l.take n :: chunks n f (l.drop n)

/-- The stride that fits every access, if one does. -/
def strideOf (l : List (Nat × Int)) : Option Int :=
  match l with
  | [] => some 0
  | [_] => some 0
  | (t0, a0) :: (t1, a1) :: _ =>
    let st := (a1 - a0) / ((t1 : Int) - t0)
    if -(2 ^ 31) ≤ st ∧ st < 2 ^ 31 ∧ l.all (fun e => e.2 == a0 + st * ((e.1 : Int) - t0)) then some st else none

/-- The record and its continuations (R341). -/
def traceRecs (pc : W64) (op code : Nat) (scr : Bool) (l : List (Nat × Int)) : List (List Byte) :=
  let base := (l.head?.map Prod.snd).getD 0
  let offs := l.map (fun e => e.2 - base)
  let wide := offs.any (fun o => decide (o < -(2 ^ 31)) || decide (o ≥ 2 ^ 31))
  let conts := match strideOf l with
    | some _ => []
    | none => (if wide then (chunks 4 64 offs).map (·.flatMap (leInt 8)) else (chunks 8 64 offs).map (·.flatMap (leInt 4))).map
                (fun b => b ++ List.replicate (32 - b.length) 0)
  let irreg := (strideOf l).isNone
  (bytesOfNat 8 pc.toNat ++ bytesOfNat 8 (maskOf 64 (l.map Prod.fst)).toNat ++ leInt 8 base ++
    leInt 4 ((strideOf l).getD 0) ++
    bytesOfNat 2 (op + (if irreg && wide then 2 ^ 13 else 0) + (if scr then 2 ^ 14 else 0) + (if irreg then 2 ^ 15 else 0)) ++
    bytesOfNat 1 code ++ bytesOfNat 1 conts.length) :: conts

/-- R341. -/
def State.trace (s : State) (x : Cx) (op code : Nat) (scr : Bool) (l : List (Nat × Int)) : State :=
  if l.isEmpty || !observes (s.sysreg 0x27 x.wg.func) x.wg.func x.wg.func x.wg.ctx x.wg.conf then s
  else s.profile x.wg.func 0x26 (traceRecs x.pc op code scr l)

/-- Where a load is served, before it is performed (R342). -/
def State.levelOf (s : State) (a : Acc) (p : Part) : Nat :=
  if p.hit then 0
  else if (s.stashLines a.core).any (fun e => e.2.2.pa == p.key / 128) then 1
  else match homeOf p.key with
    | .core c => if s.l2Has (p.key / 128) then (if c / 192 = a.core / 192 then 2 else 3) else 4
    | .peer _ => 5
    | .host => 6

/-- A core's loads of an observed context are counted as they are issued, those that fault later too; a replay is no second load
(R342). -/
def Cx.loadSeen (x : Cx) (s : State) : Bool := !x.replaying && observes (s.sysreg 0x29 0) 0 x.wg.func x.wg.ctx x.wg.conf
def Cx.countLoad (x : Cx) (s : State) (load : Bool) : State :=
  if load && x.loadSeen s then s.modCore x.key.core (fun co => { co with loads := co.loads + 1 }) else s

/-- R342: every 2^INTV-th load is sampled. -/
def State.sampleLoad (s : State) (x : Cx) (tlbMiss poison : Bool) (va level : Nat) : State :=
  if x.loadSeen s && (s.core x.key.core).loads % 2 ^ ((s.sysreg 0x29 0).extractLsb' 35 5).toNat == 0 then
    s.modCore x.key.core (fun co => { co with samples := co.samples ++
      [{ pc := x.pc, va := BitVec.ofNat 64 va, ctx := x.wg.ctx, func := x.wg.func, level := level, tlb := tlbMiss,
         poison := poison }] })
  else s

/-! ## Faults and parking -/

/-- A precise fault of a memory instruction: whether it goes to the handler depends on its cause (R268). -/
def Cx.memExc (x : Cx) (cause arg : Nat) : Exc :=
  x.exc cause (BitVec.ofNat 64 arg) (if cause = 0x06 then x.kernel.align else if cause = 0x12 then x.kernel.poison else true)

/-- R226: the crew is parked at the instruction, its flag pending. The record of a read of a descriptor or a slot is that of any
read: its fetch bit is 0 (assumption 73). -/
def Cx.park (x : Cx) (s : State) (mask : Mask) (f : Nat × Nat × Nat) (write : Bool) (dst : Dest) : State :=
  (s.issueCost x 0).modCrew x.key (fun cr =>
    { (x.flagUp cr dst) with
      replay := none,
      park := some { mask := mask, cause := f.1, va := BitVec.ofNat 64 f.2.1, write := write, fetch := false,
                     level := f.2.2, at_ := s.refclk, handle := none, logged := false } })

/-- What performing the accesses gave: writes and exceptions, or a fault that cannot be replayed. -/
structure MemRes where
  st  : State
  ws  : List RegWrite
  fps : Fps
  bad : Option (Nat × Nat)
  late : Option LateLoad := none
  deriving DecidableEq, Repr

/-- What is particular to a memory instruction. -/
structure MemOp where
  op    : Nat        -- OP, 9 bits
  code  : Nat        -- size code of R84
  scr   : Bool
  ret   : Bool       -- it has a register destination, and variable latency
  write : Bool
  order : Order
  dst   : Dest
  load  : Bool := false   -- LD, LDT, LDC or an atomic that returns a value (R342)
  deriving DecidableEq, Repr

/-- A state that keeps what another has charged and counted (R347): accesses that were performed before a fault undid the
instruction. -/
def State.keepCosts (s t : State) (core w : Nat) : State :=
  ({ s with domains := t.domains, house := t.house, lateAcc := t.lateAcc }.modCore core (fun co =>
    { co with grants := (t.core core).grants, pmcnt := (t.core core).pmcnt, pmsel := (t.core core).pmsel,
              ovf := (t.core core).ovf, loads := (t.core core).loads })).modWg core w (fun x =>
      match t.wg? core w with
      | some y => { x with cum := y.cum, frac := y.frac }
      | none => x)

/-- The load issued last may still perform its home reads (R243). -/
def Crew.lateLast (cr : Crew) (l : LateLoad) : Crew :=
  { cr with owed := lmod cr.owed (cr.owed.length - 1) (fun o => { o with late := some l }) }

/-- The reads of a crew's loads have been performed. -/
def Crew.readsDone (cr : Crew) : Crew := { cr with owed := cr.owed.map (fun o => { o with late := none }) }

/-- What was issued last is a load or an atomic (R335). -/
def Crew.memLast (cr : Crew) : Crew := { cr with owed := lmod cr.owed (cr.owed.length - 1) (fun o => { o with mem := true }) }

/-- A load or an atomic with its destination: variable latency, no lane work. -/
def retireMem (x : Cx) (s : State) (dst : Dest) (ws : List RegWrite) (fps : Fps := 0) : State :=
  (retireVar x s 0 dst ws fps false).modCrew x.key Crew.memLast

/-- The end of a memory instruction: the fault that performing met, the whole instruction retired, or the crew parked with
the threads that passed done (R226). -/
def Cx.memEnd {α : Type} (x : Cx) (o : MemOp) (c : Checked α) (addrs : List (Nat × Int)) (r : MemRes) : State :=
  match r.bad with
  | some (cause, arg) =>
    let s := c.st.keepCosts r.st x.key.core x.crew.wg
    if cause = 0x03 then x.fpTrap s 0 r.fps else x.raise s (x.memExc cause arg)
  | none =>
    let s := r.st.trace x o.op o.code o.scr (addrs.filter (fun e => (c.pass.map Prod.fst).contains e.1))
    match c.first with
    | none =>
      if o.ret then
        let s := retireMem x s o.dst r.ws r.fps
        match r.late with
        | none => s
        | some l => s.modCrew x.key (·.lateLast l)
      else (retireNone x s 0).modCrew x.key (·.raiseFps r.fps)
    | some f =>
      (x.park s (if x.h.uni then x.mask else maskOf 64 c.failed) f o.write o.dst).modCrew x.key (fun cr =>
        (cr.readsDone.landNow r.ws).raiseFps r.fps)

/-- Check, then perform: a fault that cannot be replayed performs nothing, an ordered access is parked whole (R225, R226). -/
def Cx.memRun {α : Type} (x : Cx) (o : MemOp) (c : Checked α) (addrs : List (Nat × Int))
    (perform : State → List (Nat × α) → MemRes) : State :=
  match c.fault with
  | some (cause, arg) => x.raise c.st (x.memExc cause arg)
  | none =>
    match c.first, o.order.isPlain with
    | some f, false => x.park c.st x.mask f o.write o.dst
    | _, _ => x.memEnd o c addrs (perform c.st c.pass)

/-- R241. -/
def Cx.misaligned (x : Cx) (strict : Bool) (n : Nat) (addrs : List (Nat × Int)) : Option Int :=
  if strict || x.kernel.align then (addrs.find? (fun e => e.2 % (n : Int) != 0)).map Prod.snd else none

/-- An instruction on global memory. -/
def Cx.global (x : Cx) (s : State) (o : MemOp) (ok strict : Bool) (n : Nat) (m : MemRef) (hitOk : Line → Bool)
    (perform : Acc → State → List (Nat × List Part) → MemRes) : State :=
  if !ok then x.badOperand s
  else if x.idle then retireIdle x s
  else
    let s := x.countLoad s o.load
    let addrs := x.lanes.map (fun t => (t, (x.ea m t).toNat))
    let ints := addrs.map (fun e => (e.1, (e.2 : Int)))
    match x.misaligned strict n ints with
    | some a => x.raise s (x.memExc 0x06 (a % 2 ^ 64).toNat)
    | none => x.memRun o (s.checkAll x.acc addrs n o.write hitOk) ints (perform x.acc)

/-- An instruction on scratchpad. -/
def Cx.scratch (x : Cx) (s : State) (o : MemOp) (ok strict : Bool) (n : Nat) (m : ScrRef)
    (perform : Acc → State → List (Nat × List SPart) → MemRes) : State :=
  if !ok then x.badOperand s
  else if x.idle then retireIdle x s
  else
    let s := x.countLoad s o.load
    let ints := x.lanes.map (fun t => (t, x.scrOff m t))
    match x.misaligned strict n ints with
    | some a => x.raise s (x.memExc 0x06 (a % 2 ^ 64).toNat)
    | none =>
      match ints.find? (fun e => decide (e.2 < 0) || decide (e.2 + n > (x.kernel.alloc : Int))) with
      | some e => x.raise s (x.memExc 0x08 (e.2 % 2 ^ 64).toNat)
      | none =>
        let c := ints.foldl (fun (c : Checked (List SPart)) e =>
          c.add e.1 (c.st.checkScrSpan x.acc x.crew.wg e.2.toNat n o.write)) (Checked.init s)
        x.memRun o c ints (perform x.acc)

/-! ## Performing -/

/-- Read the parts of one access. -/
def readParts {π : Type} (rd : State → π → ReadRes) : List π → State → ReadRes
  | [], s => (s, .ok [])
  | p :: ps, s =>
    match rd s p with
    | (s, .error v) => (s, .error v)
    | (s, .ok bs) =>
      match readParts rd ps s with
      | (s, .ok t) => (s, .ok (bs ++ t))
      | r => r

/-- Read for every thread in ascending order; poison ends the instruction. -/
def readAll {π : Type} (rd : State → π → ReadRes) (out : Nat → List Byte → List RegWrite) :
    List (Nat × List π) → State → MemRes
  | [], s => { st := s, ws := [], fps := 0, bad := none }
  | (t, ps) :: l, s =>
    match readParts rd ps s with
    | (s, .error v) => { st := s, ws := [], fps := 0, bad := some (0x12, v) }
    | (s, .ok bs) => let r := readAll rd out l s; { r with ws := out t bs ++ r.ws }

/-- Write the parts of one access; false where a consulted binding entry is poisoned. -/
def writeParts {π : Type} (len : π → Nat) (wr : State → π → List Byte → State × Bool) :
    List π → List Byte → State → State × Bool
  | [], _, s => (s, true)
  | p :: ps, bs, s =>
    match wr s p (bs.take (len p)) with
    | (s, false) => (s, false)
    | (s, true) => writeParts len wr ps (bs.drop (len p)) s

def writeAll {π : Type} (len va : π → Nat) (wr : State → π → List Byte → State × Bool) (data : Nat → List Byte) :
    List (Nat × List π) → State → MemRes
  | [], s => { st := s, ws := [], fps := 0, bad := none }
  | (t, ps) :: l, s =>
    match writeParts len wr ps (data t) s with
    | (s, false) => { st := s, ws := [], fps := 0, bad := some (0x12, ((ps.map va).headD 0) / 32 * 32) }
    | (s, true) => writeAll len va wr data l s

/-! ### Reads of a load that are still to be performed (R243, R273) -/

/-- A part's bytes, cut where a sector ends. -/
def cutSectors (home : Bool) (at_ : Attr) (key : Nat) (bs : List Byte) : List LatePiece :=
  (spanSectors key bs.length).map (fun q =>
    let lo := max key (32 * q)
    { home := home, key := lo, at_ := at_, bytes := (bs.drop (lo - key)).take (32 * q + 32 - lo) })

def RegWrite.word : RegWrite → W32
  | .v _ _ x | .s _ x => x
  | _ => 0

/-- The parts of one thread with the bytes that were read. -/
def lateParts (home : Part → Bool) : List Part → List Byte → List LatePiece
  | [], _ => []
  | p :: ps, bs => cutSectors (home p) p.at_ p.key (bs.take p.n) ++ lateParts home ps (bs.drop p.n)

/-- The rows of a load of `n` bytes from the registers that it writes, `k` of them for a thread. -/
def lateRows (home : Part → Bool) (n k : Nat) : List (Nat × List Part) → List RegWrite → List LateRow
  | [], _ => []
  | (t, ps) :: l, ws =>
    { t := t, pieces := lateParts home ps (((ws.take k).flatMap (fun w => bytesOfNat 4 w.word.toNat)).take n) } ::
      lateRows home n k l (ws.drop k)

/-! #### The registers of a load's rows -/

/-- The register writes and the exceptions of a row of LDT, from register `j` of the group up. -/
def elemWrites (ftz : Bool) (md : LdtMode) (t : Nat) (d : Reg) : List LateElem → Nat → List Byte → List RegWrite × Fps
  | [], _, _ => ([], 0)
  | e :: es, j, bs =>
    let rest := bs.drop e.n
    let v := elemReg ftz md e.fmt e.sh (bs.take e.n) (if e.scaled then rest.take 1 else [])
    let r := elemWrites ftz md t d es (j + 1) (if e.scaled then rest.drop 1 else rest)
    (wrRegAt t d j v.1 ++ r.1, v.2 ||| r.2)

def LateRow.bytes (r : LateRow) : List Byte := r.pieces.flatMap LatePiece.bytes

def LateForm.gives (f : LateForm) (d : Reg) (r : LateRow) : List RegWrite × Fps :=
  match f with
  | .words sx => (wrWords r.t d 0 (assemble sx r.bytes), 0)
  | .elems md ftz _ => elemWrites ftz md r.t d r.elems 0 r.bytes

/-- The registers that a load's rows give, and the exceptions that they raise. -/
def LateLoad.writes (l : LateLoad) : List RegWrite := l.rows.flatMap (fun r => (l.form.gives l.d r).1)
def LateLoad.fps (l : LateLoad) : Fps := l.rows.foldl (fun e r => e ||| (l.form.gives l.d r).2) 0
/-- An exception for which the load would have trapped (R100). -/
def LateLoad.traps (l : LateLoad) : Bool :=
  match l.form with
  | .words _ => false
  | .elems _ _ en => l.fps &&& en != 0

/-! #### The order of a crew's reads: of one byte in issue order, and of one load in ascending thread (R243, R276) -/

/-- A key and a count of bytes. -/
abbrev ByteSpan := Nat × Nat
def ByteSpan.meets (a b : ByteSpan) : Bool := decide (a.1 < b.1 + b.2) && decide (b.1 < a.1 + a.2)
def LatePiece.span (p : LatePiece) : ByteSpan := (p.key, p.bytes.length)

/-- The pieces of a row, still to be performed, that go together with the spans: they share a byte with one, or lie in a sector of a
piece that does (R273). `all`: another thread's read orders the whole row. -/
def LateRow.picks (r : LateRow) (all : Bool) (rs : List ByteSpan) (p : LatePiece) : Bool :=
  p.home && (all || r.pieces.any (fun q => q.home && q.key / 32 == p.key / 32 && rs.any q.span.meets))
def LateRow.picked (r : LateRow) (all : Bool) (rs : List ByteSpan) : List ByteSpan :=
  (r.pieces.filter (r.picks all rs)).map LatePiece.span

/-- Reads of the bytes of the spans, and with `all` those of higher threads, have been performed: so have been those of the rows that
come before, the last first. The spans and whether a read of a thread is among them, for what is before the rows. -/
def settleRows (rs : List ByteSpan) : List LateRow → List LateRow × List ByteSpan × Bool
  | [] => ([], rs, false)
  | r :: t =>
    let q := settleRows rs t
    let sel := r.picks q.2.2 q.2.1
    ({ r with pieces := r.pieces.map (fun p => if sel p then { p with home := false } else p) } :: q.1,
      q.2.1 ++ r.picked q.2.2 q.2.1, q.2.2 || r.pieces.any (fun p => !p.home || sel p))
def settleLoads (rs : List ByteSpan) : List Owed → List Owed × List ByteSpan
  | [] => ([], rs)
  | o :: t =>
    let q := settleLoads rs t
    match o.late with
    | none => (o :: q.1, q.2)
    | some l => let r := settleRows q.2 l.rows; ({ o with late := some { l with rows := r.1 } } :: q.1, r.2.1)
def Crew.settleReads (cr : Crew) (rs : List ByteSpan) : Crew := { cr with owed := (settleLoads rs cr.owed).1 }

/-- The spans that a load reads. -/
def LateLoad.spans (l : LateLoad) : List ByteSpan := l.rows.flatMap (fun r => r.pieces.map LatePiece.span)

/-- The spans whose reads have been performed. -/
def doneSpans (rows : List LateRow) : List ByteSpan :=
  rows.flatMap (fun r => (r.pieces.filter (fun p => !p.home)).map LatePiece.span)

/-- A plain load that has read a home slice may yet perform those reads later: nothing orders it against accesses to other
bytes (R243). What it has read for good fixes the reads of the same bytes by the crew's earlier loads (R276). -/
def MemRes.withLate (r : MemRes) (x : Cx) (d : Reg) (form : LateForm) (rows : List LateRow) : MemRes :=
  let rows := (settleRows [] rows).1
  { r with late := if d != .z && rows.any (fun r => r.pieces.any LatePiece.home) then some { d := d, form := form, rows := rows }
                   else none,
           st := r.st.modCrew x.key (·.settleReads (doneSpans rows)) }

/-- Reads are performed again, by `v`: the pieces that the spans pick, and what is ordered after them. The spans of all of them. -/
def rereadRows (v : LatePiece → List Byte) : Bool → List ByteSpan → List LateRow → List LateRow × List ByteSpan
  | _, rs, [] => ([], rs)
  | all, rs, r :: t =>
    let sel := r.picks all rs
    let q := rereadRows v (all || r.pieces.any sel) (rs ++ r.picked all rs) t
    ({ r with pieces := r.pieces.map (fun p => if sel p then { p with bytes := v p } else p) } :: q.1, q.2)

/-- The same load with other bytes: its registers and exceptions follow. -/
def Owed.reread (o : Owed) (l : LateLoad) : Owed := { o with writes := l.writes, fps := l.fps, late := some l }

def rereadLoads (v : LatePiece → List Byte) : List ByteSpan → List Owed → List Owed × List ByteSpan
  | rs, [] => ([], rs)
  | rs, o :: t =>
    match o.late with
    | none => let q := rereadLoads v rs t; (o :: q.1, q.2)
    | some l =>
      let r := rereadRows v false rs l.rows
      let q := rereadLoads v r.2 t
      (o.reread { l with rows := r.1 } :: q.1, q.2)

def LateLoad.piece (l : LateLoad) (row piece : Nat) : Option LatePiece :=
  match l.rows[row]? with
  | some r => r.pieces[piece]?
  | none => none

/-- The read of a piece of the load `id` is performed again, and so is each read that comes after it: that of a higher thread, or a
later one of a byte read again. The spans of all of them. -/
def Crew.reread (cr : Crew) (v : LatePiece → List Byte) (id row : Nat) (p : LatePiece) : Crew × List ByteSpan :=
  match cr.owed.dropWhile (fun o => o.id != id) with
  | [] => (cr, [])
  | o :: t => match o.late with
    | none => (cr, [])
    | some l =>
      let q := rereadRows v false [p.span] (l.rows.drop row)
      let w := rereadLoads v q.2 t
      ({ cr with owed := cr.owed.takeWhile (fun o => o.id != id) ++ o.reread { l with rows := l.rows.take row ++ q.1 } :: w.1 },
        w.2)

/-- The read of one sector of a load that a crew has issued is performed now. A sector that holds poison by now, or bytes for which
the load would have trapped, was read before. -/
def State.lateRead (s : State) (key : CrewKey) (id row piece : Nat) : State :=
  match s.crew? key with
  | none => s
  | some cr =>
    match s.wg? key.core cr.wg, (cr.owed.find? (fun o => o.id == id)).bind Owed.late with
    | some wg, some l =>
      match l.piece row piece with
      | some p =>
        if !p.home then s
        else
          let a : Acc := { payer := .slot key.core cr.wg wg.ctx wg.id, core := key.core, ctx := wg.ctx, func := wg.func,
                           conf := wg.conf, bench := false }
          let spans := (cr.reread LatePiece.bytes id row p).2
          let t := (spans.map (fun e => e.1 / 128)).foldl (fun s ln => (s.landOwn a ln).recall a ln) s
          let c := (cr.reread (fun p => t.view p.at_.key p.key p.bytes.length) id row p).1
          if spans.any (fun e => t.poisoned e.1 e.2) || c.owed.any (fun o => (o.late.map LateLoad.traps).getD false) then s
          else t.modCrew key (fun cr => { cr with owed := c.owed })
      | none => s
    | _, _ => s

def partSpans (l : List (Nat × List Part)) (p : Part → Bool) : List ByteSpan :=
  l.flatMap (fun e => (e.2.filter p).map (fun p => (p.key, p.n)))

/-- The VAs that the threads access. -/
def vasOf (l : List (Nat × List Part)) : List Nat := l.filterMap (fun e => e.2.head?.map Part.va)
def linesOf (l : List (Nat × List Part)) : List Nat := l.flatMap (fun e => e.2.map (fun p => p.key / 128))

/-- The ordered actions around the accesses of an instruction at DIE or wider (R244-R246); a poisoned binding entry fails
them (R188). A release at any scope follows every write that is on its way (R245). -/
def withOrder (ord : Order) (a : Acc) (l : List (Nat × List Part)) (s : State) (f : State → MemRes) : MemRes :=
  if !ord.wide then f (if ord.releases then s.landCore a.core else s)
  else match s.bindings a with
    | none => { st := s, ws := [], fps := 0, bad := some (0x12, (vasOf l).headD 0 / 32 * 32) }
    | some bs =>
      let tags := syncTags bs (vasOf l)
      let r := f (if ord.releases then s.releaseAct a tags (linesOf l) else s)
      if ord.acquires then { r with st := r.st.acquireAct a tags } else r

end Sys2Proof.Machine
end

