-- ==== Sys2Proof/Machine/LoadStore.lean ====
section
/-! DEFINITION. Group 0x8: loads and stores (R248-R253). -/

namespace Sys2Proof

def LdtCount.num : LdtCount → Nat
  | .x1 => 1
  | .x2 => 2
  | .x4 => 4

end Sys2Proof

namespace Sys2Proof.Machine

open Sys2Proof

/-- The sample of a load that neither faults nor is parked (R342). `before` is the state before the checks. Poison that a sampled
load met stands in its line: in the bytes that it reads it would be a fault. -/
def Cx.sampled (x : Cx) (before : State) (a : Acc) (l : List (Nat × List Part)) (s : State) (f : State → MemRes) : MemRes :=
  let r := f s
  match if r.bad.isNone && l.length == x.lanes.length then (l.head?.map Prod.snd).bind List.head? else none with
  | none => r
  | some p =>
    let poison := match (r.st.core a.core).l1Find a.ctx (p.va / 128) with
      | some l => l.poison != 0
      | none => false
    { r with st := r.st.sampleLoad x (!p.hit && (before.tlbFind a p.va).isNone) poison p.va (s.levelOf a p) }

/-- What a load has read for good fixes the reads of the same bytes by the crew's earlier loads (R243, R276). -/
def MemRes.fixes (r : MemRes) (x : Cx) (rs : List ByteSpan) : MemRes :=
  { r with st := r.st.modCrew x.key (·.settleReads rs) }

/-! ## LD, LDC, ST (R248) -/

/-- `home`: the parts that are read at a home slice, whose reads may be performed later (R273). -/
def loadGlobal (h : Hdr) (op : Nat) (sz : MSize) (sx : Bool) (ord : Order) (d : Reg) (m : MemRef) (hitOk : Line → Bool)
    (home : Acc → State → Part → Bool) (rd : Acc → State → Part → ReadRes) (s : State) : Out :=
  withCx h s (fun x s =>
    let o : MemOp := { op := op, code := sz.code.toNat, scr := false, ret := true, write := false, order := ord,
                       dst := Dest.reg d sz.regs, load := true }
    .next (x.global s o (x.kernel.groupOk sz.regs d && x.kernel.memOk m) (!ord.isPlain) sz.bytes m hitOk
      (fun a s' l =>
        let r := withOrder ord a l s' (fun s' => x.sampled s a l s' (readAll (rd a) (fun t bs => wrWords t d 0 (assemble sx bs)) l))
        r.withLate x d (.words sx) (lateRows (fun p => ord.isPlain && home a s' p) sz.bytes sz.regs l r.ws))))

/-- A part that a plain LD or LDT reads at the home slice (R242). -/
def State.atHome (s : State) (a : Acc) (hint : Hint) (p : Part) : Bool :=
  hint == .na && ((s.core a.core).l1Find a.ctx (p.va / 128)).isNone

def execLd (h : Hdr) (sz : MSize) (sx : Bool) (ord : Order) (hint : Hint) (d : Reg) (m : MemRef) (s : State) : Out :=
  loadGlobal h 0x100 sz sx ord d m (fun _ => !ord.wide)
    (fun a s p => s.atHome a hint p)
    (fun a => if ord.wide then fun s p => s.readMiss a p else fun s p => s.readPlain a (ord.hint hint) p) s

def execLdc (h : Hdr) (sz : MSize) (sx : Bool) (d : Reg) (m : MemRef) (s : State) : Out :=
  loadGlobal h 0x105 sz sx .plain d m (fun l => l.excl)
    (fun a s p => match (s.core a.core).l1Find a.ctx (p.va / 128) with
      | some l => !l.excl
      | none => true) (fun a s p => s.readCoherent a p) s

def execSt (h : Hdr) (sz : MSize) (ord : Order) (hint : Hint) (d : Reg) (m : MemRef) (s : State) : Out :=
  withCx h s (fun x s =>
    let o : MemOp := { op := 0x101, code := sz.code.toNat, scr := false, ret := false, write := true, order := ord,
                       dst := Dest.none }
    .next (x.global s o (x.kernel.groupOk sz.regs d && x.kernel.memOk m) (!ord.isPlain) sz.bytes m (fun _ => !ord.wide)
      (fun a s l => withOrder ord a l s (writeAll Part.n Part.va
        (fun s p bs => if ord.wide then (s.writeMiss a p bs, true) else s.writePlain a (ord.hint hint) p bs)
        (fun t => x.rdGroup t d sz.bytes) l))))

/-! ## LDS, STS (R250) -/

def execLds (h : Hdr) (sz : MSize) (sx : Bool) (d : Reg) (m : ScrRef) (s : State) : Out :=
  withCx h s (fun x s =>
    let o : MemOp := { op := 0x102, code := sz.code.toNat, scr := true, ret := true, write := false, order := .plain,
                       dst := Dest.reg d sz.regs }
    .next (x.scratch s o (x.kernel.groupOk sz.regs d && x.kernel.scrOk m) false sz.bytes m
      (fun a s l => (readAll (fun s p => s.readScr a x.crew.wg p) (fun t bs => wrWords t d 0 (assemble sx bs)) l s).fixes x
        (partSpans (l.map (fun e => (e.1, e.2.filterMap SPart.need))) (fun _ => true)))))

def execSts (h : Hdr) (sz : MSize) (d : Reg) (m : ScrRef) (s : State) : Out :=
  withCx h s (fun x s =>
    let o : MemOp := { op := 0x103, code := sz.code.toNat, scr := true, ret := false, write := true, order := .plain,
                       dst := Dest.none }
    .next (x.scratch s o (x.kernel.groupOk sz.regs d && x.kernel.scrOk m) false sz.bytes m
      (fun a s l => writeAll SPart.n SPart.off (fun s p bs => s.writeScr a x.crew.wg p bs)
        (fun t => x.rdGroup t d sz.bytes) l s)))

/-! ## LDT (R251-R253) -/

/-- One element of a thread: its bytes, its bit place in the first, its page's format, and its scale byte. -/
structure Elem where
  parts : List Part
  sh    : Nat
  fmt   : Nat
  scale : Option Part
  deriving DecidableEq, Repr

/-- The parts of `n` bytes from `va` (R112: every element has the fields of its own page). Bytes that the first level holds pass at
once, with the fields of the translation that filled the line (R221, R225; assumption 69). -/
def State.checkElemBytes (s : State) (x : Cx) (va n : Nat) : State × Except AccFail (List Part) :=
  if x.kernel.align && va % n != 0 then (s, .error (.fault 0x06 va))
  else s.checkSpan x.acc va n false (fun _ => true)

/-- The checks of element `i` of a thread. Every page that the element lies in must have a format of its width (R111, R252);
of two pages whose fields differ the first byte's decode it (assumption 55). -/
def State.checkElem (s : State) (x : Cx) (base w : Nat) (md : LdtMode) (i : Int) : State × Except AccFail Elem :=
  let bit : Int := i * w
  let va := (((base : Int) + bit / 8) % 2 ^ 64).toNat
  match s.checkElemBytes x va (max 1 (w / 8)) with
  | (s, .error e) => (s, .error e)
  | (s, .ok ps) =>
    let at_ := (ps.head?.map Part.at_).getD Attr.plain
    if ps.any (fun p => decide (fmtWidth p.at_.fmt ≠ w)) then (s, .error (.fault 0x07 va))
    else match md with
      | .scl ss =>
        if at_.fmt = 0x07 then (s, .error (.fault 0x07 va))
        else
          let sva := ((((x.rdPair ss).toNat : Int) + i / (bgSize at_.bg : Int)) % 2 ^ 64).toNat
          match s.checkPart x.acc sva 1 false (fun _ => true) with
          | (s, .error e) => (s, .error e)
          | (s, .ok p) =>
            if p.at_.fmt ≠ 0x07 then (s, .error (.fault 0x07 sva))
            else (s, .ok { parts := ps, sh := (bit % 8).toNat, fmt := at_.fmt, scale := some p })
      | _ => (s, .ok { parts := ps, sh := (bit % 8).toNat, fmt := at_.fmt, scale := none })

/-- The checks of a thread: the leaf of byte Sb gives the width, then every element. -/
def State.checkLdt (s : State) (x : Cx) (m : MemRef) (md : LdtMode) (k t : Nat) : State × Except AccFail (List Elem) :=
  let base := (x.rdPair m.base).toNat
  match s.checkPart x.acc base 1 false (fun _ => true) with
  | (s, .error e) => (s, .error e)
  | (s, .ok p) =>
    let w := fmtWidth p.at_.fmt
    if w = 0 then (s, .error (.fault 0x07 base))
    else (List.range k).foldl (fun r (j : Nat) =>
      match r.2 with
      | .error e => (r.1, .error e)
      | .ok es =>
        match r.1.checkElem x base w md (((x.rdReg t m.off).toNat : Int) + m.disp.toInt + j) with
        | (s, .error e) => (s, .error e)
        | (s, .ok e) => (s, .ok (es ++ [e]))) (s, .ok [])

/-- The parts that a thread's elements read, in order: each element's, then its scale byte's. -/
def elemParts (es : List Elem) : List Part := es.flatMap (fun e => e.parts ++ e.scale.toList)
def Elem.late (e : Elem) : LateElem :=
  { n := (e.parts.map Part.n).sum, sh := e.sh, fmt := e.fmt, scaled := e.scale.isSome }

/-- Read the elements of every thread in ascending order, the last of the rows first; poison ends the instruction. -/
def readThreads (rd : State → Part → ReadRes) (home : Part → Bool) : List (Nat × List Elem) → State →
    State × Except Nat (List LateRow)
  | [], s => (s, .ok [])
  | (t, es) :: l, s =>
    match readParts rd (elemParts es) s with
    | (s, .error v) => (s, .error v)
    | (s, .ok bs) =>
      match readThreads rd home l s with
      | (s, .ok rows) => (s, .ok ({ t := t, pieces := lateParts home (elemParts es) bs, elems := es.map Elem.late } :: rows))
      | r => r

/-- LDT's reads, its registers and its exceptions. -/
def readLdt (a : Acc) (hint : Hint) (form : LateForm) (d : Reg) (home : Part → Bool) (l : List (Nat × List Elem)) (s : State) :
    MemRes × List LateRow :=
  match readThreads (fun s p => s.readPlain a hint p) home l s with
  | (s, .error v) => ({ st := s, ws := [], fps := 0, bad := some (0x12, v) }, [])
  | (s, .ok rows) =>
    let r : LateLoad := { d := d, form := form, rows := rows }
    ({ st := s, ws := r.writes, fps := r.fps, bad := none }, rows)

/-- R100: an enabled exception makes LDT trap, writing no register. -/
def trapFps (k : Kernel) (r : MemRes) : MemRes :=
  if r.bad.isNone && r.fps &&& k.fpEnables != 0 then { r with bad := some (0x03, 0) } else r

def execLdt (h : Hdr) (k : LdtCount) (md : LdtMode) (hint : Hint) (d : Reg) (m : MemRef) (s : State) : Out :=
  withCx h s (fun x s =>
    let o : MemOp := { op := 0x104, code := 0, scr := false, ret := true, write := false, order := .plain,
                       dst := Dest.reg d k.num, load := true }
    let sclOk := match md with
      | .scl ss => x.kernel.spairOk ss
      | _ => true
    .next (
      if !(x.kernel.groupOk k.num d && x.kernel.memOk m && sclOk) then x.badOperand s
      else if x.idle then retireIdle x s
      else
        let s := x.countLoad s true
        let form : LateForm := .elems md x.kernel.ftz x.kernel.fpEnables
        let c := x.lanes.foldl (fun (c : Checked (List Elem)) t => c.add t (c.st.checkLdt x m md k.num t)) (Checked.init s)
        let first (l : List (Nat × List Elem)) := l.map (fun e => (e.1, (e.2.head?.map Elem.parts).getD []))
        let addrs := (first c.pass).map (fun e => (e.1, (((e.2.head?.map Part.va).getD 0 : Nat) : Int)))
        let code := match (c.pass.head?.bind (fun e => e.2.head?)) with
          | some e => if fmtWidth e.fmt = 32 then 2 else if fmtWidth e.fmt = 16 then 1 else 0
          | none => 0
        x.memRun { o with code := code } c addrs (fun s' l =>
          let q := readLdt x.acc hint form d (fun p => s'.atHome x.acc hint p) l s'
          (x.sampled s x.acc (first l) s' (fun _ => trapFps x.kernel q.1)).withLate x d form q.2)))

end Sys2Proof.Machine
end

