-- ==== Sys2Proof/Machine/Atomic.lean ====
section
/-! DEFINITION. Group 0x9: atomics (R254-R257). -/

namespace Sys2Proof.Machine

open Sys2Proof

/-- New(op, m, v) on `w`-bit words, with the exceptions raised (R254). -/
def atomicNew (ftz : Bool) (op : AOp) (w m v : Nat) : Nat × Fps :=
  let sm := asInt true w m
  let sv := asInt true w v
  match op with
  | .add => ((m + v) % 2 ^ w, 0)
  | .and => (m &&& v, 0)
  | .or => (m ||| v, 0)
  | .xor => (m ^^^ v, 0)
  | .exch => (v, 0)
  | .mins => (if sv < sm then v else m, 0)
  | .maxs => (if sm < sv then v else m, 0)
  | .minn => (min m v, 0)
  | .maxn => (max m v, 0)
  | .inc => (if m ≥ v then 0 else m + 1, 0)
  | .dec => (if m = 0 ∨ m > v then v else m - 1, 0)
  | .fadd => let r := add32 ftz m v; (r.code, r.fps)
  | .fmin => floatFold false
  | .fmax => floatFold true
where
  /-- R101: an incoming NaN leaves the word and sets NV. -/
  floatFold (isMax : Bool) : Nat × Fps :=
    if (fval fF32 v).isNan then (m, fNV)
    else let r := flushOut ftz fF32 (fMinMax fF32 isMax (flushIn ftz fF32 m) (flushIn ftz fF32 v)); (r.code, r.fps)

/-- What one thread does to the word it finds: the new word, none where nothing is written, and the exceptions. -/
abbrev Rmw := Nat → Nat → Option Nat × Fps

/-- What keeps an update from being made (R188, R230). -/
inductive UpdFail
  | poison                 -- of the word
  | binding                -- of a consulted binding entry
  deriving DecidableEq, Repr

/-- An indivisible update of a part at its place (R247): the old word. At a peer's slice a copy on this core takes the new
word, clean (R243). -/
def State.updateGlobal (s : State) (a : Acc) (p : Part) (f : Nat → Option Nat × Fps) :
    State × Except UpdFail (Nat × Fps) :=
  match homeOf p.key with
  | .peer _ =>
    let h := ((s.tally a 5).syncOwn a p.key p.n).homeRead a p.at_ p.key p.n
    if h.2.2 then (h.1, .error .poison)
    else
      let m := natOfBytes h.2.1
      let r := f m
      match r.1 with
      | none => (h.1, .ok (m, r.2))
      | some v => (h.1.writeHome a p (bytesOfNat p.n v), .ok (m, r.2))
  | _ =>
    match s.takeExcl a p with
    | (s, none) => (s, .error .binding)
    | (s, some l) =>
      let off := p.va % 128
      let pay (s : State) := s.bill a.payer (.core a.core) 5 (spanSectors off p.n).length
      let s := pay s
      if l.bad off p.n then (s, .error .poison)
      else
        let m := natOfBytes (l.read off p.n)
        let r := f m
        match r.1 with
        | none => (s, .ok (m, r.2))
        | some v => ((pay s).linePut a l off (bytesOfNat p.n v), .ok (m, r.2))

/-- R230: RED on poison leaves the word and is logged. -/
def State.logRed (s : State) (a : Acc) (p : Part) : State :=
  let pa := paOfKey p.key
  s.log { kind := 3, die := a.core / 192, core := a.core, who := a.func,
          addr := if p.conf then pa / 2 ^ 30 * 2 ^ 30 else pa, val := 0 }

/-- Every thread in ascending order. `red`: a poisoned word is left and logged; otherwise it is a fault (R256). -/
def updateAll (a : Acc) (red : Bool) (f : Nat → Nat → Option Nat × Fps) (out : Nat → Nat → List RegWrite) :
    List (Nat × List Part) → State → MemRes
  | [], s => { st := s, ws := [], fps := 0, bad := none }
  | (t, ps) :: l, s =>
    match ps with
    | [] => updateAll a red f out l s
    | p :: _ =>
      match s.updateGlobal a p (f t) with
      | (s, .ok (m, e)) => let r := updateAll a red f out l s; { r with ws := out t m ++ r.ws, fps := e ||| r.fps }
      | (s, .error e) =>
        if red && e == .poison then updateAll a red f out l (s.logRed a p)
        else { st := s, ws := [], fps := 0, bad := some (0x12, p.va / 32 * 32) }

/-- Words of a value of `n` bytes. -/
def wordsOf (n v : Nat) : List W32 := (List.range (n / 4)).map (fun k => BitVec.ofNat 32 (v / 2 ^ (32 * k)))

/-- ATOM, ATOMCAS and RED (R255, R257). -/
def atomicGlobal (h : Hdr) (op : Nat) (sz : ASize) (ord : Order) (ok : Kernel → Bool) (m : MemRef) (red : Bool) (dst : Dest)
    (f : Cx → Nat → Nat → Option Nat × Fps) (out : Nat → Nat → List RegWrite) (s : State) : Out :=
  withCx h s (fun x s =>
    let o : MemOp := { op := op, code := if sz = .b4 then 2 else 3, scr := false, ret := !red, write := true, order := ord,
                       dst := dst, load := !red }
    .next (x.global s o (ok x.kernel && x.kernel.memOk m) true sz.bytes m (fun l => l.excl)
      (fun a s' l => withOrder ord a l s' (fun s' =>
        if red then updateAll a red (f x) out l s'
        else x.sampled s a l s' (updateAll a red (f x) out l)))))

def execAtom (h : Hdr) (op : AOp) (sz : ASize) (ord : Order) (d : Reg) (m : MemRef) (s : State) : Out :=
  atomicGlobal h 0x120 sz ord (fun k => k.groupOk sz.regs d) m false (Dest.reg d sz.regs)
    (fun x t old => let r := atomicNew x.kernel.ftz op (8 * sz.bytes) old (natOfBytes (x.rdGroup t d sz.bytes)); (some r.1, r.2))
    (fun t old => wrWords t d 0 (wordsOf sz.bytes old)) s

def execRed (h : Hdr) (op : AOp) (sz : ASize) (ord : Order) (d : Reg) (m : MemRef) (s : State) : Out :=
  atomicGlobal h 0x122 sz ord (fun k => k.groupOk sz.regs d) m true Dest.none
    (fun x t old => let r := atomicNew x.kernel.ftz op (8 * sz.bytes) old (natOfBytes (x.rdGroup t d sz.bytes)); (some r.1, r.2))
    (fun _ _ => []) s

/-- The compare and the swap value of a thread (R257). -/
def Cx.casWord (x : Cx) (sz : ASize) (d : Reg) (t old : Nat) : Option Nat × Fps :=
  let bs := x.rdGroup t d (2 * sz.bytes)
  (if old = natOfBytes (bs.take sz.bytes) then some (natOfBytes (bs.drop sz.bytes)) else none, 0)

def execAtomcas (h : Hdr) (sz : ASize) (ord : Order) (d : Reg) (m : MemRef) (s : State) : Out :=
  atomicGlobal h 0x121 sz ord (fun k => k.groupOk (2 * sz.regs) d) m false (Dest.reg d sz.regs)
    (fun x t old => x.casWord sz d t old) (fun t old => wrWords t d 0 (wordsOf sz.bytes old)) s

/-! ## Scratchpad atomics -/

def updateScr (a : Acc) (wg : Nat) (f : Nat → Nat → Option Nat × Fps) (out : Nat → Nat → List RegWrite) :
    List (Nat × List SPart) → State → MemRes
  | [], s => { st := s, ws := [], fps := 0, bad := none }
  | (t, ps) :: l, s =>
    match ps with
    | [] => updateScr a wg f out l s
    | p :: _ =>
      match s.readScr a wg p with
      | (s, .error v) => { st := s, ws := [], fps := 0, bad := some (0x12, v) }
      | (s, .ok bs) =>
        let m := natOfBytes bs
        let r := f t m
        let s := match r.1 with
          | some v => (s.writeScr a wg p (bytesOfNat p.n v)).1
          | none => s
        let q := updateScr a wg f out l s
        { q with ws := out t m ++ q.ws, fps := r.2 ||| q.fps }

/-- The sample of a scratchpad atomic that neither faults nor is parked (R342): its address is the scratchpad offset, and it is served
by the stash where a window holds the offset (assumption 93). -/
def Cx.sampledScr (x : Cx) (before : State) (a : Acc) (l : List (Nat × List SPart)) (r : MemRes) : MemRes :=
  match if r.bad.isNone && l.length == x.lanes.length then (l.head?.map Prod.snd).bind List.head? else none with
  | none => r
  | some p =>
    let miss := match p.need with
      | some q => !q.hit && (before.tlbFind a q.va).isNone
      | none => false
    { r with st := r.st.sampleLoad x miss (p.win.isSome && r.st.scrBad a.core x.crew.wg (p.off / 128 * 128) 128) p.off
                     (if p.win.isSome then 1 else 0) }

def atomicScr (h : Hdr) (op : Nat) (sz : ASize) (ok : Kernel → Bool) (m : ScrRef) (dst : Dest)
    (f : Cx → Nat → Nat → Option Nat × Fps) (out : Nat → Nat → List RegWrite) (s : State) : Out :=
  withCx h s (fun x s =>
    let o : MemOp := { op := op, code := if sz = .b4 then 2 else 3, scr := true, ret := true, write := true, order := .plain,
                       dst := dst, load := true }
    .next (x.scratch s o (ok x.kernel && x.kernel.scrOk m) true sz.bytes m
      (fun a s' l => x.sampledScr s a l (updateScr a x.crew.wg (f x) out l s'))))

def execAtoms (h : Hdr) (op : AOp) (sz : ASize) (d : Reg) (m : ScrRef) (s : State) : Out :=
  atomicScr h 0x123 sz (fun k => k.groupOk sz.regs d) m (Dest.reg d sz.regs)
    (fun x t old => let r := atomicNew x.kernel.ftz op (8 * sz.bytes) old (natOfBytes (x.rdGroup t d sz.bytes)); (some r.1, r.2))
    (fun t old => wrWords t d 0 (wordsOf sz.bytes old)) s

def execAtomcass (h : Hdr) (sz : ASize) (d : Reg) (m : ScrRef) (s : State) : Out :=
  atomicScr h 0x124 sz (fun k => k.groupOk (2 * sz.regs) d) m (Dest.reg d sz.regs)
    (fun x t old => x.casWord sz d t old) (fun t old => wrWords t d 0 (wordsOf sz.bytes old)) s

end Sys2Proof.Machine
end

