-- ==== Sys2Proof/Machine/Cache.lean ====
section
/-! DEFINITION. Group 0xA: fences, cache maintenance, bindings, prefetch and stash windows (R258-R267), and the instruction
cache (R220, R222, R284). -/

namespace Sys2Proof.Machine

open Sys2Proof

/-! ## The instruction cache -/

def Core.icSet (co : Core) (lva : Nat) : List ILine := kget [] (lva % 128) co.icache
def Core.icFind (co : Core) (ctx lva : Nat) : Option ILine :=
  (co.icSet lva).find? (fun l => l.ctx == ctx && l.lva == lva)
/-- Keep the lines that the test selects. -/
def Core.icKeep (co : Core) (p : ILine → Bool) : Core :=
  { co with icache := (co.icache.map (fun e => (e.1, e.2.filter p))).filter (fun e => !e.2.isEmpty) }
/-- Put a line as the most recently used of its set of four. -/
def Core.icPut (co : Core) (l : ILine) : Core :=
  let rest := (co.icSet l.lva).filter (fun m => !(m.ctx == l.ctx && m.lva == l.lva))
  { co with icache := kset [] (l.lva % 128) (l :: rest.take 3) co.icache }

/-- Fill a line from the home slice; the copy of the same storage line under another address is removed (R222). With
`drop`, a poisoned line is not kept (R261). -/
def State.icFill (s : State) (a : Acc) (va k : Nat) (at_ : Attr) (drop : Bool) : State × ILine :=
  let h := s.homeRead a at_ (k / 128 * 128) 128
  let pois : BitVec 4 := maskOf 4 ((List.range 4).filter (fun q => h.1.badSector (k / 128 * 4 + q)))
  let l : ILine := { ctx := a.ctx, lva := va / 128, pa := k / 128, bytes := h.2.1, poison := pois }
  if drop && pois != 0 then (h.1, l)
  else (h.1.modCore a.core (fun co => (co.icKeep (fun m => m.pa != l.pa)).icPut l), l)

/-! ## FENCE (R258) -/

/-- A release waits for every write of the core that is on its way, and for what it writes back: the core's next access does
not start before they are accepted (`must`). A FENCE of both kinds acts as its acquire part does, once all of that has been accepted:
a line that another crew fills in between is invalidated with the rest. -/
def execFence (h : Hdr) (kind : FenceKind) (sc : Scope) (s : State) : Out :=
  withCx h s (fun x s => .next (
    if x.idle then retireIdle x s
    else
      let held := s.holdFor x.key.core
      if !sc.wide then retireLater x (match kind with
        | .acq => s
        | .rel | .both => held)
      else
        let mine (l : Line) := l.ctx == x.wg.ctx
        retireLater x (match kind with
          | .rel => held.sweep x.acc mine false
          | .acq => s.sweep x.acc mine true
          | .both => ((s.sweep x.acc mine false).landCore x.key.core).sweep x.acc mine true)))

/-! ## BIND, UNBIND (R263, R264) -/

/-- R263 step 2. -/
def imageOk (v : Nat) : Bool :=
  let base := v % 2 ^ 64
  let limit := v / 2 ^ 64 % 2 ^ 64
  decide (base < limit) && base % 128 == 0 && limit % 128 == 0 && v / 2 ^ 128 % 8 == 0 && v / 2 ^ 198 % 4 == 0 &&
    v / 2 ^ 201 == 0

/-- Steps 3 and 4: the entry is written whole, and no core holds a copy of it (every consultation reads the table). -/
def State.putBinding (s : State) (a : Acc) (i v : Nat) : State :=
  match s.ctxDesc a.ctx with
  | none => s
  | some d =>
    match s.key d.btab with
    | none => s
    | some k => s.homeWrite a Attr.plain (bytesAt (k + 32 * i) (bytesOfNat 32 v)) (fun _ => false)

def execBind (h : Hdr) (k img : Src) (s : State) : Out :=
  withCx h s (fun x s => .next (
    if !(x.kernel.s1 k && x.kernel.srcOk 2 img) then x.badOperand s
    else if x.idle then retireIdle x s
    else
      let i := (x.rd 0 k).toNat
      let si := (x.rd64 0 false img).toNat
      if i ≥ 64 || si % 32 != 0 then x.badValue s
      else match s.checkSpan x.acc si 32 false (fun _ => false) with
        | (s, .error (.park c v l)) => x.park s x.mask (c, v, l) false Dest.none
        | (s, .error (.fault c v)) => x.raise s (x.memExc c v)
        | (s, .ok ps) =>
          match readParts (fun s p => s.readHome x.acc p) ps s with
          | (s, .error v) => x.raise s (x.memExc 0x12 v)
          | (s, .ok bs) =>
            let v := natOfBytes bs
            if imageOk v then retireNone x (s.putBinding x.acc i (v ||| 2 ^ 200)) 0 else x.badValue s))

/-- The value that UNBIND writes: VALID 0, the rest as held, or 0 where the sector is poisoned. -/
def State.unboundEntry (s : State) (a : Acc) (i : Nat) : Nat :=
  match s.ctxDesc a.ctx with
  | none => 0
  | some d =>
    match s.key d.btab with
    | none => 0
    | some k =>
      if s.poisoned (k + 32 * i) 32 then 0
      else
        let v := s.peekNat (k + 32 * i) 32
        if v.testBit 200 then v - 2 ^ 200 else v

def execUnbind (h : Hdr) (k : Src) (s : State) : Out :=
  withCx h s (fun x s => .next (
    if !x.kernel.s1 k then x.badOperand s
    else if x.idle then retireIdle x s
    else
      let i := (x.rd 0 k).toNat
      if i ≥ 64 then x.badValue s
      else retireNone x (s.putBinding x.acc i (s.unboundEntry x.acc i)) 0))

/-! ## CFLUSH, CINV, PRF, HINT (R259, R260) -/

/-- The first-level and stash copies of a line of the context: written back or discarded, then invalidated. A line held
exclusively goes home with its data. What is written back sets out, each sector to be accepted in its own time (R273). -/
def State.flushLine (s : State) (a : Acc) (lva : Nat) (keep : Bool) : State :=
  let s := match (s.core a.core).l1Find a.ctx lva with
    | some l => (if keep || l.excl then s.writeOff a l true else s).dropLine a.core l
    | none => s
  ((s.stashLines a.core).filter (fun e => e.2.2.ctx == a.ctx && e.2.2.lva == lva)).foldl (fun s e =>
    (if keep then s.writeOff a e.2.2 true else s).modCore a.core (·.stashDel e.1 e.2.1)) s

/-- The second-level action: the line is translated, recalled, its dirty data written to DRAM, and invalidated. Any fault
skips it. -/
def State.flushL2 (s : State) (a : Acc) (va : Nat) : State :=
  match s.translate a va false false with
  | (s, .ok t) =>
    match s.keyOf t va with
    | none => s
    | some k =>
      match homeOf k with
      | .core c =>
        let ln := k / 128
        let s := (s.landOwn a ln).recall a ln
        match kfind (ln / 4) s.l2 with
        | none => s
        | some x =>
          let bit : BitVec 4 := 1#4 <<< (ln % 4)
          let s := if x.dirty &&& bit != 0 then s.bill a.payer (.core c) 9 4 else s
          let y := { x with present := x.present &&& ~~~bit, dirty := x.dirty &&& ~~~bit }
          { s with l2 := if y.present = 0 then kdel (ln / 4) s.l2 else kput (ln / 4) y s.l2 }
      | _ => s
  | (s, _) => s

/-- An instruction on lines that no fault can stop: an action for every thread's address. It completes at issue, or when its
actions are accepted. -/
def lineOp (h : Hdr) (m : MemRef) (f : Cx → State → Nat → State) (s : State) (retire : Cx → State → State := fun x s => retireNone x s 0) :
    Out :=
  withCx h s (fun x s => .next (
    if !x.kernel.memOk m then x.badOperand s
    else if x.idle then retireIdle x s
    else retire x (x.lanes.foldl (fun s t => f x s (x.ea m t).toNat) s)))

def execCflush (h : Hdr) (l2 : Bool) (m : MemRef) (s : State) : Out :=
  lineOp h m (fun x s va => let s := s.flushLine x.acc (va / 128) true; if l2 then s.flushL2 x.acc va else s) s retireLater
def execCinv (h : Hdr) (l2 : Bool) (m : MemRef) (s : State) : Out :=
  lineOp h m (fun x s va => let s := s.flushLine x.acc (va / 128) false; if l2 then s.flushL2 x.acc va else s) s retireLater

/-- The class of a superblock (R233), where the line is present in it (R260). -/
def State.hintL2 (s : State) (k : Nat) (f : HClass → HClass) : State :=
  match homeOf k with
  | .core _ => if s.l2Has (k / 128) then { s with l2 := kmod (k / 512) (fun x => { x with hint := f x.hint }) s.l2 } else s
  | _ => s

def State.prefetch (s : State) (a : Acc) (l2 : Bool) (hint : Hint) (va : Nat) : State :=
  let lva := va / 128 * 128
  if l2 then
    match s.translate a lva false false with
    | (s, .ok t) =>
      match s.keyOf t lva with
      | none => s
      | some k =>
        match homeOf k with
        | .core _ => (s.homeRead a (t.attr a) k 128).1.hintL2 k (·.touch hint)
        | _ => s
    | (s, _) => s
  else
    match s.checkPart a lva 128 false (fun _ => true) with
    | (s, .ok p) => (s.readPlain a hint p).1
    | (s, .error _) => s

def execPrf (h : Hdr) (l2 : Bool) (hint : Hint) (m : MemRef) (s : State) : Out :=
  lineOp h m (fun x s va => s.prefetch x.acc l2 hint va) s

def hintFun (md : HintMode) (c : HClass) : HClass :=
  match md with
  | .norm => .normal
  | .ef => c.touch .ef
  | .el => c.touch .el

def execHint (h : Hdr) (md : HintMode) (lv : HintLevels) (m : MemRef) (s : State) : Out :=
  lineOp h m (fun x s va =>
    let s := match lv with
      | .l2 => s
      | _ => s.modCore x.key.core (·.l1Mod x.wg.ctx (va / 128) (fun l => { l with hint := hintFun md l.hint }))
    match lv with
    | .l1 => s
    | _ =>
      match s.translate x.acc va false false with
      | (s, .ok t) =>
        match s.keyOf t va with
        | some k => s.hintL2 k (hintFun md)
        | none => s
      | (s, _) => s) s

/-! ## IPF, ISYNC (R261, R262) -/

def ipfLines : IpfCount → Nat
  | .n1 => 1
  | .n2 => 2
  | .n4 => 4
  | .n8 => 8

/-- A fill that meets a poisoned binding entry is dropped (R188). -/
def State.ipfLine (s : State) (a : Acc) (va : Nat) : State :=
  if ((s.core a.core).icFind a.ctx (va / 128)).isSome || (s.bindings a).isNone then s
  else match s.translate a va false true with
    | (s, .ok t) =>
      match s.keyOf t va with
      | some k => (s.icFill a va k (t.attr a) true).1
      | none => s
    | (s, _) => s

def execIpf (h : Hdr) (n : IpfCount) (m : MemRef) (s : State) : Out :=
  lineOp h m (fun x s va =>
    (List.range (ipfLines n)).foldl (fun s i => s.ipfLine x.acc (va / 128 * 128 + 128 * i)) s) s

def Core.modSeq (co : Core) (q : Nat) (f : Seq → Seq) : Core := { co with seqs := lmod co.seqs q f }

def execIsync (h : Hdr) (s : State) : Out :=
  withCx h s (fun x s => .next (
    if x.idle then retireIdle x s
    else (retireNone x (s.modCore x.key.core (fun co =>
      (co.icKeep (fun l => l.ctx != x.wg.ctx)).modSeq (seqOf x.key.slot) (fun q => { q with cache := [] }))) 0).modCrew
        x.key (fun cr => { cr with fbuf := [] })))

/-! ## Stash windows (R265, R267) -/

/-- R265: the window that the operands describe, if the map is legal. -/
def Cx.stashWindow (x : Cx) (s : State) (sg sp : Nat) : Option Window :=
  let off := sp % 2 ^ 11 * 128
  let len := (sp / 2 ^ 11 % 2 ^ 11 + 1) * 128
  let w : Window := { wg := x.crew.wg, va := BitVec.ofNat 64 sg, off := x.kernel.stashAt + off, len := len, lines := [], handle := 0 }
  let clash := (s.core x.key.core).windows.any (fun e =>
    e.2.wg == w.wg && decide (e.2.off < w.off + w.len) && decide (w.off < e.2.off + e.2.len))
  if sg % 128 ≠ 0 ∨ sp / 2 ^ 22 ≠ 0 ∨ off + len > up1k x.kernel.stash ∨ clash then none else some w

/-- The entry of the window that a workgroup knows by a number (assumption 59). -/
def Core.winOf (co : Core) (wg n : Nat) : Option Nat := (co.windows.find? (fun e => e.2.wg == wg && e.2.handle == n)).map Prod.fst
/-- The number by which a workgroup is to know entry `i`: its own, if the workgroup knows no other window by it. -/
def Core.winName (co : Core) (wg i : Nat) : Nat :=
  if (co.winOf wg i).isNone then i else ((List.range 64).find? (fun n => (co.winOf wg n).isNone)).getD i

def execStashmap (h : Hdr) (d : Reg) (sg : SPair) (sp : Src) (s : State) : Out :=
  withCx h s (fun x s => .next (
    if !(x.kernel.r1 d && x.kernel.spairOk sg && x.kernel.s1 sp) then x.badOperand s
    else if x.idle then retireIdle x s
    else match x.stashWindow s (x.rdPair sg).toNat (x.rd 0 sp).toNat with
      | none => x.badValue s
      | some w =>
        match kfree 64 (s.core x.key.core).windows with
        | none => retireVar x s 0 (Dest.reg d 1) (wrReg 0 d 0xFFFFFFFF) 0 false
        | some i =>
          let n := (s.core x.key.core).winName x.crew.wg i
          retireVar x (s.modCore x.key.core (fun co => { co with windows := kput i { w with handle := n } co.windows })) 0
            (Dest.reg d 1) (wrReg 0 d (BitVec.ofNat 32 n)) 0 false))

/-- Write back the dirty bytes of a window's lines, which stay filled; they set out, each sector to be accepted in its own time. -/
def State.flushWindow (s : State) (a : Acc) (wi : Nat) : State :=
  ((s.stashLines a.core).filter (fun e => e.1 == wi)).foldl (fun s e =>
    (s.writeOff a e.2.2 true).modCore a.core (·.stashMod wi e.2.1 Line.cleanAll)) s

/-- Unmap: the entry is free and its scratchpad bytes read zero. -/
def State.unmapWindow (s : State) (c wi : Nat) : State :=
  match kfind wi (s.core c).windows with
  | none => s
  | some w =>
    (s.modWg c w.wg (fun x =>
      { x with scr := x.scr.filter (fun e => decide (e.1 < w.off) || decide (w.off + w.len ≤ e.1)),
               scrPoison := x.scrPoison.filter (fun q => decide (q < w.off / 32) || decide ((w.off + w.len) / 32 ≤ q)) })).modCore
      c (fun co => { co with windows := kdel wi co.windows })

def stashOp (h : Hdr) (sh : Src) (f : Cx → State → Nat → State) (s : State) : Out :=
  withCx h s (fun x s => .next (
    if !x.kernel.s1 sh then x.badOperand s
    else if x.idle then retireIdle x s
    else
      match (s.core x.key.core).winOf x.crew.wg (x.rd 0 sh).toNat with
      | some wi => retireLater x (f x s wi)
      | none => x.badValue s))

def execStashwb (h : Hdr) (sh : Src) (s : State) : Out := stashOp h sh (fun x s wi => s.flushWindow x.acc wi) s
def execStashdrop (h : Hdr) (nowb : Bool) (sh : Src) (s : State) : Out :=
  stashOp h sh (fun x s wi => (if nowb then s else s.flushWindow x.acc wi).unmapWindow x.key.core wi) s

end Sys2Proof.Machine
end

