-- ==== Sys2Proof/Machine/Walk.lean ====
section
/-! DEFINITION. The instruction-fetch path (R163, R220, R284, R436) and the sequencer walk: region descriptors (R156,
R157), states and Find (R158, R159), the state cache (R162), the vote (R165). -/

namespace Sys2Proof.Machine

open Sys2Proof

/-! ## The fetch path -/

/-- Bytes of one line through the instruction cache. `count`: performance event 7 counts the fill of a miss, as it does
for a demand fetch and a descriptor read of R163 and for no other (R436). -/
def State.fetchBy (count : Bool) (s : State) (a : Acc) (va n : Nat) : State × Except AccFail (List Byte) :=
  let serve (s : State) (l : ILine) : State × Except AccFail (List Byte) :=
    match firstBad va (va % 128) n (fun q => l.poison.getLsbD q) with
    | some v => (s, .error (.fault 0x12 v))
    | none => (s, .ok ((l.bytes.drop (va % 128)).take n))
  match (s.core a.core).icFind a.ctx (va / 128) with
  | some l => serve (s.modCore a.core (·.icPut l)) l
  | none =>
    let r := s.translate a va false true
    match r.2 with
    | .fault c lv => (r.1, .error (.park c va lv))
    | .poison => (r.1, .error (.fault 0x12 (va / 32 * 32)))
    | .ok t =>
      match r.1.keyOf t va with
      | none => (r.1, .error (.park 0x10 va t.level))
      | some k => let f := (if count then r.1.tally a 7 else r.1).icFill a va k (t.attr a) false; serve f.1 f.2

/-- A demand fetch (R436). -/
def State.fetchLine (s : State) (a : Acc) (va n : Nat) : State × Except AccFail (List Byte) := s.fetchBy true a va n

/-- Bytes of one line as they stand at the home, under the rights of a fetch; no line is filled (assumption 49). -/
def State.readNow (s : State) (a : Acc) (va n : Nat) : State × Except AccFail (List Byte) :=
  let r := s.translate a va false true
  match r.2 with
  | .fault c lv => (r.1, .error (.park c va lv))
  | .poison => (r.1, .error (.fault 0x12 (va / 32 * 32)))
  | .ok t =>
    match r.1.keyOf t va with
    | none => (r.1, .error (.park 0x10 va t.level))
    | some k =>
      let h := r.1.readHome a { va := va, n := n, key := k, w := t.w, d := t.d, at_ := t.attr a, conf := t.conf, hit := false }
      (h.1, match h.2 with
        | .ok bs => .ok bs
        | .error v => .error (.fault 0x12 v))

/-- How a header or a descriptor is read: through the fetch path, as a descriptor read of R163 or as another read, or as it
stands at the home. -/
inductive Via
  | fetch (count : Bool)
  | now
  deriving DecidableEq, Repr

def State.readVia (w : Via) (s : State) (a : Acc) (va n : Nat) : State × Except AccFail (List Byte) :=
  match w with
  | .fetch count => s.fetchBy count a va n
  | .now => s.readNow a va n

/-- A computation that reads through the fetch path: it may fail with a fault. -/
abbrev Rd := ExceptT AccFail (StateM State)

def fetchBytes (w : Via) (a : Acc) (va n : Nat) : Rd (List Byte) := fun s =>
  let r := (piecesOf va n).foldl (fun (r : State × Except AccFail (List Byte)) p =>
    match r.2 with
    | .error e => (r.1, .error e)
    | .ok bs =>
      let q := r.1.readVia w a p.1 p.2
      (q.1, match q.2 with
        | .error e => .error e
        | .ok t => .ok (bs ++ t))) (s, .ok [])
  (r.2, r.1)

def fetchNat (w : Via) (a : Acc) (va n : Nat) : Rd Nat := do
  let bs ← fetchBytes w a va n
  return natOfBytes bs

/-! ## Headers and descriptors -/

/-- What the walk reads of the header that HB names (R156, R197). -/
structure Head where
  magic : Nat
  ver   : Nat
  gen   : Nat
  vregs : Nat
  sregs : Nat
  dir   : Nat              -- the region directory's address
  nreg  : Nat
  deriving DecidableEq, Repr

/-- The header through the fetch path: no read that event 7 counts (R436). -/
def readHead (a : Acc) (hb : W64) : Rd Head := do
  let v ← fetchNat (.fetch false) a hb.toNat 64
  return { magic := v % 2 ^ 32, ver := v / 2 ^ 32 % 2 ^ 16, gen := v / 2 ^ 48 % 2 ^ 16, vregs := v / 2 ^ 64 % 256,
           sregs := v / 2 ^ 72 % 256, dir := (hb.toNat + v / 2 ^ (8 * 0x1C) % 2 ^ 32) % 2 ^ 64,
           nreg := v / 2 ^ (8 * 0x20) % 2 ^ 16 }

/-- A region descriptor (R157). -/
structure Region where
  raw    : BitVec 256
  base   : Nat
  dirOff : Nat
  nstate : Nat
  single : Nat
  nblk   : Nat
  logdir : Nat
  node   : Bool
  entry  : Bool
  eblk   : Nat
  deriving DecidableEq, Repr

def Region.ofNat (v : Nat) : Region where
  raw := BitVec.ofNat 256 v
  base := v % 2 ^ 64
  dirOff := v / 2 ^ 64 % 2 ^ 32
  nstate := v / 2 ^ 96 % 2 ^ 16
  single := v / 2 ^ 112 % 2 ^ 16
  nblk := v / 2 ^ 128 % 2 ^ 8
  logdir := v / 2 ^ 136 % 2 ^ 8
  node := v.testBit 144
  entry := v.testBit 145
  eblk := v / 2 ^ 146 % 32

def regionVia (w : Via) (a : Acc) (dir r : Nat) : Rd Region := do
  let v ← fetchNat w a (dir + 32 * r) 32
  return Region.ofNat v

/-- A descriptor read of R163. -/
def readRegion (a : Acc) (dir r : Nat) : Rd Region := regionVia (.fetch true) a dir r

/-- A state descriptor (R158): its 128 bits, and their fields. `top`: bit 31 of SET, which is 0 in every descriptor that the
loader accepts. -/
structure StateD where
  raw     : BitVec 128
  slot    : Nat
  valid   : Bool
  top     : Bool
  sid     : Nat
  bodyLen : Nat
  bodyOff : Nat
  set     : BitVec 31
  deriving DecidableEq, Repr

def StateD.ofNat (slot v : Nat) : StateD where
  raw := BitVec.ofNat 128 v
  slot := slot
  valid := v.testBit 92
  top := v.testBit 31
  sid := v / 2 ^ 80 % 2 ^ 12
  bodyLen := v / 2 ^ 64 % 2 ^ 16
  bodyOff := v / 2 ^ 32 % 2 ^ 32
  set := BitVec.ofNat 31 v

/-- SET(x) = M, over bits 31:0 (R159). -/
def StateD.isSet (d : StateD) (m : BitVec 31) : Bool := !d.top && d.set == m

def readSlot (a : Acc) (r : Region) (x : Nat) : Rd StateD := do
  let v ← fetchNat (.fetch true) a (r.base + r.dirOff + 16 * x) 16
  return StateD.ofNat x v

/-! ## The state cache (R162) -/

/-- A state as a lookup answers it: its descriptor and that of its region. -/
structure Found where
  d : StateD
  r : Region
  deriving DecidableEq, Repr

def Found.body (f : Found) : W64 := BitVec.ofNat 64 (f.r.base + f.d.bodyOff)

/-- The sequencer's cache answers a set of a region. -/
def State.cacheFind (s : State) (core q dir r : Nat) (m : BitVec 31) : Option Found :=
  match ((s.core core).seqs.getD q Seq.zero).cache.find? (fun e => e.dir.toNat == dir && e.region == r && e.set == m) with
  | some e => some { d := StateD.ofNat e.slot e.desc.toNat, r := Region.ofNat e.rdesc.toNat }
  | none => none

/-- Place a descriptor as the most recently used of 64, or refresh it. -/
def State.cachePut (s : State) (core q dir r : Nat) (m : BitVec 31) (f : Found) : State :=
  s.modCore core (·.modSeq q (fun x =>
    let e : SCEntry := { dir := BitVec.ofNat 64 dir, region := r, set := m, desc := f.d.raw, slot := f.d.slot, rdesc := f.r.raw }
    { x with cache := (e :: x.cache.filter (fun f => !(f.dir == e.dir && f.region == r && f.set == m))).take 64 }))

/-- A descriptor of the state cache, which becomes the most recently used. -/
def cached (core q dir ri : Nat) (m : BitVec 31) : Rd (Option Found) := do
  let s ← get
  match s.cacheFind core q dir ri m with
  | some f => set (s.cachePut core q dir ri m f); return some f
  | none => return none

/-! ## Find (R159) -/

def stateHash (logdir : Nat) (m : Nat) : Nat :=
  if logdir = 0 then 0 else m * 0x9E3779B1 % 2 ^ 32 / 2 ^ (32 - logdir)

/-- The slot that answers, and how many slots were probed. -/
def probe (a : Acc) (r : Region) (m : BitVec 31) (h : Nat) : Nat → Nat → Rd (Option StateD × Nat)
  | 0, i => return (none, i)
  | f + 1, i => do
    let d ← readSlot a r ((h + i) % 2 ^ r.logdir)
    if !d.valid then return (none, i + 1)
    else if d.isSet m then return (some d, i + 1)
    else probe a r m h f (i + 1)

def findSlot (a : Acc) (r : Region) (m : BitVec 31) : Rd (Option StateD × Nat) := do
  match bitsOf m with
  | [b] =>
    let d ← readSlot a r (r.single + b)
    return (if d.valid && d.isSet m then some d else none, 1)
  | _ => probe a r m (stateHash r.logdir m.toNat) (2 ^ r.logdir) 0

/-- The outcome of a lookup, with the slots probed: the state, or the region in which the set is absent. -/
inductive Look
  | found (f : Found) (probed : Nat)
  | absent (r : Region) (probed : Nat)
  deriving DecidableEq, Repr

/-- Find through the state cache: a hit reads neither slot nor region descriptor, and an absent result is not cached
(R162, R439). -/
def findState (a : Acc) (q dir ri : Nat) (m : BitVec 31) : Rd Look := do
  match ← cached a.core q dir ri m with
  | some f => return .found f 0
  | none =>
    let r ← readRegion a dir ri
    let d ← findSlot a r m
    match d.1 with
    | some x =>
      let f : Found := { d := x, r := r }
      modify (fun s => s.cachePut a.core q dir ri m f)
      return .found f d.2
    | none => return .absent r d.2

/-- The valid slots of a region's directory. -/
def allStates (a : Acc) (r : Region) : Nat → Nat → Rd (List StateD)
  | 0, _ => return []
  | f + 1, x => do
    let d ← readSlot a r x
    let t ← allStates a r f (x + 1)
    return if d.valid then d :: t else t

/-! ## The vote (R165) -/

/-- How a vote ends: what it changes is applied only where it was read without a fault. `time`: the ac that it occupies the
crew (R170). -/
inductive Vote
  | finished
  | trap (m : BitVec 31) (region : Nat)
  | enter (region : Nat) (f : Found) (go : Mask) (vt run swp : Mask) (sweep : BitVec 31) (counted absent : Bool)
          (time : Nat)
  deriving DecidableEq, Repr

def setOf (l : List Nat) : BitVec 31 := maskOf 31 l
def popBits {n : Nat} (m : BitVec n) : Nat := (bitsOf m).length

/-- The cover with the most blocks, ties to the lowest SID, and between two of one SID to the lowest slot (assumption 71). -/
def bestCover : List StateD → Option StateD
  | [] => none
  | d :: t =>
    match bestCover t with
    | none => some d
    | some e => if popBits e.set > popBits d.set ∨ (popBits e.set = popBits d.set ∧ e.sid < d.sid) then some e else some d

/-- A cover of M that holds every block at the hold limit (R165). -/
def StateD.covers (x : StateD) (m f : BitVec 31) : Bool := !x.top && x.set &&& ~~~m == 0 && f &&& ~~~x.set == 0

/-- Enter: the descriptor of a slot that has been read is taken through the state cache, so an older one that the cache
holds of the same set serves (R162, R164, R165). -/
def enterSlot (a : Acc) (q dir ri : Nat) (r : Region) (d : StateD) : Rd Found := do
  match ← cached a.core q dir ri d.set with
  | some f => return { f with d := { f.d with slot := d.slot } }
  | none =>
    let f : Found := { d := d, r := r }
    modify (fun s => s.cachePut a.core q dir ri d.set f)
    return f

/-- The singleton state of a block: its descriptor through the state cache, else its slot. -/
def singleton (a : Acc) (q dir ri b : Nat) : Rd Found := do
  match ← cached a.core q dir ri (setOf [b]) with
  | some f => return f
  | none =>
    let r ← readRegion a dir ri
    let d ← readSlot a r (r.single + b)
    let f : Found := { d := d, r := r }
    if d.valid && d.isSet (setOf [b]) then
      modify (fun s => s.cachePut a.core q dir ri (setOf [b]) f)
    return f

/-- R165 for a crew whose HB, CR, BR and sweep stand as given. The directory is the one that HB's header named when HB was set,
so that a vote whose lookup hits reads nothing (R439; assumption 63). A sweep with no block at the hold limit, where no slot covers
the voters (software has removed a singleton), starts at the lowest block of the set M (assumption 86). -/
def vote (a : Acc) (q : Nat) (k : Kernel) (cr : Crew) : Rd Vote := do
  let blockMask (l : List Nat) (b : Nat) : Mask := maskOf 64 (l.filter (fun t => (cr.thr t).block == b))
  if cr.sweep ≠ 0 then
    let b := (bitsOf cr.sweep).headD 0
    let f ← singleton a q cr.dir.toNat cr.cr b
    -- SWP of the threads of the ended body is cleared before the next body's threads are chosen
    let go := maskOf 64 (cr.live.filter (fun t =>
      (cr.thr t).swp && (cr.thr t).held && (cr.thr t).region == cr.cr && (cr.thr t).block == b))
    return .enter cr.cr f go 0 0 0 (cr.sweep &&& ~~~(setOf [b])) false false 4
  else
    match cr.live with
    | [] => return .finished
    | t0 :: _ =>
      let inReg (ri : Nat) := cr.live.filter (fun t => (cr.thr t).region == ri)
      let change := (inReg cr.cr).isEmpty
      let ri := if change then (cr.thr t0).region else cr.cr
      let A := inReg ri
      let vt := if (A.filter (fun t => !(cr.thr t).yld)).isEmpty then A else A.filter (fun t => !(cr.thr t).yld)
      let m := setOf (vt.map (fun t => (cr.thr t).block))
      let time (probed : Nat) := 4 + probed + (if change then 2 else 0)
      match ← findState a q cr.dir.toNat ri m with
      | .found f n => return .enter ri f (maskOf 64 vt) (maskOf 64 vt) (maskOf 64 vt) 0 0 true false (time n)
      | .absent r n =>
        if k.absent && !cr.retry then return .trap m ri
        else
          let f := setOf ((vt.filter (fun t => decide ((cr.thr t).holdCnt ≥ 16))).map (fun t => (cr.thr t).block))
          let ds ← allStates a r (2 ^ r.logdir) 0
          let time := time n + max 1 (2 ^ r.logdir / 4)
          match bestCover (ds.filter (·.covers m f)) with
          | some d =>
            let e ← enterSlot a q cr.dir.toNat ri r d
            let go := maskOf 64 (vt.filter (fun t => d.set.getLsbD (cr.thr t).block))
            return .enter ri e go (maskOf 64 vt) go 0 0 true true time
          | none =>
            let b := (bitsOf f).headD ((bitsOf m).headD 0)
            let e ← singleton a q cr.dir.toNat ri b
            let swp := maskOf 64 (vt.filter (fun t => f.getLsbD (cr.thr t).block))
            return .enter ri e (blockMask vt b) (maskOf 64 vt) swp swp (f &&& ~~~(setOf [b])) true true time

/-- What a vote that does not trap changes (R165, R168). -/
def Crew.applyVote (cr : Crew) : Vote → Crew
  | .finished => { cr with finished := true, replay := none, bpSkip := false }
  | .trap _ _ => { cr with abscnt := cr.abscnt + 1, retry := true }
  | .enter ri f go vt run swp sweep counted absent _ =>
    let cr := if absent then { cr with abscnt := cr.abscnt + 1 } else cr
    let cr := if counted then
        ({ cr with retry := false, cr := ri }).mapThr (fun t th =>
          { th with
            holdCnt := if vt.getLsbD t then (if run.getLsbD t then 0 else min (th.holdCnt + 1) 31) else th.holdCnt,
            yld := false,
            swp := swp.getLsbD t || th.swp })
      else cr.mapThr (fun _ th => { th with swp := th.swp && th.held })
    { cr.mapThr (fun t th => if th.exited then th else th.setHeld (!go.getLsbD t)) with
      ss := f.d.slot, sid := f.d.sid, sset := f.d.set, pos := f.body, rdesc := f.r.raw, sweep := sweep, replay := none, bpSkip := false,
      finished := false, fbuf := [] }

/-- The ac that a vote occupies the crew (R170). -/
def Vote.time : Vote → Nat
  | .enter _ _ _ _ _ _ _ _ _ t => t
  | _ => 0

/-- EARG of the absent-set trap (R408): M, the region, and the current slot. -/
def absentArg (m : BitVec 31) (region slot : Nat) : W64 :=
  BitVec.ofNat 64 (m.toNat + 2 ^ 32 * (region % 512) + 2 ^ 48 * (slot % 1024))

end Sys2Proof.Machine
end

