-- ==== Sys2Proof/Machine/Control.lean ====
section
/-! DEFINITION. Group 0x7, the control instructions (R171-R173, R458), and REGROUP (R151-R153). -/

namespace Sys2Proof.Machine

open Sys2Proof

/-- A fault of a read of a directory (R163): parked with the flag pending for `dst`, or a precise fault. -/
def Cx.readFault (x : Cx) (s : State) (e : AccFail) (dst : Dest) : State :=
  match e with
  | .park c va lv => x.park s x.mask (c, va, lv) false dst
  | .fault c v => x.raise s (x.memExc c v)

/-- What a control instruction does: nothing of it is done where a read or a check fails. -/
inductive Ctl
  | bad
  | exc (e : Exc)
  | done (f : Crew → Crew)

/-- A control instruction other than the voting ones: the handler-mode rule of R413, the checks, the effect for the next
instruction (R161), every fixed-latency write landed (R76). -/
def control (h : Hdr) (ok : Kernel → Bool) (dst : Kernel → Dest) (body : Cx → Rd Ctl) (s : State) : Out :=
  withCx h s (fun x s => .next (
    if x.crew.hmode then x.illegal s
    else if !ok x.kernel then x.badOperand s
    else if x.idle then retireIdleCtl x s
    else
      let r := body x s
      match r.1 with
      | .error e => x.readFault r.2 e (dst x.kernel)
      | .ok .bad => x.badValue r.2
      | .ok (.exc e) => x.raise r.2 e
      | .ok (.done f) =>
        (r.2.issueCost x 0).modCrew x.key (fun cr => ((f (x.flagUp cr (dst x.kernel)).landFixed).flagDown x.h.sf).advance x.next)))

def Cx.seq (x : Cx) : Nat := seqOf x.key.slot
def Crew.modThrs (cr : Crew) (l : List Nat) (f : Nat → Thread → Thread) : Crew :=
  cr.mapThr (fun t th => if l.contains t then f t th else th)
def Thread.toBlock (th : Thread) (b : Nat) : Thread := th.goto th.region b

/-- R173: a block of a region. -/
def Region.blockOk (r : Region) (b : Nat) : Bool := b != 31 && decide (b < r.nblk)

/-- The descriptor of the current region, for the checks of R173: the one with which the crew's last vote entered it, so that
a block exit reads no directory line (R439; assumption 63). -/
def Cx.here (x : Cx) : Region := Region.ofNat x.crew.rdesc.toNat

/-- A block exit to a block by thread (R172, R173). -/
def blockExit (h : Hdr) (ok : Kernel → Bool) (tgts : Cx → List Nat) (tgt : Cx → Nat → Nat) (yld : Bool) (s : State) : Out :=
  control h ok (fun _ => Dest.none) (fun x => do
    if (tgts x).all x.here.blockOk then
      return .done (fun cr => cr.modThrs x.lanes (fun t th => { (th.toBlock (tgt x t)) with yld := yld || th.yld }))
    else return .bad) s

def execBx (h : Hdr) (tgt : BitVec 5) (s : State) : Out :=
  blockExit h (fun _ => true) (fun _ => [tgt.toNat]) (fun _ _ => tgt.toNat) false s
def execYield (h : Hdr) (tgt : BitVec 5) (s : State) : Out :=
  blockExit h (fun _ => true) (fun _ => [tgt.toNat]) (fun _ _ => tgt.toNat) true s
def execBxi (h : Hdr) (a : Src) (s : State) : Out :=
  blockExit h (fun k => k.s1 a) (fun x => x.lanes.map (fun t => (x.rd t a).toNat % 32)) (fun x t => (x.rd t a).toNat % 32)
    false s

/-- BXC (R171): under ONCE a condition that differs traps, or every thread takes the lowest thread's value and CST.UV is
set. A block that is none of the region's is an illegal operand first, whatever the condition (assumption 70). -/
def execBxc (h : Hdr) (once : Bool) (tt tf : BitVec 5) (pc : Pred) (s : State) : Out :=
  control h (fun _ => true) (fun _ => Dest.none) (fun x => do
    if !(x.here.blockOk tt.toNat && x.here.blockOk tf.toNat) then return .bad
    else
      let ones := x.lanes.filter (fun t => x.pred t pc)
      let differ := once && !ones.isEmpty && ones.length != x.lanes.length
      if differ && x.kernel.univ then return .exc (x.exc 0x05 (maskOf 64 ones) true)
      else
        let first := ones.contains (x.lanes.headD 0)
        return .done (fun cr => (if differ then cr.raiseUv else cr).modThrs x.lanes (fun t th =>
          th.toBlock (if (if differ then first else ones.contains t) then tt.toNat else tf.toNat)))) s

def execNop (h : Hdr) (s : State) : Out :=
  withCx h s (fun x s => .next (if x.idle then retireIdle x s else retireNone x s 0))

def execExit (h : Hdr) (s : State) : Out :=
  control h (fun _ => true) (fun _ => Dest.none) (fun x => return .done (fun cr => cr.modThrs x.lanes (fun _ th => th.setExited true))) s

/-- What the flag table records of EXITN: V(k) to V(VREGS - 1), and every predicate and BR (R118). -/
def exitnDest (k : BitVec 8) (kn : Kernel) : Dest :=
  { Dest.none with dreg := if k.toNat < kn.vregs then k else 254, dn := kn.vregs - k.toNat, pall := true }

/-- EXITN (R172): the registers below V(k) are kept, and the thread restarts at its successor. NODEENTRY is read as it
then stands (R157; assumption 49). Its writes land with its issue: no INSTRUCTION_COMPLETION is owed for them (assumption 85). -/
def execExitn (h : Hdr) (k : BitVec 8) (a : Src) (s : State) : Out :=
  control h (fun kn => kn.s1 a) (exitnDest k) (fun x => do
    if k.toNat > x.kernel.vregs then return .bad
    else
      let rs ← x.lanes.mapM (fun t => do
        let ri := (x.rd t a).toNat % 512
        if ri < x.crew.nreg then
          let r ← regionVia .now x.acc x.crew.dir.toNat ri
          return (t, ri, some r)
        else return (t, ri, none))
      if rs.all (fun e => match e.2.2 with | some r => r.node | none => false) then
        return .done (fun cr => rs.foldl (fun cr e => cr.modThr e.1 (fun th =>
          { th with v := th.v.filter (fun v => decide (v.1 < k.toNat)), p := 0,
                    br := mkBr false false e.2.1 (match e.2.2 with | some r => r.eblk | none => 0),
                    holdCnt := 0, yld := false })) cr)
      else return .bad) s

/-! ## CALL -/

/-- A region and block named by a BR image (R172). -/
def imageRegion (v : W32) : Nat := v.toNat / 32 % 512
def imageBlock (v : W32) : Nat := v.toNat % 32

/-- R173 for an image against a directory of `nreg` regions. -/
def linkOk (w : Via) (a : Acc) (dir nreg : Nat) (v : W32) : Rd Bool := do
  if imageRegion v < nreg then
    let r ← regionVia w a dir (imageRegion v)
    return r.blockOk (imageBlock v)
  else return false

def allOk (w : Via) (a : Acc) (dir nreg : Nat) (vs : List W32) : Rd Bool := do
  let rs ← vs.mapM (linkOk w a dir nreg)
  return rs.all id

def linkOf (th : Thread) (rb : BitVec 5) : W32 := BitVec.ofNat 32 (th.region * 32 + rb.toNat)

/-- CALL: the link lands by the next vote. The region of each image is checked as the directory stands (assumption 49). -/
def execCall (h : Hdr) (link : Fin 192) (a : Src) (rb : BitVec 5) (s : State) : Out :=
  withCx h s (fun x s => .next (
    if x.crew.hmode then x.illegal s
    else if !(x.kernel.r1 (.v link) && x.kernel.s1 a) then x.badOperand s
    else if x.idle then retireIdleCtl x s
    else
      let r := (do
        let ok ← allOk .now x.acc x.crew.dir.toNat x.crew.nreg (x.lanes.map (fun t => x.rd t a))
        return x.here.blockOk rb.toNat && ok : Rd Bool) s
      match r.1 with
      | .error e => x.readFault r.2 e (Dest.reg (.v link) 1)
      | .ok false => x.badValue r.2
      | .ok true =>
        let ws := x.lanes.map (fun t => RegWrite.v t link.val (linkOf (x.crew.thr t) rb))
        (r.2.issueCost x 0).modCrew x.key (fun cr =>
          let cr := (x.flagUp cr (Dest.reg (.v link) 1)).landFixed.modThrs x.lanes (fun t th =>
            th.goto (imageRegion (x.rd t a)) (imageBlock (x.rd t a)))
          let o : Owed := { id := cr.nextId, flag := x.h.sf, due := none, writes := ws, fps := 0, sat := false, link := true }
          let cr : Crew := { cr with owed := cr.owed ++ [o], nextId := cr.nextId + 1 }
          cr.advance x.next)))

/-! ## Voting instructions -/

/-- Links of CALL land before the vote. -/
def Crew.landLinks (cr : Crew) : Crew := cr.landIf (fun o => o.link)

/-- The vote of a crew that stands as `cr`, at the instruction of `x`. `owed`: the vote of CALLI or RET, whose own effect
stays where the vote traps (R458). A read that faults leaves everything as it was. A vote that traps takes the time of entering the
handler and none of R170's (assumption 88). -/
def Cx.voteNow (x : Cx) (s : State) (cr : Crew) (owed : Bool) (dst : Dest) : State :=
  let r := vote x.acc x.seq x.kernel cr s
  match r.1 with
  | .error e => x.readFault r.2 e dst
  | .ok v =>
    let s := r.2.issueCost x 0
    let s := match v with
      | .enter _ _ _ _ _ _ _ true false _ => s.countCx x 3 1
      | .enter _ _ _ _ _ _ _ true true _ => (s.countCx x 3 1).countCx x 4 1
      | .trap _ _ => (s.countCx x 3 1).countCx x 4 1
      | _ => s
    match v with
    | .trap m ri =>
      let cr := { (cr.applyVote v) with votePending := owed, replay := none, bpSkip := false }
      raiseAt (s.setCrew x.key cr) x.key (x.exc 0x04 (absentArg m ri cr.ss) true)
    | _ => s.setCrew x.key { (cr.applyVote v) with ready := s.now + v.time + 1, voteTill := s.now + v.time + 1 }

/-- NEXT (R165). It acts whether or not a thread takes part. -/
def execNext (h : Hdr) (s : State) : Out :=
  withCx h s (fun x s => .next (
    if x.crew.hmode then x.illegal s else x.voteNow s x.crew.landFixed.landLinks false Dest.none))

/-- The header that CALLI and RET check; none where a check fails (R172). With `entry`, its entry region and block. -/
def entryOf (a : Acc) (hd : Head) : Nat → Nat → Rd (List (Nat × Region))
  | 0, _ => return []
  | f + 1, i => do
    let r ← readRegion a hd.dir i
    let t ← entryOf a hd f (i + 1)
    return if r.entry then (i, r) :: t else t

def checkHead (a : Acc) (k : Kernel) (hb : W64) : Rd (Option (Head × Nat × Region)) := do
  let hd ← readHead a hb
  if hd.magic = 0x484B575A ∧ hd.ver = 2 ∧ hd.gen ≤ 2 ∧ hd.vregs ≤ k.vregs ∧ hd.sregs ≤ k.sregs ∧ hd.nreg ≥ 1 then
    let es ← entryOf a hd hd.nreg 0
    match es with
    | [(i, r)] => return some (hd, i, r)
    | _ => return none
  else return none

/-- The crew's CR after its threads have been sent elsewhere, any sweep ended. -/
def Crew.endSweep (cr : Crew) : Crew :=
  let cr := cr.mapThr (fun _ th => { th with swp := false })
  { cr with sweep := 0, cr := (cr.live.head?.map (fun t => (cr.thr t).region)).getD cr.cr }

/-- Whether every non-exited thread takes part. -/
def Cx.everyLive (x : Cx) : Bool := x.crew.liveMask &&& ~~~x.mask == 0

/-- CALLI and RET with a restore pair: the checks, the effect on the crew, then the vote. -/
def Cx.voting (x : Cx) (s : State) (dst : Dest) (body : Rd (Option (Crew → Crew))) : State :=
  if !x.everyLive then x.badValue s
  else
    let r := body s
    match r.1 with
    | .error e => x.readFault r.2 e dst
    | .ok none => x.badValue r.2
    | .ok (some f) =>
      x.voteNow r.2 ((f (x.flagUp x.crew dst).landFixed.landLinks).flagDown x.h.sf) true dst

def execCalli (h : Hdr) (link : Fin 192) (sa save : SPair) (rb : BitVec 5) (s : State) : Out :=
  withCx h s (fun x s => .next (
    if x.crew.hmode then x.illegal s
    else if !(x.kernel.r1 (.v link) && x.kernel.spairOk sa && x.kernel.spairOk save) then x.badOperand s
    else if x.idle then retireIdleCtl x s
    else
      let hb := x.rdPair sa - 64
      x.voting s (Dest.reg (.v link) 1) (do
        let c ← checkHead x.acc x.kernel hb
        match c with
        | none => return none
        | some (hd, e, r) =>
          if !x.here.blockOk rb.toNat then return none
          else
            let ws := x.lanes.map (fun t => RegWrite.v t link.val (linkOf (x.crew.thr t) rb)) ++ wrPair save x.crew.hb
            return some (fun cr =>
              let cr : Crew := { ((cr.landAll ws).modThrs x.lanes (fun _ th => th.goto e r.eblk)) with
                                  hb := hb, dir := BitVec.ofNat 64 hd.dir, nreg := hd.nreg, rdesc := r.raw }
              cr.endSweep))))

def execRet (h : Hdr) (a : Src) (restore : SPair) (s : State) : Out :=
  match restore with
  | .z =>
    control h (fun k => k.s1 a) (fun _ => Dest.none) (fun x => do
      let ok ← allOk (.fetch true) x.acc x.crew.dir.toNat x.crew.nreg (x.lanes.map (fun t => x.rd t a))
      if ok then
        return .done (fun cr => cr.modThrs x.lanes (fun t th => th.goto (imageRegion (x.rd t a)) (imageBlock (x.rd t a))))
      else return .bad) s
  | .pr _ =>
    withCx h s (fun x s => .next (
      if x.crew.hmode then x.illegal s
      else if !(x.kernel.s1 a && x.kernel.spairOk restore) then x.badOperand s
      else if x.idle then retireIdleCtl x s
      else
        let hb := x.rdPair restore
        x.voting s Dest.none (do
          let c ← checkHead x.acc x.kernel hb
          match c with
          | none => return none
          | some (hd, _, _) =>
            let ok ← allOk (.fetch true) x.acc hd.dir hd.nreg (x.lanes.map (fun t => x.rd t a))
            if !ok then return none
            else return some (fun cr =>
              let cr : Crew := { (cr.modThrs x.lanes (fun t th =>
                th.goto (imageRegion (x.rd t a)) (imageBlock (x.rd t a)))) with
                                  hb := hb, dir := BitVec.ofNat 64 hd.dir, nreg := hd.nreg }
              cr.endSweep))))

/-! ## REGROUP (R151-R153) -/

/-- The issue: the crew stands at its REGROUP until the exchange. It is not issued while one of its flags is pending. It acts
for the crew whether or not a thread takes part (assumption 48), but where none does it names no flag (R77). -/
def execRegroup (h : Hdr) (a : Src) (n : BitVec 8) (s : State) : Out :=
  withCx h s (fun x s' => .next (
    if x.crew.hmode then x.illegal s'
    else if !(x.kernel.s1 a) || decide (n.toNat > x.kernel.vregs) then x.badOperand s'
    else if x.crew.flags.any (fun e => e.cnt != 0) then s
    else
      let key := (List.range 64).map (fun t => if (x.crew.thr t).exited then none else some (x.rd t a))
      let x := if x.idle then { x with h := { h with sf := none } } else x
      let before := x.h.sf.map (fun f => x.crew.flag f.val)
      (s'.issueCost x 3).modCrew x.key (fun cr =>
        { (x.flagUp cr.landFixed { dreg := 0, dn := n.toNat, dp := 7, dq := false, pall := true }) with
          block := .regroup key n.toNat x.h.sf before x.next, replay := none, bpSkip := false })))

/-- Insert by key, then by TIDX[9:0], after its equals. -/
def regroupIns (e : W32 × W32 × Thread) : List (W32 × W32 × Thread) → List (W32 × W32 × Thread)
  | [] => [e]
  | f :: t =>
    if e.1 < f.1 ∨ (e.1 = f.1 ∧ e.2.1.toNat % 1024 < f.2.1.toNat % 1024) then e :: f :: t else f :: regroupIns e t

/-- A REGROUP before its exchange is undone: the crew stands at it as though it had never issued (R152, R153). -/
def Crew.undoRegroup (cr : Crew) : Crew :=
  match cr.block with
  | .regroup _ _ sf before _ =>
    { cr with block := .none, flags := match sf, before with
      | some f, some b => cr.flags.set f.val b
      | _, _ => cr.flags }
  | _ => cr

/-- A crew that is saved or stopped at a REGROUP before its exchange stands there with its issue undone (R153). -/
def Crew.standRegroup (cr : Crew) : Crew :=
  match cr.block with
  | .regroup key n _ _ next => { cr.undoRegroup with block := .regroup key n none none next }
  | _ => cr

/-- Step 4 for one crew: its threads, which of them are held, and its state of waiting. -/
def Crew.regrouped (cr : Crew) (n : Nat) (ths : List Thread) : Crew :=
  let fill := (List.range 64).map (fun i =>
    match ths[i]? with
    | some th =>
      let out := th.region != cr.cr || !cr.sset.getLsbD th.block
      { (th.setHeld out) with v := th.v.filter (fun e => decide (e.1 < n)), holdCnt := 0, yld := false, swp := false }
    | none => { Thread.gone with br := mkBr false true cr.cr 0 })
  { cr with threads := fill, sweep := 0 }

/-- The exchange of a workgroup all of whose crews wait (R152). Crews whose n differ each raise an illegal operand. A write
that is still owed without a flag lands first, so that no register moves with a write owed to it (R121; assumption 48). -/
def State.regroupNow (s : State) (c : Nat) (slots : List Nat) : State :=
  let crews := slots.filterMap (fun sl => (s.crew? ⟨c, sl⟩).map (fun cr => (sl, cr.landIf (fun _ => true))))
  let ns := crews.filterMap (fun e => match e.2.block with | .regroup _ n _ _ _ => some n | _ => none)
  match ns with
  | [] => s
  | n :: rest =>
    if rest.all (· == n) then
      let all := crews.flatMap (fun e => match e.2.block with
        | .regroup key _ _ _ _ => (List.range 64).filterMap (fun t => match key.getD t none with
            | some k => some (k, (e.2.thr t).tidx, e.2.thr t)
            | none => none)
        | _ => [])
      let sorted := (all.foldl (fun l e => regroupIns e l) []).map (fun e => e.2.2)
      (crews.zipIdx).foldl (fun s e =>
        let cr := e.1.2
        let mine := (sorted.drop (64 * e.2)).take 64
        let cr' := cr.regrouped n mine
        -- a finished crew that receives a thread stands at its NEXT again
        let cr' := match cr.block with
          | .regroup _ _ sf _ next => { (cr'.flagDown sf) with block := .none, pos := next }
          | _ => { cr' with finished := cr.finished && mine.isEmpty }
        s.setCrew ⟨c, e.1.1⟩ cr') s
    else
      crews.foldl (fun s e => match e.2.block with
        | .regroup _ _ _ _ _ =>
          let cr := e.2.undoRegroup
          raiseAt (s.setCrew ⟨c, e.1⟩ cr) ⟨c, e.1⟩
            { cause := 0x02, eng := false, epc := cr.pos, earg := cr.pos,
              ethr := maskOf 64 (cr.live.filter (fun t => cr.inState (cr.thr t))), toH := true }
        | _ => s) s

/-- Whether every crew of a workgroup has issued a REGROUP or holds no non-exited thread. A crew that is stopped has not (R153). -/
def State.regroupReady (s : State) (c : Nat) (slots : List Nat) : Bool :=
  slots.all (fun sl => match s.crew? ⟨c, sl⟩ with
    | some cr => (match cr.block with | .regroup _ _ _ _ _ => !(s.core c).stopped sl | _ => cr.live.isEmpty)
    | none => true)

def execRegroupExchange (core wg : Nat) (s : State) : Out :=
  atWg s core wg (fun w => if s.regroupReady core w.crews then s.regroupNow core w.crews else s)

end Sys2Proof.Machine
end

