-- ==== Sys2Proof/Machine/Barrier.lean ====
section
/-! DEFINITION. Barrier objects (R322-R327), the parts of FENCE that other operations perform (R258), and the place of a
crew for events. -/

namespace Sys2Proof

/-- Scope codes of R52; 7 names none. -/
def scopeOf (n : Nat) : Scope :=
  match n with
  | 0 => .thread | 1 => .crew | 2 => .wg | 3 => .die | 4 => .dev | 5 => .sys | _ => .pod

end Sys2Proof

namespace Sys2Proof.Machine

open Sys2Proof

/-- The accesses of a workgroup's crews. -/
def accOf (core w : Nat) (wg : Wg) : Acc :=
  { payer := .slot core w wg.ctx wg.id, core := core, ctx := wg.ctx, func := wg.func, conf := wg.conf, bench := false }

/-- The release and the acquire part of FENCE at a scope (R258). What is on its way has been accepted. -/
def State.fenceRel (s : State) (a : Acc) (sc : Scope) : State :=
  (if sc.wide then s.sweep a (fun l => l.ctx == a.ctx) false else s).landCore a.core
def State.fenceAcq (s : State) (a : Acc) (sc : Scope) : State :=
  if sc.wide then s.sweep a (fun l => l.ctx == a.ctx) true else s

/-- A barrier object (R322). -/
structure Bar where
  expa   : Nat
  arr    : Nat
  expb   : Nat
  landed : Nat
  phase  : Nat
  busy   : Bool
  deriving DecidableEq, Repr

def Bar.ofNat (v : Nat) : Bar where
  expa := v % 2 ^ 16
  arr := v / 2 ^ 16 % 2 ^ 16
  expb := v / 2 ^ 32 % 2 ^ 32
  landed := v / 2 ^ 64 % 2 ^ 32
  phase := v / 2 ^ 96 % 2 ^ 31
  busy := v.testBit 127

def Bar.toNat (b : Bar) : Nat :=
  b.expa % 2 ^ 16 + b.arr % 2 ^ 16 * 2 ^ 16 + b.expb % 2 ^ 32 * 2 ^ 32 + b.landed % 2 ^ 32 * 2 ^ 64 +
    b.phase % 2 ^ 31 * 2 ^ 96 + (if b.busy then 2 ^ 127 else 0)

/-- The phase completes where both counts are met (R323). -/
def Bar.full (b : Bar) : Bool := decide (b.expa ≤ b.arr) && decide (b.expb ≤ b.landed)
/-- A checked update ends so (R323). -/
def Bar.check (b : Bar) : Bar :=
  let b := { b with busy := true }
  if b.full then { b with arr := 0, landed := 0, expb := 0, busy := false, phase := (b.phase + 1) % 2 ^ 31 } else b

def Bar.arrive (b : Bar) : Bar := { b with arr := min (b.arr + 1) 65535 }
def Bar.expect (n : Nat) (b : Bar) : Bar := { b with expb := min (b.expb + n) (2 ^ 32 - 1) }
def Bar.land (n : Nat) (b : Bar) : Bar := { b with landed := min (b.landed + n) (2 ^ 32 - 1) }

/-- A checked update of a scratchpad object, one class 6 access (R323, R345); event 11 counts a completed phase. -/
def State.barScr (s : State) (a : Acc) (w off : Nat) (f : Bar → Bar) : State :=
  let b := f (Bar.ofNat (natOfBytes (s.scrRead a.core w off 16)))
  let s := (s.scrPut a w off (bytesOfNat 16 b.check.toNat)).bill a.payer (.core a.core) 6 1
  if b.full then s.tally a 11 else s

/-- A checked update of a global object, an atomic (R326, R247): none where poison is met. -/
def State.barGlob (s : State) (a : Acc) (p : Part) (f : Bar → Bar) : State × Option Nat :=
  match s.updateGlobal a p (fun m => (some (f (Bar.ofNat m)).check.toNat, 0)) with
  | (s, .error _) => (s, none)
  | (s, .ok (m, _)) => (if (f (Bar.ofNat m)).full then s.tally a 11 else s, some m)

/-! ## Naming an object (R326, R327) -/

/-- The object that a BarRef names, for a WAIT or for an update. -/
def Cx.barAt (x : Cx) (bar : Nat ⊕ Nat) (wait : Bool) : Except Exc BarAddr :=
  let opnd := x.exc 0x02 x.pc true
  match bar with
  | .inl off =>
    if off % 16 ≠ 0 then .error opnd
    else if off + 16 > x.kernel.alloc then .error (x.exc 0x08 (BitVec.ofNat 64 off) true)
    else .ok (.scr off)
  | .inr k =>
    match x.crew.groups.getD k none with
    | none => .error opnd
    | some g =>
      match kfind g x.wg.groups with
      | none => .error opnd
      | some e =>
        let role := x.kernel.roles.toNat / 4 ^ k % 4
        if !e.bar || role = (if wait then 1 else 2) then .error opnd
        else if e.scope ≤ 2 then .ok (.scr e.barrier.toNat)
        else .ok (.glob e.barrier (scopeOf e.scope))

def Cx.barRef (x : Cx) : BarRef → Nat ⊕ Nat
  | .off a => .inl (x.rd 0 a).toNat
  | .slot k => .inr k.val

def BarAddr.scope : BarAddr → Scope
  | .scr _ => .wg
  | .glob _ sc => sc

/-- Poison in scratchpad bytes that an instruction consumes: the offset of the sector. -/
def State.scrPoisonAt (s : State) (c w off n : Nat) : Option Nat :=
  ((spanSectors off n).find? (fun q => s.scrBad c w (32 * q) 32)).map (32 * ·)

end Sys2Proof.Machine
end

