-- ==== Sys2Proof/Machine/Sync.lean ====
section
/-! DEFINITION. Group 0xB, the synchronisation instructions (R327-R337), and their events. -/

namespace Sys2Proof.Machine

open Sys2Proof

/-! ## BINIT, ARRIVE, BEXPECT (R328, R329) -/

def execBinit (h : Hdr) (o : Reg) (a b : Src) (s : State) : Out :=
  withCx h s (fun x s => .next (
    if !(x.kernel.r1 o && x.kernel.s1 a && x.kernel.s1 b) then x.badOperand s
    else if x.idle then retireIdle x s
    else
      let off := (x.rdReg 0 o).toNat
      let n := (x.rd 0 a).toNat
      let m := (x.rd 0 b).toNat
      match x.barAt (.inl off) false with
      | .error e => x.raise s e
      | .ok _ =>
        if n / 2 ^ 16 ≠ 0 then x.badValue s
        else
          let s := s.bill x.acc.payer (.core x.key.core) 6 1
          match s.scrPoisonAt x.key.core x.crew.wg off 16 with
          | some v => x.raise s (x.memExc 0x12 v)
          | none =>
            let old := Bar.ofNat (natOfBytes (s.scrRead x.key.core x.crew.wg off 16))
            if old.busy then x.badValue s
            else
              let new : Bar := { expa := n, arr := 0, expb := m, landed := 0, phase := old.phase, busy := m != 0 }
              retireNone x (s.scrPut x.acc x.crew.wg off (bytesOfNat 16 new.toNat)) 0))

/-- A checked update by an instruction: poison and faults first, then the release where there is one, then the update. -/
def Cx.barUpdate (x : Cx) (s : State) (bar : Nat ⊕ Nat) (rel : Bool) (f : Bar → Bar) (dst : Dest)
    (fin : State → Nat → State) : State :=
  match x.barAt bar false with
  | .error e => x.raise s e
  | .ok (.scr off) =>
    match s.scrPoisonAt x.key.core x.crew.wg off 16 with
    | some v => x.raise s (x.memExc 0x12 v)
    | none =>
      let old := Bar.ofNat (natOfBytes (s.scrRead x.key.core x.crew.wg off 16))
      fin ((if rel then s.fenceRel x.acc .wg else s).barScr x.acc x.crew.wg off f) old.phase
  | .ok (.glob va sc) =>
    match s.checkSpan x.acc va.toNat 16 true (fun l => l.excl) with
    | (s, .error (.park c v lv)) => x.park s x.mask (c, v, lv) true dst
    | (s, .error (.fault c v)) => x.raise s (x.memExc c v)
    | (s, .ok ps) =>
      match ps with
      | [] => s
      | p :: _ =>
        match (if rel then s.fenceRel x.acc sc else s).barGlob x.acc p f with
        | (t, none) => x.raise (s.keepCosts t x.key.core x.crew.wg) (x.memExc 0x12 (p.va / 32 * 32))
        | (s, some m) => fin s (Bar.ofNat m).phase

def BarRef.ok (k : Kernel) : BarRef → Bool
  | .off a => k.s1 a
  | .slot _ => true

def execArrive (h : Hdr) (d : Reg) (bar : BarRef) (s : State) : Out :=
  withCx h s (fun x s => .next (
    if !(x.kernel.r1 d && BarRef.ok x.kernel bar) then x.badOperand s
    else if x.idle then retireIdle x s
    else x.barUpdate s (x.barRef bar) true Bar.arrive (Dest.reg d 1)
      (fun s ph => retireMem x s (Dest.reg d 1) (wrReg 0 d (BitVec.ofNat 32 ph)))))

def execBexpect (h : Hdr) (bar : BarRef) (b : Src) (s : State) : Out :=
  withCx h s (fun x s => .next (
    if !(BarRef.ok x.kernel bar && x.kernel.s1 b) then x.badOperand s
    else if x.idle then retireIdle x s
    else x.barUpdate s (x.barRef bar) false (Bar.expect (x.rd 0 b).toNat) Dest.none (fun s _ => retireNone x s 0)))

/-! ## WAIT (R330-R333) -/

/-- A condition record (R330): its words. -/
def Cx.waitCond (x : Cx) (v : Nat) : Except Exc WaitCond :=
  let w0 := v % 2 ^ 32
  let w1 := v / 2 ^ 32 % 2 ^ 32
  let w2 := v / 2 ^ 64 % 2 ^ 32
  let w3 := v / 2 ^ 96 % 2 ^ 32
  let sc := w0 / 16 % 8
  let g := w0.testBit 7
  let slot := w0 / 256 % 4
  let opnd := x.exc 0x02 x.pc true
  if w0 / 2 ^ 10 ≠ 0 then .error opnd
  else match w0 % 16 with
  | 0 =>
    if sc ≠ 0 ∨ (!g ∧ (slot ≠ 0 ∨ w1 % 16 ≠ 0 ∨ w1 + 16 > x.kernel.alloc)) ∨ w2 ≠ 0 ∨ w3 ≥ 2 ^ 31 ∨ (g ∧ w1 ≠ 0) then .error opnd
    else (x.barAt (if g then .inr slot else .inl w1) true).map (fun b => .token b (BitVec.ofNat 32 w3))
  | 1 => if sc ≠ 0 ∨ g ∨ slot ≠ 0 ∨ w2 ≠ 0 ∨ w3 ≠ 0 ∨ w1 > 15 then .error opnd else .ok (.batch w1)
  | 2 =>
    if g ∨ slot ≠ 0 ∨ sc = 7 ∨ w1 % 4 ≠ 0 then .error opnd
    else .ok (.mem (BitVec.ofNat 64 (w1 + 2 ^ 32 * w2)) (scopeOf sc) (BitVec.ofNat 32 w3))
  | 3 =>
    if sc ≠ 0 ∨ g ∨ slot ≠ 0 ∨ w2 ≠ 0 ∨ w3 ≠ 0 ∨ w1 / 2 ^ 12 ≠ 0 then .error opnd else .ok (.flags (BitVec.ofNat 12 w1))
  | 4 =>
    if sc ≠ 0 ∨ g ∨ slot ≠ 0 ∨ w3 ≠ 0 then .error opnd else .ok (.node (BitVec.ofNat 64 (w1 + 2 ^ 32 * w2)))
  | _ => .error opnd

/-- The list, record by record: whatever is wrong with one is an illegal operand (R330). -/
def Cx.waitConds (x : Cx) (recs : List Nat) : Except Exc (List WaitCond) := recs.mapM x.waitCond

/-- A read at the home slice on a crew's behalf, with rights u = 1. -/
def State.readWord (s : State) (a : Acc) (va n : Nat) : State × Except AccFail Nat :=
  match s.checkSpan a va n false (fun _ => false) with
  | (s, .error e) => (s, .error e)
  | (s, .ok ps) =>
    match readParts (fun s p => s.readHome a p) ps s with
    | (s, .error v) => (s, .error (.fault 0x12 v))
    | (s, .ok bs) => (s, .ok (natOfBytes bs))

/-- Whether a condition holds now (R324, R330). `own`: the flag that the WAIT itself holds. -/
def State.condHolds (s : State) (a : Acc) (cr : Crew) (own : Option (Fin 12)) : WaitCond → State × Except AccFail Bool
  | .token (.scr off) tok =>
    match s.scrPoisonAt a.core cr.wg off 16 with
    | some v => (s, .error (.fault 0x12 v))
    | none => (s.bill a.payer (.core a.core) 6 1, .ok ((Bar.ofNat (natOfBytes (s.scrRead a.core cr.wg off 16))).phase != tok.toNat))
  | .token (.glob va _) tok =>
    match s.readWord a va.toNat 16 with
    | (s, .ok v) => (s, .ok ((Bar.ofNat v).phase != tok.toNat))
    | (s, .error e) => (s, .error e)
  | .batch k => (s, .ok (cr.batches.getD k []).isEmpty)
  | .mem va _ v =>
    match s.readWord a va.toNat 4 with
    | (s, .ok w) => (s, .ok (w != v.toNat))
    | (s, .error e) => (s, .error e)
  | .flags m => (s, .ok ((bitsOf m).all (fun k =>
      decide ((cr.flag k).cnt ≤ if own.map Fin.val = some k then 1 else 0))))
  | .node va =>
    match s.readWord a (va.toNat + 8) 16 with
    | (s, .ok v) => (s, .ok (v % 2 ^ 64 != v / 2 ^ 64))
    | (s, .error e) => (s, .error e)

/-- Test, in ascending order, each selected condition that is not latched; a read that fails ends the test. -/
def State.waitTest (s : State) (a : Acc) (cr : Crew) (own : Option (Fin 12)) (now : Nat) (sel : WaitCond → Bool) :
    List WaitCond → List (Option Nat) → State × List (Option Nat) × Option AccFail
  | c :: cs, l :: ls =>
    if l.isSome || !sel c then
      let r := s.waitTest a cr own now sel cs ls
      (r.1, l :: r.2.1, r.2.2)
    else match s.condHolds a cr own c with
      | (s, .error e) => (s, l :: ls, some e)
      | (s, .ok b) =>
        let r := s.waitTest a cr own now sel cs ls
        (r.1, (if b then some now else none) :: r.2.1, r.2.2)
  | _, ls => (s, ls, none)

def WaitSt.done (w : WaitSt) : Bool := if w.all then w.first.all Option.isSome else w.first.any Option.isSome

/-- What Sd reads: the lowest latched condition, or for ALL the latest, lowest on ties (R331). -/
def latest : List (Nat × Nat) → Nat × Nat
  | [] => (0, 0)
  | [e] => e
  | e :: t => let f := latest t; if f.2 > e.2 then f else e
def WaitSt.index (w : WaitSt) : Nat :=
  let l := (w.first.zipIdx).filterMap (fun e => e.1.map (fun t => (e.2, t)))
  if w.all then (latest l).1 else (l.head?.map Prod.fst).getD 0

/-- The latched conditions, ascending. -/
def WaitSt.fired (w : WaitSt) : List WaitCond := (w.conds.zip w.first).filterMap (fun e => if e.2.isSome then some e.1 else none)

/-- The word of a condition whose order action consults the binding table. -/
def WaitCond.syncVa : WaitCond → Option Nat
  | .mem va sc _ => if sc.wide then some va.toNat else none
  | _ => none

/-- The order action of a latched condition (R331). -/
def State.waitOrder (a : Acc) (s : State) (c : WaitCond) : State :=
  match c with
  | .token b _ => s.fenceAcq a b.scope
  | c => match c.syncVa, s.bindings a with
    | some va, some bs => s.acquireAct a (syncTags bs [va])
    | _, _ => s

/-- The sector that faults where a binding entry that an order action would consult is poisoned: no order action is taken then
(R188, R332). -/
def State.waitPoison (s : State) (a : Acc) (cs : List WaitCond) : Option Nat :=
  if (s.bindings a).isSome then none else (cs.findSome? WaitCond.syncVa).map (fun va => va / 32 * 32)

/-- The WAIT ends: Qd and Sd are written before the crew's next instruction. -/
def Crew.waitEnd (cr : Crew) (w : WaitSt) (sat : Bool) : Crew :=
  let cr := cr.landNow ([RegWrite.q w.qd sat] ++
    wrReg 0 w.d (if sat then BitVec.ofNat 32 w.index else 0xFFFFFFFF))
  { (cr.flagDown w.sf).advance w.next with block := .none }

/-- A fault of a WAIT that has issued: it has not executed. -/
def State.waitFault (s : State) (key : CrewKey) (w : WaitSt) (wg : Wg) (cause arg : Nat) : State :=
  match s.crew? key with
  | none => s
  | some cr =>
    raiseAt (s.setCrew key { (cr.flagDown w.sf) with block := .none }) key
      { cause := cause, eng := false, epc := cr.pos, earg := BitVec.ofNat 64 arg, ethr := w.mask,
        toH := if cause = 0x12 then wg.kernel.poison else true }

/-- A WAIT whose conditions have been tested: parked, faulted, ended, or as it was but for what it latched. -/
def State.waitOn (s : State) (key : CrewKey) (wg : Wg) (a : Acc) (w : WaitSt) (fail : Option AccFail) : State :=
  match fail with
  | some (.park c va lv) =>
    s.modCrew key (fun cr =>
      { cr with block := .wait w,
                park := some { mask := w.mask, cause := c, va := BitVec.ofNat 64 va, write := false, fetch := false,
                               level := lv, at_ := s.refclk, handle := none, logged := false } })
  | some (.fault c v) => s.waitFault key w wg c v
  | none =>
    if w.done then
      match s.waitPoison a w.fired with
      | some v => s.waitFault key w wg 0x12 v
      | none => (w.fired.foldl (State.waitOrder a) s).modCrew key (·.waitEnd w true)
    else s.modCrew key (fun cr => { cr with block := .wait w })

def execWait (h : Hdr) (k : BitVec 2) (all : Bool) (qd : Fin 3) (d : Reg) (sl timeout : Src) (s : State) : Out :=
  withCx h s (fun x s => .next (
    if !(x.kernel.r1 d && x.kernel.s1 sl && x.kernel.s1 timeout) then x.badOperand s
    else if x.idle then retireIdle x s
    else
      let n := k.toNat + 1
      let off := (x.rd 0 sl).toNat
      if off % 16 ≠ 0 then x.badValue s
      else if off + 16 * n > x.kernel.alloc then x.raise s (x.exc 0x08 (BitVec.ofNat 64 off) true)
      else
        let s := s.bill x.acc.payer (.core x.key.core) 6 (spanSectors off (16 * n)).length
        match s.scrPoisonAt x.key.core x.crew.wg off (16 * n) with
        | some v => x.raise s (x.memExc 0x12 v)
        | none =>
          match x.waitConds ((List.range n).map (fun i => natOfBytes (s.scrRead x.key.core x.crew.wg (off + 16 * i) 16))) with
          | .error e => x.raise s e
          | .ok conds =>
            let r := s.waitTest x.acc x.crew none s.fresh (fun _ => true) conds (List.replicate n none)
            match r.2.2 with
            | some (.fault c v) => x.raise r.1 (x.memExc c v)
            | f =>
              let t := (x.rd 0 timeout).toNat
              let w : WaitSt := { conds := conds, first := r.2.1, all := all, qd := qd.val, d := d,
                                  ticks := if t = 0 then none else some t, sf := h.sf, mask := x.mask, next := x.next }
              let s := (r.1.issueCost x 0).modCrew
                x.key (fun cr => { (x.flagUp cr ((Dest.reg d 1).withPred (.q ⟨qd.val, by omega⟩))) with
                  replay := none, bpSkip := false })
              s.waitOn x.key x.wg x.acc w f))

/-- An event of a crew blocked in WAIT, resident, not parked and not stopped (R331, R333). -/
def atWait (key : CrewKey) (s : State) (f : Crew → Wg → WaitSt → State) : Out :=
  atCrew s key (fun cr wg => match cr.block, cr.park with
    | .wait w, none => if (s.core key.core).stopped key.slot then s else f cr wg w
    | _, _ => s)

def WaitCond.isMem : WaitCond → Bool
  | .mem _ _ _ => true
  | _ => false

/-- Test the selected conditions of a blocked WAIT. -/
def State.waitAgain (s : State) (key : CrewKey) (cr : Crew) (wg : Wg) (w : WaitSt) (sel : WaitCond → Bool) : State :=
  let a := accOf key.core cr.wg wg
  let r := { s with fresh := s.fresh + 1 }.waitTest a cr w.sf s.fresh sel w.conds w.first
  r.1.waitOn key wg a { w with first := r.2.1 } r.2.2

def execWaitSatisfaction (key : CrewKey) (s : State) : Out :=
  atWait key s (fun cr wg w => s.waitAgain key cr wg w (fun c => !c.isMem))
def execWaitMemoryRead (key : CrewKey) (s : State) : Out :=
  atWait key s (fun cr wg w => s.waitAgain key cr wg w (·.isMem))

/-- Satisfaction is tested before the timeout (R331, R337). -/
def execWaitTimeout (key : CrewKey) (s : State) : Out :=
  atWait key s (fun cr wg w =>
    if w.ticks ≠ some 0 then s
    else
      let s := s.waitAgain key cr wg w (fun _ => true)
      s.modCrew key (fun cr => match cr.block, cr.park with
        | .wait w, none => cr.waitEnd w false
        | _, _ => cr))

/-! ## PAUSE (R334) -/

def execPause (h : Hdr) (n : Src) (s : State) : Out :=
  withCx h s (fun x s => .next (
    if !x.kernel.s1 n then x.badOperand s
    else if x.idle then retireIdle x s
    else (retireNone x s 0).modCrew x.key (fun cr => { cr with pause := x.rd 0 n })))

/-- The remainder, which falls by one in an ac, runs out. -/
def execPauseExpiry (key : CrewKey) (s : State) : Out :=
  atCrew s key (fun cr _ => if cr.pause ≤ 1 then s.modCrew key (fun cr => { cr with pause := 0 }) else s)

/-! ## DRAIN (R335) -/

/-- Whether the conditions of a DRAIN hold (R335): the crew's loads and atomics have returned, and no write of its own is on its
way. Its own flag does not count. -/
def State.drained (s : State) (key : CrewKey) (cr : Crew) (mem eng flg : Bool) (own : Option (Fin 12)) : Bool :=
  (!mem || (cr.owed.all (fun o => !o.mem) && (match s.wg? key.core cr.wg with
      | some wg => s.flight.all (fun f => !(f.core == key.core && f.writers.contains { wg := wg.id, cidx := cr.cidx }))
      | none => true))) &&
  (!eng || (s.core key.core).cmds.all (fun c => c.slot != key.slot)) &&
  (!flg || (List.range 12).all (fun k => decide ((cr.flag k).cnt ≤ if own.map Fin.val = some k then 1 else 0)))

/-- A crew in DRAIN whose conditions hold goes on. -/
def State.undrain (s : State) (key : CrewKey) : State :=
  match s.crew? key with
  | none => s
  | some cr =>
    match cr.block with
    | .drain m e f sf next =>
      if s.drained key cr m e f sf then s.setCrew key { (cr.flagDown sf).advance next with block := .none } else s
    | _ => s

/-- Every crew in DRAIN whose conditions hold goes on. -/
def State.undrainAll (s : State) : State :=
  (s.cores.flatMap (fun c => c.2.crews.filterMap (fun e => match e.2.block with
    | .drain _ _ _ _ _ => some ⟨c.1, e.1⟩
    | _ => none))).foldl State.undrain s

def execDrain (h : Hdr) (mem eng flg : Bool) (s : State) : Out :=
  withCx h s (fun x s => .next (
    if x.idle then retireIdle x s
    else ((s.issueCost x 0).modCrew x.key (fun cr =>
      { (x.flagUp cr Dest.none) with block := .drain mem eng flg h.sf x.next, replay := none, bpSkip := false })).undrain x.key))

/-! ## GBAR (R336) -/

/-- A launch is cooperative by its record or its kernel (R21). -/
def State.coop (s : State) (wg : Wg) : Bool :=
  wg.kernel.coop || (match kfind wg.launch s.launches with | some l => l.coop | none => false)

/-- The crews of a launch, resident or saved. -/
def State.crewsOf (s : State) (launch : Nat) : List Crew :=
  s.cores.flatMap (fun c => (kvals c.2.crews).filter (fun cr => match kfind cr.wg c.2.wgs with
    | some w => w.launch == launch
    | none => false)) ++
  s.saved.flatMap (fun e => if e.2.wg.launch = launch then e.2.crews else [])

/-- The grid-barrier count: the least arrival over the live crews (R336). -/
def State.gbarCount (s : State) (launch : Nat) : Option Nat :=
  (((s.crewsOf launch).filter (fun cr => !cr.live.isEmpty)).map (fun cr => cr.gbarArr.toNat)).min?

def execGbar (h : Hdr) (s : State) : Out :=
  withCx h s (fun x s => .next (
    if x.crew.hmode then x.illegal s
    else if x.idle then retireIdle x s
    else if !s.coop x.wg then x.raise s (x.exc 0x09 0 true)
    else
      ((s.fenceRel x.acc .dev).issueCost x 0).modCrew x.key (fun cr =>
        { (x.flagUp cr Dest.none) with gbarArr := cr.gbarArr + 1, block := .gbar h.sf x.next, replay := none,
                                       bpSkip := false })))

/-- Whether every live crew of the launch, that of a workgroup not yet dispatched among them, has arrived as often as this one. -/
def State.gbarReady (s : State) (cr : Crew) (launch : Nat) : Bool :=
  (match kfind launch s.launches with
    | some l => decide (l.next ≥ l.nwg)
    | none => true) &&
  match s.gbarCount launch with
  | some n => decide (cr.gbarArr.toNat ≤ n)
  | none => true

def execGbarRelease (key : CrewKey) (s : State) : Out :=
  atCrew s key (fun cr wg => match cr.block with
    | .gbar sf next =>
      if s.gbarReady cr wg.launch then
        (s.fenceAcq (accOf key.core cr.wg wg) .dev).modCrew key (fun cr =>
          { (cr.flagDown sf).advance next with block := .none })
      else s
    | _ => s)

end Sys2Proof.Machine
end

