-- ==== Sys2Proof/Machine/Engine.lean ====
section
/-! DEFINITION. Group 0xC: reservations, the issue of engine commands and batches (R291-R306, R310, R317, R318), the end
of a command (R296), its failure and the delivery of the failure (R299). -/

namespace Sys2Proof

def EngOrder.scope : EngOrder → Scope
  | .none => .thread
  | .acq sc | .rel sc | .ar sc => sc
def EngOrder.acquires : EngOrder → Bool
  | .acq _ | .ar _ => true
  | _ => false
def EngOrder.releases : EngOrder → Bool
  | .rel _ | .ar _ => true
  | _ => false

end Sys2Proof

namespace Sys2Proof.Machine

open Sys2Proof

/-! ## Commands -/

/-- Command entries of an engine (R291): channels 0-3, the CIM array 4, the Grainer 5. -/
def engineCap (e : Nat) : Nat := if e = 4 then 32 else if e = 5 then 8 else 16

/-- R295: no entry is free, or the crew's open set is full; the crew is not ready. -/
def Core.engineFull (co : Core) (cr : Crew) (e : Nat) : Bool :=
  decide ((co.cmds.filter (fun c => c.engine == e)).length ≥ engineCap e) || decide (cr.openSet.length ≥ 64)

/-- Whether an engine resource belongs to a workgroup. -/
def Wg.owns (x : Wg) (w : Nat) : Option Owner → Bool
  | some (.crew sl) => x.crews.contains sl
  | some (.group v _) => v == w
  | none => false

def Core.mac (co : Core) (i : Nat) : CimMac := co.cim.getD i CimMac.zero
def Core.macMod (co : Core) (i : Nat) (f : CimMac → CimMac) : Core := { co with cim := lmod co.cim i f }

/-- The macro that a workgroup knows by a number, 8 for none (assumption 59). -/
def Core.macAt (co : Core) (w : Nat) (x : Wg) (n : Nat) : Nat :=
  ((List.range 8).find? (fun i => (co.mac i).name == n && x.owns w (co.mac i).owner)).getD 8
def State.macOf (s : State) (c w n : Nat) : Nat := match s.wg? c w with
  | some x => (s.core c).macAt w x n
  | none => 8

/-- The number by which a workgroup is to know macro `i`: its own, if the workgroup knows no other macro by it. -/
def Core.macName (co : Core) (w : Nat) (x : Wg) (i : Nat) : Nat :=
  if co.macAt w x i = 8 then i else ((List.range 8).find? (fun n => co.macAt w x n == 8)).getD i

def Core.cmd? (co : Core) (id : Nat) : Option Cmd := co.cmds.find? (fun c => c.id == id)
def Core.cmdMod (co : Core) (id : Nat) (f : Cmd → Cmd) : Core :=
  { co with cmds := co.cmds.map (fun c => if c.id = id then f c else c) }
def Core.cmdDel (co : Core) (id : Nat) : Core := { co with cmds := co.cmds.filter (fun c => c.id != id) }

def Cmd.key (c : Cmd) (core : Nat) : CrewKey := { core := core, slot := c.slot }

/-- Queue a command for the issuing crew. -/
def Cx.queue (x : Cx) (s : State) (engine : Nat) (o : EngOrder) (st : CmdState) (op : CmdOp) : State :=
  let id := (s.core x.key.core).nextCmd
  let c : Cmd := { id := id, slot := x.key.slot, wg := x.crew.wg, engine := engine, flag := x.h.sf, pc := x.pc, ord := o,
                   begun := false, st := st, op := op, rd := none, wr := none, early := [] }
  ((s.issueCost x 0).modCore x.key.core (fun co => { co with cmds := co.cmds ++ [c], nextCmd := id + 1 })).modCrew x.key
    (fun cr => { (x.flagUp cr Dest.none).advance x.next with openSet := cr.openSet ++ [id] })

/-- A command leaves the crew's open set and batches. -/
def Crew.forget (cr : Crew) (id : Nat) : Crew :=
  { cr with openSet := cr.openSet.filter (· != id), batches := cr.batches.map (·.filter (· != id)) }

/-- R296: the command completes. -/
def State.cmdDone (s : State) (core : Nat) (c : Cmd) (sat : Bool) (land : Option (Nat × Nat)) : State :=
  match s.wg? core c.wg with
  | none => s.modCore core (·.cmdDel c.id)
  | some wg =>
    let a := accOf core c.wg wg
    let s := match land with
      | some (off, n) => s.barScr a c.wg off (Bar.land n)
      | none => s
    (((s.modCore core (·.cmdDel c.id)).modCrew (c.key core) (fun cr =>
      ((cr.forget c.id).flagDown c.flag).raiseSat sat)).tally a 9).undrain (c.key core)

/-- R299: the command fails. -/
def State.fail (s : State) (key : CrewKey) (f : EngFail) : State :=
  match s.crew? key with
  | none => s
  | some cr =>
    let info : AbortInfo := { cause := f.cause, orig := 0, epc := cr.pos, earg := f.pc, ethr := cr.liveMask, slot := key.slot,
                              eng := true, at_ := s.refclk }
    if cr.live.isEmpty then s.abortWg key.core cr.wg info
    else if cr.failures.length ≥ 4 then s.abortWg key.core cr.wg { info with cause := 0x26 }
    else s.setCrew key { cr with failures := cr.failures ++ [f] }

def State.cmdFail (s : State) (core : Nat) (c : Cmd) (cause : Nat) : State :=
  (s.modCore core (·.cmdMod c.id (fun c => { c with st := .failed }))).fail (c.key core)
    { cause := cause, pc := c.pc, cmd := some c.id }

/-- R298: the command stands at its unit until replay. -/
def State.cmdPark (s : State) (core : Nat) (c : Cmd) (f : Nat × Nat × Nat) (write : Bool) : State :=
  s.modCore core (·.cmdMod c.id (fun c =>
    { c with st := .parked { mask := 0, cause := f.1, va := BitVec.ofNat 64 f.2.1, write := write, fetch := false,
                             level := f.2.2, at_ := s.refclk, handle := none, logged := false } }))

def State.cmdStop (s : State) (core : Nat) (c : Cmd) (write : Bool) : AccFail → State
  | .park cause va lv => s.cmdPark core c (cause, va, lv) write
  | .fault cause _ => s.cmdFail core c cause

/-- Whether the boundary of a crew takes an engine failure (R299, R414): not in a handler, not stopped, not parked, and
not inside a collective. -/
def Core.atBoundary (co : Core) (slot : Nat) (cr : Crew) : Bool :=
  !cr.hmode && cr.park.isNone && cr.replay.isNone && !co.stopped slot && !cr.finished &&
    (match cr.block with
      | .none | .wait _ | .drain _ _ _ _ _ => true
      | _ => false)

/-- Where a failure goes (R299). -/
def Kernel.failToH (k : Kernel) (cause : Nat) : Bool :=
  if cause = 0x12 then k.poison else if 0x18 ≤ cause ∧ cause ≤ 0x1B then k.rule else true

/-- The first failure is delivered: the command's entry is freed, and a WAIT or DRAIN is not executed. -/
def State.deliver (s : State) (key : CrewKey) (cr : Crew) (wg : Wg) (f : EngFail) (rest : List EngFail) : State :=
  let cr := match cr.block with
    | .wait w => { (cr.flagDown w.sf) with block := .none }
    | .drain _ _ _ sf _ => { (cr.flagDown sf) with block := .none }
    | _ => cr
  let s := (s.setCrew key { cr with failures := rest }).modCore key.core (fun co => match f.cmd with
    | some id => co.cmdDel id
    | none => co)
  raiseAt s key { cause := f.cause, eng := true, epc := cr.pos, earg := f.pc, ethr := cr.liveMask,
                  toH := wg.kernel.failToH f.cause }

/-- An engine failure is due at the crew's boundary: decoding has found nothing wrong with the word there (R299, R409). A crew in
WAIT or DRAIN stands at a word that has issued. -/
def State.failureDue (s : State) (key : CrewKey) (cr : Crew) (wg : Wg) : Bool :=
  !cr.failures.isEmpty && (s.core key.core).atBoundary key.slot cr && wg.abort.isNone && wg.save.isNone &&
    (cr.block != .none || (cr.word != .absent && !cr.wordBad wg.kernel))

def execEngineFailureDelivery (key : CrewKey) (s : State) : Out :=
  atCrew s key (fun cr wg => match cr.failures with
    | f :: rest => if s.failureDue key cr wg then s.deliver key cr wg f rest else s
    | [] => s)

/-! ## Reservations (R301, R302) -/

/-- A resource that the crew may use: its own, or a group's that stands in one of its slots (R295, R301). -/
def Cx.holds (x : Cx) : Option Owner → Bool
  | some (.crew sl) => sl == x.key.slot
  | some (.group w g) => w == x.crew.wg && x.crew.groups.contains (some g)
  | none => false

/-- The owner that an instruction names: the crew, or the group of a slot; with `own`, RSVOWN must be set. -/
def Cx.ownerFor (x : Cx) (grp : Option (Fin 4)) (own : Bool) : Option Owner :=
  match grp with
  | none => some (.crew x.key.slot)
  | some k =>
    match x.crew.groups.getD k.val none with
    | none => none
    | some g =>
      match kfind g x.wg.groups with
      | some e => if own && !e.rsvown then none else some (.group x.crew.wg g)
      | none => none

/-- Macro `i` is granted: its cells 0, its format none; and the number by which its workgroup knows it. -/
def Core.grant1 (co : Core) (w : Nat) (x : Wg) (o : Owner) (stamp i : Nat) : Core × Nat :=
  let n := co.macName w x i
  (co.macMod i (fun _ => { CimMac.zero with owner := some o, name := n, stamp := stamp }), n)

def Core.grantMacs (co : Core) (w : Nat) (x : Wg) (o : Owner) (stamp : Nat) : List Nat → Core × List Nat
  | [] => (co, [])
  | i :: t =>
    let r := co.grant1 w x o stamp i
    let q := r.1.grantMacs w x o stamp t
    (q.1, r.2 :: q.2)

def Core.freeMacs (co : Core) : List Nat := (List.range 8).filter (fun i => (co.mac i).owner.isNone)

def execRsv (h : Hdr) (grainer : Bool) (qd : Fin 3) (grp : Option (Fin 4)) (d : Reg) (count : Src) (s : State) : Out :=
  withCx h s (fun x s => .next (
    if !(x.kernel.r1 d && x.kernel.s1 count) then x.badOperand s
    else if x.idle then retireIdle x s
    else match x.ownerFor grp true with
      | none => x.badValue s
      | some o =>
        let co := s.core x.key.core
        let dst := (Dest.reg d 1).withPred (.q ⟨qd.val, by omega⟩)
        let fin (s : State) (m : Nat) : State :=
          retireVar x s 0 dst (wrReg 0 d (BitVec.ofNat 32 m) ++ [RegWrite.q qd.val (m != 0)]) 0 false
        if grainer then
          if co.grainer.isNone then fin (s.modCore x.key.core (fun co => { co with grainer := some o })) 256 else fin s 0
        else
          let n := (x.rd 0 count).toNat
          if n = 0 ∨ n > 8 then x.badValue s
          else
            if co.freeMacs.length < n then fin s 0
            else
              let g := co.grantMacs x.crew.wg x.wg o s.fresh (co.freeMacs.take n)
              fin (s.setCore x.key.core g.1) (maskOf 8 g.2).toNat))

/-- The macros that a command names, by the numbers of its workgroup. -/
def CmdOp.macs : CmdOp → List Nat
  | .cld mac _ _ _ _ _ _ => [mac]
  | .mma _ _ _ _ _ _ mask _ _ _ => bitsOf mask
  | _ => []
/-- A command that an engine has in hand. -/
def Cmd.runs (c : Cmd) : Bool := match c.st with
  | .ready | .ending _ _ _ => true
  | _ => false
def Cmd.isFailed (c : Cmd) : Bool := match c.st with
  | .failed => true
  | _ => false

/-- Whether a command that has neither completed nor failed names a resource of a release mask (R302, R319). -/
def Core.maskBusy (co : Core) (w m : Nat) : Bool :=
  co.cmds.any (fun c => c.wg == w && !c.isFailed && (c.op.macs.any (fun i => m.testBit i) || (c.engine == 5 && m.testBit 8)))

/-- Clear and free the resources of a mask, named as the workgroup names them. -/
def Core.freeMask (co : Core) (w : Nat) (x : Wg) (m : Nat) : Core :=
  let is := ((List.range 8).filter (fun n => m.testBit n)).map (co.macAt w x)
  { co with cim := co.cim.mapIdx (fun i y => if is.contains i then CimMac.zero else y),
            grainer := if m.testBit 8 then none else co.grainer, grainBusy := if m.testBit 8 then 0 else co.grainBusy }

def execRls (h : Hdr) (grp : Option (Fin 4)) (mask : Src) (s0 : State) : Out :=
  withCx h s0 (fun x s => .next (
    if !x.kernel.s1 mask then x.badOperand s
    else if x.idle then retireIdle x s
    else
      let m := (x.rd 0 mask).toNat
      let co := s.core x.key.core
      match x.ownerFor grp false with
      | none => x.badValue s
      | some o =>
        let held := (List.range 8).all (fun n => !m.testBit n || (co.mac (co.macAt x.crew.wg x.wg n)).owner == some o) &&
          (!m.testBit 8 || co.grainer == some o)
        if m / 2 ^ 9 ≠ 0 ∨ !held then x.badValue s
        else if co.maskBusy x.crew.wg m then s0
        else retireNone x (s.modCore x.key.core (·.freeMask x.crew.wg x.wg m)) 0))

/-- RLS waits (R302): the readiness of a crew about to issue it. -/
def State.rlsBusy (s : State) (h : Hdr) (mask : Src) : Bool :=
  match s.begin h with
  | some (x, s) => !x.idle && (s.core x.key.core).maskBusy x.crew.wg (x.rd 0 mask).toNat
  | none => false

/-! ## COPY, COPY2D (R317) -/

/-- The first offset outside the allocation of rows of `rb` bytes at `off` by `str`, if any. -/
def rowsOut (alloc off rb nr : Nat) (str : Int) : Option Int :=
  let out (o : Int) : Option Int := if o < 0 ∨ o + rb > alloc then some o else none
  if rb = 0 ∨ nr = 0 then none
  else match out off with
    | some o => some o
    | none => out (off + str * ((nr : Int) - 1))

/-- An endpoint's number: a pair's value, or a scratchpad offset. -/
def Cx.endpoint (x : Cx) (glob : Bool) (a : Src) : Option Nat :=
  if glob then (pairSrc x.kernel a).map (fun p => (x.rdPair p).toNat)
  else if x.kernel.s1 a then some (x.rd 0 a).toNat else none

/-- The barrier that a copy names, none for S62. -/
def Cx.copyBar (x : Cx) (bar : Src) : Except Exc (Option Nat) :=
  if bar = .r .z then .ok none
  else match x.barAt (.inl (x.rd 0 bar).toNat) false with
    | .ok (.scr off) => .ok (some off)
    | .ok _ => .ok none
    | .error e => .error e

/-- The checks that both copies share, then the queueing. -/
def Cx.copyGo (x : Cx) (s0 s : State) (o : EngOrder) (dir : CopyDir) (src dst rb nr : Nat) (sstr dstr : Int) (bar : Src) :
    State :=
  let out := match (if dir.srcGlobal then none else rowsOut x.kernel.alloc src rb nr sstr) with
    | some v => some v
    | none => if dir.dstGlobal then none else rowsOut x.kernel.alloc dst rb nr dstr
  match x.copyBar bar with
  | .error e => x.raise s e
  | .ok b =>
    match out with
    | some v => x.raise s (x.exc 0x08 (BitVec.ofInt 64 v) true)
    | none =>
      let ch := seqOf x.key.slot
      if (s.core x.key.core).engineFull x.crew ch then s0
      else if rb = 0 then (retireNone x s 0).tally x.acc 9
      else x.queue s ch o .ready (.copy dir src dst rb nr sstr dstr b 0 0)

def execCopy (h : Hdr) (o : EngOrder) (dir : CopyDir) (dst : Reg) (src len bar : Src) (s0 : State) : Out :=
  withCx h s0 (fun x s => .next (
    match x.endpoint dir.srcGlobal src, x.endpoint dir.dstGlobal (.r dst) with
    | some a, some d =>
      if !(x.kernel.s1 len && x.kernel.s1 bar) then x.badOperand s
      else if x.idle then retireIdle x s
      else x.copyGo s0 s o dir a d (x.rd 0 len).toNat 1 0 0 bar
    | _, _ => x.badOperand s))

def execCopy2d (h : Hdr) (o : EngOrder) (dir : CopyDir) (dst : Reg) (src shape bar : Src) (s0 : State) : Out :=
  withCx h s0 (fun x s => .next (
    match x.endpoint dir.srcGlobal src, x.endpoint dir.dstGlobal (.r dst) with
    | some a, some d =>
      if !(x.kernel.s1 shape && x.kernel.s1 bar) then x.badOperand s
      else if x.idle then retireIdle x s
      else
        let off := (x.rd 0 shape).toNat
        if off % 16 ≠ 0 then x.badValue s
        else if off + 16 > x.kernel.alloc then x.raise s (x.exc 0x08 (BitVec.ofNat 64 off) true)
        else
          let s := s.bill x.acc.payer (.core x.key.core) 6 1
          match s.scrPoisonAt x.key.core x.crew.wg off 16 with
          | some v => x.raise s (x.memExc 0x12 v)
          | none =>
            let v := natOfBytes (s.scrRead x.key.core x.crew.wg off 16)
            let rb := v % 2 ^ 32
            let nr := v / 2 ^ 32 % 2 ^ 32
            if rb = 0 ∨ rb > 2 ^ 24 ∨ nr = 0 ∨ nr > 65536 then x.badValue s
            else x.copyGo s0 s o dir a d rb nr (asInt true 32 (v / 2 ^ 64))
              (asInt true 32 (v / 2 ^ 96)) bar
    | _, _ => x.badOperand s))

/-! ## CLD (R303) -/

/-- Bits of an element, outputs per row and trits per weight of a CIM format (R109). -/
def cimShape (f : Nat) : Option (Nat × Nat × Nat) :=
  match f with
  | 0x01 => some (8, 42, 6)
  | 0x02 => some (4, 85, 3)
  | 0x03 => some (2, 256, 1)
  | 0x06 => some (4, 85, 3)
  | _ => none

/-- The macro's format admits a load (R303). -/
def CimMac.admits (m : CimMac) (f nr : Nat) : Bool :=
  nr == 256 || (match m.fmt with
    | none => true
    | some g => g == f)

def execCld (h : Hdr) (o : EngOrder) (place : Reg) (src stride : Src) (s0 : State) : Out :=
  withCx h s0 (fun x s => .next (
    match pairSrc x.kernel src with
    | none => x.badOperand s
    | some pr =>
      if !(x.kernel.r1 place && x.kernel.s1 stride) then x.badOperand s
      else if x.idle then retireIdle x s
      else
        let p := (x.rdReg 0 place).toNat
        let mac := p % 8
        let fb := p / 256 % 8
        let nb := p / 2048 % 8
        let nr := 32 * (nb + 1)
        let va := (x.rdPair pr).toNat
        let st := (x.rd 0 stride).toNat
        let phys := (s.core x.key.core).macAt x.crew.wg x.wg mac
        let m := (s.core x.key.core).mac phys
        if p / 8 % 32 ≠ 0 ∨ p / 2 ^ 14 ≠ 0 ∨ fb + nb > 7 ∨ !x.holds m.owner then x.badValue s
        else if (s.core x.key.core).engineFull x.crew 4 then s0
        else match s.checkSpan x.acc va 1 false (fun _ => false) with
          | (s, .error (.park c v lv)) =>
            x.queue s 4 o (.parked { mask := 0, cause := c, va := BitVec.ofNat 64 v, write := false, fetch := false,
                                     level := lv, at_ := s.refclk, handle := none, logged := false })
              (.cld mac fb nr (BitVec.ofNat 64 va) st none 0)
          | (s, .error (.fault _ _)) => x.queue s 4 o .ready (.cld mac fb nr (BitVec.ofNat 64 va) st none 0)
          | (s, .ok ps) =>
            let f := ((ps.head?.map Part.at_).getD Attr.plain).fmt
            if !m.admits f nr then x.badValue s
            else
              let s := if (cimShape f).isSome then s.modCore x.key.core (·.macMod phys (fun m => { m with fmt := some f })) else s
              x.queue s 4 o .ready (.cld mac fb nr (BitVec.ofNat 64 va) st (some f) 0)))

/-! ## MMA (R306) -/

def mmaBits (s4 : Bool) : Nat := if s4 then 4 else 8
/-- Activations per vector; outputs per vector. -/
def mmaActs (sum : Bool) (fmts : List Nat) : Nat := if sum then 256 * fmts.length else 256
def mmaOuts (sum : Bool) (fmts : List Nat) : Nat :=
  let ms := fmts.map (fun f => match cimShape f with | some (_, m, _) => m | none => 0)
  if sum then ms.headD 0 else ms.foldl (· + ·) 0
def mmaVec (s4 sum : Bool) (fmts : List Nat) : Nat := mmaActs sum fmts * mmaBits s4 / 8

def allSame : List Nat → Bool
  | [] => true
  | a :: t => t.all (· == a)

def execMma (h : Hdr) (o : EngOrder) (s4 acc sum : Bool) (out : Reg) (act ctl : Src) (s0 : State) : Out :=
  withCx h s0 (fun x s => .next (
    if !(x.kernel.r1 out && x.kernel.s1 act && x.kernel.s1 ctl) then x.badOperand s
    else if x.idle then retireIdle x s
    else
      let w := (x.rd 0 ctl).toNat
      let mask := BitVec.ofNat 8 w
      let nv := w / 256 % 256
      let so := (x.rdReg 0 out).toNat
      let si := (x.rd 0 act).toNat
      let co := s.core x.key.core
      let ms := (bitsOf mask).map (fun n => co.mac (co.macAt x.crew.wg x.wg n))
      let fmts := ms.filterMap CimMac.fmt
      if w / 2 ^ 16 ≠ 0 ∨ mask = 0 ∨ so % 4 ≠ 0 ∨ si % 4 ≠ 0 ∨ !(ms.all (fun m => x.holds m.owner && m.fmt.isSome)) ∨
          (sum && !allSame fmts) then x.badValue s
      else
        match rowsOut x.kernel.alloc si (mmaVec s4 sum fmts * (nv + 1)) 1 0,
              rowsOut x.kernel.alloc so (4 * mmaOuts sum fmts * (nv + 1)) 1 0 with
        | some v, _ => x.raise s (x.exc 0x08 (BitVec.ofInt 64 v) true)
        | none, some v => x.raise s (x.exc 0x08 (BitVec.ofInt 64 v) true)
        | none, none =>
          if co.engineFull x.crew 4 then s0
          else x.queue s 4 o .ready (.mma s4 acc sum so si nv mask fmts 0 false)))

/-! ## GMV (R310) -/

def execGmv (h : Hdr) (o : EngOrder) (desc : Src) (s0 : State) : Out :=
  withCx h s0 (fun x s => .next (
    if !x.kernel.s1 desc then x.badOperand s
    else if x.idle then retireIdle x s
    else
      let off := (x.rd 0 desc).toNat
      if off % 32 ≠ 0 ∨ !x.holds (s.core x.key.core).grainer then x.badValue s
      else if off + 32 > x.kernel.alloc then x.raise s (x.exc 0x08 (BitVec.ofNat 64 off) true)
      else
        let s := s.bill x.acc.payer (.core x.key.core) 6 1
        match s.scrPoisonAt x.key.core x.crew.wg off 32 with
        | some v => x.raise s (x.memExc 0x12 v)
        | none =>
          let v := natOfBytes (s.scrRead x.key.core x.crew.wg off 32)
          let f (at_ n : Nat) := v / 2 ^ (8 * at_) % 2 ^ (8 * n)
          let b := f 0x18 1
          let fl := f 0x19 1
          let esz := if fl.testBit 0 then 2 else 1
          if f 0 8 % 32 ≠ 0 ∨ f 8 4 % 4 ≠ 0 ∨ f 0xC 4 % 4 ≠ 0 ∨ f 0x10 4 % 8 ≠ 0 ∨ f 0x14 4 = 0 ∨ f 0x14 4 > 65536 ∨ b = 0 ∨
              b > 8 ∨ fl / 4 ≠ 0 ∨ f 0x1A 2 = 0 ∨ f 0x1C 4 ≠ 0 then x.badValue s
          else
            match rowsOut x.kernel.alloc (f 8 4) (f 0x14 4 * b * esz) 1 0,
                  rowsOut x.kernel.alloc (f 0xC 4) (f 0x1A 2 * b * 4) 1 0, rowsOut x.kernel.alloc (f 0x10 4) 8 1 0 with
            | none, none, none =>
              if (s.core x.key.core).engineFull x.crew 5 then s0
              else x.queue s 5 o .ready
                (.gmv (BitVec.ofNat 64 (f 0 8)) (f 8 4) (f 0xC 4) (f 0x10 4) (f 0x14 4) b (fl.testBit 0) (fl.testBit 1)
                  (f 0x1A 2) 0 0)
            | a, b, c => x.raise s (x.exc 0x08 (BitVec.ofInt 64 ((a.or (b.or c)).getD 0)) true)))

/-! ## MFENCE (R318) -/

/-- The batch-table entry that MFENCE would fill is still outstanding. -/
def Crew.batchBusy (cr : Crew) : Bool := !(cr.batches.getD (cr.batchCnt.toNat % 16) []).isEmpty

def execMfence (h : Hdr) (d : Reg) (s0 : State) : Out :=
  withCx h s0 (fun x s => .next (
    if !x.kernel.r1 d then x.badOperand s
    else if x.idle then retireIdle x s
    else if x.crew.batchBusy then s0
    else
      let k := x.crew.batchCnt.toNat % 16
      (retireVar x s 0 (Dest.reg d 1) (wrReg 0 d (BitVec.ofNat 32 k)) 0 false).modCrew x.key (fun cr =>
        { cr with batches := cr.batches.set k cr.openSet, openSet := [], batchCnt := cr.batchCnt + 1 })))

end Sys2Proof.Machine
end

