-- ==== Sys2Proof/Machine/Units.lean ====
section
/-! DEFINITION. The units of engine commands: the order of commands (R297), the beat of a copy (R317), the row of CLD (R303,
R304) and the vector of MMA (R307). -/

namespace Sys2Proof.Machine

open Sys2Proof

/-! ## When a unit runs (R297) -/

/-- Scratchpad ranges that a CIM command reads and writes. -/
def CmdOp.reads : CmdOp → List (Nat × Nat)
  | .mma s4 acc sum out act nv _ fmts _ _ =>
    (act, mmaVec s4 sum fmts * (nv + 1)) :: (if acc then [(out, 4 * mmaOuts sum fmts * (nv + 1))] else [])
  | _ => []
def CmdOp.writes : CmdOp → List (Nat × Nat)
  | .mma _ _ sum out _ nv _ fmts _ _ => [(out, 4 * mmaOuts sum fmts * (nv + 1))]
  | _ => []

def overlap (a b : List (Nat × Nat)) : Bool :=
  a.any (fun p => b.any (fun q => decide (p.1 < q.1 + q.2) && decide (q.1 < p.1 + p.2)))

def Cmd.clash (c e : Cmd) : Bool :=
  c.wg == e.wg && (c.op.macs.any (e.op.macs.contains ·) ||
    (overlap c.op.reads e.op.writes || overlap c.op.writes e.op.reads || overlap c.op.writes e.op.writes))

/-- The earlier commands of the same engine whose entries are not free. A failed command has not completed (R299). -/
def Core.earlier (co : Core) (c : Cmd) : List Cmd :=
  (co.cmds.takeWhile (fun e => e.id != c.id)).filter (fun e => e.engine == c.engine)

/-- A CIM command begins by R297 and then goes on; a channel, and the Grainer, runs the oldest command that has not failed. -/
def Core.mayBegin (co : Core) (c : Cmd) : Bool :=
  if c.engine = 4 then c.begun || (co.earlier c).all (fun e => e.begun && !c.clash e) else (co.earlier c).all Cmd.isFailed

/-- A workgroup whose macros a restore has yet to load (R305, R424). -/
def State.reloading (s : State) (core : Nat) (wg : Wg) : Bool :=
  wg.crews.any (fun sl => match s.crew? ⟨core, sl⟩ with
    | some cr => (cr.park.map (fun p => !p.reload.isEmpty)).getD false
    | none => false)

/-- A command's next unit may run now: its workgroup has not been stopped, its macros are loaded, and the Grainer has read the
symbols of the unit before. -/
def State.unitReady (s : State) (core : Nat) (c : Cmd) : Bool :=
  c.runs && (c.engine != 5 || (s.core core).grainBusy == 0) &&
  (match s.wg? core c.wg with
    | some wg => !wg.stopped && !s.reloading core wg
    | none => false) && s.serves core && (s.core core).mayBegin c

/-- The acquire of R282: what the issuing core has sent has been accepted, and at DIE or wider its dirty bytes are written
back. MMA touches no global memory, but the crew's accesses before it have been performed (R294). -/
def State.engAcquire (s : State) (a : Acc) (c : Cmd) : State :=
  match c.op with
  | .mma _ _ _ _ _ _ _ _ _ _ => if c.ord.acquires then s.landCore a.core else s
  | _ => if c.ord.acquires then (s.fenceRel a c.ord.scope).landCore a.core else s

/-- A unit event of an engine: the acquire before the first. -/
def atUnit (core id : Nat) (s : State) (f : State → Acc → Wg → Cmd → State) : Out :=
  match (s.core core).cmd? id with
  | none => .next s
  | some c =>
    match s.wg? core c.wg with
    | none => .next s
    | some wg =>
      .next (
        if !s.unitReady core c then s
        else
          let a := accOf core c.wg wg
          let s := if c.begun then s else s.engAcquire a c
          f (s.modCore core (·.cmdMod id (fun c => { c with begun := true }))) a wg { c with begun := true })

/-- The command goes on to its next unit, of which it has read nothing yet. -/
def State.setOp (s : State) (core id : Nat) (op : CmdOp) : State :=
  s.modCore core (·.cmdMod id (fun c => { c with op := op, early := [] }))

/-! ## Scratchpad bytes that a unit reads (R297) -/

/-- Scratchpad bytes as the command's next unit reads them: those that it has read already as they were then. -/
def seenEarly (early : KMap Byte) (off : Nat) (bs : List Byte) : List Byte := bs.mapIdx (fun i b => (kfind (off + i) early).getD b)
def Cmd.seen (c : Cmd) (off : Nat) (bs : List Byte) : List Byte := seenEarly c.early off bs

/-- Where a beat's bytes lie. -/
def beatAddr (base : Nat) (str : Int) (row off : Nat) : Int := (base : Int) + str * row + off

/-- The scratchpad bytes that the next unit of a command reads. -/
def CmdOp.unitReads : CmdOp → List (Nat × Nat)
  | .copy dir src dst rb _ sstr dstr _ row off =>
    if dir.srcGlobal then []
    else
      let d := (beatAddr dst dstr row off % 2 ^ 64).toNat
      [((beatAddr src sstr row off % 2 ^ 64).toNat, min (32 - d % 32) (rb - off))]
  | .mma s4 acc sum out act _ _ fmts vec _ =>
    (act + vec * mmaVec s4 sum fmts, mmaVec s4 sum fmts) ::
      (if acc then [(out + 4 * (vec * mmaOuts sum fmts), 4 * mmaOuts sum fmts)] else [])
  | .gmv _ inp _ _ ncol b s16 _ _ _ _ => [(inp, ncol * b * (if s16 then 2 else 1))]
  | .cld _ _ _ _ _ _ _ => []

/-- The command reads `n` bytes at `off` of those of its next unit now, ahead of the others; what it has read stays, and poisoned
sectors are read with the unit. -/
def State.readEarly (s : State) (core id off n : Nat) : Out :=
  atUnit core id s (fun s _ _ c =>
    let mine (o : Nat) : Bool := c.st == .ready && c.op.unitReads.any (fun r => decide (r.1 ≤ o) && decide (o < r.1 + r.2)) &&
      (kfind o c.early).isNone && !s.scrBad core c.wg (o / 32 * 32) 32
    let bs := ((List.range n).map (off + ·)).filter mine
    s.modCore core (·.cmdMod id (fun c => { c with early := bs.foldl (fun m o =>
      kput o ((s.scrRead core c.wg o 1).headD 0) m) c.early })))

/-! ## Global bytes of an engine (R282) -/

/-- A page of a stream is translated once, when the stream comes to it (R298, R319). -/
def State.streamPart (s : State) (a : Acc) (h : Option TlbEntry) (va n : Nat) (write : Bool) :
    State × Option TlbEntry × Except AccFail Part :=
  let part (s : State) (t : TlbEntry) : State × Option TlbEntry × Except AccFail Part :=
    match s.keyOf t va with
    | none => (s, none, .error (.park 0x10 va t.level))
    | some k => (s, some t, .ok { va := va, n := n, key := k, w := t.w, d := t.d, at_ := t.attr a, conf := t.conf, hit := false })
  match h.filter (·.covers a va) with
  | some t => part s t
  | none =>
    let r := s.translate a va write false
    match r.2 with
    | .ok t => part r.1 t
    | .fault c lv => (r.1, none, .error (.park c va lv))
    | .poison => (r.1, none, .error (.fault 0x12 (va / 32 * 32)))

/-- The translation of a unit of a stream: whole or not at all. -/
def State.streamSpan (s : State) (a : Acc) (h : Option TlbEntry) (va n : Nat) (write : Bool) :
    State × Option TlbEntry × Except AccFail (List Part) :=
  if (va + n - 1) / 2 ^ 57 ≠ 0 then (s, h, .error (.park 0x10 va 0xFE))
  else (piecesOf va n).foldl (fun r p =>
    match r.2.2 with
    | .error e => (r.1, r.2.1, .error e)
    | .ok ps =>
      let q := r.1.streamPart a r.2.1 p.1 p.2 write
      (q.1, q.2.1, match q.2.2 with
        | .error e => .error e
        | .ok part => .ok (ps ++ [part]))) (s, h, .ok [])

/-- The command is in these pages from now on. -/
def State.inPages (s : State) (core id : Nat) (rd wr : Option TlbEntry) : State :=
  s.modCore core (·.cmdMod id (fun c => { c with rd := rd, wr := wr }))

/-- The bytes of checked parts at their homes, and whether a sector of them is poisoned. What the core has on its way is not
waited for (R282). -/
def State.engRead (s : State) (a : Acc) : List Part → State × List Byte × Bool
  | [] => (s, [], false)
  | p :: ps =>
    let h := s.serveRead a p.at_ p.key p.n
    let r := h.1.engRead a ps
    (r.1, h.2.1 ++ r.2.1, h.2.2 || r.2.2)

/-- An engine's write sets out for the homes of its parts, each sector to be accepted in its own time; what the command has sent of a
line before comes first (R282, R317). -/
def State.engSend (s : State) (a : Acc) (id : Nat) (bad : Bool) : List Part → List Byte → State
  | [], _ => s
  | p :: ps, bs =>
    (s.sendOff a p.at_ (bytesAt p.key (bs.take p.n)) (fun _ => bad) (fun _ => []) false (some id)).engSend a id bad ps (bs.drop p.n)

/-- Bytes written at the homes of parts and accepted at once, as an engine's are (R282): the records and counters of queues. -/
def State.engWrite (s : State) (a : Acc) (bad : Bool) : List Part → List Byte → State
  | [], _ => s
  | p :: ps, bs =>
    let ws := bytesAt p.key (bs.take p.n)
    (((s.engTake a ws).homeWrite a p.at_ ws (fun _ => bad)).engWrite a bad ps (bs.drop p.n))

/-- Before a completion is signalled: with REL every write of the command has been accepted, without it those to homes on the core's
own die (R282). The others may be on their way even after the workgroup has retired (assumption 95). -/
def State.engLand (s : State) (core : Nat) (c : Cmd) : State := s.landEng core c.id c.ord.releases

/-- Scratchpad bytes written with their poison (R231). -/
def State.scrPutBad (s : State) (a : Acc) (w off : Nat) (bs : List Byte) (bad : Bool) : State :=
  let s := s.scrPut a w off bs
  if bad then s.modWg a.core w (fun x =>
    { x with scrPoison := (spanSectors off bs.length).foldl (fun l q => sins q l) x.scrPoison })
  else s

/-! ## COPY_BEAT (R317) -/

/-- The source bytes of a beat. -/
def State.beatRead (s : State) (a : Acc) (h : Option TlbEntry) (c : Cmd) (glob : Bool) (va : Nat) (n : Nat) :
    State × Option TlbEntry × Except AccFail (List Byte × Bool) :=
  if glob then
    match s.streamSpan a h va n false with
    | (s, h, .error e) => (s, h, .error e)
    | (s, h, .ok ps) => let r := s.engRead a ps; (r.1, h, .ok r.2)
  else
    (s.bill a.payer (.core a.core) 6 (spanSectors va n).length, h,
      .ok (c.seen va (s.scrRead a.core c.wg va n), (s.scrPoisonAt a.core c.wg va n).isSome))

/-- The translation of a beat's destination, before anything is read. -/
def State.beatCheck (s : State) (a : Acc) (h : Option TlbEntry) (glob : Bool) (va n : Nat) :
    State × Option TlbEntry × Except AccFail (List Part) :=
  if glob then s.streamSpan a h va n true else (s, h, .ok [])

def State.beatWrite (s : State) (a : Acc) (w id : Nat) (glob : Bool) (va : Nat) (ps : List Part) (bs : List Byte) (bad : Bool) :
    State :=
  if glob then s.engSend a id bad ps bs
  else (s.bill a.payer (.core a.core) 6 (spanSectors va bs.length).length).scrPutBad a w va bs bad

def execCopyBeat (core cmd : Nat) (s : State) : Out :=
  atUnit core cmd s (fun s a _ c => match c.op with
    | .copy dir src dst rb nr sstr dstr bar row off =>
      let d := (beatAddr dst dstr row off % 2 ^ 64).toNat
      let sv := (beatAddr src sstr row off % 2 ^ 64).toNat
      let n := min (32 - d % 32) (rb - off)
      match s.beatCheck a c.wr dir.dstGlobal d n with
      | (s, _, .error e) => s.cmdStop core c true e
      | (s, wr, .ok ps) =>
        match s.beatRead a c.rd c dir.srcGlobal sv n with
        | (s, _, .error e) => s.cmdStop core c false e
        | (s, rd, .ok (bs, bad)) =>
          let s := ((s.inPages core cmd rd wr).beatWrite a c.wg c.id dir.dstGlobal d ps bs bad).bill a.payer (.core core) 16 1
          let s := match bar with
            | some b => if c.ord.releases then s else (s.engLand core c).barScr a c.wg b (Bar.land n)
            | none => s
          let next := if off + n < rb then (row, off + n) else (row + 1, 0)
          if next.1 < nr then s.setOp core cmd (.copy dir src dst rb nr sstr dstr bar next.1 next.2)
          else (s.engLand core c).cmdDone core c false (if c.ord.releases then bar.map (fun b => (b, rb * nr)) else none)
    | _ => s)

/-! ## CLD_ROW (R303, R304) -/

/-- The balanced-ternary expansion (R109). -/
def trits : Nat → Int → List Int
  | 0, _ => []
  | k + 1, v => let r := (v + 1) % 3 - 1; r :: trits k ((v - r) / 3)

/-- The integer that a CIM format takes of a code; none for T2's 0b10. E2M1 counts halves. -/
def cimValue (f x : Nat) : Option Int :=
  match f with
  | 0x01 => some (asInt true 8 x)
  | 0x02 => some (asInt true 4 x)
  | 0x03 => if t2Bad x then none else some (t2 x)
  | _ =>
    let m : Nat := [0, 1, 2, 3, 4, 6, 8, 12].getD (x % 8) 0
    some (if x / 8 % 2 = 1 then -(m : Int) else m)

/-- Write a row of cells, its unlisted columns 0. -/
def CimMac.putRow (m : CimMac) (row : Nat) (ts : List Int) (bad : Bool) : CimMac :=
  let new := ((ts.zipIdx).filter (fun e => e.1 != 0)).map (fun e => (row * 256 + e.2, e.1))
  { m with cells := m.cells.filter (fun e => decide (e.1 < row * 256)) ++ new ++
                      m.cells.filter (fun e => decide (row * 256 + 256 ≤ e.1)),
           poison := sput bad row m.poison }

/-- Rows `row0` to `row0 + nr - 1` set to 0 and unpoisoned, their reload records cleared (R304). -/
def CimMac.clearRows (m : CimMac) (row0 nr : Nat) : CimMac :=
  { m with cells := m.cells.filter (fun e => decide (e.1 < row0 * 256) || decide ((row0 + nr) * 256 ≤ e.1)),
           poison := m.poison.filter (fun r => decide (r < row0) || decide (row0 + nr ≤ r)),
           reload := m.reload.filter (fun e => decide (e.1 < row0 / 32) || decide ((row0 + nr) / 32 ≤ e.1)) }

/-- What a row of weights reads: its trits and whether a byte was poisoned; none for a format fault. -/
def State.cldRead (s : State) (a : Acc) (h : Option TlbEntry) (src : W64) (stride f i : Nat) :
    State × Option TlbEntry × Except AccFail (Option (List Int × Bool)) :=
  match cimShape f with
  | none => (s, h, .ok none)
  | some (w, m, k) =>
    let bit := w * (stride * i)
    let va := (src.toNat + bit / 8) % 2 ^ 64
    match s.streamSpan a h va ((bit % 8 + w * m + 7) / 8) false with
    | (s, h, .error e) => (s, h, .error e)
    | (s, h, .ok ps) =>
      if ps.any (fun p => p.at_.fmt != f) then (s, h, .ok none)
      else
        let r := s.engRead a ps
        let v := natOfBytes r.2.1 / 2 ^ (bit % 8)
        let vals := (List.range m).map (fun j => cimValue f (v / 2 ^ (w * j) % 2 ^ w))
        if vals.all Option.isSome then (r.1, h, .ok (some (vals.flatMap (fun x => trits k (x.getD 0)), r.2.2)))
        else (r.1, h, .ok none)

def State.cldFail (s : State) (core : Nat) (c : Cmd) (mac fblk nr : Nat) : State :=
  (s.modCore core (·.macMod mac (·.clearRows (32 * fblk) nr))).cmdFail core c 0x07

/-- The format, where issue could not decide it. -/
def State.cldFormat (s : State) (a : Acc) (src : W64) (fmt : Option Nat) : State × Except AccFail Nat :=
  match fmt with
  | some f => (s, .ok f)
  | none =>
    match s.checkSpan a src.toNat 1 false (fun _ => false) with
    | (s, .error e) => (s, .error e)
    | (s, .ok ps) => (s, .ok ((ps.head?.map Part.at_).getD Attr.plain).fmt)

def execCldRow (core cmd : Nat) (s : State) : Out :=
  atUnit core cmd s (fun s a _ c => match c.op with
    | .cld name fblk nr src stride fmt row =>
      let mac := s.macOf core c.wg name
      match s.cldFormat a src fmt with
      | (s, .error e) => s.cmdStop core c false e
      | (s, .ok f) =>
        if fmt.isNone && !((s.core core).mac mac).admits f nr then s.cldFail core c mac fblk nr
        else
          let s := if fmt.isNone && (cimShape f).isSome then s.modCore core (·.macMod mac (fun m => { m with fmt := some f }))
            else s
          let s := s.setOp core cmd (.cld name fblk nr src stride (some f) row)
          match s.cldRead a c.rd src stride f row with
          | (s, _, .error e) => s.cmdStop core c false e
          | (s, _, .ok none) => s.cldFail core c mac fblk nr
          | (s, rd, .ok (some (ts, bad))) =>
            let s := ((s.inPages core cmd rd none).modCore core (·.macMod mac (·.putRow (32 * fblk + row) ts bad))).bill a.payer (.core core) 14 1
            if row + 1 < nr then s.setOp core cmd (.cld name fblk nr src stride (some f) (row + 1))
            else
              let recs := (List.range (nr / 32)).map (fun b =>
                (fblk + b, { va := src, stride := BitVec.ofNat 32 stride, row := 32 * b : Reload }))
              (s.modCore core (·.macMod mac (fun m =>
                { m with reload := recs.foldl (fun l e => kput e.1 e.2 l) m.reload }))).cmdDone core c false none
    | _ => s)

/-! ## MMA_VECTOR (R307) -/

/-- The outputs of one macro on 256 activations: the exact sums of R110. -/
def CimMac.dots (m : CimMac) (shape : Nat × Nat × Nat) (acts : List Int) : List Int :=
  let k := shape.2.2
  (List.range shape.2.1).map (fun j =>
    m.cells.foldl (fun acc e =>
      let col := e.1 % 256
      if col / k = j then acc + acts.getD (e.1 / 256) 0 * e.2 * 3 ^ (col % k) else acc) 0)

def addLists : List Int → List Int → List Int
  | a :: x, b :: y => (a + b) :: addLists x y
  | [], y => y
  | x, [] => x

/-- Every output of a vector, before ACC. -/
def mmaSums (sum : Bool) (ms : List CimMac) (fmts : List Nat) (acts : List Int) : List Int :=
  let parts := (ms.zip fmts).zipIdx.map (fun e =>
    e.1.1.dots ((cimShape e.1.2).getD (0, 0, 1)) (if sum then (acts.drop (256 * e.2)).take 256 else acts))
  if sum then parts.foldl addLists [] else parts.flatten

def execMmaVector (core cmd : Nat) (s : State) : Out :=
  atUnit core cmd s (fun s a _ c => match c.op with
    | .mma s4 acc sum out act nv mask fmts vec clamped =>
      let p := mmaBits s4
      let vb := mmaVec s4 sum fmts
      let m := mmaOuts sum fmts
      let ai := act + vec * vb
      let oo := out + 4 * (vec * m)
      let is := (bitsOf mask).map (s.macOf core c.wg)
      let ms := is.map (s.core core).mac
      if (s.scrPoisonAt core c.wg ai vb).isSome ∨ ms.any (fun x => !x.poison.isEmpty) ∨
          (acc && (s.scrPoisonAt core c.wg oo (4 * m)).isSome) then s.cmdFail core c 0x12
      else
        let v := natOfBytes (c.seen ai (s.scrRead core c.wg ai vb))
        let acts := (List.range (mmaActs sum fmts)).map (fun i => asInt true p (v / 2 ^ (p * i)))
        let old := c.seen oo (s.scrRead core c.wg oo (4 * m))
        let xs := (mmaSums sum ms fmts acts).mapIdx (fun j x =>
          satS 32 (if acc then x + asInt true 32 (natOfBytes ((old.drop (4 * j)).take 4)) else x))
        let n6 := (spanSectors ai vb).length + (spanSectors oo (4 * m)).length * (if acc then 2 else 1)
        let s := ((s.scrPut a c.wg oo (xs.flatMap (fun x => leInt 4 x.1))).bill a.payer (.core core) 6 n6).bill a.payer
          (.core core) 13 (p * ms.length)
        let s := s.modCore core (fun co => is.foldl (fun co i => co.macMod i (fun x => { x with busy := x.busy + p })) co)
        let clamped := clamped || xs.any Prod.snd
        if vec < nv then s.setOp core cmd (.mma s4 acc sum out act nv mask fmts (vec + 1) clamped)
        else s.cmdDone core c clamped none
    | _ => s)

end Sys2Proof.Machine
end

