-- ==== Sys2Proof/Machine/Grainer.lean ====
section
/-! DEFINITION. The Grainer: one start of a segment (R308-R315), with the charges of R367. -/

namespace Sys2Proof.Machine

open Sys2Proof

/-- Why a start ends before its rows are done: a fault that parks (R315), or a CODE of R312. -/
inductive GStop
  | park (cause va level : Nat)
  | code (n : Nat)
  deriving DecidableEq, Repr

/-- The operands of a GMV. -/
structure GOp where
  core : Nat
  wg   : Nat
  acc  : Acc
  seg  : Nat
  inp  : Nat
  out  : Nat
  ncol : Nat
  b    : Nat
  esz  : Nat
  add  : Bool              -- ACC
  early : KMap Byte        -- inputs that it has read already (R297)
  deriving DecidableEq, Repr

/-- What a start has read and found so far. -/
structure Gr where
  st     : State
  pieces : KMap (List Byte × Bool)  -- 32-byte pieces of the segment, each read once per start
  ins    : List Nat                 -- scratchpad sectors of IN read in this start
  depth  : KMap Nat
  rule   : Nat                      -- the rule being evaluated, 0x1FFF if none
  rows   : Nat
  satcol : BitVec 8
  sums   : List Int                 -- by batch column
  d      : Nat                      -- deepest reference of the body
  syms   : Nat                      -- symbols read
  deriving DecidableEq, Repr

abbrev Gm := ExceptT GStop (StateM Gr)

def gStop {α : Type} (e : GStop) : Gm α := throw e
def gCode {α : Type} (n : Nat) : Gm α := throw (.code n)

/-! ## Reading the segment -/

/-- Piece `i` of the segment, read at its home when first met. -/
def gPiece (o : GOp) (i : Nat) : Gm (List Byte) := do
  let g ← get
  match kfind i g.pieces with
  | some (bs, bad) => if bad then gCode 5 else return bs
  | none =>
    match g.st.checkSpan o.acc ((o.seg + 32 * i) % 2 ^ 64) 32 false (fun _ => false) with
    | (s, .error (.park c v lv)) => set { g with st := s }; gStop (.park c v lv)
    | (s, .error (.fault _ _)) => set { g with st := s }; gCode 5
    | (s, .ok ps) =>
      let r := s.engRead o.acc ps
      set { g with st := r.1, pieces := kput i r.2 g.pieces }
      if r.2.2 then gCode 5 else return r.2.1

/-- `n` bytes of the segment inside one piece. -/
def gBytes (o : GOp) (pos n : Nat) : Gm Nat := do
  let bs ← gPiece o (pos / 32)
  return natOfBytes ((bs.drop (pos % 32)).take n)

/-- The symbol at a byte position; at word NSYM of the body area or beyond there is none (R311). -/
def gSym (o : GOp) (base nsym pos : Nat) : Gm Nat := do
  if (pos - base) / 2 ≥ nsym then gCode 4
  else
    let w ← gBytes o pos 2
    modify (fun g => { g with st := g.st.bill o.acc.payer (.core o.core) 15 o.b, syms := g.syms + 1 })
    return w

/-! ## Terms -/

/-- An input element (R310). -/
def gInput (o : GOp) (x b : Nat) : Gm Int := do
  let off := o.inp + (x * o.b + b) * o.esz
  let g ← get
  let new := (spanSectors off o.esz).filter (fun q => !smem q g.ins)
  set { g with st := g.st.bill o.acc.payer (.core o.core) 6 new.length, ins := new.foldl (fun l q => sins q l) g.ins }
  if (g.st.scrPoisonAt o.core o.wg off o.esz).isSome then gCode 5
  else return asInt true (8 * o.esz) (natOfBytes (seenEarly o.early off (g.st.scrRead o.core o.wg off o.esz)))

/-- A rule value. -/
def gRule (o : GOp) (j b : Nat) : Gm Int := do
  let g ← get
  let co := g.st.core o.core
  if smem (8 * j + b) co.rvfPoison then gCode 5
  else return (kget 0 (8 * j + b) co.rvf).toInt

def gSat (b : Nat) (v : Int) : Gm Int := do
  let r := satS 32 v
  if r.2 then modify (fun g => { g with satcol := g.satcol ||| (1#8 <<< b) })
  return r.1

/-- Add a term to each batch column. -/
def gAdd (neg : Bool) (ts : List Int) : Gm Unit := do
  let g ← get
  let vs ← ((g.sums.zip ts).zipIdx).mapM (fun e => gSat e.2 (e.1.1 + (if neg then -e.1.2 else e.1.2)))
  modify (fun g => { g with sums := vs })

/-- Term(s, limit) of R311: kind, then range, then order. -/
def gTerm (o : GOp) (colbase w limit : Nat) : Gm Unit := do
  if w / 2 ^ 15 = 0 then
    let x := colbase + w % 2 ^ 14
    if x ≥ o.ncol then gCode 4
    else
      let ts ← (List.range o.b).mapM (gInput o x)
      gAdd (w.testBit 14) ts
  else if w / 2 ^ 14 = 2 then
    let j := w % 2 ^ 13
    if j ≥ 4096 then gCode 3
    else if j ≥ limit then gCode 1
    else
      let ts ← (List.range o.b).mapM (gRule o j)
      modify (fun g => { g with d := max g.d (kget 0 j g.depth) })
      gAdd (w.testBit 13) ts
  else gCode 4

def gClear (o : GOp) : Gm Unit := modify (fun g => { g with sums := List.replicate o.b 0, d := 0 })

def delimiter : Nat := 0xC000

/-! ## Rules -/

/-- The `n` symbols of a body. -/
def gBody (o : GOp) (colbase base nsym limit : Nat) : Nat → Nat → Gm Unit
  | 0, _ => return ()
  | n + 1, pos => do
    let w ← gSym o base nsym pos
    gTerm o colbase w limit
    gBody o colbase base nsym limit n (pos + 2)

def gPutRule (o : GOp) (r : Nat) : Gm Unit := modify (fun g =>
  { g with depth := kput r (1 + g.d) g.depth,
           st := g.st.modCore o.core (fun co =>
             { co with rvf := (g.sums.zipIdx).foldl (fun m e => kset 0 (8 * r + e.2) (BitVec.ofInt 32 e.1) m) co.rvf,
                       rvfPoison := co.rvfPoison.filter (fun k => k / 8 != r) }) })

/-- Rules `r` to `r + n - 1`, the body of the first at `pos`; the end of the last. -/
def gRules (o : GOp) (colbase base nsym maxd : Nat) : Nat → Nat → Nat → Gm Nat
  | 0, _, pos => return pos
  | n + 1, r, pos => do
    modify (fun g => { g with rule := r })
    let d ← gBytes o (32 + 8 * r) 8
    let len := d / 2 ^ 32 % 256
    if d / 2 ^ 44 ≠ 0 ∨ len = 0 ∨ d % 2 ^ 32 ≠ pos then gCode 4
    else
      gClear o
      gBody o colbase base nsym r len pos
      let w ← gSym o base nsym (pos + 2 * len)
      if w ≠ delimiter then gCode 4
      else
        let g ← get
        if d / 2 ^ 40 % 16 ≠ 1 + g.d ∨ 1 + g.d > maxd then gCode 2
        else
          gPutRule o r
          gRules o colbase base nsym maxd n (r + 1) (pos + 4 * ((len + 2) / 2))

/-! ## Rows -/

/-- The symbols of a row up to its delimiter; a row that is done is only passed over. The place after it. -/
def gRow (o : GOp) (colbase base nsym nrule : Nat) (skip : Bool) : Nat → Nat → Gm Nat
  | 0, _ => gCode 4
  | f + 1, pos => do
    let w ← gSym o base nsym pos
    if w = delimiter then return pos + 2
    else
      if !skip then gTerm o colbase w nrule
      gRow o colbase base nsym nrule skip f (pos + 2)

/-- The results of row `n` are written. -/
def gPutRow (o : GOp) (n : Nat) : Gm Unit := do
  let g ← get
  let off := o.out + 4 * (n * o.b)
  if o.add && (g.st.scrPoisonAt o.core o.wg off (4 * o.b)).isSome then gCode 5
  else
    let old := g.st.scrRead o.core o.wg off (4 * o.b)
    let ys ← (g.sums.zipIdx).mapM (fun e =>
      gSat e.2 (e.1 + (if o.add then asInt true 32 (natOfBytes ((old.drop (4 * e.2)).take 4)) else 0)))
    let put (s : State) : State := (s.scrPut o.acc o.wg off (ys.flatMap (leInt 4))).bill o.acc.payer (.core o.core) 6
      (spanSectors off (4 * o.b)).length
    modify (fun g => { g with rows := n + 1, st := put g.st })

def gRows (o : GOp) (colbase base nsym nrule done : Nat) : Nat → Nat → Nat → Gm Nat
  | 0, _, pos => return pos
  | k + 1, n, pos => do
    gClear o
    let p ← gRow o colbase base nsym nrule (decide (n < done)) (nsym + 1) pos
    if n ≥ done then gPutRow o n
    gRows o colbase base nsym nrule done k (n + 1) p

/-! ## A start -/

/-- A start of the segment: header (R309), rules, rows from the first that is not done, the count of words. -/
def gSegment (o : GOp) (maxrow done : Nat) : Gm Unit := do
  let h ← gBytes o 0 32
  let nrule := h % 2 ^ 16
  let nrow := h / 2 ^ 16 % 2 ^ 16
  let maxd := h / 2 ^ 64 % 2 ^ 8
  let nsym := h / 2 ^ 96 % 2 ^ 32
  let colbase := h / 2 ^ 32 % 2 ^ 32
  if nrule > 4096 then gCode 3
  else if nrow > maxrow then gCode 4
  else if maxd > 15 then gCode 2
  else if h / 2 ^ 72 % 2 ^ 24 ≠ 0 ∨ h / 2 ^ 128 ≠ 0 then gCode 4
  else
    let base := 32 + 8 * nrule
    let p ← gRules o colbase base nsym maxd nrule 0 base
    modify (fun g => { g with rule := 0x1FFF })
    let e ← gRows o colbase base nsym nrule done nrow 0 p
    if (e - base) / 2 ≠ nsym then gCode 4 else return ()

/-- The status word (R312). -/
def gStatus (satcol : BitVec 8) (code rule rows : Nat) : Nat :=
  satcol.toNat * 2 ^ 40 + code * 2 ^ 32 + rule * 2 ^ 16 + rows

/-- The cause of a CODE (R299, R408). -/
def gCause (code : Nat) : Nat := if code = 5 then 0x12 else 0x17 + code

/-- A start of the segment, and its end: the Grainer reads 32 symbols in an ac, and the command completes or fails, its status word
written, once it has read them all (R7, R312, R345, R367). -/
def execGmvSegmentStart (core cmd : Nat) (s : State) : Out :=
  atUnit core cmd s (fun s a _ c => match c.op with
    | .gmv seg inp out stat ncol b s16 acc maxrow rows satcol =>
      match c.st with
      | .ending status fail sat =>
        let s := (s.scrPut a c.wg stat (bytesOfNat 8 status)).bill a.payer (.core core) 6 1
        match fail with
        | none => s.cmdDone core c sat none
        | some cause => s.cmdFail core c cause
      | _ =>
        let o : GOp := { core := core, wg := c.wg, acc := a, seg := seg.toNat, inp := inp, out := out, ncol := ncol, b := b,
                         esz := if s16 then 2 else 1, add := acc, early := c.early }
        let g0 : Gr := { st := s, pieces := [], ins := [], depth := [], rule := 0x1FFF, rows := rows, satcol := satcol,
                         sums := [], d := 0, syms := 0 }
        let r := (gSegment o maxrow rows) g0
        let g := r.2
        let s := (g.st.setOp core cmd (.gmv seg inp out stat ncol b s16 acc maxrow g.rows g.satcol)).modCore core (fun co =>
          { co with grainBusy := co.grainBusy + (g.syms + 31) / 32 })
        let ending (code : Nat) (fail : Option Nat) : State := s.modCore core (·.cmdMod cmd (fun c =>
          { c with st := .ending (gStatus g.satcol code g.rule g.rows) fail (g.satcol != 0) }))
        match r.1 with
        | .ok _ => ending 0 none
        | .error (.park cause va lv) => s.cmdPark core c (cause, va, lv) false
        | .error (.code n) => ending n (some (gCause n))
    | _ => s)

end Sys2Proof.Machine
end

