-- ==== Sys2Proof/Machine/Queue.lean ====
section
/-! DEFINITION. Group 0xD, the queue instructions (R393-R397), and what they share with the Bench: queue tables and headers
(R378, R379) and node descriptors (R389). -/

namespace Sys2Proof.Machine

open Sys2Proof

/-! ## Launch queues (R378, R379) -/

/-- LQCNT and the table's address. -/
def State.lqCount (s : State) (func : Nat) : Nat := min 64 ((s.sysreg 0x20 func).toNat % 128)
def State.lqTable (s : State) (func : Nat) : Nat := (s.sysreg 0x20 func).toNat % 2 ^ 52 / 4096 * 4096

/-- The header address that entry `q` of a function's table gives, if the entry is valid. -/
def State.lqHeader (s : State) (func q : Nat) : Option Nat :=
  if q ≥ s.lqCount func then none
  else match s.key (s.lqTable func + 8 * q) with
    | none => none
    | some k =>
      let e := s.peekNat k 8
      if e.testBit 0 && e / 2 % 32 == 0 && e / 2 ^ 52 == 0 then some (e / 64 * 64) else none

/-- A header's fields. -/
structure QHead where
  wr      : Nat
  rd      : Nat
  log2n   : Nat
  en      : Bool
  hold    : Bool
  state   : Nat
  ctx     : Nat
  quantum : Nat
  clean   : Bool           -- reserved bits are zero
  deriving DecidableEq, Repr

def QHead.ofNat (v : Nat) : QHead where
  wr := v % 2 ^ 64
  rd := v / 2 ^ 64 % 2 ^ 64
  log2n := min 16 (v / 2 ^ 128 % 2 ^ 8)
  en := v.testBit 136
  hold := v.testBit 137
  state := v / 2 ^ 144 % 2 ^ 8
  ctx := v / 2 ^ 160 % 2 ^ 12
  quantum := max 1 (v / 2 ^ 192 % 2 ^ 32)
  clean := v / 2 ^ 138 % 2 ^ 6 == 0 && v / 2 ^ 152 % 2 ^ 8 == 0 && v / 2 ^ 172 % 2 ^ 4 == 0 && v / 2 ^ 176 % 2 ^ 16 == 0 &&
    v / 2 ^ 224 % 2 ^ 32 == 0 && v / 2 ^ 320 == 0

/-- Records in the queue, N64. -/
def QHead.waiting (h : QHead) : Nat := (h.wr + 2 ^ 64 - h.rd) % 2 ^ 64

/-! ## Storage by key on a crew's behalf -/

/-- Bytes written at their home by a crew's instruction; the core's own copy is given up. -/
def State.putKey (s : State) (a : Acc) (k : Nat) (bs : List Byte) : State :=
  (s.engTake a (bytesAt k bs)).homeWrite a Attr.plain (bytesAt k bs) (fun _ => false)
def State.getKey (s : State) (a : Acc) (k n : Nat) : State × Nat :=
  let h := (s.syncOwn a k n).homeRead a Attr.plain k n
  (h.1, natOfBytes h.2.1)

/-! ## Node descriptors (R389) -/

structure NodeD where
  ring   : Nat
  wr     : Nat
  rd     : Nat
  alloc  : Nat
  rsv    : Nat
  log2c  : Nat
  recw   : Nat
  batch  : Nat
  flags  : Nat
  outs   : List Int        -- 4, in units of 64 bytes
  clean  : Bool
  deriving DecidableEq, Repr

def NodeD.ofNat (v : Nat) : NodeD where
  ring := v % 2 ^ 64
  wr := v / 2 ^ 64 % 2 ^ 64
  rd := v / 2 ^ 128 % 2 ^ 64
  alloc := v / 2 ^ 192 % 2 ^ 64
  rsv := v / 2 ^ 256 % 2 ^ 64
  log2c := v / 2 ^ 320 % 2 ^ 8
  recw := v / 2 ^ 328 % 2 ^ 8
  batch := v / 2 ^ 336 % 2 ^ 8
  flags := v / 2 ^ 344 % 2 ^ 8
  outs := (List.range 4).map (fun k => asInt true 16 (v / 2 ^ (384 + 16 * k)))
  clean := v / 2 ^ 352 % 2 ^ 32 == 0 && v / 2 ^ 448 == 0

/-- Records that DEQ or a dispatch can take. -/
def NodeD.ready (d : NodeD) : Nat := (d.wr + 2 ^ 64 - d.rd) % 2 ^ 64
/-- The VA of an output's descriptor; none for 0x8000. -/
def NodeD.out (d : NodeD) (va : Nat) (k : Nat) : Option Nat :=
  let o := d.outs.getD k (-32768)
  if o = -32768 then none else some (((va : Int) + 64 * o) % 2 ^ 64).toNat
/-- The VA of a slot. -/
def NodeD.slot (d : NodeD) (i : Nat) : Nat := (d.ring + 64 * (i % 2 ^ d.log2c)) % 2 ^ 64

/-- WR, RD, ALLOC and RSV as they stand in the descriptor's bytes 8 to 0x27. -/
def NodeD.counters (d : NodeD) : List Byte :=
  bytesOfNat 8 d.wr ++ bytesOfNat 8 d.rd ++ bytesOfNat 8 d.alloc ++ bytesOfNat 8 d.rsv

/-- A crew's reading of a descriptor at its home. -/
def State.nodeRead (s : State) (a : Acc) (va : Nat) : State × Except AccFail NodeD :=
  match s.readWord a va 64 with
  | (s, .ok v) => (s, .ok (NodeD.ofNat v))
  | (s, .error e) => (s, .error e)

/-- Check the slots of `m` records from `i` up, `n` bytes each. -/
def State.checkSlots (s : State) (a : Acc) (d : NodeD) (n : Nat) (write : Bool) : Nat → Nat → State × Except AccFail (List (List Part))
  | 0, _ => (s, .ok [])
  | m + 1, i =>
    match s.checkSpan a (d.slot i) n write (fun _ => false) with
    | (s, .error e) => (s, .error e)
    | (s, .ok ps) =>
      match s.checkSlots a d n write m (i + 1) with
      | (s, .error e) => (s, .error e)
      | (s, .ok l) => (s, .ok (ps :: l))

/-- An access failure of an instruction that acts whole. -/
def Cx.accFail (x : Cx) (s : State) (write : Bool) (dst : Dest) : AccFail → State
  | .park c va lv => x.park s x.mask (c, va, lv) write dst
  | .fault c v => x.raise s (x.memExc c v)

/-! ## ENQ, ENQR (R394) -/

def State.putRecords (s : State) (a : Acc) : List (List Part) → List (List Byte × Bool) → State
  | ps :: l, (bs, bad) :: t => (s.engWrite a bad ps bs).putRecords a l t
  | _, _ => s

/-- The effect on output `k`, for `m` records of `n` words; `data` gives a record's words and poison, and is read at the charge
`pay` once nothing is wrong. -/
def Cx.enqueue (x : Cx) (s : State) (n k m : Nat) (data : State → List (List Byte × Bool)) (pay : State → State := id) : State :=
  match x.wg.node with
  | none => x.badValue s
  | some va =>
    match s.nodeRead x.acc va.toNat with
    | (s, .error e) => x.accFail s false Dest.none e
    | (s, .ok own) =>
      match own.out va.toNat k with
      | none => x.badValue s
      | some tva =>
        match s.checkSpan x.acc tva 64 true (fun _ => false) with
        | (s, .error e) => x.accFail s true Dest.none e
        | (s, .ok tps) =>
          match s.nodeRead x.acc tva with
          | (s, .error e) => x.accFail s true Dest.none e
          | (s, .ok d) =>
            if n > d.recw then x.badValue s
            else if m > x.crew.outRes.getD k 0 then
              x.raise s (x.exc 0x0A (BitVec.ofNat 64 (k + 2 ^ 32 * m)) true)
            else match s.checkSlots x.acc d (4 * d.recw) true m d.alloc with
              | (s, .error e) => x.accFail s true Dest.none e
              | (s, .ok slots) =>
                let recs := (data s).map (fun r => (r.1 ++ List.replicate (4 * d.recw - r.1.length) (0 : Byte), r.2))
                let s := ((pay s).fenceRel x.acc .dev).putRecords x.acc slots recs
                let top := (d.alloc + m) % 2 ^ 64
                let d' := { d with alloc := top, rsv := (d.rsv + 2 ^ 64 - m) % 2 ^ 64, wr := if d.wr = d.alloc then top else d.wr }
                let s := match tps with
                  | p :: _ => s.engWrite x.acc false [{ p with va := p.va + 8, key := p.key + 8, n := 32 }] d'.counters
                  | [] => s
                (retireNone x s 0).modCrew x.key (fun cr => { cr with outRes := lmod cr.outRes k (· - m) })

def execEnq (h : Hdr) (n : BitVec 4) (k : BitVec 2) (va : Fin 192) (s : State) : Out :=
  withCx h s (fun x s => .next (
    let w := n.toNat + 1
    if !x.kernel.regOk w 1 (.v va) then x.badOperand s
    else if x.idle then retireIdle x s
    else x.enqueue s w k.toNat x.lanes.length (fun _ => x.lanes.map (fun t => (x.rdGroup t (.v va) (4 * w), false)))))

def execEnqr (h : Hdr) (n : BitVec 4) (k : BitVec 2) (ss cnt : Src) (s : State) : Out :=
  withCx h s (fun x s => .next (
    let w := n.toNat + 1
    if !(x.kernel.s1 ss && x.kernel.s1 cnt) then x.badOperand s
    else if x.idle then retireIdle x s
    else
      let off := (x.rd 0 ss).toNat
      let m := (x.rd 0 cnt).toNat
      if m = 0 then retireNone x s 0
      else if off % 4 ≠ 0 then x.badValue s
      else if off + 4 * w * m > x.kernel.alloc then x.raise s (x.exc 0x08 (BitVec.ofNat 64 off) true)
      else
        x.enqueue s w k.toNat m
          (fun s => (List.range m).map (fun i =>
            (s.scrRead x.key.core x.crew.wg (off + 4 * w * i) (4 * w),
             (s.scrPoisonAt x.key.core x.crew.wg (off + 4 * w * i) (4 * w)).isSome)))
          (fun s => s.bill x.acc.payer (.core x.key.core) 6 (spanSectors off (4 * w * m)).length)))

/-! ## DEQ (R395) -/

/-- The records of checked slots, or the first poison met. -/
def State.readRecords (s : State) (a : Acc) : List (List Part) → State × Except Nat (List (List Byte))
  | [] => (s, .ok [])
  | ps :: l =>
    match readParts (fun s p => s.readHome a p) ps s with
    | (s, .error v) => (s, .error v)
    | (s, .ok bs) =>
      match s.readRecords a l with
      | (s, .error v) => (s, .error v)
      | (s, .ok t) => (s, .ok (bs :: t))

def execDeq (h : Hdr) (n : BitVec 4) (pd : Fin 8) (vd : Fin 192) (s : State) : Out :=
  withCx h s (fun x s => .next (
    let w := n.toNat + 1
    let dst := (Dest.reg (.v vd) w).withPred (.p pd)
    if !x.kernel.regOk w 1 (.v vd) then x.badOperand s
    else if x.idle then retireIdle x s
    else match x.wg.node with
      | none => x.badValue s
      | some va =>
        match s.checkSpan x.acc va.toNat 64 true (fun _ => false) with
        | (s, .error e) => x.accFail s true dst e
        | (s, .ok dps) =>
          match s.nodeRead x.acc va.toNat with
          | (s, .error e) => x.accFail s true dst e
          | (s, .ok d) =>
            if w > d.recw then x.badValue s
            else
              let c := min x.lanes.length d.ready
              match s.checkSlots x.acc d (4 * w) false c d.rd with
              | (s, .error e) => x.accFail s false dst e
              | (s, .ok slots) =>
                let s := match dps with
                  | p :: _ => if c = 0 then s else
                      s.engWrite x.acc false [{ p with va := p.va + 8, key := p.key + 8, n := 32 }]
                        { d with rd := (d.rd + c) % 2 ^ 64 }.counters
                  | [] => s
                match s.readRecords x.acc slots with
                | (s, .error v) => x.raise s (x.memExc 0x12 v)
                | (s, .ok recs) =>
                  let ws := (x.lanes.zipIdx).flatMap (fun e => match recs[e.2]? with
                    | some bs => wrWords e.1 (.v vd) 0 (wordsOf (4 * w) (natOfBytes bs)) ++ wrPred e.1 (.p pd) true
                    | none => wrPred e.1 (.p pd) false)
                  retireMem x (if c = 0 then s else s.fenceAcq x.acc .dev) dst ws))

/-! ## LAUNCH (R396) -/

def execLaunch (h : Hdr) (d : Reg) (q : Src) (rc : Fin 31) (s : State) : Out :=
  withCx h s (fun x s => .next (
    if !(x.kernel.regOk 2 2 d && x.kernel.s1 q && x.kernel.spairOk (.pr rc)) then x.badOperand s
    else if x.idle then retireIdle x s
    else
      let sr := (x.rdPair (.pr rc)).toNat
      match (s.lqHeader x.wg.func (x.rd 0 q).toNat).bind (fun pa => (s.key pa).map (fun k => (pa, k))) with
      | none => x.badValue s
      | some (hpa, hk) =>
        let r := s.getKey x.acc hk 64
        let hd := QHead.ofNat r.2
        if hd.ctx ≠ x.wg.ctx ∨ sr % 64 ≠ 0 then x.badValue r.1
        else match (r.1.fenceRel x.acc .dev).checkSpan x.acc sr 64 false (fun _ => false) with
          | (s, .error e) => x.accFail s false (Dest.reg d 2) e
          | (s, .ok ps) =>
            match readParts (fun s p => s.readHome x.acc p) ps s with
            | (s, .error v) => x.raise s (x.memExc 0x12 v)
            | (s, .ok bs) =>
              let fin (s : State) (v : Nat) : State :=
                retireMem x s (Dest.reg d 2) (wrReg64 0 d (BitVec.ofNat 64 v))
              if !hd.en || hd.state == 3 || decide (hd.waiting ≥ 2 ^ hd.log2n) then fin s (2 ^ 64 - 1)
              else
                let s := match s.key (hpa + 64 + 64 * (hd.wr % 2 ^ hd.log2n)) with
                  | some k => s.putKey x.acc k bs
                  | none => s
                fin (s.putKey x.acc hk (bytesOfNat 8 ((hd.wr + 1) % 2 ^ 64))) hd.wr))

end Sys2Proof.Machine
end

