-- ==== Sys2Proof/Machine/System.lean ====
section
/-! DEFINITION. Group 0xE, the system instructions (R361-R363, R415-R420), and the taking of a debugger stop (R427-R430). -/

namespace Sys2Proof.Machine

open Sys2Proof

/-! ## Stops (R427-R430) -/

/-- DBGCTL of a context. -/
def State.attach (s : State) (ctx : Nat) : Bool := (s.sysreg 0x50 ctx).getLsbD 1
def State.haltin (s : State) (ctx : Nat) : Bool := (s.sysreg 0x50 ctx).getLsbD 2

/-- The crew slots of a sequencer. -/
def Core.slotsOf (co : Core) (q : Nat) : List Nat := (kkeys co.crews).filter (fun sl => seqOf sl == q)

/-- R430: a crew of the sequencer is in handler mode, and its context does not let stops in. -/
def State.stopHeld (s : State) (core q : Nat) : Bool :=
  ((s.core core).slotsOf q).any (fun sl => match s.crew? ⟨core, sl⟩ with
    | some cr => cr.hmode && !(match s.wg? core cr.wg with
        | some wg => s.haltin wg.ctx
        | none => false)
    | none => false)

/-- DSEQ after a stop (R428); a command that waited has taken effect. -/
def dseqStopped (old : W64) (reason slot bpix : Nat) : W64 :=
  (old &&& 0x3C) ||| BitVec.ofNat 64 (2 ^ 16 + slot % 16 * 2 ^ 12 + bpix % 8 * 2 ^ 9 + reason % 8 * 2 ^ 6)

/-- The stop is taken: every crew of the sequencer freezes, its fixed-latency writes landed (R76); the issue of a REGROUP before its
exchange is undone (R121, R153). -/
def State.stopTake (s : State) (core q reason slot bpix : Nat) : State :=
  (s.modCore core (fun co =>
    (co.modSeq q (fun x => { x with dseq := dseqStopped x.dseq reason slot bpix, held := none, stepping := none })))).modCore core (fun co =>
      { co with crews := kmap (fun sl cr => if seqOf sl = q then cr.landFixed.standRegroup else cr) co.crews }) |>.say (.stopped core q)

/-- A stop reaches a sequencer: taken, or held until the crew in handler mode returns. -/
def State.stopSeq (s : State) (core q reason slot bpix : Nat) : State :=
  if ((s.core core).seqs.getD q Seq.zero).dseq.getLsbD 16 then s
  else if s.stopHeld core q then s.modCore core (·.modSeq q (fun x => { x with held := x.held <|> some (reason, slot, bpix) }))
  else s.stopTake core q reason slot bpix

/-- A held stop is taken once nothing holds it. -/
def State.stopRetry (s : State) (core q : Nat) : State :=
  match ((s.core core).seqs.getD q Seq.zero).held with
  | some (r, sl, b) => if s.stopHeld core q then s else s.stopTake core q r sl b
  | none => s

/-! ## TRAP, RTE (R416, R417) -/

def execTrap (h : Hdr) (a : Src) (s : State) : Out :=
  withCx h s (fun x s => .next (
    if x.crew.hmode then x.illegal s
    else if !x.kernel.s1 a then x.badOperand s
    else if x.idle then retireIdle x s
    else raiseAt (retireNone x s 0) x.key
      { cause := 0x0B, eng := false, epc := x.next, earg := (x.rd 0 a).zeroExtend 64, ethr := x.crew.liveMask, toH := true }))

def execRte (h : Hdr) (s : State) : Out :=
  withCx h s (fun x s => .next (
    if !x.crew.hmode then x.illegal s
    else if x.idle then retireIdleCtl x s
    else
      let cr := ((x.flagUp x.crew Dest.none).leaveHandler).flagDown x.h.sf
      (if cr.votePending then x.voteNow s { cr with votePending := false } false Dest.none
       else (s.issueCost x 0).setCrew x.key { cr with pos := cr.epc, replay := none, bpSkip := false, fbuf := [] }).stopRetry
        x.key.core (seqOf x.key.slot)))

/-! ## MOVSR, SETSR (R406, R407, R418) -/

/-- A register that a crew in handler mode reads. -/
def Crew.sysGet (cr : Crew) (num : Nat) : Option W64 :=
  match num with
  | 0 => some cr.epc
  | 1 => some cr.ecause
  | 2 => some cr.earg
  | 3 => some cr.ethr
  | 4 | 5 | 6 | 7 => some (cr.esave.getD (num - 4) 0)
  | _ => none

/-- A write; to a read-only register it is ignored (R4). -/
def Crew.sysSet (cr : Crew) (num : Nat) (v : W64) : Crew :=
  match num with
  | 0 => { cr with epc := v }
  | 4 | 5 | 6 | 7 => { cr with esave := cr.esave.set (num - 4) v }
  | _ => cr

def execMovsr (h : Hdr) (num : BitVec 8) (d : Reg) (s : State) : Out :=
  withCx h s (fun x s => .next (
    if !x.kernel.regOk 2 2 d || decide (8 ≤ num.toNat) then x.badOperand s
    else if x.idle then retireIdle x s
    else match (if x.crew.hmode then x.crew.sysGet num.toNat else none) with
      | none => x.badValue s
      | some v => retireFixed x s 0 2 (Dest.reg d 2) (wrReg64 0 d v) 0 false))

def execSetsr (h : Hdr) (num : BitVec 8) (a : Src) (s : State) : Out :=
  withCx h s (fun x s => .next (
    match a with
    | .imm _ => x.badOperand s
    | .r _ =>
      if !x.kernel.srcOk 2 a || decide (8 ≤ num.toNat) then x.badOperand s
      else if x.idle then retireIdle x s
      else if !x.crew.hmode then x.badValue s
      else (retireNone x s 0).modCrew x.key (·.sysSet num.toNat (x.rd64 0 false a))))

/-! ## MREAD (R363) -/

/-- The account of a context with what the core's slots of it have not flushed. -/
def State.meterTotal (s : State) (core ctx : Nat) : Nat :=
  kget 0 ctx s.accounts +
    ((kvals (s.core core).wgs).map (fun w => if w.ctx = ctx then w.cum - w.flushed else 0)).foldl (· + ·) 0

/-- A variable-latency instruction whose issue has been charged. -/
def Cx.owePaid (x : Cx) (s : State) (dst : Dest) (ws : List RegWrite) : State :=
  s.modCrew x.key (fun cr => ((x.flagUp cr dst).owe x.h.sf none ws 0 false).advance x.next)

def execMread (h : Hdr) (md : MreadMode) (d : Reg) (s : State) : Out :=
  withCx h s (fun x s => .next (
    let ok := match md with
      | .ev c => x.kernel.r1 d && x.kernel.s1 c
      | _ => x.kernel.regOk 2 2 d
    if !ok then x.badOperand s
    else if x.idle then retireIdle x s
    else match md with
      | .tot =>
        let s := s.issueCost x 0
        x.owePaid s (Dest.reg d 2) (wrReg64 0 d (BitVec.ofNat 64 (s.meterTotal x.key.core x.wg.ctx)))
      | .wg =>
        let s := s.issueCost x 0
        let cum := match s.wg? x.key.core x.crew.wg with
          | some w => w.cum
          | none => 0
        x.owePaid s (Dest.reg d 2) (wrReg64 0 d (BitVec.ofNat 64 cum))
      | .ev c =>
        let n := (x.rd 0 c).toNat
        if n > 31 then x.badValue s
        else
          let s := s.issueCost x 0
          x.owePaid s (Dest.reg d 1) (wrReg 0 d (BitVec.ofNat 32 (s.energy (.core x.key.core) n)))))

/-! ## BKPT, HALT, TMARK (R419, R420) -/

def execBkpt (h : Hdr) (tag : BitVec 8) (s : State) : Out :=
  withCx h s (fun x s => .next (
    if x.idle then retireIdle x s
    else
      let s := retireNone x s 0
      if s.attach x.wg.ctx then s.stopSeq x.key.core (seqOf x.key.slot) 3 x.key.slot 0
      else if x.kernel.handler ≠ 0 ∧ !x.crew.hmode then
        raiseAt s x.key { cause := 0x0C, eng := false, epc := x.next, earg := tag.zeroExtend 64, ethr := x.mask, toH := true }
      else s))

def execHalt (h : Hdr) (s : State) : Out :=
  withCx h s (fun x s => .next (
    if x.idle then retireIdle x s
    else
      let s := retireNone x s 0
      if s.attach x.wg.ctx then
        (List.range 4).foldl (fun s q =>
          if x.wg.crews.any (fun sl => seqOf sl == q) then s.stopSeq x.key.core q 4 x.key.slot 0 else s) s
      else s))

/-- The marker: a trace record with its own PC, no thread, REFCLK as its base and the tag as its stride. -/
def markRec (pc : W64) (refclk : Nat) (tag : W32) : List Byte :=
  bytesOfNat 8 pc.toNat ++ bytesOfNat 8 0 ++ bytesOfNat 8 refclk ++ bytesOfNat 4 tag.toNat ++ bytesOfNat 2 0x1C7 ++
    bytesOfNat 2 0

def execTmark (h : Hdr) (a : Src) (s : State) : Out :=
  withCx h s (fun x s => .next (
    if !x.kernel.steppingOk then x.illegal s
    else if !x.kernel.s1 a then x.badOperand s
    else if x.idle then retireIdle x s
    else
      let s := retireNone x s 0
      if observes (s.sysreg 0x27 x.wg.func) x.wg.func x.wg.func x.wg.ctx x.wg.conf then
        s.profile x.wg.func 0x26 [markRec x.pc s.refclk (x.rd 0 a)]
      else s))

end Sys2Proof.Machine
end

