-- ==== Sys2Proof/Machine/Park.lean ====
section
/-! DEFINITION. What lands later and what is replayed: the completion of an instruction (R75, R77), the demand fetch (R436,
R437), fault queues and their records (R227, R411), replay (R228). -/

namespace Sys2Proof.Machine

open Sys2Proof

/-! ## INSTRUCTION_COMPLETION (R75, R77, R79) -/

/-- The reads of a load have been performed, and so have those of the same bytes by earlier loads (R243, R276). -/
def Crew.settleBefore (cr : Crew) (id : Nat) (o : Owed) : Crew :=
  match o.late with
  | none => cr
  | some l => { cr with owed := (settleLoads l.spans (cr.owed.takeWhile (fun p => p.id != id))).1 ++
                                  cr.owed.dropWhile (fun p => p.id != id) }

/-- The owed writes that land with `id`: a variable-latency instruction's alone, or a fixed-latency one's with every earlier
fixed-latency one. -/
def Crew.complete (cr : Crew) (id : Nat) : Crew :=
  match cr.owed.find? (fun o => o.id == id) with
  | none => cr
  | some o =>
    if o.due.isNone then (cr.settleBefore id o).landIf (fun p => p.id == id)
    else cr.landIf (fun p => p.due.isSome && decide (p.id ≤ id))

def execInstructionCompletion (key : CrewKey) (id : Nat) (s : State) : Out :=
  atCrew s key (fun cr _ => (s.setCrew key (cr.complete id)).undrain key)

/-! ## DEMAND_FETCH (R71, R436, R437) -/

/-- The threads in the state that a crew runs (R160), or in handler mode every thread that may take part (R413). -/
def Crew.present (cr : Crew) : Mask :=
  if cr.hmode then cr.liveMask else maskOf 64 (cr.live.filter (fun t => cr.inState (cr.thr t)))

def execDemandFetch (key : CrewKey) (s : State) : Out :=
  atCrew s key (fun cr wg =>
    if cr.park.isSome || cr.finished then s
    else match cr.fetchAt with
      | .need p =>
        match s.fetchLine (accOf key.core cr.wg wg) (p / 32 * 32) 32 with
        | (s, .ok bs) => s.modCrew key (fun cr => { cr with pos := BitVec.ofNat 64 p, fbuf := [(p / 32 * 32, bs)] })
        | (s, .error (.park c _ lv)) =>
          s.modCrew key (fun cr => { cr with
            pos := BitVec.ofNat 64 p,
            park := some { mask := cr.present, cause := c, va := BitVec.ofNat 64 p, write := false, fetch := true, level := lv,
                           at_ := s.refclk, handle := none, logged := false } })
        | (s, .error (.fault c v)) =>
          raiseAt (s.modCrew key (fun cr => { cr with pos := BitVec.ofNat 64 p })) key
            { cause := c, eng := false, epc := BitVec.ofNat 64 p, earg := BitVec.ofNat 64 v, ethr := cr.present,
              toH := wg.kernel.poison }
      | _ => s)

/-! ## Fault-queue records (R227, R411) -/

/-- The 64 bytes that memory-fault records and error records share. -/
structure FaultRec where
  cause  : Nat
  flags  : Nat
  core   : Nat
  sqslot : Nat             -- byte 0x06
  a      : Nat             -- 0x08
  pc     : Nat             -- 0x10
  b      : Nat             -- 0x18
  launch : Nat
  wgidx  : Nat
  ctx    : Nat
  level  : Nat
  c      : Nat             -- 0x30
  at_    : Nat
  deriving DecidableEq, Repr

def FaultRec.bytes (r : FaultRec) : List Byte :=
  bytesOfNat 2 r.cause ++ bytesOfNat 1 r.flags ++ bytesOfNat 1 0 ++ bytesOfNat 2 r.core ++ bytesOfNat 1 r.sqslot ++
    bytesOfNat 1 0 ++ bytesOfNat 8 r.a ++ bytesOfNat 8 r.pc ++ bytesOfNat 8 r.b ++ bytesOfNat 4 r.launch ++
    bytesOfNat 4 r.wgidx ++ bytesOfNat 2 r.ctx ++ bytesOfNat 1 r.level ++ bytesOfNat 5 0 ++ bytesOfNat 8 r.c ++
    bytesOfNat 8 r.at_

/-- R227: a confidential context's record keeps the cause, the flags with bit 4, CTX and, where it has one, the handle. -/
def FaultRec.redact (r : FaultRec) (handle : Bool) : FaultRec :=
  { cause := r.cause, flags := r.flags ||| 0x10, core := 0, sqslot := 0, a := 0, pc := 0, b := 0, launch := 0, wgidx := 0,
    ctx := r.ctx, level := 0, c := if handle then r.c else 0, at_ := 0 }

/-- Byte 0x06 of a crew slot. -/
def sqByte (slot : Nat) : Nat := slot / 16 + 4 * (slot % 16)

/-- The queue could not be read or written: logged once until a success. Nothing has been written to its header's line since. -/
def State.fqFail (s : State) (ctx fq : Nat) : State :=
  let t := { s with fqFailed := kput ctx false s.fqFailed }
  if (kfind ctx s.fqFailed).isSome then t
  else t.log { kind := 7, die := 0xFFFF, core := 0xFFFF, who := ctx, addr := fq, val := 0 }

inductive FqOut | written | full | failed
  deriving DecidableEq, Repr

/-- Write one record to a context's fault queue, with its index, or neither. A full ring counts the record once (`counted`: it
has been). -/
def State.fqWrite (s : State) (ctx : Nat) (rec_ : List Byte) (counted : Bool) : State × FqOut :=
  match s.ctxDesc ctx with
  | none => (s.fqFail ctx 0, .failed)
  | some d =>
    let fq := d.fq.toNat
    match s.benchRead ctx fq 64 with
    | (s, none) => (s.fqFail ctx fq, .failed)
    | (s, some b) =>
      let w := natOfBytes (b.take 8)
      let r := natOfBytes ((b.drop 8).take 8)
      let lg := min 16 (natOfBytes ((b.drop 16).take 1))
      if ringSlots w r lg 1 then
        match s.benchWrites ctx [(fq + 64 + 64 * (w % 2 ^ lg), rec_), (fq, bytesOfNat 8 (w + 1))] with
        | (t, some _) => ((s.keepHouse t).fqFail ctx fq, .failed)
        | (s, none) => ({ s with fqFailed := kdel ctx s.fqFailed }.msix d.func 0, .written)
      else if counted then (s, .full)
      else match s.benchWrite ctx (fq + 0x20) (bytesOfNat 8 (natOfBytes ((b.drop 0x20).take 8) + 1)) with
        | (s, true) => (s, .full)
        | (s, false) => (s.fqFail ctx fq, .failed)

/-- An error record, which waits where the queue does not take it. -/
def State.errorRecord (s : State) (r : FaultRec) (conf : Bool) : State :=
  let bs := (if conf then r.redact false else r).bytes
  match s.fqWrite r.ctx bs false with
  | (s, .written) => s
  | (s, o) => { s with fqPend := s.fqPend ++ [{ ctx := r.ctx, bytes := bs, counted := o == .full }] }

/-- The memory-fault record of a park. -/
def parkRecord (key : CrewKey) (wg : Wg) (p : Park) (pc : W64) (eng : Bool) (handle : Nat) : FaultRec :=
  { cause := p.cause,
    flags := 1 + (if p.write then 2 else 0) + (if p.fetch then 4 else 0) + (if eng then 8 else 0),
    core := key.core, sqslot := sqByte key.slot, a := p.va.toNat, pc := pc.toNat, b := p.mask.toNat, launch := wg.launch,
    wgidx := wg.wgidx, ctx := wg.ctx, level := p.level, c := handle, at_ := p.at_ }

/-- Whether a park waits for its record. -/
def Park.unwritten (p : Park) : Bool := p.handle.isNone
def Cmd.park? (c : Cmd) : Option Park := match c.st with
  | .parked p => some p
  | _ => none

/-- Try the record of a park: the park as it then stands. -/
def State.parkWrite (s : State) (key : CrewKey) (wg : Wg) (p : Park) (pc : W64) (eng : Bool) : State × Park :=
  let r := parkRecord key wg p pc eng s.nextHandle
  match s.fqWrite wg.ctx (if wg.conf then r.redact true else r).bytes p.logged with
  | (s, .written) => ({ s with nextHandle := s.nextHandle + 1 }, { p with handle := some s.nextHandle })
  | (s, .full) => (s, { p with logged := true })
  | (s, .failed) => (s, p)

/-- The next record that a crew's slot owes: the crew's own, an engine's where it is of a reload (R305; assumption 60), else that
of its oldest parked command. -/
def State.recordOne (s : State) (key : CrewKey) (cr : Crew) (wg : Wg) : State :=
  match cr.park.filter Park.unwritten with
  | some p =>
    let r := s.parkWrite key wg p cr.pos (!p.reload.isEmpty)
    r.1.modCrew key (fun cr => { cr with park := some r.2 })
  | none =>
    match (s.core key.core).cmds.find? (fun c => c.slot == key.slot && (c.park?.map Park.unwritten).getD false) with
    | none => s
    | some c =>
      match c.park? with
      | none => s
      | some p =>
        let r := s.parkWrite key wg p c.pc true
        r.1.modCore key.core (·.cmdMod c.id (fun c => { c with st := .parked r.2 }))

def execFaultRecordWrite (key : CrewKey) (s : State) : Out := atCrew s key (fun cr wg => s.recordOne key cr wg)

/-! ## FAULT_RECORD_RETRY (R227) -/

/-- Every crew, with its workgroup. -/
def State.allCrews (s : State) : List (CrewKey × Crew × Wg) :=
  s.cores.flatMap (fun c => c.2.crews.filterMap (fun e => (kfind e.2.wg c.2.wgs).map (fun w =>
    ({ core := c.1, slot := e.1 }, e.2, w))))

/-- Every unwritten record of a crew's slot is tried. -/
def State.recordAll (s : State) (key : CrewKey) : State :=
  (List.range ((s.core key.core).cmds.length + 1)).foldl (fun s _ => match s.crew? key with
    | some cr => match s.wg? key.core cr.wg with
      | some wg => s.recordOne key cr wg
      | none => s
    | none => s) s

/-- The error records of a context that wait, in order; those that are not taken wait on. -/
def State.retryPend (s : State) (ctx : Nat) : State :=
  s.fqPend.foldl (fun s r =>
    if r.ctx ≠ ctx then { s with fqPend := s.fqPend ++ [r] }
    else match s.fqWrite ctx r.bytes r.counted with
      | (s, .written) => s
      | (s, o) => { s with fqPend := s.fqPend ++ [{ r with counted := r.counted || o == .full }] }) { s with fqPend := [] }

def execFaultRecordRetry (ctx : Nat) (s : State) : Out :=
  .next (((s.allCrews.filter (fun e => e.2.2.ctx == ctx)).foldl (fun s e => s.recordAll e.1) s).retryPend ctx)

/-! ## Reloading the weights of a restored workgroup (R305) -/

/-- One row of a block reloads (R305), as if by CLD: false for a format failure. -/
def State.reloadRow (s : State) (a : Acc) (mac f : Nat) (rl : Reload) (b j : Nat) : State × Except AccFail Bool :=
  match s.cldRead a none rl.va rl.stride.toNat f (rl.row + j) with
  | (s, _, .error e) => (s, .error e)
  | (s, _, .ok none) => (s, .ok false)
  | (s, _, .ok (some (ts, bad))) =>
    ((s.modCore a.core (·.macMod mac (·.putRow (32 * b + j) ts bad))).bill a.payer (.core a.core) 14 1, .ok true)

def State.reloadRows (a : Acc) (mac f : Nat) (rl : Reload) (b : Nat) : Nat → Nat → State → State × Except AccFail Bool
  | 0, _, s => (s, .ok true)
  | n + 1, j, s =>
    match s.reloadRow a mac f rl b j with
    | (s, .ok true) => State.reloadRows a mac f rl b n (j + 1) s
    | r => r

/-- RESTORE_RELOAD: blocks in turn, by the numbers of the workgroup `w`; a translation or permission fault parks crew 0 with the rest, a format failure clears
the block and is delivered to crew 0. -/
def State.reload (a : Acc) (w : Nat) (k0 : CrewKey) : List (Nat × Nat) → State → State
  | [], s => s
  | (name, b) :: t, s =>
    let mac := s.macOf a.core w name
    let m := (s.core a.core).mac mac
    match kfind b m.reload, m.fmt with
    | some rl, some f =>
      match State.reloadRows a mac f rl b 32 0 s with
      | (s, .ok true) => State.reload a w k0 t s
      | (s, .ok false) =>
        State.reload a w k0 t ((s.modCore a.core (·.macMod mac (·.clearRows (32 * b) 32))).fail k0 { cause := 0x07, pc := rl.va, cmd := none })
      | (s, .error (.fault _ _)) =>
        State.reload a w k0 t (s.modCore a.core (·.macMod mac (fun m => (List.range 32).foldl (fun m j => m.putRow (32 * b + j) [] true) m)))
      | (s, .error (.park c va lv)) =>
        s.modCrew k0 (fun cr => { cr with park := some { mask := 0, cause := c, va := BitVec.ofNat 64 va, write := false, fetch := false,
                                                         level := lv, at_ := s.refclk, handle := none, logged := false,
                                                         reload := (name, b) :: t } })
    | _, _ => State.reload a w k0 t s

/-! ## REPLAY (R228, R298, R332) -/

def allOnes64 : Nat := 2 ^ 64 - 1
/-- Whether a handle taken from the replay word names a park. -/
def Park.named (p : Park) (h : Nat) : Bool := h == allOnes64 || p.handle == some h

/-- A parked crew goes on: a fetch is asked for again, a WAIT tests again, a reload goes on, an instruction is re-executed for its mask. -/
def State.unpark (s : State) (key : CrewKey) (cr : Crew) (wg : Wg) (p : Park) : State :=
  let s := s.setCrew key { cr with park := none, replay := match cr.block with
    | .none => if p.fetch || !p.reload.isEmpty then cr.replay else some p.mask
    | _ => none }
  if !p.reload.isEmpty then State.reload (accOf key.core cr.wg wg) cr.wg key p.reload s
  else match cr.block with
    | .wait w => s.waitAgain key { cr with park := none } wg w (fun _ => true)
    | _ => s

/-- The replay of a handle in a context. An aborted workgroup's handles are ignored (R435). -/
def State.replayHandle (s : State) (ctx h : Nat) : State :=
  let mine := s.allCrews.filter (fun e => e.2.2.ctx == ctx && e.2.2.abort.isNone)
  mine.foldl (fun s e =>
    let s := match e.2.1.park with
      | some p => if p.named h then s.unpark e.1 e.2.1 e.2.2 p else s
      | none => s
    s.modCore e.1.core (fun co => { co with cmds := co.cmds.map (fun c => match c.park? with
      | some p => if c.slot == e.1.slot && p.named h then { c with st := .ready, rd := none, wr := none, early := [] } else c
      | none => c) })) s

/-- The replay word of a context, where its fault queue can be read. -/
def State.replayRead (s : State) (ctx : Nat) : State × Option (Nat × Nat) :=
  match s.ctxDesc ctx with
  | none => (s, none)
  | some d => match s.benchRead ctx d.fq.toNat 64 with
    | (s, none) => (s, none)
    | (s, some b) => (s, some (d.fq.toNat, natOfBytes ((b.drop 0x18).take 8)))
def State.replayWord (s : State) (ctx : Nat) : Option (Nat × Nat) := (s.replayRead ctx).2

/-- The handle is taken: 0 is stored to the replay word, and the parks that it names are replayed. -/
def execReplay (ctx : Nat) (s : State) : Out :=
  .next (match s.replayRead ctx with
    | (s, none) => s
    | (s, some (fq, h)) =>
      if h = 0 then s
      else match s.benchWrite ctx (fq + 0x18) (bytesOfNat 8 0) with
        | (s, false) => s.fqFail ctx fq
        | (s, true) => s.replayHandle ctx h)

end Sys2Proof.Machine
end

