-- ==== Sys2Proof/Machine/Admit.lean ====
section
/-! DEFINITION. Launch queues: their watch (R380-R382), the hold (R387), the admission of launch records (R199-R202, R114,
R189-R193, R388, R389), and the completion of a launch (R20). -/

namespace Sys2Proof.Machine

open Sys2Proof

/-! ## Records, headers -/

/-- A launch record (R200). -/
structure LRec where
  entry   : Nat
  args    : Nat
  nwg     : Nat
  first   : Nat
  gtab    : Nat
  ngroups : Nat
  prio    : Nat
  flags   : Nat
  pmask   : Nat
  cword   : Nat
  qtag    : Nat
  deriving DecidableEq, Repr

def LRec.ofBytes (b : List Byte) : LRec :=
  let f (at_ n : Nat) := natOfBytes ((b.drop at_).take n)
  { entry := f 0 8, args := f 8 8, nwg := if f 0x10 4 = 0 then 2 ^ 32 else f 0x10 4, first := f 0x14 4, gtab := f 0x18 8,
    ngroups := f 0x20 2, prio := f 0x22 1, flags := f 0x23 1, pmask := f 0x24 4, cword := f 0x28 8, qtag := f 0x3C 4 }

def LRec.isLoad (r : LRec) : Bool := r.prio.testBit 7
def LRec.cls (r : LRec) : Nat := r.prio % 4
def LRec.coop (r : LRec) : Bool := r.flags.testBit 0
def LRec.node (r : LRec) : Bool := r.flags.testBit 2
def LRec.conf (r : LRec) : Bool := r.flags.testBit 3
def LRec.irq (r : LRec) : Bool := r.flags.testBit 4
def LRec.parts (r : LRec) : List Nat := (List.range 8).filter (fun p => r.pmask.testBit p)
/-- R22, R385: a gang names two partitions or more. -/
def LRec.gang (r : LRec) : Bool := r.flags.testBit 1 && decide (r.parts.length ≥ 2)

/-- The 64 header bytes as a number, with the region directory's place (R197). -/
structure KHead where
  kernel : Kernel
  mingen : Nat
  dirOff : Nat
  nreg   : Nat
  deriving DecidableEq, Repr

/-- R197, R199: a header within its limits. -/
def KHead.ofNat (entry : Nat) (v : Nat) : Option KHead :=
  let f (at_ n : Nat) := v / 2 ^ (8 * at_) % 2 ^ (8 * n)
  let vregs := f 8 1
  let sregs := f 9 1
  let crews := f 0xA 1
  let roles := f 0xB 1
  let scratch := f 0xC 4
  let stash := f 0x10 4
  let traps := f 0x14 4
  let handler := f 0x18 4
  let flags := f 0x22 2
  let keep := f 0x26 2
  let argsz := f 0x2C 4
  let life := f 0x30 4
  if f 0 4 = 0x484B575A ∧ f 4 2 = 2 ∧ 8 ≤ vregs ∧ vregs ≤ 192 ∧ vregs % 8 = 0 ∧ sregs ≤ 62 ∧ 1 ≤ crews ∧ crews ≤ 16 ∧
      (List.range 4).all (fun k => roles / 4 ^ k % 4 != 3) ∧ scratch + stash ≤ 262144 ∧ traps / 2 ^ 10 = 0 ∧
      handler % 32 = 0 ∧ flags / 16 = 0 ∧ keep ≤ vregs ∧ argsz % 4 = 0 ∧ argsz ≤ 4 * sregs ∧ life / 4 = 0 ∧
      f 0x38 8 = 0 then
    some {
      kernel := { entry := BitVec.ofNat 64 entry, vregs := vregs, sregs := sregs, crews := crews, roles := BitVec.ofNat 8 roles,
                  scratch := scratch, stash := stash, traps := BitVec.ofNat 32 traps, handler := BitVec.ofNat 32 handler,
                  flags := BitVec.ofNat 16 flags, maxrec := f 0x24 2, keep := keep, energy := f 0x28 4, argsz := argsz,
                  lifetime := BitVec.ofNat 32 life, stepping := BitVec.ofNat 32 (f 0x34 4) },
      mingen := f 6 2, dirOff := f 0x1C 4, nreg := f 0x20 2 }
  else none

/-! ## Bench reads that name their fault -/

/-- A Bench read through a context's translations: the bytes, or the address that failed (R114). -/
def State.benchTry (s : State) (ctx va n : Nat) : State × Except Nat (List Byte) :=
  let a := s.benchAcc ctx
  (piecesOf va n).foldl (fun (r : State × Except Nat (List Byte)) p =>
    match r.2 with
    | .error e => (r.1, .error e)
    | .ok bs =>
      let q := r.1.walk a p.1 false
      match rightsOf a false false q.2 with
      | .ok t =>
        match q.1.keyOf t p.1 with
        | none => (q.1, .error p.1)
        | some k =>
          let h := q.1.homeRead a (t.attr a) k p.2
          match firstBad p.1 k p.2 h.1.badSector with
          | some v => (h.1, .error v)
          | none => (h.1, .ok (bs ++ h.2.1))
      | _ => (q.1, .error p.1)) (s, .ok [])

/-! ## Where a kernel starts (R114) -/

/-- The slot of state 0 among the first `n` from `i`, if its body begins at the entry point. -/
def State.findZero (ctx : Nat) (r : Region) (entry : Nat) : Nat → Nat → State → State × Option StateD
  | 0, _, s => (s, none)
  | n + 1, i, s =>
    match s.benchRead ctx ((r.base + r.dirOff + 16 * i) % 2 ^ 64) 16 with
    | (s, none) => (s, none)
    | (s, some b) =>
      let d := StateD.ofNat i (natOfBytes b)
      if d.valid && d.sid == 0 then (s, if (r.base + d.bodyOff) % 2 ^ 64 = entry then some d else none)
      else State.findZero ctx r entry n (i + 1) s

/-- The region of `n` from `ri` whose state 0 begins at the entry point. -/
def State.findStart (ctx dir nreg entry : Nat) : Nat → Nat → State → State × Option Start
  | 0, _, s => (s, none)
  | n + 1, ri, s =>
    match s.benchRead ctx ((dir + 32 * ri) % 2 ^ 64) 32 with
    | (s, none) => (s, none)
    | (s, some b) =>
      let r := Region.ofNat (natOfBytes b)
      match State.findZero ctx r entry (2 ^ min 10 r.logdir) 0 s with
      | (s, some d) => (s, some { region := ri, block := (bitsOf d.set).headD 0, slot := d.slot, set := d.set, rdesc := r.raw,
                                  dir := BitVec.ofNat 64 dir, nreg := nreg })
      | (s, none) => State.findStart ctx dir nreg entry n (ri + 1) s

/-! ## Groups (R189-R193, R17) -/

/-- The groups that hold a global crew number, ascending. -/
def groupsOf (gs : KMap GroupE) (w : Nat) : List Nat := (gs.filter (fun e => e.2.members.contains w)).map Prod.fst

/-- R192: the members whose role, in the slot that holds the group, arrives. -/
def arrivers (k : Kernel) (gs : KMap GroupE) (g : Nat) (e : GroupE) : Nat :=
  (e.members.filter (fun w => decide (k.roles.toNat / 4 ^ ((groupsOf gs w).idxOf g) % 4 < 2))).length

def ascending : List Nat → Bool
  | a :: b :: t => decide (a < b) && ascending (b :: t)
  | _ => true

/-- An entry with its member words, if it passes R190, R191 and R193. -/
def groupOk (k : Kernel) (ncrew v : Nat) (ws : List Nat) : Option GroupE :=
  let sc := v / 2 ^ 80 % 8
  let bar := v.testBit 88
  let own := v.testBit 90
  let b := v % 2 ^ 64
  if v / 2 ^ 91 ≠ 0 ∨ v / 2 ^ 83 % 32 ≠ 0 ∨ sc = 0 ∨ sc = 7 ∨ ws = [] ∨ ws.length > 16384 ∨ !ascending ws ∨
      ws.any (fun w => decide (w ≥ ncrew)) ∨ (sc = 1 ∧ ws.length ≠ 1) ∨
      (sc = 2 ∧ ws.any (fun w => w / k.crews != ws.headD 0 / k.crews)) ∨ (own ∧ sc > 2) ∨
      (bar ∧ (b % 16 ≠ 0 ∨ (sc ≤ 2 ∧ (b / 2 ^ 18 ≠ 0 ∨ b + 16 > k.scratch)))) then none
  else some { barrier := BitVec.ofNat 64 b, count := ws.length, scope := sc, bar := bar, init := v.testBit 89, rsvown := own,
              members := ws }

def cutGroups (k : Kernel) (ncrew : Nat) : Nat → List Nat → List Nat → Option (KMap GroupE)
  | _, [], _ => some []
  | i, v :: vs, ws =>
    let n := v / 2 ^ 64 % 2 ^ 16
    match groupOk k ncrew v (ws.take n), cutGroups k ncrew (i + 1) vs (ws.drop n) with
    | some e, some t => some ((i, e) :: t)
    | _, _ => none

/-- Words of `n` bytes. -/
def wordsLe (n : Nat) (b : List Byte) : List Nat := (chunks n b.length b).map natOfBytes

/-- The global barrier objects are initialised, one by one (R192). -/
def State.initBars (ctx : Nat) (k : Kernel) (gs : KMap GroupE) : KMap GroupE → State → State × Bool
  | [], s => (s, true)
  | (g, e) :: t, s =>
    if e.bar && e.init && decide (e.scope ≥ 3) then
      match s.benchWrite ctx e.barrier.toNat (bytesOfNat 16 (arrivers k gs g e)) with
      | (s, false) => (s, false)
      | (s, true) => State.initBars ctx k gs t s
    else State.initBars ctx k gs t s

def State.readGroups (s : State) (ctx : Nat) (k : Kernel) (r : LRec) : State × Option (KMap GroupE) :=
  if r.ngroups = 0 then (s, some [])
  else if r.ngroups > 256 then (s, none)
  else match s.benchRead ctx r.gtab (16 * r.ngroups) with
    | (s, none) => (s, none)
    | (s, some b) =>
      let es := wordsLe 16 b
      let total := (es.map (fun v => v / 2 ^ 64 % 2 ^ 16)).foldl (· + ·) 0
      match s.benchRead ctx ((r.gtab + 16 * r.ngroups) % 2 ^ 64) (4 * total) with
      | (s, none) => (s, none)
      | (s, some b) =>
        match cutGroups k (r.nwg * k.crews) 0 es (wordsLe 4 b) with
        | none => (s, none)
        | some gs =>
          if (gs.flatMap (fun e => e.2.members)).any (fun w => decide ((groupsOf gs w).length > 4)) then (s, none)
          else match State.initBars ctx k gs gs s with
            | (s, true) => (s, some gs)
            | (s, false) => (s, none)

/-! ## What fits a core (R14) -/

def Kernel.perSeq (k : Kernel) (q : Nat) : Nat := (k.crews + 3 - q) / 4
/-- Bytes of V registers of a sequencer: 16 crews of 32 registers. -/
def vfile : Nat := 131072

/-- How many workgroups of a kernel an empty core holds. -/
def Kernel.perCore (k : Kernel) : Nat :=
  let n := k.perSeq 0
  let byV := min (16 / n) (vfile / (k.vregs * 256) / n)
  if k.alloc = 0 then byV else min byV (262144 / k.alloc)

/-- The cores in service of a partition, in ascending number (R26). -/
def State.coresOf (s : State) (p : Nat) : List Nat :=
  ((kget [] p s.parts).foldl (fun l c => sins c l) []).flatMap (fun c =>
    (List.range 8).filterMap (fun i => if (s.core (8 * c + i)).fenced then none else some (8 * c + i)))
def State.coresFor (s : State) (r : LRec) : List Nat := r.parts.flatMap s.coresOf

/-! ## The queue's state, hold and completion (R379, R387, R20) -/

def State.qstate (s : State) (func q : Nat) : QState :=
  (kfind (func * 64 + q) s.queues).getD { en := false, dc := 0, overrun := false, cleared := false, held := false, run := false, load := none }
def State.setQ (s : State) (func q : Nat) (x : QState) : State := { s with queues := kput (func * 64 + q) x s.queues }
def State.modQ (s : State) (func q : Nat) (f : QState → QState) : State := s.setQ func q (f (s.qstate func q))

def Launch.of (l : Launch) (func q : Nat) : Bool := l.func == func && l.queue == q
/-- The admitted launches of a queue, oldest first. -/
def State.launchesOf (s : State) (func q : Nat) : List Launch := (kvals s.launches).filter (fun l => l.of func q)

/-- STATE as it should read. -/
def State.queueStateByte (s : State) (func q : Nat) : Nat :=
  let x := s.qstate func q
  if x.overrun then 3 else if x.held then 2 else if x.run then 1 else 0
/-- A queue with no launch and no load record left is idle. -/
def State.queueIdle (s : State) (func q : Nat) : State :=
  s.modQ func q (fun x => { x with run := x.run && !((s.launchesOf func q).isEmpty && x.load.isNone) })

/-- STATE is written where it differs. -/
def State.putQueueState (s : State) (func q : Nat) : State :=
  match s.lqHeader func q with
  | none => s
  | some pa =>
    match s.key (pa + 0x12) with
    | none => s
    | some k => if s.peekNat k 1 = s.queueStateByte func q then s
                else s.physWrite (pa + 0x12) (bytesOfNat 1 (s.queueStateByte func q))

/-- FIRSTWG of each launch that has a workgroup left (R35), then DEFICIT (R387). -/
def State.holdNow (s : State) (func q : Nat) : State :=
  let s := (s.launchesOf func q).foldl (fun s l =>
    if l.next < l.nwg then s.physWrite (l.slotPa + 0x14) (bytesOfNat 4 l.next) else s) s
  let s := match s.lqHeader func q with
    | some pa => s.physWrite (pa + 0x20) (bytesOfNat 8 ((s.qstate func q).dc % 2 ^ 64).toNat)
    | none => s
  s.modQ func q (fun x => { x with held := true })

/-- Whether CTL.HOLD of a queue is set. -/
def State.queueHead (s : State) (func q : Nat) : Option QHead :=
  match (s.lqHeader func q).bind s.key with
  | some k => some (QHead.ofNat (s.peekNat k 64))
  | none => none
def State.queueHold (s : State) (func q : Nat) : Bool :=
  match s.queueHead func q with
  | some h => h.hold
  | none => false

/-- A launch whose dispatch HOLD does not stop any more (R387, R398): a gang that is reserving, or a cooperative launch that has
begun. -/
def Launch.committed (l : Launch) : Bool := match l.st with
  | .reserved _ _ => true
  | .running => l.closed
  | _ => false
/-- Nothing of a queue is resident, and nothing of it may still be dispatched under HOLD. -/
def State.queueQuiet (s : State) (func q : Nat) : Bool := (s.launchesOf func q).all (fun l => l.live == 0 && !l.committed)
/-- The hold takes effect once the queue is quiet; it ends when HOLD is cleared, and STATE returns to 1. -/
def State.holdCheck (s : State) (func q : Nat) : State :=
  let x := s.qstate func q
  if s.queueHold func q then
    if !x.held && s.queueQuiet func q then s.holdNow func q else s
  else if x.held then s.modQ func q (fun x => { x with held := false, run := true }) else s

/-- A dropped Bench write (R203). -/
def State.benchDrop (s : State) (ctx va : Nat) (bs : List Byte) : State :=
  match s.benchWrite ctx va bs with
  | (s, true) => s
  | (s, false) => s.log { kind := 7, die := 0xFFFF, core := 0xFFFF, who := ctx, addr := va, val := 0 }

/-- The end of a launch record (R20): energy, STATUS, the completion word, the vector. -/
def State.finishRec (s : State) (func q ctx slotPa : Nat) (r : LRec) (energy status : Nat) : State :=
  let s := (s.physWrite (slotPa + 0x30) (bytesOfNat 8 energy)).physWrite (slotPa + 0x38) (bytesOfNat 4 status)
  let s := if r.cword = 0 then s else s.benchDrop ctx r.cword (bytesOfNat 4 status ++ bytesOfNat 4 r.qtag)
  if r.irq then s.msix func (8 + q % 56) else s

/-- An admitted launch ends; its partitions open again. -/
def State.finishLaunch (s : State) (l : Launch) (status : Nat) : State :=
  let s := { s with launches := kdel l.id s.launches }
  let s := s.finishRec l.func l.queue l.ctx l.slotPa (LRec.ofBytes l.record) l.energy status
  ((s.queueIdle l.func l.queue).holdCheck l.func l.queue).putQueueState l.func l.queue

/-- Workgroups of a launch that are saved. -/
def State.savedOf (s : State) (id : Nat) : List (Nat × Saved) := s.saved.filter (fun e => e.2.wg.launch == id)

/-! ## The save pool and its dumps (R421, R425, R426, R431) -/

def zeros (n : Nat) : List Byte := List.replicate n 0

def units4k (n : Nat) : Nat := (n + 4095) / 4096
/-- The index blocks of the gangs that are being saved (R431). -/
def State.failingIndexes (s : State) (func : Nat) : List Nat :=
  (kvals s.launches).filterMap (fun l => match l.st with
    | .failing _ _ ix _ => if l.func == func then ix else none
    | _ => none)
/-- Runs of units taken in a function's pool, index blocks included, by first unit. -/
def State.poolRuns (s : State) (func : Nat) : List (Nat × Nat) :=
  let mine := (kvals s.saved).filter (fun v => v.func == func)
  let idx := (mine.filterMap Saved.index ++ s.failingIndexes func).foldl (fun l x => sins x l) []
  (mine.map (fun (v : Saved) => (v.off / 4096, units4k v.size)) ++ idx.map (fun x => (x / 4096, 1))).mergeSort (fun a b => decide (a.1 ≤ b.1))

/-- First fit: the offset of `n` bytes. -/
def State.poolFit (s : State) (func n : Nat) : Option Nat :=
  let at_ := (s.poolRuns func).foldl (fun at_ r => if at_ + units4k n ≤ r.1 then at_ else max at_ (r.1 + r.2)) 0
  if (at_ + units4k n) * 4096 ≤ (s.sysreg 0x23 func).toNat then some (at_ * 4096) else none
def State.poolPa (s : State) (func off : Nat) : Nat := (s.sysreg 0x22 func).toNat + off

/-- The 4 KiB index block of a dump (R425). -/
def indexBlock (ctx refclk cause : Nat) (conf : Bool) (base : Nat) (imgs : List (Nat × Nat)) : List Byte :=
  let b := bytesOfNat 4 0x5844575A ++ bytesOfNat 2 1 ++ bytesOfNat 2 (if conf then 1 else 0) ++ bytesOfNat 2 (min 250 imgs.length) ++
    bytesOfNat 2 ctx ++ zeros 4 ++ bytesOfNat 8 refclk ++ bytesOfNat 8 cause ++ (Config.partId ++ zeros 16).take 16 ++ zeros 16 ++
    (imgs.take 250).flatMap (fun e => bytesOfNat 8 (e.1 + 2 ^ 64 - base) ++ bytesOfNat 8 e.2)
  b ++ zeros (4096 - b.length)

/-- The key of a context, as the crypto engine knows it beside the functions' keys (R183, R426). -/
def ctxKey (ctx : Nat) : Nat := 64 + ctx

/-- Bytes filled up to a whole unit of 4 KiB. -/
def fillUnits (b : List Byte) : List Byte := b ++ zeros (4096 * units4k b.length - b.length)

/-- AES-256-XTS of a dump's bytes under a context's key, unit by unit of 4 KiB from `unit` (R426). -/
def hideUnits (ctx : Nat) : Nat → List (List Byte) → List Byte
  | _, [] => []
  | u, b :: t => Config.xts (ctxKey ctx) u b ++ hideUnits ctx (u + 1) t
def showUnits (ctx : Nat) : Nat → List (List Byte) → List Byte
  | _, [] => []
  | u, b :: t => Config.unxts (ctxKey ctx) u b ++ showUnits ctx (u + 1) t
def hideBytes (ctx u : Nat) (b : List Byte) : List Byte := hideUnits ctx u (chunks 4096 b.length (fillUnits b))

/-- The index block of a confidential context keeps its magic, version, flags, N and sizes clear (R426). -/
def hideIndex (ctx : Nat) (b : List Byte) : List Byte :=
  let h := hideUnits ctx 0 [b]
  (List.range 4096).map (fun i =>
    if i < 0x0A ∨ (0x40 ≤ i ∧ i < 0x40 + 16 * 250 ∧ i % 16 ≥ 8) then b.getD i 0 else h.getD i 0)

/-- The first unit of an image, counted from its index block; an image under none stands as right behind one (R426). -/
def imageUnit (off : Nat) (index : Option Nat) : Nat := match index with
  | some i => (off + 2 ^ 64 - i) % 2 ^ 64 / 4096
  | none => 1

/-- The end of a gang's failure: every member has been saved or is lost. The images stand under one index block, the launch ends
FAILED with the energy of its members, and an error record names the core, the part and the block (R351, R431). -/
def State.gangEnd (s : State) (l : Launch) (core part : Nat) (index : Option Nat) (since : Nat) : State :=
  let mine := (s.savedOf l.id).map Prod.snd
  let pa := s.poolPa l.func (index.getD 0)
  let b := indexBlock l.ctx since 2 l.conf (index.getD 0) (mine.map (fun v => (v.off, v.size)))
  let s := match index with
    | some _ => s.physWrite pa (if l.conf then hideIndex l.ctx b else b)
    | none => { s with saved := s.saved.filter (fun e => e.2.wg.launch != l.id) }
  -- what has ended since a part was saved stands in the launch that a restart re-admits (R351)
  let s := { s with saved := kmap (fun _ v => if v.wg.launch = l.id then { v with launch := l } else v) s.saved }
  let s := s.errorRecord { cause := 0x21, flags := 0, core := core, sqslot := 0, a := core, pc := 0, b := part, launch := l.id,
                           wgidx := 0, ctx := l.ctx, level := 0, c := pa, at_ := s.refclk } l.conf
  (s.finishLaunch { l with energy := l.energy + (mine.map (fun v => v.wg.cum)).foldl (· + ·) 0 } 5).msix 0 6

/-- A launch with nothing left, resident or saved, is complete (R20, R35, R376). A node completes by R392. -/
def State.launchCheck (s : State) (id : Nat) : State :=
  match kfind id s.launches with
  | none => s
  | some l => match l.st with
    | .failing core part index since => if l.live = 0 then s.gangEnd l core part index since else s
    | _ =>
      if l.node.isNone && decide (l.next ≥ l.nwg) && l.live == 0 && (s.savedOf id).isEmpty then
        s.finishLaunch l (if l.aborted then 6 else 1)
      else s

/-! ## Admission (R202) -/

/-- R379, R181: what makes every record of a queue end with BADREC. -/
def State.queueBad (s : State) (func : Nat) (h : QHead) : Bool :=
  !h.clean || (match s.ctxDesc h.ctx with
    | some d => !d.valid || !d.clean || d.func != func
    | none => true)

def State.funcMask (s : State) (func : Nat) : BitVec 8 := (kfind func s.funcParts).getD 0xFF

/-- R388, R389: a node record's own conditions. -/
def State.nodeBad (s : State) (ctx : Nat) (r : LRec) : State × Bool :=
  if r.ngroups ≠ 0 ∨ r.gtab % 64 ≠ 0 then (s, true)
  else match s.benchRead ctx r.gtab 64 with
    | (s, none) => (s, true)
    | (s, some b) =>
      let d := NodeD.ofNat (natOfBytes b)
      (s, !(d.clean && d.ring % 64 == 0 && decide (d.log2c ≤ 20) && decide (1 ≤ d.recw ∧ d.recw ≤ 16) &&
            decide (1 ≤ d.batch ∧ d.batch ≤ 64) && d.wr == d.alloc && decide (d.rd ≤ d.wr) &&
            decide (d.wr - d.rd ≤ 2 ^ d.log2c) && d.rsv == 0))

/-- Step 1: BADREC. -/
def State.recBad (s : State) (func ctx : Nat) (bad : Bool) (r : LRec) : State × Bool :=
  if bad || r.prio / 4 % 32 != 0 || r.flags / 32 != 0 || r.pmask / 256 != 0 ||
      BitVec.ofNat 8 r.pmask &&& ~~~(s.funcMask func) != 0 then (s, true)
  else if r.node then s.nodeBad ctx r else (s, false)

/-- Step 2: the header at entry - 64, and where its crews start. A generation above 2, no region or more than 512, and no state 0
at the entry leave no valid header either (assumption 75). -/
def State.readKernel (s : State) (ctx : Nat) (r : LRec) : State × Option (KHead × Start) :=
  if r.entry % 64 ≠ 0 ∨ r.entry < 64 then (s, none)
  else match s.benchRead ctx (r.entry - 64) 64 with
    | (s, none) => (s, none)
    | (s, some b) =>
      match KHead.ofNat r.entry (natOfBytes b) with
      | none => (s, none)
      | some h =>
        if h.mingen > 2 ∨ h.nreg = 0 ∨ h.nreg > 512 then (s, none)
        else match State.findStart ctx ((r.entry - 64 + h.dirOff) % 2 ^ 64) h.nreg r.entry h.nreg 0 s with
          | (s, some st) => (s, some (h, st))
          | (s, none) => (s, none)

/-- The checks in the order of R202: a status, or what the launch holds. NWG = 0, which stands for 2^32, ends a gang UNFIT
(R385). -/
def State.admitChecks (s : State) (func ctx id : Nat) (conf bad : Bool) (r : LRec) :
    State × Except Nat (Kernel × Start × KMap GroupE × List W32) :=
  match s.recBad func ctx bad r with
  | (s, true) => (s, .error 9)
  | (s, false) =>
    match s.readKernel ctx r with
    | (s, none) => (s, .error 7)
    | (s, some (h, st)) =>
      let k := h.kernel
      if r.node && (!k.isNode || k.keep > (NodeD.ofNat (natOfBytes ((s.benchRead ctx r.gtab 64).2.getD []))).recw) then
        (s, .error 9)
      else if r.conf && !k.confOk then (s, .error 8)
      else match (if r.node then (s, some []) else s.readGroups ctx k r) with
        | (s, none) => (s, .error 3)
        | (s, some gs) =>
          match s.benchTry ctx r.args k.argsz with
          | (s, .error va) =>
            (s.errorRecord { cause := 0x24, flags := 0, core := 0, sqslot := 0, a := va, pc := 0, b := 0, launch := id,
                             wgidx := 0, ctx := ctx, level := 0, c := 0, at_ := s.refclk } conf, .error 4)
          | (s, .ok b) =>
            if k.perCore = 0 ∨ (s.coresFor r).isEmpty ∨ (r.gang ∧ r.nwg = 2 ^ 32) then (s, .error 2)
            else (s, .ok (k, st, gs, (wordsLe 4 b).map (BitVec.ofNat 32)))

/-- The next launch number whose 32 bits no launch, admitted or saved, has (R117). -/
def State.freeLaunch (s : State) : Nat → Nat → Nat
  | 0, id => id
  | n + 1, id =>
    if s.launches.any (fun e => e.1 % 2 ^ 32 == id % 2 ^ 32) || s.saved.any (fun e => e.2.wg.launch % 2 ^ 32 == id % 2 ^ 32) then
      s.freeLaunch n (id + 1)
    else id

/-- Admit a launch record. -/
def State.admitRecord (s : State) (func q ctx slotPa : Nat) (bad : Bool) (rec_ : List Byte) : State :=
  let r := LRec.ofBytes rec_
  let id := s.freeLaunch (s.launches.length + s.saved.length) s.nextLaunch
  let conf := match s.ctxDesc ctx with
    | some d => d.conf
    | none => false
  match { s with nextLaunch := id + 1 }.admitChecks func ctx id conf bad r with
  | (s, .error st) => s.finishRec func q ctx slotPa r 0 st
  | (s, .ok (k, st, gs, args)) =>
    let l : Launch :=
      { id := id, func := func, queue := q, slotPa := slotPa, ctx := ctx, conf := conf, record := rec_, kernel := k,
        args := args, groups := gs, next := if r.node then 0 else r.first, nwg := if r.node then 0 else r.nwg, live := 0,
        energy := 0, retired := 0, start := st, prep := none, coop := r.coop || k.coop, gang := r.gang,
        node := if r.node then some (BitVec.ofNat 64 r.gtab) else none,
        st := if r.coop || k.coop || r.gang then .waiting else .running, aborted := false, closed := false,
        retryAt := 0 }
    ({ s with launches := kput id l s.launches }.modQ func q (fun x => { x with run := true })).launchCheck id

/-! ## Load records as they are taken (R204) -/

/-- A load record whose own fields are not legal ends with BADREC. -/
def loadBad (rec_ : List Byte) : Bool :=
  let f (at_ n : Nat) := natOfBytes ((rec_.drop at_).take n)
  f 0x20 8 != 0x800000 || f 0x30 8 != 0 || f 0x28 8 % 8 != 0 || f 0x18 8 % 4096 != 0

/-! ## The watch (R380-R382) -/

/-- Take one record. -/
def State.takeOne (s : State) (func q pa : Nat) (h : QHead) (rd : Nat) : State :=
  let slotPa := pa + 64 + 64 * (rd % 2 ^ h.log2n)
  match s.physRead slotPa 64 with
  | (s, none) => s
  | (s, some (rec_, _)) =>
    let s := s.physWrite (pa + 8) (bytesOfNat 8 (rd + 1))
    let bad := s.queueBad func h
    if (LRec.ofBytes rec_).isLoad then
      if bad || loadBad rec_ then s.physWrite (slotPa + 0x38) (bytesOfNat 4 9)
      else s.modQ func q (fun x => { x with load := some (slotPa, rec_), run := true })
    else s.admitRecord func q h.ctx slotPa bad rec_

/-- Records are taken while an entry is free and no load record waits. -/
def State.takeMany (func q pa : Nat) (h : QHead) : Nat → Nat → State → State
  | 0, _, s => s
  | n + 1, rd, s =>
    if s.launches.length ≥ 256 || (s.qstate func q).load.isSome then s
    else State.takeMany func q pa h n (rd + 1) (s.takeOne func q pa h rd)

/-- What the header's EN does to the queue: DC is 0 when EN goes to 1, and an overrun is left where EN is set again, after it was
cleared, on a WR that is right; STATE is 0 then (R376, R381). -/
def QState.seen (x : QState) (h : QHead) : QState :=
  let x := if h.en && !x.en then { x with dc := 0 } else x
  let x := if x.overrun then
      if !h.en then { x with cleared := true }
      else if x.cleared && decide (h.waiting ≤ 2 ^ h.log2n) then { x with overrun := false, cleared := false, run := false }
      else { x with cleared := false }
    else x
  { x with en := h.en }

def State.overrunNow (s : State) (func q pa : Nat) (h : QHead) : State :=
  let s := (s.modQ func q (fun x => { x with overrun := true, cleared := false })).putQueueState func q
  let conf := match s.ctxDesc h.ctx with
    | some d => d.conf
    | none => false
  (s.errorRecord { cause := 0x20, flags := 0, core := 0, sqslot := 0, a := pa, pc := 0, b := h.wr, launch := 0, wgidx := 0,
                   ctx := h.ctx, level := 0, c := h.rd, at_ := s.refclk } conf).msix func 1

def State.watchQueue (s : State) (func q pa : Nat) : State :=
  match s.physRead pa 64 with
  | (s, none) => s
  | (s, some (b, _)) =>
    let h := QHead.ofNat (natOfBytes b)
    let s := (s.modQ func q (fun x => x.seen h)).holdCheck func q
    let s :=
      if !h.en || (s.qstate func q).overrun || h.waiting = 0 then s
      else if h.waiting > 2 ^ h.log2n then s.overrunNow func q pa h
      else if h.hold then s
      else State.takeMany func q pa h h.waiting h.rd s
    s.putQueueState func q

/-- A context that a record names has been created before its record is taken. -/
def execLaunchQueueWatch (func q : Nat) (s : State) : Out :=
  .next (match s.lqHeader func q with
    | none => s
    | some pa => s.watchContexts.watchQueue func q pa)

end Sys2Proof.Machine
end

