-- ==== Sys2Proof/Machine/Cross.lean ====
section
/-! DEFINITION. Group 0x6 but for REGROUP, the cross-lane instructions (R146-R150). -/

namespace Sys2Proof

def SegW.width : SegW → Nat
  | .w64 => 64
  | .w32 => 32
  | .w16 => 16
  | .w8 => 8
  | .w4 => 4
  | .w2 => 2

def ScanTy.wide : ScanTy → Bool
  | .s64 | .n64 => true
  | _ => false
def ScanTy.signed : ScanTy → Bool
  | .s32 | .s64 => true
  | _ => false
def ScanTy.width : ScanTy → Nat
  | .s64 | .n64 => 64
  | _ => 32

end Sys2Proof

namespace Sys2Proof.Machine

open Sys2Proof

/-- A lane read: thread `t` gets A of the thread `src w t b` (R147). -/
def laneRead (h : Hdr) (wide : Bool) (sw : SegW) (d : Reg) (a b : Src) (src : Nat → Nat → Nat → Nat) (s : State) : Out :=
  compute h s (fun k => k.rw wide d && k.sw wide a && k.s1 b) 3 (some 7) (Dest.reg d (if wide then 2 else 1))
    (fun x => x.loopW (fun t =>
      let j := src sw.width t (x.rd t b).toNat
      if wide then wrReg64 t d (x.rd64 j false a) else wrReg t d (x.rd j a)))

/-- base(t) (R146). -/
def segBase (w t : Nat) : Nat := t - t % w

def getiSrc (w t b : Nat) : Nat := segBase w t + b % w
def getbSrc (wrap : Bool) (w t b : Nat) : Nat :=
  if wrap then segBase w t + (t % w + w - b % w) % w
  else if b ≥ w ∨ b > t % w then t else t - b
def getaSrc (wrap : Bool) (w t b : Nat) : Nat :=
  if wrap then segBase w t + (t % w + b) % w
  else if b ≥ w ∨ t % w + b ≥ w then t else t + b
def getxSrc (w t b : Nat) : Nat := segBase w t + (t % w ^^^ b % w)

def execGeti (h : Hdr) (wide : Bool) (sw : SegW) (d : Reg) (a b : Src) (s : State) : Out :=
  laneRead h wide sw d a b getiSrc s
def execGetb (h : Hdr) (wide wrap : Bool) (sw : SegW) (d : Reg) (a b : Src) (s : State) : Out :=
  laneRead h wide sw d a b (getbSrc wrap) s
def execGeta (h : Hdr) (wide wrap : Bool) (sw : SegW) (d : Reg) (a b : Src) (s : State) : Out :=
  laneRead h wide sw d a b (getaSrc wrap) s
def execGetx (h : Hdr) (wide : Bool) (sw : SegW) (d : Reg) (a b : Src) (s : State) : Out :=
  laneRead h wide sw d a b getxSrc s

/-- PANY and PALL: over the threads of T in t's segment (R148). -/
def segPred (h : Hdr) (sw : SegW) (pd pa : Pred) (f : List Bool → Bool) (s : State) : Out :=
  compute h s (fun _ => true) 3 (some 7) (predDest pd)
    (fun x => x.loopW (fun t =>
      wrPred t pd (f ((x.lanes.filter (fun j => segBase sw.width j == segBase sw.width t)).map (fun j => x.pred j pa)))))

def execPany (h : Hdr) (sw : SegW) (pd pa : Pred) (s : State) : Out := segPred h sw pd pa (fun l => l.any id) s
def execPall (h : Hdr) (sw : SegW) (pd pa : Pred) (s : State) : Out := segPred h sw pd pa (fun l => l.all id) s

def execPmask (h : Hdr) (cnt : Bool) (d : Reg) (pa : Pred) (s : State) : Out :=
  compute h s (fun k => k.rw (!cnt) d) 3 (some 7) (Dest.reg d (if cnt then 1 else 2))
    (fun x =>
      let l := x.lanes.filter (fun j => x.pred j pa)
      x.loopW (fun t => if cnt then wrReg t d (BitVec.ofNat 32 l.length) else wrReg64 t d (maskOf 64 l)))

/-- Equality of A by its bits (R148). -/
def Cx.sameA (x : Cx) (wide : Bool) (a : Src) (t j : Nat) : Bool :=
  if wide then x.rd64 t false a == x.rd64 j false a else x.rd t a == x.rd j a

def execPeers (h : Hdr) (wide : Bool) (d : PeersDst) (a : Src) (s : State) : Out :=
  match d with
  | .mask d => compute h s (fun k => k.rw true d && k.sw wide a) 3 none (Dest.reg d 2)
      (fun x => x.loopW (fun t => wrReg64 t d (maskOf 64 (x.lanes.filter (fun j => x.sameA wide a t j)))))
  | .all pd => compute h s (fun k => k.sw wide a) 3 none (predDest pd)
      (fun x => x.loopW (fun t => wrPred t pd (x.lanes.all (fun j => x.sameA wide a t j))))

def execLead (h : Hdr) (last : Bool) (pd : Pred) (s : State) : Out :=
  compute h s (fun _ => true) 3 (some 7) (predDest pd)
    (fun x => x.loopW (fun t => wrPred t pd (some t == (if last then x.lanes.getLast? else x.lanes.head?))))

/-! ## SCAN and VRED (R149) -/

/-- Identity(op, type), as bits. -/
def scanId (ty : ScanTy) (op : ScanOp) : Nat :=
  let w := ty.width
  match op with
  | .add => if ty = .f32 then 0x80000000 else 0
  | .min => if ty = .f32 then 0x7F800000 else truncW w (intHi ty.signed w)
  | .max => if ty = .f32 then 0xFF800000 else truncW w (intLo ty.signed w)
  | .and => 2 ^ w - 1
  | .or | .xor => 0

/-- Combine(acc, a), with its exceptions and clamp. -/
def scanStep (ftz : Bool) (ty : ScanTy) (op : ScanOp) (sat : Bool) (acc a : Nat) : Nat × Fps × Bool :=
  let w := ty.width
  if ty = .f32 then
    let r := match op with
      | .add => add32 ftz acc a
      | .min => fMinMax fF32 false acc a
      | _ => fMinMax fF32 true acc a
    (r.code, r.fps, false)
  else
    let i := asInt ty.signed w acc
    let j := asInt ty.signed w a
    match op with
    | .add => if sat then let r := satTy ty.signed w (i + j); (truncW w r.1, 0, r.2) else (truncW w (i + j), 0, false)
    | .min => (truncW w (min i j), 0, false)
    | .max => (truncW w (max i j), 0, false)
    | .and => (acc &&& a, 0, false)
    | .or => (acc ||| a, 0, false)
    | .xor => (acc ^^^ a, 0, false)

/-- The accumulator before and after each thread, in thread order. -/
def scanRun (f : Nat → Nat → Nat × Fps × Bool) (val : Nat → Nat) :
    Nat → List Nat → List (Nat × Nat × Nat × Fps × Bool)
  | _, [] => []
  | acc, t :: ts => let r := f acc (val t); (t, acc, r.1, r.2.1, r.2.2) :: scanRun f val r.1 ts

def Cx.rdScan (x : Cx) (ty : ScanTy) (t : Nat) (a : Src) : Nat :=
  if ty.wide then (x.rd64 t ty.signed a).toNat else (x.rd t a).toNat
def wrScan (ty : ScanTy) (t : Nat) (d : Reg) (v : Nat) : List RegWrite :=
  if ty.wide then wrReg64 t d (BitVec.ofNat 64 v) else wrReg t d (BitVec.ofNat 32 v)

/-- SCAN, and VRED, which gives every thread the last accumulator. -/
def scanOp (h : Hdr) (ty : ScanTy) (op : ScanOp) (sat : Bool) (d : Reg) (a : Src)
    (out : Nat → Nat × Nat × Nat × Fps × Bool → Nat) (s : State) : Out :=
  compute h s (fun k => k.rw ty.wide d && k.sw ty.wide a) 3 none (Dest.reg d (if ty.wide then 2 else 1))
    (fun x =>
      let l := scanRun (scanStep x.kernel.ftz ty op sat) (fun t => x.rdScan ty t a) (scanId ty op) x.lanes
      let final := (l.getLast?.map (fun r => r.2.2.1)).getD (scanId ty op)
      .done (l.flatMap (fun r => wrScan ty r.1 d (out final r))) (l.foldl (fun a r => a ||| r.2.2.2.1) 0)
        (l.any (fun r => r.2.2.2.2)))

def execScan (h : Hdr) (ty : ScanTy) (op : ScanOp) (excl sat : Bool) (d : Reg) (a : Src) (s : State) : Out :=
  scanOp h ty op sat d a (fun _ r => if excl then r.2.1 else r.2.2.1) s
def execVred (h : Hdr) (ty : ScanTy) (op : ScanOp) (sat : Bool) (d : Reg) (a : Src) (s : State) : Out :=
  scanOp h ty op sat d a (fun final _ => final) s

end Sys2Proof.Machine
end

