-- ==== Sys2Proof/Machine/Rewrite.lean ====
section
/-! DEFINITION. Bodies of states as the loader reads them (R174 check 8), the registers that an instruction reads and writes
with its latency (R75), and the rewriter of generation-1 text (R90, R91). -/

namespace Sys2Proof

/-- A 32-bit register or a predicate, as a number's name. -/
inductive RegKey
  | v (r : Nat)
  | s (r : Nat)
  | p (i : Nat)
  | q (i : Nat)
  deriving DecidableEq, Repr

def Reg.keys (n : Nat) : Reg → List RegKey
  | .v r => (List.range n).map (fun k => .v (r.val + k))
  | .s r => (List.range n).map (fun k => .s (r.val + k))
  | .z => []
def Src.keys (n : Nat) : Src → List RegKey
  | .r x => x.keys n
  | .imm _ => []
def SPair.keys : SPair → List RegKey
  | .pr k => [.s (2 * k.val), .s (2 * k.val + 1)]
  | .z => []
/-- P7 and Q3 hold no state. -/
def Pred.keys : Pred → List RegKey
  | .p i => if i.val < 7 then [.p i.val] else []
  | .q i => if i.val < 3 then [.q i.val] else []
def MemRef.keys (m : MemRef) : List RegKey := m.base.keys ++ m.off.keys 1
def ScrRef.keys (m : ScrRef) : List RegKey := m.base.keys 1 ++ m.off.keys 1
def BarRef.keys : BarRef → List RegKey
  | .off a => a.keys 1
  | .slot _ => []

/-- The guard of a word reads a predicate (R73). -/
def Hdr.keys (h : Hdr) : List RegKey :=
  if h.pg = 7 then [] else if h.uni then (if h.pg.toNat < 3 then [.q h.pg.toNat] else []) else [.p h.pg.toNat]

def allP : List RegKey := (List.range 7).map RegKey.p
def allQ : List RegKey := (List.range 3).map RegKey.q
/-- The predicates that V2P writes and P2V reads: those that an immediate mask names, and every one where the mask is a
register, whose bits the loader cannot know (R91; assumption 54). -/
def predsOf (h : Hdr) (mask : Src) : List RegKey :=
  match mask with
  | .imm v => if h.uni then ((List.range 3).filter (fun i => v.getLsbD i)).map RegKey.q
              else ((List.range 7).filter (fun i => v.getLsbD i)).map RegKey.p
  | .r _ => if h.uni then allQ else allP

/-- What an instruction reads and writes, and its result delay (R75); none is variable latency. -/
structure RegUse where
  reads  : List RegKey
  writes : List RegKey
  delay  : Option Nat
  deriving DecidableEq, Repr

def use (h : Hdr) (delay : Option Nat) (writes reads : List RegKey) : RegUse :=
  { reads := h.keys ++ reads, writes := writes, delay := if h.uni then delay.map (fun _ => 2) else delay }
/-- Instructions of an integer type. -/
def useTy (h : Hdr) (delay : Option Nat) (ty : IntTy) (d : Reg) (l : List Src) : RegUse :=
  use h delay (d.keys ty.regs) (l.flatMap (Src.keys ty.regs))
/-- Instructions of single registers. -/
def use1 (h : Hdr) (delay : Option Nat) (d : Reg) (l : List Src) : RegUse :=
  use h delay (d.keys 1) (l.flatMap (Src.keys 1))
def useNone : RegUse := { reads := [], writes := [], delay := none }

def Instr.use : Instr → RegUse
  | .iadd h ty d a b | .isub h ty d a b | .iadds h ty d a b | .isubs h ty d a b | .imin h ty d a b | .imax h ty d a b
  | .and h ty d a b | .or h ty d a b | .xor h ty d a b | .andn h ty d a b => useTy h (some 4) ty d [a, b]
  | .imul h ty d a b | .imulh h ty d a b => useTy h (some 6) ty d [a, b]
  | .imad h ty d a b c => useTy h (some 6) ty d [a, b, c]
  | .imadw h _ d a b c => Sys2Proof.use h (some 6) (d.keys 2) (a.keys 1 ++ b.keys 1 ++ c.keys 2)
  | .idiv h ty d a b | .irem h ty d a b => useTy h none ty d [a, b]
  | .iabs h ty d a | .ineg h ty d a | .not h ty d a | .brev h ty d a | .mov h ty d a => useTy h (some 4) ty d [a]
  | .iaddc h _ d a b pc | .isubb h _ d a b pc =>
      Sys2Proof.use h (some 4) (d.keys 1 ++ pc.keys) (a.keys 1 ++ b.keys 1 ++ pc.keys)
  | .lea h _ _ d a b => Sys2Proof.use h (some 6) (d.keys 2) (a.keys 2 ++ b.keys 1)
  | .bool3 h _ d a b c | .fshr h d a b c | .bfi h d a b c | .bsel h d a b c => use1 h (some 4) d [a, b, c]
  | .shl h ty d a b | .shr h ty d a b | .sar h ty d a b | .rol h ty d a b =>
      Sys2Proof.use h (some 4) (d.keys ty.regs) (a.keys ty.regs ++ b.keys 1)
  | .popc h ty d a | .clz h ty d a | .ctz h ty d a => Sys2Proof.use h (some 4) (d.keys 1) (a.keys ty.regs)
  | .bfx h _ d a b => use1 h (some 4) d [a, b]
  | .icmp h ty _ pd a b => Sys2Proof.use h (some 4) pd.keys (a.keys ty.regs ++ b.keys ty.regs)
  | .fcmp h _ _ _ pd a b => Sys2Proof.use h (some 4) pd.keys (a.keys 1 ++ b.keys 1)
  | .sel h w pc d a b => Sys2Proof.use h (some 4) (d.keys (wd w)) (a.keys (wd w) ++ b.keys (wd w) ++ pc.keys)
  | .movi h _ _ d _ | .rdl h d => use1 h (some 4) d []
  | .movs h d num => Sys2Proof.use h (some 4) (d.keys (wd (num == 14))) []
  | .fclass h _ d a => use1 h (some 4) d [a]
  | .pand h _ _ pd pa pb | .por h _ _ pd pa pb | .pxor h _ _ pd pa pb =>
      Sys2Proof.use h (some 4) pd.keys (pa.keys ++ pb.keys)
  | .pnot h pd pa => Sys2Proof.use h (some 4) pd.keys pa.keys
  | .p2v h d a => Sys2Proof.use h (some 4) (d.keys 1) (a.keys 1 ++ predsOf h a)
  | .v2p h a b => Sys2Proof.use h (some 4) (predsOf h b) (a.keys 1 ++ b.keys 1)
  | .fadd h _ d a b | .fsub h _ d a b | .fmul h _ d a b | .fmin h _ d a b | .fmax h _ d a b | .fscale h _ d a b =>
      use1 h (some 6) d [a, b]
  | .ffma h _ d a b c | .fmed3 h _ d a b c => use1 h (some 6) d [a, b, c]
  | .fdiv h _ d a b => use1 h none d [a, b]
  | .fsqrt h _ d a => use1 h none d [a]
  | .frnd h _ d a => use1 h (some 6) d [a]
  | .cvtfi h _ _ _ dst d a =>
      Sys2Proof.use h (some 6) (d.keys (wd (dst == .s64 || dst == .n64))) (a.keys 1)
  | .cvtif h src _ _ d a =>
      Sys2Proof.use h (some 6) (d.keys 1) (a.keys (wd (src == .s64 || src == .n64)))
  | .cvtff h _ _ _ d a b | .pack h _ _ d a b | .unpack h _ _ d a b | .tern h _ d a b => use1 h (some 6) d [a, b]
  | .cvtne h _ _ d a => use1 h (some 6) d [a]
  | .qscale h md d a => use1 h (some 6) d (a :: match md with
      | .apply b => [b]
      | _ => [])
  | .rcp h _ d a | .rsq h _ d a | .ex2 h _ d a | .lg2 h _ d a | .sin h _ d a | .cos h _ d a | .tanh h _ d a => use1 h none d [a]
  | .sincos h _ d a => Sys2Proof.use h none (d.keys 2) (a.keys 1)
  | .dot2 h _ _ d a b c | .tdot h _ d a b c => use1 h (some 7) d [a, b, c]
  | .dot4 h _ _ sc d a b c | .dot8 h _ _ sc d a b c => use1 h (some 7) d ([a, b, c] ++ (sc.map Src.r).toList)
  | .geti h w _ d a b | .getb h w _ _ d a b | .geta h w _ _ d a b | .getx h w _ d a b =>
      Sys2Proof.use h (some 7) (d.keys (wd w)) (a.keys (wd w) ++ b.keys 1)
  | .pany h _ pd pa | .pall h _ pd pa => Sys2Proof.use h (some 7) pd.keys pa.keys
  | .pmask h cnt d pa => Sys2Proof.use h (some 7) (d.keys (wd !cnt)) pa.keys
  | .lead h _ pd => Sys2Proof.use h (some 7) pd.keys []
  | .peers h w d a => Sys2Proof.use h none (match d with
      | .mask r => r.keys 2
      | .all pd => pd.keys) (a.keys (wd w))
  | .scan h ty _ _ _ d a | .vred h ty _ _ d a =>
      Sys2Proof.use h none (d.keys (wd (ty == .s64 || ty == .n64))) (a.keys (wd (ty == .s64 || ty == .n64)))
  | .regroup h a n => Sys2Proof.use h none (allP ++ (List.range 192).map RegKey.v) (a.keys 1 ++ (List.range n.toNat).map RegKey.v)
  | .bx h _ | .yield h _ | .exit h | .nop h => Sys2Proof.use h none [] []
  | .bxc h _ _ _ pc => Sys2Proof.use h none [] pc.keys
  | .bxi h a => Sys2Proof.use h none [] (a.keys 1)
  | .call h link a _ => Sys2Proof.use h none [.v link.val] (a.keys 1)
  | .calli h link sa save _ => Sys2Proof.use h none (.v link.val :: save.keys) sa.keys
  | .ret h a r => Sys2Proof.use h none [] (a.keys 1 ++ r.keys)
  | .exitn h k a => Sys2Proof.use h none (allP ++ (List.range (192 - k.toNat)).map (fun i => .v (k.toNat + i))) (a.keys 1)
  | .ld h sz _ _ _ d m | .ldc h sz _ d m => Sys2Proof.use h none (d.keys sz.regs) m.keys
  | .st h sz _ _ a m => Sys2Proof.use h none [] (a.keys sz.regs ++ m.keys)
  | .lds h sz _ d m => Sys2Proof.use h none (d.keys sz.regs) m.keys
  | .sts h sz a m => Sys2Proof.use h none [] (a.keys sz.regs ++ m.keys)
  | .ldt h k md _ d m =>
      Sys2Proof.use h none (d.keys (match k with | .x1 => 1 | .x2 => 2 | .x4 => 4)) (m.keys ++ match md with
        | .scl ss => ss.keys
        | _ => [])
  | .atom h _ sz _ d m => Sys2Proof.use h none (d.keys (sz.bytes / 4)) (d.keys (sz.bytes / 4) ++ m.keys)
  | .atomcas h sz _ d m => Sys2Proof.use h none (d.keys (sz.bytes / 4)) (d.keys (sz.bytes / 2) ++ m.keys)
  | .red h _ sz _ a m => Sys2Proof.use h none [] (a.keys (sz.bytes / 4) ++ m.keys)
  | .atoms h _ sz d m => Sys2Proof.use h none (d.keys (sz.bytes / 4)) (d.keys (sz.bytes / 4) ++ m.keys)
  | .atomcass h sz d m => Sys2Proof.use h none (d.keys (sz.bytes / 4)) (d.keys (sz.bytes / 2) ++ m.keys)
  | .fence h _ _ | .isync h | .next h | .drain h _ _ _ | .gbar h | .rte h | .bkpt h _ | .halt h => Sys2Proof.use h none [] []
  | .bind h k img => Sys2Proof.use h none [] (k.keys 1 ++ img.keys 2)
  | .unbind h k | .stashwb h k | .stashdrop h _ k | .pause h k | .trap h k | .tmark h k => Sys2Proof.use h none [] (k.keys 1)
  | .cflush h _ m | .cinv h _ m | .prf h _ _ m | .hint h _ _ m | .ipf h _ m => Sys2Proof.use h none [] m.keys
  | .stashmap h d sg sp => Sys2Proof.use h none (d.keys 1) (sg.keys ++ sp.keys 1)
  | .binit h o a b => Sys2Proof.use h none [] (o.keys 1 ++ a.keys 1 ++ b.keys 1)
  | .arrive h d bar => Sys2Proof.use h none (d.keys 1) bar.keys
  | .bexpect h bar b => Sys2Proof.use h none [] (bar.keys ++ b.keys 1)
  | .wait h _ _ qd d sl t => Sys2Proof.use h none (.q qd.val :: d.keys 1) (sl.keys 1 ++ t.keys 1)
  | .copy h _ dir dst src x bar | .copy2d h _ dir dst src x bar =>
      let g (b : Bool) := wd b
      let sg := dir == .gg || dir == .gs
      let dg := dir == .gg || dir == .sg
      Sys2Proof.use h none [] (dst.keys (g dg) ++ src.keys (g sg) ++ x.keys 1 ++ bar.keys 1)
  | .rsv h _ qd _ d count => Sys2Proof.use h none (.q qd.val :: d.keys 1) (count.keys 1)
  | .rls h _ mask => Sys2Proof.use h none [] (mask.keys 1)
  | .cld h _ place src stride => Sys2Proof.use h none [] (place.keys 1 ++ src.keys 2 ++ stride.keys 1)
  | .mma h _ _ _ _ out act ctl => Sys2Proof.use h none [] (out.keys 1 ++ act.keys 1 ++ ctl.keys 1)
  | .gmv h _ desc => Sys2Proof.use h none [] (desc.keys 1)
  | .mfence h d => Sys2Proof.use h none (d.keys 1) []
  | .enq h n _ va => Sys2Proof.use h none [] ((Reg.v va).keys (n.toNat + 1))
  | .enqr h _ _ ss cnt => Sys2Proof.use h none [] (ss.keys 1 ++ cnt.keys 1)
  | .deq h n pd vd => Sys2Proof.use h none ((Reg.v vd).keys (n.toNat + 1) ++ (Pred.p pd).keys) []
  | .launch h d q rc => Sys2Proof.use h none (d.keys 2) (q.keys 1 ++ (SPair.pr rc).keys)
  | .movsr h _ d => Sys2Proof.use h (some 2) (d.keys 2) []
  | .setsr h _ a => Sys2Proof.use h none [] (a.keys 2)
  | .mread h md d => match md with
      | .ev c => Sys2Proof.use h none (d.keys 1) (c.keys 1)
      | _ => Sys2Proof.use h none (d.keys 2) []
  | .udf | .regroupExchange _ _ | .waitSatisfaction _ | .waitTimeout _ | .waitMemoryRead _ | .pauseExpiry _
  | .gbarRelease _ | .copyBeat _ _ | .cldRow _ _ | .mmaVector _ _ | .gmvSegmentStart _ _
  | .engineFailureDelivery _ | .instructionCompletion _ _ | .demandFetch _ | .faultRecordWrite _
  | .faultRecordRetry _ | .replay _ | .launchQueueWatch _ _ | .codeObjectLoad _ _ | .codeObjectUnload _ _
  | .queueVisit _ _ | .cooperativeAdmission _ | .gangReserve _ | .gangReserveTimeout _
  | .nodeConsumerDispatch _ | .retirementWriteback _ _ | .workgroupRetirement _ _
  | .invalidationRequest _ | .forcedPreemption _ _ _ | .engineDrainTimeout _ _ | .restore _
  | .workgroupAbort _ _ | .coreFence _ _ | .eccError _ _ | .sensorSample _ _ | .intervalEnd _
  | .grant _ _ | .debtReport _ _ | .stallSample _ _ | .loadSample _ _ _ _ _ _ _ | .stop _ _ | .resume _ _
  | .step _ _ _ | .breakpointMatch _ | .systemRegisterWrite _ _ _ _ | .stateExport | .restart | .release
  | .cxlMemRead _ _ | .cxlMemWrite _ _ | .remoteRequest _ _ _ | .flitReplay _ | .linkDown _ | .telemetry
  | .panWrite _ _ _ | .podIndex _ | .linkEnable _ | .recovery _ | .reset | .heartbeatMiss
  | .debuggerWrite _ _ _ | .configurationRequest _ | .getMeasurements | .pauseAndResumeFlits _ _
  | .msiXUnmask _ _ => useNone

/-- The transfers of control of R76. -/
def Instr.transfers : Instr → Bool
  | .next _ | .bx _ _ | .bxc _ _ _ _ _ | .bxi _ _ | .call _ _ _ _ | .calli _ _ _ _ _ | .ret _ _ _ | .exit _ | .exitn _ _ _
  | .yield _ _ => true
  | _ => false

end Sys2Proof

namespace Sys2Proof.Machine

open Sys2Proof

/-! ## The words of a body -/

/-- A word of a body that is no pad: its place in the body, its length, its OP field, and the instruction that it decodes to.
UDF is no instruction (R89). -/
structure BodyWord where
  at_ : Nat
  len : Nat
  op  : Nat
  ins : Option Instr
  deriving DecidableEq, Repr

/-- The words by LEN from `pos`, and where they end: a pad reaches to the next fetch block (R71). -/
def bodyWords (bs : List Byte) : Nat → Nat → List BodyWord × Nat
  | 0, pos => ([], pos)
  | f + 1, pos =>
    if pos ≥ bs.length then ([], pos)
    else
      let w := natOfBytes ((bs.drop pos).take 16)
      if w % 4 = 3 then bodyWords bs f (pos / 32 * 32 + 32)
      else
        let n := 8 + 4 * (w % 4)
        let ins := match decodeBytes (32 - pos % 32) ((bs.drop pos).take 16) with
          | .ok (i, _) => if i = .udf then none else some i
          | .error _ => none
        let r := bodyWords bs f (pos + n)
        ({ at_ := pos, len := n, op := w / 2 ^ 19 % 512, ins := ins } :: r.1, r.2)
def wordsOfBody (bs : List Byte) : List BodyWord × Nat := bodyWords bs (bs.length / 4 + 1) 0

/-! ## Stall distances (R91) -/

/-- A producer: what it writes, and what is left of its delay. -/
structure Producer where
  writes : List RegKey
  left   : Nat
  deriving DecidableEq, Repr

/-- The smallest SD that meets every producer that the instruction depends on. -/
def sdFor (u : RegUse) (ps : List Producer) : Nat :=
  ps.foldl (fun m p => if p.left > 1 ∧ p.writes.any (fun k => u.reads.contains k || u.writes.contains k) then max m p.left else m) 0

/-- The place and new SD of each instruction of a body. A word that R89 calls no instruction takes no part (R90). -/
def stallsFrom (k : Kernel) : List BodyWord → List Producer → List (Nat × Nat)
  | [], _ => []
  | w :: t, ps =>
    match w.ins.filter k.numbersOk with
    | none => stallsFrom k t ps
    | some i =>
      let u := i.use
      let sd := sdFor u ps
      let ps := ps.map (fun p => { p with left := p.left - max 1 sd })
      let ps := if i.transfers then [] else match u.delay with
        | some d => if u.writes.isEmpty then ps else { writes := u.writes, left := d } :: ps
        | none => ps
      (w.at_, sd) :: stallsFrom k t ps

/-- Replace bytes at a place. -/
def patch (l : List Byte) (at_ : Nat) (bs : List Byte) : List Byte := l.take at_ ++ bs ++ l.drop (at_ + bs.length)

/-- SD is bits 9:7 of a word. -/
def putSd (bs : List Byte) (e : Nat × Nat) : List Byte :=
  let w := natOfBytes ((bs.drop e.1).take 2)
  patch bs e.1 (bytesOfNat 2 (w / 1024 * 1024 + e.2 * 128 + w % 128))

/-- R90's third step over one body. -/
def rewriteBody (k : Kernel) (bs : List Byte) : List Byte := (stallsFrom k (wordsOfBody bs).1 []).foldl putSd bs

end Sys2Proof.Machine
end

