-- ==== Sys2Proof/Machine/Place.lean ====
section
/-! DEFINITION. The Bench's dispatch: placement (R14, R26, R359), a workgroup's first state (R13-R18, R114), visits (R383),
cooperative launches (R384), gangs (R385, R386) and node consumers (R390-R392). -/

namespace Sys2Proof.Machine

open Sys2Proof

/-! ## Room on a core (R14) -/

def sumOf {α : Type} (f : α → Nat) (l : List α) : Nat := (l.map f).foldl (· + ·) 0

/-- The kernels for which gangs hold room on a core. -/
def State.reservedOn (s : State) (c : Nat) : List Kernel :=
  (kvals s.launches).flatMap (fun l => match l.st with
    | .reserved res _ => res.flatMap (fun r => (r.cores.filter (· == c)).map (fun _ => l.kernel))
    | _ => [])

/-- A core has room for `n` more workgroups of a kernel. -/
def State.fitsN (s : State) (c : Nat) (k : Kernel) (n : Nat) : Bool :=
  let ks := (kvals (s.core c).wgs).map Wg.kernel ++ s.reservedOn c
  (List.range 4).all (fun q =>
    decide (sumOf (·.perSeq q) ks + n * k.perSeq q ≤ 16) &&
    decide (sumOf (fun x => x.perSeq q * (x.vregs * 256)) ks + n * (k.perSeq q * (k.vregs * 256)) ≤ vfile)) &&
  decide (sumOf Kernel.alloc ks + n * k.alloc ≤ 262144)
def State.fits (s : State) (c : Nat) (k : Kernel) : Bool := s.fitsN c k 1

/-! ## The thermal gate (R359) -/

def State.dieCap (s : State) (d : Nat) : Nat := (s.sysreg (0x12 + d) 0).toNat
/-- The hottest tile sensor of a die; a core that is not listed is as at reset. -/
def State.hottest (s : State) (d : Nat) : Int :=
  let l := s.cores.filterMap (fun c => if c.1 / 192 = d then some c.2.temp.toInt else none)
  l.foldl max (if l.length < 192 then Core.zero.temp.toInt else -32768)
def Wg.committed (w : Wg) : Nat := w.cest - w.cum / 10 ^ 6
def State.dieCommitted (s : State) (d : Nat) : Nat :=
  sumOf (fun c => if c.1 / 192 = d then sumOf Wg.committed (kvals c.2.wgs) else 0) s.cores
/-- Whether an estimate fits the headroom. -/
def State.headroom (s : State) (c est : Nat) : Bool :=
  let d := c / 192
  let cl : Int := max 0 (min 200 (1050 - s.hottest d))
  decide (200 * ((min est (s.dieCap d) : Nat) : Int) + 200 * s.dieCommitted d ≤ s.dieCap d * cl)

/-! ## Pans and estimates -/

/-- R355: the pan of a function refuses dispatch. -/
def State.panRefuses (s : State) (func : Nat) : Bool :=
  match s.panKey func with
  | none => false
  | some k => let f := s.peekNat (k + 0x30) 4; f.testBit 0 && f.testBit 1

/-- R358. -/
def Launch.estimate (l : Launch) : Nat :=
  if l.retired = 0 then l.kernel.energy else (l.energy + l.retired * 10 ^ 6 - 1) / (l.retired * 10 ^ 6)
def Launch.rec_ (l : Launch) : LRec := LRec.ofBytes l.record
def Launch.cls (l : Launch) : Nat := l.rec_.cls

/-! ## Placement (R26, R384) -/

/-- A partition is closed to a launch by a cooperative one. Of two cooperative launches of one class the older goes first. -/
def State.closedTo (s : State) (l : Launch) (p : Nat) : Bool :=
  (kvals s.launches).any (fun m => m.closed && m.id != l.id && m.rec_.parts.contains p &&
    (if l.coop then decide (m.cls > l.cls) || (m.cls == l.cls && decide (m.id < l.id)) else decide (l.cls ≤ m.cls)))

/-- The cores of a partition in its rotation. -/
def State.rotated (s : State) (p : Nat) : List Nat :=
  let cs := s.coresOf p
  match kfind p s.rotation with
  | none => cs
  | some last => cs.filter (fun c => decide (last < c)) ++ cs.filter (fun c => decide (c ≤ last))

/-- The partitions of a launch on which its function may run now (R24; assumption 76). -/
def State.partsFor (s : State) (l : Launch) (parts : List Nat) : List Nat := parts.filter (s.funcMask l.func).getLsbD

/-- The first core that takes a workgroup of a launch. -/
def State.placeIn (s : State) (l : Launch) (est : Nat) (parts : List Nat) : Option (Nat × Nat) :=
  ((s.partsFor l parts).filter (fun p => !s.closedTo l p)).findSome? (fun p =>
    ((s.rotated p).find? (fun c => s.fits c l.kernel && s.headroom c est)).map (fun c => (p, c)))

/-! ## A workgroup's first state (R13-R18, R114) -/

def dispatchThread (st : Start) (cidx t : Nat) (rec_ : Option (List W32)) (gone : Bool) : Thread :=
  { v := match rec_ with
      | some ws => (ws.zipIdx).foldl (fun m e => kset 0 e.2 e.1 m) []
      | none => [],
    p := 0, br := mkBr false gone st.region st.block, tidx := BitVec.ofNat 32 (64 * cidx + t), holdCnt := 0, yld := false,
    swp := false }

/-- A crew as it is dispatched. `recs`: for a node, the crew's records. -/
def dispatchCrew (l : Launch) (w wgidx cidx : Nat) (recs : Option (List (List W32))) (outs : List Nat) : Crew :=
  let k := l.kernel
  let gs := groupsOf l.groups (wgidx * k.crews + cidx)
  { wg := w, cidx := cidx,
    threads := (List.range 64).map (fun t => match recs with
      | none => dispatchThread l.start cidx t none false
      | some rs => dispatchThread l.start cidx t rs[t]? (rs[t]?).isNone),
    s := (l.args.zipIdx).foldl (fun m e => kset 0 e.2 e.1 m) [], q := 0, flags := List.replicate 12 FlagEntry.zero, owed := [],
    nextId := 0, fps := 0, cst := 0, abscnt := 0,
    groups := (List.range 4).map (fun i => gs[i]?),
    hb := k.entry - 64, dir := l.start.dir, nreg := l.start.nreg, rdesc := l.start.rdesc, pos := k.entry, cr := l.start.region, ss := l.start.slot, sid := 0, sset := l.start.set, sweep := 0,
    retry := false, votePending := false, epc := 0, ecause := 0, earg := 0, ethr := 0, esave := List.replicate 4 0,
    hmode := false, frame := Frame.zero, batchCnt := 0, openSet := [], batches := List.replicate 16 [], failures := [],
    outRes := outs, park := none, replay := none, block := .none, pause := 0, gbarArr := 0, fbuf := [], ready := 0, voteTill := 0, lastIssue := none,
    bpSkip := false, finished := false }

/-- The lowest free slot of a sequencer. -/
def freeSlot (crews : KMap Crew) (q : Nat) : Nat :=
  ((List.range 16).find? (fun n => (kfind (16 * q + n) crews).isNone)).getD 0 + 16 * q

/-- Put crews, in CIDX order, into the lowest free slots of their sequencers. -/
def placeCrews (crews : KMap Crew) : List Crew → KMap Crew × List Nat
  | [] => (crews, [])
  | c :: t =>
    let sl := freeSlot crews (c.cidx % 4)
    let r := placeCrews (kput sl c crews) t
    (r.1, sl :: r.2)

/-- The scratchpad objects that the Bench initialises at a member workgroup's dispatch (R192). -/
def initScratch (l : Launch) (wgidx : Nat) : KMap Byte :=
  l.groups.foldl (fun m e =>
    if e.2.bar && e.2.init && decide (e.2.scope ≤ 2) && e.2.members.any (fun w => w / l.kernel.crews == wgidx) then
      kputBytes m e.2.barrier.toNat (bytesOfNat 16 (arrivers l.kernel l.groups e.1 e.2))
    else m) []

/-- The outputs that a node's descriptor names. -/
def NodeD.named (d : NodeD) (va : Nat) : List (Nat × Nat) :=
  (List.range 4).filterMap (fun k => (d.out va k).map (fun v => (k, v)))
/-- The Bench reads a node's descriptor. -/
def State.nodeGet (s : State) (ctx va : Nat) : State × Option NodeD :=
  let r := s.benchRead ctx va 64
  (r.1, r.2.map (fun b => NodeD.ofNat (natOfBytes b)))
def State.nodeAt (s : State) (ctx va : Nat) : Option NodeD := (s.nodeGet ctx va).2
/-- MAXREC for each output that the descriptor names (R391). -/
def Launch.outResOf (l : Launch) (d : Option NodeD) : List Nat :=
  match l.node, d with
  | some va, some d => (List.range 4).map (fun k => if (d.out va.toNat k).isSome then l.kernel.maxrec else 0)
  | _, _ => [0, 0, 0, 0]
/-- A launch's descriptor, as the Bench reads it. -/
def State.nodeOf (s : State) (l : Launch) : State × Option NodeD := match l.node with
  | none => (s, none)
  | some va => s.nodeGet l.ctx va.toNat

/-- The records of crew `c` of a node's workgroup, as words. -/
def crewRecords (batch keep c : Nat) (recs : List (List Byte)) : List (List W32) :=
  ((recs.drop (c * batch)).take batch).map (fun b => ((wordsLe 4 b).map (BitVec.ofNat 32)).take keep)

/-- WORKGROUP_DISPATCH (R26): workgroup `wgidx` of a launch starts on core `c` of partition `p`. A node's workgroup acquires at
DEV before its first instruction (R397). -/
def State.dispatch (s : State) (l : Launch) (wgidx p c est : Nat) : State :=
  let w := (kfree 64 (s.core c).wgs).getD 0
  let n := s.nodeOf l
  let s := n.1
  let outs := l.outResOf n.2
  let batch := (n.2.map NodeD.batch).getD 1
  let crews := (List.range l.kernel.crews).map (fun i =>
    dispatchCrew l w wgidx i (l.prep.map (crewRecords batch l.kernel.keep i)) outs)
  let d := s.ctxDesc l.ctx
  let r := placeCrews (s.core c).crews crews
  let wg : Wg :=
    { launch := l.id, ctx := l.ctx, conf := match d with | some d => d.conf | none => l.conf,
      func := match d with | some d => d.func | none => l.func, cls := l.cls, wgidx := wgidx, nwg := BitVec.ofNat 32 l.nwg,
      kernel := l.kernel, groups := l.groups, node := l.node, part := p, scr := initScratch l wgidx, scrPoison := [], cum := 0,
      flushed := 0, frac := 0, est := est, cest := min est (s.dieCap (c / 192)), save := none, abort := none, written := false,
      stopped := false, crews := r.2 }
  let s := s.modCore c (fun co => { co with crews := r.1, wgs := kput w wg co.wgs })
  let s := if l.node.isSome then s.fenceAcq (accOf c w wg) .dev else s
  { s with
    rotation := kput p c s.rotation,
    launches := kmod l.id (fun l => { l with next := l.next + 1, live := l.live + 1, prep := none }) s.launches }

/-! ## Visits (R383) -/

def Launch.failing (l : Launch) : Bool := match l.st with
  | .failing _ _ _ _ => true
  | _ => false
/-- A launch with a workgroup not yet dispatched, or a gang that is not placed. -/
def Launch.waits (l : Launch) : Bool :=
  if l.node.isSome then l.prep.isSome else decide (l.next < l.nwg) || (l.gang && !l.failing && l.st != .running)
def State.waitingLaunch (s : State) (func q : Nat) : Option Launch := (s.launchesOf func q).find? Launch.waits

/-- R37, R355: a saved workgroup that is restored before this launch's next. -/
def State.restoreFirst (s : State) (l : Launch) : Bool :=
  s.saved.any (fun e => e.2.index.isNone && (e.2.wg.launch == l.id || (e.2.cause == 1 && e.2.func == l.func)))

/-- A launch's queue executes: its header is good (R379), and HOLD does not stop the launch, as it does not once it is committed
(R387, R398). -/
def State.queueRuns (s : State) (l : Launch) : Bool :=
  match s.queueHead l.func l.queue with
  | some h => (!h.hold || l.committed) && !s.queueBad l.func h
  | none => false

/-- What the queue and its function must allow for any dispatch or restore of a launch. -/
def State.queueAllows (s : State) (l : Launch) : Bool := !s.panRefuses l.func && s.queueRuns l
def State.mayDispatch (s : State) (l : Launch) : Bool := !s.restoreFirst l && s.queueAllows l

def Launch.started (l : Launch) : Bool := match l.st with
  | .running => true
  | _ => false
/-- Its workgroups go one by one under the rotation (R383): not those of a cooperative launch that has begun. -/
def Launch.ordinary (l : Launch) : Bool := l.started && !l.closed

/-- The next workgroup of a queue places and its pan grants. -/
def State.placeable (s : State) (l : Launch) : Option (Nat × Nat) :=
  if l.ordinary && s.mayDispatch l then s.placeIn l l.estimate l.rec_.parts else none

/-- The queues with a waiting launch, in table order, with their class. -/
def State.waitingQueues (s : State) : List (Nat × Nat × Launch) :=
  let qs := (kvals s.launches).foldl (fun l x => sins (x.func * 64 + x.queue) l) []
  qs.filterMap (fun k => (s.waitingLaunch (k / 64) (k % 64)).map (fun l => (k / 64, k % 64, l)))

/-- A queue's place in a round: classes from 3 down, then table order. -/
def visitKey (e : Nat × Nat × Launch) : Nat := (3 - e.2.2.cls) * 4096 + e.1 * 64 + e.2.1

def State.quantum (s : State) (func q : Nat) : Nat := match s.queueHead func q with
  | some h => h.quantum
  | none => 1

/-- The visit's loop. A workgroup whose estimate exceeds the cap goes once DC has reached the cap. -/
def State.visitLoop (func q quan : Nat) : Nat → State → State
  | 0, s => s
  | n + 1, s =>
    match s.waitingLaunch func q with
    | none => s
    | some l =>
      let e := l.estimate
      if (min e (4 * quan) : Int) > (s.qstate func q).dc then s
      else match s.placeable l with
        | none => s
        | some (p, c) =>
          State.visitLoop func q quan n ((s.dispatch l l.next p c e).modQ func q (fun x => { x with dc := x.dc - e }))

/-- DC of a queue with nothing waiting is 0. -/
def State.settleDc (s : State) (func q : Nat) : State :=
  if (s.waitingLaunch func q).isNone then s.modQ func q (fun x => { x with dc := 0 }) else s

/-! ## Cooperative launches (R384) -/

/-- The launch is its queue's oldest waiting one, and goes as a whole. -/
def State.atHead (s : State) (l : Launch) : Bool :=
  (match s.waitingLaunch l.func l.queue with
    | some m => m.id == l.id
    | none => false) && !l.ordinary

def State.modLaunch (s : State) (id : Nat) (f : Launch → Launch) : State := { s with launches := kmod id f s.launches }

/-- How many further workgroups of a kernel a core has room for by R14. -/
def State.roomOn (s : State) (k : Kernel) (c : Nat) : Nat :=
  ((List.range 16).filter (fun n => s.fitsN c k (n + 1))).length
/-- The open partitions of a launch have room for all its remaining workgroups by R14. -/
def State.roomFor (s : State) (l : Launch) : Bool :=
  decide (l.nwg - l.next ≤ sumOf (s.roomOn l.kernel) (((s.partsFor l l.rec_.parts).filter (fun p => !s.closedTo l p)).flatMap s.coresOf))

/-- The remaining workgroups of a cooperative launch are dispatched, with no limit by DC, as far as the thermal gate and the pan
let them. -/
def State.dispatchAll (id : Nat) : Nat → State → State
  | 0, s => s
  | n + 1, s =>
    match kfind id s.launches with
    | none => s
    | some l =>
      if l.next ≥ l.nwg || !s.mayDispatch l then s
      else match s.placeIn l l.estimate l.rec_.parts with
        | none => s
        | some (p, c) =>
          State.dispatchAll id n ((s.dispatch l l.next p c l.estimate).modQ l.func l.queue (fun x =>
            { x with dc := x.dc - l.estimate }))

/-- The partitions open again once every workgroup has been dispatched. -/
def State.coopDone (s : State) (id : Nat) : State :=
  match kfind id s.launches with
  | none => s
  | some l =>
    if l.next ≥ l.nwg then (s.modLaunch id (fun l => { l with closed := false })).settleDc l.func l.queue else s

/-- A launch that exists. -/
def atLaunch (s : State) (id : Nat) (f : Launch → State) : Out :=
  match kfind id s.launches with
  | none => .next s
  | some l => .next (f l)

/-- UNFIT, or the partitions are closed; the launch begins once there is room for all its workgroups. A cooperative launch that is
also a gang is placed as a gang alone (assumption 64). -/
def execCooperativeAdmission (launch : Nat) (s : State) : Out :=
  atLaunch s launch (fun l =>
    if !l.coop || l.gang || !s.atHead l then s
    else if !l.started && decide (l.nwg > (s.coresFor l.rec_).length * l.kernel.perCore) then s.finishLaunch l 2
    else
      let l' := { l with closed := true }
      let s := s.modLaunch launch (fun _ => l')
      if l.started || (s.mayDispatch l' && s.roomFor l') then
        (State.dispatchAll launch 49152 (s.modLaunch launch (fun l => { l with st := .running }))).coopDone launch
      else s)

/-! ## Gangs (R385, R386) -/

/-- The parts of a gang: partition, first index, end. -/
def Launch.gangParts (l : Launch) : List (Nat × Nat × Nat) :=
  let ps := l.rec_.parts
  let k := (l.nwg + ps.length - 1) / ps.length
  (ps.zipIdx).map (fun e => (e.1, max l.next (e.2 * k), min l.nwg ((e.2 + 1) * k)))

/-- Cores for `n` workgroups of one part, each in the partition's order, or none. -/
def State.reservePart (id p : Nat) : Nat → List Nat → State → Option (List Nat)
  | 0, acc, _ => some acc
  | n + 1, acc, s =>
    match kfind id s.launches with
    | none => none
    | some l =>
      match (s.rotated p).find? (fun c => s.fits c l.kernel) with
      | none => none
      | some c =>
        State.reservePart id p n (acc ++ [c]) { s.modLaunch id (fun l => { l with st := match l.st with
            | .reserved res since => .reserved (res ++ [{ part := p, cores := [c] }]) since
            | x => x }) with rotation := kput p c s.rotation }

/-- Reserve part by part, in ascending partition order, as far as there is room. -/
def State.reserveParts (id : Nat) : List (Nat × Nat × Nat) → State → State
  | [], s => s
  | (p, a, b) :: t, s =>
    match kfind id s.launches with
    | none => s
    | some l =>
      match l.st with
      | .reserved res since =>
        if res.any (fun r => r.part == p) then State.reserveParts id t s
        else if s.closedTo l p || !(s.partsFor l [p]).contains p then s
        else match State.reservePart id p (b - a) [] s with
          | none => s
          | some cs => State.reserveParts id t (s.modLaunch id (fun l => { l with st := .reserved (res ++ [{ part := p, cores := cs }]) since }))
      | _ => s

/-- The workgroups of a committed gang start in their reserved room, whatever the thermal headroom (assumption 65). -/
def State.commitPart (id p : Nat) : Nat → List Nat → State → State
  | _, [], s => s
  | i, c :: cs, s =>
    match kfind id s.launches with
    | none => s
    | some l =>
      State.commitPart id p (i + 1) cs ((s.dispatch l i p c l.estimate).modQ l.func l.queue (fun x =>
        { x with dc := x.dc - l.estimate }))

def State.gangCommit (s : State) (l : Launch) (res : List GangRes) : State :=
  let s := s.modLaunch l.id (fun l => { l with st := .running })
  let s := (l.gangParts.zip res).foldl (fun s e => State.commitPart l.id e.2.part e.1.2.1 e.2.cores s) s
  (s.modLaunch l.id (fun l => { l with next := l.nwg })).settleDc l.func l.queue

def execGangReserveTimeout (launch : Nat) (s : State) : Out :=
  atLaunch s launch (fun l => match l.st with
    | .reserved _ since =>
      if since + 10000 < s.refclk then s.modLaunch launch (fun l => { l with st := .waiting, retryAt := s.refclk + 100000 })
      else s
    | _ => s)

/-! ## Nodes (R390-R392) -/

/-- Whether a node's descriptor names another as an output. -/
def State.names (s : State) (l : Launch) (ctx va : Nat) : Bool :=
  match l.node with
  | none => false
  | some v => l.ctx == ctx && (match s.nodeAt ctx v.toNat with
    | some d => (d.named v.toNat).any (fun e => e.2 == va)
    | none => false)

/-- The Bench reads the descriptors of its nodes before it decides by them; the house pays (R348). -/
def State.nodesRead (s : State) : State :=
  (kvals s.launches).foldl (fun s l => match l.node with
    | some va => (s.nodeGet l.ctx va.toNat).1
    | none => s) s

/-- R392. A workgroup formed, or saved, counts as resident. -/
def State.liveProducer (s : State) (l : Launch) (va : Nat) : Bool :=
  (kvals s.launches).any (fun m => m.node.isSome && s.names m l.ctx va &&
    (m.id != l.id || decide (m.live > 0) || m.prep.isSome || !(s.savedOf m.id).isEmpty))

/-- A node is empty, with nothing reserved in its queue and nothing of it resident, formed or saved. -/
def State.nodeQuiet (s : State) (l : Launch) : Bool :=
  match l.node with
  | none => false
  | some va => match s.nodeAt l.ctx va.toNat with
    | none => false
    | some d => d.wr == d.rd && d.rsv == 0 && l.live == 0 && l.prep.isNone && (s.savedOf l.id).isEmpty

/-- Launches, and every live node that feeds one of them, directly or through others. -/
def State.fedBy (s : State) : Nat → List Launch → List Launch
  | 0, ls => ls
  | n + 1, ls =>
    let more := (kvals s.launches).filter (fun m => m.node.isSome && !ls.any (fun x => x.id == m.id) &&
      ls.any (fun l => match l.node with
        | some va => s.names m l.ctx va.toNat
        | none => false))
    if more.isEmpty then ls else s.fedBy n (ls ++ more)

/-- A node completes with those that feed it, where each of these is fed by it in turn and all are quiet: alone where no live node
feeds it, else with its cycle (R392). -/
def State.nodeGroup (s : State) (l : Launch) : Option (List Launch) :=
  let ls := s.fedBy 256 [l]
  if ls.all (fun m => s.nodeQuiet m && (s.fedBy 256 [m]).any (fun x => x.id == l.id)) then some ls else none

/-- A node's completion (R392): DONE is set, and the launch ends. -/
def State.nodeEnd (s : State) (l : Launch) : State :=
  match l.node with
  | none => s
  | some va => match s.nodeGet l.ctx va.toNat with
    | (s, none) => s
    | (s, some d) =>
      (s.benchDrop l.ctx (va.toNat + 0x2B) (bytesOfNat 1 (d.flags ||| 1))).finishLaunch l (if l.aborted then 6 else 1)

/-- A node that may complete does, with its cycle. -/
def State.nodeDone (s : State) (id : Nat) : Option State :=
  match kfind id s.launches with
  | none => none
  | some l => (s.nodeGroup l).map (fun ls => ls.foldl State.nodeEnd s)

/-- The nodes that complete, one group after another: a node that completes feeds no other any more. -/
def State.nodesEnd : Nat → State → State
  | 0, s => s
  | n + 1, s =>
    match (kvals s.launches).findSome? (fun l => if l.node.isSome then s.nodeDone l.id else none) with
    | some s => State.nodesEnd n s
    | none => s
def State.nodesDone (s : State) : State :=
  if (kvals s.launches).any (fun l => l.node.isSome) then State.nodesEnd 256 s.nodesRead else s

/-- R391: room in every named output, in ascending order; false where one lacks it. -/
def State.reserveOut (s : State) (ctx n : Nat) : List (Nat × Nat) → State × Bool
  | [] => (s, true)
  | (_, va) :: t =>
    match s.nodeGet ctx va with
    | (s, none) => (s, false)
    | (s, some d) =>
      if 2 ^ d.log2c < (d.alloc + 2 ^ 64 - d.rd) % 2 ^ 64 + d.rsv + n then (s, false)
      else match s.benchWrite ctx (va + 0x20) (bytesOfNat 8 (d.rsv + n)) with
        | (s, true) => s.reserveOut ctx n t
        | r => r

/-- The records RD to RD + r - 1. -/
def State.takeRecords (s : State) (ctx : Nat) (d : NodeD) : Nat → Nat → State × Option (List (List Byte))
  | 0, _ => (s, some [])
  | n + 1, i =>
    match s.benchRead ctx (d.slot i) (4 * d.recw) with
    | (s, none) => (s, none)
    | (s, some b) => match s.takeRecords ctx d n (i + 1) with
      | (s, some l) => (s, some (b :: l))
      | r => r

/-- The node's next consumer workgroup is formed: records and output room are taken, or neither. -/
def State.formConsumer (s : State) (l : Launch) (va : Nat) (d : NodeD) : State × Bool :=
  let full := l.kernel.crews * d.batch
  if d.ready ≥ full ∨ (d.ready ≥ 1 ∧ !s.liveProducer l va) then
    let r := min d.ready full
    match s.reserveOut l.ctx (l.kernel.crews * l.kernel.maxrec) (d.named va) with
    | (t, false) => (s.keepHouse t, false)
    | (t, true) =>
      match t.takeRecords l.ctx d r d.rd with
      | (t, none) => (s.keepHouse t, false)
      | (t, some recs) =>
        match t.benchWrite l.ctx (va + 0x10) (bytesOfNat 8 ((d.rd + r) % 2 ^ 64)) with
        | (t, true) => (t.modLaunch l.id (fun l => { l with prep := some recs }), true)
        | (t, false) => (s.keepHouse t, false)
  else (s, false)

/-- A consumer is formed where the node's queue executes (R379, R387), after which it competes as any workgroup (R383); or the node
completes; else false. -/
def State.nodeNext (s : State) (l : Launch) : State × Bool :=
  match l.node with
  | none => (s, false)
  | some va =>
    if l.prep.isSome || s.restoreFirst l then (s, false)
    else
      let s := s.nodesRead
      match s.nodeDone l.id with
      | some s => (s, true)
      | none => match s.nodeGet l.ctx va.toNat with
        | (s, none) => (s, false)
        | (s, some d) => if s.queueRuns l then s.formConsumer l va.toNat d else (s, false)

def execNodeConsumerDispatch (launch : Nat) (s : State) : Out :=
  atLaunch s launch (fun l => (s.nodeNext l).1)

end Sys2Proof.Machine
end

