-- ==== Sys2Proof/Machine/Meter.lean ====
section
/-! DEFINITION. The energy meters: pans and grants (R353-R356), flushes (R350), the interval's end (R352, R461), sensor samples
(R346, R360), the records of stalls and sampled loads (R339, R342). -/

namespace Sys2Proof.Machine

open Sys2Proof

/-! ## Pans (R353-R356) -/

structure Pan where
  bal   : Int
  rate  : Nat
  burst : Nat
  odraft : Nat
  last  : Nat
  gr    : Nat
  en    : Bool
  exh   : Bool
  ovd   : Bool
  rest  : Nat              -- FLAGS 31:3
  cnt   : Nat
  deriving DecidableEq, Repr

def Pan.ofNat (v : Nat) : Pan :=
  let f (at_ n : Nat) := v / 2 ^ (8 * at_) % 2 ^ (8 * n)
  { bal := asInt true 64 v, rate := f 8 8, burst := f 0x10 8, odraft := f 0x18 8, last := f 0x20 8, gr := f 0x28 8,
    en := (f 0x30 4).testBit 0, exh := (f 0x30 4).testBit 1, ovd := (f 0x30 4).testBit 2, rest := f 0x30 4 / 8, cnt := f 0x34 4 }

/-- FLAGS; its reserved bits go back as they were read (assumption 58). -/
def Pan.flags (p : Pan) : Nat := (if p.en then 1 else 0) + (if p.exh then 2 else 0) + (if p.ovd then 4 else 0) + 8 * p.rest

/-- 256 uJ in pJ. -/
def grantPj : Nat := 256000000

def Pan.refill (p : Pan) (refclk : Nat) : Pan :=
  { p with bal := min p.burst (p.bal + p.rate * (refclk - p.last : Nat)), last := refclk }
/-- EXH and OVD clear together where BALANCE has reached a grant (R355). -/
def Pan.clear (p : Pan) : Pan := if p.bal ≥ grantPj then { p with exh := false, ovd := false } else p
/-- What every operation ends with: EXH and OVD clear together, or the overdraft is spent. -/
def Pan.settle (p : Pan) : Pan :=
  if p.bal ≥ grantPj then p.clear
  else if p.en && p.exh && decide (p.bal ≤ -(p.odraft : Int)) then { p with ovd := true } else p

/-- Whether a function owns a confidential context (R361). -/
def State.ownsConf (s : State) (func : Nat) : Bool :=
  (List.range 4096).any (fun c => match s.ctxDesc c with
    | some d => d.valid && d.conf && d.func == func
    | none => false)

/-- A forced save is asked for of every resident workgroup that the test selects. One that has met R19 retires (R364). -/
def State.askSaves (s : State) (cause : Nat) (sel : Wg → Bool) : State :=
  let ask (w : Wg) : Wg :=
    if sel w && w.abort.isNone && w.save.isNone && !w.written then { w with save := some (cause, s.refclk) } else w
  { s with cores := kmap (fun _ co => { co with wgs := kmap (fun _ w => ask w) co.wgs }) s.cores }

/-- The values that a pan operation starts from: the record's, with BALANCE and GRANTED as the device holds them for the owner of a
confidential context (R361). GRANTED starts again where EN has been set since the last operation (R353). -/
def State.panValues (s : State) (func : Nat) (raw : Pan) : Pan :=
  let p := match kfind func s.panHold with
    | some h => { raw with bal := h.bal, gr := h.gr }
    | none => raw
  if p.en && !s.panEn.contains func then { p with gr := 0 } else p

/-- What an operation leaves goes to the record; BALANCE and GRANTED are held where the function owns a confidential context. -/
def State.panStore (s : State) (func pa : Nat) (q : Pan) : State :=
  let own := s.ownsConf func
  let s := if own then s
    else (s.physWrite pa (bytesOfNat 8 (q.bal % 2 ^ 64).toNat)).physWrite (pa + 0x28) (bytesOfNat 8 q.gr)
  let s := (s.physWrite (pa + 0x20) (bytesOfNat 8 q.last)).physWrite (pa + 0x30) (bytesOfNat 4 q.flags ++ bytesOfNat 4 q.cnt)
  { s with panEn := if q.en then sins func s.panEn else sdel func s.panEn,
           panHold := if own then kput func { bal := q.bal, gr := q.gr } s.panHold else kdel func s.panHold }

/-- One operation on a function's pan: the refill, which may clear EXH and OVD by itself (R355), then `f`, which answers what the
operation decided. A direct draw (`draw`) from a pan with EN = 0 leaves the record alone (R364). -/
def State.panOp (s : State) (func : Nat) (f : Pan → Pan × Bool) (draw : Bool := false) : State × Bool :=
  if func = 0 then (s, true)
  else
    let pa := (s.sysreg 0x11 0).toNat + 64 * func
    match s.physRead pa 64 with
    | (s, none) => (s, true)
    | (s, some (b, _)) =>
      let p := s.panValues func (Pan.ofNat (natOfBytes b))
      if draw && !p.en then (s, true)
      else
        let p := (p.refill s.refclk).clear
        let r := f p
        let q := r.1.settle
        let s := s.panStore func pa q
        let s := if (q.exh && !p.exh) || (q.ovd && !p.ovd) then (s.msix func 2).msix 0 2 else s
        (if q.ovd && !p.ovd then s.askSaves 1 (fun w => w.func == func) else s, r.2)

/-- A grant, or its refusal (R354, R355). -/
def Pan.grant (p : Pan) : Pan × Bool :=
  if !p.en then (p, true)
  else if p.bal ≥ grantPj then ({ p with bal := p.bal - grantPj, gr := (p.gr + grantPj) % 2 ^ 64 }, true)
  else ({ p with exh := true, cnt := (p.cnt + 1) % 2 ^ 32 }, false)
/-- A direct draw. -/
def Pan.draw (n : Nat) (p : Pan) : Pan × Bool :=
  (if p.en then { p with bal := p.bal - n, gr := (p.gr + n) % 2 ^ 64 } else p, true)

def Core.grantOf (co : Core) (func : Nat) : GrantRec := (kfind func co.grants).getD { rem := 0, debt := 0 }
def State.modGrant (s : State) (core func : Nat) (f : GrantRec → GrantRec) : State :=
  s.modCore core (fun co => { co with grants := kput func (f (co.grantOf func)) co.grants })

def execGrant (core func : Nat) (s : State) : Out :=
  .next (
    if ((s.core core).grantOf func).debt = 0 then s
    else match s.panOp func Pan.grant with
      | (s, true) => s.modGrant core func (fun g => { rem := grantPj - g.debt, debt := g.debt - grantPj })
      | (s, false) => s)

/-- A core's report while EXH is set; without a debt it is a refill check. -/
def State.reportDebt (s : State) (core func : Nat) : State :=
  if s.panRefuses func then
    let d := ((s.core core).grantOf func).debt
    let s := (s.panOp func (fun p => ({ p with bal := p.bal - d }, true))).1
    if d = 0 then s else s.modGrant core func (fun g => { g with debt := 0 })
  else s

def execDebtReport (core func : Nat) (s : State) : Out := .next (s.reportDebt core func)

/-- RETURN: no workgroup of the function is left on the core (R354). -/
def State.returnGrant (s : State) (core func : Nat) : State :=
  if (kvals (s.core core).wgs).any (fun w => w.func == func) then s
  else match kfind func (s.core core).grants with
    | none => s
    | some g =>
      ((s.panOp func (fun p => (if p.en then { p with bal := p.bal + g.rem - g.debt } else p, true))).1).modCore core (fun co =>
        { co with grants := kdel func co.grants })

/-! ## Flushes (R350) -/

def State.addAccount (s : State) (ctx n : Nat) : State :=
  { s with accounts := kset 0 ctx ((kget 0 ctx s.accounts + n) % 2 ^ 64) s.accounts }
def State.flushSlot (s : State) (c w : Nat) : State :=
  match s.wg? c w with
  | none => s
  | some x => (s.setWg c w { x with flushed := x.cum }).addAccount x.ctx (x.cum - x.flushed)
def State.flushAll (s : State) : State :=
  (s.cores.flatMap (fun c => (kkeys c.2.wgs).map (fun w => (c.1, w)))).foldl (fun s e => s.flushSlot e.1 e.2) s

/-! ## INTERVAL_END (R350, R352, R361) -/

def domainCap (d : Nat) : Nat := if d = 4 then 4 * 8601600000 else 8601600000

/-- The function of a context. -/
def State.ctxFunc (s : State) (ctx : Nat) : Nat := match s.ctxDesc ctx with
  | some d => d.func
  | none => 0

/-- DOMAIN_SETTLEMENT of one domain, whose interval closed as `x` says. -/
def State.settleDomain (s : State) (d : Nat) (x : Domain) : State :=
  let r0 : Int := ((1000 * x.meas : Nat) : Int) - x.dyn
  let r := (r0 / 1000).toNat
  let s := if r0 / 1000 < 0 then
      s.log { kind := 4, die := if d = 4 then 0xFFFF else d, core := 0xFFFF, who := 0, addr := 0, val := (-(r0 / 1000)).toNat }
    else s
  let shares := x.slotAc.map (fun e => (e.1, r * e.2 / domainCap d))
  let s := shares.foldl (fun s e => ((s.addAccount e.1 e.2).panOp (s.ctxFunc e.1) (Pan.draw e.2) true).1) s
  { s with house := (s.house + (r - sumOf Prod.snd shares)) % 2 ^ 64 }

/-- Charges that came after their workgroup had retired go to its context's account and its pan, or to the house where the context
is gone (R461). -/
def State.settleLate (s : State) : State :=
  s.lateAcc.foldl (fun (s : State) (e : Nat × Nat) =>
    let pj := e.2 / 1000
    match s.ctxDesc e.1 with
    | some d => if d.valid then ((s.addAccount e.1 pj).panOp d.func (Pan.draw pj) true).1 else { s with house := (s.house + pj) % 2 ^ 64 }
    | none => { s with house := (s.house + pj) % 2 ^ 64 }) { s with lateAcc := [] }

/-- What the sensors have measured since the record was last brought up is added to it. -/
def Domain.measure (x : Domain) (n : Nat) : Domain := { x with meas := x.meas + n }
/-- The next interval starts. -/
def Domain.close (x : Domain) : Domain := { Domain.zero with last := x.meas }

/-- R361: every 10 ms the readings of confidential contexts are brought up to date, rounded down; the exact values stay held. A
function that has lost its last confidential context gets them exactly. -/
def State.confUpdate (s : State) : State :=
  let g := 10 ^ 9
  let s := { s with confAcc := kmap (fun _ v => v / g * g) s.accounts }
  s.panHold.foldl (fun (s : State) (e : Nat × PanHold) =>
    let own := s.ownsConf e.1
    let b := if own then e.2.bal / (g : Int) * g else e.2.bal
    let r := if own then e.2.gr / g * g else e.2.gr
    let pa := (s.sysreg 0x11 0).toNat + 64 * e.1
    let s := (s.physWrite pa (bytesOfNat 8 (b % 2 ^ 64).toNat)).physWrite (pa + 0x28) (bytesOfNat 8 r)
    { s with panHold := if own then kput e.1 e.2 s.panHold else kdel e.1 s.panHold }) s

def execIntervalEnd (measured : KMap Nat) (s : State) : Out :=
  .next (
    let xs := s.domains.mapIdx (fun d x => x.measure (kget 0 d measured))
    let s := { s with domains := xs.map Domain.close }
    let s := (xs.zipIdx).foldl (fun (s : State) e => s.settleDomain e.2 e.1) s.flushAll.settleLate
    if s.refclk % 1000000 = 0 then s.confUpdate else s)

/-! ## SENSOR_SAMPLE (R346, R360) -/

/-- Issue slots of 4 that the table of R360 leaves a die. -/
def throttleOf (hot : Int) (module_ : Nat) : Nat :=
  let byT := if hot ≥ 1000 then 1 else if hot ≥ 950 then 3 else 4
  if module_ > 2600000000000 then min 2 byT else byT

def execSensorSample (tiles : KMap Int) (substrate : Int) (s : State) : Out :=
  .next (
    let s := tiles.foldl (fun (s : State) (e : Nat × Int) => s.modCore e.1 (fun co => { co with temp := BitVec.ofInt 16 e.2 })) s
    let s := { s with substrate := BitVec.ofInt 16 substrate, sensed := true }
    { s with throttle := (List.range 4).map (fun d => throttleOf (s.hottest d) (sumOf Domain.last s.domains)) })

/-! ## STALL_SAMPLE (R339) -/

/-- Throttling holds the sequencers of a core back in this ac (R28, R360). -/
def State.throttled (s : State) (core : Nat) : Bool := decide (s.throttle.getD (core / 192) 4 ≤ s.now % 4)

/-- The crew has issued in the ac that ends, or in this one. -/
def Crew.justIssued (cr : Crew) (now : Nat) : Bool := match cr.lastIssue with
  | some n => decide (now ≤ n + 1)
  | none => false

/-- Why a crew does not issue, or 0: REASON, the flag blamed, and the PC of its producer. `wait`: the wait set of its next
instruction; `full`: the engine that it would queue on has no entry; `slow`: its stall distance has not elapsed. A NEXT is in
progress while its vote occupies the crew (R170). -/
def stallReason (s : State) (key : CrewKey) (cr : Crew) (wait : BitVec 12) (full slow : Bool) : Nat × Nat × W64 :=
  if cr.justIssued s.now then (0, 0xFF, 0)
  else if s.now < cr.voteTill then (8, 0xFF, 0)
  else if cr.park.isSome then (6, 0xFF, 0)
  else match cr.block with
    | .wait _ => (3, 0xFF, 0)
    | .drain _ _ _ _ _ | .gbar _ _ | .regroup _ _ _ _ _ => (7, 0xFF, 0)
    | .none =>
      match (bitsOf wait).find? (fun k => (cr.flag k).cnt != 0) with
      | some k => (2, k, (cr.flag k).pc)
      | none =>
        (if slow then 1 else if full then 9 else if s.throttled key.core then 5
         else if cr.pause ≠ 0 then 10 else 4, 0xFF, 0)

def stallRecord (key : CrewKey) (cr : Crew) (wg : Wg) (r : Nat × Nat × W64) : List Byte :=
  bytesOfNat 8 cr.pos.toNat ++ bytesOfNat 8 r.2.2.toNat ++ bytesOfNat 2 key.core ++ bytesOfNat 1 (sqByte key.slot) ++
    bytesOfNat 1 r.1 ++ bytesOfNat 2 wg.ctx ++ bytesOfNat 1 r.2.1 ++ bytesOfNat 1 0 ++ bytesOfNat 4 wg.launch ++ bytesOfNat 4 0

/-- The stall ring of a function observes a workgroup's context. -/
def State.stallRing (s : State) (func : Nat) (wg : Wg) : Bool :=
  wg.func == func && observes (s.sysreg 0x25 func) func wg.func wg.ctx wg.conf
/-- The ac is a multiple of the ring's interval (R339). -/
def State.stallTime (s : State) (func : Nat) : Bool := s.now % 2 ^ ((s.sysreg 0x25 func).extractLsb' 35 5).toNat == 0

/-- The next instruction of a crew, where its fetch buffer holds one. -/
def Crew.nextInstr (cr : Crew) : Option Instr :=
  match cr.fetchAt with
  | .word bs => match decodeBytes bs.length bs with
    | .ok (i, _) => some i
    | .error _ => none
  | _ => none

/-! ## LOAD_SAMPLE (R342) -/

def execLoadSample (key : CrewKey) (pc va level : Nat) (tlbMiss poison : Bool) (times : List Nat) (s : State) : Out :=
  .next (
    match (s.core key.core).samples.find? (fun x => x.pc.toNat == pc && x.va.toNat == va && x.level == level && x.tlb == tlbMiss &&
        x.poison == poison) with
    | none => s
    | some x =>
      (s.modCore key.core (fun co => { co with samples := co.samples.erase x })).profile 0 0x28
        [bytesOfNat 8 pc ++ bytesOfNat 8 va ++ bytesOfNat 2 x.ctx ++ bytesOfNat 2 key.core ++ bytesOfNat 1 level ++
          bytesOfNat 1 ((if tlbMiss then 1 else 0) + (if poison then 2 else 0)) ++ bytesOfNat 2 0 ++
          (List.range 4).flatMap (fun i => bytesOfNat 2 (min 65535 (times.getD i 0)))])

end Sys2Proof.Machine
end

