-- ==== Sys2Proof/Machine/Retire.lean ====
section
/-! DEFINITION. The end of a workgroup: retirement (R19), abort (R410, R411); and the stall sample (R339). -/

namespace Sys2Proof.Machine

open Sys2Proof

/-! ## Retirement (R19) -/

/-- R19's first two conditions: every thread has exited, and no command of the workgroup is left. -/
def State.mayRetire (s : State) (c w : Nat) (wg : Wg) : Bool :=
  wg.abort.isNone && wg.save.isNone &&
    wg.crews.all (fun sl => match s.crew? ⟨c, sl⟩ with
      | some cr => cr.live.isEmpty && cr.failures.isEmpty
      | none => true) && (s.core c).cmds.all (fun x => x.wg != w)

/-- The dirty bytes of the workgroup's context on its core are written back, and its stash windows unmapped (R19, R217). They set
out, each sector to be accepted in its own time, and what comes next waits for them (R273). -/
def State.writeBackWg (s : State) (c w : Nat) (wg : Wg) : State :=
  let a := accOf c w wg
  let s := (s.holdFor c).sweep a (fun l => l.ctx == a.ctx) false
  ((s.core c).windows.filter (fun e => e.2.wg == w)).foldl (fun s e => s.unmapWindow c e.1) s

def execRetirementWriteback (core wg : Nat) (s : State) : Out :=
  atWg s core wg (fun x =>
    if s.mayRetire core wg x && !x.written then (s.writeBackWg core wg x).modWg core wg (fun x => { x with written := true }) else s)

def Core.releaseWg (co : Core) (w : Nat) (x : Wg) : Core :=
  { co with cim := co.cim.map (fun m => if x.owns w m.owner then CimMac.zero else m),
            grainer := if x.owns w co.grainer then none else co.grainer,
            grainBusy := if x.owns w co.grainer then 0 else co.grainBusy }

/-- The unused output reservations of a node's workgroup are given back (R391). -/
def State.giveBack (s : State) (c : Nat) (x : Wg) : State :=
  match x.node with
  | none => s
  | some va =>
    match s.nodeGet x.ctx va.toNat with
    | (s, none) => s
    | (s, some d) =>
      let crews := x.crews.filterMap (fun sl => s.crew? ⟨c, sl⟩)
      (d.named va.toNat).foldl (fun s e =>
        match s.nodeGet x.ctx e.2 with
        | (s, none) => s
        | (s, some t) =>
          s.benchDrop x.ctx (e.2 + 0x20) (bytesOfNat 8 ((t.rsv + 2 ^ 64 - sumOf (fun cr => cr.outRes.getD e.1 0) crews) % 2 ^ 64))) s

/-- The slots, V file and scratchpad of a workgroup become free. -/
def Core.freeWg (co : Core) (w : Nat) (x : Wg) : Core :=
  { co with crews := co.crews.filter (fun e => !x.crews.contains e.1), wgs := kdel w co.wgs,
            cmds := co.cmds.filter (fun c => c.wg != w), windows := co.windows.filter (fun e => e.2.wg != w) }

/-- What the Bench does at the end of a workgroup: the launch's counts, its queue's deficit (R383), its core's grant (R354,
R355), and completions (R20, R387, R392). -/
def State.benchRetire (s : State) (c : Nat) (x : Wg) (aborted : Bool) : State :=
  let s := s.modLaunch x.launch (fun l =>
    { l with live := l.live - 1, energy := l.energy + x.cum, retired := l.retired + 1, aborted := l.aborted || aborted })
  let s := (s.reportDebt c x.func).returnGrant c x.func
  match kfind x.launch s.launches with
  | none => s
  | some l =>
    let s := s.modQ l.func l.queue (fun q => { q with dc := q.dc + x.est - ((x.cum + 999999) / 1000000 : Nat) })
    ((s.launchCheck l.id).nodesDone.holdCheck l.func l.queue).putQueueState l.func l.queue

def State.retire (s : State) (c w : Nat) (x : Wg) (aborted : Bool) : State :=
  let s := ((s.modCore c (·.releaseWg w x)).flushSlot c w).giveBack c x
  (s.modCore c (·.freeWg w x)).benchRetire c x aborted

def execWorkgroupRetirement (core wg : Nat) (s : State) : Out :=
  atWg s core wg (fun x => if s.mayRetire core wg x && x.written then s.retire core wg x false else s)

/-! ## Abort (R410, R411) -/

def abortRecord (core : Nat) (x : Wg) (i : AbortInfo) : FaultRec :=
  { cause := i.cause, flags := if i.eng then 8 else 0, core := core, sqslot := sqByte i.slot, a := i.earg.toNat, pc := i.epc.toNat,
    b := i.ethr.toNat, launch := x.launch, wgidx := x.wgidx, ctx := x.ctx, level := 0, c := i.orig, at_ := i.at_ }

/-- The workgroup stops where it stands, and retires without R19's first condition. -/
def State.abortNow (s : State) (core w : Nat) (x : Wg) (i : AbortInfo) : State :=
  let s := ((s.errorRecord (abortRecord core x i) x.conf).modCore core (fun co =>
    { co with cmds := co.cmds.filter (fun c => c.wg != w) })).writeBackWg core w x |>.landCore core
  match s.wg? core w with
  | some x => s.retire core w x true
  | none => s

def execWorkgroupAbort (core wg : Nat) (s : State) : Out :=
  atWg s core wg (fun x => match x.abort with
    | some i => s.abortNow core wg x i
    | none => s)

/-! ## STALL_SAMPLE (R339) -/

/-- The engine whose entries an instruction takes (R295). -/
def Instr.engine (slot : Nat) : Instr → Option Nat
  | .copy _ _ _ _ _ _ _ | .copy2d _ _ _ _ _ _ _ => some (seqOf slot)
  | .cld _ _ _ _ _ | .mma _ _ _ _ _ _ _ _ => some 4
  | .gmv _ _ _ => some 5
  | _ => none

/-- The stall distance of a crew's next instruction has not elapsed (R74). -/
def Crew.slow (cr : Crew) (h : Option Hdr) (now : Nat) : Bool := match cr.lastIssue with
  | some n => decide (now < n + max 1 ((h.map (fun h => h.sd.toNat)).getD 0))
  | none => false

def State.stallOf (s : State) (key : CrewKey) (cr : Crew) : Nat × Nat × W64 :=
  let i := cr.nextInstr
  let h := i.bind Instr.hdr?
  stallReason s key cr ((h.map Hdr.wait).getD 0)
    (match i.bind (Instr.engine key.slot) with
      | some e => (s.core key.core).engineFull cr e
      | none => false) (cr.slow h s.now)

/-- The crews of a sequencer with their workgroups, in slot order. -/
def State.seqCrews (s : State) (core seq : Nat) : List (Nat × Crew × Wg) :=
  ((s.core core).slotsOf seq).filterMap (fun sl => match s.crew? ⟨core, sl⟩ with
    | some cr => (s.wg? core cr.wg).map (fun wg => (sl, cr, wg))
    | none => none)

/-- The next crew that a function's ring samples, in slot order after the last one. -/
def State.stallNext (s : State) (core seq func : Nat) : Option (Nat × Crew × Wg) :=
  let l := (s.seqCrews core seq).filter (fun e => s.stallRing func e.2.2)
  match kfind func ((s.core core).seqs.getD seq Seq.zero).sampled with
  | none => l.head?
  | some last => match l.find? (fun e => decide (last < e.1)) with
    | some e => some e
    | none => l.head?

/-- The functions with crews on a sequencer. -/
def State.seqFuncs (s : State) (core seq : Nat) : List Nat := (s.seqCrews core seq).foldl (fun l e => sins e.2.2.func l) []

/-- A ring's sample of a sequencer, where this ac is a multiple of the ring's interval. -/
def State.sampleStall (core seq : Nat) (s : State) (func : Nat) : State :=
  match s.stallNext core seq func with
  | none => s
  | some (sl, cr, wg) =>
    if s.stallTime func then
      (s.modCore core (·.modSeq seq (fun q => { q with sampled := kput func sl q.sampled }))).profile func 0x24
        [stallRecord ⟨core, sl⟩ cr wg (s.stallOf ⟨core, sl⟩ cr)]
    else s

/-- One sample for every ring that observes a crew of the sequencer. -/
def execStallSample (core seq : Nat) (s : State) : Out := .next ((s.seqFuncs core seq).foldl (State.sampleStall core seq) s)

end Sys2Proof.Machine
end

