-- ==== Sys2Proof/Machine/Save.lean ====
section
/-! DEFINITION. Forced pre-emption (R36, R300, R421-R423), restore (R305, R424), fenced cores and gang failure (R207, R431),
ECC errors (R229). -/

namespace Sys2Proof.Machine

open Sys2Proof

/-! ## The save image (R422, R423) -/

/-- A flag-table entry as 16 bytes (R118). -/
def FlagEntry.image (e : FlagEntry) : List Byte :=
  bytesOfNat 16 (e.pc.toNat * 2 ^ 64 + e.cnt * 2 ^ 60 + e.dreg.toNat * 2 ^ 52 + e.dn * 2 ^ 44 + e.dp.toNat * 2 ^ 41 +
    (if e.dq then 2 ^ 40 else 0) + (if e.pall then 2 ^ 39 else 0))

def Crew.maskBy (cr : Crew) (p : Thread → Bool) : Nat := (maskOf 64 ((List.range 64).filter (fun t => p (cr.thr t)))).toNat

def Block.bits : Block → Nat
  | .wait _ => 8
  | .gbar _ _ => 16
  | .regroup _ _ _ _ _ => 32
  | _ => 0

/-- The bytes 0x000 to 0x5FF of a per-crew block. -/
def Crew.imageHead (cr : Crew) (wg : Wg) : List Byte :=
  let w := match cr.block with
    | .wait w => some w
    | _ => none
  bytesOfNat 8 (0x600 + 256 * wg.kernel.vregs) ++ bytesOfNat 8 cr.hb.toNat ++ bytesOfNat 8 cr.pos.toNat ++ bytesOfNat 2 cr.cr ++
    bytesOfNat 2 cr.ss ++ bytesOfNat 2 cr.sid ++
    bytesOfNat 1 ((if cr.retry then 1 else 0) + (if cr.hmode then 2 else 0) + (if cr.park.isSome then 4 else 0) + cr.block.bits +
      (if cr.votePending then 64 else 0)) ++ zeros 1 ++
    bytesOfNat 4 cr.sweep.toNat ++ bytesOfNat 4 cr.abscnt.toNat ++ bytesOfNat 4 cr.fps.toNat ++ bytesOfNat 4 cr.cst.toNat ++
    bytesOfNat 8 (cr.maskBy Thread.held) ++ bytesOfNat 8 (match cr.park with | some p => p.mask.toNat | none => (cr.replay.getD 0).toNat) ++
    bytesOfNat 8 (cr.maskBy Thread.yld) ++ bytesOfNat 8 (cr.maskBy Thread.swp) ++
    (List.range 7).flatMap (fun i => bytesOfNat 8 (cr.maskBy (fun th => th.p.getLsbD i))) ++ bytesOfNat 8 cr.q.toNat ++
    (List.range 64).flatMap (fun t => bytesOfNat 1 (cr.thr t).holdCnt) ++
    (List.range 64).flatMap (fun t => bytesOfNat 2 (cr.thr t).br.toNat) ++
    (List.range 64).flatMap (fun t => bytesOfNat 4 (cr.thr t).tidx.toNat) ++
    (List.range 12).flatMap (fun k => (cr.flag k).image) ++
    bytesOfNat 8 cr.epc.toNat ++ bytesOfNat 8 cr.ecause.toNat ++ bytesOfNat 8 cr.earg.toNat ++ bytesOfNat 8 cr.ethr.toNat ++
    (List.range 4).flatMap (fun i => bytesOfNat 8 (cr.esave.getD i 0).toNat) ++
    bytesOfNat 4 (match w with
      | some w => (maskOf 32 ((List.range w.first.length).filter (fun i => ((w.first.getD i none)).isSome))).toNat
      | none => 0) ++ bytesOfNat 4 (match w with | some w => w.ticks.getD 0 | none => 0) ++ bytesOfNat 4 cr.gbarArr.toNat ++
    zeros 4 ++ bytesOfNat 4 cr.batchCnt.toNat ++ bytesOfNat 4 cr.openSet.length ++
    (List.range 16).flatMap (fun i => bytesOfNat 1 (cr.batches.getD i []).length) ++ zeros 8 ++
    (List.range 4).flatMap (fun i => match cr.failures[i]? with
      | some f => bytesOfNat 8 f.cause ++ bytesOfNat 8 f.pc.toNat
      | none => zeros 16) ++ (List.range 4).flatMap (fun i => bytesOfNat 2 (cr.outRes.getD i 0)) ++ zeros 8 ++
    bytesOfNat 4 cr.cidx ++ bytesOfNat 4 wg.wgidx ++ bytesOfNat 4 wg.nwg.toNat ++ bytesOfNat 4 wg.launch ++ bytesOfNat 4 wg.ctx ++
    (List.range 4).flatMap (fun i => bytesOfNat 4 ((cr.groups.getD i none).getD 0xFFFFFFFF)) ++ zeros 12 ++
    (List.range 62).flatMap (fun r => bytesOfNat 4 (cr.landedS r).toNat) ++ zeros 8 ++
    (if cr.hmode then
      bytesOfNat 8 cr.frame.hb.toNat ++ bytesOfNat 8 cr.frame.pos.toNat ++ bytesOfNat 2 cr.frame.cr ++ bytesOfNat 2 cr.frame.ss ++
        bytesOfNat 2 cr.frame.sid ++ zeros 2 ++ bytesOfNat 8 cr.frame.held.toNat
     else zeros 32) ++ zeros 224

def Crew.image (cr : Crew) (wg : Wg) : List Byte :=
  cr.imageHead wg ++ (List.range wg.kernel.vregs).flatMap (fun v => (List.range 64).flatMap (fun t =>
    bytesOfNat 4 (cr.landedV t v).toNat))

def reloadImage (m : CimMac) (b : Nat) : List Byte :=
  match kfind b m.reload with
  | some r => bytesOfNat 8 r.va.toNat ++ bytesOfNat 4 r.stride.toNat ++ bytesOfNat 4 r.row
  | none => zeros 16

/-- A window: its VA, STASHMAP's Sp, and a flags word of 1. -/
def windowImage (k : Kernel) (w : Window) : List Byte :=
  bytesOfNat 8 w.va.toNat ++ bytesOfNat 4 ((w.off - k.stashAt) / 128 + (w.len / 128 - 1) * 2 ^ 11) ++ bytesOfNat 4 1

def up1kB (b : List Byte) : List Byte := b ++ zeros (up1k b.length - b.length)

/-- Bytes of an image. -/
def imageSize (k : Kernel) (ncmd : Nat) : Nat := up1k (0xA00 + 32 * ncmd) + k.alloc + k.crews * (0x600 + 256 * k.vregs)

/-- The image of a workgroup. -/
def Saved.image (v : Saved) : List Byte :=
  let w := v.wg
  let k := w.kernel
  up1kB (bytesOfNat 4 0x4953575A ++ bytesOfNat 2 1 ++ bytesOfNat 1 k.crews ++
    bytesOfNat 1 ((if w.conf then 1 else 0) + (if v.launch.gang then 2 else 0) + (if v.dbg then 4 else 0) + (if v.cause = 1 then 8 else 0)) ++
    bytesOfNat 8 (imageSize k v.cmds.length) ++ bytesOfNat 2 w.ctx ++ bytesOfNat 1 k.vregs ++ bytesOfNat 1 k.sregs ++
    bytesOfNat 4 w.wgidx ++ bytesOfNat 4 w.launch ++ bytesOfNat 4 k.alloc ++ bytesOfNat 8 w.cum ++ bytesOfNat 8 w.flushed ++
    bytesOfNat 1 v.macs.length ++ bytesOfNat 1 (if v.grain.isSome then 1 else 0) ++ bytesOfNat 2 v.cmds.length ++ zeros 12 ++
    v.launch.record ++ (List.range 8).flatMap (fun i => bytesOfNat 1 ((v.macs[i]?.bind CimMac.fmt).getD 0)) ++ zeros 120 ++
    (List.range 8).flatMap (fun i => match v.macs[i]? with
      | some m => (List.range 8).flatMap (reloadImage m)
      | none => zeros 128) ++
    (List.range 64).flatMap (fun i => match v.wins.find? (fun x => x.handle == i) with
      | some x => windowImage k x
      | none => zeros 16) ++ zeros 256 ++ v.cmds.flatMap (fun c => (Config.cmdImage c.id ++ zeros 32).take 32)) ++
    kbytes 0 w.scr 0 k.alloc ++ v.crews.flatMap (fun cr => cr.image w)

/-! ## FORCED_PREEMPTION, ENGINE_DRAIN_TIMEOUT (R36, R121, R300, R421) -/

/-- Whether the save may be taken: nothing is in flight but what is parked. -/
def State.saveReady (s : State) (c w : Nat) (x : Wg) : Bool :=
  (s.core c).cmds.all (fun cmd => cmd.wg != w || !cmd.runs) &&
    x.crews.all (fun sl => match s.crew? ⟨c, sl⟩ with
      | some cr => cr.owed.all (fun o => o.due.isSome || o.link)
      | none => true)

/-- A crew as it is saved: everything owed has landed, it stands at a REGROUP that has not exchanged (R153), and a pause is over
(R320, R334). -/
def Crew.settle (cr : Crew) : Crew := { ((cr.landIf (fun _ => true)).landLinks).standRegroup with pause := 0 }

/-- The macros of a workgroup in the order in which they were granted. -/
def Core.macsOf (co : Core) (w : Nat) (x : Wg) : List CimMac :=
  (co.cim.filter (fun m => x.owns w m.owner)).mergeSort (fun a b => decide (a.stamp ≤ b.stamp))

/-- The image as it stands in the pool (R421, R426). -/
def Saved.pooled (v : Saved) : List Byte := if v.wg.conf then hideBytes v.wg.ctx (imageUnit v.off v.index) v.image else v.image

/-- The index block of a launch whose gang has failed, and when it failed (R431). -/
def Launch.failIndex (l : Launch) : Option Nat := match l.st with
  | .failing _ _ ix _ => ix
  | _ => none
def Launch.saveTime (l : Launch) (now : Nat) : Nat := match l.st with
  | .failing _ _ _ since => since
  | _ => now

/-- What the commands of a workgroup have sent has been accepted: their numbers end with the save. -/
def State.landCmds (s : State) (c w : Nat) : State :=
  ((s.core c).cmds.filter (fun cmd => cmd.wg == w)).foldl (fun s cmd => s.landEng c cmd.id true) s

/-- The image is written at the workgroup's cost (R356), and its slots are freed. -/
def State.saveTo (s : State) (c w : Nat) (x : Wg) (cause off : Nat) : State :=
  let a := accOf c w x
  let s := ((((s.landCmds c w).modCrewsOf c w Crew.settle).fenceRel a .dev).sweep a (fun l => l.ctx == x.ctx) true).flushSlot c w
  match s.wg? c w, kfind x.launch s.launches with
  | some x, some l =>
    let co := s.core c
    let cmds := co.cmds.filter (fun cmd => cmd.wg == w)
    let v : Saved :=
      { func := x.func, off := off, size := imageSize x.kernel cmds.length, launch := l, wg := { x with frac := 0, save := none },
        crews := x.crews.filterMap (fun sl => s.crew? ⟨c, sl⟩), macs := co.macsOf w x,
        grain := if x.owns w co.grainer then co.grainer else none, cmds := cmds,
        wins := ((kvals co.windows).filter (fun v => v.wg == w)).map (fun v => { v with lines := [] }),
        cause := cause, at_ := l.saveTime s.refclk, dbg := cause == 0 || x.crews.any (fun sl => co.stopped sl), index := l.failIndex }
    let put (v : Saved) : State := s.physStore a (piecesOf (s.poolPa x.func off) v.pooled.length) v.pooled
    -- the image carries the CUM that its own writes have been charged to, and a restored workgroup goes on from it (R349)
    let v := { v with wg := { v.wg with cum := (((put v).wg? c w).getD x).cum } }
    let s := put v
    let s := { s with saved := kput s.nextSaved v s.saved, nextSaved := s.nextSaved + 1 }
    let s := (s.modCore c (fun co => (co.releaseWg w x).freeWg w x)).modLaunch x.launch (fun l => { l with live := l.live - 1 })
    (s.returnGrant c x.func).launchCheck x.launch
  | _, _ => s

/-- The abort of a workgroup for which the pool has no room. -/
def State.noRoom (s : State) (c w : Nat) (x : Wg) : State :=
  (s.modWg c w (fun y => { y with save := none })).abortWg c w
    { cause := 0x25, orig := 0, epc := 0, earg := 0, ethr := 0, slot := x.crews.headD 0, eng := false, at_ := s.refclk }

/-- The save, or the abort where the pool has no room. -/
def State.saveNow (s : State) (c w : Nat) (x : Wg) (cause : Nat) : State :=
  let ncmd := ((s.core c).cmds.filter (fun cmd => cmd.wg == w)).length
  match s.poolFit x.func (imageSize x.kernel ncmd) with
  | some off => s.saveTo c w x cause off
  | none => s.noRoom c w x

/-- The request is noted, and the save is taken at once where nothing is in flight. -/
def execForcedPreemption (core wg : Nat) (cause : Nat) (s : State) : Out :=
  atWg s core wg (fun x =>
    if x.abort.isSome || x.written then s
    else
      let why := match x.save with
        | some r => r
        | none => (cause, s.refclk)
      let s := s.modWg core wg (fun y => { y with save := some why })
      if s.saveReady core wg x then s.saveNow core wg x why.1 else s)

/-- 20 us after the request, the commands that still run stop at their unit boundary. -/
def execEngineDrainTimeout (core wg : Nat) (s : State) : Out :=
  atWg s core wg (fun x => match x.save with
    | some (_, t) =>
      if t + 2000 ≤ s.refclk then
        s.modCore core (fun co => { co with cmds := co.cmds.map (fun c => if c.wg = wg ∧ c.runs then { c with st := .stopped } else c) })
      else s
    | none => s)

/-! ## RESTORE (R305, R424) -/

/-- A saved crew as it goes on: what was parked is replayed. -/
def Crew.resumed (cr : Crew) (w : Nat) : Crew :=
  let cr := { cr.undoRegroup with wg := w, ready := 0, voteTill := 0, lastIssue := none, fbuf := [] }
  match cr.park with
  | none => cr
  | some p => { cr with park := none, replay := match cr.block with
      | .none => if p.fetch || !p.reload.isEmpty then cr.replay else some p.mask
      | _ => none }

/-- Old slots to new ones. -/
def newSlot (old new : List Nat) (sl : Nat) : Nat := (new[old.idxOf sl]?).getD sl
def Owner.moved (o : Owner) (old new : List Nat) (w : Nat) : Owner := match o with
  | .crew sl => .crew (newSlot old new sl)
  | .group _ g => .group w g

/-- As many macros as the workgroup held, its Grainer, and window entries for its windows are free (R424; assumption 59). -/
def Core.macsFree (co : Core) (v : Saved) : Bool :=
  decide (v.macs.length ≤ co.freeMacs.length) && (v.grain.isNone || co.grainer.isNone) &&
    decide (co.windows.length + v.wins.length ≤ 64)

/-- The core that takes a saved workgroup (R424), in the order of R26. -/
def State.placeSaved (s : State) (v : Saved) (l : Launch) : Option (Nat × Nat) :=
  let est := l.estimate - v.wg.cum / 10 ^ 6
  (s.partsFor l l.rec_.parts).findSome? (fun p =>
    ((s.rotated p).find? (fun c => s.fits c v.wg.kernel && s.headroom c est && (s.core c).macsFree v)).map (fun c => (p, c)))

/-- A saved command on a core whose next command id is `top`. -/
def Cmd.restored (cmd : Cmd) (top w slot : Nat) : Cmd :=
  { cmd with id := top + cmd.id, slot := slot, wg := w, engine := if cmd.engine < 4 then seqOf slot else cmd.engine,
             rd := none, wr := none, early := [], st := match cmd.st with
               | .stopped => .ready
               | x => x }

/-- The command ids that a crew still keeps. -/
def Crew.cmdIds (cr : Crew) : List Nat := cr.openSet ++ cr.batches.flatten ++ cr.failures.filterMap EngFail.cmd
def Crew.renumber (cr : Crew) (top : Nat) : Crew :=
  { cr with openSet := cr.openSet.map (top + ·), batches := cr.batches.map (·.map (top + ·)),
            failures := cr.failures.map (fun f => { f with cmd := f.cmd.map (top + ·) }) }

/-- The macros of a saved workgroup take the lowest-numbered free ones, by grant order. -/
def Core.takeMacs (co : Core) (v : Saved) (stamp : Nat) (move : Owner → Owner) : Core :=
  (co.freeMacs.zip v.macs).foldl (fun co e => co.macMod e.1 (fun _ =>
    { CimMac.zero with owner := e.2.owner.map move, fmt := e.2.fmt, reload := e.2.reload, name := e.2.name, stamp := stamp })) co

/-- Scratchpad, CIM macros, commands, then crews. -/
def State.restoreOn (s : State) (ix : Nat) (v : Saved) (l : Launch) (p c : Nat) : State :=
  let co := s.core c
  let w := (kfree 64 co.wgs).getD 0
  let r := placeCrews co.crews (v.crews.map (·.resumed w))
  let old := v.wg.crews
  let move (o : Owner) : Owner := o.moved old r.2 w
  let wins := (v.wins.foldl (fun (m : KMap Window) x => kput ((kfree 64 m).getD 0) { x with wg := w } m) co.windows)
  let cmds := v.cmds.map (fun cmd => cmd.restored co.nextCmd w (newSlot old r.2 cmd.slot))
  let wg := { v.wg with crews := r.2, part := p, launch := l.id, est := v.wg.est, cest := min l.estimate (s.dieCap (c / 192)), save := none }
  let ids := (v.cmds.map Cmd.id ++ v.crews.flatMap Crew.cmdIds).foldl max 0 + 1
  let s := s.modCore c (fun co =>
    { (co.takeMacs v s.fresh move) with
      wgs := kput w wg co.wgs,
      crews := kmap (fun sl cr => if r.2.contains sl then cr.renumber co.nextCmd else cr) r.1,
      grainer := match v.grain with
        | some o => some (move o)
        | none => co.grainer,
      windows := wins, cmds := co.cmds ++ cmds, nextCmd := co.nextCmd + ids })
  let s := { s with saved := kdel ix s.saved, rotation := kput p c s.rotation }
  let s := s.modLaunch l.id (fun l => { l with live := l.live + 1 })
  let s := State.reload (accOf c w wg) w ⟨c, r.2.headD 0⟩ (v.macs.flatMap (fun m => (List.range 8).map (fun b => (m.name, b)))) s
  r.2.foldl (fun s sl => s.undrain ⟨c, sl⟩) s

/-- A saved workgroup that is no part of a failed gang's dump may be restored where its queue and its pan let it be dispatched
(R355, R379, R387, R424). -/
def State.restorable (s : State) (v : Saved) : Option (Launch × Nat × Nat) :=
  match kfind v.wg.launch s.launches with
  | none => none
  | some l =>
    if v.index.isSome || !s.queueAllows l || !l.started then none else (s.placeSaved v l).map (fun e => (l, e.1, e.2))

def execRestore (ix : Nat) (s : State) : Out :=
  match kfind ix s.saved with
  | none => .next s
  | some v => .next (match s.restorable v with
    | some (l, p, c) => s.restoreOn ix v l p c
    | none => s)

/-! ## GANG_RESERVE (R386), for a new gang and for one whose saved parts a restart has re-admitted (R434) -/

/-- The partitions of a gang with the workgroups that each is to take: those not yet dispatched and those saved. -/
def State.gangNeeds (s : State) (l : Launch) : List (Nat × Nat) :=
  let ps := l.rec_.parts
  let k := max 1 ((l.nwg + ps.length - 1) / ps.length)
  (l.gangParts.zipIdx).map (fun e =>
    (e.1.1, e.1.2.2 - e.1.2.1 + ((s.savedOf l.id).filter (fun v => v.2.wg.wgidx / k == e.2)).length))

/-- The saved workgroups of a partition go back to cores reserved for it, where the macros that they hold are free. -/
def State.restoreParts (l : Launch) (p : Nat) : List (Nat × Saved) → List Nat → State → State
  | (ix, v) :: vs, c :: cs, s =>
    State.restoreParts l p vs cs (if (s.core c).macsFree v then s.restoreOn ix v l p c else s)
  | _, _, s => s

/-- A gang with every part reserved is committed: saved parts are restored, then the others start. -/
def State.gangStart (s : State) (l : Launch) (res : List GangRes) : State :=
  let ps := l.rec_.parts
  let k := max 1 ((l.nwg + ps.length - 1) / ps.length)
  let mine := s.savedOf l.id
  let s := s.modLaunch l.id (fun l => { l with st := .running })
  let s := (res.zipIdx).foldl (fun s e => State.restoreParts l e.1.part (mine.filter (fun v => v.2.wg.wgidx / k == e.2)) e.1.cores s) s
  s.gangCommit l (res.zipIdx.map (fun e =>
    { e.1 with cores := e.1.cores.drop (mine.filter (fun v => v.2.wg.wgidx / k == e.2)).length }))

/-- Whether a gang may be tried. -/
def State.gangMay (s : State) (l : Launch) : Bool :=
  l.gang && s.atHead l && (if (s.savedOf l.id).isEmpty then s.mayDispatch l else s.queueAllows l) && decide (l.retryAt ≤ s.refclk) &&
    (s.savedOf l.id).all (fun v => v.2.index.isNone)

/-- A gang reserves what it can; one with every part reserved starts. -/
def State.gangTry (s : State) (l : Launch) : State :=
  if (s.gangNeeds l).any (fun e => decide (e.2 > (s.coresOf e.1).length * l.kernel.perCore)) then
    (s.modLaunch l.id (fun l => { l with st := .waiting })).finishLaunch { l with st := .waiting } 2
  else
    let s := match l.st with
      | .waiting => s.modLaunch l.id (fun l => { l with st := .reserved [] s.refclk })
      | _ => s
    let s := State.reserveParts l.id ((s.gangNeeds l).map (fun e => (e.1, 0, e.2))) s
    match kfind l.id s.launches with
    | none => s
    | some l => match l.st with
      | .reserved res since =>
        if res.length = l.gangParts.length ∧ s.refclk ≤ since + 10000 then s.gangStart l res
        else if res = [] then s.modLaunch l.id (fun l => { l with st := .waiting })
        else s
      | _ => s

/-- Something of a queue's oldest waiting launch can be placed now: its next workgroup, whose pan grants, or room for its gang. -/
def State.goes (s : State) (l : Launch) : Bool :=
  (s.placeable l).isSome || (l.gang && !l.started && s.gangMay l && decide ((s.gangTry l).launches ≠ s.launches))

/-- The queues of the present round: every waiting queue down to the highest class in which one places (R383). -/
def State.roundKeys (s : State) : List Nat :=
  let ws := s.waitingQueues
  let top : Nat := ((ws.filter (fun e => s.goes e.2.2)).map (fun e => e.2.2.cls)).foldl max 0
  (ws.filter (fun e => decide (top ≤ e.2.2.cls))).foldl (fun l e => sins (visitKey e) l) []

/-- The queue that the rotation comes to next. -/
def State.dueVisit (s : State) : Option Nat :=
  let ks := s.roundKeys
  match ks.find? (fun k => decide (s.visit < k)) with
  | some k => some k
  | none => ks.head?

/-- A gang is tried at its queue's visit (R386); once it reserves, it goes on. -/
def State.gangTurn (s : State) (l : Launch) : Bool := l.committed || s.dueVisit == some (visitKey (l.func, l.queue, l))

def execGangReserve (launch : Nat) (s : State) : Out :=
  atLaunch s launch (fun l =>
    if !s.gangMay l || !s.gangTurn l then s
    else (if l.committed then s else { s with visit := visitKey (l.func, l.queue, l) }).gangTry l)

/-! ## QUEUE_VISIT (R383, R386) -/

/-- A queue's visit: a quantum, then its oldest waiting launch's workgroups, or a try of its gang. -/
def execQueueVisit (func q : Nat) (s : State) : Out :=
  .next (match s.waitingLaunch func q with
    | none => s
    | some l =>
      if s.dueVisit ≠ some (visitKey (func, q, l)) then s
      else
        let quan := s.quantum func q
        let s := { s with visit := visitKey (func, q, l) }.modQ func q (fun x => { x with dc := min (x.dc + quan) (4 * quan) })
        if l.gang && !l.started then (if s.gangMay l then s.gangTry l else s)
        else (State.visitLoop func q quan 49152 s).settleDc func q)

/-! ## Gang failure (R431) -/

/-- The resident workgroups of a launch: core and meter slot. -/
def State.residents (s : State) (id : Nat) : List (Nat × Nat) :=
  s.cores.flatMap (fun c => c.2.wgs.filterMap (fun w => if w.2.launch = id then some (c.1, w.1) else none))

/-- A committed gang fails: the index block is placed, the parts that are saved already come under it, and every other member is
asked to be saved, after the drain of R36. `lost`: the fenced core cannot write. -/
def State.gangFail (s : State) (l : Launch) (core : Nat) (lost : Bool) : State :=
  let part := match ((kvals (s.core core).wgs).find? (fun w => w.launch == l.id)) with
    | some w => l.rec_.parts.idxOf w.part
    | none => 0
  let ix := s.poolFit l.func 4096
  let s := s.modLaunch l.id (fun l => { l with st := .failing core part ix s.refclk })
  let s := if ix.isNone then s else (s.savedOf l.id).foldl (fun s e =>
    let v := { e.2 with index := ix, at_ := s.refclk }
    { s with saved := kput e.1 v s.saved }.physWrite (s.poolPa v.func v.off) v.pooled) s
  ((s.residents l.id).foldl (fun s e =>
    match s.wg? e.1 e.2 with
    | none => s
    | some x =>
      if x.abort.isSome || x.written then s
      else if lost && e.1 = core then
        s.abortWg e.1 e.2 { cause := 0x22, orig := 0, epc := 0, earg := 0, ethr := 0, slot := x.crews.headD 0, eng := false, at_ := s.refclk }
      else if ix.isNone then s.noRoom e.1 e.2 x
      else s.modWg e.1 e.2 (fun y => { y with save := some (y.save.getD (2, s.refclk)) })) s).launchCheck l.id

/-! ## CORE_FENCE (R207, R281) -/

/-- The lines that the core holds exclusively are recalled with their data, or else poisoned. -/
def State.giveUp (s : State) (core : Nat) (readable : Bool) : State :=
  ((s.core core).lines.filter Line.excl).foldl (fun s l =>
    if readable then s.recall Acc.part l.pa
    else { s with poison := (List.range 4).foldl (fun p q => sins (4 * l.pa + q) p) s.poison }.setOwner l.pa none) s

/-- A reservation of a gang on a fenced core goes with the part that held it (R207). -/
def Launch.withoutCore (l : Launch) (core : Nat) : Launch := match l.st with
  | .reserved res since => { l with st := .reserved (res.filter (fun r => !r.cores.contains core)) since }
  | _ => l

/-- The writes that the core has on their way are lost with it. The members of a gang that wait to be saved are saved where the core
can still write (R431). -/
def State.fenceCore (s : State) (core : Nat) (readable : Bool) : State :=
  let s := ({ s with flight := s.flight.filter (fun f => f.core != core) }.giveUp core readable).modCore core (fun co =>
    { co with fenced := true, l1 := [], windows := kmap (fun _ w => { w with lines := [] }) co.windows })
  let s := s.log { kind := 6, die := core / 192, core := core, who := 0, addr := 0, val := 0 }
  let s := { s.msix 0 6 with launches := kmap (fun _ l => l.withoutCore core) s.launches }
  let gangs := (kvals s.launches).filter (fun l => l.gang && l.ordinary && (s.residents l.id).any (fun e => e.1 == core))
  let s := gangs.foldl (fun s l => s.gangFail l core (!readable)) s
  let kept (x : Wg) : Bool := readable && x.save.isSome && (kvals s.launches).any (fun l => l.id == x.launch && l.failing)
  ((s.core core).wgs.filter (fun e => !kept e.2)).foldl (fun s e => s.abortWg core e.1
    { cause := 0x22, orig := 0, epc := 0, earg := 0, ethr := 0, slot := e.2.crews.headD 0, eng := false, at_ := s.refclk }) s

/-- The lines of a failed slice or channel read as poisoned from now on. -/
def execCoreFence (core : Nat) (site : FenceSite) (s : State) : Out :=
  let s := if site.memFailed then { s with failed := sins core s.failed } else s
  .next (if (s.core core).fenced then s else s.fenceCore core site.l1Readable)

/-! ## ECC_ERROR (R229) -/

/-- The place of an error: its core for the log, the address, and whether it holds confidential data. None where the part
holds no such place. -/
def State.eccPlace (s : State) : EccSite → Option (Nat × Nat × Bool)
  | .storage pa =>
    (s.key pa).map (fun k => (k % 2 ^ 42 / 2 ^ 29, pa, s.confPa pa 1))
  | .firstLevel c ctx va => ((s.core c).l1Find ctx (va / 128)).map (fun l =>
      (c, paOfKey (l.pa * 128 + va % 128), match s.ctxDesc ctx with | some d => d.conf | none => false))
  | .scratch c w _ => (s.wg? c w).map (fun x => (c, 0, x.conf))
  | .cimRow c m r => if c < 768 ∧ m < 8 ∧ r < 256 then some (c, 0, false) else none
  | .ruleValue c e => if c < 768 ∧ e < 4096 * 8 then some (c, 0, false) else none
  | .icacheLine c ctx va => ((s.core c).icFind ctx (va / 128)).map (fun l =>
      (c, paOfKey (l.pa * 128 + va % 128), match s.ctxDesc ctx with | some d => d.conf | none => false))

def State.eccPoison (s : State) : EccSite → State
  | .storage pa => match s.key pa with
    | some k => { s with poison := sins (k / 32) s.poison }
    | none => s
  | .firstLevel c ctx va => s.modCore c (·.l1Mod ctx (va / 128) (fun l => { l with poison := l.poison ||| (1#4 <<< (va % 128 / 32)) }))
  | .scratch c w off => s.modWg c w (fun x => { x with scrPoison := sins (off / 32) x.scrPoison })
  | .cimRow c m r => s.modCore c (·.macMod m (fun x => { x with poison := sins r x.poison }))
  | .ruleValue c e => s.modCore c (fun co => { co with rvfPoison := sins e co.rvfPoison })
  | .icacheLine c ctx va => s.modCore c (·.icKeep (fun l => !(l.ctx == ctx && l.lva == va / 128)))

/-- The instruction cache: its lines carry no poison and are no storage of R229's list. -/
def codeSite : EccSite → Bool
  | .icacheLine _ _ _ => true
  | _ => false

/-- A corrected error is counted in the log; another sets poison (R229). Any error in an instruction-cache line removes the line,
and is never seen (R220). -/
def execEccError (site : EccSite) (correctable : Bool) (s : State) : Out :=
  .next (match s.eccPlace site with
    | none => s
    | some (c, addr, conf) =>
      let n := kget 0 c s.errCount + 1
      let addr := if conf then addr / 2 ^ 30 * 2 ^ 30 else addr
      if codeSite site then s.eccPoison site
      else if correctable then
        { s with errCount := kput c n s.errCount }.log { kind := 1, die := c / 192, core := c, who := 0, addr := addr, val := n }
      else (s.eccPoison site).log { kind := 2, die := c / 192, core := c, who := 0, addr := addr, val := 0 })

end Sys2Proof.Machine
end

