-- ==== Sys2Proof/Machine/Load.lean ====
section
/-! DEFINITION. Code objects: the ELF image (R196; the places of ELF64's own fields are the file format's, assumption 22),
the checks of the loader (R174, R175, R199, R459), relocation (R68, R194), the load and the unload (R204, R205). -/

namespace Sys2Proof.Machine

open Sys2Proof

/-! ## The image -/

/-- An allocated section: 0 .text, 1 .data, 2 .zwlink. -/
structure Sec where
  kind  : Nat
  addr  : Nat
  bytes : List Byte
  deriving DecidableEq, Repr

structure Sym where
  func  : Bool
  glob  : Bool
  defd  : Bool
  abs   : Bool
  value : Nat
  deriving DecidableEq, Repr

structure Rel where
  off : Nat                -- an ELF address
  typ : Nat
  sym : Nat
  add : Nat
  deriving DecidableEq, Repr

structure Elf where
  secs : List Sec
  syms : List Sym          -- from index 0
  rels : List Rel          -- in record order
  deriving DecidableEq, Repr

/-- A field of the image. -/
def fld (b : List Byte) (at_ n : Nat) : Nat := natOfBytes ((b.drop at_).take n)

/-- The names of the allocated sections, each with its zero byte. -/
def secNames : List (List Byte) := [bytesOfNat 6 0x747865742E, bytesOfNat 6 0x617461642E, bytesOfNat 8 0x6B6E696C777A2E]

def Sym.ofBytes (b : List Byte) : Sym where
  func := fld b 4 1 % 16 == 2
  glob := fld b 4 1 / 16 == 1
  defd := fld b 6 2 != 0
  abs := fld b 6 2 == 0xFFF1
  value := fld b 8 8

/-- A record of an ET_DYN object: its offset is an ELF address (assumption 27). -/
def Rel.ofBytes (b : List Byte) : Rel := { off := fld b 0 8, typ := fld b 8 4, sym := fld b 12 4, add := fld b 16 8 }

/-- Pieces of `n` bytes; a rest that is shorter is a piece. -/
def pieces (n : Nat) (b : List Byte) : List (List Byte) := chunks n b.length b

/-- The bytes of a field that a relocation fills. -/
def Rel.width (r : Rel) : Nat := if r.typ = 1 then 8 else 4
def Sec.holds (s : Sec) (addr n : Nat) : Bool := decide (s.addr ≤ addr) && decide (addr + n ≤ s.addr + s.bytes.length)

/-- The linkage records' symbol indices with the ELF addresses of the records (R194). -/
def Elf.links (e : Elf) : List (Nat × Nat) :=
  (e.secs.filter (fun s => s.kind == 2)).flatMap (fun s => (pieces 16 s.bytes).zipIdx.map (fun p => (fld p.1 8 4, s.addr + 16 * p.2)))
def Elf.linkOf (e : Elf) (sym : Nat) : Option Nat := (e.links.find? (fun l => l.1 == sym)).map Prod.snd

/-- The section table's entries, their contents inside the image. -/
def elfBody (b h : List Byte) : Option (List Byte) :=
  let off := fld h 24 8
  let n := fld h 32 8
  if off + n ≤ b.length then some ((b.drop off).take n) else none

/-- An allocated section by its header: PROGBITS under one of the three names. -/
def elfSec (b str h : List Byte) : Option Sec :=
  match secNames.findIdx? (fun nm => (str.drop (fld h 0 4)).take nm.length == nm), elfBody b h with
  | some k, some bytes =>
    if fld h 4 4 = 1 ∧ (k ≠ 2 ∨ (fld h 16 8 % 16 = 0 ∧ bytes.length % 16 = 0)) then
      some { kind := k, addr := fld h 16 8, bytes := bytes }
    else none
  | _, _ => none

/-- Stage 2 of R459: the structure of R196. None is code 1. A section that is neither allocated, nor symbols, nor RELA is passed over,
a section of REL records among them (assumption 92). -/
def Elf.parse (b : List Byte) : Option Elf :=
  let shoff := fld b 40 8
  let shnum := fld b 60 2
  let hs := pieces 64 ((b.drop shoff).take (64 * shnum))
  if b.length < 64 ∨ fld b 0 4 ≠ 0x464C457F ∨ fld b 4 3 ≠ 0x010102 ∨ fld b 16 2 ≠ 3 ∨ fld b 18 2 ≠ 0x2E4D ∨ fld b 48 4 ≠ 0 ∨
      fld b 58 2 ≠ 64 ∨ shoff + 64 * shnum > b.length ∨ fld b 62 2 ≥ shnum then none
  else do
    let str ← elfBody b (hs.getD (fld b 62 2) [])
    let alloc := hs.filter (fun h => (fld h 8 8).testBit 1)
    let secs ← alloc.mapM (elfSec b str)
    let symh := hs.filter (fun h => fld h 4 4 == 2)
    let symb ← (match symh with
      | [] => some []
      | [h] => elfBody b h
      | _ => none)
    let syms := (pieces 24 symb).map Sym.ofBytes
    let relh := hs.filter (fun h => fld h 4 4 == 4)
    let relb ← relh.mapM (elfBody b)
    let rels := relb.flatMap (fun r => (pieces 24 r).map Rel.ofBytes)
    let e : Elf := { secs := secs, syms := syms, rels := rels }
    let isAlloc (i : Nat) : Bool := (fld (hs.getD i []) 8 8).testBit 1
    if (secs.zipIdx).any (fun e => (secs.take e.2).any (fun f => f.kind == e.1.kind)) ∨ symb.length % 24 ≠ 0 ∨ relb.any (fun r => r.length % 24 != 0) ∨
        (pieces 24 symb).any (fun y => fld y 6 2 != 0 && fld y 6 2 != 0xFFF1 && !isAlloc (fld y 6 2)) ∨
        rels.any (fun r => r.typ == 0 || decide (r.typ > 6) || decide (r.sym ≥ max 1 syms.length) ||
          !secs.any (fun s => s.holds r.off r.width) || (decide (r.typ ≥ 5) && (e.linkOf r.sym).isNone)) ∨
        e.links.any (fun l => decide (l.1 ≥ syms.length)) then none
    else some e

/-! ## Relocation (R68, R194) -/

/-- What a relocation's field receives the bits of; none where its symbol is not defined. The null symbol stands for the
object's start (assumption 52), and the value of an absolute symbol is an address as it stands (assumption 67). -/
def Elf.relAddr (e : Elf) (code : Nat) (r : Rel) : Option Nat :=
  if r.typ ≥ 5 then (e.linkOf r.sym).map (fun a => (code + a + r.add) % 2 ^ 64)
  else if r.sym = 0 then some ((code + r.add) % 2 ^ 64)
  else match e.syms[r.sym]? with
    | some y => if !y.defd then none else some (((if y.abs then 0 else code) + y.value + r.add) % 2 ^ 64)
    | none => none

def Rel.field (r : Rel) (v : Nat) : List Byte :=
  bytesOfNat r.width (if r.typ = 4 ∨ r.typ = 6 then v / 2 ^ 32 else v)

/-- Bytes placed at an ELF address. -/
def Elf.put (e : Elf) (addr : Nat) (bs : List Byte) : Elf :=
  { e with secs := e.secs.map (fun s => if s.holds addr bs.length then { s with bytes := patch s.bytes (addr - s.addr) bs } else s) }
def Elf.get (e : Elf) (addr n : Nat) : Option (List Byte) :=
  (e.secs.find? (fun s => s.holds addr n)).map (fun s => (s.bytes.drop (addr - s.addr)).take n)
def Elf.inText (e : Elf) (addr n : Nat) : Bool := e.secs.any (fun s => s.kind == 0 && s.holds addr n)

/-- Every relocation applied, and every TARGET given the resolver's address. -/
def Elf.linked (e : Elf) (code resolver : Nat) : Elf :=
  let f := e.rels.foldl (fun f r => match e.relAddr code r with
    | some v => f.put r.off (r.field v)
    | none => f) e
  e.links.foldl (fun f l => f.put l.2 (bytesOfNat 8 resolver)) f

/-! ## The kernels -/

/-- An object as it is to stand at code VA: what the checks read. -/
structure Img where
  elf  : Elf
  code : Nat
  deriving DecidableEq, Repr

def Img.get (m : Img) (va n : Nat) : Option (List Byte) := if va < m.code then none else m.elf.get (va - m.code) n
def Img.inText (m : Img) (va n : Nat) : Bool := decide (m.code ≤ va) && m.elf.inText (va - m.code) n

/-- A kernel as the checks see it. -/
structure KObj where
  head  : KHead
  entry : Nat
  deriving DecidableEq, Repr

def KObj.dir (k : KObj) : Nat := (k.entry - 64 + k.head.dirOff) % 2 ^ 64

/-- R199: the header of a kernel at its entry point. None is code 2, which a minimum generation of 0 is too (assumption 74). -/
def Img.kernel (m : Img) (entry : Nat) : Option KObj :=
  if entry % 64 ≠ 0 ∨ entry < 64 then none
  else match m.get (entry - 64) 64 with
    | none => none
    | some b => match KHead.ofNat entry (natOfBytes b) with
      | none => none
      | some h =>
        if h.mingen = 0 ∨ (h.kernel.handler ≠ 0 ∧ !m.inText (entry + h.kernel.handler.toNat) 4) then none
        else some { head := h, entry := entry }

/-- A region as the checks see it: its reserved bits (R157), its state 0, and its directory where that lies in the object. -/
structure RegionX where
  r    : Region
  rsv  : Bool
  zero : Option StateD
  dir  : Option (List (StateD × Bool × Bool)) -- slots: descriptor, reserved bits set, all zero
  deriving DecidableEq, Repr

def Img.slots (m : Img) (r : Region) : Option (List (StateD × Bool × Bool)) :=
  if r.logdir > 10 then none
  else (m.get ((r.base + r.dirOff) % 2 ^ 64) (16 * 2 ^ r.logdir)).map (fun b => (pieces 16 b).zipIdx.map (fun e =>
    let v := natOfBytes e.1
    (StateD.ofNat e.2 v, v / 2 ^ 94 != 0 || v.testBit 31, v == 0)))

/-- State 0 among the next slots of a directory, as far as they lie in the object. -/
def Img.zeroFrom (m : Img) (r : Region) : Nat → Nat → Option StateD
  | 0, _ => none
  | n + 1, i =>
    if i ≥ 2 ^ r.logdir then none
    else match m.get ((r.base + r.dirOff + 16 * i) % 2 ^ 64) 16 with
      | none => none
      | some b =>
        let d := StateD.ofNat i (natOfBytes b)
        if d.valid && d.sid == 0 then some d else m.zeroFrom r n (i + 1)

def Img.region (m : Img) (b : List Byte) : RegionX :=
  let v := natOfBytes b
  { r := Region.ofNat v, rsv := v / 2 ^ 151 != 0, zero := m.zeroFrom (Region.ofNat v) ((m.elf.secs.map (fun s => s.bytes.length)).sum / 16 + 1) 0,
    dir := m.slots (Region.ofNat v) }

def Img.regions (m : Img) (k : KObj) : Option (List RegionX) :=
  if k.head.nreg = 0 ∨ k.head.nreg > 512 then none
  else (m.get k.dir (32 * k.head.nreg)).map (fun b => (pieces 32 b).map m.region)

def RegionX.slots (x : RegionX) : List (StateD × Bool × Bool) := x.dir.getD []
def RegionX.valid (x : RegionX) : List StateD := (x.slots.filter (fun e => e.1.valid)).map Prod.fst
def RegionX.bodyVa (x : RegionX) (d : StateD) : Nat := (x.r.base + d.bodyOff) % 2 ^ 64

/-- A failed check of R174: its number, region and slot. -/
abbrev AutoFail := Nat × Nat × Nat
def noSlot : Nat := 0xFFFF

/-- The first failure of a check over the regions in ascending index. -/
def eachRegion (n : Nat) (l : List RegionX) (f : RegionX → Option Nat) : Option AutoFail :=
  l.zipIdx.findSome? (fun e => (f e.1).map (fun sl => (n, e.2, sl)))

def failIf (b : Bool) (slot : Nat) : Option Nat := if b then some slot else none

/-- R159 over the slots of the object. -/
def probeList (l : List (StateD × Bool × Bool)) (z h : Nat) (m : BitVec 31) : Nat → Nat → Option Nat
  | 0, _ => none
  | f + 1, i => match l[(h + i) % z]? with
    | some (d, _, _) => if !d.valid then none else if d.isSet m then some d.slot else probeList l z h m f (i + 1)
    | none => none
def RegionX.find (x : RegionX) (m : BitVec 31) : Option Nat :=
  probeList x.slots (2 ^ x.r.logdir) (stateHash x.r.logdir m.toNat) m (2 ^ x.r.logdir) 0

/-- The first of the slots, ascending, that fails. -/
def eachSlot (l : List α) (slot : α → Nat) (bad : α → List α → Bool) : List α → Option Nat
  | before => match l with
    | [] => none
    | a :: t => if bad a before then some (slot a) else eachSlot t slot bad (before ++ [a])

/-- Check 2. Where no region, or more than one, has ENTRY = 1, region 0 and no slot are reported; where one has, the slot of its
state 0 (assumption 89). -/
def checkEntry (k : KObj) (l : List RegionX) : Option AutoFail :=
  match l.zipIdx.filter (fun e => e.1.r.entry) with
  | [e] => match e.1.zero with
    | some d => if e.1.bodyVa d = k.entry then none else some (2, e.2, d.slot)
    | none => some (2, e.2, noSlot)
  | _ => some (2, 0, noSlot)

def RegionX.check3 (x : RegionX) : Option Nat :=
  failIf (x.r.nblk == 0 || decide (x.r.nblk > 31) || decide (x.r.logdir > 10) || x.r.nstate == 0 ||
    decide (x.r.nstate > 2 ^ x.r.logdir) || decide (x.r.single + x.r.nblk > 2 ^ x.r.logdir) || x.rsv || x.dir.isNone) noSlot
def RegionX.check4 (x : RegionX) : Option Nat :=
  (List.range x.r.nblk).findSome? (fun b => match x.slots[x.r.single + b]? with
    | some (d, _, _) => failIf (!(d.valid && d.isSet (setOf [b]))) (x.r.single + b)
    | none => some (x.r.single + b))
/-- Check 5: the first slot at fault, or none for the count (assumption 89). -/
def RegionX.check5 (x : RegionX) : Option Nat :=
  match eachSlot x.slots (fun e => e.1.slot) (fun e before =>
    if e.1.valid then
      e.1.set == 0 || decide (e.1.set.toNat ≥ 2 ^ x.r.nblk) || decide (e.1.sid ≥ 1024) || e.2.1 ||
        before.any (fun f => f.1.valid && (f.1.sid == e.1.sid || f.1.set == e.1.set))
    else !e.2.2) [] with
  | some sl => some sl
  | none => failIf (x.valid.length != x.r.nstate) noSlot
def RegionX.check6 (x : RegionX) : Option Nat :=
  x.valid.findSome? (fun d => failIf ((bitsOf d.set).length != 1 && x.find d.set != some d.slot) d.slot)
/-- Check 7 reports no slot (assumption 89). -/
def RegionX.check7 (x : RegionX) : Option Nat := match x.zero with
  | some d => failIf ((bitsOf d.set).headD 31 != x.r.eblk) noSlot
  | none => some noSlot

/-- Check 8 of one body. -/
def Img.bodyBad (m : Img) (x : RegionX) (d : StateD) : Bool :=
  d.bodyOff % 32 != 0 || d.bodyLen == 0 || d.bodyLen % 4 != 0 || !m.inText (x.bodyVa d) d.bodyLen ||
    match m.get (x.bodyVa d) d.bodyLen with
    | none => true
    | some bs =>
      let w := wordsOfBody bs
      let isNext (v : BodyWord) := match v.ins with
        | some (.next _) => true
        | _ => false
      w.2 != d.bodyLen || !((w.1.getLast?.map isNext).getD false) || (w.1.filter isNext).length != 1
def Img.check8 (m : Img) (x : RegionX) : Option Nat := x.valid.findSome? (fun d => failIf (m.bodyBad x d) d.slot)

/-- Check 9 of one instruction: its literal blocks and regions (R173). -/
def literalsOk (x : RegionX) (l : List RegionX) : Instr → Bool
  | .bx _ t | .yield _ t => x.r.blockOk t.toNat
  | .bxc _ _ t f _ => x.r.blockOk t.toNat && x.r.blockOk f.toNat
  | .call _ _ a rb => x.r.blockOk rb.toNat && match a with
    | .imm v => match l[v.toNat / 32 % 512]? with
      | some y => y.r.blockOk (v.toNat % 32)
      | none => false
    | .r _ => true
  | .exitn _ _ (.imm v) => match l[v.toNat % 512]? with
    | some y => y.r.node
    | none => false
  | _ => true
def Img.check9 (m : Img) (l : List RegionX) (x : RegionX) : Option Nat :=
  x.valid.findSome? (fun d => match m.get (x.bodyVa d) d.bodyLen with
    | some bs => failIf ((wordsOfBody bs).1.any (fun w => match w.ins with
        | some i => !literalsOk x l i
        | none => false)) d.slot
    | none => none)

/-- R174. Check 1 reports region 0 and no slot (assumption 89). -/
def Img.automaton (m : Img) (k : KObj) : Option AutoFail :=
  match m.regions k with
  | none => some (1, 0, noSlot)
  | some l =>
    [fun _ => checkEntry k l, fun _ => eachRegion 3 l RegionX.check3, fun _ => eachRegion 4 l RegionX.check4,
     fun _ => eachRegion 5 l RegionX.check5, fun _ => eachRegion 6 l RegionX.check6, fun _ => eachRegion 7 l RegionX.check7,
     fun _ => eachRegion 8 l m.check8, fun _ => eachRegion 9 l (m.check9 l)].findSome? (fun f => f ())

/-- The OP fields of a kernel's bodies, as far as its directory can be read: the text that the loader searches for lifetime
classes (R88; assumption 53). -/
def Img.ops (m : Img) (k : KObj) : List Nat :=
  ((m.regions k).getD []).flatMap (fun x => x.valid.flatMap (fun d => match m.get (x.bodyVa d) d.bodyLen with
    | some bs => (wordsOfBody bs).1.map BodyWord.op
    | none => []))

/-- R88: SINCOS is deprecated, TDOT and TMARK are experimental. -/
def Img.lifetimeOk (m : Img) (k : KObj) : Bool :=
  let ops := m.ops k
  let old := ops.contains 0x0A6
  let exp := ops.any (fun o => o == 0x0AB || o == 0x1C7)
  (!old || k.head.kernel.lifetime.getLsbD 0) &&
    (!exp || (k.head.kernel.lifetime.getLsbD 1 && k.head.kernel.stepping == Config.stepping))

/-! ## The load status (R205) -/

/-- A refusal: code, kernel, and for code 4 what R174 says. -/
structure LoadFail where
  code   : Nat
  kernel : Nat := 0xFFFF
  auto   : AutoFail := (0, 0, noSlot)
  deriving DecidableEq, Repr

def LoadFail.word (f : LoadFail) : Nat :=
  f.kernel % 2 ^ 16 * 2 ^ 48 + f.auto.2.2 % 2 ^ 16 * 2 ^ 32 + f.auto.2.1 % 2 ^ 9 * 2 ^ 16 + f.auto.1 % 2 ^ 8 * 2 ^ 8 + f.code

/-- Stage 4 of one kernel. -/
def Img.kernelFail (m : Img) (ix entry : Nat) : Except LoadFail KObj :=
  match m.kernel entry with
  | none => .error { code := 2, kernel := ix }
  | some k =>
    if k.head.mingen > 2 then .error { code := 6, kernel := ix }
    else if !m.lifetimeOk k then .error { code := 3, kernel := ix }
    else match m.automaton k with
      | some f => .error { code := 4, kernel := ix, auto := f }
      | none => .ok k

/-- Stages 4 to 6 over a linked image. -/
def Img.check (m : Img) (e : Elf) (resolver : Nat) : Except LoadFail (List KObj) := do
  let ks := e.syms.filter (fun y => y.func && y.glob && y.defd)
  let l ← ks.zipIdx.mapM (fun y => m.kernelFail y.2 (m.code + y.1.value))
  if (e.rels.any (fun r => decide (r.typ ≤ 4) && (e.relAddr m.code r).isNone)) || (resolver == 0 && !e.links.isEmpty) then
    throw { code := 7 }
  else if e.rels.any (fun r => r.typ == 2 && decide ((e.relAddr m.code r).getD 0 ≥ 2 ^ 32)) then throw { code := 5 }
  else return l

/-- R90: the bodies of generation-1 kernels are rewritten. -/
def Img.rewritten (m : Img) (l : List KObj) : Elf :=
  (l.filter (fun k => k.head.mingen == 1)).foldl (fun e k =>
    ((m.regions k).getD []).foldl (fun e x => x.valid.foldl (fun (e : Elf) d =>
      match e.get (x.bodyVa d - m.code) d.bodyLen with
      | some bs => e.put (x.bodyVa d - m.code) (rewriteBody k.head.kernel bs)
      | none => e) e) e) m.elf

/-! ## CODE_OBJECT_LOAD, CODE_OBJECT_UNLOAD (R204, R205, R459) -/

/-- Every page of the ranges is mapped with V = 1 and W = 1. The check is no write: it sets no D (R186). -/
def State.pagesOk (s : State) (ctx : Nat) (secs : List (Nat × Nat)) : State × Bool :=
  (secs.flatMap (fun e => if e.2 = 0 then [] else
    (List.range ((e.1 + e.2 - 1) / 4096 - e.1 / 4096 + 1)).map (fun i => 4096 * (e.1 / 4096 + i)))).foldl (fun (r : State × Bool) va =>
      if !r.2 then r
      else
        let q := r.1.walk (r.1.benchAcc ctx) va false
        match rightsOf (r.1.benchAcc ctx) true false q.2 with
        | .ok _ => (q.1, true)
        | _ => (q.1, false)) (s, true)

/-- The record waiting in a queue once every earlier launch is complete, in a header that lets the queue execute (R379, R382): the
header's context, the slot, the record. -/
def State.loadDue (s : State) (func q : Nat) : Option (Nat × Nat × List Byte) :=
  match (s.qstate func q).load, s.queueHead func q with
  | some (pa, rec_), some h => if (s.launchesOf func q).isEmpty && !s.queueBad func h then some (h.ctx, pa, rec_) else none
  | _, _ => none

def State.loadCheck (s : State) (ctx : Nat) (rec_ : List Byte) : State × Except LoadFail (Elf × Nat) :=
  let code := fld rec_ 0x18 8
  match s.benchRead ctx (fld rec_ 0 8) (fld rec_ 0x10 8) with
  | (s, none) => (s, .error { code := 8 })
  | (s, some b) =>
    match Elf.parse b with
    | none => (s, .error { code := 1 })
    | some e =>
      match s.pagesOk ctx (e.secs.map (fun c => (code + c.addr, c.bytes.length))) with
      | (s, false) => (s, .error { code := 10 })
      | (s, true) =>
        let m : Img := { elf := e.linked code (fld rec_ 8 8), code := code }
        match m.check e (fld rec_ 8 8) with
        | .error f => (s, .error f)
        | .ok l => (s, .ok (m.rewritten l, code))

/-- The end of a load record: the load status, then STATUS, then the vector. -/
def State.loadEnd (s : State) (func q ctx pa : Nat) (rec_ : List Byte) (w : Nat) (ok : Bool) : State :=
  let s := (s.benchDrop ctx (fld rec_ 0x28 8) (bytesOfNat 8 w)).physWrite (pa + 0x38) (bytesOfNat 4 (if ok then 1 else 10))
  let s := (s.modQ func q (fun x => { x with load := none })).putQueueState func q
  if ok then s else s.msix func 1

def loadedWord : Nat := 0xFFFFFFFF00000000

def execCodeObjectLoad (func q : Nat) (s : State) : Out :=
  .next (match s.loadDue func q with
    | none => s
    | some (ctx, pa, rec_) =>
      if fld rec_ 0x10 8 = 0 then s
      else match s.loadCheck ctx rec_ with
        | (s, .error f) => s.loadEnd func q ctx pa rec_ f.word false
        | (s, .ok (e, code)) =>
          let s := e.secs.foldl (fun s c => (s.benchWrite ctx (code + c.addr) c.bytes).1) s
          let o : CodeObj := { ctx := ctx, va := BitVec.ofNat 64 code, secs := e.secs.map (fun c => (c.addr, c.bytes.length)) }
          { s with objects := o :: s.objects.filter (fun p => !(p.ctx == ctx && p.va == o.va)) }.loadEnd func q ctx pa rec_ loadedWord
            true)

/-- Every instruction-cache line of a range, on every core, for every context. -/
def State.icDrop (s : State) (va n : Nat) : State :=
  { s with cores := kmap (fun _ co => { co with icache := (kmap (fun _ set => set.filter (fun l =>
      !(decide (va / 128 ≤ l.lva) && decide (l.lva * 128 < va + n)))) co.icache).filter (fun e => !e.2.isEmpty) }) s.cores }

/-- Every state cache is emptied (R162). -/
def State.emptyStateCaches (s : State) : State :=
  { s with cores := kmap (fun _ co => { co with seqs := co.seqs.map (fun x => { x with cache := [] }) }) s.cores }

def State.unload (s : State) (ctx : Nat) (o : CodeObj) : State :=
  let s := o.secs.foldl (fun s c => (s.benchWrite ctx (o.va.toNat + c.1) (zeros c.2)).1) s
  let s := o.secs.foldl (fun s c => s.icDrop (o.va.toNat + c.1) c.2) s
  { s with objects := s.objects.filter (fun p => !(p.ctx == ctx && p.va == o.va)) }.emptyStateCaches

def execCodeObjectUnload (func q : Nat) (s : State) : Out :=
  .next (match s.loadDue func q with
    | none => s
    | some (ctx, pa, rec_) =>
      if fld rec_ 0x10 8 ≠ 0 then s
      else match s.objects.find? (fun o => o.ctx == ctx && o.va.toNat == fld rec_ 0x18 8) with
        | none => s.loadEnd func q ctx pa rec_ (LoadFail.word { code := 9 }) false
        | some o =>
          match s.pagesOk ctx (o.secs.map (fun c => (o.va.toNat + c.1, c.2))) with
          | (s, false) => s.loadEnd func q ctx pa rec_ (LoadFail.word { code := 10 }) false
          | (s, true) => (s.unload ctx o).loadEnd func q ctx pa rec_ loadedWord true)

end Sys2Proof.Machine
end

