-- ==== Sys2Proof/Machine/Debug.lean ====
section
/-! DEFINITION. The debugger and the writes of system registers (R405-R407, R427-R430), and what a crew's states and flags let it
do (R27, R36, R77, R78), which a breakpoint's match rests on (R429). -/

namespace Sys2Proof.Machine

open Sys2Proof

/-! ## STOP, RESUME, STEP: writes of DSEQ (R428) -/

def State.seq (s : State) (core q : Nat) : Seq := (s.core core).seqs.getD q Seq.zero
def State.modSeq (s : State) (core q : Nat) (f : Seq → Seq) : State := s.modCore core (·.modSeq q f)
def Seq.isStopped (x : Seq) : Bool := x.dseq.getLsbD 16

/-- CMD as the write leaves it, 00 too; a command that waits is replaced (R4, R428). -/
def Seq.command (x : Seq) (cmd : W64) : Seq :=
  { x with dseq := (x.dseq &&& ~~~3) ||| cmd, stepping := none, held := match x.held with
    | some (1, _, _) => none
    | h => h }
def Seq.commandDone (x : Seq) : Seq := { x with dseq := x.dseq &&& ~~~3 }

/-- STOP: CMD returns to 00 once the stop is taken; on a stopped sequencer it has no effect beyond that. -/
def State.doStop (s : State) (core q : Nat) : State :=
  if (s.seq core q).isStopped then s.modSeq core q Seq.commandDone
  else (s.modSeq core q (·.command 1)).stopSeq core q 1 0 0

/-- A sequencer that was stopped goes on: a crew that stands at a REGROUP issues it again (R153). -/
def State.againRegroup (s : State) (core q : Nat) : State :=
  s.modCore core (fun co => { co with crews := kmap (fun sl cr => if seqOf sl = q then cr.undoRegroup else cr) co.crews })

def State.doResume (s : State) (core q : Nat) : State :=
  (if (s.seq core q).isStopped then s.againRegroup core q else s).modSeq core q (fun x =>
    let x := x.command 0
    { x with dseq := x.dseq &&& ~~~0x10000 })

/-- STEP: the crew of the slot may issue one instruction, the others none. -/
def State.doStep (s : State) (core q slot : Nat) : State :=
  (if (s.seq core q).isStopped then s.againRegroup core q else s).modSeq core q (fun x =>
    if x.isStopped then
      { x with dseq := (x.dseq &&& ~~~0x1003F) ||| BitVec.ofNat 64 (slot % 16 * 4 + 3), stepping := some (16 * q + slot % 16) }
    else (x.command 0))

/-- The end of a step: the sequencer stops with REASON 1 (R428). Where R430 holds the stop, CMD stands until it is taken. -/
def State.stepDone (s : State) (core q slot : Nat) : State := s.stopSeq core q 1 (slot % 16) 0

def execStop (core seq : Nat) (s : State) : Out := .next (s.doStop core seq)
def execResume (core seq : Nat) (s : State) : Out := .next (s.doResume core seq)
def execStep (core seq slot : Nat) (s : State) : Out := .next (s.doStep core seq slot)

/-! ## A crew at an instruction boundary (R27, R36, R77, R78, R428) -/

/-- No more than a STEP's own crew issues during the step (R428). Where the stop that ends the step is held for a crew in handler
mode, that crew goes on to its RTE, and no other (R430). -/
def Core.stepAllows (co : Core) (slot : Nat) (hmode : Bool) : Bool :=
  let q := co.seqs.getD (seqOf slot) Seq.zero
  match q.stepping with
  | some sl => if q.held.isSome then hmode else sl == slot
  | none => true

/-- The crew stands at an instruction boundary at which it may issue. -/
def State.mayStand (s : State) (key : CrewKey) (cr : Crew) (wg : Wg) : Bool :=
  s.serves key.core && decide (cr.ready ≤ s.now) && cr.park.isNone && !cr.finished && cr.block == .none && !(s.core key.core).stopped key.slot &&
    (s.core key.core).stepAllows key.slot cr.hmode && wg.abort.isNone && wg.save.isNone

/-- The wait set is clear, and the flag that SF names has a place. A replay has issued already (R228). -/
def Crew.flagsAllow (cr : Crew) (i : Instr) : Bool :=
  cr.replay.isSome ||
  (match i.hdr? with
    | none => true
    | some h =>
      (List.range 12).all (fun k => !h.wait.getLsbD k || (cr.flag k).cnt == 0) &&
        (match h.sf with
          | some f => decide ((cr.flag f.val).cnt < 15)
          | none => true))

/-- The stall distance has elapsed (R74). A replay has issued already, and a word that does not decode has no distance. -/
def Crew.stallOver (cr : Crew) (now : Nat) : Bool :=
  match cr.lastIssue, cr.word with
  | some n, .ok i => cr.replay.isSome || decide (n + max 1 ((i.hdr?.map (fun h => h.sd.toNat)).getD 0) ≤ now)
  | some n, _ => decide (n + 1 ≤ now)
  | none, _ => true

/-! ## BREAKPOINT_MATCH (R429) -/

/-- The lowest enabled breakpoint of a context at an address. -/
def State.breakpoint (s : State) (ctx : Nat) (pos : W64) : Option Nat :=
  (List.range 8).find? (fun k =>
    let b := s.sysreg (0x48 + k) ctx
    b.getLsbD 0 && b.extractLsb' 2 55 == pos.extractLsb' 2 55 && pos.extractLsb' 57 7 == 0)

/-- A crew that would issue the word at its position, and the breakpoint that matches it. A fault of the word, and an engine failure
that is due, go first (R409). In handler mode a match's stop is held until RTE, unless HALTIN is set (R414, R430). Whether the
sequencer would choose the crew is asked when the event happens (`State.event`). -/
def State.matching (s : State) (key : CrewKey) (cr : Crew) (wg : Wg) : Option Nat :=
  if !s.mayStand key cr wg || !cr.stallOver s.now || cr.wordBad wg.kernel || s.failureDue key cr wg || cr.bpSkip ||
      cr.replay.isSome then none
  else match cr.word with
    | .ok i => if cr.flagsAllow i then s.breakpoint wg.ctx cr.pos else none
    | _ => none

/-- The sequencer stops, or its stop is held; after that the crew issues the instruction without matching it again. -/
def execBreakpointMatch (key : CrewKey) (s : State) : Out :=
  atCrew s key (fun cr wg => match s.matching key cr wg with
    | none => s
    | some k => (s.modCrew key (fun cr => { cr with bpSkip := true })).stopSeq key.core (seqOf key.slot) 2 key.slot k)

/-! ## SYSTEM_REGISTER_WRITE (R406, R407, R338, R340, R428, R429) -/

/-- The bits of a register that a write changes. Bits that neither a field nor a reserved row claims: of LQBASE, IQBASE and the other
bases they are kept, and of a breakpoint they read 0 (assumption 83). -/
def sysMask (num : Nat) : W64 :=
  if num = 0x24 ∨ num = 0x26 ∨ num = 0x28 then 0xFFFFFFFFFFFFF000
  else if num = 0x25 ∨ num = 0x27 ∨ num = 0x29 then 0xFFFFFFF800000001
  else if 0x48 ≤ num ∧ num ≤ 0x4F then 0x01FFFFFFFFFFFFFD
  else if num = 0x50 then 0x6
  else 0xFFFFFFFFFFFFFFFF

/-- How a register is selected: the number of its selectors, none for a number that is no register of the window. The registers of
crews are selected by core and crew slot (assumption 81). -/
def sysSelectors (num : Nat) : Option Nat :=
  if num ≤ 7 then some (64 * 768)
  else if 0x10 ≤ num ∧ num ≤ 0x17 then some 1
  else if 0x20 ≤ num ∧ num ≤ 0x27 then some 64
  else if num = 0x28 ∨ num = 0x29 then some 1
  else if 0x30 ≤ num ∧ num ≤ 0x3F then some 768
  else if num = 0x40 then some (4 * 768)
  else if 0x48 ≤ num ∧ num ≤ 0x50 then some 4096
  else none

/-- PMSEL: OVF is cleared by writing 1 (R340), but where an event sets it in the same ac (`just`), it ends set (R4). -/
def pmselWrite (just : Bool) (old : W32) (x : W64) : W32 :=
  (old &&& 0x80000000 &&& ~~~(if just then 0 else x.extractLsb' 0 32)) ||| (x.extractLsb' 0 32 &&& 0x7FF800FF)

/-- Every stop that is held is looked at again. -/
def State.stopRetryAll (s : State) : State :=
  (kkeys s.cores).foldl (fun s c => (List.range 4).foldl (fun s q => s.stopRetry c q) s) s

/-- A crew as the window selects it, none where it is of a confidential context (R427; assumption 81). -/
def State.windowCrew (s : State) (sel : Nat) : Option Crew :=
  match s.crew? ⟨sel / 64, sel % 64⟩ with
  | some cr => match s.wg? (sel / 64) cr.wg with
    | some wg => if wg.conf then none else some cr
    | none => none
  | none => none

/-- A write of a crew's register through the window is a debugger's: its sequencer is stopped (R405; assumption 81). -/
def State.crewSysWrite (s : State) (num sel : Nat) (x : W64) : State :=
  match s.windowCrew sel with
  | some cr => if (s.core (sel / 64)).stopped (sel % 64) then s.setCrew ⟨sel / 64, sel % 64⟩ (cr.sysSet num x) else s
  | none => s

/-- A write that is let through. -/
def State.sysWrite (s : State) (num sel : Nat) (x : W64) : State :=
  if num ≤ 7 then s.crewSysWrite num sel x
  else if 0x30 ≤ num ∧ num ≤ 0x37 then
    s.modCore sel (fun co => { co with pmcnt := lset co.pmcnt (num - 0x30) (x.toNat % 2 ^ 48) })
  else if 0x38 ≤ num ∧ num ≤ 0x3F then
    s.modCore sel (fun co => { co with pmsel := lmod co.pmsel (num - 0x38) (fun o =>
      pmselWrite (decide (co.ovf.getD (num - 0x38) 0 = s.now + 1)) o x) })
  else if num = 0x40 then
    let core := sel / 4
    let q := sel % 4
    let s := s.modSeq core q (fun y => { y with dseq := (y.dseq &&& ~~~0x3C) ||| (x &&& 0x3C) })
    match x.toNat % 4 with
    | 1 => s.doStop core q
    | 2 => s.doResume core q
    | 3 => s.doStep core q (x.toNat / 4 % 16)
    | _ => s.modSeq core q (·.command 0)
  else if decide (num ≥ 0x48) && (match s.ctxDesc sel with | some d => d.conf | none => false) then s
  else
    let s := s.setSysreg num sel ((s.sysreg num sel &&& ~~~(sysMask num)) ||| (x &&& sysMask num))
    if num = 0x50 then s.stopRetryAll else s

/-- A refused request is logged with its address and changes nothing (R432, R433). -/
def State.refuse (s : State) (who addr : Nat) : State :=
  s.log { kind := 5, die := 0xFFFF, core := 0xFFFF, who := who, addr := addr, val := 0 }

/-- What a window read of a register gives (R4, R406). -/
def State.sysRead (s : State) (num sel : Nat) : W64 :=
  if num ≤ 7 then ((s.windowCrew sel).bind (·.sysGet num)).getD 0
  else if 0x30 ≤ num ∧ num ≤ 0x37 then BitVec.ofNat 64 ((s.core sel).pmcnt.getD (num - 0x30) 0)
  else if 0x38 ≤ num ∧ num ≤ 0x3F then ((s.core sel).pmsel.getD (num - 0x38) 0).zeroExtend 64
  else if num = 0x40 then (s.seq (sel / 4) (sel % 4)).dseq
  else s.sysreg num sel

/-- The registers that the Bench writes: those of functions and of the device (R405). -/
def benchMay (num : Nat) : Bool := decide (0x10 ≤ num) && decide (num ≤ 0x29)

/-- What a VF's window holds (R407). -/
def vfMay (f num sel : Nat) : Bool := decide (0x20 ≤ num) && decide (num ≤ 0x27) && sel == f

/-- A write of a register that exists. -/
def State.sysWriteAny (s : State) (num sel : Nat) (x : W64) : State :=
  match sysSelectors num with
  | some n => if sel < n then s.sysWrite num sel x else s
  | none => s

/-- Only the PF reaches the registers of cores, sequencers and contexts by writes (R405, R428). A reserved number is no register: the
PF's and the Bench's writes of it are ignored, and a VF's is refused as those of PF registers are (assumption 82). -/
def execSystemRegisterWrite (agent : RegAgent) (num : Nat) (sel : Nat) (x : W64) (s : State) : Out :=
  .next (match agent with
    | .vf f => if vfMay f num sel then s.sysWrite num sel x else (s.refuse f (8 * num)).say .unsupported
    | .bench => if benchMay num then s.sysWriteAny num sel x else s
    | .pf => s.sysWriteAny num sel x)

/-- An agent reads a register (R407). A number or a selector that names none reads 0; to a VF it is refused (assumption 82). -/
def State.regRead (s : State) (agent : RegAgent) (num sel : Nat) : State :=
  let any := match sysSelectors num with
    | some n => if sel < n then s.sysRead num sel else 0
    | none => 0
  match agent with
  | .vf f => if vfMay f num sel then s.say (.regRead (s.sysRead num sel)) else (s.refuse f (8 * num)).say .unsupported
  | _ => s.say (.regRead any)

/-- A driver reads an account of its function through its window, exactly (R361, R446). -/
def State.acctRead (s : State) (func ctx : Nat) : State :=
  s.say (.regRead (match s.ctxDesc ctx with
    | some d => if d.func = func ∧ func ≠ 0 then BitVec.ofNat 64 (kget 0 ctx s.accounts) else 0
    | none => 0))

/-! ## DEBUGGER_WRITE (R121, R423, R427) -/

/-- Byte `i` of a word replaced. -/
def putByte {n : Nat} (x : BitVec n) (i : Nat) (b : Byte) : BitVec n :=
  (x &&& ~~~((0xFF : BitVec n) <<< (8 * i))) ||| ((b.zeroExtend n) <<< (8 * i))

/-- One byte of a per-crew block as the debugger writes it: V, S, P and Q, EPC and ESAVE (R119, R405); another byte is
ignored. -/
def Crew.poke (k : Kernel) (cr : Crew) (o : Nat) (b : Byte) : Crew :=
  if 0x600 ≤ o ∧ o < 0x600 + 256 * k.vregs then
    let r := (o - 0x600) / 256
    cr.modThr (o % 256 / 4) (fun th => { th with v := kset 0 r (putByte (kget 0 r th.v) (o % 4) b) th.v })
  else if 0x400 ≤ o ∧ o < 0x400 + 4 * k.sregs then
    let r := (o - 0x400) / 4
    { cr with s := kset 0 r (putByte (kget 0 r cr.s) (o % 4) b) cr.s }
  else if 0x50 ≤ o ∧ o < 0x88 then
    let i := (o - 0x50) / 8
    cr.mapThr (fun t th => if t / 8 = (o - 0x50) % 8 then
        { th with p := if b.getLsbD (t % 8) then th.p ||| (1#7 <<< i) else th.p &&& ~~~(1#7 <<< i) }
      else th)
  else if o = 0x88 then { cr with q := b.extractLsb' 0 3 }
  else if 0x310 ≤ o ∧ o < 0x318 then { cr with epc := putByte cr.epc (o - 0x310) b }
  else if 0x330 ≤ o ∧ o < 0x350 then
    { cr with esave := lmod cr.esave ((o - 0x330) / 8) (fun x => putByte x ((o - 0x330) % 8) b) }
  else cr

def Crew.pokes (k : Kernel) (cr : Crew) (o : Nat) : List Byte → Crew
  | [] => cr
  | b :: t => (cr.poke k o b).pokes k (o + 1) t

def execDebuggerWrite (key : CrewKey) (off : Nat) (bytes : List Byte) (s : State) : Out :=
  atCrew s key (fun cr wg =>
    if (s.core key.core).stopped key.slot && !wg.conf then s.setCrew key (cr.pokes wg.kernel off bytes) else s)

/-! ## The debugger's view of a stopped sequencer (R154, R427) -/

/-- A stopped crew's per-crew block; of a confidential context it reads zero. -/
def State.debugRead (s : State) (key : CrewKey) (off n : Nat) : State :=
  match s.crew? key with
  | none => s
  | some cr => match s.wg? key.core cr.wg with
    | none => s
    | some wg =>
      if !(s.core key.core).stopped key.slot then s
      else s.say (.debug (if wg.conf then zeros n else (((cr.image wg).drop off).take n)))

/-- The state cache of a stopped sequencer; nothing of it is shown while a crew of a confidential context is resident
there (assumption 72). -/
def State.cacheRead (s : State) (core q : Nat) : State :=
  if !(s.seq core q).isStopped then s
  else if (s.seqCrews core q).any (fun e => e.2.2.conf) then s.say (.stateCache [])
  else s.say (.stateCache (s.seq core q).cache)

end Sys2Proof.Machine
end

