-- ==== Sys2Proof/Machine/Requests.lean ====
section
/-! DEFINITION. The rings that the Bench watches beside the launch queues (R224): invalidation requests (R223) and state
requests (R425, R426, R434). -/

namespace Sys2Proof.Machine

open Sys2Proof

/-! ## The rings (R224) -/

/-- A ring's own state is kept as a queue's, at a table place that no launch queue has: 64 for a function's invalidation
queue, 65 for the state-request ring. -/
structure RingId where
  table : Nat
  ix    : Nat
  size  : Nat
  base  : Nat
  deriving DecidableEq, Repr

def State.invRing (s : State) (func : Nat) : RingId := { table := 64, ix := func, size := 32, base := (s.sysreg 0x21 func).toNat }
def State.reqRing (s : State) : RingId := { table := 65, ix := 0, size := 64, base := (s.sysreg 0x17 0).toNat }

/-- STATE of a ring: 0, 1 or 3. -/
def State.putRingState (s : State) (r : RingId) (running : Bool) : State :=
  let v := if (s.qstate r.table r.ix).overrun then 3 else if running then 1 else 0
  match s.key (r.base + 0x12) with
  | none => s
  | some k => if s.peekNat k 1 = v then s else s.physWrite (r.base + 0x12) (bytesOfNat 1 v)

/-- Take the next entry, if the ring is enabled and has one. -/
def State.ringTake (s : State) (r : RingId) : State × Option (List Byte) :=
  match s.physRead r.base 64 with
  | (s, none) => (s, none)
  | (s, some (b, _)) =>
    let h := QHead.ofNat (natOfBytes b)
    let s := s.modQ r.table r.ix (fun x => x.seen h)
    if !h.en || (s.qstate r.table r.ix).overrun || h.waiting = 0 then (s.putRingState r false, none)
    else if h.waiting > 2 ^ h.log2n then
      let s := (s.modQ r.table r.ix (fun x => { x with overrun := true, cleared := false })).putRingState r false
      (s.log { kind := 8, die := 0xFFFF, core := 0xFFFF, who := 0, addr := r.base, val := h.wr }, none)
    else
      match s.physRead (r.base + 64 + r.size * (h.rd % 2 ^ h.log2n)) r.size with
      | (s, none) => (s, none)
      | (s, some (e, _)) => ((s.physWrite (r.base + 8) (bytesOfNat 8 (h.rd + 1))).putRingState r (decide (h.waiting > 1)), some e)

/-! ## INVALIDATION_REQUEST (R223) -/

/-- What a request covers. -/
structure Inval where
  kind : Nat
  ctx  : Nat
  func : Nat
  base : Nat
  len  : Nat
  deriving DecidableEq, Repr

/-- A range of addresses meets `n` bytes from `va`. -/
def Inval.meets (r : Inval) (va n : Nat) : Bool :=
  r.kind == 1 || r.kind == 2 || r.len == 0 || (decide (va < r.base + r.len) && decide (r.base < va + n))

/-- The contexts whose lines and blocks are covered. -/
def State.covers (s : State) (r : Inval) (ctx : Nat) : Bool :=
  if r.kind ≤ 1 then ctx == r.ctx
  else match s.ctxDesc ctx with
    | some d => d.func == r.func
    | none => false

def State.coversTlb (s : State) (r : Inval) (t : TlbEntry) : Bool :=
  (if r.kind = 3 then t.glob && t.key == r.func else !t.glob && s.covers r t.key) && r.meets t.va t.size

/-- The lines of one core are written back and invalidated, and its fetched blocks dropped. -/
def State.invalCore (s : State) (r : Inval) (c : Nat) : State :=
  let hit (ctx va n : Nat) : Bool := s.covers r ctx && r.meets va n
  let a : Acc := { payer := .house, core := c, ctx := r.ctx, func := r.func, conf := false, bench := false }
  let s := s.sweep a (fun l => hit l.ctx (l.lva * 128) 128) true
  s.modCore c (fun co =>
    { co.icKeep (fun l => !hit l.ctx (l.lva * 128) 128) with
      crews := kmap (fun _ cr => match kfind cr.wg co.wgs with
        | some w => if s.covers r w.ctx then { cr.readsDone with fbuf := cr.fbuf.filter (fun e => !hit w.ctx e.1 32) } else cr
        | none => cr) co.crews })

/-- A stream of an engine is in a page that the request covers: it goes on there, and the request waits for it (R223, R298). -/
def State.streaming (s : State) (r : Inval) : Bool :=
  s.cores.any (fun c => c.2.cmds.any (fun cmd => cmd.runs && (cmd.rd.toList ++ cmd.wr.toList).any (s.coversTlb r)))

/-- Conditions 1 and 2 of R223, and of condition 3 the accesses of crews: every write that was on its way, and every byte written
back, has been accepted, and every load that has issued has read. -/
def State.invalidate (s : State) (r : Inval) : State :=
  let s := s.landAll
  let tlb := (kmap (fun _ l => l.filter (fun t => !s.coversTlb r t)) s.tlb).filter (fun e => !e.2.isEmpty)
  ((kkeys s.cores).foldl (fun (s : State) c => s.invalCore r c) { s with tlb := tlb }).landAll

/-- DONE through the request's context; its vector where it was written. -/
def State.invDone (s : State) (func ctx done v : Nat) : State :=
  if done = 0 then s
  else match s.benchWrite ctx done (bytesOfNat 8 v) with
    | (s, true) => s.msix func 3
    | (s, false) => s.log { kind := 7, die := 0xFFFF, core := 0xFFFF, who := ctx, addr := done, val := 0 }

/-- The oldest request is taken once it can be done; until then its conditions 1 and 2 are brought about. Bits 15:12 of its CTX field
are ignored (assumption 94). -/
def execInvalidationRequest (func : Nat) (before : State) : Out :=
  .next (match before.ringTake (before.invRing func) with
    | (s, none) => s
    | (s, some e) =>
      let f (at_ n : Nat) := natOfBytes ((e.drop at_).take n)
      let r : Inval := { kind := f 0x12 1, ctx := f 0x10 2 % 4096, func := func, base := f 0 8, len := f 8 8 }
      let mine := match s.ctxDesc r.ctx with
        | some d => d.func == func
        | none => false
      if f 0x13 5 ≠ 0 ∨ r.kind > 3 ∨ !mine then s.invDone func r.ctx (f 0x18 8) allOnes64
      else
        let u := s.invalidate r
        if u.streaming r then (before.keepHouse s).invalidate r else u.invDone func r.ctx (f 0x18 8) 1)

/-! ## State requests (R434) -/

structure StateReq where
  kind    : Nat
  classes : Nat
  pa      : Nat
  size    : Nat
  entry   : Nat
  func    : Nat
  done    : Nat
  clean   : Bool
  deriving DecidableEq, Repr

def StateReq.ofBytes (e : List Byte) : StateReq :=
  let f (at_ n : Nat) := natOfBytes ((e.drop at_).take n)
  { kind := f 0 1, classes := f 1 1, pa := f 8 8, size := f 0x10 8, entry := f 0x18 2, func := f 0x1A 2, done := f 0x20 8,
    clean := f 2 6 == 0 && f 0x1C 4 == 0 && f 0x28 24 == 0 && decide (f 1 1 < 128) }

/-- The next request, without taking it. -/
def State.nextReq (s : State) : Option StateReq :=
  let r := s.reqRing
  match s.physRead r.base 64 with
  | (_, none) => none
  | (s, some (b, _)) =>
    let h := QHead.ofNat (natOfBytes b)
    match s.physRead (r.base + 64 + r.size * (h.rd % 2 ^ h.log2n)) r.size with
    | (_, none) => none
    | (_, some (e, _)) => some (StateReq.ofBytes e)

/-- The completion word, then the vector. -/
def State.reqDone (s : State) (q : StateReq) (ok : Bool) : State :=
  (s.physWrite q.done (bytesOfNat 8 (if ok then 1 else allOnes64))).msix 0 5

/-- Take the next request if it is of a kind that the test selects. -/
def atReq (s : State) (p : Nat → Bool) (f : State → StateReq → State × Bool) : Out :=
  .next (match s.nextReq with
    | none => (s.ringTake s.reqRing).1
    | some q =>
      if !p q.kind then s
      else match s.ringTake s.reqRing with
        | (s, none) => s
        | (s, some e) =>
          let q := StateReq.ofBytes e
          if !q.clean then s.reqDone q false
          else let r := f s q
               r.1.reqDone q r.2)

/-! ### EXPORT -/

/-- A section: its head of 16 bytes, and the structure. -/
def sectionOf (cls ix : Nat) (b : List Byte) : List Byte :=
  bytesOfNat 2 (Config.sectionType (16 * cls + ix)) ++ zeros 6 ++ bytesOfNat 8 b.length ++ b

/-- Bytes that the Bench gathers, each read at the house's cost (R348). -/
abbrev Gather := State → State × List Byte

/-- Bytes that need no read. -/
def given (b : List Byte) : Gather := fun s => (s, b)
def both (f g : Gather) : Gather := fun s => let r := f s; let q := g r.1; (q.1, r.2 ++ q.2)
def allOf (l : List Gather) : Gather := l.foldr both (given [])
def mapped (f : List Byte → List Byte) (g : Gather) : Gather := fun s => let r := g s; (r.1, f r.2)

/-- Bytes of the part's own storage. -/
def snap (pa n : Nat) : Gather := fun s =>
  let r := s.physRead pa n
  (r.1, match r.2 with
    | some (b, _) => b
    | none => [])

/-- A context's account as the PF reads it (R361). -/
def State.accountShown (s : State) (ctx : Nat) : Nat := match s.ctxDesc ctx with
  | some d => if d.conf then kget 0 ctx s.confAcc else kget 0 ctx s.accounts
  | none => kget 0 ctx s.accounts

/-- The 64 KiB boot record (R454): an entry past the last place goes to the first again. -/
def BootEntry.bytes (e : BootEntry) : List Byte :=
  bytesOfNat 1 e.step ++ bytesOfNat 1 (if e.alt then 1 else 0) ++ bytesOfNat 1 e.result ++ zeros 5 ++ bytesOfNat 8 e.refclk ++
    (e.meas ++ zeros 16).take 16
/-- The record's 64-byte header. -/
def Boot.header (b : Boot) : List Byte := (Config.bootHeader b.hdrCount ++ zeros 64).take 64
def Boot.image (b : Boot) : List Byte :=
  let slots : KMap (List Byte) := (b.record.zipIdx).foldl (fun m e => kput (e.2 % 2046) e.1.bytes m) []
  b.header ++ (List.range 2046).flatMap (fun i => (kfind i slots).getD (zeros 32))

/-- What the images of one dump share: the context and the function, the index block of a gang, and the cause and the time of
the save (R425). -/
def Saved.dumpKey (v : Saved) : Nat × Nat × Option Nat × Nat × Nat :=
  (v.wg.ctx, v.func, v.index, if v.index.isSome then 2 else v.cause, v.at_)
/-- The dumps of the save pools. -/
def State.dumps (s : State) : List (List Saved) :=
  let vs := kvals s.saved
  (vs.foldl (fun l v => if l.contains v.dumpKey then l else l ++ [v.dumpKey]) []).map (fun k => vs.filter (fun v => v.dumpKey == k))

/-- An image of the pool as it stands in a dump whose index block is `unit` units of 4 KiB before it. -/
def State.dumpImage (s : State) (v : Saved) (unit : Nat) : Gather :=
  mapped (fun b =>
    let b := fillUnits b
    if v.wg.conf then
      hideBytes v.wg.ctx unit (showUnits v.wg.ctx (imageUnit v.off v.index) (chunks 4096 b.length b))
    else b) (snap (s.poolPa v.func v.off) (if v.wg.conf then 4096 * units4k v.size else v.size))

/-- A dump: its index block, then each image at the next unit of 4 KiB. -/
def State.dumpSection (s : State) (l : List Saved) : Gather :=
  match l with
  | [] => given []
  | v :: _ =>
    let starts := (List.range l.length).map (fun i => 1 + sumOf (fun (x : Saved) => units4k x.size) (l.take i))
    let ix := indexBlock v.wg.ctx v.at_ (if v.index.isSome then 2 else v.cause) v.wg.conf 0
      ((starts.zip l).map (fun e => (4096 * e.1, e.2.size)))
    both (given (if v.wg.conf then hideIndex v.wg.ctx ix else ix)) (allOf ((starts.zip l).map (fun e => s.dumpImage e.2 e.1)))

/-- A structure of a confidential context is exported under the context's key (R434; assumption 61). -/
def redactFor (conf : Bool) (ctx : Nat) (b : List Byte) : List Byte := if conf then hideUnits ctx 0 [b] else b

/-- The sections of one class. -/
def State.exportClass (s : State) : Nat → List Gather
  | 0 =>
    (List.range 64).flatMap (fun f =>
      let n := s.lqCount f
      if n = 0 then [] else mapped (sectionOf 0 0) (snap (s.lqTable f) (8 * n)) ::
        (List.range n).map (fun q => match s.lqHeader f q with
          | some pa => mapped (sectionOf 0 1) (snap pa 64)
          | none => given [])) ++
      (kvals s.launches).map (fun l => given (sectionOf 0 2 (redactFor l.conf l.ctx l.record)))
  | 1 => (kvals s.launches).map (fun l => match l.node with
      | some va => mapped (fun b => sectionOf 1 0 (redactFor l.conf l.ctx b)) (fun s =>
          let r := s.benchRead l.ctx va.toNat 64
          (r.1, r.2.getD []))
      | none => given [])
  | 2 => [mapped (sectionOf 2 0) (snap ((s.sysreg 0x11 0).toNat + 64) (64 * 63)),
      given (sectionOf 2 1 ((List.range 4096).flatMap (fun c => bytesOfNat 8 (s.accountShown c))))]
  | 3 => s.dumps.map (fun l => mapped (sectionOf 3 0) (s.dumpSection l))
  | 4 => [given (sectionOf 4 0 s.boot.image)]
  | 5 => [given (sectionOf 5 0 (Config.fencedImage ((s.cores.filter (fun c => c.2.fenced)).map Prod.fst)))]
  | 6 => [mapped (sectionOf 6 0) (snap (s.sysreg 0x16 0).toNat 64)]
  | _ => []

def State.exportBytes (s : State) (classes : Nat) : State × List Byte :=
  allOf ((List.range 7).flatMap (fun c => if classes.testBit c then s.exportClass c else [])) s

/-- A request of an unknown kind is refused here. -/
def execStateExport (s : State) : Out :=
  atReq s (fun k => k == 0 || decide (k > 2)) (fun s q =>
    if q.kind ≠ 0 then (s, false)
    else
      let r := s.exportBytes q.classes
      if r.2.length > q.size then (r.1, false) else (r.1.physWrite q.pa r.2, true))

/-! ### RESTART, RELEASE -/

/-- The images under an index block of a function's pool. -/
def State.imagesUnder (s : State) (func pa : Nat) : List (Nat × Saved) :=
  s.saved.filter (fun e => e.2.func == func && (match e.2.index with
    | some o => s.poolPa func o == pa
    | none => false))

/-- The saved launch goes into the named queue under its own record and number; a gang waits to be placed again. Its images are
under no index block any more. -/
def State.readmit (s : State) (func entry : Nat) (l : Launch) (imgs : List (Nat × Saved)) : State :=
  let l := { l with func := func, queue := entry, live := 0, aborted := false, closed := false, retryAt := 0,
                    st := if l.gang then .waiting else .running }
  imgs.foldl (fun s e =>
    let v := { e.2 with index := none, launch := l }
    { s with saved := kput e.1 v s.saved }.physWrite (s.poolPa v.func v.off) v.pooled) { s with launches := kput l.id l s.launches }

/-- The request waits while no entry for an admitted launch is free (R376). -/
def execRestart (s : State) : Out :=
  if s.launches.length ≥ 256 then .next s
  else atReq s (· == 1) (fun s q =>
    let imgs := s.imagesUnder q.func q.pa
    match imgs with
    | [] => (s, false)
    | (_, v) :: _ =>
      if (s.lqHeader q.func q.entry).isNone then (s, false) else (s.readmit q.func q.entry v.launch imgs, true))

def execRelease (s : State) : Out :=
  atReq s (· == 2) (fun s q =>
    let imgs := s.imagesUnder q.func q.pa
    if imgs.isEmpty then (s, false)
    else ({ s with saved := s.saved.filter (fun e => !imgs.any (fun i => i.1 == e.1)) }, true))

end Sys2Proof.Machine
end

