-- ==== Sys2Proof/Machine/HostPort.lean ====
section
/-! DEFINITION. The host port and its windows (R444-R447), links and peers (R448-R451), management (R452), start-up and
attestation (R453-R455). -/

namespace Sys2Proof.Machine

open Sys2Proof

/-! ## Requests at the home slices (R283, R432, R445, R449) -/

/-- What a host or a peer may reach: storage of this device on no CONF page. -/
def State.exposed (s : State) (pa n : Nat) : Bool :=
  !s.confPa pa n && (piecesOf pa n).all (fun p => (localPlace (p.1 % 2 ^ 42)).isSome && p.1 / 2 ^ 42 == pa / 2 ^ 42)

/-- The cluster of a storage key's channel. -/
def homeCluster (k : Nat) : Nat := k % 2 ^ 42 / 2 ^ 29 / 8

/-- The flit of a reply, at the house's cost (R348): class 17 over a link, 18 at the host port. -/
def State.reply (s : State) (cls k : Nat) : State :=
  if cls = 17 then s.flit .house (k / 128) else s.bill .house .substrate cls 1

/-- Read for the host or a peer: the bytes and whether a sector is poisoned. `cls` prices the reply's flits (R348). -/
def State.outerRead (s : State) (cls pa n : Nat) : State × List Byte × Bool :=
  (piecesOf pa n).foldl (fun (r : State × List Byte × Bool) p =>
    match r.1.key p.1 with
    | none => r
    | some k =>
      let h := r.1.homeRead Acc.part Attr.plain k p.2
      ((h.1.beatsOut .house (homeCluster k) (spanSectors k p.2).length).reply cls k, r.2.1 ++ h.2.1, r.2.2 || h.2.2))
    (s, [], false)

/-- Poison comes in with the data (R229). `answer`: the write has a reply of its own; that of an atomic carries the old word. -/
def State.outerPut (s : State) (cls : Nat) (bad answer : Bool) : List (Nat × Nat) → List Byte → State
  | [], _ => s
  | p :: ps, bs =>
    match s.key p.1 with
    | none => s.outerPut cls bad answer ps (bs.drop p.2)
    | some k =>
      let s := s.beatsIn .house (homeCluster k) (spanSectors k p.2).length
      let s := s.homeWrite Acc.part Attr.plain (bytesAt k (bs.take p.2)) (fun _ => bad)
      (if answer then s.reply cls k else s).outerPut cls bad answer ps (bs.drop p.2)
def State.outerWrite (s : State) (cls pa : Nat) (bs : List Byte) (bad : Bool) (answer : Bool := true) : State :=
  s.outerPut cls bad answer (piecesOf pa bs.length) bs

/-! ## CXL_MEM_READ, CXL_MEM_WRITE (R445, R446) -/

/-- The physical address of an HDM offset. -/
def hdmPa (off : Nat) : Nat := localDev * 2 ^ 42 + off
def State.hdmOk (s : State) (off n : Nat) : Bool := decide (off + n ≤ 0x6000000000) && s.exposed (hdmPa off) n

def execCxlMemRead (off n : Nat) (s : State) : Out :=
  .next (if s.hdmOk off n then
      let r := s.outerRead 18 (hdmPa off) n
      r.1.say (.hostRead r.2.1 r.2.2)
    else (s.refuse 0 (hdmPa off)).say (.hostRead (List.replicate n 0xFF) true))

def execCxlMemWrite (off : Nat) (data : DataIn) (s : State) : Out :=
  .next ((if s.hdmOk off data.bytes.length then s.outerWrite 18 (hdmPa off) data.bytes data.poison
    else s.refuse 0 (hdmPa off)).say .hostWrite)

/-! ## Memory of the host and of the peers (R208, R380, R444) -/

/-- The host or a peer stores into its own memory: a copy that a core holds exclusively goes back first (R247, R445). What this
device's memory would take is no such store. -/
def State.outsidePut (s : State) (bad : Bool) : List (Nat × Nat) → List Byte → State
  | [], _ => s
  | p :: ps, bs =>
    match s.key p.1 with
    | none => s.outsidePut bad ps (bs.drop p.2)
    | some k =>
      let s := match homeOf k with
        | .core _ => s
        | _ => (s.recall Acc.part (k / 128)).store none (bytesAt k (bs.take p.2)) (fun _ => bad)
      s.outsidePut bad ps (bs.drop p.2)
def State.outsideStore (s : State) (pa : Nat) (d : DataIn) : State := s.outsidePut d.poison (piecesOf pa d.bytes.length) d.bytes

/-! ## REMOTE_REQUEST (R449) -/

def remoteBytes : RemoteOp → Nat
  | .read n => n
  | .write d => d.bytes.length
  | .atom _ sz _ _ | .cas sz _ _ => sz.bytes

/-- An atomic of a peer at the home slice: the old word is its answer; on a poisoned sector nothing is written. -/
def State.remoteAtomic (s : State) (pa n : Nat) (f : Nat → Option Nat) : State × List Byte × Bool :=
  let r := s.outerRead 17 pa n
  if r.2.2 then r
  else match f (natOfBytes r.2.1) with
    | some v => (r.1.outerWrite 17 pa (bytesOfNat n v) false false, r.2.1, false)
    | none => r

/-- A flit arrives on the link of a line's requests (R450). -/
def State.hear (s : State) (pa : Nat) : State := match s.key pa with
  | some k => { s with links := lmod s.links (s.linkOf (k / 128)) (fun l => { l with heard := s.refclk }) }
  | none => s

/-- The link by which a request for an address comes is up (R448, R453). -/
def State.reached (s : State) (pa : Nat) : Bool := match s.key pa with
  | some k => (s.links.getD (s.linkOf (k / 128)) Link.zero).up
  | none => s.links.any Link.up

/-- A request of a peer acts at the home slice, where a link brings it. A float atomic flushes subnormals as the kernel that asks
says (R98), and its exceptions go back with the old word (R255): the request and its answer carry both (assumption 56). -/
def execRemoteRequest (peer : Nat) (pa : Nat) (op : RemoteOp) (s : State) : Out :=
  .next (match s.pod with
    | none => s
    | some me =>
      if !s.reached pa then s
      else let s := s.hear pa
      if pa / 2 ^ 42 ≠ me ∨ !s.exposed pa (remoteBytes op) then (s.refuse peer pa).say (.peerErr peer)
      else match op with
        | .read n => let r := s.outerRead 17 pa n
                     r.1.say (.peerRead peer r.2.1 r.2.2)
        | .write d => (s.outerWrite 17 pa d.bytes d.poison).say (.peerWrite peer)
        | .atom op sz v ftz =>
          let w := 8 * sz.bytes
          let new (m : Nat) := atomicNew ftz op w m (v.toNat % 2 ^ w)
          let r := s.remoteAtomic pa sz.bytes (fun m => some (new m).1)
          r.1.say (.peerAtomic peer r.2.1 r.2.2 (if r.2.2 then 0 else (new (natOfBytes r.2.1)).2))
        | .cas sz c v =>
          let w := 8 * sz.bytes
          let r := s.remoteAtomic pa sz.bytes (fun m => if m = c.toNat % 2 ^ w then some (v.toNat % 2 ^ w) else none)
          r.1.say (.peerRead peer r.2.1 r.2.2))

/-! ## Links (R448, R450) -/

def State.link (s : State) (i : Nat) : Link := s.links.getD i Link.zero
def State.modLink (s : State) (i : Nat) (f : Link → Link) : State := { s with links := lmod s.links i f }

/-- The link is marked down and the event logged; the requests that it held go out on another plane in their line's order,
which the model performs at once (assumption 39). -/
def State.dropLink (s : State) (link : Nat) : State :=
  ((s.modLink link (fun l => { l with up := false, enabled := false, trained := false, replays := 0 })).log
    { kind := Config.logKind 0, die := 0xFFFF, core := 0xFFFF, who := 0, addr := 0, val := link }).msix 0 6

/-- A flit lost or received with a CRC error is resent, at the cost of who sent it (R345, R348); once 8 replays have failed in a
row the link is down. A paused link resends nothing until it is resumed. -/
def execFlitReplay (link : Nat) (s : State) : Out :=
  .next (if !(s.link link).up || (s.link link).paused then s
    else if (s.link link).replays ≥ 8 then s.dropLink link
    else ((s.modLink link (fun l => { l with replays := l.replays + 1 })).bill (s.link link).sender .substrate 17 1).say (.flit link))

/-- R450: 8 replays have failed in a row, or no flit has arrived for 10,000 ticks. -/
def Link.dead (l : Link) (now : Nat) : Bool := l.up && (decide (8 ≤ l.replays) || decide (l.heard + 10000 ≤ now))

def execLinkDown (link : Nat) (s : State) : Out :=
  .next (if (s.link link).dead s.refclk then s.dropLink link else s)

/-- A command of management. Once the root core has stopped only a recovery is accepted (R454). -/
def managed (s t : State) : Out := .next (if s.boot.stopped then s else t)

/-- A link that can carry flits from tick `now` on. -/
def Link.enable (l : Link) (now : Nat) : Link :=
  { enabled := true, up := l.trained, paused := false, replays := 0, heard := now, trained := l.trained, sender := .house }

/-- A link that has retrained is enabled; until the pod index is written every link stays disabled (R450, R451). -/
def execLinkEnable (link : Nat) (s : State) : Out :=
  managed s (if s.pod.isSome && !(s.link link).up && (s.link link).trained then s.modLink link (fun l => l.enable s.refclk) else s)

def execPauseAndResumeFlits (link : Nat) (pause : Bool) (s : State) : Out :=
  .next (s.modLink link (fun l => { l with paused := pause, heard := s.refclk }))

/-! ## Management (R451, R452) -/

/-- The pod index, written once after each reset: the links that start-up has trained come up. An index that no device has is not
taken, and a later write may still give one (assumption 57). -/
def execPodIndex (x : Nat) (s : State) : Out :=
  managed s (if s.pod.isNone && decide (x < 576) then { s with pod := some x, links := s.links.map (fun l => l.enable s.refclk) } else s)

def execPanWrite (func off : Nat) (bytes : List Byte) (s : State) : Out :=
  managed s (if 1 ≤ func ∧ func < 64 ∧ off + bytes.length ≤ 64 then s.physWrite ((s.sysreg 0x11 0).toNat + 64 * func + off) bytes else s)

/-- The temperatures are those of every core; a core that is not listed is as at reset. -/
def execTelemetry (s : State) : Out :=
  managed s (s.say (.telemetry ((List.range 768).map (fun c => (c, (s.core c).temp.toInt))) (s.domains.map Domain.last)
    (s.links.map Link.up) ((s.cores.filter (fun c => c.2.fenced)).map Prod.fst) s.boot.header
    (s.accounts.map (fun a => (a.1, s.accountShown a.1)))))

/-! ## Start-up (R211, R453, R454) -/

/-- Everything of the part goes back to reset; the boot record and what management has asked for stay, and the memory of the
host and of the peers is not the part's. -/
def State.deviceReset (s : State) (b : Boot) : State :=
  { State.reset with agenda := s.agenda, fresh := s.fresh, out := s.out, boot := b,
                     mem := s.mem, poison := s.poison, crypt := s.crypt }

def Boot.enter (b : Boot) (e : BootEntry) : Boot := { b with record := b.record ++ [e], hdrCount := b.hdrCount + 1 }

/-- The step number of an entry that logs a reset by management (assumption 79). -/
def recoveryStep : Nat := 0xFF

/-- Management asks for a reset, with the alternate image of a step if it names one; the boot record logs it (R456). -/
def execRecovery (alternate : Option Nat) (s : State) : Out :=
  .next (s.deviceReset { s.boot.enter { step := recoveryStep, alt := alternate.isSome, result := 0, refclk := s.refclk, meas := zeros 16 } with
    next := 0, stopped := false, altReq := alternate.toList, meas := Boot.zero.meas })

/-- Where a boot begins in the record. -/
def BootEntry.first (e : BootEntry) : Bool := e.step == 0 || e.step == recoveryStep
/-- The entries of the last boot: those from the last entry of step 0, none where a reset by management came after it. -/
def lastBoot (l : List BootEntry) : List BootEntry :=
  (l.reverse.takeWhile (fun e => !e.first)).reverse ++ ((l.reverse.find? BootEntry.first).toList)

/-- What the root core does with a step: skip it, or run an image. -/
inductive BootPlan
  | skip
  | run (alt : Bool)
  deriving DecidableEq, Repr

def bootPlan (last : List BootEntry) (altReq : List Nat) (k : Nat) : BootPlan :=
  if last.any (fun e => e.step == k && (e.result == 1 || e.result == 2)) then (if k = 5 then .skip else .run true)
  else .run (altReq.contains k)

/-- The measurement slot of a step; step 3 has none. -/
def measSlot : Nat → Option Nat
  | 0 => some 0
  | 1 => some 1
  | 2 => some 2
  | 4 => some 3
  | 5 => some 4
  | 6 => some 5
  | 7 => some 6
  | _ => none

/-- Memory and poison of this device are cleared at step 3; memory of the host and of peers stands. -/
def State.clearDram (s : State) : State :=
  { s with mem := s.mem.filter (fun e => e.1 / 2 ^ 42 != localDev), poison := s.poison.filter (fun q => q * 32 / 2 ^ 42 != localDev),
           crypt := s.crypt.filter (fun e => e.1 * 16 / 2 ^ 42 != localDev) }

/-- The link controllers train their links; those that a pod index has been written for come up. -/
def State.trainLinks (s : State) : State :=
  { s with links := s.links.map (fun l =>
      let l := { l with trained := true }
      if s.pod.isSome then l.enable s.refclk else l) }
/-- Every sector of the DRAM is written at step 3, 2^24 in each channel, and boot is charged to the house (R348). -/
def State.clearCost (s : State) : State :=
  (List.range 768).foldl (fun s c => s.chargeHouse (.core c) 9 (2 ^ 24)) s

/-- What a step that has passed leaves. -/
def State.bootDone (s : State) (k : Nat) : State :=
  if k = 3 then s.clearDram.clearCost else if k = 5 then s.trainLinks else s

/-- The steps from `k` on, of one start: until all have passed, or one has failed and the device resets. The root core stops where
the alternate image of a required step has failed. -/
def State.bootSteps (last : List BootEntry) : Nat → Nat → State → State
  | 0, _, s => s
  | n + 1, k, s =>
    match bootPlan last s.boot.altReq k with
    | .skip =>
      State.bootSteps last n (k + 1)
        { s with boot := { s.boot.enter { step := k, alt := false, result := 3, refclk := s.refclk, meas := zeros 16 } with next := k + 1 } }
    | .run alt =>
      let img := Config.bootImage k alt
      let meas := match measSlot k with
        | some _ => ((Config.shake256 img) ++ zeros 64).take 64
        | none => zeros 64
      let res := if !Config.mldsaOk img then 1 else if !Config.componentOk k s.boot.record.length then 2 else 0
      let b := s.boot.enter { step := k, alt := alt, result := res, refclk := s.refclk, meas := meas.take 16 }
      let b := match measSlot k with
        | some i => { b with meas := lset b.meas i meas }
        | none => b
      if res ≠ 0 then s.deviceReset { b with next := 0, meas := Boot.zero.meas, altReq := [], stopped := alt && decide (k ≠ 5) }
      else State.bootSteps last n (k + 1) ({ s with boot := { b with next := k + 1 } }.bootDone k)

/-- One start of the root core. Nothing happens once start-up is over or the root core has stopped. -/
def execReset (s : State) : Out :=
  .next (if s.boot.next ≠ 0 || s.boot.stopped then s else State.bootSteps (lastBoot s.boot.record) 8 0 s)

/-- The Bench as it comes from a reset of its own: what it keeps of queues, of its visits and of reservations starts again; the
launches, whose records it reads again, and the load records that it has taken stand (assumption 78). -/
def State.benchReset (s : State) : State :=
  { s with queues := kmap (fun _ x => { x with en := false, dc := 0, overrun := false, cleared := false, held := false, run := false }) s.queues,
           visit := 0, rotation := [],
           launches := kmap (fun _ l => match l.st with
             | .reserved _ _ => { l with st := .waiting }
             | _ => l) s.launches }

/-- The root core resets the Bench: every resident workgroup is aborted, and the event logged (R453). -/
def execHeartbeatMiss (s : State) : Out :=
  .next (((s.cores.flatMap (fun c => c.2.wgs.map (fun w => (c.1, w.1, w.2)))).foldl (fun (s : State) (e : Nat × Nat × Wg) =>
    s.abortWg e.1 e.2.1 { cause := Config.heartbeatCause, orig := 0, epc := 0, earg := 0, ethr := 0, slot := e.2.2.crews.headD 0,
                          eng := false, at_ := s.refclk }) s).benchReset.log
      { kind := Config.logKind 1, die := 0xFFFF, core := 0xFFFF, who := 0, addr := 0, val := 0 })

/-! ## Configuration requests, attestation, MSI-X (R447, R453, R455) -/

def execConfigurationRequest (_write : Bool) (s : State) : Out :=
  .next (s.say (if s.boot.next < 8 then .configRetry else .configDone))

def execGetMeasurements (s : State) : Out :=
  managed s (s.say (.measurements s.boot.meas (Config.sign (Config.partId ++ s.boot.meas.flatten))))

def execMsiXUnmask (func vec : Nat) (s : State) : Out :=
  let k := func * 64 + vec
  let t := { s with msixOpen := sins k s.msixOpen, msixPend := sdel k s.msixPend }
  .next (if smem k s.msixPend then t.say (.msix func vec) else t)

end Sys2Proof.Machine
end

