-- ==== Sys2Proof/Machine/Dispatch.lean ====
section
/-! DEFINITION. What every instruction and event of the part does: one arm, one meaning. -/

namespace Sys2Proof.Machine

open Sys2Proof

def exec (i : Instr) (s : State) : Host.Outcome State Fault Refusal :=
  match i with
  | .udf => Sys2Proof.Machine.execUdf s
  | .iadd h ty d a b => Sys2Proof.Machine.execIadd h ty d a b s
  | .isub h ty d a b => Sys2Proof.Machine.execIsub h ty d a b s
  | .iadds h ty d a b => Sys2Proof.Machine.execIadds h ty d a b s
  | .isubs h ty d a b => Sys2Proof.Machine.execIsubs h ty d a b s
  | .imul h ty d a b => Sys2Proof.Machine.execImul h ty d a b s
  | .imulh h ty d a b => Sys2Proof.Machine.execImulh h ty d a b s
  | .imad h ty d a b c => Sys2Proof.Machine.execImad h ty d a b c s
  | .imadw h ty d a b c => Sys2Proof.Machine.execImadw h ty d a b c s
  | .idiv h ty d a b => Sys2Proof.Machine.execIdiv h ty d a b s
  | .irem h ty d a b => Sys2Proof.Machine.execIrem h ty d a b s
  | .imin h ty d a b => Sys2Proof.Machine.execImin h ty d a b s
  | .imax h ty d a b => Sys2Proof.Machine.execImax h ty d a b s
  | .iabs h ty d a => Sys2Proof.Machine.execIabs h ty d a s
  | .ineg h ty d a => Sys2Proof.Machine.execIneg h ty d a s
  | .iaddc h ty d a b pc => Sys2Proof.Machine.execIaddc h ty d a b pc s
  | .isubb h ty d a b pc => Sys2Proof.Machine.execIsubb h ty d a b pc s
  | .lea h ty sh d a b => Sys2Proof.Machine.execLea h ty sh d a b s
  | .and h ty d a b => Sys2Proof.Machine.execAnd h ty d a b s
  | .or h ty d a b => Sys2Proof.Machine.execOr h ty d a b s
  | .xor h ty d a b => Sys2Proof.Machine.execXor h ty d a b s
  | .andn h ty d a b => Sys2Proof.Machine.execAndn h ty d a b s
  | .not h ty d a => Sys2Proof.Machine.execNot h ty d a s
  | .bool3 h fn d a b c => Sys2Proof.Machine.execBool3 h fn d a b c s
  | .shl h ty d a b => Sys2Proof.Machine.execShl h ty d a b s
  | .shr h ty d a b => Sys2Proof.Machine.execShr h ty d a b s
  | .sar h ty d a b => Sys2Proof.Machine.execSar h ty d a b s
  | .rol h ty d a b => Sys2Proof.Machine.execRol h ty d a b s
  | .fshr h d a b c => Sys2Proof.Machine.execFshr h d a b c s
  | .popc h ty d a => Sys2Proof.Machine.execPopc h ty d a s
  | .clz h ty d a => Sys2Proof.Machine.execClz h ty d a s
  | .ctz h ty d a => Sys2Proof.Machine.execCtz h ty d a s
  | .brev h ty d a => Sys2Proof.Machine.execBrev h ty d a s
  | .bfx h ty d a b => Sys2Proof.Machine.execBfx h ty d a b s
  | .bfi h d a b c => Sys2Proof.Machine.execBfi h d a b c s
  | .bsel h d a b c => Sys2Proof.Machine.execBsel h d a b c s
  | .icmp h ty cc pd a b => Sys2Proof.Machine.execIcmp h ty cc pd a b s
  | .fcmp h cc nega absa pd a b => Sys2Proof.Machine.execFcmp h cc nega absa pd a b s
  | .sel h wide pc d a b => Sys2Proof.Machine.execSel h wide pc d a b s
  | .mov h ty d a => Sys2Proof.Machine.execMov h ty d a s
  | .movi h sx hi d imm => Sys2Proof.Machine.execMovi h sx hi d imm s
  | .movs h d num => Sys2Proof.Machine.execMovs h d num s
  | .rdl h d => Sys2Proof.Machine.execRdl h d s
  | .fclass h ty d a => Sys2Proof.Machine.execFclass h ty d a s
  | .pand h na nb pd pa pb => Sys2Proof.Machine.execPand h na nb pd pa pb s
  | .por h na nb pd pa pb => Sys2Proof.Machine.execPor h na nb pd pa pb s
  | .pxor h na nb pd pa pb => Sys2Proof.Machine.execPxor h na nb pd pa pb s
  | .pnot h pd pa => Sys2Proof.Machine.execPnot h pd pa s
  | .p2v h d a => Sys2Proof.Machine.execP2v h d a s
  | .v2p h a b => Sys2Proof.Machine.execV2p h a b s
  | .fadd h m d a b => Sys2Proof.Machine.execFadd h m d a b s
  | .fsub h m d a b => Sys2Proof.Machine.execFsub h m d a b s
  | .fmul h m d a b => Sys2Proof.Machine.execFmul h m d a b s
  | .ffma h m d a b c => Sys2Proof.Machine.execFfma h m d a b c s
  | .fmin h m d a b => Sys2Proof.Machine.execFmin h m d a b s
  | .fmax h m d a b => Sys2Proof.Machine.execFmax h m d a b s
  | .fdiv h m d a b => Sys2Proof.Machine.execFdiv h m d a b s
  | .fsqrt h m d a => Sys2Proof.Machine.execFsqrt h m d a s
  | .fscale h m d a b => Sys2Proof.Machine.execFscale h m d a b s
  | .frnd h m d a => Sys2Proof.Machine.execFrnd h m d a s
  | .fmed3 h m d a b c => Sys2Proof.Machine.execFmed3 h m d a b c s
  | .cvtfi h src hi rm dst d a => Sys2Proof.Machine.execCvtfi h src hi rm dst d a s
  | .cvtif h src rm dst d a => Sys2Proof.Machine.execCvtif h src rm dst d a s
  | .cvtff h dst src rm d a b => Sys2Proof.Machine.execCvtff h dst src rm d a b s
  | .cvtne h bg tgt d a => Sys2Proof.Machine.execCvtne h bg tgt d a s
  | .pack h w md d a b => Sys2Proof.Machine.execPack h w md d a b s
  | .unpack h w sx d a b => Sys2Proof.Machine.execUnpack h w sx d a b s
  | .qscale h md d a => Sys2Proof.Machine.execQscale h md d a s
  | .tern h out d a b => Sys2Proof.Machine.execTern h out d a b s
  | .rcp h m d a => Sys2Proof.Machine.execRcp h m d a s
  | .rsq h m d a => Sys2Proof.Machine.execRsq h m d a s
  | .ex2 h m d a => Sys2Proof.Machine.execEx2 h m d a s
  | .lg2 h m d a => Sys2Proof.Machine.execLg2 h m d a s
  | .sin h m d a => Sys2Proof.Machine.execSin h m d a s
  | .cos h m d a => Sys2Proof.Machine.execCos h m d a s
  | .sincos h m d a => Sys2Proof.Machine.execSincos h m d a s
  | .tanh h m d a => Sys2Proof.Machine.execTanh h m d a s
  | .dot2 h fa fb d a b c => Sys2Proof.Machine.execDot2 h fa fb d a b c s
  | .dot4 h fa fb sc d a b c => Sys2Proof.Machine.execDot4 h fa fb sc d a b c s
  | .dot8 h fa fb sc d a b c => Sys2Proof.Machine.execDot8 h fa fb sc d a b c s
  | .tdot h byte d a b c => Sys2Proof.Machine.execTdot h byte d a b c s
  | .geti h wide sw d a b => Sys2Proof.Machine.execGeti h wide sw d a b s
  | .getb h wide wrap sw d a b => Sys2Proof.Machine.execGetb h wide wrap sw d a b s
  | .geta h wide wrap sw d a b => Sys2Proof.Machine.execGeta h wide wrap sw d a b s
  | .getx h wide sw d a b => Sys2Proof.Machine.execGetx h wide sw d a b s
  | .pany h sw pd pa => Sys2Proof.Machine.execPany h sw pd pa s
  | .pall h sw pd pa => Sys2Proof.Machine.execPall h sw pd pa s
  | .pmask h cnt d pa => Sys2Proof.Machine.execPmask h cnt d pa s
  | .peers h wide d a => Sys2Proof.Machine.execPeers h wide d a s
  | .lead h last pd => Sys2Proof.Machine.execLead h last pd s
  | .scan h ty op excl sat d a => Sys2Proof.Machine.execScan h ty op excl sat d a s
  | .vred h ty op sat d a => Sys2Proof.Machine.execVred h ty op sat d a s
  | .regroup h a n => Sys2Proof.Machine.execRegroup h a n s
  | .regroupExchange core wg => Sys2Proof.Machine.execRegroupExchange core wg s
  | .bx h tgt => Sys2Proof.Machine.execBx h tgt s
  | .bxc h once tt ft pc => Sys2Proof.Machine.execBxc h once tt ft pc s
  | .bxi h a => Sys2Proof.Machine.execBxi h a s
  | .next h => Sys2Proof.Machine.execNext h s
  | .call h link a rb => Sys2Proof.Machine.execCall h link a rb s
  | .calli h link sa save rb => Sys2Proof.Machine.execCalli h link sa save rb s
  | .ret h a restore => Sys2Proof.Machine.execRet h a restore s
  | .exit h => Sys2Proof.Machine.execExit h s
  | .exitn h k a => Sys2Proof.Machine.execExitn h k a s
  | .yield h tgt => Sys2Proof.Machine.execYield h tgt s
  | .nop h => Sys2Proof.Machine.execNop h s
  | .ld h sz sx ord hint d m => Sys2Proof.Machine.execLd h sz sx ord hint d m s
  | .st h sz ord hint a m => Sys2Proof.Machine.execSt h sz ord hint a m s
  | .ldc h sz sx d m => Sys2Proof.Machine.execLdc h sz sx d m s
  | .lds h sz sx d m => Sys2Proof.Machine.execLds h sz sx d m s
  | .sts h sz a m => Sys2Proof.Machine.execSts h sz a m s
  | .ldt h k md hint d m => Sys2Proof.Machine.execLdt h k md hint d m s
  | .atom h op sz ord d m => Sys2Proof.Machine.execAtom h op sz ord d m s
  | .atomcas h sz ord d m => Sys2Proof.Machine.execAtomcas h sz ord d m s
  | .red h op sz ord a m => Sys2Proof.Machine.execRed h op sz ord a m s
  | .atoms h op sz d m => Sys2Proof.Machine.execAtoms h op sz d m s
  | .atomcass h sz d m => Sys2Proof.Machine.execAtomcass h sz d m s
  | .fence h kind sc => Sys2Proof.Machine.execFence h kind sc s
  | .bind h k img => Sys2Proof.Machine.execBind h k img s
  | .unbind h k => Sys2Proof.Machine.execUnbind h k s
  | .cflush h l2 m => Sys2Proof.Machine.execCflush h l2 m s
  | .cinv h l2 m => Sys2Proof.Machine.execCinv h l2 m s
  | .prf h l2 hint m => Sys2Proof.Machine.execPrf h l2 hint m s
  | .hint h md lv m => Sys2Proof.Machine.execHint h md lv m s
  | .ipf h n m => Sys2Proof.Machine.execIpf h n m s
  | .isync h => Sys2Proof.Machine.execIsync h s
  | .stashmap h d sg sp => Sys2Proof.Machine.execStashmap h d sg sp s
  | .stashwb h sh => Sys2Proof.Machine.execStashwb h sh s
  | .stashdrop h nowb sh => Sys2Proof.Machine.execStashdrop h nowb sh s
  | .binit h o a b => Sys2Proof.Machine.execBinit h o a b s
  | .arrive h d bar => Sys2Proof.Machine.execArrive h d bar s
  | .bexpect h bar b => Sys2Proof.Machine.execBexpect h bar b s
  | .wait h k all qd d sl timeout => Sys2Proof.Machine.execWait h k all qd d sl timeout s
  | .waitSatisfaction key => Sys2Proof.Machine.execWaitSatisfaction key s
  | .waitTimeout key => Sys2Proof.Machine.execWaitTimeout key s
  | .waitMemoryRead key => Sys2Proof.Machine.execWaitMemoryRead key s
  | .pause h n => Sys2Proof.Machine.execPause h n s
  | .pauseExpiry key => Sys2Proof.Machine.execPauseExpiry key s
  | .drain h mem eng flg => Sys2Proof.Machine.execDrain h mem eng flg s
  | .gbar h => Sys2Proof.Machine.execGbar h s
  | .gbarRelease key => Sys2Proof.Machine.execGbarRelease key s
  | .copy h o dir dst src len bar => Sys2Proof.Machine.execCopy h o dir dst src len bar s
  | .copy2d h o dir dst src shape bar => Sys2Proof.Machine.execCopy2d h o dir dst src shape bar s
  | .rsv h grainer qd grp d count => Sys2Proof.Machine.execRsv h grainer qd grp d count s
  | .rls h grp mask => Sys2Proof.Machine.execRls h grp mask s
  | .cld h o place src stride => Sys2Proof.Machine.execCld h o place src stride s
  | .mma h o s4 acc sum out act ctl => Sys2Proof.Machine.execMma h o s4 acc sum out act ctl s
  | .gmv h o desc => Sys2Proof.Machine.execGmv h o desc s
  | .mfence h d => Sys2Proof.Machine.execMfence h d s
  | .copyBeat core cmd => Sys2Proof.Machine.execCopyBeat core cmd s
  | .cldRow core cmd => Sys2Proof.Machine.execCldRow core cmd s
  | .mmaVector core cmd => Sys2Proof.Machine.execMmaVector core cmd s
  | .gmvSegmentStart core cmd => Sys2Proof.Machine.execGmvSegmentStart core cmd s
  | .engineFailureDelivery key => Sys2Proof.Machine.execEngineFailureDelivery key s
  | .enq h n k va => Sys2Proof.Machine.execEnq h n k va s
  | .enqr h n k ss cnt => Sys2Proof.Machine.execEnqr h n k ss cnt s
  | .deq h n pd vd => Sys2Proof.Machine.execDeq h n pd vd s
  | .launch h d q rec => Sys2Proof.Machine.execLaunch h d q rec s
  | .trap h a => Sys2Proof.Machine.execTrap h a s
  | .rte h => Sys2Proof.Machine.execRte h s
  | .movsr h num d => Sys2Proof.Machine.execMovsr h num d s
  | .setsr h num a => Sys2Proof.Machine.execSetsr h num a s
  | .mread h md d => Sys2Proof.Machine.execMread h md d s
  | .bkpt h tag => Sys2Proof.Machine.execBkpt h tag s
  | .halt h => Sys2Proof.Machine.execHalt h s
  | .tmark h a => Sys2Proof.Machine.execTmark h a s
  | .instructionCompletion key id => Sys2Proof.Machine.execInstructionCompletion key id s
  | .demandFetch key => Sys2Proof.Machine.execDemandFetch key s
  | .faultRecordWrite key => Sys2Proof.Machine.execFaultRecordWrite key s
  | .faultRecordRetry ctx => Sys2Proof.Machine.execFaultRecordRetry ctx s
  | .replay ctx => Sys2Proof.Machine.execReplay ctx s
  | .launchQueueWatch func q => Sys2Proof.Machine.execLaunchQueueWatch func q s
  | .codeObjectLoad func q => Sys2Proof.Machine.execCodeObjectLoad func q s
  | .codeObjectUnload func q => Sys2Proof.Machine.execCodeObjectUnload func q s
  | .queueVisit func q => Sys2Proof.Machine.execQueueVisit func q s
  | .cooperativeAdmission launch => Sys2Proof.Machine.execCooperativeAdmission launch s
  | .gangReserve launch => Sys2Proof.Machine.execGangReserve launch s
  | .gangReserveTimeout launch => Sys2Proof.Machine.execGangReserveTimeout launch s
  | .nodeConsumerDispatch launch => Sys2Proof.Machine.execNodeConsumerDispatch launch s
  | .retirementWriteback core wg => Sys2Proof.Machine.execRetirementWriteback core wg s
  | .workgroupRetirement core wg => Sys2Proof.Machine.execWorkgroupRetirement core wg s
  | .invalidationRequest func => Sys2Proof.Machine.execInvalidationRequest func s
  | .forcedPreemption core wg cause => Sys2Proof.Machine.execForcedPreemption core wg cause s
  | .engineDrainTimeout core wg => Sys2Proof.Machine.execEngineDrainTimeout core wg s
  | .restore ix => Sys2Proof.Machine.execRestore ix s
  | .workgroupAbort core wg => Sys2Proof.Machine.execWorkgroupAbort core wg s
  | .coreFence core site => Sys2Proof.Machine.execCoreFence core site s
  | .eccError site correctable => Sys2Proof.Machine.execEccError site correctable s
  | .sensorSample tiles substrate => Sys2Proof.Machine.execSensorSample tiles substrate s
  | .intervalEnd measured => Sys2Proof.Machine.execIntervalEnd measured s
  | .grant core func => Sys2Proof.Machine.execGrant core func s
  | .debtReport core func => Sys2Proof.Machine.execDebtReport core func s
  | .stallSample core seq => Sys2Proof.Machine.execStallSample core seq s
  | .loadSample key pc va level tlbMiss poison times => Sys2Proof.Machine.execLoadSample key pc va level tlbMiss poison times s
  | .stop core seq => Sys2Proof.Machine.execStop core seq s
  | .resume core seq => Sys2Proof.Machine.execResume core seq s
  | .step core seq slot => Sys2Proof.Machine.execStep core seq slot s
  | .breakpointMatch key => Sys2Proof.Machine.execBreakpointMatch key s
  | .systemRegisterWrite agent num sel x => Sys2Proof.Machine.execSystemRegisterWrite agent num sel x s
  | .stateExport => Sys2Proof.Machine.execStateExport s
  | .restart => Sys2Proof.Machine.execRestart s
  | .release => Sys2Proof.Machine.execRelease s
  | .cxlMemRead off n => Sys2Proof.Machine.execCxlMemRead off n s
  | .cxlMemWrite off data => Sys2Proof.Machine.execCxlMemWrite off data s
  | .remoteRequest peer pa op => Sys2Proof.Machine.execRemoteRequest peer pa op s
  | .flitReplay link => Sys2Proof.Machine.execFlitReplay link s
  | .linkDown link => Sys2Proof.Machine.execLinkDown link s
  | .telemetry => Sys2Proof.Machine.execTelemetry s
  | .panWrite func off bytes => Sys2Proof.Machine.execPanWrite func off bytes s
  | .podIndex x => Sys2Proof.Machine.execPodIndex x s
  | .linkEnable link => Sys2Proof.Machine.execLinkEnable link s
  | .recovery alternate => Sys2Proof.Machine.execRecovery alternate s
  | .reset => Sys2Proof.Machine.execReset s
  | .heartbeatMiss => Sys2Proof.Machine.execHeartbeatMiss s
  | .debuggerWrite key off bytes => Sys2Proof.Machine.execDebuggerWrite key off bytes s
  | .configurationRequest write => Sys2Proof.Machine.execConfigurationRequest write s
  | .getMeasurements => Sys2Proof.Machine.execGetMeasurements s
  | .pauseAndResumeFlits link pause => Sys2Proof.Machine.execPauseAndResumeFlits link pause s
  | .msiXUnmask func vec => Sys2Proof.Machine.execMsiXUnmask func vec s

end Sys2Proof.Machine
end

