-- ==== Sys2Proof/Machine/Issue.lean ====
section
/-! DEFINITION. The issue of an instruction: the word at a crew's position (R71, R89), what lets a crew issue (R27, R36, R77,
R78), the order of what arises at a boundary (R409), and the choice of a sequencer (R27). -/

namespace Sys2Proof

/-- The instructions that a crew cannot start while an engine's entries are full, a command is in the way or a flag is
pending (R295, R301, R318, R152). -/
def Instr.mayHold : Instr → Bool
  | .rls _ _ _ | .copy _ _ _ _ _ _ _ | .copy2d _ _ _ _ _ _ _ | .cld _ _ _ _ _ | .mma _ _ _ _ _ _ _ _ | .gmv _ _ _
  | .mfence _ _ | .regroup _ _ _ => true
  | _ => false

/-- The instructions of groups 0x8 and above, which reach memory, engines, barriers or queues. -/
def Instr.reaches (i : Instr) : Bool := (i.raw.map (fun r => decide (0x100 ≤ r.op.toNat))).getD false

/-- The loads and hints, past which an earlier load of the crew may still be performed (R243, R276). -/
def Instr.lets : Instr → Bool
  | .ld _ _ _ .plain _ _ _ | .ldc _ _ _ _ _ | .ldt _ _ _ _ _ _ | .lds _ _ _ _ _ | .prf _ _ _ _ | .hint _ _ _ _
  | .ipf _ _ _ => true
  | _ => false

end Sys2Proof

namespace Sys2Proof.Machine

open Sys2Proof

/-- The illegal-instruction fault of a word that does not decode (R89, R408). -/
def State.illegalWord (s : State) (key : CrewKey) (cr : Crew) : State :=
  raiseAt (s.modCrew key (fun c => { c with replay := none })) key
    { cause := 0x01, eng := false, epc := cr.pos, earg := cr.pos, ethr := cr.liveMask, toH := true }

/-! ## Readiness (R27) -/

/-- A sequencer starts at most one instruction in an ac (R27), and under throttling only in the first ac of each four
(R28, R360). -/
def State.seqAllows (s : State) (key : CrewKey) : Bool :=
  (s.seq key.core (seqOf key.slot)).issued != some s.now && !s.throttled key.core

/-- What is taken before the instruction (R409): a failure that is due, or a breakpoint's match. -/
def State.taken (s : State) (key : CrewKey) (cr : Crew) (wg : Wg) : Bool :=
  s.failureDue key cr wg || (s.matching key cr wg).isSome

/-- The crew may issue the word at its position, or take the word's fault. -/
def State.mayIssue (s : State) (key : CrewKey) (cr : Crew) (wg : Wg) : Bool :=
  s.mayStand key cr wg && cr.stallOver s.now &&
  (match cr.word with
    | .absent => false
    | .bad => true
    | .ok i => cr.flagsAllow i)

/-! ## The issue -/

/-- A step of the debugger is over once its crew has issued (R428). -/
def State.afterIssue (s : State) (key : CrewKey) : State :=
  if (s.seq key.core (seqOf key.slot)).stepping = some key.slot then s.stepDone key.core (seqOf key.slot) key.slot else s

/-- The sequencer has started an instruction in this ac (R27). -/
def State.markIssue (s : State) (key : CrewKey) : State :=
  s.modCore key.core (·.modSeq (seqOf key.slot) (fun q => { q with issued := some s.now }))

/-- Before an instruction that reaches beyond the registers: the writes that a FENCE or a release of its core waits for have
been accepted, and the reads of the crew's earlier loads have been performed, unless the instruction lets them be later
(R243, R258, R276). -/
def State.settled (s : State) (key : CrewKey) (i : Instr) : State :=
  if i.reaches then
    let s := s.landFlights (fun f => f.must && f.core == key.core)
    if i.lets then s else s.modCrew key Crew.readsDone
  else s

/-- After an instruction's own effect: no crew issues, and a debugger's step is over if the instruction has issued. An
instruction that could not start yet (R295) leaves `fresh` as it was. -/
def State.settleIssue (t : State) (before : Nat) (key : CrewKey) : State :=
  if t.fresh = before then { t with cur := none } else ({ t with cur := none }.markIssue key).afterIssue key

/-- What the word at a crew's position does. -/
def State.start (s : State) (key : CrewKey) (cr : Crew) : Out :=
  match cr.word with
  | .absent => .next s
  | .bad => .next (((s.illegalWord key cr).markIssue key).afterIssue key)
  | .ok i =>
    let u := s.settled key i
    match exec i { u with cur := some key } with
    | .next t => .next (t.settleIssue u.fresh key)
    | .fault f => .fault f
    | .refused r => .refused r

/-! ## The choice of a sequencer (R27) -/

/-- Some link carries no flit: an access to a peer may have to wait (R448). -/
def State.linksHold (s : State) : Bool := s.pod.isSome && (List.range s.links.length).any s.linkStops

/-- Whether the word at the position would start: nothing that it needs is taken (R295, R301, R318, R152), and no link holds what it
sends (R448; assumption 84). -/
def State.starts (s : State) (key : CrewKey) (cr : Crew) : Bool :=
  match cr.word with
  | .ok i =>
    if i.mayHold || (i.reaches && s.linksHold) then
      let u := { s with blocked := false }.settled key i
      match exec i { u with cur := some key } with
      | .next t => t.fresh != u.fresh && !t.blocked
      | _ => true
    else true
  | _ => true

def State.ready (s : State) (key : CrewKey) (cr : Crew) (wg : Wg) : Bool := s.mayIssue key cr wg && s.starts key cr

/-- A crew's place in the choice: its class, 0 for the highest, a pause below all; then the ac of its last issue; then its
slot. The least comes first. A crew that has not issued since its dispatch or restore comes before every crew that has: R27
ranks such crews among themselves alone (assumption 51). -/
def choiceKey (cr : Crew) (wg : Wg) (slot : Nat) : Nat × Nat × Nat :=
  ((if cr.pause ≠ 0 then 4 else 3 - min 3 wg.cls), (match cr.lastIssue with | none => 0 | some n => n + 1), slot)

def beforeKey (a b : Nat × Nat × Nat) : Bool :=
  decide (a.1 < b.1) || (a.1 == b.1 && (decide (a.2.1 < b.2.1) || (a.2.1 == b.2.1 && decide (a.2.2 < b.2.2))))

/-- The ready crew that a sequencer chooses. -/
def State.chosen (s : State) (core q : Nat) : Option CrewKey :=
  let l := ((s.core core).slotsOf q).filterMap (fun sl =>
    match s.crew? ⟨core, sl⟩ with
    | some cr =>
      match s.wg? core cr.wg with
      | some wg => if s.ready ⟨core, sl⟩ cr wg then some (choiceKey cr wg sl) else none
      | none => none
    | none => none)
  match l with
  | [] => none
  | k :: t => some ⟨core, (t.foldl (fun a b => if beforeKey b a then b else a) k).2.2⟩

/-- The crew is the one that its sequencer would start now (R27). -/
def State.wouldIssue (s : State) (key : CrewKey) : Bool := s.seqAllows key && s.chosen key.core (seqOf key.slot) == some key

/-- The crew of a slot issues the instruction at its position: the crew that its sequencer chooses, in an ac in which the sequencer
may start one. What goes before the instruction is taken first (R409). Nothing happens otherwise. -/
def State.issue (s : State) (key : CrewKey) : Out :=
  match s.crew? key with
  | none => .next s
  | some cr =>
    match s.wg? key.core cr.wg with
    | none => .next s
    | some wg =>
      if s.wouldIssue key && !s.taken key cr wg then s.start key cr
      else .next s

/-- A sequencer's turn: it issues for the crew that it chooses, as the state then stands (R79). -/
def State.turn (s : State) (core q : Nat) : Out :=
  match s.chosen core q with
  | some key => s.issue key
  | none => .next s

/-- The turns of one ac, in ascending core and sequencer. -/
def State.turns (s : State) : List Move :=
  (kkeys (s.cores.filter (fun c => !c.2.crews.isEmpty))).flatMap (fun c => (List.range 4).map (Move.turn c))

end Sys2Proof.Machine
end

