-- ==== Sys2Proof/Machine/Schedule.lean ====
section
/-! DEFINITION. The part's own order of steps, used where the environment's schedule is empty (assumption 1): the events
that are due, the turn of each sequencer, and the passing of an ac with what falls due at it. -/

namespace Sys2Proof.Machine

open Sys2Proof

/-! ## Events that are due -/

def whenDue (b : Bool) (i : Instr) : List Instr := if b then [i] else []

/-- A condition of a blocked WAIT holds, or its test finds poison (R331); `mem` selects the memory words, which are read again
once the home slice has accepted a write (R332). -/
def State.waitDue (s : State) (key : CrewKey) (cr : Crew) (wg : Wg) (w : WaitSt) (mem : Bool) : Bool :=
  cr.park.isNone && !(s.core key.core).stopped key.slot && wg.abort.isNone &&
    (w.conds.zip w.first).any (fun e => e.2.isNone && e.1.isMem == mem &&
      (match (s.condHolds (accOf key.core cr.wg wg) cr w.sf e.1).2 with
        | .ok false => false
        | .error (.park _ _ _) => !mem
        | _ => true))

/-- A park whose record has not been tried (R227). -/
def Park.fresh (p : Park) : Bool := p.unwritten && !p.logged
def Park.waitsRoom (p : Park) : Bool := p.unwritten && p.logged

/-- The parks of a crew's slot. -/
def State.parksOf (s : State) (key : CrewKey) (cr : Crew) : List Park :=
  cr.park.toList ++ ((s.core key.core).cmds.filter (fun c => c.slot == key.slot)).filterMap Cmd.park?

def State.crewDue (s : State) (key : CrewKey) (cr : Crew) (wg : Wg) : List Instr :=
  whenDue ((s.parksOf key cr).any Park.fresh && (kfind wg.ctx s.fqFailed).isNone) (.faultRecordWrite key) ++
  (match cr.owed.head? with
    | some o => [.instructionCompletion key o.id]
    | none => []) ++
  (match cr.block with
    | .wait w => whenDue (s.waitDue key cr wg w false) (.waitSatisfaction key) ++
        whenDue (s.waitDue key cr wg w true) (.waitMemoryRead key) ++
        whenDue (w.ticks == some 0 && cr.park.isNone && !(s.core key.core).stopped key.slot) (.waitTimeout key)
    | .gbar _ _ => whenDue (s.gbarReady cr wg.launch) (.gbarRelease key)
    | _ => []) ++
  whenDue (s.failureDue key cr wg) (.engineFailureDelivery key) ++
  whenDue ((s.matching key cr wg).isSome && s.wouldIssue key) (.breakpointMatch key) ++
  whenDue (s.mayStand key cr wg && (match cr.fetchAt with | .need _ => true | _ => false)) (.demandFetch key)

/-- Whether a crew without live threads still has words to issue up to the NEXT that finishes it (R166, R373): the part's
own round lets it, before the retirement that R19 allows. -/
def State.toFinish (s : State) (key : CrewKey) (cr : Crew) : Bool :=
  !cr.finished && cr.park.isNone && cr.block == .none && !(s.core key.core).stopped key.slot

def State.wgDue (s : State) (c w : Nat) (x : Wg) : List Instr :=
  whenDue x.abort.isSome (.workgroupAbort c w) ++
  whenDue (x.crews.any (fun sl => match s.crew? ⟨c, sl⟩ with
      | some cr => (match cr.block with | .regroup _ _ _ _ _ => true | _ => false)
      | none => false) && s.regroupReady c x.crews && x.abort.isNone) (.regroupExchange c w) ++
  (if s.mayRetire c w x && !x.crews.any (fun sl => match s.crew? ⟨c, sl⟩ with
        | some cr => s.toFinish ⟨c, sl⟩ cr
        | none => false) then
      [if x.written then .workgroupRetirement c w else .retirementWriteback c w]
    else []) ++
  (match x.save with
    | some (cause, since) =>
      whenDue (x.abort.isNone && !x.written && s.saveReady c w x) (.forcedPreemption c w cause) ++
      whenDue (decide (since + 2000 ≤ s.refclk) && (s.core c).cmds.any (fun cmd => cmd.wg == w && cmd.runs))
        (.engineDrainTimeout c w)
    | none => [])

/-- The unit event of a command. -/
def Cmd.unit (core : Nat) (c : Cmd) : Instr :=
  match c.op with
  | .copy _ _ _ _ _ _ _ _ _ _ => .copyBeat core c.id
  | .cld _ _ _ _ _ _ _ => .cldRow core c.id
  | .mma _ _ _ _ _ _ _ _ _ _ => .mmaVector core c.id
  | .gmv _ _ _ _ _ _ _ _ _ _ _ => .gmvSegmentStart core c.id

def State.coreDue (s : State) (c : Nat) (co : Core) : List Instr :=
  co.crews.flatMap (fun e => match kfind e.2.wg co.wgs with
    | some wg => s.crewDue ⟨c, e.1⟩ e.2 wg
    | none => []) ++
  co.cmds.flatMap (fun cmd => whenDue (s.unitReady c cmd) (cmd.unit c)) ++
  co.wgs.flatMap (fun e => s.wgDue c e.1 e.2) ++
  co.grants.flatMap (fun e => whenDue (decide (e.2.debt > 0) && !s.panRefuses e.1) (.grant c e.1)) ++
  (match co.samples.head? with
    | some x => [.loadSample ⟨c, 0⟩ x.pc.toNat x.va.toNat x.level x.tlb x.poison ((List.range 4).map (Config.sampleTime s.refclk))]
    | none => [])

/-- The contexts of resident workgroups and of waiting error records. -/
def State.busyContexts (s : State) : List Nat :=
  s.fqPend.foldl (fun l r => sins r.ctx l) (s.cores.foldl (fun l c => c.2.wgs.foldl (fun l w => sins w.2.ctx l) l) [])

/-- A fault queue can take a record. -/
def State.fqRoom (s : State) (ctx : Nat) : Bool :=
  match s.ctxDesc ctx with
  | none => false
  | some d => match (s.benchRead ctx d.fq.toNat 64).2 with
    | none => false
    | some b => ringSlots (natOfBytes (b.take 8)) (natOfBytes ((b.drop 8).take 8)) (min 16 (natOfBytes ((b.drop 16).take 1))) 1

def State.contextDue (s : State) (ctx : Nat) : List Instr :=
  if (kfind ctx s.fqFailed).isSome then whenDue (kget false ctx s.fqFailed) (.faultRecordRetry ctx)
  else
    (match s.replayWord ctx with
      | some (_, h) => whenDue (h != 0) (.replay ctx)
      | none => []) ++
    whenDue ((s.fqPend.any (fun r => r.ctx == ctx) ||
        s.allCrews.any (fun e => e.2.2.ctx == ctx && (s.parksOf e.1 e.2.1).any Park.waitsRoom)) && s.fqRoom ctx)
      (.faultRecordRetry ctx)

/-! ### Queues and rings -/

/-- A watched header calls for the Bench (R380, R381, R387). -/
def State.watchDue (s : State) (func q : Nat) : Bool :=
  match s.queueHead func q with
  | none => false
  | some h =>
    let x := s.qstate func q
    let y := x.seen h
    decide (y ≠ x) || (h.hold && !x.held && s.queueQuiet func q) || (!h.hold && x.held) ||
      (h.en && !y.overrun && h.waiting != 0 &&
        (decide (h.waiting > 2 ^ h.log2n) || (!h.hold && decide (s.launches.length < 256) && x.load.isNone)))

def State.queueDue (s : State) (func q : Nat) : List Instr :=
  whenDue (s.watchDue func q) (.launchQueueWatch func q) ++
  (match s.loadDue func q with
    | some (_, _, rec_) => [if fld rec_ 0x10 8 = 0 then .codeObjectUnload func q else .codeObjectLoad func q]
    | none => [])

/-- The queue that the rotation visits next, where one of the waiting queues can dispatch or its gang can be tried (R383, R386). A
visit that dispatches nothing passes the turn on. -/
def State.visitDue (s : State) : List Instr :=
  if s.waitingQueues.any (fun e => s.goes e.2.2) then
    match s.dueVisit with
    | some k => [.queueVisit (k % 4096 / 64) (k % 64)]
    | none => []
  else []

/-- What an event would make of the launches. -/
def State.movesLaunches (s : State) (i : Instr) : Bool :=
  match exec i s with
  | .next t => decide (t.launches ≠ s.launches)
  | _ => false

def State.launchDue (s : State) (id : Nat) (l : Launch) : List Instr :=
  whenDue (l.node.isSome && (s.nodeNext l).2) (.nodeConsumerDispatch id) ++
  whenDue (l.coop && !l.gang && s.movesLaunches (.cooperativeAdmission id)) (.cooperativeAdmission id) ++
  whenDue (l.gang && s.movesLaunches (.gangReserve id)) (.gangReserve id) ++
  (match l.st with
    | .reserved _ since => whenDue (decide (since + 10000 < s.refclk)) (.gangReserveTimeout id)
    | _ => [])

def State.ringDue (s : State) (r : RingId) : Bool :=
  match s.key r.base with
  | none => false
  | some k =>
    let h := QHead.ofNat (s.peekNat k 64)
    let x := s.qstate r.table r.ix
    decide (x.seen h ≠ x) || (h.en && !(x.seen h).overrun && h.waiting != 0)

def State.requestDue (s : State) : List Instr :=
  if s.ringDue s.reqRing then
    match s.nextReq with
    | some q => [if q.kind = 1 then .restart else if q.kind = 2 then .release else .stateExport]
    | none => [.stateExport]
  else []

/-- The sensors as they read now (R346). -/
def State.sample (s : State) : Instr :=
  .sensorSample ((List.range 768).map (fun c => (c, Config.tileTemp s.refclk c))) (Config.substrateTemp s.refclk)

/-- What is due before the sequencers issue; the first sample follows start-up (R343). -/
def State.dueEvents (s : State) : List Instr :=
  if s.boot.next < 8 then whenDue (s.boot.next == 0 && !s.boot.stopped) .reset
  else if !s.sensed then [s.sample]
  else
    s.cores.flatMap (fun c => s.coreDue c.1 c.2) ++
    s.busyContexts.flatMap s.contextDue ++
    (List.range 64).flatMap (fun f => (List.range (s.lqCount f)).flatMap (s.queueDue f)) ++
    s.visitDue ++
    s.launches.flatMap (fun l => s.launchDue l.1 l.2) ++
    (List.range 64).flatMap (fun f => whenDue (s.ringDue (s.invRing f)) (.invalidationRequest f)) ++
    s.requestDue ++
    s.saved.flatMap (fun v => whenDue (v.2.cause != 0 && (s.restorable v.2).isSome) (.restore v.1))

/-! ## The passing of time -/

/-- A tick of a crew: a WAIT's timeout (R331, R333). -/
def Crew.tick (stopped : Bool) (cr : Crew) : Crew :=
  match cr.block with
  | .wait w => if cr.park.isSome || stopped then cr else { cr with block := .wait { w with ticks := w.ticks.map (· - 1) } }
  | _ => cr

/-- A PAUSE remainder falls by one in an ac (R334); the event PAUSE_EXPIRY takes the last one. -/
def Crew.pauseAc (cr : Crew) : Crew := if cr.pause.toNat ≤ 1 then cr else { cr with pause := cr.pause - 1 }

/-- Whom an engine resource that is held is charged to. -/
def Core.ownerWg (co : Core) : Owner → Option Nat
  | .crew sl => (kfind sl co.crews).map Crew.wg
  | .group w _ => some w

/-- An engine's ac of work has passed. -/
def Core.engineAc (co : Core) : Core :=
  { co with cim := co.cim.map (fun m => { m with busy := m.busy - 1 }), grainBusy := co.grainBusy - 1 }

/-- Classes 19 and 20 of one ac: a macro that is held and does no plane pass, a Grainer that is held and reads no symbol
(R345). -/
def State.idleCharges (s : State) (c : Nat) : State :=
  let co := s.core c
  let s := co.cim.foldl (fun s m => match m.owner.bind co.ownerWg with
    | some w => if m.busy = 0 then s.charge c w (.core c) 19 1 else s
    | none => s) s
  (match co.grainer.bind co.ownerWg with
  | some w => if co.grainBusy = 0 then s.charge c w (.core c) 20 1 else s
  | none => s).modCore c Core.engineAc

/-- The crew slots of resident workgroups count one ac on the die and on the substrate (R352). -/
def State.slotTime (s : State) : State :=
  s.cores.foldl (fun s c => c.2.wgs.foldl (fun (s : State) (w : Nat × Wg) =>
    let n := w.2.crews.length
    let add (d : Domain) : Domain := { d with slotAc := kput w.2.ctx (kget 0 w.2.ctx d.slotAc + n) d.slotAc }
    { s with domains := lmod (lmod s.domains (c.1 / 192) add) 4 add }) s) s

/-- The pauses that run out with this ac. -/
def State.pausesOut (s : State) : List Instr :=
  s.cores.flatMap (fun c => c.2.crews.flatMap (fun e => whenDue (e.2.pause == 1) (.pauseExpiry ⟨c.1, e.1⟩)))

/-- A WAIT reads its words at least once in 64 ticks (R332). -/
def State.memoryReads (s : State) : List Instr :=
  s.cores.flatMap (fun c => c.2.crews.flatMap (fun e => match e.2.block with
    | .wait w => whenDue (w.conds.any WaitCond.isMem) (.waitMemoryRead ⟨c.1, e.1⟩)
    | _ => []))

/-- The sequencers that a ring samples in this ac (R339). -/
def State.stallDue (s : State) : List Instr :=
  (s.cores.filter (fun c => !c.2.crews.isEmpty)).flatMap (fun c => (List.range 4).flatMap (fun q =>
    whenDue ((s.seqFuncs c.1 q).any (fun f => s.stallTime f && (s.stallNext c.1 q f).isSome)) (.stallSample c.1 q)))

/-- The reports that refill a refusing pan: the cores that hold a grant record of the function, or one core where none
does, since a check without a debt only refills (R355). -/
def State.debtReports (s : State) (f : Nat) : List Instr :=
  match s.cores.filter (fun c => (kfind f c.2.grants).isSome) with
  | [] => [.debtReport 0 f]
  | l => l.map (fun c => .debtReport c.1 f)

/-- What falls due at a tick (R227, R332, R346, R350, R355). -/
def State.tickEvents (s : State) : List Instr :=
  if s.boot.next < 8 then []
  else
    (if s.refclk % 100000 = 0 then [.intervalEnd []] else []) ++
    (if s.refclk % 1000 = 0 then
      s.sample ::
        (List.range 64).flatMap (fun f => if s.panRefuses f then s.debtReports f else []) ++
        (kkeys s.fqFailed).map Instr.faultRecordRetry
     else []) ++
    (if s.refclk % 64 = 0 then s.memoryReads else [])

/-- Event 10: an ac in which the throttle holds back a sequencer that has a ready crew, counted for that sequencer and the
context of the crew that it would choose (R340, R360; assumption 46). -/
def State.throttledAc (s : State) : State :=
  (kkeys (s.cores.filter (fun c => !c.2.crews.isEmpty))).foldl (fun (s : State) c =>
    if s.throttled c then
      (List.range 4).foldl (fun (s : State) q => match s.chosen c q with
        | some key => match s.crew? key with
          | some cr => match s.wg? c cr.wg with
            | some wg => s.count c wg.ctx wg.conf 10 1
            | none => s
          | none => s
        | none => s) s
    else s) s

/-- A reference tick begins: REFCLK goes up by one, and the package sensors have measured the tick that is over (R343). No context is
created before start-up is over (R453). -/
def State.tick (s : State) : State :=
  let s := { s with refclk := s.refclk + 1, sub := 0,
                    domains := s.domains.mapIdx (fun d (x : Domain) => x.measure (Config.domainEnergy s.refclk d)) }
  let s := { s with cores := kmap (fun _ co => { co with crews := kmap (fun sl cr => cr.tick (co.stopped sl)) co.crews }) s.cores }
  if s.boot.next < 8 then s else s.watchContexts

/-- One ac passes; every seventh begins a tick (R3). -/
def State.ac (s : State) : State :=
  let out := s.pausesOut
  let s := s.throttledAc
  let s := { s with cores := kmap (fun _ co => { co with crews := kmap (fun _ cr => cr.pauseAc) co.crews }) s.cores }
  let s := ((kkeys (s.cores.filter (fun c => !c.2.wgs.isEmpty))).foldl State.idleCharges s).slotTime
  let tick := decide (6 ≤ s.sub)
  let s := if tick then s.tick else { s with sub := s.sub + 1 }
  let s := s.undrainAll
  let due := out ++ s.stallDue ++ (if tick then s.tickEvents else [])
  { s with agenda := due.map Move.event ++ s.agenda }

/-! ## A round, and one move -/

/-- A write on its way needs a flit of a link that carries none. -/
def State.linkHeld (s : State) (f : Flight) : Bool := match homeOf (128 * f.line) with
  | .peer _ => s.linkStops (s.linkOf f.line)
  | _ => false

/-- The acceptances of the writes on their way, oldest first, past those that such a link holds. -/
def State.accepts (s : State) : List Move :=
  (s.flight.foldl (fun (r : List Move × Nat) f => if s.linkHeld f then (r.1, r.2 + 1) else (r.1 ++ [.accept r.2], r.2)) ([], 0)).1

/-- The part's own round: the writes on their way are accepted, then what is due, completions among it, then the turn of each
sequencer, and the ac is over (R79). -/
def State.round (s : State) : List Move :=
  s.accepts ++ s.dueEvents.map Move.event ++ s.turns ++ [.ac]

/-- The PF gives partition `p` its clusters, where they are clusters and no other partition's; its rotation starts again (R24,
R26). -/
def State.divide (s : State) (p : Nat) (cs : List Nat) : State :=
  if p < 8 ∧ cs.all (fun c => decide (c < 96) && !s.parts.any (fun e => e.1 != p && e.2.contains c)) then
    { s with parts := kput p cs s.parts, rotation := kdel p s.rotation }
  else s

/-! ### Parts of an instruction that is about to issue (R245, R273) -/

/-- What the crew's issue would make of the state; the state itself where it could not issue. -/
def State.issued (s : State) (key : CrewKey) : State :=
  match s.crew? key with
  | none => s
  | some cr => match s.wg? key.core cr.wg with
    | none => s
    | some wg =>
      if s.mayIssue key cr wg then
        match s.start key cr with
        | .next t => t
        | _ => s
      else s

/-- A crew that could issue the instruction at its position: its accesses and the instruction. -/
def State.standing (s : State) (key : CrewKey) (f : Acc → Instr → State) : State :=
  match s.crew? key with
  | none => s
  | some cr => match s.wg? key.core cr.wg, cr.word with
    | some wg, .ok i => if s.mayIssue key cr wg then f (accOf key.core cr.wg wg) i else s
    | _, _ => s

/-- The dirty bytes that an instruction sends home of a line that it keeps: a line that it takes exclusively goes home whole first. -/
def Line.leaves (l : Line) (after : Option Line) : BitVec 128 :=
  match after with
  | some m => if l.excl then 0 else if m.excl then l.dirty else l.dirty &&& ~~~m.dirty
  | none => 0

/-- A copy in a core, in the first level or at a place of a stash window. -/
abbrev Copy := Option (Nat × Nat) × Line
def State.copies (s : State) (c : Nat) : List Copy :=
  (s.core c).lines.map (fun l => (none, l)) ++ (s.stashLines c).map (fun e => (some (e.1, e.2.1), e.2.2))
/-- The same copy in another state. -/
def State.sameCopy (s : State) (c : Nat) (e : Copy) : Option Line :=
  ((s.copies c).find? (fun x => x.1 == e.1 && x.2.ctx == e.2.ctx && x.2.lva == e.2.lva)).map Prod.snd

/-- The selected dirty bytes of a copy set out, and are clean. -/
def State.copyOut (s : State) (a : Acc) (e : Copy) (m : BitVec 128) : State :=
  (s.writeOff a { e.2 with dirty := m } true).modCore a.core (fun co => match e.1 with
    | none => co.l1Mod e.2.ctx e.2.lva (·.clean m)
    | some w => co.stashMod w.1 w.2 (·.clean m))

/-- The sync tags of an instruction that is a release at DIE or wider, none of another (R244). -/
def State.releaseTags (s : State) (key : CrewKey) (i : Instr) : Option (List Nat) :=
  let tags (h : Hdr) (ord : Order) (m : MemRef) : Option (List Nat) :=
    if ord.wide && ord.releases then
      match { s with cur := some key }.begin h with
      | some (x, s) => some (syncTags ((s.bindings x.acc).getD []) (x.lanes.map (fun t => (x.ea m t).toNat)))
      | none => none
    else none
  match i with
  | .st h _ ord _ _ m => tags h ord m
  | .atom h _ _ ord _ m | .red h _ _ ord _ m => tags h ord m
  | .atomcas h _ ord _ m => tags h ord m
  | _ => none

/-- The write-backs that the crew's next instruction performs and whose lines it keeps set out before it, so that each of their
sectors may be accepted in its own time. A release at DIE or wider goes in the steps of R245: nothing while a write of the core is
on its way, and the lines that it writes itself once no tagged line is dirty. -/
def State.sendOut (s : State) (key : CrewKey) : State :=
  s.standing key (fun a i =>
    let t := s.issued key
    let outs : List (Copy × BitVec 128) :=
      ((s.copies key.core).map (fun e => (e, e.2.leaves (t.sameCopy key.core e)))).filter (fun e => e.2 != 0)
    let now : List (Copy × BitVec 128) := match s.releaseTags key i with
      | none => outs
      | some tags =>
        if s.flight.any (fun f => f.own && f.core == key.core) then []
        else
          let tagged := outs.filter (fun (e : Copy × BitVec 128) => e.1.2.ctx == a.ctx && (match e.1.2.tag with | some t => tags.contains t | none => false))
          if tagged.isEmpty then outs else tagged
    now.foldl (fun s e => s.copyOut a e.1 e.2) s)

/-- The write-backs of an engine command's acquire at DIE or wider set out before its first unit (R282). -/
def State.sendFor (s : State) (core id : Nat) : State :=
  match (s.core core).cmd? id with
  | none => s
  | some c => match s.wg? core c.wg with
    | none => s
    | some wg =>
      if s.unitReady core c && !c.begun && c.engine != 4 && c.ord.acquires && c.ord.scope.wide then
        s.sweep (accOf core c.wg wg) (fun l => l.ctx == wg.ctx) false
      else s

/-- The sectors that an issue would make valid in a line that it does not hold exclusively. -/
def State.newSectors (s : State) (c : Nat) (m : Line) : BitVec 4 :=
  if m.excl || (s.stashLines c).any (fun e => e.2.2.pa == m.pa) then 0
  else m.valid &&& ~~~(match (s.core c).copyOf m.pa with
    | some l => l.valid
    | none => 0)

/-- The load that the crew stands at fills the sector of an address before its others (R273): only one that it would fill, with
another left for the load itself. It is one of the crew's reads, in their order (R243, R258), and a first-level miss is counted with
the last sector of its line (R340). -/
def State.fillOne (s : State) (key : CrewKey) (va : Nat) : State :=
  s.standing key (fun a i =>
    let t := s.issued key
    let lines := (t.core key.core).lines
    match (t.core key.core).l1Find a.ctx (va / 128) with
    | none => s
    | some m =>
      let q := va / 32 % 4
      let new := s.newSectors key.core m
      if !new.getLsbD q || decide (((lines.map (fun l => (bitsOf (s.newSectors key.core l)).length)).sum) < 2) then s
      else
        let s := ((s.settled key i).translate a va false false).1
        let r := match (s.core key.core).l1Find a.ctx (va / 128) with
          | some l => (s, some l)
          | none => s.l1Alloc a { va := va / 128 * 128, n := 1, key := m.pa * 128, w := m.w, d := m.d, at_ := m.at_,
                                  conf := m.at_.key.isSome, hit := false } .normal
        match r with
        | (_, none) => s
        | (s, some l) =>
          let f := s.fillSectors a m.at_ { l with hint := m.hint } [q]
          let s := (f.1.modCore a.core (·.l1Put f.2)).modCrew key (·.settleReads [(l.pa * 128 + 32 * q, 32)])
          if new &&& ~~~(1#4 <<< q) = 0 then s.tally a 5 else s)

/-! ### What happens when (R448, R453) -/

/-- The core whose waited-for writes the event completes. -/
def endsFor : Instr → Option Nat
  | .instructionCompletion key _ => some key.core
  | .workgroupRetirement core _ => some core
  | _ => none

/-- An event happens. One that ends what waits for writes of its core comes after them; those that a link holds go on waiting, and with
them what they complete. A breakpoint matches a crew that would issue (R429). -/
def State.event (s : State) (i : Instr) : Out :=
  match endsFor i with
  | some c =>
    let t := s.landFlights (fun f => f.must && f.core == c && !s.linkHeld f)
    if t.flight.any (fun f => f.must && f.core == c) then .next t else exec i t
  | none => match i with
    | .breakpointMatch key => if s.wouldIssue key then exec i s else .next s
    | _ => exec i s

/-- A link that is down has retrained (R450): its controller has been released from reset (R453). -/
def State.retrain (s : State) (link : Nat) : State :=
  if (s.link link).up || !(lastBoot s.boot.record).any (fun e => e.step == 5 && e.result == 0) then s
  else s.modLink link (fun l => { l with trained := true })

/-- The host masks a vector: an event finds it so until it is unmasked (R447). -/
def State.maskVector (s : State) (func vec : Nat) : State := { s with msixOpen := sdel (func * 64 + vec) s.msixOpen }

/-- What happens before start-up is over: start-up itself and management's part in it, the host port's answer to configuration
requests, and what happens outside the part (R453; assumption 80). -/
def Move.early : Move → Bool
  | .event i => match i with
    | .reset | .recovery _ | .configurationRequest _ | .podIndex _ | .telemetry | .getMeasurements => true
    | _ => false
  | .ac | .outside _ _ | .retrain _ => true
  | _ => false

def State.act (s : State) : Move → Out
  | .issue key => s.issue key
  | .event i => s.event i
  | .turn core q => s.turn core q
  | .accept i => .next (s.acceptOne i)
  | .late key id row piece => .next (s.lateRead key id row piece)
  | .sendOut key => .next (s.sendOut key)
  | .sendFor core cmd => .next (s.sendFor core cmd)
  | .engRead core cmd off n => s.readEarly core cmd off n
  | .fill key va => .next (s.fillOne key va)
  | .ac => .next s.ac
  | .divide p cs => .next (s.divide p cs)
  | .allow f m => .next { s with funcParts := kput f m s.funcParts }
  | .regRead agent num sel => .next (s.regRead agent num sel)
  | .acctRead f ctx => .next (s.acctRead f ctx)
  | .debugRead key off n => .next (s.debugRead key off n)
  | .cacheRead core q => .next (s.cacheRead core q)
  | .outside pa d => .next (s.outsideStore pa d)
  | .mask f v => .next (s.maskVector f v)
  | .retrain link => .next (s.retrain link)
  | .otherRequest => .next (s.say .unsupported)

/-- A move: none where start-up still holds the engine that makes it in reset (R453), nor where it needs a flit of a paused link
(R448). -/
def State.move (s : State) (m : Move) : Out :=
  if s.boot.next < 8 && !m.early then .next s
  else match { s with blocked := false }.act m with
    | .next t => .next (if t.blocked then s else t)
    | o => o

/-- The next move: the schedule's, or that of a new round. -/
def State.advance (s : State) : Out :=
  match s.agenda with
  | m :: t => { s with agenda := t }.move m
  | [] =>
    match s.round with
    | m :: t => { s with agenda := t }.move m
    | [] => .next s

/-! ## An instruction placed for the next issue -/

/-- The kernel that a placed instruction runs under: every register number and operand form is within its limits. -/
def placedKernel : Kernel where
  entry := 0x1000
  vregs := 192
  sregs := 62
  crews := 1
  roles := 0
  scratch := 4096
  stash := 1024
  traps := 0
  handler := 0x1000
  flags := 0
  maxrec := 0
  keep := 0
  energy := 0
  argsz := 0
  lifetime := 0
  stepping := 0

/-- A workgroup of one crew in slot 0. -/
def placedWg : Wg where
  launch := 0
  ctx := 0
  conf := false
  func := 0
  cls := 0
  wgidx := 0
  nwg := 1
  kernel := placedKernel
  groups := []
  node := none
  part := 0
  scr := []
  scrPoison := []
  cum := 0
  flushed := 0
  frac := 0
  est := 0
  cest := 0
  save := none
  abort := none
  written := false
  stopped := false
  crews := [0]

/-- A crew of one thread, in block 0 of region 0, a region of 31 blocks, whose fetch buffer holds a block at its position. -/
def placedCrew (block : List Byte) : Crew where
  wg := 0
  cidx := 0
  threads := (List.range 64).map (fun t =>
    { v := [], p := 0, br := mkBr false (t != 0) 0 0, tidx := BitVec.ofNat 32 t, holdCnt := 0, yld := false, swp := false })
  s := []
  q := 0
  flags := List.replicate 12 FlagEntry.zero
  owed := []
  nextId := 0
  fps := 0
  cst := 0
  abscnt := 0
  groups := List.replicate 4 none
  hb := 0xFC0
  dir := 0
  nreg := 0
  rdesc := BitVec.ofNat 256 (31 * 2 ^ 128)
  pos := 0x1000
  cr := 0
  ss := 0
  sid := 0
  sset := 1
  sweep := 0
  retry := false
  votePending := false
  epc := 0
  ecause := 0
  earg := 0
  ethr := 0
  esave := List.replicate 4 0
  hmode := false
  frame := Frame.zero
  batchCnt := 0
  openSet := []
  batches := List.replicate 16 []
  failures := []
  outRes := List.replicate 4 0
  park := none
  replay := none
  block := .none
  pause := 0
  ready := 0
  voteTill := 0
  gbarArr := 0
  fbuf := [(0x1000, block)]
  lastIssue := none
  bpSkip := false
  finished := false

/-- Core 0's crew slot 0 holds the crew, alone on a sequencer that runs, so that the sequencer chooses it (R27); start-up is over, and
the crew's issue is the next move. -/
def State.placeBlock (s : State) (block : List Byte) : State :=
  { s.modCore 0 (fun co => { co with crews := kput 0 (placedCrew block) (co.crews.filter (fun e => seqOf e.1 != 0)), wgs := kput 0 placedWg co.wgs,
                                     seqs := co.seqs.set 0 Seq.zero }) with
    agenda := .issue ⟨0, 0⟩ :: s.agenda, boot := { s.boot with next := 8 } }

end Sys2Proof.Machine
end

