-- ==== Sys2Proof/Machine/Step.lean ====
section
/-! DEFINITION. One step of the part, and an instruction placed where the next step issues it. -/

namespace Sys2Proof.Machine

open Sys2Proof

/-- One step: the next move of the environment's schedule or, where that is empty, of the part's own round. -/
def step (s : State) : Host.Outcome State Fault Refusal := s.advance

/-- The state with an instruction placed: it is the next that is issued (assumption 41). -/
def State.withFetchWord (s : State) (nbits w : Nat) : State := s.placeBlock (bytesOfNat 32 (w % 2 ^ nbits))

end Sys2Proof.Machine
end

