-- ==== Sys2Proof/Safety.lean ====
section
/-! DEFINITION. What a safe run is, in the terms that claims use: the form of the stores, the bounds that every state keeps,
runs that no fault ends. -/

namespace Sys2Proof.Machine

open Sys2Proof

/-- The canonical form of storage: addresses strictly rising, and no entry equal to what an unlisted address reads as. -/
def Memory.wf (m : Memory) : Bool := ksorted m && m.all (fun e => e.2 != 0)

/-- R28: a throttled die still lets a sequencer issue in one ac of every 4. -/
def State.throttleOk (s : State) : Bool := s.throttle.length == 4 && s.throttle.all (fun n => decide (1 ≤ n) && decide (n ≤ 4))

/-- What every step keeps. -/
structure State.Inv (s : State) : Prop where
  mem      : Memory.wf s.mem = true
  throttle : s.throttleOk = true

/-- The byte that storage reads as at a key. -/
def State.byteAt (s : State) (k : Nat) : Byte := kget 0 k s.mem

/-- A run of `n` steps that meets no fault and no refusal ends in `t`. -/
def State.runsTo (s : State) : Nat → State → Prop
  | 0, t => s = t
  | n + 1, t => ∃ u, step s = .next u ∧ u.runsTo n t

end Sys2Proof.Machine
end

