-- ==== Sys2Proof/Certificates/Slice0/Obligations.lean ====
section
/-! DEFINITION. The statements about the model, from the numbered rules of the spec, and the vocabulary they share. -/

namespace Sys2Proof.Claims

open Sys2Proof Sys2Proof.Machine

/-! ## An issue and its results -/

/-- The current crew issues under the control fields `h`, and its instruction executes: `x` is what the meaning sees, `s1`
the state in which it acts. -/
structure Issues (h : Hdr) (s : State) (x : Cx) (s1 : State) : Prop where
  begins : s.begin h = some (x, s1)
  runs   : x.idle = false

/-- The writes of every lane that the body runs for, in thread order (R124). -/
def perThread (x : Cx) (w : Nat → List RegWrite) : List RegWrite := x.lanes.flatMap w

/-- Retired with the writes owed: `delay` none is variable latency (R75). -/
def retires (x : Cx) (s1 : State) (cls : Nat) (delay : Option Nat) (dst : Dest) (ws : List RegWrite) (fps : BitVec 5)
    (sat : Bool) : Out :=
  match delay with
  | some n => .next (retireFixed x s1 cls n dst ws fps sat)
  | none => .next (retireVar x s1 cls dst ws fps sat)

/-- The writes of a word to D for every lane. -/
def wordTo (x : Cx) (d : Reg) (f : Nat → W32) : List RegWrite := perThread x (fun t => wrReg t d (f t))
/-- The writes of a pair of registers. -/
def pairTo (x : Cx) (d : Reg) (f : Nat → W64) : List RegWrite := perThread x (fun t => wrReg64 t d (f t))
/-- The writes of a predicate. -/
def predTo (x : Cx) (p : Pred) (f : Nat → Bool) : List RegWrite := perThread x (fun t => wrPred t p (f t))

/-- Lane `k` of a source as its type reads it (R92). -/
def src (x : Cx) (ty : IntTy) (a : Src) (t k : Nat) : Int := lane ty.signed ty.width k (x.rdTy t ty a)

/-- Every lane of the value holds the low bits of `f` (R93, Trunc). -/
def LanesAre (x : Cx) (ty : IntTy) (f : Nat → Nat → Int) (v : Nat → Nat) : Prop :=
  ∀ t ∈ x.lanes, ∀ k < ty.lanes, ((v t / 2 ^ (ty.width * k) % 2 ^ ty.width : Nat) : Int) = f t k % 2 ^ ty.width

/-- The instruction retires with D's lanes holding `f`, class 1 (R124, R345). -/
def GivesLanes (i : Instr) (s : State) (x : Cx) (s1 : State) (ty : IntTy) (d : Reg) (delay : Option Nat)
    (f : Nat → Nat → Int) : Prop :=
  ∃ v, LanesAre x ty f v ∧
    exec i s = retires x s1 1 delay (Dest.reg d ty.regs) (perThread x (fun t => wrTy t ty d (v t))) 0 false

/-- Every bit of the value is as `f` says. -/
def BitsAre (x : Cx) (ty : IntTy) (f : Nat → Nat → Bool) (v : Nat → Nat) : Prop :=
  ∀ t ∈ x.lanes, ∀ k < 32 * ty.regs, (v t).testBit k = f t k

def GivesBits (i : Instr) (s : State) (x : Cx) (s1 : State) (ty : IntTy) (d : Reg) (f : Nat → Nat → Bool) : Prop :=
  ∃ v, BitsAre x ty f v ∧
    exec i s = retires x s1 1 (some 4) (Dest.reg d ty.regs) (perThread x (fun t => wrTy t ty d (v t))) 0 false

/-- The instruction retires with D a word, or with a predicate. -/
def GivesWord (i : Instr) (s : State) (x : Cx) (s1 : State) (cls : Nat) (delay : Option Nat) (d : Reg) (f : Nat → W32) :
    Prop :=
  exec i s = retires x s1 cls delay (Dest.reg d 1) (wordTo x d f) 0 false
def GivesPair (i : Instr) (s : State) (x : Cx) (s1 : State) (cls : Nat) (delay : Option Nat) (d : Reg) (f : Nat → W64) :
    Prop :=
  exec i s = retires x s1 cls delay (Dest.reg d 2) (pairTo x d f) 0 false
def GivesPred (i : Instr) (s : State) (x : Cx) (s1 : State) (cls : Nat) (delay : Option Nat) (p : Pred) (f : Nat → Bool) :
    Prop :=
  exec i s = retires x s1 cls delay (predDest p) (predTo x p f) 0 false

/-- The exceptions of every lane together (R99). -/
def raised (x : Cx) (e : Nat → Fps) : Fps := x.lanes.foldr (fun t a => e t ||| a) 0

/-- Retired with the writes where no enabled exception is raised; else the floating-point exception is taken (R100). -/
def GivesFp (i : Instr) (s : State) (x : Cx) (s1 : State) (cls : Nat) (delay : Option Nat) (dst : Dest)
    (w : Nat → List RegWrite) (e : Nat → Fps) (sat : Bool) : Prop :=
  (raised x e &&& x.kernel.fpEnables = 0 → exec i s = retires x s1 cls delay dst (perThread x w) (raised x e) sat) ∧
  (raised x e &&& x.kernel.fpEnables ≠ 0 → exec i s = .next (x.fpTrap s1 cls (raised x e)))

/-- The same for the elements of a float type: each is flushed and, for .SAT, clamped (R98, R134). -/
def GivesElems (i : Instr) (s : State) (x : Cx) (s1 : State) (cls : Nat) (delay : Option Nat) (m : FlMod) (d : Reg)
    (r : Nat → Nat → FRes) : Prop :=
  let q := fun t k => finishF x.kernel.ftz (flSpec m.ty) m.sat (r t k)
  GivesFp i s x s1 cls delay (Dest.reg d 1)
    (fun t => wrReg t d (BitVec.ofNat 32 (joinLanes (flSpec m.ty).width ((List.range m.ty.elems).map (fun k => (q t k).code)))))
    (fun t => (List.range m.ty.elems).foldl (fun a k => a ||| (q t k).fps) 0) false

/-- A control instruction has ended: every fixed-latency write landed first (R76), then `f` on the crew. -/
def movedTo (x : Cx) (s2 : State) (dst : Dest) (f : Crew → Crew) : State :=
  (s2.issueCost x 0).modCrew x.key (fun cr => ((f (x.flagUp cr dst).landFixed).flagDown x.h.sf).advance x.next)
def moved (x : Cx) (s2 : State) (f : Crew → Crew) : State := movedTo x s2 Dest.none f

/-- A load or an atomic has been performed in `st`: its destination is owed what was read (R242). A plain load that read a home
slice may perform that read again until its crew orders it (R243, R273). -/
def loaded (x : Cx) (st : State) (dst : Dest) (r : MemRes) : State :=
  match r.late with
  | none => retireMem x st dst r.ws r.fps
  | some l => (retireMem x st dst r.ws r.fps).modCrew x.key (fun cr => cr.lateLast l)

/-- The instruction does `f` to each thread that takes part, and to no other. -/
def Moves (i : Instr) (s : State) (x : Cx) (s2 : State) (f : Nat → Thread → Thread) : Prop :=
  exec i s = .next (moved x s2 (fun cr => cr.mapThr (fun t th => if t ∈ x.lanes then f t th else th)))

/-- The `n` bytes of a thread's access lie in the line of 128 bytes of an address below 2^57 (R238). -/
def InLine (x : Cx) (m : MemRef) (t lva n : Nat) : Prop :=
  (x.ea m t).toNat / 128 = lva ∧ (x.ea m t).toNat % 128 + n ≤ 128 ∧ (x.ea m t).toNat < 2 ^ 57

/-- The crew has moved on and owes the writes; the registers that hold values are as they were. -/
def OwesOnly (x : Cx) (t : State) (ws : List RegWrite) : Prop :=
  ∃ cr, t.crew? x.key = some cr ∧ cr.pos = x.next ∧ cr.threads = x.crew.threads ∧ cr.s = x.crew.s ∧ cr.q = x.crew.q ∧
    cr.owed.map Owed.writes = x.crew.owed.map Owed.writes ++ [ws]
/-- The crew has moved on and owes nothing more. -/
def OwesNone (x : Cx) (t : State) : Prop :=
  ∃ cr, t.crew? x.key = some cr ∧ cr.pos = x.next ∧ cr.threads = x.crew.threads ∧ cr.s = x.crew.s ∧ cr.q = x.crew.q ∧
    cr.owed = x.crew.owed

/-- The crew has moved on, and owes no write: only, where SF names a flag, that it falls once the instruction's actions are
accepted. -/
def OwesAction (x : Cx) (t : State) : Prop := if x.h.sf = none then OwesNone x t else OwesOnly x t []

/-- The crew stands blocked, having changed no register. -/
def Blocks (x : Cx) (t : State) (b : Block) : Prop :=
  ∃ cr, t.crew? x.key = some cr ∧ cr.block = b ∧ cr.pos = x.pc ∧ cr.threads = x.crew.threads ∧ cr.s = x.crew.s ∧
    cr.q = x.crew.q ∧ cr.owed = x.crew.owed

/-- No first-level line of a context is left, or none that is dirty. -/
def NoLines (t : State) (core ctx : Nat) : Prop := ∀ lva, (t.core core).l1Find ctx lva = none
def NoDirty (t : State) (core ctx : Nat) : Prop := ∀ lva l, (t.core core).l1Find ctx lva = some l → l.dirty = 0

/-- A WAIT of a crew has ended: its Qd, and for a register S its number. -/
def WaitEnds (t : State) (key : CrewKey) (w : WaitSt) (sat : Bool) : Prop :=
  ∃ cr, t.crew? key = some cr ∧ cr.block = .none ∧ cr.pos = w.next ∧ (w.qd < 3 → cr.landedQ w.qd = sat) ∧
    ∀ r, w.d = .s r → cr.landedS r.val = if sat then BitVec.ofNat 32 w.index else 0xFFFFFFFF

/-- The instruction has queued a command for its crew at an engine, and the crew has moved on. -/
def Queues (x : Cx) (s1 t : State) (engine : Nat) (o : EngOrder) (st : CmdState) (op : CmdOp) : Prop :=
  let co := s1.core x.key.core
  let c : Cmd := { id := co.nextCmd, slot := x.key.slot, wg := x.crew.wg, engine := engine, flag := x.h.sf, pc := x.pc,
                   ord := o, begun := false, st := st, op := op, rd := none, wr := none, early := [] }
  (t.core x.key.core).cmds = co.cmds ++ [c] ∧ (t.core x.key.core).nextCmd = co.nextCmd + 1 ∧ OwesNone x t ∧
    ∃ cr, t.crew? x.key = some cr ∧ cr.openSet = x.crew.openSet ++ [co.nextCmd]

/-- An engine has a free entry, and the crew's open set takes one command more (R291, R295). -/
def Room (x : Cx) (s1 : State) (engine cap : Nat) : Prop :=
  ((s1.core x.key.core).cmds.filter (fun c => c.engine == engine)).length < cap ∧ x.crew.openSet.length < 64

/-- The first and the last of `nr` rows of `rb` bytes lie inside the allocation (R317). -/
def RowsIn (alloc off rb nr : Nat) (str : Int) : Prop :=
  (off : Int) + rb ≤ alloc ∧ 0 ≤ off + str * ((nr : Int) - 1) ∧ off + str * ((nr : Int) - 1) + rb ≤ alloc

/-- A command's next unit runs (R297): the engine has the command in hand and has begun it, its workgroup has not been stopped
and has no macro to load again (R424), its core serves a partition (R24), at a channel or the Grainer every earlier command has
failed (R299), and the Grainer has read its symbols (R367). -/
structure Runs (s : State) (core id : Nat) (c : Cmd) (g : Wg) : Prop where
  cmd   : (s.core core).cmd? id = some c
  ready : c.runs = true
  begun : c.begun = true
  wg    : s.wg? core c.wg = some g
  on    : g.stopped = false
  ours  : s.reloading core g = false
  serve : s.serves core = true
  turn  : c.engine = 4 ∨ ∀ e ∈ (s.core core).earlier c, e.isFailed = true
  idle  : c.engine = 5 → (s.core core).grainBusy = 0

/-- The command goes on with `op`, of whose next unit it has read nothing yet, or, with none, has ended. -/
def GoesOn (t : State) (core id : Nat) (c : Cmd) (op : Option CmdOp) : Prop :=
  (t.core core).cmd? id = op.map (fun o => { c with op := o, early := [] })

/-- The bytes of a workgroup's scratchpad are as `f` says. -/
def Scratch (t : State) (core w : Nat) (f : Nat → Byte) : Prop := ∃ g, t.wg? core w = some g ∧ ∀ o, kget 0 o g.scr = f o

/-- The crew has entered its handler (R412): the trap frame, the hidden walk frame, the handler's address, and its
fixed-latency writes landed. -/
def Entered (t : State) (key : CrewKey) (cr : Crew) (k : Kernel) (e : Exc) : Prop :=
  ∃ cr', t.crew? key = some cr' ∧ cr'.epc = e.epc ∧ cr'.ecause = BitVec.ofNat 64 e.cause + (if e.eng then 0x10000 else 0) ∧
    cr'.earg = e.earg ∧ cr'.ethr = e.ethr ∧ cr'.hmode = true ∧ cr'.pos = k.entry + k.handler.zeroExtend 64 ∧
    cr'.block = .none ∧ cr'.frame.hb = cr.hb ∧ cr'.frame.pos = cr.pos ∧ cr'.frame.cr = cr.cr ∧ cr'.frame.ss = cr.ss ∧
    cr'.frame.sid = cr.sid ∧ (∀ j < 64, cr'.frame.held.getLsbD j = (cr.thr j).held) ∧
    cr'.owed = cr.owed.filter (fun o => o.due.isNone)

/-- The workgroup is to be aborted, its commands begin no further unit, and it is as it was in everything else (R410). -/
def Aborts (t : State) (core w : Nat) (wg : Wg) (i : AbortInfo) : Prop := t.wg? core w = some { wg with abort := some i, stopped := true }

/-- What an instruction that only retires leaves as it was: of the part all but the meters, of the other crews and workgroups
everything, of its own crew all but the position, flags, owed writes, FPS and CST. -/
def RetireFrame (x : Cx) (s u : State) : Prop :=
  u = { s with fresh := s.fresh + 1, cores := u.cores, domains := u.domains } ∧
  (∀ c, ∃ cs ws gr pc ps ov,
    u.core c = { s.core c with crews := cs, wgs := ws, grants := gr, pmcnt := pc, pmsel := ps, ovf := ov }) ∧
  (∀ c, c ≠ x.key.core → u.core c = s.core c) ∧
  (∀ k, k ≠ x.key → u.crew? k = s.crew? k) ∧
  (∀ w, w ≠ x.crew.wg → u.wg? x.key.core w = s.wg? x.key.core w) ∧
  (∃ n f, u.wg? x.key.core x.crew.wg = some { x.wg with cum := n, frac := f }) ∧
  (∃ fl ow n f c, u.crew? x.key = some { x.crew with pos := x.next, flags := fl, owed := x.crew.owed ++ ow, nextId := n,
                                                     fps := f, cst := c, replay := none, bpSkip := false })

/-- What comes of a move that an event or an instruction makes from `s`: nothing where it would need a flit of a paused link
(R448). -/
def unlessBlocked (s : State) : Host.Outcome State Fault Refusal → Host.Outcome State Fault Refusal
  | .next u => .next (if u.blocked = true then s else u)
  | o => o

/-- The control fields of the words below: BT 31, PG 7, PN 0, WT 0. -/
def wordHdr (form : Form) (uni : Bool) (sf : Option (Fin 12)) : Hdr :=
  { form := form, bt := 31, sd := 0, uni := uni, wait := 0, sf := sf, pg := 7, pn := false }

/-- Words of the spec and the instructions they stand for; none: the word does not decode. -/
def specWords : List (List Byte × Option Instr) :=
  [([0xFC, 0x00, 0x09, 0x20, 0x00, 0x10, 0x70, 0x00],
      some (.iadd { wordHdr .w64 false (some 2) with sd := 1 } .s32 (.v 2) (.r (.v 0)) (.r (.v 1)))),
   ([0x7D, 0x84, 0x0F, 0x50, 0x4C, 0xFC, 0x7F, 0x00, 0x64, 0x00, 0x00, 0x00],
      some (.iadd (wordHdr .w96 true none) .s32 (.s 5) (.r (.s 4)) (.imm 100))),
   ([0x7D, 0x80, 0x3F, 0x40, 0x10, 0x20, 0x70, 0x00, 0x03, 0x00, 0x00, 0x00],
      some (.imad (wordHdr .w96 false none) .s32 (.v 4) (.r (.v 1)) (.r (.v 2)) (.r (.v 3)))),
   ([0xFE, 0x81, 0x03, 0x83, 0x90, 0xA0, 0x70, 0x00, 0x00, 0x00, 0x00, 0x00, 0x41, 0x00, 0x00, 0x00],
      some (.fadd { wordHdr .w128 false (some 7) with sd := 3, wait := 0x041 }
        { ty := .f32, rm := .rn, sat := false, nega := false, absa := false } (.v 8) (.r (.v 9)) (.r (.v 10)))),
   ([0x00, 0x80, 0x0F, 0x27, 0x00, 0xE0, 0x7F, 0x01],
      some (.bxc { wordHdr .w64 false none with bt := 0 } false 1 2 (.p 0))),
   ([0x7C, 0x80, 0x1F, 0xE7, 0xEF, 0xEF, 0x7F, 0x00], some (.next (wordHdr .w64 false none))),
   ([0x7C, 0x90, 0x2F, 0x17, 0x80, 0xAF, 0x7F, 0x02],
      some (.calli { wordHdr .w64 false none with wait := 0x002 } 1 (.pr 28) (.pr 29) 2)),
   ([0x7D, 0x80, 0x00, 0x88, 0x40, 0x2C, 0x70, 0x14, 0x04, 0x40, 0x00, 0x00],
      some (.ld (wordHdr .w96 false (some 1)) .b16 false (.acq .dev) .normal (.v 8) { base := .pr 2, off := .v 2, disp := 64 })),
   ([0x7C, 0x00, 0x00, 0x59, 0x40, 0x2C, 0x70, 0x00],
      some (.atom (wordHdr .w64 false (some 0)) .add .b4 .plain (.v 5) { base := .pr 2, off := .v 2, disp := 0 })),
   ([0x7C, 0x84, 0x17, 0x4B, 0x0D, 0xED, 0x7F, 0x00],
      some (.wait (wordHdr .w64 true none) 0 false 0 (.s 20) (.r (.s 16)) (.r .z))),
   ([0x7D, 0x04, 0x03, 0x0C, 0x0D, 0xFC, 0x7F, 0x51, 0xD1, 0x40, 0x00, 0x00],
      some (.copy (wordHdr .w96 true (some 6)) (.rel .wg) .gs (.s 16) (.r (.s 0)) (.imm 64) (.r (.s 17)))),
   ([0x7C, 0x80, 0x07, 0x4D, 0xE0, 0xEF, 0x7F, 0x01], some (.enq (wordHdr .w64 false none) 1 0 4)),
   ([0x7C, 0x84, 0x27, 0x4E, 0xED, 0xEF, 0x7F, 0x01], some (.mread (wordHdr .w64 true none) .wg (.s 20))),
   -- a float type that is reserved, and an order in a 64-bit memory word (R85)
   ([0xFE, 0x81, 0x03, 0x83, 0x90, 0xA0, 0x70, 0x07, 0x00, 0x00, 0x00, 0x00, 0x41, 0x00, 0x00, 0x00], none),
   ([0x7C, 0x80, 0x00, 0x88, 0x40, 0x2C, 0x70, 0x14], none)]

/-! ### The vote (R159, R165) -/

/-- Slots of a region's directory are read one after the other, with what they hold. -/
def SlotReads (a : Acc) (r : Region) : List (Nat × StateD) → State → State → Prop
  | [], s, t => s = t
  | e :: l, s, t => ∃ u, readSlot a r e.1 s = (.ok e.2, u) ∧ SlotReads a r l u t

/-- R159: a set of one block reads its singleton slot; another probes from its hash, wrapping, up to the slot that holds it, to an
empty slot, or through all Z. -/
def FindsSlots : Prop :=
  ∀ a r m s res n s2, findSlot a r m s = (.ok (res, n), s2) → ∃ l : List (Nat × StateD),
    let holds := fun (d : StateD) => d.valid = true ∧ d.top = false ∧ d.set = m
    let z := 2 ^ r.logdir
    let hash := if r.logdir = 0 then 0 else m.toNat * 0x9E3779B1 % 2 ^ 32 / 2 ^ (32 - r.logdir)
    SlotReads a r l s s2 ∧ l.length = n ∧
    (∀ b, bitsOf m = [b] → l.map Prod.fst = [r.single + b]) ∧
    ((∀ b, bitsOf m ≠ [b]) → n ≤ z ∧ l.map Prod.fst = (List.range n).map (fun i => (hash + i) % z) ∧
      (∀ e ∈ l.dropLast, e.2.valid = true) ∧ (res = none → n = z ∨ ∃ e, l.getLast? = some e ∧ e.2.valid = false)) ∧
    (∀ d, res = some d → holds d ∧ l.getLast?.map Prod.snd = some d ∧ ∀ e ∈ l.dropLast, ¬holds e.2) ∧
    (res = none → ∀ e ∈ l, ¬holds e.2)

/-- R162: the state cache answers a set that it holds; another is found in the directory and then cached, and an absent set is
not. -/
def LooksUp : Prop :=
  ∀ a q dir ri m s,
    (∀ f, s.cacheFind a.core q dir ri m = some f →
      findState a q dir ri m s = (.ok (.found f 0), s.cachePut a.core q dir ri m f)) ∧
    (s.cacheFind a.core q dir ri m = none → ∀ r s1 n s2, readRegion a dir ri s = (.ok r, s1) →
      (∀ d, findSlot a r m s1 = (.ok (some d, n), s2) →
        findState a q dir ri m s = (.ok (.found ⟨d, r⟩ n), s2.cachePut a.core q dir ri m ⟨d, r⟩)) ∧
      (findSlot a r m s1 = (.ok (none, n), s2) → findState a q dir ri m s = (.ok (.absent r n), s2)))

/-- R165, R170: what a vote answers. In a sweep, the next block's threads that the sweep chose and that are held. Else, of the
crew's region or, where it holds no live thread, of the lowest live thread's: the voters, who are those that have not yielded or,
where all have, all; their set; and by its lookup the state and who runs. -/
def VoteAnswers : Prop :=
  ∀ a q (k : Kernel) (cr : Crew) s,
    let lives := fun t => t < 64 ∧ (cr.thr t).exited = false
    let bit := fun (m : Mask) t => m.getLsbD t = true
    (cr.sweep ≠ 0 → ∀ b < 31, cr.sweep.getLsbD b = true → (∀ c < b, cr.sweep.getLsbD c = false) →
      ∀ f s2, singleton a q cr.dir.toNat cr.cr b s = (.ok f, s2) → ∃ go : Mask,
        (∀ t < 64, bit go t ↔ lives t ∧ (cr.thr t).swp = true ∧ (cr.thr t).held = true ∧ (cr.thr t).region = cr.cr ∧ (cr.thr t).block = b) ∧
        vote a q k cr s = (.ok (.enter cr.cr f go 0 0 0 (cr.sweep &&& ~~~(1#31 <<< b)) false false 4), s2)) ∧
    (cr.sweep = 0 → (∀ t, ¬lives t) → vote a q k cr s = (.ok .finished, s)) ∧
    (cr.sweep = 0 → ∀ t0 ri (vt : Mask) (m : BitVec 31), lives t0 → (∀ t < t0, ¬lives t) →
      let stays := ∃ t, lives t ∧ (cr.thr t).region = cr.cr
      let more := if ri = cr.cr then 0 else 2
      (stays → ri = cr.cr) → (¬stays → ri = (cr.thr t0).region) →
      (∀ t < 64, bit vt t ↔ lives t ∧ (cr.thr t).region = ri ∧
        ((cr.thr t).yld = false ∨ ∀ u, lives u → (cr.thr u).region = ri → (cr.thr u).yld = true)) →
      (∀ b < 31, m.getLsbD b = true ↔ ∃ t < 64, bit vt t ∧ (cr.thr t).block = b) →
      (∀ f n s2, findState a q cr.dir.toNat ri m s = (.ok (.found f n), s2) →
        vote a q k cr s = (.ok (.enter ri f vt vt vt 0 0 true false (4 + n + more)), s2)) ∧
      (∀ r n s2, findState a q cr.dir.toNat ri m s = (.ok (.absent r n), s2) →
        (k.absent = true → cr.retry = false → vote a q k cr s = (.ok (.trap m ri), s2)) ∧
        (k.absent = false ∨ cr.retry = true → ∀ ds s3 (lim : BitVec 31), allStates a r (2 ^ r.logdir) 0 s2 = (.ok ds, s3) →
          (∀ b < 31, lim.getLsbD b = true ↔ ∃ t < 64, bit vt t ∧ 16 ≤ (cr.thr t).holdCnt ∧ (cr.thr t).block = b) →
          let cand := ds.filter (fun d => !d.top && d.set &&& ~~~m == 0 && lim &&& ~~~d.set == 0)
          let time := 4 + n + more + max 1 (2 ^ r.logdir / 4)
          (cand ≠ [] → ∃ d ∈ cand, (∀ e ∈ cand, (bitsOf e.set).length < (bitsOf d.set).length ∨
              ((bitsOf e.set).length = (bitsOf d.set).length ∧ d.sid ≤ e.sid)) ∧
            ∀ f s4, enterSlot a q cr.dir.toNat ri r d s3 = (.ok f, s4) → ∃ go : Mask,
              (∀ t < 64, bit go t ↔ bit vt t ∧ d.set.getLsbD (cr.thr t).block = true) ∧
              vote a q k cr s = (.ok (.enter ri f go vt go 0 0 true true time), s4)) ∧
          (cand = [] → ∀ b, lim.getLsbD b = true → (∀ c < b, lim.getLsbD c = false) →
            ∀ f s4, singleton a q cr.dir.toNat ri b s3 = (.ok f, s4) → ∃ go run : Mask,
              (∀ t < 64, bit go t ↔ bit vt t ∧ (cr.thr t).block = b) ∧
              (∀ t < 64, bit run t ↔ bit vt t ∧ lim.getLsbD (cr.thr t).block = true) ∧
              vote a q k cr s = (.ok (.enter ri f go vt run run (lim &&& ~~~(1#31 <<< b)) true true time), s4)))))

/-- R165, R168, R169: what a vote changes. A trap, only ABSCNT and RETRY. A sweep's continuation does not count; a vote clears RETRY
and every YLD, and a voter's HOLDCNT starts again where it is to run and goes up, to 31 at most, where it is not. The threads that
do not go are held, and the crew stands at the state's body. -/
def VoteChanges : Prop :=
  ∀ cr : Crew, cr.threads.length = 64 →
    (∀ m ri, cr.applyVote (.trap m ri) = { cr with abscnt := cr.abscnt + 1, retry := true }) ∧
    cr.applyVote .finished = { cr with finished := true, replay := none, bpSkip := false } ∧
    (∀ ri f go vt run swp sweep counted absent time,
      let c := cr.applyVote (.enter ri f go vt run swp sweep counted absent time)
      c.ss = f.d.slot ∧ c.sid = f.d.sid ∧ c.sset = f.d.set ∧ c.pos = f.body ∧ c.rdesc = f.r.raw ∧ c.sweep = sweep ∧
      c.cr = (if counted then ri else cr.cr) ∧ c.retry = (if counted then false else cr.retry) ∧
      c.abscnt = (if absent then cr.abscnt + 1 else cr.abscnt) ∧ c.hb = cr.hb ∧ c.dir = cr.dir ∧ c.nreg = cr.nreg ∧
      ∀ t < 64, let th := cr.thr t
        (c.thr t).exited = th.exited ∧ (c.thr t).region = th.region ∧ (c.thr t).block = th.block ∧ (c.thr t).v = th.v ∧
        (c.thr t).p = th.p ∧ (c.thr t).tidx = th.tidx ∧ (c.thr t).held = (if th.exited then th.held else !go.getLsbD t) ∧
        (c.thr t).holdCnt = (if counted && vt.getLsbD t then (if run.getLsbD t then 0 else min (th.holdCnt + 1) 31) else th.holdCnt) ∧
        (c.thr t).yld = (if counted then false else th.yld) ∧
        (c.thr t).swp = if counted then swp.getLsbD t || th.swp else th.swp && th.held)

end Sys2Proof.Claims

open Sys2Proof Sys2Proof.Machine Sys2Proof.Claims

/-! ## Groups 0x0-0x2: integers, bits, moves -/

/-- R126: the lane operations of group 0x0, for every type and every register or immediate. -/
def Obligations.IntegerLanes : Prop :=
  ∀ h s x s1 ty d a b c, Issues h s x s1 → ok3 ty d a b c x.kernel = true →
    let A := src x ty a; let B := src x ty b; let C := src x ty c
    GivesLanes (.iadd h ty d a b) s x s1 ty d (some 4) (fun t k => A t k + B t k) ∧
    GivesLanes (.isub h ty d a b) s x s1 ty d (some 4) (fun t k => A t k - B t k) ∧
    GivesLanes (.imul h ty d a b) s x s1 ty d (some 6) (fun t k => A t k * B t k) ∧
    GivesLanes (.imulh h ty d a b) s x s1 ty d (some 6) (fun t k => A t k * B t k / 2 ^ ty.width) ∧
    GivesLanes (.imad h ty d a b c) s x s1 ty d (some 6) (fun t k => A t k * B t k + C t k) ∧
    GivesLanes (.imin h ty d a b) s x s1 ty d (some 4) (fun t k => min (A t k) (B t k)) ∧
    GivesLanes (.imax h ty d a b) s x s1 ty d (some 4) (fun t k => max (A t k) (B t k)) ∧
    GivesLanes (.iabs h ty d a) s x s1 ty d (some 4) (fun t k => |A t k|) ∧
    GivesLanes (.ineg h ty d a) s x s1 ty d (some 4) (fun t k => - A t k) ∧
    GivesLanes (.idiv h ty d a b) s x s1 ty d none (fun t k => if B t k = 0 then -1 else (A t k).tdiv (B t k)) ∧
    GivesLanes (.irem h ty d a b) s x s1 ty d none (fun t k => if B t k = 0 then A t k else (A t k).tmod (B t k))

/-- R126, R93: IADDS and ISUBS clamp each lane to the range of its type, and CST.SAT is set where one clamps. -/
def Obligations.SaturatingLanes : Prop :=
  ∀ h s x s1 ty d a b, Issues h s x s1 → ok2 ty d a b x.kernel = true →
    let A := src x ty a; let B := src x ty b
    let lo : Int := if ty.signed then -(2 ^ (ty.width - 1)) else 0
    let hi : Int := if ty.signed then 2 ^ (ty.width - 1) - 1 else 2 ^ ty.width - 1
    let gives (i : Instr) (f : Nat → Nat → Int) : Prop :=
      ∃ v, LanesAre x ty (fun t k => max lo (min hi (f t k))) v ∧
        exec i s = .next (retireFixed x s1 1 4 (Dest.reg d ty.regs) (perThread x (fun t => wrTy t ty d (v t))) 0
          (x.lanes.any (fun t => (List.range ty.lanes).any (fun k => decide (f t k < lo) || decide (hi < f t k)))))
    gives (.iadds h ty d a b) (fun t k => A t k + B t k) ∧ gives (.isubs h ty d a b) (fun t k => A t k - B t k)

/-- R126, R127: carry and borrow through a predicate, the wide multiply-add, and the address sum. -/
def Obligations.CarryWideAddress : Prop :=
  ∀ h s x s1 ty d a b c pc sh, Issues h s x s1 →
    let A := fun t => x.rd t a; let B := fun t => x.rd t b
    let n := fun t => asInt ty.signed 32 (x.rd t b).toNat
    let cin : Nat → W32 := fun t => if x.pred t pc then 1 else 0
    let both (i : Instr) (v : Nat → W32) (p : Nat → Bool) : Prop :=
      exec i s = .next (retireFixed x s1 1 4 ((Dest.reg d 1).withPred pc)
        (perThread x (fun t => wrReg t d (v t) ++ wrPred t pc (p t))) 0 false)
    ((x.kernel.r1 d && x.kernel.s1 a && x.kernel.s1 b) = true →
      both (.iaddc h ty d a b pc) (fun t => A t + B t + cin t)
        (fun t => decide (2 ^ 32 ≤ (A t).toNat + (B t).toNat + (cin t).toNat)) ∧
      both (.isubb h ty d a b pc) (fun t => A t - B t - cin t)
        (fun t => decide ((A t).toNat < (B t).toNat + (cin t).toNat))) ∧
    ((x.kernel.rw true d && x.kernel.s1 a && x.kernel.s1 b && x.kernel.sw true c) = true →
      GivesPair (.imadw h ty d a b c) s x s1 1 (some 6) d (fun t =>
        BitVec.ofInt 64 (asInt ty.signed 32 (A t).toNat * n t) + x.rd64 t false c)) ∧
    ((x.kernel.rw true d && x.kernel.sw true a && x.kernel.s1 b) = true →
      GivesPair (.lea h ty sh d a b) s x s1 1 (some 6) d (fun t =>
        x.rd64 t false a + BitVec.ofInt 64 (n t * 2 ^ sh.toNat)))

/-- R128: the bitwise operations, the fields that BFX takes out and BFI puts in, and the bytes that BSEL chooses, bit by bit. -/
def Obligations.BitwiseOperations : Prop :=
  ∀ h s x s1 ty d a b c fn, Issues h s x s1 →
    let A := fun t k => (x.rdTy t ty a).testBit k; let B := fun t k => (x.rdTy t ty b).testBit k
    (ok2 ty d a b x.kernel = true →
      GivesBits (.and h ty d a b) s x s1 ty d (fun t k => A t k && B t k) ∧
      GivesBits (.or h ty d a b) s x s1 ty d (fun t k => A t k || B t k) ∧
      GivesBits (.xor h ty d a b) s x s1 ty d (fun t k => A t k ^^ B t k) ∧
      GivesBits (.andn h ty d a b) s x s1 ty d (fun t k => A t k && !B t k) ∧
      GivesBits (.not h ty d a) s x s1 ty d (fun t k => !A t k) ∧
      (IntTy.std ty = true → GivesBits (.brev h ty d a) s x s1 ty d (fun t k => A t (32 * ty.regs - 1 - k)))) ∧
    ((x.kernel.r1 d && x.kernel.s1 a && x.kernel.s1 b && x.kernel.s1 c) = true →
      (∃ v : Nat → W32, (∀ t ∈ x.lanes, ∀ k < 32, (v t).getLsbD k =
          fn.getLsbD (((x.rd t a).getLsbD k).toNat + 2 * ((x.rd t b).getLsbD k).toNat + 4 * ((x.rd t c).getLsbD k).toNat)) ∧
        GivesWord (.bool3 h fn d a b c) s x s1 1 (some 4) d v) ∧
      GivesWord (.fshr h d a b c) s x s1 1 (some 4) d (fun t =>
        ((x.rd t b ++ x.rd t a : W64) >>> ((x.rd t c).toNat % 64)).extractLsb' 0 32) ∧
      (let pos := fun t => (x.rd t b).toNat % 256; let len := fun t => (x.rd t b).toNat / 256 % 256
        let none_ := fun t => 32 ≤ pos t ∨ len t = 0; let n := fun t => min (len t) (32 - pos t)
        (∃ v : Nat → W32, (∀ t ∈ x.lanes, (none_ t → v t = x.rd t c) ∧ (¬none_ t → ∀ k < 32, (v t).getLsbD k =
            if pos t ≤ k ∧ k < pos t + n t then (x.rd t a).getLsbD (k - pos t) else (x.rd t c).getLsbD k)) ∧
          GivesWord (.bfi h d a b c) s x s1 1 (some 4) d v) ∧
        (∃ v : Nat → W32, (∀ t ∈ x.lanes, (none_ t → v t = 0) ∧ (¬none_ t → ∀ k < 32, (v t).getLsbD k =
            if k < n t then (x.rd t a).getLsbD (pos t + k) else ty.signed && (x.rd t a).getLsbD (pos t + n t - 1))) ∧
          GivesWord (.bfx h ty d a b) s x s1 1 (some 4) d v)) ∧
      (∃ v : Nat → W32, (∀ t ∈ x.lanes, ∀ k < 4, ∀ j < 8, (v t).getLsbD (8 * k + j) =
          let sel := (x.rd t c).toNat / 2 ^ (5 * k) % 32
          let y := fun i => (x.rd t b ++ x.rd t a : W64).getLsbD (8 * (sel % 8) + i)
          if sel / 8 = 0 then y j else if sel / 8 = 1 then false else if sel / 8 = 2 then y 7 else !y j) ∧
        GivesWord (.bsel h d a b c) s x s1 1 (some 4) d v))

/-- R129: shifts by the count B[7:0], which may pass the lane's width, rotation, and the counts of bits. -/
def Obligations.ShiftsAndCounts : Prop :=
  ∀ h s x s1 ty d a b, Issues h s x s1 →
    let n := fun t => (x.rd t b).toNat % 256
    let U := fun t k => lane false ty.width k (x.rdTy t ty a); let S := fun t k => lane true ty.width k (x.rdTy t ty a)
    let one := fun t k => (x.rdTy t ty a).testBit k
    ((ok1 ty d a x.kernel && x.kernel.s1 b) = true →
      GivesLanes (.shl h ty d a b) s x s1 ty d (some 4) (fun t k => U t k * 2 ^ n t) ∧
      GivesLanes (.shr h ty d a b) s x s1 ty d (some 4) (fun t k => U t k / 2 ^ n t) ∧
      GivesLanes (.sar h ty d a b) s x s1 ty d (some 4) (fun t k => S t k / 2 ^ n t) ∧
      GivesLanes (.rol h ty d a b) s x s1 ty d (some 4) (fun t k =>
        U t k * 2 ^ (n t % ty.width) + U t k / 2 ^ (ty.width - n t % ty.width))) ∧
    ((x.kernel.r1 d && x.kernel.sw ty.wide a) = true →
      GivesWord (.popc h ty d a) s x s1 1 (some 4) d (fun t =>
        BitVec.ofNat 32 ((List.range ty.width).countP (fun k => one t k))) ∧
      GivesWord (.clz h ty d a) s x s1 1 (some 4) d (fun t =>
        BitVec.ofNat 32 (((List.range ty.width).find? (fun k => one t (ty.width - 1 - k))).getD ty.width)) ∧
      GivesWord (.ctz h ty d a) s x s1 1 (some 4) d (fun t =>
        BitVec.ofNat 32 (((List.range ty.width).find? (fun k => one t k)).getD ty.width)))

/-- R130-R133: compares, selection, moves, special registers and predicates. -/
def Obligations.MovesAndPredicates : Prop :=
  ∀ h s x s1 ty d a b pd pa pb cc na nb wide sx hi imm num fty, Issues h s x s1 →
    let I := fun t v => asInt ty.signed ty.width (x.rdTy t ty v)
    ((x.kernel.sw ty.wide a && x.kernel.sw ty.wide b) = true →
      GivesPred (.icmp h ty cc pd a b) s x s1 1 (some 4) pd (fun t => match cc with
        | .eq => I t a == I t b
        | .ne => I t a != I t b
        | .lt => decide (I t a < I t b)
        | .le => decide (I t a ≤ I t b)
        | .gt => decide (I t b < I t a)
        | .ge => decide (I t b ≤ I t a))) ∧
    ((x.kernel.rw wide d && x.kernel.sw wide a && x.kernel.sw wide b) = true →
      exec (.sel h wide pa d a b) s = .next (retireFixed x s1 1 4 (Dest.reg d (if wide then 2 else 1))
        (perThread x (fun t =>
          let y := if x.pred t pa then a else b
          if wide then wrReg64 t d (x.rd64 t false y) else wrReg t d (x.rd t y))) 0 false)) ∧
    (ok1 ty d a x.kernel = true → GivesBits (.mov h ty d a) s x s1 ty d (fun t k => (x.rdTy t ty a).testBit k)) ∧
    ((x.kernel.r1 d) = true →
      GivesWord (.movi h sx hi d imm) s x s1 1 (some 4) d (fun _ =>
        if hi then imm ++ 0#16 else if sx then imm.signExtend 32 else 0#16 ++ imm) ∧
      GivesWord (.rdl h d) s x s1 1 (some 4) d (fun t => ((x.crew.thr t).br &&& 0x3FFF).zeroExtend 32) ∧
      (num.toNat < 16 → num.toNat ≠ 14 → ¬(h.uni = true ∧ num.toNat = 0) →
        GivesWord (.movs h d num) s x s1 1 (some 4) d (fun t => x.special t num.toNat))) ∧
    ((x.kernel.rw true d) = true → GivesPair (.movs h d 14) s x s1 1 (some 4) d (fun _ => BitVec.ofNat 64 s.refclk)) ∧
    ((x.kernel.r1 d && x.kernel.s1 a) = true →
      GivesWord (.p2v h d a) s x s1 1 (some 4) d (fun t => x.predWord t &&& x.rd t a) ∧
      GivesWord (.fclass h fty d a) s x s1 1 (some 4) d (fun t => BitVec.ofNat 32 (match fty with
        | .f32 => classBits fF32 (x.rd t a).toNat
        | .f16x2 => classBits fF16 (elem 16 0 (x.rd t a)) + 2 ^ 16 * classBits fF16 (elem 16 1 (x.rd t a))
        | .bf16x2 => classBits fBF16 (elem 16 0 (x.rd t a)) + 2 ^ 16 * classBits fBF16 (elem 16 1 (x.rd t a))))) ∧
    GivesPred (.pand h na nb pd pa pb) s x s1 1 (some 4) pd (fun t => (x.pred t pa ^^ na) && (x.pred t pb ^^ nb)) ∧
    GivesPred (.por h na nb pd pa pb) s x s1 1 (some 4) pd (fun t => (x.pred t pa ^^ na) || (x.pred t pb ^^ nb)) ∧
    GivesPred (.pxor h na nb pd pa pb) s x s1 1 (some 4) pd (fun t => (x.pred t pa ^^ na) ^^ (x.pred t pb ^^ nb)) ∧
    GivesPred (.pnot h pd pa) s x s1 1 (some 4) pd (fun t => !x.pred t pa) ∧
    ((x.kernel.s1 a && x.kernel.s1 b) = true →
      exec (.v2p h a b) s = .next (retireFixed x s1 1 4 (x.v2pDest b)
        (perThread x (fun t => ((List.range (if h.uni then 3 else 7)).filter (fun k => (x.rd t b).getLsbD k)).map
          (fun k => if h.uni then RegWrite.q k ((x.rd t a).getLsbD k) else RegWrite.p t k ((x.rd t a).getLsbD k)))) 0
        false))

/-! ## Groups 0x3-0x5: floating point, conversions, special functions, dot products -/

/-- R134, R135, R100: the float family and FCMP, element by element; FDIV and FSQRT take variable latency. R96, R99: rounding a value
that the format holds gives its own code back, in every mode, and raises nothing. -/
def Obligations.FloatArithmetic : Prop :=
  (∀ h s x s1 m d a b c, Issues h s x s1 →
    let f := flSpec m.ty
    let A := fun t k => fval f (x.flA m t k a); let B := fun t k => fval f (x.flB m t k b)
    let C := fun t k => fval f (x.flB m t k c)
    let n := fun t k => match m.ty with
      | .f32 => (x.rd t b).toInt
      | _ => asInt true 16 (elem 16 k (x.rd t b))
    let gives (i : Instr) (delay : Option Nat) (r : Nat → Nat → FRes) : Prop := GivesElems i s x s1 2 delay m d r
    ((x.kernel.r1 d && x.kernel.s1 a && x.kernel.s1 b) = true →
      gives (.fadd h m d a b) (some 6) (fun t k => fAdd f m.rm (A t k) (B t k)) ∧
      gives (.fsub h m d a b) (some 6) (fun t k => fAdd f m.rm (A t k) (B t k).neg) ∧
      gives (.fmul h m d a b) (some 6) (fun t k => fMul f m.rm (A t k) (B t k)) ∧
      gives (.fmin h m d a b) (some 6) (fun t k => fMinMax f false (x.flA m t k a) (x.flB m t k b)) ∧
      gives (.fmax h m d a b) (some 6) (fun t k => fMinMax f true (x.flA m t k a) (x.flB m t k b)) ∧
      gives (.fdiv h m d a b) none (fun t k => fDiv f m.rm (A t k) (B t k)) ∧
      gives (.fscale h m d a b) (some 6) (fun t k => fScale f m.rm (A t k) (n t k))) ∧
    ((x.kernel.r1 d && x.kernel.s1 a) = true →
      gives (.fsqrt h m d a) none (fun t k => fSqrt f m.rm (A t k)) ∧
      gives (.frnd h m d a) (some 6) (fun t k => fRnd f m.rm (A t k) (x.flA m t k a))) ∧
    ((x.kernel.r1 d && x.kernel.s1 a && x.kernel.s1 b && x.kernel.s1 c) = true →
      gives (.ffma h m d a b c) (some 6) (fun t k => fFma f m.rm (A t k) (B t k) (C t k)) ∧
      gives (.fmed3 h m d a b c) (some 6) (fun t k =>
        let p := x.flA m t k a; let q := x.flB m t k b; let r := x.flB m t k c
        let lo := fMinMax f false p q; let mid := fMinMax f false (fMinMax f true p q).code r
        { fMinMax f true lo.code mid.code with
          fps := lo.fps ||| (fMinMax f true p q).fps ||| mid.fps ||| (fMinMax f true lo.code mid.code).fps, ovf := false })) ∧
    (∀ cc nega absa pd, (x.kernel.s1 a && x.kernel.s1 b) = true →
      let r := fun t => fcmpRel cc (fval fF32 (flushIn x.kernel.ftz fF32 (signOps fF32 nega absa (x.rd t a).toNat)))
        (fval fF32 (flushIn x.kernel.ftz fF32 (x.rd t b).toNat))
      GivesFp (.fcmp h cc nega absa pd a b) s x s1 1 (some 4) (predDest pd) (fun t => wrPred t pd (r t).1) (fun t => (r t).2)
        false)) ∧
  (∀ f ∈ [fF32, fF16, fBF16, fE4M3, fE5M2, fE2M1], ∀ md sat neg m e c, c < 2 ^ f.width → fval f c = .fin neg m e →
    roundF f md sat neg m e = { code := c, fps := 0, ovf := false })

/-- R97, R101: the sign of an exact zero, for a sum, a difference, a product and a quotient; a sum of opposite infinities and a
product of zero and infinity are the canonical NaN with NV; Min and Max pass a NaN over. -/
def Obligations.ZeroSignsAndInvalid : Prop :=
  ∀ f ∈ [fF32, fF16, fBF16], ∀ md n m c q,
    let nan : FRes := { code := f.nan, fps := fNV, ovf := false }
    let zero := fun (neg : Bool) => ({ code := if neg then 2 ^ (f.width - 1) else 0, fps := 0, ovf := false } : FRes)
    (∀ (a b : Nat) (d e : Int), (a : ℚ) * 2 ^ d = b * 2 ^ e →
      fAdd f md (.fin n a d) (.fin (!n) b e) = zero (md == .rm) ∧ fSub f md (.fin n a d) (.fin n b e) = zero (md == .rm)) ∧
    (∀ d e, fAdd f md (.fin n 0 d) (.fin n 0 e) = zero n ∧ fSub f md (.fin n 0 d) (.fin (!n) 0 e) = zero n) ∧
    (∀ a d e, fMul f md (.fin n 0 d) (.fin m a e) = zero (n ^^ m) ∧ fMul f md (.fin m a e) (.fin n 0 d) = zero (n ^^ m) ∧
      (0 < a → fDiv f md (.fin n 0 d) (.fin m a e) = zero (n ^^ m))) ∧
    fAdd f md (.inf n) (.inf (!n)) = nan ∧ fMul f md (.inf n) (.fin m 0 c) = nan ∧ fMul f md (.fin m 0 c) (.inf n) = nan ∧
    fDiv f md (.inf n) (.inf m) = nan ∧ fSqrt f md (.inf true) = nan ∧
    (∀ b isMax, fval f q = .nan b → ∀ p, (fval f p).isNan = false →
      (fMinMax f isMax q p).code = p ∧ (fMinMax f isMax p q).code = p ∧ (fMinMax f isMax p q).fps = if b then fNV else 0)

/-- R136-R142: the conversions. -/
def Obligations.Conversions : Prop :=
  ∀ h s x s1 d a b, Issues h s x s1 →
    let A := fun t => (x.rd t a).toNat
    let word := fun (r : Nat → FRes) t => wrReg t d (BitVec.ofNat 32 (r t).code)
    (∀ ty hi md dst, (x.kernel.rw (CvtInt.wide dst) d && x.kernel.s1 a) = true →
      let lo : Int := if dst.signed then -(2 ^ (dst.width - 1)) else 0
      let top : Int := if dst.signed then 2 ^ (dst.width - 1) - 1 else 2 ^ dst.width - 1
      let r := fun t => floatToInt md lo top (fval (flSpec ty)
        (flushIn x.kernel.ftz (flSpec ty) (flElem ty (if hi then 1 else 0) (x.rd t a))))
      GivesFp (.cvtfi h ty hi md dst d a) s x s1 2 (some 6) (Dest.reg d (if dst.wide then 2 else 1))
        (fun t => wrCvt t dst d (r t).1) (fun t => (r t).2) false) ∧
    (∀ src md dst, (x.kernel.r1 d && x.kernel.sw (CvtInt.wide src) a) = true →
      let r := fun t => intToFloat (flSpec dst) md (asInt src.signed src.width
        (if src.wide then (x.rd64 t src.signed a).toNat else A t))
      GivesFp (.cvtif h src md dst d a) s x s1 2 (some 6) (Dest.reg d 1) (word r) (fun t => (r t).fps) false) ∧
    (∀ dst src md, (x.kernel.r1 d && x.kernel.s1 a && x.kernel.s1 b) = true →
      let w := fun f => 32 / (ffSpec f).width
      (src = .f32 →
        let r := fun t => flushOut (x.kernel.ftz && ftzFmt dst) (ffSpec dst)
          (narrow (ffSpec dst) md false (fval fF32 (flushIn x.kernel.ftz fF32 (A t))))
        GivesFp (.cvtff h dst src md d a b) s x s1 2 (some 6) (Dest.reg d 1)
          (fun t => wrReg t d (putElem (ffSpec dst).width ((x.rd t b).toNat % w dst) (x.rdReg t d) (r t).code))
          (fun t => (r t).fps) false) ∧
      (src ≠ .f32 →
        let v := fun t => fval (ffSpec src) (elem (ffSpec src).width ((x.rd t b).toNat % w src) (x.rd t a))
        GivesFp (.cvtff h dst src md d a b) s x s1 2 (some 6) (Dest.reg d 1)
          (fun t => wrReg t d (BitVec.ofNat 32 (narrow fF32 .rn false (v t)).code)) (fun t => if (v t).isSig then fNV else 0)
          false)) ∧
    (∀ out, (x.kernel.r1 d && x.kernel.s1 a && x.kernel.s1 b) = true →
      let n := match out with | .s8x4 => 4 | .s16x2 => 2 | .s32 => 1
      let code := fun t k => elem 2 (n * ((x.rd t b).toNat % (16 / n)) + k) (x.rd t a)
      GivesFp (.tern h out d a b) s x s1 2 (some 6) (Dest.reg d 1)
        (fun t => wrReg t d (BitVec.ofNat 32 (joinLanes (32 / n) ((List.range n).map (fun k =>
          if code t k = 1 then 1 else if code t k = 3 then 2 ^ (32 / n) - 1 else 0)))))
        (fun t => if (List.range n).any (fun k => code t k == 2) then fNV else 0) false) ∧
    ((x.kernel.r1 d && x.kernel.s1 a && x.kernel.s1 b) = true →
      let E := fun t => (x.rd t b).toNat % 256
      let r := fun t => if E t = 255 then FRes.exact 0x7FC00000 else scaled x.kernel.ftz (A t) ((E t : Int) - 127)
      GivesFp (.qscale h (.apply b) d a) s x s1 2 (some 6) (Dest.reg d 1) (word r) (fun t => (r t).fps) false) ∧
    (∀ bg tgt, (x.kernel.r1 d && x.kernel.s1 a) = true →
      let E := fun t => blockScale tgt ((x.blockThreads bg.size (t / bg.size)).map (fun u =>
        fval fF32 (flushIn x.kernel.ftz fF32 (A u))))
      let r := fun t => if E t = 255 then FRes.withFlag 0x7FC00000 (fpsIf (fval fF32 (A t)).isSig fNV)
        else scaled x.kernel.ftz (A t) (127 - (E t : Int))
      exec (.qscale h (.scale bg tgt) d a) s = retires x s1 2 (some 6) (Dest.reg d 1)
        (wordTo x d (fun t => BitVec.ofNat 32 (E t))) 0 false ∧
      GivesFp (.qscale h (.div bg tgt) d a) s x s1 2 (some 6) (Dest.reg d 1) (word r) (fun t => (r t).fps) false)

/-- R140: PACK narrows the 2k elements of A, then B; UNPACK widens half the elements of A. -/
def Obligations.PackAndUnpack : Prop :=
  ∀ h s x s1 (w : PkW) d a b, Issues h s x s1 → (x.kernel.r1 d && x.kernel.s1 a && x.kernel.s1 b) = true →
    let k := 16 / w.bits
    let inp := fun t i => if i < k then elem (2 * w.bits) i (x.rd t a) else elem (2 * w.bits) (i - k) (x.rd t b)
    let out := fun (v : Nat → W32) (n : Nat) (f : Nat → Nat → Int) => ∀ t ∈ x.lanes, ∀ i < 32 / n,
      ((elem n i (v t) : Nat) : Int) = f t i % 2 ^ n
    (∃ v, out v w.bits (fun t i => inp t i) ∧ GivesWord (.pack h w .trunc d a b) s x s1 2 (some 6) d v) ∧
    (∀ md, md ≠ .trunc →
      let raw : Nat → Nat → Int := fun t i => if md = .ss then asInt true (2 * w.bits) (inp t i) else inp t i
      let kept : Nat → Nat → Int := fun t i =>
        if md = .ss then max (-(2 ^ (w.bits - 1))) (min (2 ^ (w.bits - 1) - 1) (raw t i)) else min (2 ^ w.bits - 1) (raw t i)
      ∃ v, out v w.bits kept ∧ exec (.pack h w md d a b) s = retires x s1 2 (some 6) (Dest.reg d 1) (wordTo x d v) 0
        (x.lanes.any (fun t => (List.range (2 * k)).any (fun i => decide (kept t i ≠ raw t i))))) ∧
    (∀ sx, ∃ v, out v (2 * w.bits) (fun t i =>
        asInt sx w.bits (elem w.bits ((if (x.rd t b).getLsbD 0 then k else 0) + i) (x.rd t a))) ∧
      GivesWord (.unpack h w sx d a b) s x s1 2 (some 6) d v)

/-- R107: CVTNE runs over each block's threads in TIDX order, from a residual of +0. An element and the residual are added in F32,
the sum is narrowed to the target, and what the narrowing lost is the next residual: +0 where the sum is a NaN or an infinity or
where the narrowing saturates. The flags of every rounding are raised. The narrowing keeps what the target holds, gives the largest
finite value where a finite sum overflows, and gives the target's own NaN, or 0 where it has none. -/
def Obligations.ErrorFeedback : Prop :=
  (∀ h s x s1 (bg : Blk) tgt d a, Issues h s x s1 → (x.kernel.r1 d && x.kernel.s1 a) = true →
    let chain := fun blk => (x.blockThreads bg.size blk).zip
      (feedBlock x.kernel.ftz tgt (fun t => (x.rd t a).toNat) d 0 (x.blockThreads bg.size blk))
    let r := joinRes (byThread ((List.range (64 / bg.size)).flatMap chain))
    (r.fps &&& x.kernel.fpEnables = 0 →
      exec (.cvtne h bg tgt d a) s = retires x s1 2 (some 6) (Dest.reg d 1) r.ws r.fps r.sat) ∧
    (∀ blk, (x.blockThreads bg.size blk).Perm (x.lanes.filter (fun t => t / bg.size == blk)) ∧
      (x.blockThreads bg.size blk).Pairwise (fun t u => (x.crew.thr t).tidx.toNat ≤ (x.crew.thr u).tidx.toNat))) ∧
  (∀ ftz tgt val d res, feedBlock ftz tgt val d res [] = [] ∧ ∀ t l, feedBlock ftz tgt val d res (t :: l) =
      { ws := wrReg t d (BitVec.ofNat 32 (feedStep ftz tgt (val t) res).1), fps := (feedStep ftz tgt (val t) res).2.2, sat := false } ::
      feedBlock ftz tgt val d (feedStep ftz tgt (val t) res).2.1 l) ∧
  (∀ ftz tgt v res,
    let num := fun c => fval fF32 (flushIn ftz fF32 c)
    let e := flushOut ftz fF32 (fAdd fF32 .rn (num v) (num res))
    let q := narrowTo tgt (fval fF32 e.code)
    let next := flushOut ftz fF32 (fSub fF32 .rn (fval fF32 e.code) (narrowVal tgt q.code))
    let restarts := (fval fF32 e.code).isNan = true ∨ (fval fF32 e.code).isInf = true ∨ q.ovf = true
    (feedStep ftz tgt v res).1 = q.code ∧
    (restarts → (feedStep ftz tgt v res).2 = (0, e.fps ||| q.fps)) ∧
    (¬restarts → (feedStep ftz tgt v res).2 = (next.code, e.fps ||| q.fps ||| next.fps))) ∧
  (∀ e ∈ [(NarrowFmt.f16, 16, 0x7BFF, 0x8000, 0x7E00), (.bf16, 16, 0x7F7F, 0x8000, 0x7FC0), (.e4m3, 8, 0x7E, 0x80, 0x7F),
      (.e5m2, 8, 0x7B, 0x80, 0x7E), (.e2m1, 4, 7, 8, 0), (.s8, 8, 0x7F, 1, 0), (.s4, 4, 7, 1, 0)],
    let (tgt, width, top, below, nan) := e
    let int := tgt = .s8 ∨ tgt = .s4
    (∀ c < 2 ^ width, ∀ neg m (x : Int), narrowVal tgt c = .fin neg m x → narrowTo tgt (narrowVal tgt c) = ⟨c, 0, false⟩) ∧
    (∀ neg m (x : Int), (narrowTo tgt (.fin neg m x)).ovf = true →
      narrowTo tgt (.fin neg m x) = ⟨if neg then top + below else top, if int then fNV ||| fNX else fOF ||| fNX, true⟩) ∧
    ∀ sig, narrowTo tgt (.nan sig) = ⟨nan, if sig = true ∨ int ∨ tgt = .e2m1 then fNV else 0, false⟩)

/-- R143: a special function completes with its result, element by element; SINCOS gives both. The results that R143
bounds only are free within the bound (assumption 7). -/
def Obligations.SpecialFunctions : Prop :=
  ∀ h s x s1 m d a, Issues h s x s1 →
    let f := flSpec m.ty
    ((x.kernel.r1 d && x.kernel.s1 a) = true →
      ∀ e ∈ [(Instr.rcp h m d a, SFn.rcp), (.rsq h m d a, .rsq), (.ex2 h m d a, .ex2), (.lg2 h m d a, .lg2), (.sin h m d a, .sin),
          (.cos h m d a, .cos), (.tanh h m d a, .tanh)],
        GivesElems e.1 s x s1 3 none m d (fun t k => special e.2 f (x.flA m t k a))) ∧
    ((x.kernel.rw true d && x.kernel.s1 a) = true →
      let r := fun fn t k => finishF x.kernel.ftz f m.sat (special fn f (x.flA m t k a))
      let val := fun fn t => BitVec.ofNat 32 (joinLanes f.width ((List.range m.ty.elems).map (fun k => (r fn t k).code)))
      GivesFp (.sincos h m d a) s x s1 3 none (Dest.reg d 2) (fun t => wrRegAt t d 0 (val .sin t) ++ wrRegAt t d 1 (val .cos t))
        (fun t => ((List.range m.ty.elems).map (r .sin t) ++ (List.range m.ty.elems).map (r .cos t)).foldl
          (fun e r => e ||| r.fps) 0) false)

/-- R143: the exact cases. The reciprocal of a power of two, the reciprocal root of a power of four, the power of an integer and
the logarithm of a power of two round their exact value; zeros, infinities, NaNs and what is below zero give what the rule lists. -/
def Obligations.SpecialExactCases : Prop :=
  ∀ f ∈ [fF32, fF16, fBF16], ∀ c,
    let is := fun fn v e => special fn f c = ({ code := v, fps := e, ovf := false } : FRes)
    let sign := fun (neg : Bool) => if neg then 2 ^ (f.width - 1) else 0
    (∀ sig, fval f c = .nan sig → ∀ fn, is fn f.nan (if sig then fNV else 0)) ∧
    (∀ neg, fval f c = .inf neg → is .rcp (sign neg) 0 ∧ is .sin f.nan fNV ∧ is .cos f.nan fNV ∧
      is .tanh (sign neg + f.bias * 2 ^ f.mb) 0 ∧
      (neg = false → is .rsq 0 0 ∧ is .lg2 (f.inf false) 0 ∧ is .ex2 (f.inf false) 0) ∧
      (neg = true → is .rsq f.nan fNV ∧ is .lg2 f.nan fNV ∧ is .ex2 0 0)) ∧
    (∀ neg m (e : Int), fval f c = .fin neg m e →
      (m = 0 → is .rcp (f.inf neg) fDZ ∧ is .rsq (f.inf neg) fDZ ∧ is .lg2 (f.inf true) fDZ ∧ is .ex2 (f.bias * 2 ^ f.mb) 0 ∧
        is .cos (f.bias * 2 ^ f.mb) 0 ∧ is .sin c 0 ∧ is .tanh c 0) ∧
      (0 < m → neg = true → is .rsq f.nan fNV ∧ is .lg2 f.nan fNV) ∧
      (∀ k : Nat, m = 2 ^ k → special .rcp f c = roundF f .rn false neg 1 (-(e + k)) ∧
        (neg = false → special .lg2 f c = intToFloat f .rn (e + k) ∧
          ((e + k) % 2 = 0 → special .rsq f c = roundF f .rn false false 1 (-((e + k) / 2))))) ∧
      (∀ n : Nat, 0 < n → (m : ℚ) * 2 ^ e = n →
        (n < 2 ^ 12 → special .ex2 f c = roundF f .rn false false 1 (if neg then -(n : Int) else n)) ∧
        (2 ^ 12 ≤ n → special .ex2 f c = roundF f .rn false false 1 (if neg then -(2 ^ 13) else 2 ^ 13))))

/-- R144, R108, R145: dot products, with a scale pair or without, and the ternary dot product of a part whose stepping is
the kernel's. -/
def Obligations.DotProducts : Prop :=
  ∀ h s x s1 d a b c, Issues h s x s1 → (x.kernel.r1 d && x.kernel.s1 a && x.kernel.s1 b && x.kernel.s1 c) = true →
    let els := fun n (f : Nat → FVal) (v : W32) => (List.range n).map (fun k => f (elem (32 / n) k v))
    let gives (i : Instr) (sc : Option Reg) (n : Nat) (ea eb : Nat → FVal) : Prop :=
      let e : Nat → Nat := fun t => match sc with | some e => (x.rdReg t e).toNat | none => 0x7F7F
      let r := fun t => if e t % 256 = 255 ∨ e t / 256 % 256 = 255 then FRes.exact 0x7FC00000
        else dotOne x.kernel.ftz (x.rd t c).toNat ((e t % 256 : Nat) - 127 + ((e t / 256 % 256 : Nat) - 127))
          (els n ea (x.rd t a)) (els n eb (x.rd t b))
      GivesFp i s x s1 3 (some 7) (Dest.reg d 1) (fun t => wrReg t d (BitVec.ofNat 32 (r t).code)) (fun t => (r t).fps) false
    (∀ fa fb, gives (.dot2 h fa fb d a b c) none 2 (dot2Val fa) (dot2Val fb)) ∧
    (∀ fa fb sc, (∀ e, sc = some e → x.kernel.r1 e = true) →
      gives (.dot4 h fa fb sc d a b c) sc 4 (dot4Val fa) (dot4Val fb)) ∧
    (∀ fa fb sc, (∀ e, sc = some e → x.kernel.r1 e = true) →
      gives (.dot8 h fa fb sc d a b c) sc 8 (dot8Val fa) (dot8Val fb)) ∧
    (∀ byte : BitVec 2, x.kernel.steppingOk = true →
      let code := fun t k => elem 2 (4 * byte.toNat + k) (x.rd t a)
      let sum := fun t => (x.rd t c).toInt + ((List.range 4).map (fun k =>
        (if code t k = 1 then 1 else if code t k = 3 then -1 else 0) * asInt true 8 (elem 8 k (x.rd t b)))).sum
      GivesFp (.tdot h byte d a b c) s x s1 3 (some 7) (Dest.reg d 1)
        (fun t => wrReg t d (BitVec.ofInt 32 (max (-(2 ^ 31)) (min (2 ^ 31 - 1) (sum t)))))
        (fun t => if (List.range 4).any (fun k => code t k == 2) then fNV else 0)
        (x.lanes.any (fun t => decide (sum t < -(2 ^ 31)) || decide (2 ^ 31 - 1 < sum t))))

/-! ## Group 0x6: across the lanes -/

/-- R146, R147: a lane read takes A of one thread of the reader's own segment: of index B, of the lane B below or above, or
of the lane whose index differs in B's bits. -/
def Obligations.LaneReads : Prop :=
  ∀ h s x s1 wide (sw : SegW) d a b, Issues h s x s1 → (x.kernel.rw wide d && x.kernel.sw wide a && x.kernel.s1 b) = true →
    let w := sw.width; let B := fun t => (x.rd t b).toNat
    let reads (i : Instr) (rel : Nat → Nat → Prop) : Prop := ∃ j : Nat → Nat, (∀ t ∈ x.lanes, rel t (j t)) ∧
      exec i s = retires x s1 3 (some 7) (Dest.reg d (if wide then 2 else 1)) (perThread x (fun t =>
        if wide then wrReg64 t d (x.rd64 (j t) false a) else wrReg t d (x.rd (j t) a))) 0 false
    reads (.geti h wide sw d a b) (fun t j => j / w = t / w ∧ j % w = B t % w) ∧
    reads (.getb h wide true sw d a b) (fun t j => j / w = t / w ∧ (j % w + B t) % w = t % w) ∧
    reads (.getb h wide false sw d a b) (fun t j => if B t ≤ t % w then j + B t = t else j = t) ∧
    reads (.geta h wide true sw d a b) (fun t j => j / w = t / w ∧ j % w = (t % w + B t) % w) ∧
    reads (.geta h wide false sw d a b) (fun t j => if t % w + B t < w then j = t + B t else j = t) ∧
    reads (.getx h wide sw d a b) (fun t j => j / w = t / w ∧ j % w = (t % w) ^^^ (B t % w))

/-- R148: votes over a segment, masks over the threads that take part, peers of equal value, the first or last thread. -/
def Obligations.Votes : Prop :=
  ∀ h s x s1 (sw : SegW) wide cnt last pd pa d a, Issues h s x s1 →
    let same := fun t j => if wide then x.rd64 t false a = x.rd64 j false a else x.rd t a = x.rd j a
    (∃ v : Nat → Bool, (∀ t ∈ x.lanes, (v t = true ↔ ∃ j ∈ x.lanes, j / sw.width = t / sw.width ∧ x.pred j pa = true)) ∧
      GivesPred (.pany h sw pd pa) s x s1 3 (some 7) pd v) ∧
    (∃ v : Nat → Bool, (∀ t ∈ x.lanes, (v t = true ↔ ∀ j ∈ x.lanes, j / sw.width = t / sw.width → x.pred j pa = true)) ∧
      GivesPred (.pall h sw pd pa) s x s1 3 (some 7) pd v) ∧
    (x.kernel.rw (!cnt) d = true →
      (cnt = true → GivesWord (.pmask h cnt d pa) s x s1 3 (some 7) d (fun _ =>
        BitVec.ofNat 32 (x.lanes.countP (fun j => x.pred j pa)))) ∧
      (cnt = false → ∃ v : W64, (∀ j < 64, (v.getLsbD j = true ↔ j ∈ x.lanes ∧ x.pred j pa = true)) ∧
        GivesPair (.pmask h cnt d pa) s x s1 3 (some 7) d (fun _ => v))) ∧
    ((x.kernel.rw true d && x.kernel.sw wide a) = true →
      ∃ v : Nat → W64, (∀ t ∈ x.lanes, ∀ j < 64, ((v t).getLsbD j = true ↔ j ∈ x.lanes ∧ same t j)) ∧
        GivesPair (.peers h wide (.mask d) a) s x s1 3 none d v) ∧
    (x.kernel.sw wide a = true →
      ∃ v : Nat → Bool, (∀ t ∈ x.lanes, (v t = true ↔ ∀ j ∈ x.lanes, same t j)) ∧
        GivesPred (.peers h wide (.all pd) a) s x s1 3 none pd v) ∧
    (∃ v : Nat → Bool, (∀ t ∈ x.lanes, (v t = true ↔ ∀ j ∈ x.lanes, if last then j ≤ t else t ≤ j)) ∧
      GivesPred (.lead h last pd) s x s1 3 (some 7) pd v)

/-- R149: SCAN runs through the threads that take part in ascending order; VRED gives every one of them the last value. Over the
integers the reduction by ADD is the sum modulo the type, and by MIN and MAX the least and the greatest value. -/
def Obligations.ScanAndReduce : Prop :=
  (∀ h s x s1 ty op sat d a, Issues h s x s1 → (x.kernel.rw (ScanTy.wide ty) d && x.kernel.sw ty.wide a) = true →
    let step := fun acc t => scanStep x.kernel.ftz ty op sat acc (x.rdScan ty t a)
    let at_ := fun n => (x.lanes.take n).foldl (fun acc t => (step acc t).1) (scanId ty op)
    let fps := (x.lanes.zipIdx).foldl (fun e t => e ||| (step (at_ t.2) t.1).2.1) 0
    let clamp := (x.lanes.zipIdx).any (fun t => (step (at_ t.2) t.1).2.2)
    let gives (i : Instr) (n : Nat → Nat) : Prop :=
      exec i s = retires x s1 3 none (Dest.reg d (if ty.wide then 2 else 1))
        ((x.lanes.zipIdx).flatMap (fun t => wrScan ty t.1 d (at_ (n t.2)))) fps clamp
    fps &&& x.kernel.fpEnables = 0 →
      gives (.scan h ty op false sat d a) (fun k => k + 1) ∧ gives (.scan h ty op true sat d a) (fun k => k) ∧
      gives (.vred h ty op sat d a) (fun _ => x.lanes.length)) ∧
  (∀ ty (vals : List Nat), ScanTy.width ty = 64 ∨ ty = .s32 ∨ ty = .n32 → vals ≠ [] →
    let w := ty.width; let num := fun v => asInt ty.signed w v
    let last := fun op => vals.foldl (fun acc v => (scanStep false ty op false acc v).1) (scanId ty op)
    ((last .add : Nat) : Int) = (vals.map num).sum % 2 ^ w ∧
    (∃ v ∈ vals, num (last .min) = num v) ∧ (∀ v ∈ vals, num (last .min) ≤ num v) ∧
    (∃ v ∈ vals, num (last .max) = num v) ∧ (∀ v ∈ vals, num v ≤ num (last .max)))

/-! ## Group 0x7, and REGROUP -/

/-- R161, R169, R172, R173: a block exit sends each thread that takes part to its block, YIELD sets YLD as well, EXIT sets EXITED,
NOP does nothing more; nothing else of the threads changes. The region whose blocks count is that of the crew's last vote, which is
the model's choice (assumption 63). -/
def Obligations.BlockExits : Prop :=
  ∀ h s x s1, Issues h s x s1 → x.crew.hmode = false →
    (∀ a tgt,
      (x.here.blockOk tgt.toNat = true →
        Moves (.bx h tgt) s x s1 (fun _ th => th.toBlock tgt.toNat) ∧
        Moves (.yield h tgt) s x s1 (fun _ th => { th.toBlock tgt.toNat with yld := true })) ∧
      (x.kernel.s1 a = true → (∀ t ∈ x.lanes, x.here.blockOk ((x.rd t a).toNat % 32) = true) →
        Moves (.bxi h a) s x s1 (fun t th => th.toBlock ((x.rd t a).toNat % 32)))) ∧
    Moves (.exit h) s x s1 (fun _ th => th.setExited true) ∧
    exec (.nop h) s = .next (retireNone x s1 0)

/-- R171: BXC sends each thread by its own condition. Under ONCE a condition that differs takes the divergent-once trap, or,
where TRAPS.UNIV is 0, every thread goes by the lowest thread's condition and CST.UV is set. The region whose blocks count is that
of the crew's last vote, which is the model's choice (assumption 63), as is that a block that is none of its own is an illegal
operand before the trap (assumption 70). -/
def Obligations.ConditionalExit : Prop :=
  ∀ h s x s1 once tt tf pc, Issues h s x s1 → x.crew.hmode = false →
    let blocks := x.here.blockOk tt.toNat = true ∧ x.here.blockOk tf.toNat = true
    let c := fun t => x.pred t pc
    let differs := ∃ t ∈ x.lanes, ∃ u ∈ x.lanes, c t ≠ c u
    (blocks → once = false ∨ ¬differs →
      Moves (.bxc h once tt tf pc) s x s1 (fun t th => th.toBlock (if c t then tt.toNat else tf.toNat))) ∧
    (blocks → once = true → differs → x.kernel.univ = false →
      exec (.bxc h once tt tf pc) s = .next (moved x s1 (fun cr => cr.raiseUv.modThrs x.lanes (fun _ th =>
        th.toBlock (if c (x.lanes.headD 0) then tt.toNat else tf.toNat))))) ∧
    (blocks → once = true → differs → x.kernel.univ = true → ∃ m : W64, (∀ j < 64, (m.getLsbD j = true ↔ j ∈ x.lanes ∧ c j = true)) ∧
      exec (.bxc h once tt tf pc) s = .next (x.raise s1 (x.exc 0x05 m true))) ∧
    (¬blocks → exec (.bxc h once tt tf pc) s = .next (x.badValue s1))

/-- R172, R173, R75: CALL sends a thread to the region and block of its image and owes the link, which lands by the next vote; RET
without a restore pair sends it back; EXITN keeps the registers below V(k), clears P, and puts each thread at the entry block of the
node region that its index names. That CALL and EXITN read the regions they name as these stand, and in the directory that the
crew's header named when its HB was set, are the model's choices (assumptions 49, 63). -/
def Obligations.CallsAndExits : Prop :=
  (∀ h s x s1, Issues h s x s1 → x.crew.hmode = false →
      (∀ link a rb s2, (x.kernel.r1 (.v link) && x.kernel.s1 a) = true → x.here.blockOk rb.toNat = true →
        allOk .now x.acc x.crew.dir.toNat x.crew.nreg (x.lanes.map (fun t => x.rd t a)) s1 = (.ok true, s2) →
        exec (.call h link a rb) s = .next ((s2.issueCost x 0).modCrew x.key (fun cr =>
          let cr := (x.flagUp cr (Dest.reg (.v link) 1)).landFixed.modThrs x.lanes (fun t th =>
            th.goto ((x.rd t a).toNat / 32 % 512) ((x.rd t a).toNat % 32))
          { (cr.advance x.next) with
            owed := cr.owed ++ [{ id := cr.nextId, flag := h.sf, due := none, fps := 0, sat := false, link := true,
                                  writes := x.lanes.map (fun t => .v t link.val
                                    (BitVec.ofNat 32 ((x.crew.thr t).region * 32 + rb.toNat))) }],
            nextId := cr.nextId + 1 }))) ∧
      (∀ a s2, x.kernel.s1 a = true →
        allOk (.fetch true) x.acc x.crew.dir.toNat x.crew.nreg (x.lanes.map (fun t => x.rd t a)) s1 = (.ok true, s2) →
        Moves (.ret h a .z) s x s2 (fun t th => th.goto ((x.rd t a).toNat / 32 % 512) ((x.rd t a).toNat % 32)))) ∧
  (∀ h s x s1 k a s2 rs, Issues h s x s1 → x.crew.hmode = false → x.kernel.s1 a = true → k.toNat ≤ x.kernel.vregs →
      (∀ t ∈ x.lanes, (x.rd t a).toNat % 512 < x.crew.nreg) →
      x.lanes.mapM (fun t => regionVia .now x.acc x.crew.dir.toNat ((x.rd t a).toNat % 512)) s1 = (.ok rs, s2) →
      (∀ r ∈ rs, r.node = true) →
      exec (.exitn h k a) s = .next (movedTo x s2 (exitnDest k x.kernel) (fun cr => (x.lanes.zip rs).foldl (fun cr e => cr.modThr e.1 (fun th =>
        { th with v := th.v.filter (fun v => decide (v.1 < k.toNat)), p := 0,
                  br := mkBr false false ((x.rd e.1 a).toNat % 512) e.2.eblk, holdCnt := 0, yld := false })) cr)))

/-- R172, R458: CALLI and RET with a restore pair take every live thread to the named program and vote there. The directory of the
program's header stands for the votes that follow, and the region whose blocks count is that of the last vote: the model's choices
(assumption 63). -/
def Obligations.CallsBetweenPrograms : Prop :=
  ∀ h s x s1, Issues h s x s1 → x.crew.hmode = false → x.everyLive = true →
    (∀ link sa save rb hd e r s2, (x.kernel.r1 (.v link) && x.kernel.spairOk sa && x.kernel.spairOk save) = true →
      checkHead x.acc x.kernel (x.rdPair sa - 64) s1 = (.ok (some (hd, e, r)), s2) → x.here.blockOk rb.toNat = true →
      exec (.calli h link sa save rb) s = .next (x.voteNow s2
        ((({ ((x.flagUp x.crew (Dest.reg (.v link) 1)).landFixed.landLinks.landAll
              (x.lanes.map (fun t => .v t link.val (linkOf (x.crew.thr t) rb)) ++ wrPair save x.crew.hb)).modThrs x.lanes
              (fun _ th => th.goto e r.eblk) with
              hb := x.rdPair sa - 64, dir := BitVec.ofNat 64 hd.dir, nreg := hd.nreg, rdesc := r.raw } : Crew).endSweep).flagDown h.sf)
        true (Dest.reg (.v link) 1))) ∧
    (∀ a k hd e s2 s3, (x.kernel.s1 a && x.kernel.spairOk (.pr k)) = true →
      checkHead x.acc x.kernel (x.rdPair (.pr k)) s1 = (.ok (some (hd, e)), s2) →
      allOk (.fetch true) x.acc hd.dir hd.nreg (x.lanes.map (fun t => x.rd t a)) s2 = (.ok true, s3) →
      exec (.ret h a (.pr k)) s = .next (x.voteNow s3
        ((({ (x.flagUp x.crew Dest.none).landFixed.landLinks.modThrs x.lanes
              (fun t th => th.goto ((x.rd t a).toNat / 32 % 512) ((x.rd t a).toNat % 32)) with
              hb := x.rdPair (.pr k), dir := BitVec.ofNat 64 hd.dir, nreg := hd.nreg } : Crew).endSweep).flagDown h.sf) true Dest.none))

/-- R159, R162, R165, R168, R169, R170: NEXT lands every fixed-latency write and every link, and the crew votes. The lookup takes a
descriptor that the state cache holds, else probes the region's directory for the voters' set; a set that is absent traps where
TRAPS.ABSENT is set and RETRY clear, and else takes the best cover that holds the blocks at the hold limit, or sweeps these; and the
crew's walk state, HELD, HOLDCNT, YLD and SWP become what the vote says. The directory is the one that the crew's header named when its
HB was set (assumption 63). -/
def Obligations.NextVotes : Prop :=
  (∀ h s x s1, s.begin h = some (x, s1) → x.crew.hmode = false →
    let cr := x.crew.landFixed.landLinks
    (∀ e s2, vote x.acc (x.key.slot / 16) x.kernel cr s1 = (.error e, s2) → exec (.next h) s = .next (x.readFault s2 e Dest.none)) ∧
    (∀ v s2, vote x.acc (x.key.slot / 16) x.kernel cr s1 = (.ok v, s2) → ∃ s3 : State,
      s3.mem = s2.mem ∧ (∀ k, s3.crew? k = s2.crew? k) ∧
      ((∀ m ri, v ≠ .trap m ri) → exec (.next h) s = .next (s3.setCrew x.key { (cr.applyVote v) with
        ready := s2.now + v.time + 1, voteTill := s2.now + v.time + 1 })) ∧
      (∀ m ri, v = .trap m ri → exec (.next h) s = .next (raiseAt (s3.setCrew x.key
        { (cr.applyVote v) with votePending := false, replay := none, bpSkip := false }) x.key
        (x.exc 0x04 (absentArg m ri cr.ss) true))))) ∧
  FindsSlots ∧ LooksUp ∧ VoteAnswers ∧ VoteChanges

/-- R151, R152: a crew with no pending flag stands at its REGROUP with the key of every thread that has not exited, and one with
a pending flag does not start; one in which no thread takes part raises no flag (R77). The exchange hands the workgroup's live
threads out in the order of their keys, then of TIDX, 64 to a crew. That the crew stands there where no thread takes part, and that
writes owed without a flag land before the exchange, are the model's choices (assumption 48). -/
def Obligations.Regroups : Prop :=
  (∀ h s x s1 a n, s.begin h = some (x, s1) → x.crew.hmode = false → x.kernel.s1 a = true → n.toNat ≤ x.kernel.vregs →
      (let sf := if x.idle then none else x.h.sf; let y := { x with h := { x.h with sf := sf } }
        (∀ e ∈ x.crew.flags, e.cnt = 0) → exec (.regroup h a n) s = .next ((s1.issueCost x 3).modCrew x.key (fun cr =>
        { (y.flagUp cr.landFixed { dreg := 0, dn := n.toNat, dp := 7, dq := false, pall := true }) with
          block := .regroup ((List.range 64).map (fun t => if (x.crew.thr t).exited then none else some (x.rd t a))) n.toNat sf
            (sf.map (fun f => x.crew.flag f.val)) x.next,
          replay := none, bpSkip := false }))) ∧
      ((∃ e ∈ x.crew.flags, e.cnt ≠ 0) → exec (.regroup h a n) s = .next s)) ∧
  (∀ s core wg x n, s.wg? core wg = some x → x.crews.Nodup → x.crews ≠ [] →
      (∀ sl ∈ x.crews, (s.core core).stopped sl = false ∧
        ∃ cr key sf b nx, s.crew? ⟨core, sl⟩ = some cr ∧ cr.block = .regroup key n sf b nx) →
      ∃ t, exec (.regroupExchange core wg) s = .next t ∧ ∃ order : List (W32 × Thread),
        order.Perm (x.crews.flatMap (fun sl => match (s.crew? ⟨core, sl⟩).map (fun cr => cr.landIf (fun _ => true)) with
          | some cr => (match cr.block with
            | .regroup key _ _ _ _ => (List.range 64).filterMap (fun i => ((key.getD i none).map (fun k => (k, cr.thr i))))
            | _ => [])
          | none => [])) ∧
        order.Pairwise (fun a b => a.1 < b.1 ∨ (a.1 = b.1 ∧ a.2.tidx.toNat % 1024 ≤ b.2.tidx.toNat % 1024)) ∧
        ∀ i (hi : i < x.crews.length), ∃ cr, t.crew? ⟨core, x.crews[i]⟩ = some cr ∧ cr.block = .none ∧ ∀ j < 64,
          match order[64 * i + j]? with
          | some e => (cr.thr j).tidx = e.2.tidx ∧ (cr.thr j).region = e.2.region ∧ (cr.thr j).block = e.2.block ∧
              (cr.thr j).p = e.2.p ∧ ∀ r < n, kget 0 r (cr.thr j).v = kget 0 r e.2.v
          | none => (cr.thr j).exited = true)

/-! ## Groups 0x8 and 0x9: memory -/

/-- R225, R242-R248, R251-R253, R255: with the operands in range, aligned, and no thread's check failing, a load, a
store or an atomic performs every thread's access, with the ordered action of its order, and ends. What a plain store sends
home is on its way until it is accepted, and a plain load's home reads may be performed again until the crew orders them: how
the model lets pieces part is its reading (assumption 2). A load, and an atomic that returns a value, is counted for sampling first
(R342). -/
def Obligations.MemoryInstructionsEnd : Prop :=
  ∀ h s x s1 d m sx hint ord op, Issues h s x s1 →
    let addrs := x.lanes.map (fun t => (t, (x.ea m t).toNat))
    let ints := addrs.map (fun e => (e.1, (e.2 : Int)))
    let aligned := fun strict (n : Nat) => (strict || x.kernel.align) = true → ∀ t ∈ x.lanes, (x.ea m t).toNat % n = 0
    let s2 := x.countLoad s1 true
    let clean := fun (c : Checked (List Part)) => c.fault = none ∧ c.first = none
    let tell := fun (st : State) num code (c : Checked (List Part)) =>
      st.trace x num code false (ints.filter (fun e => (c.pass.map Prod.fst).contains e.1))
    (∀ sz, (x.kernel.groupOk (MSize.regs sz) d && x.kernel.memOk m) = true → aligned (!ord.isPlain) sz.bytes →
      let c := s2.checkAll x.acc addrs sz.bytes false (fun _ => !ord.wide)
      let home := fun (p : Part) => hint == .na && ((c.st.core x.key.core).l1Find x.wg.ctx (p.va / 128)).isNone
      let q := withOrder ord x.acc c.pass c.st (fun st => x.sampled s2 x.acc c.pass st (readAll
        (fun st p => if ord.wide then st.readMiss x.acc p else st.readPlain x.acc (ord.hint hint) p)
        (fun t bs => wrWords t d 0 (assemble sx bs)) c.pass))
      let r := q.withLate x d (.words sx) (lateRows (fun p => ord.isPlain && home p) sz.bytes sz.regs c.pass q.ws)
      clean c → r.bad = none → exec (.ld h sz sx ord hint d m) s =
        .next (loaded x (tell r.st 0x100 sz.code.toNat c) (Dest.reg d sz.regs) r)) ∧
    (∀ sz, (x.kernel.groupOk (MSize.regs sz) d && x.kernel.memOk m) = true → aligned false sz.bytes →
      let c := s2.checkAll x.acc addrs sz.bytes false (fun l => l.excl)
      let home := fun (p : Part) => match (c.st.core x.key.core).l1Find x.wg.ctx (p.va / 128) with
        | some l => !l.excl
        | none => true
      let q := x.sampled s2 x.acc c.pass c.st (readAll (fun st p => st.readCoherent x.acc p)
        (fun t bs => wrWords t d 0 (assemble sx bs)) c.pass)
      let r := q.withLate x d (.words sx) (lateRows home sz.bytes sz.regs c.pass q.ws)
      clean c → r.bad = none → exec (.ldc h sz sx d m) s =
        .next (loaded x (tell r.st 0x105 sz.code.toNat c) (Dest.reg d sz.regs) r)) ∧
    (∀ sz, (x.kernel.groupOk (MSize.regs sz) d && x.kernel.memOk m) = true → aligned (!ord.isPlain) sz.bytes →
      let c := s1.checkAll x.acc addrs sz.bytes true (fun _ => !ord.wide)
      let r := withOrder ord x.acc c.pass c.st (writeAll Part.n Part.va
        (fun st p bs => if ord.wide then (st.writeMiss x.acc p bs, true) else st.writePlain x.acc (ord.hint hint) p bs)
        (fun t => x.rdGroup t d sz.bytes) c.pass)
      clean c → r.bad = none → exec (.st h sz ord hint d m) s =
        .next ((retireNone x (tell r.st 0x101 sz.code.toNat c) 0).modCrew x.key (·.raiseFps r.fps))) ∧
    (∀ sz, aligned true (ASize.bytes sz) → x.kernel.memOk m = true →
      let c := s2.checkAll x.acc addrs sz.bytes true (fun l => l.excl)
      let c0 := s1.checkAll x.acc addrs sz.bytes true (fun l => l.excl)
      let code := if sz = .b4 then 2 else 3
      let f := fun t old => let r := atomicNew x.kernel.ftz op (8 * sz.bytes) old (natOfBytes (x.rdGroup t d sz.bytes));
        (some r.1, r.2)
      let out := fun t old => wrWords t d 0 (wordsOf sz.bytes old)
      let run := fun g => withOrder ord x.acc c.pass c.st (fun st => x.sampled s2 x.acc c.pass st (updateAll x.acc false g out c.pass))
      (x.kernel.groupOk sz.regs d = true → clean c → (run f).bad = none → exec (.atom h op sz ord d m) s =
        .next (retireMem x (tell (run f).st 0x120 code c) (Dest.reg d sz.regs) (run f).ws (run f).fps)) ∧
      (x.kernel.groupOk (2 * sz.regs) d = true → clean c → (run (fun t => x.casWord sz d t)).bad = none →
        exec (.atomcas h sz ord d m) s = .next (retireMem x (tell (run (fun t => x.casWord sz d t)).st 0x121 code c)
          (Dest.reg d sz.regs) (run (fun t => x.casWord sz d t)).ws (run (fun t => x.casWord sz d t)).fps)) ∧
      (let r := withOrder ord x.acc c0.pass c0.st (updateAll x.acc true f (fun _ _ => []) c0.pass);
        x.kernel.groupOk sz.regs d = true → clean c0 → r.bad = none → exec (.red h op sz ord d m) s =
          .next ((retireNone x (tell r.st 0x122 code c0) 0).modCrew x.key (·.raiseFps r.fps)))) ∧
    (∀ k md, (x.kernel.groupOk (LdtCount.num k) d && x.kernel.memOk m) = true →
      (∀ ss, md = .scl ss → x.kernel.spairOk ss = true) →
      let c := x.lanes.foldl (fun (c : Checked (List Elem)) t => c.add t (c.st.checkLdt x m md k.num t)) (Checked.init s2)
      let form := LateForm.elems md x.kernel.ftz x.kernel.fpEnables
      let q := readLdt x.acc hint form d (fun p => c.st.atHome x.acc hint p) c.pass c.st
      c.fault = none → c.first = none → q.1.bad = none → q.1.fps &&& x.kernel.fpEnables = 0 →
      ∃ st, exec (.ldt h k md hint d m) s = .next (loaded x st (Dest.reg d k.num) (q.1.withLate x d form q.2)))

/-- R242: a plain load, and LDC of a line held exclusively, whose threads' bytes all lie valid in one first-level
line. The destination is owed the bytes as R240 and R248 extend them, and no byte of storage changes. That the access
is performed at the issue is the model's reading (assumption 2). -/
def Obligations.LoadFromFirstLevel : Prop :=
  ∀ h s x s1 (sz : MSize) sx hint d m l, Issues h s x s1 → (x.kernel.groupOk sz.regs d && x.kernel.memOk m) = true →
    (s1.core x.key.core).l1Find x.wg.ctx l.lva = some l →
    (∀ t ∈ x.lanes, InLine x m t l.lva sz.bytes ∧ l.has ((x.ea m t).toNat % 128) sz.bytes = true ∧
      l.bad ((x.ea m t).toNat % 128) sz.bytes = false ∧ (x.kernel.align = true → (x.ea m t).toNat % sz.bytes = 0)) →
    (s.sysreg 0x27 x.wg.func).getLsbD 0 = false →
    let ends (i : Instr) : Prop := ∃ t, exec i s = .next t ∧ t.mem = s.mem ∧ OwesOnly x t (x.lanes.flatMap (fun u =>
      wrWords u d 0 (assemble sx (l.read ((x.ea m u).toNat % 128) sz.bytes))))
    ends (.ld h sz sx .plain hint d m) ∧ (l.excl = true → ends (.ldc h sz sx d m))

/-- R242, R214: a plain store whose threads all write into one first-level line whose translation allows it (W and D).
The bytes become valid and dirty there, the last thread's on each byte (R83), every other byte of the line is as
before, and storage is unchanged. That the line remembers D is the model's reading (assumption 42). -/
def Obligations.StoreToFirstLevel : Prop :=
  ∀ h s x s1 (sz : MSize) hint a m l, Issues h s x s1 → (x.kernel.groupOk sz.regs a && x.kernel.memOk m) = true →
    (s1.core x.key.core).l1Find x.wg.ctx l.lva = some l → l.w = true → l.d = true →
    (∀ t ∈ x.lanes, InLine x m t l.lva sz.bytes ∧ (x.kernel.align = true → (x.ea m t).toNat % sz.bytes = 0)) →
    (s.sysreg 0x27 x.wg.func).getLsbD 0 = false →
    let off := fun t => (x.ea m t).toNat % 128
    let covers := fun t i => off t ≤ i ∧ i < off t + sz.bytes
    ∃ t l', exec (.st h sz .plain hint a m) s = .next t ∧ t.mem = s.mem ∧ OwesNone x t ∧
      (t.core x.key.core).l1Find x.wg.ctx l.lva = some l' ∧ ∀ i < 128,
        ((∀ u ∈ x.lanes, ¬covers u i) → kfind i l'.bytes = kfind i l.bytes ∧ l'.dirty.getLsbD i = l.dirty.getLsbD i) ∧
        (∀ u ∈ x.lanes, covers u i → (∀ v ∈ x.lanes, u < v → ¬covers v i) →
          kfind i l'.bytes = some ((x.rdGroup u a sz.bytes).getD (i - off u) 0) ∧ l'.dirty.getLsbD i = true)

/-- R247, R254-R257: atomics on a line that the core holds exclusively. The threads act in ascending order, each on
the word that the one before left, and each destination is owed the word it found. That the access is performed at the
issue is the model's reading (assumption 2). -/
def Obligations.AtomicsOnOwnedLine : Prop :=
  ∀ h s x s1 (sz : ASize) op d m l, Issues h s x s1 → x.kernel.memOk m = true →
    (s1.core x.key.core).l1Find x.wg.ctx l.lva = some l → l.excl = true → l.w = true → l.d = true → l.poison = 0 →
    (∀ p, homeOf (l.pa * 128) ≠ .peer p) →
    (∀ t ∈ x.lanes, InLine x m t l.lva sz.bytes ∧ (x.ea m t).toNat % sz.bytes = 0) →
    (s.sysreg 0x27 x.wg.func).getLsbD 0 = false →
    let off := fun t => (x.ea m t).toNat % 128
    let run := fun (f : Nat → Nat → Option Nat × Fps) => x.lanes.foldl (fun (r : Line × List RegWrite) t =>
      let old := natOfBytes (r.1.read (off t) sz.bytes)
      (match (f t old).1 with
        | some v => r.1.write (off t) (bytesOfNat sz.bytes v) x.acc.crew
        | none => r.1, r.2 ++ wrWords t d 0 (wordsOf sz.bytes old))) (l, [])
    let rmw := fun t old => let r := atomicNew x.kernel.ftz op (8 * sz.bytes) old (natOfBytes (x.rdGroup t d sz.bytes));
      (some r.1, r.2)
    let held := fun (t : State) (r : Line) => t.mem = s.mem ∧ (t.core x.key.core).l1Find x.wg.ctx l.lva = some r
    (x.kernel.groupOk sz.regs d = true →
      (∃ t, exec (.atom h op sz .plain d m) s = .next t ∧ held t (run rmw).1 ∧ OwesOnly x t (run rmw).2) ∧
      (∃ t, exec (.red h op sz .plain d m) s = .next t ∧ held t (run rmw).1 ∧ OwesNone x t)) ∧
    (x.kernel.groupOk (2 * sz.regs) d = true → ∃ t, exec (.atomcas h sz .plain d m) s = .next t ∧
      held t (run (fun t => x.casWord sz d t)).1 ∧ OwesOnly x t (run (fun t => x.casWord sz d t)).2)

/-- R239, R250, R254: scratchpad loads, stores and atomics inside the allocation, where no stash window and no poison lies. -/
def Obligations.ScratchpadAccesses : Prop :=
  ∀ h s x s1 (m : ScrRef) d w, Issues h s x s1 → x.kernel.scrOk m = true → s1.wg? x.key.core x.crew.wg = some w →
    (∀ o, (s1.core x.key.core).windowAt x.crew.wg o = none) → w.scrPoison = [] →
    (s.sysreg 0x27 x.wg.func).getLsbD 0 = false →
    let off := fun t => (x.scrOff m t).toNat
    let inside := fun (n : Nat) (strict : Bool) => ∀ t ∈ x.lanes, 0 ≤ x.scrOff m t ∧ x.scrOff m t + n ≤ x.kernel.alloc ∧
      ((strict || x.kernel.align) = true → x.scrOff m t % n = 0)
    let bytes := fun (t : State) (scr : KMap Byte) => t.mem = s.mem ∧ ∃ w', t.wg? x.key.core x.crew.wg = some w' ∧ w'.scr = scr
    (∀ (sz : MSize) sx, x.kernel.groupOk sz.regs d = true → inside sz.bytes false → ∃ t, exec (.lds h sz sx d m) s = .next t ∧
      bytes t w.scr ∧ OwesOnly x t (x.lanes.flatMap (fun u =>
        wrWords u d 0 (assemble sx (kbytes 0 w.scr (off u) sz.bytes))))) ∧
    (∀ (sz : MSize), x.kernel.groupOk sz.regs d = true → inside sz.bytes false → ∃ t, exec (.sts h sz d m) s = .next t ∧
      bytes t (x.lanes.foldl (fun scr u => kputBytes scr (off u) (x.rdGroup u d sz.bytes)) w.scr) ∧ OwesNone x t) ∧
    (∀ (sz : ASize) op, inside sz.bytes true →
      let run := fun (f : Nat → Nat → Option Nat × Fps) => x.lanes.foldl (fun (r : KMap Byte × List RegWrite) t =>
        let old := natOfBytes (kbytes 0 r.1 (off t) sz.bytes)
        (match (f t old).1 with
          | some v => kputBytes r.1 (off t) (bytesOfNat sz.bytes v)
          | none => r.1, r.2 ++ wrWords t d 0 (wordsOf sz.bytes old))) (w.scr, [])
      let rmw := fun t old => let r := atomicNew x.kernel.ftz op (8 * sz.bytes) old (natOfBytes (x.rdGroup t d sz.bytes));
        (some r.1, r.2)
      (x.kernel.groupOk sz.regs d = true → ∃ t, exec (.atoms h op sz d m) s = .next t ∧ bytes t (run rmw).1 ∧
        OwesOnly x t (run rmw).2) ∧
      (x.kernel.groupOk (2 * sz.regs) d = true → ∃ t, exec (.atomcass h sz d m) s = .next t ∧
        bytes t (run (fun t => x.casWord sz d t)).1 ∧ OwesOnly x t (run (fun t => x.casWord sz d t)).2))

/-- R254: the new word of each integer atomic, on words of `w` bits. -/
def Obligations.AtomicNewWord : Prop :=
  ∀ ftz w m v, 0 < w → m < 2 ^ w → v < 2 ^ w →
    let new := fun op => (atomicNew ftz op w m v).1
    (∀ op, op ≠ .fadd → op ≠ .fmin → op ≠ .fmax → new op < 2 ^ w ∧ (atomicNew ftz op w m v).2 = 0) ∧
    new .add = (m + v) % 2 ^ w ∧ new .exch = v ∧ (∀ i, (new .and).testBit i = (m.testBit i && v.testBit i)) ∧
    (∀ i, (new .or).testBit i = (m.testBit i || v.testBit i)) ∧ (∀ i, (new .xor).testBit i = (m.testBit i ^^ v.testBit i)) ∧
    new .minn = min m v ∧ new .maxn = max m v ∧
    asInt true w (new .mins) = min (asInt true w m) (asInt true w v) ∧
    asInt true w (new .maxs) = max (asInt true w m) (asInt true w v) ∧
    new .inc = (if m ≥ v then 0 else m + 1) ∧ new .dec = (if m = 0 ∨ m > v then v else m - 1)

/-! ## Group 0xA: fences, cache maintenance, bindings, prefetch, stash windows -/

/-- R258-R264: after an acquiring FENCE at DIE or wider no first-level line of the context remains, after a releasing one none
is dirty and every write of the core's crews on its way is waited for: the dirty bytes of each line have set out for the home slice,
and one of both kinds has had them accepted before its acquire part. CFLUSH and CINV leave no line at an address they name; CFLUSH
sends its dirty bytes to the home slice, and CINV sends nothing of a line that the core does not hold exclusively. HINT reclassifies the
line in the levels it names; ISYNC empties the context's instruction lines, its sequencer's state cache and the crew's fetch buffer;
BIND writes the entry of a well-formed image with VALID set, and UNBIND clears VALID. At a narrow scope FENCE leaves every line as it
is. Which writes a FENCE waits for, and that a flag falls only when they have been accepted, is the model's reading (assumption 2). -/
def Obligations.FencesAndLines : Prop :=
  ∀ h s x s1, Issues h s x s1 →
    let line := fun (t : State) lva => (t.core x.key.core).l1Find x.wg.ctx lva
    let ends (i : Instr) (p : State → Prop) : Prop := ∃ t, exec i s = .next t ∧ OwesNone x t ∧ p t
    let acts (i : Instr) (p : State → Prop) : Prop := ∃ t, exec i s = .next t ∧ OwesAction x t ∧ p t
    let mine := fun (l : Line) => l.ctx == x.wg.ctx
    -- the core's only copy of its storage line, not held exclusively
    let alone := fun (l : Line) => l.excl = false ∧ (∀ l' ∈ (s1.core x.key.core).lines, l'.pa = l.pa → l' = l) ∧
      (∀ e ∈ s1.stashLines x.key.core, e.2.2.pa ≠ l.pa) ∧ s1.ownerOf l.pa ≠ some x.key.core
    let sent := fun (t : State) (l : Line) => ∀ i < 128, l.dirty.getLsbD i = true → ∃ f ∈ t.flight, f.own = true ∧ f.must = true ∧
      f.core = x.key.core ∧ (l.pa * 128 + i, kget 0 i l.bytes) ∈ f.ws
    (∀ kind sc, (Scope.wide sc = false → exec (.fence h kind sc) s =
        .next (retireLater x (if kind = .acq then s1 else s1.holdFor x.key.core))) ∧
      (sc.wide = true → acts (.fence h kind sc) (fun t => (∀ lva l, line t lva = some l → kind = .rel ∧ l.dirty = 0) ∧
        (kind ≠ .acq → ∀ f ∈ t.flight, f.core = x.key.core → f.own = true → f.must = true) ∧
        (kind ≠ .both → ∀ lva l, line s1 lva = some l → alone l → sent t l))) ∧
      (sc.wide = true → kind = .both → let out := s1.sweep x.acc mine false
        (∀ lva l, line s1 lva = some l → alone l → sent out l) ∧
        exec (.fence h kind sc) s = .next (retireLater x ((out.landCore x.key.core).sweep x.acc mine true)))) ∧
    ends (.isync h) (fun t => t.mem = s.mem ∧ (∀ lva, (t.core x.key.core).icFind x.wg.ctx lva = none) ∧
      (t.seq x.key.core (x.key.slot / 16)).cache = [] ∧ ∃ cr, t.crew? x.key = some cr ∧ cr.fbuf = []) ∧
    (∀ m, x.kernel.memOk m = true →
      let at_ := fun u => (x.ea m u).toNat / 128
      (∀ l2, acts (.cflush h l2 m) (fun t => ∀ u ∈ x.lanes, line t (at_ u) = none) ∧
        acts (.cinv h l2 m) (fun t => ∀ u ∈ x.lanes, line t (at_ u) = none)) ∧
      acts (.cflush h false m) (fun t => ∀ u ∈ x.lanes, ∀ l, line s1 (at_ u) = some l → alone l → sent t l) ∧
      acts (.cinv h false m) (fun t => (∀ u ∈ x.lanes, ∀ l, line s1 (at_ u) = some l → l.excl = false) →
        t.flight = s.flight ∧ t.mem = s.mem) ∧
      (∀ md lv, ends (.hint h md lv m) (fun t =>
        let va := fun u => (x.ea m u).toNat
        (lv = .l1 ∨ ∀ u ∈ x.lanes, va u < 2 ^ 57 ∧ ∃ e, s1.tlbFind x.acc (va u) = some e ∧ grants x.acc e false false = true) →
        (lv ≠ .l2 → ∀ u ∈ x.lanes, ∀ l, line s1 (at_ u) = some l → line t (at_ u) = some { l with hint := hintFun md l.hint }) ∧
        (lv ≠ .l1 → ∀ u ∈ x.lanes, ∀ e k c y, s1.tlbFind x.acc (va u) = some e → s1.keyOf e (va u) = some k →
          homeOf k = .core c → s1.l2Has (k / 128) = true → kfind (k / 512) s1.l2 = some y →
          ∃ y', kfind (k / 512) t.l2 = some y' ∧ y'.hint = hintFun md y.hint))) ∧
      (∀ l2 hint, ends (.prf h l2 hint m) (fun t => l2 = false → ∀ u ∈ x.lanes, ∀ l, line s1 (at_ u) = some l →
        x.lanes.length = 1 → l.has 0 128 = true → ∃ l', line t (at_ u) = some l' ∧ l'.pa = l.pa ∧ l'.dirty = l.dirty)) ∧
      (∀ n, exec (.ipf h n m) s = .next (retireNone x (x.lanes.foldl (fun s t => (List.range (ipfLines n)).foldl
        (fun s i => s.ipfLine x.acc (at_ t * 128 + 128 * i)) s) s1) 0))) ∧
    (∀ k, x.kernel.s1 k = true → (x.rd 0 k).toNat < 64 →
      (∀ img s2 ps s3 bs, x.kernel.srcOk 2 img = true → (x.rd64 0 false img).toNat % 32 = 0 →
        s1.checkSpan x.acc (x.rd64 0 false img).toNat 32 false (fun _ => false) = (s2, .ok ps) →
        readParts (fun s p => s.readHome x.acc p) ps s2 = (s3, .ok bs) → imageOk (natOfBytes bs) = true →
        exec (.bind h k img) s =
          .next (retireNone x (s3.putBinding x.acc (x.rd 0 k).toNat (natOfBytes bs ||| 2 ^ 200)) 0)) ∧
      exec (.unbind h k) s = .next (retireNone x (s1.putBinding x.acc (x.rd 0 k).toNat
        (s1.unboundEntry x.acc (x.rd 0 k).toNat)) 0))

/-- R265, R267: STASHMAP takes the lowest free entry of 64, or answers -1; STASHWB leaves the window's lines clean;
STASHDROP frees the entry, and the window's scratchpad bytes read zero. That a restored workgroup goes on naming a window by the
number it had, and that a new window then takes another, is the model's choice (assumption 59). -/
def Obligations.StashWindows : Prop :=
  ∀ h s x s1, Issues h s x s1 →
    (∀ d sg sp, (x.kernel.r1 d && x.kernel.spairOk sg && x.kernel.s1 sp) = true →
      let va := (x.rdPair sg).toNat; let v := (x.rd 0 sp).toNat
      let off := v % 2048 * 128; let len := (v / 2048 % 2048 + 1) * 128
      let w : Window := { wg := x.crew.wg, va := x.rdPair sg, off := x.kernel.stashAt + off, len := len, lines := [], handle := 0 }
      va % 128 = 0 → v < 2 ^ 22 → off + len ≤ up1k x.kernel.stash →
      (∀ e ∈ (s1.core x.key.core).windows, e.2.wg = w.wg → e.2.off + e.2.len ≤ w.off ∨ w.off + w.len ≤ e.2.off) →
      ((∀ i < 64, kfind i (s1.core x.key.core).windows ≠ none) →
        exec (.stashmap h d sg sp) s = .next (retireVar x s1 0 (Dest.reg d 1) (wrReg 0 d 0xFFFFFFFF) 0 false)) ∧
      (∀ i < 64, kfind i (s1.core x.key.core).windows = none → (∀ j < i, kfind j (s1.core x.key.core).windows ≠ none) →
        ∃ t n, exec (.stashmap h d sg sp) s = .next t ∧ OwesOnly x t (wrReg 0 d (BitVec.ofNat 32 n)) ∧ t.mem = s.mem ∧
          ((∀ e ∈ (s1.core x.key.core).windows, e.2.wg = x.crew.wg → e.2.handle ≠ i) → n = i) ∧
          kfind i (t.core x.key.core).windows = some { w with handle := n } ∧
          ∀ j, j ≠ i → kfind j (t.core x.key.core).windows = kfind j (s1.core x.key.core).windows)) ∧
    (∀ sh w wi, x.kernel.s1 sh = true → (s1.core x.key.core).winOf x.crew.wg (x.rd 0 sh).toNat = some wi →
      kfind wi (s1.core x.key.core).windows = some w → w.wg = x.crew.wg →
      (∃ t, exec (.stashwb h sh) s = .next t ∧ OwesAction x t ∧ ∃ w', kfind wi (t.core x.key.core).windows = some w' ∧
        w'.va = w.va ∧ w'.off = w.off ∧ w'.len = w.len ∧ ∀ i l, kfind i w'.lines = some l → l.dirty = 0) ∧
      (∀ nowb g, s1.wg? x.key.core x.crew.wg = some g → ∃ t g', exec (.stashdrop h nowb sh) s = .next t ∧ OwesAction x t ∧
        kfind wi (t.core x.key.core).windows = none ∧ t.wg? x.key.core x.crew.wg = some g' ∧
        ∀ o, kget 0 o g'.scr = if w.off ≤ o ∧ o < w.off + w.len then 0 else kget 0 o g.scr))

/-! ## Group 0xB: synchronisation -/

/-- R323, R326-R329: BINIT, ARRIVE and BEXPECT on a scratchpad object, named by its offset or by a group's slot. A phase
completes where both counts are met: the counts go to zero and PHASE counts up; else the object is busy. No other byte of
the scratchpad changes. Before an ARRIVE, what the core has on its way is accepted, and no other byte of storage changes, but for
the walk of a first write in a stash window. R258 and R325 ask at WG scope only that the crew's accesses have been performed; that
every write of the core's crews has then been accepted is the model's reading (assumption 2). -/
def Obligations.BarrierObjects : Prop :=
  ∀ h s x s1 g off, Issues h s x s1 → s1.wg? x.key.core x.crew.wg = some g → off % 16 = 0 → off + 16 ≤ x.kernel.alloc →
    g.scrBad off 16 = false →
    let old := Bar.ofNat (natOfBytes (g.scrRead off 16))
    let becomes := fun (u t : State) (b : Bar) => ((s1.core x.key.core).windowAt x.crew.wg off = none → t.mem = u.mem) ∧
      ∃ g', t.wg? x.key.core x.crew.wg = some g' ∧ Bar.ofNat (natOfBytes (g'.scrRead off 16)) = b ∧
        ∀ o, o < off ∨ off + 16 ≤ o → kget 0 o g'.scr = kget 0 o g.scr
    let checked := fun (b : Bar) => if b.expa ≤ b.arr ∧ b.expb ≤ b.landed
      then { b with arr := 0, landed := 0, expb := 0, busy := false, phase := (b.phase + 1) % 2 ^ 31 }
      else { b with busy := true }
    (∀ o a b, (x.kernel.r1 o && x.kernel.s1 a && x.kernel.s1 b) = true → (x.rdReg 0 o).toNat = off → old.busy = false →
      (x.rd 0 a).toNat < 2 ^ 16 → ∃ t, exec (.binit h o a b) s = .next t ∧ OwesNone x t ∧
        becomes s1 t { expa := (x.rd 0 a).toNat, arr := 0, expb := (x.rd 0 b).toNat, landed := 0, phase := old.phase,
                       busy := x.rd 0 b != 0 }) ∧
    (∀ bar, BarRef.ok x.kernel bar = true → x.barAt (x.barRef bar) false = .ok (.scr off) →
      (∀ d, x.kernel.r1 d = true → ∃ t, exec (.arrive h d bar) s = .next t ∧
        OwesOnly x t (wrReg 0 d (BitVec.ofNat 32 old.phase)) ∧
        becomes (s1.landCore x.key.core) t (checked { old with arr := min (old.arr + 1) 65535 })) ∧
      (∀ b, x.kernel.s1 b = true → ∃ t, exec (.bexpect h bar b) s = .next t ∧ OwesNone x t ∧
        becomes s1 t (checked { old with expb := min (old.expb + (x.rd 0 b).toNat) (2 ^ 32 - 1) })))

/-- R330, R331: a WAIT tests its conditions as it issues. Satisfied, it performs their order actions, writes true and the
number, and goes on; else the crew stands blocked with what it has latched. -/
def Obligations.WaitTests : Prop :=
  ∀ h s x s1 (k : BitVec 2) all qd d sl timeout conds, Issues h s x s1 →
    (x.kernel.r1 d && x.kernel.s1 sl && x.kernel.s1 timeout) = true →
    let n := k.toNat + 1; let off := (x.rd 0 sl).toNat; let ticks := (x.rd 0 timeout).toNat
    off % 16 = 0 → off + 16 * n ≤ x.kernel.alloc → s1.scrPoisonAt x.key.core x.crew.wg off (16 * n) = none →
    x.waitConds ((List.range n).map (fun i => natOfBytes (s1.scrRead x.key.core x.crew.wg (off + 16 * i) 16))) = .ok conds →
    let r := s1.waitTest x.acc x.crew none s1.fresh (fun _ => true) conds (List.replicate n none)
    let w : WaitSt := { conds := conds, first := r.2.1, all := all, qd := qd.val, d := d,
                        ticks := if ticks = 0 then none else some ticks, sf := h.sf, mask := x.mask, next := x.next }
    r.2.2 = none →
      (w.done = false → ∃ t, exec (.wait h k all qd d sl timeout) s = .next t ∧ Blocks x t (.wait w)) ∧
      (w.done = true → ((r.1.bindings x.acc).isSome = true ∨ ∀ c ∈ conds, c.syncVa = none) →
        ∃ t, exec (.wait h k all qd d sl timeout) s = .next t ∧ WaitEnds t x.key w true)

/-- R331, R333, R337: the events of a blocked WAIT. A test that satisfies it ends it with true; with no tick left and
nothing satisfied it ends with false and all ones. PAUSE_EXPIRY ends a pause whose remainder the ac consumes. An event
whose condition fails leaves the state as it was (assumption 28). -/
def Obligations.WaitEvents : Prop :=
  ∀ s key cr wg w, s.crew? key = some cr → s.wg? key.core cr.wg = some wg →
    (cr.block = .wait w → cr.park = none → (s.core key.core).stopped key.slot = false →
      let test := fun sel => ({ s with fresh := s.fresh + 1 } : State).waitTest (accOf key.core cr.wg wg) cr w.sf s.fresh sel
        w.conds w.first
      let after := fun sel => { w with first := (test sel).2.1 }
      let event := fun (i : Instr) (sel : WaitCond → Bool) => (test sel).2.2 = none →
        ((after sel).done = true →
          (((test sel).1.bindings (accOf key.core cr.wg wg)).isSome = true ∨ ∀ c ∈ w.conds, c.syncVa = none) →
          ∃ t, exec i s = .next t ∧ WaitEnds t key (after sel) true) ∧
        ((after sel).done = false → ∃ t, exec i s = .next t ∧
          t.crew? key = ((test sel).1.crew? key).map (fun c => { c with block := .wait (after sel) }))
      event (.waitSatisfaction key) (fun c => !c.isMem) ∧ event (.waitMemoryRead key) (·.isMem) ∧
      (w.ticks ≠ some 0 → exec (.waitTimeout key) s = .next s) ∧
      (w.ticks = some 0 → (test (fun _ => true)).2.2 = none → (after (fun _ => true)).done = false →
        ∃ t, exec (.waitTimeout key) s = .next t ∧ WaitEnds t key (after (fun _ => true)) false)) ∧
    exec (.pauseExpiry key) s = .next (if cr.pause ≤ 1 then s.setCrew key { cr with pause := 0 } else s)

/-- R334-R336: PAUSE, DRAIN and GBAR, and the release of a grid barrier. -/
def Obligations.PausesAndGridBarriers : Prop :=
  (∀ h s x s1, Issues h s x s1 →
    (∀ n, x.kernel.s1 n = true → ∃ t cr, exec (.pause h n) s = .next t ∧ OwesNone x t ∧ t.crew? x.key = some cr ∧
      cr.pause = x.rd 0 n) ∧
    (∀ mem eng flg, x.crew.replay = none →
      let holds := (mem = true → (∀ o ∈ x.crew.owed, o.mem = false) ∧
          ∀ f ∈ s1.flight, ¬(f.core = x.key.core ∧ { wg := x.wg.id, cidx := x.crew.cidx } ∈ f.writers)) ∧
        (eng = true → ∀ c ∈ (s1.core x.key.core).cmds, c.slot ≠ x.key.slot) ∧ (flg = true → ∀ k < 12, (x.crew.flag k).cnt = 0)
      (holds → ∃ t cr, exec (.drain h mem eng flg) s = .next t ∧ t.crew? x.key = some cr ∧ cr.block = .none ∧
        cr.pos = x.next ∧ cr.threads = x.crew.threads ∧ cr.s = x.crew.s) ∧
      (¬holds → ∃ t, exec (.drain h mem eng flg) s = .next t ∧ Blocks x t (.drain mem eng flg h.sf x.next))) ∧
    (x.crew.hmode = false →
      (s1.coop x.wg = true → ∃ t cr, exec (.gbar h) s = .next t ∧ Blocks x t (.gbar h.sf x.next) ∧
        NoDirty t x.key.core x.wg.ctx ∧ t.crew? x.key = some cr ∧ cr.gbarArr = x.crew.gbarArr + 1) ∧
      (s1.coop x.wg = false → exec (.gbar h) s = .next (x.raise s1 (x.exc 0x09 0 true))))) ∧
  (∀ s key cr wg sf next, s.crew? key = some cr → s.wg? key.core cr.wg = some wg → cr.block = .gbar sf next →
    let ready := (∀ l, kfind wg.launch s.launches = some l → l.nwg ≤ l.next) ∧
      ∀ c ∈ s.crewsOf wg.launch, c.live ≠ [] → cr.gbarArr.toNat ≤ c.gbarArr.toNat
    (ready → ∃ t cr', exec (.gbarRelease key) s = .next t ∧ t.crew? key = some cr' ∧ cr'.block = .none ∧ cr'.pos = next ∧
      NoLines t key.core wg.ctx) ∧ (¬ready → exec (.gbarRelease key) s = .next s))

/-! ## Group 0xC: the engines -/

/-- R295, R296, R317: a copy queues at the channel of its sequencer; one of no bytes ends at once; one without room does not
start. -/
def Obligations.CopiesQueue : Prop :=
  ∀ h s x s1 o dir dst sv a d bar b, Issues h s x s1 → x.endpoint (CopyDir.srcGlobal dir) sv = some a →
    x.endpoint dir.dstGlobal (.r dst) = some d → x.kernel.s1 bar = true → x.copyBar bar = .ok b → x.key.slot < 64 →
    let inside := fun rb nr sstr dstr => (dir.srcGlobal = false → RowsIn x.kernel.alloc a rb nr sstr) ∧
      (dir.dstGlobal = false → RowsIn x.kernel.alloc d rb nr dstr)
    (∀ len, x.kernel.s1 len = true → let n := (x.rd 0 len).toNat
      (n = 0 → Room x s1 (x.key.slot / 16) 16 →
        exec (.copy h o dir dst sv len bar) s = .next ((retireNone x s1 0).tally x.acc 9)) ∧
      (0 < n → inside n 1 0 0 → Room x s1 (x.key.slot / 16) 16 → ∃ t, exec (.copy h o dir dst sv len bar) s = .next t ∧
        t.mem = s.mem ∧ Queues x s1 t (x.key.slot / 16) o .ready (.copy dir a d n 1 0 0 b 0 0)) ∧
      (0 < n → inside n 1 0 0 → ¬Room x s1 (x.key.slot / 16) 16 →
        exec (.copy h o dir dst sv len bar) s = .next s)) ∧
    (∀ shape, x.kernel.s1 shape = true → let off := (x.rd 0 shape).toNat
      off % 16 = 0 → off + 16 ≤ x.kernel.alloc → s1.scrPoisonAt x.key.core x.crew.wg off 16 = none →
      let v := natOfBytes (s1.scrRead x.key.core x.crew.wg off 16)
      let rb := v % 2 ^ 32; let nr := v / 2 ^ 32 % 2 ^ 32
      let sstr := asInt true 32 (v / 2 ^ 64); let dstr := asInt true 32 (v / 2 ^ 96)
      0 < rb → rb ≤ 2 ^ 24 → 0 < nr → nr ≤ 65536 → inside rb nr sstr dstr → Room x s1 (x.key.slot / 16) 16 →
      ∃ t, exec (.copy2d h o dir dst sv shape bar) s = .next t ∧ t.mem = s.mem ∧
        Queues x s1 t (x.key.slot / 16) o .ready (.copy dir a d rb nr sstr dstr b 0 0))

/-- R303, R306, R310: CLD, MMA and GMV queue at the CIM array and at the Grainer, with their operands as read at issue. That a
workgroup goes on naming its macros by the numbers it was granted is the model's choice (assumption 59). -/
def Obligations.CimAndGrainerQueue : Prop :=
  ∀ h s x s1 o, Issues h s x s1 →
    let at_ := fun n => (s1.core x.key.core).macAt x.crew.wg x.wg n; let macs := fun n => (s1.core x.key.core).mac (at_ n)
    (∀ place sv stride pr mac fb nb s2 ps, pairSrc x.kernel sv = some pr → (x.kernel.r1 place && x.kernel.s1 stride) = true →
      mac < 8 → fb + nb < 8 → (x.rdReg 0 place).toNat = mac + 256 * fb + 2048 * nb → x.holds (macs mac).owner = true →
      Room x s1 4 32 → s1.checkSpan x.acc (x.rdPair pr).toNat 1 false (fun _ => false) = (s2, .ok ps) →
      let f := ((ps.head?.map Part.at_).getD Attr.plain).fmt
      (nb = 7 ∨ (macs mac).fmt = none ∨ (macs mac).fmt = some f) →
      ∃ t, exec (.cld h o place sv stride) s = .next t ∧ Queues x s1 t 4 o .ready
        (.cld mac fb (32 * (nb + 1)) (x.rdPair pr) (x.rd 0 stride).toNat (some f) 0) ∧
        (f ∈ [1, 2, 3, 6] → at_ mac < (s1.core x.key.core).cim.length → ((t.core x.key.core).mac (at_ mac)).fmt = some f)) ∧
    (∀ s4 acc sum out act ctl fmts, (x.kernel.r1 out && x.kernel.s1 act && x.kernel.s1 ctl) = true →
      let w := (x.rd 0 ctl).toNat; let mask := BitVec.ofNat 8 w; let nv := w / 256
      let so := (x.rdReg 0 out).toNat; let si := (x.rd 0 act).toNat
      w < 2 ^ 16 → mask ≠ 0 → so % 4 = 0 → si % 4 = 0 → (∀ i ∈ bitsOf mask, x.holds (macs i).owner = true) →
      (bitsOf mask).map (fun i => (macs i).fmt) = fmts.map some → (sum = true → ∀ f ∈ fmts, ∀ g ∈ fmts, f = g) →
      RowsIn x.kernel.alloc si (mmaVec s4 sum fmts * (nv + 1)) 1 0 →
      RowsIn x.kernel.alloc so (4 * mmaOuts sum fmts * (nv + 1)) 1 0 → Room x s1 4 32 →
      ∃ t, exec (.mma h o s4 acc sum out act ctl) s = .next t ∧ t.mem = s.mem ∧
        Queues x s1 t 4 o .ready (.mma s4 acc sum so si nv mask fmts 0 false)) ∧
    (∀ desc, x.kernel.s1 desc = true → let off := (x.rd 0 desc).toNat
      off % 32 = 0 → off + 32 ≤ x.kernel.alloc → x.holds (s1.core x.key.core).grainer = true →
      s1.scrPoisonAt x.key.core x.crew.wg off 32 = none →
      let v := natOfBytes (s1.scrRead x.key.core x.crew.wg off 32)
      let f := fun at_ n => v / 2 ^ (8 * at_) % 2 ^ (8 * n)
      ∀ seg inp out stat ncol b fl maxrow, f 0 8 = seg → f 8 4 = inp → f 12 4 = out → f 16 4 = stat → f 20 4 = ncol →
        f 24 1 = b → f 25 1 = fl → f 26 2 = maxrow → f 28 4 = 0 →
        seg % 32 = 0 → inp % 4 = 0 → out % 4 = 0 → stat % 8 = 0 → 0 < ncol → ncol ≤ 65536 → 0 < b → b ≤ 8 → fl < 4 →
        0 < maxrow → inp + ncol * b * (1 + fl % 2) ≤ x.kernel.alloc → out + maxrow * b * 4 ≤ x.kernel.alloc →
        stat + 8 ≤ x.kernel.alloc → Room x s1 5 8 →
        ∃ t, exec (.gmv h o desc) s = .next t ∧ t.mem = s.mem ∧ Queues x s1 t 5 o .ready
          (.gmv (BitVec.ofNat 64 seg) inp out stat ncol b (fl % 2 == 1) (fl / 2 == 1) maxrow 0 0))

/-- R301, R302, R318: RSV takes the lowest free macros, or the Grainer, for the owner named, and answers 0 where too few are
free; RLS clears and frees what the owner holds, and waits while a command names it; MFENCE closes the open set into a
batch, and waits while the entry it would fill is outstanding. The names of a restored workgroup's macros are the model's choice
(assumption 59). -/
def Obligations.ReservationsAndBatches : Prop :=
  ∀ h s x s1, Issues h s x s1 →
    let co := s1.core x.key.core
    (∀ qd grp d count ow, (x.kernel.r1 d && x.kernel.s1 count) = true → x.ownerFor grp true = some ow →
      let free := co.freeMacs
      let n := (x.rd 0 count).toNat
      let gives (i : Instr) (v : Nat) (ok : Bool) (p : Core → Prop) : Prop := ∃ t, exec i s = .next t ∧ t.mem = s.mem ∧
        OwesOnly x t (wrReg 0 d (BitVec.ofNat 32 v) ++ [RegWrite.q (Fin.val (qd : Fin 3)) ok]) ∧ p (t.core x.key.core)
      (0 < n → n ≤ free.length → co.cim.length = 8 → ∃ name : Nat → Nat,
        ((∀ i < 8, x.wg.owns x.crew.wg (co.mac i).owner = true → (co.mac i).name = i) → ∀ i ∈ free.take n, name i = i) ∧
        gives (.rsv h false qd grp d count) (maskOf 8 ((free.take n).map name)).toNat true
          (fun c => ∀ i < 8, c.mac i = if i ∈ free.take n
            then { CimMac.zero with owner := some ow, name := name i, stamp := s1.fresh } else co.mac i)) ∧
      (n ≤ 8 → free.length < n → gives (.rsv h false qd grp d count) 0 false (fun c => c.cim = co.cim)) ∧
      (co.grainer = none → gives (.rsv h true qd grp d count) 256 true (fun c => c.grainer = some ow)) ∧
      (co.grainer ≠ none → gives (.rsv h true qd grp d count) 0 false (fun c => c.grainer = co.grainer))) ∧
    (∀ grp mask ow, x.kernel.s1 mask = true → x.ownerFor grp false = some ow → let m := (x.rd 0 mask).toNat
      let at_ := co.macAt x.crew.wg x.wg
      m < 2 ^ 9 → (∀ i < 8, m.testBit i = true → (co.mac (at_ i)).owner = some ow) → (m.testBit 8 = true → co.grainer = some ow) →
      (co.maskBusy x.crew.wg m = false → ∃ t, exec (.rls h grp mask) s = .next t ∧ t.mem = s.mem ∧ OwesNone x t ∧
        (∀ i < 8, (t.core x.key.core).mac i =
          if (List.range 8).any (fun n => m.testBit n && at_ n == i) then CimMac.zero else co.mac i) ∧
        (t.core x.key.core).grainer = if m.testBit 8 then none else co.grainer) ∧
      (co.maskBusy x.crew.wg m = true → exec (.rls h grp mask) s = .next s)) ∧
    (∀ d, x.kernel.r1 d = true → let k := x.crew.batchCnt.toNat % 16
      (x.crew.batches.getD k [] = [] → ∃ t cr, exec (.mfence h d) s = .next t ∧ t.mem = s.mem ∧
        OwesOnly x t (wrReg 0 d (BitVec.ofNat 32 k)) ∧ t.crew? x.key = some cr ∧ cr.openSet = [] ∧
        cr.batches = x.crew.batches.set k x.crew.openSet ∧ cr.batchCnt = x.crew.batchCnt + 1) ∧
      (x.crew.batches.getD k [] ≠ [] → exec (.mfence h d) s = .next s))

/-- R109, R110: the expansion of an integer in `k` trits has k digits of -1, 0 and +1, and the integer is their sum with
weights 3^i wherever it lies in range; an output of a macro is the exact sum, over its 256 rows, of the activation times the
weight that the row's cells hold. -/
def Obligations.TernaryArithmetic : Prop :=
  (∀ k (v : Int), (trits k v).length = k ∧ (∀ d ∈ trits k v, d = -1 ∨ d = 0 ∨ d = 1) ∧
    (-(3 ^ k - 1) ≤ 2 * v → 2 * v ≤ 3 ^ k - 1 → ((trits k v).mapIdx (fun i d => d * 3 ^ i)).sum = v) ∧
    (∀ l : List Int, l.length = k → (∀ d ∈ l, d = -1 ∨ d = 0 ∨ d = 1) → (l.mapIdx (fun i d => d * 3 ^ i)).sum = v → l = trits k v)) ∧
  (∀ (m : CimMac) f w o k (acts : List Int), cimShape f = some (w, o, k) → ksorted m.cells = true →
    (∀ e ∈ m.cells, e.1 < 65536) → acts.length = 256 →
    (m.dots (w, o, k) acts).length = o ∧ ∀ j < o, (m.dots (w, o, k) acts).getD j 0 =
      ((List.range 256).map (fun r => acts.getD r 0 *
        ((List.range k).map (fun i => kget 0 (256 * r + (k * j + i)) m.cells * 3 ^ i)).sum)).sum)

/-- R296, R299, R303, R307, R308, R317: the units of commands that have begun. A beat of a scratchpad copy moves up to
32 bytes, not across a 32-byte border of its destination; a row of CLD fills a row of cells; a vector of MMA writes
its clamped sums; a segment that runs through keeps the Grainer as long as its symbols take, and then ends its command with
status 0. Of its scratchpad bytes a unit may have read some ahead of the others (`early`, R297), as they were then. The order of
units and what becomes of failed commands are the model's readings (assumption 35). -/
def Obligations.EngineUnits : Prop :=
  ∀ s core id c g, Runs s core id c g →
    let a := accOf core c.wg g
    (∀ src dst rb nr sstr dstr row off sv d, c.op = .copy .ss src dst rb nr sstr dstr none row off → off < rb → row < nr →
      (src : Int) + sstr * row + off = ((sv : Nat) : Int) → (dst : Int) + dstr * row + off = ((d : Nat) : Int) →
      sv < 2 ^ 32 → d < 2 ^ 32 → let n := min (32 - d % 32) (rb - off)
      s.scrPoisonAt core c.wg sv n = none →
      ∃ t, exec (.copyBeat core id) s = .next t ∧ ((s.core core).windowAt c.wg d = none → t.mem = s.mem) ∧
        Scratch t core c.wg (fun o => if d ≤ o ∧ o < d + n then (kfind (sv + (o - d)) c.early).getD (kget 0 (sv + (o - d)) g.scr)
          else kget 0 o g.scr) ∧
        GoesOn t core id c (if off + n < rb then some (.copy .ss src dst rb nr sstr dstr none row (off + n))
          else if row + 1 < nr then some (.copy .ss src dst rb nr sstr dstr none (row + 1) 0) else none)) ∧
    (∀ name mac fblk nr src stride f row s2 rd ts, c.op = .cld name fblk nr src stride (some f) row →
      s.macOf core c.wg name = mac → mac < (s.core core).cim.length → 32 * fblk + row < 256 →
      ((s.modCore core (·.cmdMod id (fun c => { c with begun := true }))).setOp core id c.op).cldRead a c.rd src stride f row =
        (s2, rd, .ok (some (ts, false))) →
      ∃ t, exec (.cldRow core id) s = .next t ∧ (∀ i, kget 0 i ((t.core core).mac mac).cells =
          if i / 256 = 32 * fblk + row then ts.getD (i % 256) 0 else kget 0 i ((s2.core core).mac mac).cells) ∧
        GoesOn t core id { c with rd := rd, wr := none }
          (if row + 1 < nr then some (.cld name fblk nr src stride (some f) (row + 1)) else none)) ∧
    (∀ s4 acc sum out act nv mask fmts vec cl, c.op = .mma s4 acc sum out act nv mask fmts vec cl →
      let ms := (bitsOf mask).map (fun n => (s.core core).mac (s.macOf core c.wg n)); let m := mmaOuts sum fmts; let vb := mmaVec s4 sum fmts
      let ai := act + vec * vb; let oo := out + 4 * (vec * m)
      let acts := (List.range (mmaActs sum fmts)).map (fun i =>
        asInt true (mmaBits s4) (natOfBytes (c.seen ai (g.scrRead ai vb)) / 2 ^ (mmaBits s4 * i)))
      let x := fun j => (mmaSums sum ms fmts acts).getD j 0 +
        (if acc then asInt true 32 (natOfBytes (c.seen (oo + 4 * j) (g.scrRead (oo + 4 * j) 4))) else 0)
      s.scrPoisonAt core c.wg ai vb = none → (acc = true → s.scrPoisonAt core c.wg oo (4 * m) = none) → (∀ y ∈ ms, y.poison = []) →
      (mmaSums sum ms fmts acts).length = m →
      ∃ t g', exec (.mmaVector core id) s = .next t ∧
        ((∀ o, (s.core core).windowAt c.wg o = none) → t.mem = s.mem) ∧ t.wg? core c.wg = some g' ∧
        (∀ j < m, asInt true 32 (natOfBytes (g'.scrRead (oo + 4 * j) 4)) = max (-2 ^ 31) (min (2 ^ 31 - 1) (x j))) ∧
        (∀ o, o < oo ∨ oo + 4 * m ≤ o → kget 0 o g'.scr = kget 0 o g.scr) ∧
        GoesOn t core id c (if vec < nv then some (.mma s4 acc sum out act nv mask fmts (vec + 1)
          (cl || (List.range m).any (fun j => decide (x j < -2 ^ 31) || decide (2 ^ 31 ≤ x j)))) else none)) ∧
    (∀ seg inp out stat ncol b s16 acc maxrow rows sat g2, c.op = .gmv seg inp out stat ncol b s16 acc maxrow rows sat →
      c.st = .ready →
      gSegment { core := core, wg := c.wg, acc := a, seg := seg.toNat, inp := inp, out := out, ncol := ncol, b := b,
                 esz := if s16 then 2 else 1, add := acc, early := c.early } maxrow rows
        { st := s.modCore core (·.cmdMod id (fun c => { c with begun := true })), pieces := [], ins := [], depth := [],
          rule := 0x1FFF, rows := rows, satcol := sat, sums := [], d := 0, syms := 0 } = (.ok (), g2) →
      exec (.gmvSegmentStart core id) s = .next (((g2.st.setOp core id
        (.gmv seg inp out stat ncol b s16 acc maxrow g2.rows g2.satcol)).modCore core (fun co =>
          { co with grainBusy := co.grainBusy + (g2.syms + 31) / 32 })).modCore core (·.cmdMod id (fun c =>
            { c with st := .ending (gStatus g2.satcol 0 g2.rule g2.rows) none (g2.satcol != 0) })))) ∧
    (∀ seg inp out stat ncol b s16 acc maxrow rows sat status clamp,
      c.op = .gmv seg inp out stat ncol b s16 acc maxrow rows sat → c.st = .ending status none clamp →
      ∃ t g', exec (.gmvSegmentStart core id) s = .next t ∧ GoesOn t core id c none ∧ t.wg? core c.wg = some g' ∧
        g'.scrRead stat 8 = bytesOfNat 8 status ∧ ∀ cr, t.crew? (c.key core) = some cr → clamp = true → cr.cst.getLsbD 0 = true)

/-! ## Group 0xD: queues -/

/-- R389, R393-R396: ENQ of a register record for each thread, and ENQR of records in scratchpad, put m records into an output's
ring from ALLOC up and count ALLOC up, RSV down and, where nothing before is unwritten, WR up; the crew's reservation falls by
m. ENQR of no record only retires. DEQ takes what is ready, at most one record for each thread, and counts RD up. LAUNCH
appends the record to a launch queue of its own context and answers its index, or -1 where the queue is not enabled, in error
or full. -/
def Obligations.NodeQueues : Prop :=
  (∀ h s x s1 n va, Issues h s x s1 → x.wg.node = some va →
      let w := BitVec.toNat (n : BitVec 4) + 1; let a := x.acc
      let head := fun (p : Part) => { p with va := p.va + 8, key := p.key + 8, n := 32 }
      (∀ (k : BitVec 2) r ss cnt m s2 own tva s3 p tps s4 d s5 slots, s1.nodeRead a va.toNat = (s2, .ok own) →
        own.out va.toNat k.toNat = some tva → s2.checkSpan a tva 64 true (fun _ => false) = (s3, .ok (p :: tps)) →
        s3.nodeRead a tva = (s4, .ok d) → w ≤ d.recw → m ≤ x.crew.outRes.getD k.toNat 0 →
        s4.checkSlots a d (4 * d.recw) true m d.alloc = (s5, .ok slots) →
        let top := (d.alloc + m) % 2 ^ 64
        let d' := { d with alloc := top, rsv := (d.rsv + 2 ^ 64 - m) % 2 ^ 64, wr := if d.wr = d.alloc then top else d.wr }
        let pad := fun (bs : List Byte) => bs ++ List.replicate (4 * d.recw - bs.length) (0 : Byte)
        let after := fun (u : State) recs => (retireNone x (((u.fenceRel a .dev).putRecords a slots recs).engWrite a false [head p]
          d'.counters) 0).modCrew x.key (fun cr => { cr with outRes := lmod cr.outRes k.toNat (· - m) })
        (m = x.lanes.length → x.kernel.regOk w 1 (.v r) = true →
          exec (.enq h n k r) s = .next (after s5 (x.lanes.map (fun t => (pad (x.rdGroup t (.v r) (4 * w)), false))))) ∧
        (let off := (x.rd 0 ss).toNat;
          (x.kernel.s1 ss && x.kernel.s1 cnt) = true → m = (x.rd 0 cnt).toNat → 0 < m → off % 4 = 0 →
          off + 4 * w * m ≤ x.kernel.alloc →
          exec (.enqr h n k ss cnt) s = .next (after (s5.bill a.payer (.core x.key.core) 6 (spanSectors off (4 * w * m)).length)
            ((List.range m).map (fun i =>
            (pad (s5.scrRead x.key.core x.crew.wg (off + 4 * w * i) (4 * w)),
             (s5.scrPoisonAt x.key.core x.crew.wg (off + 4 * w * i) (4 * w)).isSome)))))) ∧
      (∀ k ss cnt, (x.kernel.s1 ss && x.kernel.s1 cnt) = true → x.rd 0 cnt = 0 →
        exec (.enqr h n k ss cnt) s = .next (retireNone x s1 0)) ∧
      (∀ pd vd s2 p ps s3 d s4 slots s5 recs, x.kernel.regOk w 1 (.v vd) = true →
        s1.checkSpan a va.toNat 64 true (fun _ => false) = (s2, .ok (p :: ps)) → s2.nodeRead a va.toNat = (s3, .ok d) →
        w ≤ d.recw → let c := min x.lanes.length ((d.wr + 2 ^ 64 - d.rd) % 2 ^ 64)
        s3.checkSlots a d (4 * w) false c d.rd = (s4, .ok slots) →
        State.readRecords (if c = 0 then s4 else s4.engWrite a false [head p] { d with rd := (d.rd + c) % 2 ^ 64 }.counters) a
          slots = (s5, .ok recs) →
        exec (.deq h n pd vd) s = .next (retireMem x (if c = 0 then s5 else s5.fenceAcq a .dev)
          ((Dest.reg (.v vd) w).withPred (.p pd)) ((x.lanes.zipIdx).flatMap (fun e => match recs[e.2]? with
            | some bs => wrWords e.1 (.v vd) 0 (wordsOf (4 * w) (natOfBytes bs)) ++ wrPred e.1 (.p pd) true
            | none => wrPred e.1 (.p pd) false))))) ∧
  (∀ h s x s1 d q (rc : Fin 31) hpa hk s2 v s3 ps s4 bs, Issues h s x s1 →
      (x.kernel.regOk 2 2 d && x.kernel.s1 q && x.kernel.spairOk (.pr rc)) = true →
      s1.lqHeader x.wg.func (x.rd 0 q).toNat = some hpa → s1.key hpa = some hk → s1.getKey x.acc hk 64 = (s2, v) →
      let hd := QHead.ofNat v; let sr := (x.rdPair (.pr rc)).toNat
      hd.ctx = x.wg.ctx → sr % 64 = 0 → (s2.fenceRel x.acc .dev).checkSpan x.acc sr 64 false (fun _ => false) = (s3, .ok ps) →
      readParts (fun s p => s.readHome x.acc p) ps s3 = (s4, .ok bs) →
      let answers := fun (st : State) n => exec (.launch h d q rc) s =
        .next (retireMem x st (Dest.reg d 2) (wrReg64 0 d (BitVec.ofNat 64 n)))
      ((hd.en = false ∨ hd.state = 3 ∨ 2 ^ hd.log2n ≤ (hd.wr + 2 ^ 64 - hd.rd) % 2 ^ 64) → answers s4 (2 ^ 64 - 1)) ∧
      (hd.en = true → hd.state ≠ 3 → (hd.wr + 2 ^ 64 - hd.rd) % 2 ^ 64 < 2 ^ hd.log2n →
        ∀ ks, s4.key (hpa + 64 + 64 * (hd.wr % 2 ^ hd.log2n)) = some ks →
        answers ((s4.putKey x.acc ks bs).putKey x.acc hk (bytesOfNat 8 ((hd.wr + 1) % 2 ^ 64))) hd.wr))

/-! ## Group 0xE, and exceptions -/

/-- R410, R412, R414: a fault or trap of a crew enters the handler where the cause goes there and the kernel has one; in handler
mode it is a double fault; otherwise the workgroup is to be aborted, for its first cause. Storage, the other crews and the
other workgroups are as they were. -/
def Obligations.ExceptionsTaken : Prop :=
  ∀ s key cr wg e, s.crew? key = some cr → s.wg? key.core cr.wg = some wg → e.cause < 0x10000 →
    let t := raiseAt s key e
    let info : AbortInfo := { cause := e.cause, orig := 0, epc := e.epc, earg := e.earg, ethr := e.ethr, slot := key.slot,
                              eng := e.eng, at_ := s.refclk }
    t.mem = s.mem ∧ (∀ k, k ≠ key → t.crew? k = s.crew? k) ∧
    (∀ c w, (c, w) ≠ (key.core, cr.wg) → t.wg? c w = s.wg? c w) ∧
    (cr.hmode = false → e.toH = true → wg.kernel.handler ≠ 0 →
      Entered t key cr wg.kernel e ∧ t.wg? key.core cr.wg = some wg) ∧
    (wg.abort = none → cr.hmode = false → (e.toH = false ∨ wg.kernel.handler = 0) →
      Aborts t key.core cr.wg wg info ∧ t.crew? key = some cr) ∧
    (wg.abort = none → cr.hmode = true →
      Aborts t key.core cr.wg wg { info with cause := 0x23, orig := e.cause } ∧ t.crew? key = some cr) ∧
    (∀ i, wg.abort = some i → (cr.hmode = true ∨ e.toH = false ∨ wg.kernel.handler = 0) →
      t.wg? key.core cr.wg = some wg ∧ t.crew? key = some cr)

/-- R89, R299, R408, R409, R413, R416: UDF, a control instruction in handler mode and RTE outside it raise the
illegal-instruction fault; TRAP raises its cause with its value; an engine failure is delivered at its crew's boundary, where the
word has no fault of its own, and the command's entry is freed. That it is freed also where the failure aborts the workgroup is the
model's choice (assumption 35). -/
def Obligations.ExceptionsRaised : Prop :=
  (∀ h s x s1 tgt once tt tf pc a k link sa save rb rp n, s.begin h = some (x, s1) → x.crew.replay = none →
    let e : Exc := { cause := 0x01, eng := false, epc := x.pc, earg := x.pc, ethr := x.crew.liveMask, toH := true }
    (h = { form := .w64, bt := 31, sd := 0, uni := false, wait := 0, sf := none, pg := 7, pn := false } →
      exec .udf s = .next (raiseAt s1 x.key e)) ∧
    (x.crew.hmode = true → ∀ i ∈ [Instr.bx h tgt, .bxc h once tt tf pc, .bxi h a, .exit h, .exitn h k a, .yield h tgt, .next h,
      .call h link a rb, .calli h link sa save rb, .ret h a rp, .regroup h a n, .gbar h, .trap h a],
      exec i s = .next (raiseAt s1 x.key e)) ∧
    (x.crew.hmode = false → exec (.rte h) s = .next (raiseAt s1 x.key e)) ∧
    (x.crew.hmode = false → x.idle = false → x.kernel.s1 a = true → x.kernel.handler ≠ 0 → x.wg.abort = none →
      ∃ t cr, exec (.trap h a) s = .next t ∧ t.mem = s.mem ∧ Entered t x.key cr x.kernel
        { cause := 0x0B, eng := false, epc := x.next, earg := (x.rd 0 a).zeroExtend 64, ethr := x.crew.liveMask, toH := true } ∧
        cr.threads = x.crew.threads ∧ cr.hb = x.crew.hb ∧ cr.pos = x.next ∧ cr.cr = x.crew.cr ∧ cr.ss = x.crew.ss) ∧
    (x.crew.hmode = false → x.idle = false → x.kernel.s1 a = true → x.kernel.handler = 0 → x.wg.abort = none →
      ∃ t g i, exec (.trap h a) s = .next t ∧ t.mem = s.mem ∧ Aborts t x.key.core x.crew.wg g i ∧ i.cause = 0x0B ∧
        i.epc = x.next ∧ i.earg = (x.rd 0 a).zeroExtend 64) ∧
    (x.crew.hmode = true → x.wg.abort = none →
      ∃ t i, exec (.trap h a) s = .next t ∧ Aborts t x.key.core x.crew.wg x.wg i ∧ i.cause = 0x23) ∧
    (x.crew.hmode = false → x.idle = true → x.kernel.s1 a = true → exec (.trap h a) s = .next (retireIdle x s1))) ∧
  (∀ s key cr wg f rest, s.crew? key = some cr → s.wg? key.core cr.wg = some wg → cr.failures = f :: rest →
    (s.core key.core).atBoundary key.slot cr = true → wg.abort = none → wg.save = none →
    (cr.block ≠ .none ∨ (cr.word ≠ .absent ∧ cr.wordBad wg.kernel = false)) → f.cause < 0x10000 →
    let e : Exc := { cause := f.cause, eng := true, epc := cr.pos, earg := f.pc, ethr := cr.liveMask,
                     toH := wg.kernel.failToH f.cause }
    (∃ t, exec (.engineFailureDelivery key) s = .next t ∧ t.mem = s.mem ∧
      (∀ id, f.cmd = some id → (t.core key.core).cmd? id = none) ∧ (∃ cr', t.crew? key = some cr' ∧ cr'.failures = rest) ∧
      (wg.kernel.handler ≠ 0 → e.toH = true → Entered t key cr wg.kernel e) ∧
      ((wg.kernel.handler = 0 ∨ e.toH = false) → ∃ i, Aborts t key.core cr.wg wg i ∧ i.cause = f.cause ∧ i.earg = f.pc ∧
        i.eng = true)))

/-- R406, R407, R417, R418: in handler mode MOVSR reads the eight system registers, SETSR writes EPC and ESAVE0-3 and ignores
a write to the others, and RTE puts back the walk frame and goes on at EPC; outside it MOVSR and SETSR are illegal operands. -/
def Obligations.HandlerInstructions : Prop :=
  ∀ h s x s1 d a num, Issues h s x s1 →
    let sys := fun (cr : Crew) (n : Nat) => ([cr.epc, cr.ecause, cr.earg, cr.ethr] ++ cr.esave).getD n 0
    (x.kernel.regOk 2 2 d = true →
      (x.crew.hmode = true → num.toNat < 8 → exec (.movsr h num d) s =
        .next (retireFixed x s1 0 2 (Dest.reg d 2) (wrReg64 0 d (sys x.crew num.toNat)) 0 false)) ∧
      (x.crew.hmode = false → num.toNat < 8 → exec (.movsr h num d) s = .next (x.badValue s1)) ∧
      (8 ≤ num.toNat → exec (.movsr h num d) s = .next (x.badOperand s1))) ∧
    (∀ v, exec (.setsr h num (.imm v)) s = .next (x.badOperand s1)) ∧
    (x.kernel.srcOk 2 (.r a) = true →
      (x.crew.hmode = true → num.toNat < 8 → x.crew.esave.length = 4 →
        ∃ t cr, exec (.setsr h num (.r a)) s = .next t ∧ t.mem = s.mem ∧ OwesNone x t ∧ t.crew? x.key = some cr ∧ ∀ n < 8,
          sys cr n = if n = num.toNat ∧ ¬(1 ≤ n ∧ n ≤ 3) then x.rd64 0 false (.r a) else sys x.crew n) ∧
      (x.crew.hmode = false → num.toNat < 8 → exec (.setsr h num (.r a)) s = .next (x.badValue s1)) ∧
      (8 ≤ num.toNat → exec (.setsr h num (.r a)) s = .next (x.badOperand s1))) ∧
    (x.crew.hmode = true → x.crew.votePending = false → x.crew.threads.length = 64 → ∃ t cr, exec (.rte h) s = .next t ∧
      t.mem = s.mem ∧ t.crew? x.key = some cr ∧ cr.hmode = false ∧ cr.pos = x.crew.epc ∧ cr.hb = x.crew.frame.hb ∧
      cr.cr = x.crew.frame.cr ∧ cr.ss = x.crew.frame.ss ∧ cr.sid = x.crew.frame.sid ∧ ∀ j < 64,
        (cr.thr j).held = x.crew.frame.held.getLsbD j ∧ (cr.thr j).exited = (x.crew.thr j).exited ∧
        (cr.thr j).region = (x.crew.thr j).region ∧ (cr.thr j).block = (x.crew.thr j).block)

/-- R363, R419, R420: MREAD reads a meter, BKPT and HALT stop sequencers for an attached debugger, BKPT else traps where the
kernel has a handler, and TMARK writes its record where the trace is on. -/
def Obligations.MetersAndDebugInstructions : Prop :=
  ∀ h s x s1 d a tag, Issues h s x s1 →
    let paid := s1.issueCost x 0
    (x.kernel.regOk 2 2 d = true →
      (∃ t, exec (.mread h .tot d) s = .next t ∧ t.mem = s.mem ∧ OwesOnly x t (wrReg64 0 d (BitVec.ofNat 64
        (kget 0 x.wg.ctx s.accounts + ((kvals (paid.core x.key.core).wgs).map (fun w =>
          if w.ctx = x.wg.ctx then w.cum - w.flushed else 0)).sum)))) ∧
      (∀ g, paid.wg? x.key.core x.crew.wg = some g → ∃ t, exec (.mread h .wg d) s = .next t ∧ t.mem = s.mem ∧
        OwesOnly x t (wrReg64 0 d (BitVec.ofNat 64 g.cum)))) ∧
    ((x.kernel.r1 d && x.kernel.s1 a) = true → (x.rd 0 a).toNat ≤ 31 → ∃ t, exec (.mread h (.ev a) d) s = .next t ∧
      t.mem = s.mem ∧ OwesOnly x t (wrReg 0 d (BitVec.ofNat 32
        (calibrated (x.rd 0 a).toNat (paid.core x.key.core).temp)))) ∧
    ((x.kernel.r1 d && x.kernel.s1 a) = true → 31 < (x.rd 0 a).toNat → exec (.mread h (.ev a) d) s = .next (x.badValue s1)) ∧
    (x.crew.replay = none →
      (s1.attach x.wg.ctx = false → exec (.halt h) s = .next (retireNone x s1 0)) ∧
      (s1.attach x.wg.ctx = false → (x.kernel.handler = 0 ∨ x.crew.hmode = true) →
        exec (.bkpt h tag) s = .next (retireNone x s1 0)) ∧
      (s1.attach x.wg.ctx = false → x.kernel.handler ≠ 0 → x.crew.hmode = false → ∃ t cr, exec (.bkpt h tag) s = .next t ∧
        Entered t x.key cr x.kernel { cause := 0x0C, eng := false, epc := x.next, earg := tag.zeroExtend 64, ethr := x.mask,
                                      toH := true }) ∧
      (s1.attach x.wg.ctx = true → (s1.core x.key.core).seqs.length = 4 → x.key.slot < 64 →
        (∀ q < 4, s1.stopHeld x.key.core q = false) →
        let stops := fun (t : State) q => (((t.core x.key.core).seqs.getD q Seq.zero).dseq.getLsbD 16) = true
        (∃ t, exec (.bkpt h tag) s = .next t ∧ stops t (x.key.slot / 16)) ∧
        (∃ t, exec (.halt h) s = .next t ∧ ∀ sl ∈ x.wg.crews, sl < 64 → stops t (sl / 16)))) ∧
    (Kernel.steppingOk x.kernel = true → x.kernel.s1 a = true → exec (.tmark h a) s = .next (
      let t := retireNone x s1 0
      if observes (s.sysreg 0x27 x.wg.func) x.wg.func x.wg.func x.wg.ctx x.wg.conf then
        t.profile x.wg.func 0x26 [bytesOfNat 8 x.pc.toNat ++ bytesOfNat 8 0 ++ bytesOfNat 8 s.refclk ++
          bytesOfNat 4 (x.rd 0 a).toNat ++ bytesOfNat 2 0x1C7 ++ bytesOfNat 2 0]
      else t))

/-! ## Events of the cores and the Bench -/

/-- R71, R75, R77, R227, R228, R437: the writes of a variable-latency instruction land at its completion and its flag
counts down, and an earlier fixed-latency write of a register that it wrote is lost; a fixed-latency write lands with every
earlier one; a demand fetch brings the block of the position or parks the crew; the record of a park gives it a handle; a
replay of the handle, or of all ones, lets the parked crew go on with the threads that had failed. That the writes land at the
event, whenever it comes, is the model's choice (assumption 4). -/
def Obligations.LandingsAndReplays : Prop :=
  (∀ s key cr wg, s.crew? key = some cr → s.wg? key.core cr.wg = some wg →
    let a := accOf key.core cr.wg wg
    (∀ o, cr.owed.filter (fun p => p.id == o.id) = [o] → o.due = none → cr.block = .none →
      ∃ t cr', exec (.instructionCompletion key o.id) s = .next t ∧ t.mem = s.mem ∧ t.crew? key = some cr' ∧
        cr'.owed.map Owed.id = (cr.owed.filter (fun p => p.id != o.id)).map Owed.id ∧
        cr'.owed.map Owed.due = (cr.owed.filter (fun p => p.id != o.id)).map Owed.due ∧
        cr'.owed.map Owed.writes = (cr.owed.filter (fun p => p.id != o.id)).map (fun p =>
          if p.due.isSome ∧ p.id < o.id then p.writes.filter (fun w => !o.writes.any w.same) else p.writes) ∧
        cr'.threads = (cr.landAll o.writes).threads ∧
        cr'.s = (cr.landAll o.writes).s ∧ cr'.q = (cr.landAll o.writes).q ∧ cr'.fps = cr.fps ||| o.fps.zeroExtend 32 ∧
        ∀ k < 12, (cr'.flag k).cnt = if o.flag.map Fin.val = some k then (cr.flag k).cnt - 1 else (cr.flag k).cnt) ∧
    (∀ o, cr.owed.filter (fun p => p.id == o.id) = [o] → o.due ≠ none → cr.block = .none →
      ∃ t cr', exec (.instructionCompletion key o.id) s = .next t ∧ t.crew? key = some cr' ∧
        cr'.owed = cr.owed.filter (fun p => !(p.due.isSome && decide (p.id ≤ o.id)))) ∧
    (∀ bs, cr.fetchAt = .word bs → exec (.demandFetch key) s = .next s) ∧
    (∀ p, cr.park = none → cr.finished = false → cr.fetchAt = .need p →
      (∀ s2 bs, s.fetchLine a (p / 32 * 32) 32 = (s2, .ok bs) → ∃ t, exec (.demandFetch key) s = .next t ∧
        t.crew? key = some { cr with pos := BitVec.ofNat 64 p, fbuf := [(p / 32 * 32, bs)] }) ∧
      (∀ s2 c v lv, s.fetchLine a (p / 32 * 32) 32 = (s2, .error (.park c v lv)) → ∃ t cr' k,
        exec (.demandFetch key) s = .next t ∧ t.crew? key = some cr' ∧ cr'.park = some k ∧ k.fetch = true ∧ k.cause = c ∧
        k.va = BitVec.ofNat 64 p ∧ k.mask = cr.present ∧ k.handle = none)) ∧
    (∀ p s2, cr.park = some p → p.handle = none →
      let r := parkRecord key wg p cr.pos (!p.reload.isEmpty) s.nextHandle
      s.fqWrite wg.ctx (if wg.conf then r.redact true else r).bytes p.logged = (s2, .written) →
      ∃ t, exec (.faultRecordWrite key) s = .next t ∧ t.nextHandle = s.nextHandle + 1 ∧
        t.crew? key = some { cr with park := some { p with handle := some s.nextHandle } })) ∧
  (∀ s ctx, ((∀ e ∈ s.allCrews, e.2.2.ctx ≠ ctx) → (∀ r ∈ s.fqPend, r.ctx ≠ ctx) →
      exec (.faultRecordRetry ctx) s = .next s) ∧
    (∀ r s2, (∀ e ∈ s.allCrews, e.2.2.ctx ≠ ctx) → s.fqPend = [r] → r.ctx = ctx →
      ({ s with fqPend := [] } : State).fqWrite ctx r.bytes r.counted = (s2, .written) →
      exec (.faultRecordRetry ctx) s = .next s2)) ∧
  (∀ s ctx fq s1, s.replayRead ctx = (s1, some (fq, 0)) → exec (.replay ctx) s = .next s1) ∧
  (∀ s ctx fq h s1 s2 key cr wg p, s.replayRead ctx = (s1, some (fq, h)) → h ≠ 0 →
    s1.benchWrite ctx (fq + 0x18) (bytesOfNat 8 0) = (s2, true) →
    s2.allCrews.filter (fun e => e.2.2.ctx == ctx && e.2.2.abort.isNone) = [(key, cr, wg)] → cr.park = some p →
    (h = 2 ^ 64 - 1 ∨ p.handle = some h) → p.fetch = false → p.reload = [] → cr.block = .none →
    ∃ t, exec (.replay ctx) s = .next t ∧ t.crew? key = some { cr with park := none, replay := some p.mask })

/-- R376, R380-R382, R387, R202, R204: the watch first brings the queue's own state up to date with EN and HOLD. It takes no record
of a queue that is disabled, in overrun or empty; one with more records than slots goes to overrun; HOLD stops the taking. Records are
taken one by one while an entry is free and no load record waits: a taken load record waits for the earlier launches, and a
launch that passes its checks is admitted under the next number that no launch holds. R117 says only that a LAUNCHID is unique: that
the numbers are counted up, past those in use, is the model's choice (assumption 10). The order of the checks, and that contexts
are looked at with each watch, are the model's choices (assumptions 23, 43). -/
def Obligations.LaunchQueueWatched : Prop :=
  (∀ s func q, s.lqHeader func q = none → exec (.launchQueueWatch func q) s = .next s) ∧
  (∀ s func q pa s1 b, s.lqHeader func q = some pa → s.watchContexts.physRead pa 64 = (s1, some b) →
    let h := QHead.ofNat (natOfBytes b.1)
    let s2 := (s1.modQ func q (fun x => x.seen h)).holdCheck func q
    ((h.en = false ∨ (s2.qstate func q).overrun = true ∨ h.waiting = 0) →
      exec (.launchQueueWatch func q) s = .next (s2.putQueueState func q)) ∧
    (h.en = true → (s2.qstate func q).overrun = false → 2 ^ h.log2n < h.waiting → ∃ t,
      exec (.launchQueueWatch func q) s = .next t ∧ t.launches = s2.launches ∧ (t.qstate func q).overrun = true) ∧
    (h.en = true → (s2.qstate func q).overrun = false → h.waiting ≠ 0 → h.waiting ≤ 2 ^ h.log2n →
      exec (.launchQueueWatch func q) s = .next ((if h.hold then s2
        else State.takeMany func q pa h h.waiting h.rd s2).putQueueState func q))) ∧
  (∀ (s : State) func q pa h n rd, (256 ≤ s.launches.length ∨ (s.qstate func q).load.isSome = true →
      State.takeMany func q pa h (n + 1) rd s = s) ∧
    (s.launches.length < 256 → (s.qstate func q).load = none → ∀ s1 r,
      let slot := pa + 64 + 64 * (rd % 2 ^ h.log2n)
      s.physRead slot 64 = (s1, some r) →
      let s2 := s1.physWrite (pa + 8) (bytesOfNat 8 (rd + 1))
      State.takeMany func q pa h (n + 1) rd s = State.takeMany func q pa h n (rd + 1)
        (if (LRec.ofBytes r.1).isLoad = false then s2.admitRecord func q h.ctx slot (s2.queueBad func h) r.1
         else if s2.queueBad func h = true ∨ loadBad r.1 = true then s2.physWrite (slot + 0x38) (bytesOfNat 4 9)
         else s2.modQ func q (fun x => { x with load := some (slot, r.1), run := true })))) ∧
  (∀ (s : State) func q ctx slot bad rec_ s1 k st gs args, let r := LRec.ofBytes rec_
    let id := s.freeLaunch (s.launches.length + s.saved.length) s.nextLaunch
    ({ s with nextLaunch := id + 1 } : State).admitChecks func ctx id
      ((s.ctxDesc ctx).any CtxDesc.conf) bad r = (s1, .ok (k, st, gs, args)) →
    let t := s.admitRecord func q ctx slot bad rec_
    r.node = false → r.first < r.nwg → ∃ l, kfind id t.launches = some l ∧ l.id = id ∧ l.func = func ∧
      l.queue = q ∧ l.slotPa = slot ∧ l.ctx = ctx ∧ l.record = rec_ ∧ l.kernel = k ∧ l.start = st ∧ l.groups = gs ∧
      l.args = args ∧ l.next = r.first ∧ l.nwg = r.nwg ∧ l.live = 0) ∧
  (∀ (s : State) n id, let taken := (∃ e ∈ s.launches, e.1 % 2 ^ 32 = id % 2 ^ 32) ∨ ∃ e ∈ s.saved, e.2.wg.launch % 2 ^ 32 = id % 2 ^ 32
    (¬taken → s.freeLaunch n id = id) ∧ (taken → s.freeLaunch (n + 1) id = s.freeLaunch n (id + 1)))

/-- R376, R383-R386, R390-R392: a visit adds the quantum up to four quanta and dispatches one workgroup after another as long as the
next one places and the deficit allows it, or tries the queue's gang; a queue that waits for nothing has no deficit; a
cooperative launch that can never fit ends, and one that can closes its partitions until every workgroup has been dispatched; a
gang reserves part by part at its queue's visits, is committed once every part is reserved, and gives up a reservation older
than 100 us; a node completes with those that feed it and that it feeds, or its consumer is formed where its queue's header is good
and HOLD does not stop the launch (R379, R387). The order of checks, and
that a cooperative gang starts as a gang, are the model's choices (assumptions 43, 64). -/
def Obligations.LaunchesPlaced : Prop :=
  (∀ s func q, (s.waitingLaunch func q = none → exec (.queueVisit func q) s = .next s) ∧
    ∀ l, s.waitingLaunch func q = some l →
    let quan := s.quantum func q; let key := visitKey (func, q, l)
    let s1 := ({ s with visit := key } : State).modQ func q (fun x => { x with dc := min (x.dc + quan) (4 * quan) })
    (s.dueVisit ≠ some key → exec (.queueVisit func q) s = .next s) ∧
    (s.dueVisit = some key →
      (l.gang = true → l.started = false →
        exec (.queueVisit func q) s = .next (if s1.gangMay l then s1.gangTry l else s1)) ∧
      ((l.gang = false ∨ l.started = true) →
        ((s1.qstate func q).dc < min (l.estimate : Int) (4 * quan) ∨ s1.placeable l = none) →
        exec (.queueVisit func q) s = .next s1) ∧
      ((l.gang = false ∨ l.started = true) →
        let t := State.visitLoop func q quan 49152 s1
        exec (.queueVisit func q) s = .next (if t.waitingLaunch func q = none then t.modQ func q (fun x => { x with dc := 0 }) else t)))) ∧
  -- the workgroups of a visit, one after another
  (∀ (s : State) func q quan n,
    (s.waitingLaunch func q = none → State.visitLoop func q quan n s = s) ∧
    ∀ l, s.waitingLaunch func q = some l →
      ((s.qstate func q).dc < min (l.estimate : Int) (4 * quan) ∨ s.placeable l = none → State.visitLoop func q quan n s = s) ∧
      (∀ p c, min (l.estimate : Int) (4 * quan) ≤ (s.qstate func q).dc → s.placeable l = some (p, c) →
        State.visitLoop func q quan (n + 1) s = State.visitLoop func q quan n
          ((s.dispatch l l.next p c l.estimate).modQ func q (fun x => { x with dc := x.dc - l.estimate })))) ∧
  (∀ s id l, kfind id s.launches = some l → l.id = id →
    ((l.coop = false ∨ l.gang = true ∨ s.atHead l = false) → exec (.cooperativeAdmission id) s = .next s) ∧
    (l.coop = true → l.gang = false → s.atHead l = true →
      let most := (s.coresFor l.rec_).length * l.kernel.perCore
      (l.started = false → most < l.nwg → ∃ t, exec (.cooperativeAdmission id) s = .next t ∧
        t.launches = kdel id s.launches) ∧
      (l.started = true ∨ l.nwg ≤ most →
        let shut := { l with closed := true }; let s1 := s.modLaunch id (fun _ => shut)
        (l.started = false → (s1.mayDispatch shut && s1.roomFor shut) = false →
          exec (.cooperativeAdmission id) s = .next s1) ∧
        (l.started = true ∨ (s1.mayDispatch shut && s1.roomFor shut) = true → exec (.cooperativeAdmission id) s =
          .next ((State.dispatchAll id 49152 (s1.modLaunch id (fun m => { m with st := .running }))).coopDone id)))) ∧
    (∀ n, (l.nwg ≤ l.next ∨ s.mayDispatch l = false ∨ s.placeIn l l.estimate l.rec_.parts = none →
        State.dispatchAll id n s = s) ∧
      (l.next < l.nwg → s.mayDispatch l = true → ∀ p c, s.placeIn l l.estimate l.rec_.parts = some (p, c) →
        State.dispatchAll id (n + 1) s = State.dispatchAll id n ((s.dispatch l l.next p c l.estimate).modQ l.func l.queue
          (fun x => { x with dc := x.dc - l.estimate }))) ∧
      (l.next < l.nwg → s.coopDone id = s)) ∧
    (let tried := l.gang = true ∧ s.atHead l = true ∧ s.gangTurn l = true ∧ l.retryAt ≤ s.refclk ∧
        (if s.savedOf id = [] then s.mayDispatch l else s.queueAllows l) = true ∧ ∀ v ∈ s.savedOf id, v.2.index = none
      let begun := if l.committed then s else ({ s with visit := visitKey (l.func, l.queue, l) } : State)
      let fits := ∀ e ∈ s.gangNeeds l, e.2 ≤ (s.coresOf e.1).length * l.kernel.perCore
      (¬tried → exec (.gangReserve id) s = .next s) ∧
      (tried → ¬fits → ∃ t, exec (.gangReserve id) s = .next t ∧ kfind id t.launches = none) ∧
      (tried → fits → ∀ s0, (l.st = .waiting ∧ s0 = begun.modLaunch id (fun m => { m with st := .reserved [] s.refclk })) ∨
          ((∃ r t, l.st = .reserved r t) ∧ s0 = begun) →
        let s1 := State.reserveParts id ((s.gangNeeds l).map (fun e => (e.1, 0, e.2))) s0
        ∀ m res since, kfind id s1.launches = some m → m.st = .reserved res since →
          (res.length = m.gangParts.length → s1.refclk ≤ since + 10000 →
            exec (.gangReserve id) s = .next (s1.gangStart m res)) ∧
          (res.length ≠ m.gangParts.length → exec (.gangReserve id) s = .next (if res = [] then
            s1.modLaunch id (fun m => { m with st := .waiting }) else s1)))) ∧
    (∀ res since, l.st = .reserved res since → exec (.gangReserveTimeout id) s = .next (if since + 10000 < s.refclk
      then s.modLaunch id (fun m => { m with st := .waiting, retryAt := s.refclk + 100000 }) else s)) ∧
    ((l.node = none ∨ l.prep ≠ none ∨ s.restoreFirst l = true) → exec (.nodeConsumerDispatch id) s = .next s) ∧
    (∀ va m, l.node = some va → l.prep = none → s.restoreFirst l = false → let r := s.nodesRead
      kfind id r.launches = some m →
      (∀ ls, r.nodeGroup m = some ls → exec (.nodeConsumerDispatch id) s = .next (ls.foldl State.nodeEnd r)) ∧
      (r.nodeGroup m = none → ∀ s1 d, r.nodeGet l.ctx va.toNat = (s1, some d) →
        (s1.queueRuns l = false → exec (.nodeConsumerDispatch id) s = .next s1) ∧
        (s1.queueRuns l = true → exec (.nodeConsumerDispatch id) s = .next (s1.formConsumer l va.toNat d).1) ∧
        ((s1.formConsumer l va.toNat d).2 = true → ∃ n recs,
          kfind id (s1.formConsumer l va.toNat d).1.launches = some n ∧ n.prep = some recs))))

/-- R19, R217, R410: a workgroup whose threads have all exited and whose commands have ended writes back its context's dirty
lines and unmaps its windows, and then retires; an aborted one ends where it stands. What it held becomes free: its slots, commands
and windows, and the macros and the Grainer that it or its crews own (R302), while those of others stay. -/
def Obligations.WorkgroupsEnd : Prop :=
  ∀ s core w g, s.wg? core w = some g →
    let gone := fun (t : State) => t.wg? core w = none ∧ (∀ sl ∈ g.crews, t.crew? ⟨core, sl⟩ = none) ∧
      (∀ c ∈ (t.core core).cmds, c.wg ≠ w) ∧ (∀ e ∈ (t.core core).windows, e.2.wg ≠ w) ∧
      (∀ i, (t.core core).mac i = if g.owns w ((s.core core).mac i).owner = true then CimMac.zero else (s.core core).mac i) ∧
      (t.core core).grainer = if g.owns w (s.core core).grainer = true then none else (s.core core).grainer
    (s.mayRetire core w g = true → g.written = false → ∃ t g', exec (.retirementWriteback core w) s = .next t ∧
      t.wg? core w = some g' ∧ g'.written = true ∧ NoDirty t core g.ctx ∧ ∀ e ∈ (t.core core).windows, e.2.wg ≠ w) ∧
    ((s.mayRetire core w g = false ∨ g.written = true) → exec (.retirementWriteback core w) s = .next s) ∧
    (s.mayRetire core w g = true → g.written = true → ∃ t, exec (.workgroupRetirement core w) s = .next t ∧ gone t) ∧
    ((s.mayRetire core w g = false ∨ g.written = false) → exec (.workgroupRetirement core w) s = .next s) ∧
    (g.abort = none → exec (.workgroupAbort core w) s = .next s) ∧
    (∀ i, g.abort = some i → ∃ t, exec (.workgroupAbort core w) s = .next t ∧ gone t)

/-- R36, R204, R205, R207, R223, R229, R300, R421, R424: what loads, unloads, invalidates, saves, restores and fences.
A refused code object reports why; an unloaded one leaves no state-cache entry; a completed invalidation leaves no
line of its context in its range; a forced save frees the workgroup's slots and a restore gives it new ones; a fenced
core has no line, and its workgroups are to be aborted or, of a gang, saved; an error in an instruction-cache line, corrected or
not, removes it and is not counted (R220). The cause of a fenced core's aborts and the retained image are the model's choices (assumptions 20, 34). -/
def Obligations.SavesAndLoads : Prop :=
  (∀ s func q, (s.loadDue func q = none → exec (.codeObjectLoad func q) s = .next s ∧
      exec (.codeObjectUnload func q) s = .next s) ∧
    ∀ ctx pa rec_, s.loadDue func q = some (ctx, pa, rec_) →
      (fld rec_ 0x10 8 ≠ 0 →
        (∀ s2 f, s.loadCheck ctx rec_ = (s2, .error f) → exec (.codeObjectLoad func q) s =
          .next (s2.loadEnd func q ctx pa rec_ f.word false)) ∧
        (∀ s2 e code, s.loadCheck ctx rec_ = (s2, .ok (e, code)) → ∃ t, exec (.codeObjectLoad func q) s = .next t ∧
          (t.qstate func q).load = none ∧ ∃ o ∈ t.objects, o.ctx = ctx ∧ o.va = BitVec.ofNat 64 code ∧
            o.secs = (Elf.secs e).map (fun c => (c.addr, c.bytes.length)))) ∧
      (fld rec_ 0x10 8 = 0 →
        (s.objects.find? (fun o => o.ctx == ctx && o.va.toNat == fld rec_ 0x18 8) = none →
          exec (.codeObjectUnload func q) s = .next (s.loadEnd func q ctx pa rec_ (LoadFail.word { code := 9 }) false)) ∧
        (∀ o s2, s.objects.find? (fun o => o.ctx == ctx && o.va.toNat == fld rec_ 0x18 8) = some o →
          s.pagesOk ctx (o.secs.map (fun c => (o.va.toNat + c.1, c.2))) = (s2, true) →
          ∃ t, exec (.codeObjectUnload func q) s = .next t ∧ (∀ p ∈ t.objects, ¬(p.ctx = ctx ∧ p.va = o.va)) ∧
            ∀ c ∈ t.cores, ∀ y ∈ c.2.seqs, y.cache = []))) ∧
  (∀ s func s2 e d, s.ringTake (s.invRing func) = (s2, some e) →
    let f := fun at_ n => natOfBytes ((List.take n (e.drop at_)))
    let r : Inval := { kind := f 0x12 1, ctx := f 0x10 2 % 4096, func := func, base := f 0 8, len := f 8 8 }
    s2.ctxDesc r.ctx = some d →
    ((f 0x13 5 ≠ 0 ∨ 3 < r.kind ∨ d.func ≠ func) → exec (.invalidationRequest func) s =
      .next (s2.invDone func r.ctx (f 0x18 8) (2 ^ 64 - 1))) ∧
    (f 0x13 5 = 0 → r.kind ≤ 1 → d.func = func → ∃ t, exec (.invalidationRequest func) s = .next t ∧ ∀ c lva,
      (r.kind = 1 ∨ r.len = 0 ∨ (128 * lva < r.base + r.len ∧ r.base < 128 * lva + 128)) →
        (t.core c).l1Find r.ctx lva = none ∧ (t.core c).icFind r.ctx lva = none)) ∧
  (∀ s core w g cause, s.wg? core w = some g → g.abort = none → g.written = false → g.save = none →
    (s.saveReady core w g = false → exec (.forcedPreemption core w cause) s =
      .next (s.setWg core w { g with save := some (cause, s.refclk) })) ∧
    (∀ off l, s.saveReady core w g = true → kfind g.launch s.launches = some l →
      s.poolFit g.func (imageSize g.kernel ((s.core core).cmds.filter (fun c => c.wg == w)).length) = some off →
      (∀ c p x, l.st ≠ .failing c p none x) →
      ∃ t v, exec (.forcedPreemption core w cause) s = .next t ∧ t.wg? core w = none ∧
        (∀ sl ∈ g.crews, t.crew? ⟨core, sl⟩ = none) ∧ kfind s.nextSaved t.saved = some v ∧ v.off = off ∧ v.func = g.func ∧
        v.cause = cause ∧ v.wg.wgidx = g.wgidx ∧ v.wg.scr = g.scr) ∧
    (s.saveReady core w g = true →
      s.poolFit g.func (imageSize g.kernel ((s.core core).cmds.filter (fun c => c.wg == w)).length) = none →
      ∃ t y i, exec (.forcedPreemption core w cause) s = .next t ∧ t.wg? core w = some y ∧ y.abort = some i ∧ i.cause = 0x25)) ∧
  (∀ s core w g cause at_, s.wg? core w = some g → g.save = some (cause, at_) → exec (.engineDrainTimeout core w) s =
    .next (if at_ + 2000 ≤ s.refclk then s.modCore core (fun co => { co with cmds := co.cmds.map (fun c =>
      if c.wg = w ∧ c.runs = true then { c with st := .stopped } else c) }) else s)) ∧
  (∀ s ix v, kfind ix s.saved = some v →
    (s.restorable v = none → exec (.restore ix) s = .next s) ∧
    (∀ l p c, s.restorable v = some (l, p, c) → ∃ t w g, exec (.restore ix) s = .next t ∧ kfind ix t.saved = none ∧
      t.wg? c w = some g ∧ g.wgidx = v.wg.wgidx ∧ g.kernel = v.wg.kernel ∧ g.scr = v.wg.scr ∧ g.save = none)) ∧
  (∀ s core readable bad,
    ((s.core core).fenced = true → exec (.coreFence core ⟨readable, bad⟩) s =
      .next (if bad then { s with failed := sins core s.failed } else s)) ∧
    ((s.core core).fenced = false → ∃ t, exec (.coreFence core ⟨readable, bad⟩) s = .next t ∧ (t.core core).fenced = true ∧
      (t.core core).l1 = [] ∧ t.failed = (if bad then sins core s.failed else s.failed) ∧
      (∀ w g, t.wg? core w = some g → g.abort ≠ none ∨ g.save ≠ none) ∧
      ((∀ l ∈ kvals s.launches, l.gang = false ∧ l.failing = false) → ∀ w g, t.wg? core w = some g → g.abort ≠ none))) ∧
  (∀ s site, (s.eccPlace site = none → ∀ b, exec (.eccError site b) s = .next s) ∧
    (∀ c addr conf, s.eccPlace site = some (c, addr, conf) → s.sysreg 0x16 0 = 0 →
      (codeSite site = false →
        exec (.eccError site true) s = .next { s with errCount := kput c (kget 0 c s.errCount + 1) s.errCount }) ∧
      (∀ pa k, site = .storage pa → s.key pa = some k →
        exec (.eccError site false) s = .next { s with poison := sins (k / 32) s.poison }) ∧
      (∀ m r, site = .cimRow c m r → m < (s.core c).cim.length → ∃ t, exec (.eccError site false) s = .next t ∧
        t.poison = s.poison ∧ r ∈ ((t.core c).mac m).poison) ∧
      (∀ k ctx va b, site = .icacheLine k ctx va → ∃ t, exec (.eccError site b) s = .next t ∧
        t.poison = s.poison ∧ t.errCount = s.errCount ∧ (t.core k).icFind ctx (va / 128) = none)))

/-! ## Events of the meters -/

/-- R339, R342, R346, R350, R352, R354, R360: a sensor sample sets the temperatures and throttles each die by its
hottest sensor and the module's power; an interval's end flushes every slot and opens new intervals; a grant covers
the debt; a ring's stall sample goes to the next crew that it observes of the sequencer; a sampled load leaves the list. The
readings of sensors are the events' inputs (assumption 40). -/
def Obligations.MeterEvents : Prop :=
  (∀ s tiles sub, ksorted tiles = true → ∃ t, exec (.sensorSample tiles sub) s = .next t ∧ t.mem = s.mem ∧
    t.substrate = BitVec.ofInt 16 sub ∧ (∀ c v, kfind c tiles = some v → (t.core c).temp = BitVec.ofInt 16 v) ∧
    (∀ c, kfind c tiles = none → (t.core c).temp = (s.core c).temp) ∧ t.throttle.length = 4 ∧ ∀ d < 4,
      let power := (s.domains.map Domain.last).sum
      let byHeat := if 1000 ≤ t.hottest d then 1 else if 950 ≤ t.hottest d then 3 else 4
      t.throttle.getD d 0 = if 2600000000000 < power then min 2 byHeat else byHeat) ∧
  (∀ s measured, s.domains.length = 5 → ∃ t, exec (.intervalEnd measured) s = .next t ∧
    (∀ d < 5, (t.domains.getD d Domain.zero).last = (s.domains.getD d Domain.zero).meas + kget 0 d measured ∧
      (t.domains.getD d Domain.zero).meas = 0 ∧ (t.domains.getD d Domain.zero).slotAc = []) ∧
    ∀ core w g, t.wg? core w = some g → g.flushed = g.cum) ∧
  (∀ s core func, let debt := ((s.core core).grantOf func).debt
    (debt = 0 → exec (.grant core func) s = .next s) ∧
    (∀ s2, debt ≠ 0 → s.panOp func Pan.grant = (s2, true) → ∃ t, exec (.grant core func) s = .next t ∧
      (t.core core).grantOf func = { rem := 256000000 - debt, debt := debt - 256000000 }) ∧
    (∀ s2, debt ≠ 0 → s.panOp func Pan.grant = (s2, false) → exec (.grant core func) s = .next s2) ∧
    (s.panRefuses func = false → exec (.debtReport core func) s = .next s) ∧
    (s.panRefuses func = true → ∃ t, exec (.debtReport core func) s = .next t ∧ ((t.core core).grantOf func).debt = 0)) ∧
  (∀ s core seq, ((∀ f ∈ s.seqFuncs core seq, s.stallTime f = false ∨ s.stallNext core seq f = none) →
      exec (.stallSample core seq) s = .next s) ∧
    ∀ f sl cr wg, s.seqFuncs core seq = [f] → s.stallTime f = true → s.stallNext core seq f = some (sl, cr, wg) →
      seq < (s.core core).seqs.length → ∃ t, exec (.stallSample core seq) s = .next t ∧
        kfind f ((t.core core).seqs.getD seq Seq.zero).sampled = some sl) ∧
  (∀ s key pc va level miss bad times,
    let hit := fun (x : Sample) => x.pc.toNat == pc && x.va.toNat == va && x.level == level && x.tlb == miss && x.poison == bad
    ((s.core key.core).samples.find? hit = none → exec (.loadSample key pc va level miss bad times) s = .next s) ∧
    ∀ x, (s.core key.core).samples.find? hit = some x → ∃ t, exec (.loadSample key pc va level miss bad times) s = .next t ∧
      (t.core key.core).samples = (s.core key.core).samples.erase x)

/-! ## Debugging, requests, the host port, links, management -/

/-- R405-R407, R425, R427-R430, R434: STOP, RESUME and STEP of a sequencer, a breakpoint's match, the debugger's
write of a register, reads and writes of the register window, and the state requests. A stop is held while a crew in handler
mode keeps it out; the PF alone writes DSEQ, and a CMD of 00 takes back a command that waits. SLOT of a stop that a request asks
for, the breakpoint of a held stop and how the window selects a crew's registers are the model's choices (assumptions 29, 30,
81). -/
def Obligations.DebuggerEvents : Prop :=
  (∀ s core q, q < 4 → (s.core core).seqs.length = 4 →
    let dseq := fun (t : State) => ((t.core core).seqs.getD q Seq.zero).dseq
    let halted := fun (t : State) reason slot bp => (dseq t).getLsbD 16 = true ∧ ((dseq t).extractLsb' 6 3).toNat = reason ∧
      ((dseq t).extractLsb' 12 4).toNat = slot % 16 ∧ ((dseq t).extractLsb' 9 3).toNat = bp ∧ (dseq t).extractLsb' 0 2 = 0
    ((dseq s).getLsbD 16 = false → s.stopHeld core q = false → ∃ t, exec (.stop core q) s = .next t ∧ t.mem = s.mem ∧
      halted t 1 0 0) ∧
    ((dseq s).getLsbD 16 = false → s.stopHeld core q = true → ∃ t, exec (.stop core q) s = .next t ∧
      (dseq t).getLsbD 16 = false ∧ (dseq t).extractLsb' 0 2 = 1 ∧
      ((t.core core).seqs.getD q Seq.zero).held = some (1, 0, 0)) ∧
    (∃ t, exec (.resume core q) s = .next t ∧ t.mem = s.mem ∧ (dseq t).getLsbD 16 = false ∧
      ((t.core core).seqs.getD q Seq.zero).stepping = none) ∧
    (∀ slot, (dseq s).getLsbD 16 = true → ∃ t, exec (.step core q slot) s = .next t ∧ t.mem = s.mem ∧
      (dseq t).getLsbD 16 = false ∧ ((t.core core).seqs.getD q Seq.zero).stepping = some (16 * q + slot % 16)) ∧
    (∀ v, core < 768 → v.toNat % 4 = 0 → ∃ t, exec (.systemRegisterWrite .pf 0x40 (4 * core + q) v) s = .next t ∧
      t.mem = s.mem ∧ (dseq t).extractLsb' 0 2 = 0 ∧ (dseq t).getLsbD 16 = (dseq s).getLsbD 16 ∧
      ((t.core core).seqs.getD q Seq.zero).held ≠ some (1, 0, 0)) ∧
    (∀ slot cr wg, slot / 16 = q → s.crew? ⟨core, slot⟩ = some cr → s.wg? core cr.wg = some wg →
      (s.matching ⟨core, slot⟩ cr wg = none → exec (.breakpointMatch ⟨core, slot⟩) s = .next s) ∧
      (∀ k, s.matching ⟨core, slot⟩ cr wg = some k → s.stopHeld core q = false → ∃ t cr',
        exec (.breakpointMatch ⟨core, slot⟩) s = .next t ∧ halted t 2 slot k ∧ t.crew? ⟨core, slot⟩ = some cr' ∧
        cr'.pos = cr.pos ∧ cr'.bpSkip = true) ∧
      ((dseq s).getLsbD 16 = false → ∀ off bs, exec (.debuggerWrite ⟨core, slot⟩ off bs) s = .next s) ∧
      ((dseq s).getLsbD 16 = true → wg.conf = false → ∀ r t v, r < wg.kernel.vregs → t < 64 → cr.threads.length = 64 →
        ∃ u cr', exec (.debuggerWrite ⟨core, slot⟩ (0x600 + 256 * r + 4 * t) (bytesOfNat 4 v)) s = .next u ∧ u.mem = s.mem ∧
          u.crew? ⟨core, slot⟩ = some cr' ∧ ∀ t' r', t' < 64 → cr'.landedV t' r' =
            if t' = t ∧ r' = r then BitVec.ofNat 32 v else cr.landedV t' r'))) ∧
  (∀ s num sel v, num < 0x10 ∨ 0x29 < num → exec (.systemRegisterWrite .bench num sel v) s = .next s) ∧
  (∀ s ag num sel v n, (ag = RegAgent.bench ∧ num ≤ 0x29) ∨ ag = .pf → 0x10 ≤ num → sysSelectors num = some n → sel < n →
    ¬(0x30 ≤ num ∧ num ≤ 0x40) → (num < 0x48 ∨ ∀ d, s.ctxDesc sel = some d → d.conf = false) →
    ∃ t, exec (.systemRegisterWrite ag num sel v) s = .next t ∧
      t.mem = s.mem ∧ t.sysreg num sel = (s.sysreg num sel &&& ~~~(sysMask num)) ||| (v &&& sysMask num) ∧
      ∀ num' sel', sel' < 65536 → (num', sel') ≠ (num, sel) → t.sysreg num' sel' = s.sysreg num' sel') ∧
  (∀ s core slot cr wg num v, num < 8 → s.crew? ⟨core, slot⟩ = some cr → s.wg? core cr.wg = some wg → core < 768 → slot < 64 →
    exec (.systemRegisterWrite .pf num (64 * core + slot) v) s = .next
      (if wg.conf = false ∧ (s.core core).stopped slot = true then s.setCrew ⟨core, slot⟩ (cr.sysSet num v) else s) ∧
    s.sysRead num (64 * core + slot) = if wg.conf = true then 0
      else ([cr.epc, cr.ecause, cr.earg, cr.ethr] ++ cr.esave).getD num 0) ∧
  (∀ s f num sel v, (num < 0x20 ∨ 0x27 < num ∨ sel ≠ f) →
    exec (.systemRegisterWrite (.vf f) num sel v) s = .next ((s.refuse f (8 * num)).say .unsupported)) ∧
  (∀ s q, s.nextReq = some q →
    (2 < q.kind → ∀ s2 e, s.ringTake s.reqRing = (s2, some e) → (StateReq.ofBytes e).kind ≠ 0 →
      exec .stateExport s = .next (s2.reqDone (StateReq.ofBytes e) false)) ∧
    (q.kind = 0 → ∀ s2 e, s.ringTake s.reqRing = (s2, some e) → let r := StateReq.ofBytes e
      let b := s2.exportBytes r.classes
      r.kind = 0 → r.clean = true → b.2.length ≤ r.size →
      exec .stateExport s = .next ((b.1.physWrite r.pa b.2).reqDone r true)) ∧
    (q.kind ≠ 1 → exec .restart s = .next s) ∧ (q.kind ≠ 2 → exec .release s = .next s) ∧
    (∀ s2 e, s.ringTake s.reqRing = (s2, some e) → let r := StateReq.ofBytes e
      r.clean = true →
      (q.kind = 1 → 256 ≤ s.launches.length → exec .restart s = .next s) ∧
      (q.kind = 1 → s.launches.length < 256 → ∀ ix v l, s2.imagesUnder r.func r.pa = (ix, v) :: l → s2.lqHeader r.func r.entry ≠ none →
        exec .restart s = .next ((s2.readmit r.func r.entry v.launch ((ix, v) :: l)).reqDone r true)) ∧
      (q.kind = 2 → s2.imagesUnder r.func r.pa ≠ [] → ∃ t, exec .release s = .next t ∧
        ∀ e ∈ s2.imagesUnder r.func r.pa, kfind e.1 t.saved = none) ∧
      (q.kind = 2 → s2.imagesUnder r.func r.pa = [] → exec .release s = .next (s2.reqDone r false)))) ∧
  (∀ s t, 8 ≤ s.boot.next → let s0 : State := { s with agenda := t, blocked := false }
    (∀ ag num sel n, s.agenda = .regRead ag num sel :: t → ag = RegAgent.bench ∨ ag = .pf → sysSelectors num = some n →
      sel < n → step s = .next (s0.say (.regRead (s.sysRead num sel)))) ∧
    (∀ key off n cr wg, s.agenda = .debugRead key off n :: t → s.crew? key = some cr → s.wg? key.core cr.wg = some wg →
      step s = .next (if (s.core key.core).stopped key.slot = true then s0.say
        (.debug (if wg.conf = true then List.replicate n 0 else ((cr.image wg).drop off).take n)) else s0))) ∧
  (∀ s, s.nextReq = none → exec .stateExport s = .next (s.ringTake s.reqRing).1 ∧
    (s.launches.length < 256 → exec .restart s = .next (s.ringTake s.reqRing).1) ∧ exec .release s = .next (s.ringTake s.reqRing).1)

/-- R229, R445-R451, R353: the host reads and writes exposed storage, and so do the peers, with atomics, where the link by which the
request comes is up; poison comes with the data; the rest is refused. A lost flit is sent again up to 8 times in a row, a link goes down, retrains and comes up, flits
pause, the pod index is taken once, and a function's pan is written. The host stores into its own memory, which the part then
reads. What a link that goes down held, what a peer's float atomic carries, which index is taken, and who pays the resent flit
are the model's choices (assumptions 39, 56, 57, 62). -/
def Obligations.PortsAndLinks : Prop :=
  (∀ s off n k bs bad, s.key (hdmPa off) = some k → off % 128 + n ≤ 128 → 0 < n → bs.length = n →
    (s.hdmOk off n = true →
      (s.ownerOf (k / 128) = none → ∃ t, exec (.cxlMemRead off n) s = .next t ∧
        t.out.head? = some (.hostRead (s.view none k n) (s.poisoned k n))) ∧
      (∃ t, exec (.cxlMemWrite off ⟨bs, bad⟩) s = .next t ∧ t.out.head? = some .hostWrite ∧ t.view none k n = bs ∧
        (bad = true → t.poisoned k n = true))) ∧
    (s.hdmOk off n = false →
      (∃ t, exec (.cxlMemRead off n) s = .next t ∧ t.out.head? = some (.hostRead (List.replicate n 0xFF) true)) ∧
      (s.sysreg 0x16 0 = 0 → exec (.cxlMemWrite off ⟨bs, bad⟩) s = .next (s.say .hostWrite)))) ∧
  (∀ s peer pa op, (s.pod = none → exec (.remoteRequest peer pa op) s = .next s) ∧
    (s.reached pa = false → exec (.remoteRequest peer pa op) s = .next s) ∧
    ∀ me, s.pod = some me → s.reached pa = true →
      ((pa / 2 ^ 42 ≠ me ∨ s.exposed pa (remoteBytes op) = false) → ∃ t, exec (.remoteRequest peer pa op) s = .next t ∧
        t.out.head? = some (.peerErr peer)) ∧
      (pa / 2 ^ 42 = me → s.exposed pa (remoteBytes op) = true → ∀ k, s.key pa = some k → pa % 128 + remoteBytes op ≤ 128 →
        0 < remoteBytes op →
        (∀ n, op = .read n → s.ownerOf (k / 128) = none → ∃ t, exec (.remoteRequest peer pa op) s = .next t ∧
          t.out.head? = some (.peerRead peer (s.view none k n) (s.poisoned k n))) ∧
        (∀ bs bad, op = .write ⟨bs, bad⟩ → ∃ t, exec (.remoteRequest peer pa op) s = .next t ∧
          t.out.head? = some (.peerWrite peer) ∧ t.view none k bs.length = bs ∧
          (bad = true → t.poisoned k bs.length = true)) ∧
        (∀ a sz v ftz, op = .atom a sz v ftz → s.ownerOf (k / 128) = none → s.poisoned k sz.bytes = false →
          let old := s.view none k sz.bytes
          let new := atomicNew ftz a (8 * sz.bytes) (natOfBytes old) (v.toNat % 2 ^ (8 * sz.bytes))
          ∃ t, exec (.remoteRequest peer pa op) s = .next t ∧ t.out.head? = some (.peerAtomic peer old false new.2) ∧
            t.view none k sz.bytes = bytesOfNat sz.bytes new.1) ∧
        (∀ sz c v, op = .cas sz c v → s.ownerOf (k / 128) = none → s.poisoned k sz.bytes = false →
          let old := s.view none k sz.bytes; let w := 8 * sz.bytes
          ∃ t, exec (.remoteRequest peer pa op) s = .next t ∧ t.out.head? = some (.peerRead peer old false) ∧
            t.view none k sz.bytes = if natOfBytes old = c.toNat % 2 ^ w then bytesOfNat sz.bytes (v.toNat % 2 ^ w) else old))) ∧
  (∀ s i p, let l := s.links.getD i Link.zero
    let on : Link := { enabled := true, up := true, paused := false, replays := 0, heard := s.refclk, trained := true, sender := .house }
    let falls := fun (j : Instr) => ∃ t, exec j s = .next t ∧ t.links.getD i Link.zero =
        { l with up := false, enabled := false, trained := false, replays := 0 } ∧
      ∀ j, j ≠ i → t.links.getD j Link.zero = s.links.getD j Link.zero
    (∃ t, exec (.pauseAndResumeFlits i p) s = .next t ∧
      t.links = s.links.modify i (fun l => { l with paused := p, heard := s.refclk })) ∧
    (exec (.linkEnable i) s = .next (if s.boot.stopped = false ∧ s.pod ≠ none ∧ l.up = false ∧ l.trained = true
      then { s with links := s.links.modify i (fun _ => on) } else s)) ∧
    ((l.up = false ∨ l.paused = true) → exec (.flitReplay i) s = .next s) ∧
    (l.up = true → l.paused = false → l.replays < 8 → exec (.flitReplay i) s =
      .next ((({ s with links := s.links.modify i (fun l => { l with replays := l.replays + 1 }) } : State).bill l.sender .substrate 17 1).say
        (.flit i))) ∧
    (l.up = true → l.paused = false → 8 ≤ l.replays → falls (.flitReplay i)) ∧
    (l.up = true → 8 ≤ l.replays ∨ l.heard + 10000 ≤ s.refclk → falls (.linkDown i)) ∧
    (l.up = false ∨ (l.replays < 8 ∧ s.refclk < l.heard + 10000) → exec (.linkDown i) s = .next s)) ∧
  (∀ s x, let ends : Link → Link := fun l =>
      { enabled := true, up := l.trained, paused := false, replays := 0, heard := s.refclk, trained := l.trained, sender := .house }
    exec (.podIndex x) s = .next (if s.boot.stopped = false ∧ s.pod = none ∧ x < 576
      then { s with pod := some x, links := s.links.map ends } else s)) ∧
  (∀ s func off bs, exec (.panWrite func off bs) s = .next (if s.boot.stopped = false ∧ 1 ≤ func ∧ func < 64 ∧ off + bs.length ≤ 64
    then s.physWrite ((s.sysreg 0x11 0).toNat + 64 * func + off) bs else s)) ∧
  (∀ s t pa k bs bad, s.agenda = .outside pa ⟨bs, bad⟩ :: t → s.key pa = some k → homeOf k = .host → s.ownerOf (k / 128) = none →
    pa % 128 + bs.length ≤ 128 → 0 < bs.length →
    ∃ u, step s = .next u ∧ u.view none k bs.length = bs ∧ u.cores = s.cores ∧ (bad = true → u.poisoned k bs.length = true))

/-- R447, R452-R455: a configuration request is answered with a retry until start-up is over; measurements and telemetry are
shown; management is answered until the root core has stopped, when only a recovery is taken; a masked vector that is pending is
sent once its mask is cleared; a missed heartbeat has every workgroup aborted; recovery takes the part back to the start of its
boot and is logged in the boot record, and a boot that passes every step ends at step 8; the boot record only grows. Until
start-up is over no engine acts.
What is confidential in telemetry, a start in one event, MSI-X at reset, the entry of a recovery and what acts during start-up are
the model's choices (assumptions 17, 33, 38, 79, 80); the cryptographic answers are opaque (assumption 13). -/
def Obligations.StartupAndManagement : Prop :=
  (∀ s w, exec (.configurationRequest w) s = .next (s.say (if s.boot.next < 8 then .configRetry else .configDone))) ∧
  (∀ s, exec .getMeasurements s = .next (if s.boot.stopped = true then s
    else s.say (.measurements s.boot.meas (Config.sign (Config.partId ++ s.boot.meas.flatten))))) ∧
  (∀ s, exec .telemetry s = .next (if s.boot.stopped = true then s else s.say (.telemetry ((List.range 768).map (fun c => (c, (s.core c).temp.toInt)))
    (s.domains.map Domain.last) (s.links.map Link.up) ((s.cores.filter (fun c => c.2.fenced)).map Prod.fst) s.boot.header
    (s.accounts.map (fun a => (a.1, s.accountShown a.1)))))) ∧
  (∀ s func vec, let k := func * 64 + vec
    let t : State := { s with msixOpen := sins k s.msixOpen, msixPend := sdel k s.msixPend }
    exec (.msiXUnmask func vec) s = .next (if k ∈ s.msixPend then { t with out := .msix func vec :: s.out } else t)) ∧
  (∀ s, ∃ t, exec .heartbeatMiss s = .next t ∧ ∀ c w g, t.wg? c w = some g → g.abort ≠ none) ∧
  (∀ s alt, ∃ t, exec (.recovery alt) s = .next t ∧ t.cores = [] ∧ t.launches = [] ∧ t.mem = s.mem ∧ t.boot.next = 0 ∧
    t.boot.stopped = false ∧ t.boot.altReq = alt.toList ∧
    t.boot.record = s.boot.record ++
      [{ step := 0xFF, alt := alt.isSome, result := 0, refclk := s.refclk, meas := List.replicate 16 0 }]) ∧
  (∀ s m t, s.agenda = m :: t → s.boot.next < 8 → m.early = false → step s = .next { s with agenda := t }) ∧
  (∀ s, (s.boot.next ≠ 0 ∨ s.boot.stopped = true → exec .reset s = .next s) ∧
    ∃ t, exec .reset s = .next t ∧ s.boot.record <+: t.boot.record ∧
      (s.boot.next = 0 → t.boot.next = 8 ∨ t.boot.next = 0 ∨ t.boot.stopped = true))

/-! ## Steps, words, invariants, the issue and what retiring leaves as it was -/

/-- A step whose move is an issue runs the instruction that the bytes at the crew's position decode to: its effect,
then the sequencer's mark and the end of a debugger's step where the instruction has issued. Before an instruction that
reaches memory, the writes that a fence waits for are accepted and earlier loads are settled. A word that does not decode
takes the illegal-instruction fault (R89); a crew that its sequencer would not start now (R27), or at whose boundary something else is
taken first (R409), leaves everything as it was; a sequencer's turn is the issue of the crew that it chooses. An event's step is the
event, a completion's after the writes that a fence waits for, and a breakpoint's match that of a crew that would issue (R429); a
completion waits for writes that a link holds, and so does any move that needs such a link (R448). The other parts list what lets a
crew issue (R24, R27, R28, R74, R77, R78, R360), and which of the ready crews a sequencer chooses (R27). The agenda that names the move
is the model's own, and so are what acts before start-up is over and that a crew whose instruction no link can carry is not ready
(assumptions 1, 2, 80, 84). -/
def Obligations.StepRunsDecoded : Prop :=
  (∀ s t m, s.agenda = m :: t → (8 ≤ s.boot.next ∨ m.early = true) →
    let s0 : State := { s with agenda := t, blocked := false }
    let ends := unlessBlocked { s with agenda := t }
    (∀ i, m = .event i →
      (∀ c, endsFor i = some c → let u := s0.landFlights (fun f => f.must && f.core == c && !s0.linkHeld f)
        let held := ∃ f ∈ u.flight, f.must = true ∧ f.core = c
        (¬held → step s = ends (exec i u)) ∧ (held → step s = ends (.next u))) ∧
      (endsFor i = none → (∀ key, i = .breakpointMatch key → s0.wouldIssue key = false → step s = .next s0) ∧
        ((∀ key, i = .breakpointMatch key → s0.wouldIssue key = true) → step s = ends (exec i s0)))) ∧
    (∀ core q, m = .turn core q → step s = match s0.chosen core q with
      | some key => step { s with agenda := .issue key :: t }
      | none => .next s0) ∧
    (∀ key cr wg, m = .issue key → s.crew? key = some cr → s.wg? key.core cr.wg = some wg →
      (s0.seqAllows key = false ∨ s0.chosen key.core (key.slot / 16) ≠ some key ∨ s0.taken key cr wg = true → step s = .next s0) ∧
      (s0.seqAllows key = true → s0.chosen key.core (key.slot / 16) = some key → s0.taken key cr wg = false →
        ∀ bs, cr.fetchAt = .word bs →
        (∀ i n, decodeBytes bs.length bs = .ok (i, n) →
          let u0 : State := { s0.settled key i with cur := some key }
          (∀ u, exec i u0 = .next u → step s = ends (.next (u.settleIssue u0.fresh key))) ∧
          (∀ f, exec i u0 = .fault f → step s = .fault f) ∧ (∀ r, exec i u0 = .refused r → step s = .refused r)) ∧
        (∀ e, decodeBytes bs.length bs = .error e →
          step s = ends (.next (((s0.illegalWord key cr).markIssue key).afterIssue key)))))) ∧
  (∀ (s : State) key i, i.reaches = false → s.settled key i = s) ∧
  (∀ (s : State) key, s.now % 4 < s.throttle.getD (key.core / 192) 4 → (s.seq key.core (key.slot / 16)).issued ≠ some s.now →
    s.seqAllows key = true) ∧
  (∀ (s : State) key (cr : Crew) (wg : Wg) i, s.serves key.core = true → cr.ready ≤ s.now → cr.park = none → cr.finished = false → cr.block = .none →
    (s.core key.core).stopped key.slot = false → (s.core key.core).stepAllows key.slot cr.hmode = true → wg.abort = none →
    wg.save = none → cr.word = .ok i →
    (∀ n, cr.lastIssue = some n → n + max 1 ((i.hdr?.map (fun h => h.sd.toNat)).getD 0) ≤ s.now) →
    (∀ h, i.hdr? = some h → (∀ k < 12, h.wait.getLsbD k = true → (cr.flag k).cnt = 0) ∧
      ∀ f, h.sf = some f → (cr.flag f.val).cnt < 15) →
    s.mayIssue key cr wg = true) ∧
  (∀ (s : State) key (cr : Crew) (wg : Wg) i, cr.word = .ok i → i.mayHold = false → (i.reaches = false ∨ s.linksHold = false) →
    s.starts key cr = true) ∧
  (∀ (s : State) core q key, s.chosen core q = some key → key.core = core ∧ key.slot / 16 = q ∧ ∃ cr wg, s.crew? key = some cr ∧
    s.wg? core cr.wg = some wg ∧ s.mayIssue key cr wg = true ∧ s.starts key cr = true ∧
    ∀ sl cr' wg', sl / 16 = q → s.crew? ⟨core, sl⟩ = some cr' → s.wg? core cr'.wg = some wg' →
      s.mayIssue ⟨core, sl⟩ cr' wg' = true → s.starts ⟨core, sl⟩ cr' = true →
      let rank := fun (c : Crew) (g : Wg) => if c.pause ≠ 0 then 4 else 3 - min 3 g.cls
      let last := fun (c : Crew) => (c.lastIssue.map (· + 1)).getD 0
      rank cr wg < rank cr' wg' ∨ (rank cr wg = rank cr' wg' ∧
        (last cr < last cr' ∨ (last cr = last cr' ∧ key.slot ≤ sl))))

/-- Words written out from the spec's own encodings, and what they decode to: IADD with two registers and with an
immediate, IMAD, R85's FADD, BXC, NEXT, CALLI, an ordered load, an atomic, a wait, a copy, an enqueue, a meter read; and two
words that do not decode. -/
def Obligations.DecodesSpecWords : Prop :=
  ∀ e ∈ specWords, (decodeBytes e.1.length e.1).toOption = e.2.map (fun i => (i, e.1.length))

/-- Decoding the encoded words of a well-formed instruction gives it back, for every constructor that has an encoding and every
operand value that its encoding admits (R69-R85 and the encoding tables). -/
def Obligations.DecodeEncode : Prop :=
  ∀ i : Instr, i.encoded = true → i.wf = true → ∃ bs, encode i = some bs ∧ decodeBytes bs.length bs = .ok (i, bs.length)

/-- Whatever a step does, storage keeps its canonical form and the throttle's bounds stay within 1 and 4 of 4 (R28).
The canonical form of storage is the model's own (assumption 6). -/
def Obligations.StepKeepsInv : Prop := ∀ s t, s.Inv → step s = .next t → t.Inv

/-- What reset leaves (R206, R320, R343, R404): caches, TLBs, stash windows, macros and the rule-value file empty or zero,
the counters and the meters at 0, every system register 0 but the die caps; no workgroup, crew, command, launch or queue; and
the invariant. -/
def Obligations.ResetState : Prop :=
  let s := State.reset
  s.Inv ∧ s.launches = [] ∧ s.queues = [] ∧ s.saved = [] ∧ s.tlb = [] ∧ s.l2 = [] ∧ s.house = 0 ∧ s.boot.next = 0 ∧
  (∀ c, let co := s.core c
    co.crews = [] ∧ co.wgs = [] ∧ co.windows = [] ∧ co.cmds = [] ∧ co.grainer = none ∧ co.fenced = false ∧
      (∀ ctx lva, co.l1Find ctx lva = none) ∧ co.icache = [] ∧ (∀ i < 8, co.pmcnt.getD i 1 = 0 ∧ co.pmsel.getD i 1 = 0) ∧
      (∀ i < 8, ∀ k, kget 0 k (co.cim.getD i CimMac.zero).cells = 0) ∧ (∀ k, kget 0 k co.rvf = 0) ∧
      (∀ f, ((kfind f co.grants).getD { rem := 0, debt := 0 }) = { rem := 0, debt := 0 })) ∧
  (∀ k, s.crew? k = none) ∧ (∀ c w, s.wg? c w = none) ∧ (∀ d < 5, s.domains.getD d Domain.zero = Domain.zero) ∧
  (∀ num sel, s.sysreg num sel = if 0x12 ≤ num ∧ num ≤ 0x15 then 65000000 else 0)

/-- Who takes part in an instruction, by thread (R11, R72, R73, R160); any well-formed instruction but NEXT and REGROUP in which none
does, whose word has no fault of its own, changes nothing but the crew's position and the ac of its issue (R11, R77), save that a
transfer of control, or RTE, lands every fixed-latency write (R76);
and the frame of the ways of retiring that the statements about instructions lead to: beside the meters, only the crew's
position, flags, owed writes, FPS and CST change, and every byte of memory, every register that holds a value and every other
crew stay as they were. The writes of a fixed-latency instruction land at the latest when its delay has passed (R75), those of
another at its completion. That the first land then and not before, and the second at the event, whenever it comes, is the model's
choice (assumptions 4, 5). -/
def Obligations.IssueAndRetire : Prop :=
  ∀ h s x s1, s.begin h = some (x, s1) →
    (x.crew.replay = none → x.crew.hmode = false → ∀ t < 64, x.crew.owedP t h.pg.toNat = [] → x.crew.owedQ h.pg.toNat = [] →
      let th := x.crew.thr t
      let g := if h.pg = 7 then true else if h.uni then x.crew.landedQ h.pg.toNat else x.crew.landedP t h.pg.toNat
      (x.mask.getLsbD t = true ↔ th.exited = false ∧ th.held = false ∧ th.region = x.crew.cr ∧
        x.crew.sset.getLsbD th.block = true ∧ (h.bt = 31 ∨ h.bt.toNat = th.block) ∧ g ≠ h.pn)) ∧
    (x.idle = true → ∀ i, i.hdr? = some h → i.wf = true → (∀ h, i ≠ .next h) → (∀ h a n, i ≠ .regroup h a n) →
      x.kernel.numbersOk i = true → x.kernel.fieldsOk x.crew.hmode i = true →
      exec i s = .next (if i.transfers = true ∨ i = .rte h then retireIdleCtl x s1 else retireIdle x s1)) ∧
    (∀ cls delay dst ws fps sat u, u ∈ [retireFixed x s1 cls delay dst ws fps sat, retireVar x s1 cls dst ws fps sat,
        retireNone x s1 cls, retireIdle x s1] →
      RetireFrame x s u) ∧
    (∃ cr, (retireIdle x s1).crew? x.key = some cr ∧ cr = { x.crew with pos := x.next, replay := none, bpSkip := false }) ∧
    (∃ cr, (retireIdleCtl x s1).crew? x.key = some cr ∧ cr.pos = x.next ∧ cr.threads = x.crew.landFixed.threads ∧
      cr.owed = x.crew.owed.filter (fun o => o.due.isNone)) ∧
    (∀ cls delay dst ws fps sat, x.replaying = false →
      (∃ cr o, (retireFixed x s1 cls delay dst ws fps sat).crew? x.key = some cr ∧ cr.owed = x.crew.owed ++ [o] ∧
        o.writes = ws ∧ o.due = some (s.now + if h.uni then 2 else delay)) ∧
      (∃ cr o, (retireVar x s1 cls dst ws fps sat).crew? x.key = some cr ∧ cr.owed = x.crew.owed ++ [o] ∧
        o.writes = ws ∧ o.due = none ∧ o.fps = fps ∧ o.sat = sat))
end

