-- ==== Sys2Proof/Laws/Compute.lean ====
section
/-! SUPPORT. What an instruction of groups 0x0-0x6 does, once for all of them: the loop over lanes as one list of writes, and
the outcome of `compute` where its operands are in range and no exception traps. -/

namespace Sys2Proof.Machine

open Sys2Proof

theorem joinRes_ws (l : List Res) : (joinRes l).ws = l.flatMap Res.ws := by
  induction l with
  | nil => rfl
  | cons r t ih => simp [joinRes, ih]

theorem joinRes_fps (l : List Res) : (joinRes l).fps = l.foldr (fun r a => r.fps ||| a) 0 := by
  induction l with
  | nil => rfl
  | cons r t ih => simp [joinRes, ih]

theorem joinRes_sat (l : List Res) : (joinRes l).sat = l.any Res.sat := by
  induction l with
  | nil => rfl
  | cons r t ih => simp [joinRes, ih]

theorem joinRes_fps_zero (l : List Res) (h : ∀ r ∈ l, r.fps = 0) : (joinRes l).fps = 0 := by
  induction l with
  | nil => rfl
  | cons r t ih =>
    have h0 := h r (by simp)
    have h1 := ih (fun r hr => h r (by simp [hr]))
    simp [joinRes, h0, h1]

theorem loop_eq (x : Cx) (f : Nat → Res) :
    x.loop f = .done (x.lanes.flatMap (fun t => (f t).ws)) (joinRes (x.lanes.map f)).fps
      (x.lanes.any (fun t => (f t).sat)) := by
  simp [Cx.loop, joinRes_ws, joinRes_sat, List.flatMap_map, List.any_map, Function.comp_def]

theorem joinRes_map_fps (l : List Nat) (f : Nat → Res) :
    (joinRes (l.map f)).fps = l.foldr (fun t a => (f t).fps ||| a) 0 := by
  induction l with
  | nil => rfl
  | cons t l ih => simp [joinRes, ih]

/-- A loop whose threads raise no exception. -/
theorem loop_quiet (x : Cx) (f : Nat → Res) (h : ∀ t, (f t).fps = 0) :
    x.loop f = .done (x.lanes.flatMap (fun t => (f t).ws)) 0 (x.lanes.any (fun t => (f t).sat)) := by
  rw [loop_eq, joinRes_fps_zero]
  intro r hr
  obtain ⟨t, _, rfl⟩ := List.mem_map.mp hr
  exact h t

theorem loopW_eq (x : Cx) (f : Nat → List RegWrite) : x.loopW f = .done (x.lanes.flatMap f) 0 false := by
  rw [Cx.loopW, loop_quiet _ _ (fun _ => rfl)]
  simp [Res.ofWrites]

/-- What `compute` gives where the operands are in range, something executes, and no enabled exception is raised. -/
theorem compute_done {h : Hdr} {s s1 : State} {x : Cx} {ok : Kernel → Bool} {cls : Nat} {delay : Option Nat} {dst : Dest}
    {body : Cx → Eff} {ws : List RegWrite} {fps : Fps} {sat : Bool}
    (hb : s.begin h = some (x, s1)) (hi : x.idle = false) (hk : ok x.kernel = true)
    (hd : body x = .done ws fps sat) (hf : fps &&& x.kernel.fpEnables = 0) :
    compute h s ok cls delay dst body = .next (match delay with
      | some n => retireFixed x s1 cls n dst ws fps sat
      | none => retireVar x s1 cls dst ws fps sat) := by
  cases delay <;> simp [compute, withCx, hb, computeOn, hk, hi, hd, hf]

/-- What `compute` gives for a loop, whether or not an enabled exception is raised (R100). -/
theorem compute_loop {h : Hdr} {s s1 : State} {x : Cx} {ok : Kernel → Bool} {cls : Nat} {delay : Option Nat} {dst : Dest}
    {body : Cx → Eff} {f : Nat → Res}
    (hb : s.begin h = some (x, s1)) (hi : x.idle = false) (hk : ok x.kernel = true) (hd : body x = x.loop f) :
    compute h s ok cls delay dst body = .next (
      let fps := x.lanes.foldr (fun t a => (f t).fps ||| a) 0
      if fps &&& x.kernel.fpEnables != 0 then x.fpTrap s1 cls fps
      else match delay with
        | some n => retireFixed x s1 cls n dst (x.lanes.flatMap (fun t => (f t).ws)) fps (x.lanes.any (fun t => (f t).sat))
        | none => retireVar x s1 cls dst (x.lanes.flatMap (fun t => (f t).ws)) fps (x.lanes.any (fun t => (f t).sat))) := by
  simp only [compute, withCx, hb, computeOn, hk, hi, hd, loop_eq, joinRes_map_fps]
  rfl

/-- An operand out of range: the illegal-operand fault, whether or not a thread takes part (R89). -/
theorem compute_bad {h : Hdr} {s s1 : State} {x : Cx} {ok : Kernel → Bool} {cls : Nat} {delay : Option Nat} {dst : Dest}
    {body : Cx → Eff} (hb : s.begin h = some (x, s1)) (hk : ok x.kernel = false) :
    compute h s ok cls delay dst body = .next (x.badOperand s1) := by
  simp [compute, withCx, hb, computeOn, hk]

/-- No thread takes part (R11, R77). -/
theorem compute_idle {h : Hdr} {s s1 : State} {x : Cx} {ok : Kernel → Bool} {cls : Nat} {delay : Option Nat} {dst : Dest}
    {body : Cx → Eff} (hb : s.begin h = some (x, s1)) (hk : ok x.kernel = true) (hi : x.idle = true) :
    compute h s ok cls delay dst body = .next (retireIdle x s1) := by
  simp [compute, withCx, hb, computeOn, hk, hi]

/-! ## Lanes -/

theorem joinLanes_lane (w : Nat) (l : List Nat) (k : Nat) (hk : k < l.length) :
    joinLanes w l / 2 ^ (w * k) % 2 ^ w = l[k] % 2 ^ w := by
  induction l generalizing k with
  | nil => simp at hk
  | cons a t ih =>
    have hw : 0 < 2 ^ w := Nat.two_pow_pos w
    cases k with
    | zero => simp [joinLanes, Nat.add_mul_mod_self_left]
    | succ k =>
      have hk' : k < t.length := by simpa using hk
      have e : 2 ^ (w * (k + 1)) = 2 ^ w * 2 ^ (w * k) := by rw [Nat.mul_succ, Nat.add_comm, Nat.pow_add]
      rw [joinLanes, e, ← Nat.div_div_eq_div_mul, Nat.add_mul_div_left _ _ hw,
        Nat.div_eq_of_lt (Nat.mod_lt _ hw), Nat.zero_add]
      simpa using ih k hk'

/-- Lanes that do not clamp. -/
theorem lanes_quiet (x : Cx) (ty : IntTy) (d : Reg) (g : Nat → Nat → LaneOut) (hs : ∀ t k, (g t k).2 = false) :
    x.loop (fun t => lanesOut t ty d (g t)) =
      .done (x.lanes.flatMap (fun t => wrTy t ty d (joinLanes ty.width ((List.range ty.lanes).map (fun k => (g t k).1)))))
        0 false := by
  have e (t : Nat) : (lanesOut t ty d (g t)).sat = false := by
    simp only [lanesOut, List.any_map, List.any_eq_false]
    intro k _
    simp [hs]
  rw [loop_quiet _ _ (fun _ => rfl)]
  have q : x.lanes.any (fun t => (lanesOut t ty d (g t)).sat) = false := by
    rw [List.any_eq_false]
    intro t _
    simp [e]
  rw [q]
  simp [lanesOut, List.map_map, Function.comp_def]

/-- The value that lanes make, lane by lane. -/
theorem joinLanes_range (w n : Nat) (g : Nat → Nat) (k : Nat) (hk : k < n) :
    joinLanes w ((List.range n).map g) / 2 ^ (w * k) % 2 ^ w = g k % 2 ^ w := by
  rw [joinLanes_lane _ _ _ (by simpa using hk)]
  simp

theorem truncW_lt (w : Nat) (x : Int) : truncW w x < 2 ^ w := by
  unfold truncW
  have h : (0 : Int) < 2 ^ w := by positivity
  have h1 := Int.emod_lt_of_pos x h
  have h0 := Int.emod_nonneg x (ne_of_gt h)
  have : ((x % 2 ^ w).toNat : Int) < 2 ^ w := by rw [Int.toNat_of_nonneg h0]; exact h1
  exact_mod_cast this

theorem truncW_cast (w : Nat) (x : Int) : ((truncW w x : Nat) : Int) = x % 2 ^ w := by
  unfold truncW
  exact Int.toNat_of_nonneg (Int.emod_nonneg x (by positivity))

end Sys2Proof.Machine
end

