-- ==== Sys2Proof/Laws/Maps.lean ====
section
/-! SUPPORT. The laws of the stores: reading after writing, the order of keys kept, and the canonical form of storage kept by
every operation that writes it. -/

namespace Sys2Proof.Machine

open Sys2Proof

variable {α : Type}

/-! ## Reading after writing: of any list, sorted or not -/

theorem kfind_kput (k j : Nat) (v : α) (m : KMap α) : kfind j (kput k v m) = if j = k then some v else kfind j m := by
  induction m with
  | nil => by_cases h : k = j <;> simp [kput, kfind, h, eq_comm]
  | cons e t ih =>
    obtain ⟨a, w⟩ := e
    unfold kput
    split
    · by_cases h : k = j <;> simp [kfind, h, eq_comm]
    · split
      · rename_i h1 h2
        subst h2
        by_cases h : k = j <;> simp [kfind, h, eq_comm]
      · rename_i h1 h2
        simp only [kfind, ih]
        by_cases h : j = k
        · subst h; simp [Ne.symm h2]
        · simp [h]

@[simp] theorem kfind_kput_self (k : Nat) (v : α) (m : KMap α) : kfind k (kput k v m) = some v := by simp [kfind_kput]

theorem kfind_kput_ne {k j : Nat} (h : j ≠ k) (v : α) (m : KMap α) : kfind j (kput k v m) = kfind j m := by
  simp [kfind_kput, h]

theorem kfind_kdel (k j : Nat) (m : KMap α) : kfind j (kdel k m) = if j = k then none else kfind j m := by
  induction m with
  | nil => simp [kdel, kfind]
  | cons e t ih =>
    obtain ⟨a, w⟩ := e
    by_cases ha : a = k
    · subst ha
      have : kdel a ((a, w) :: t) = kdel a t := by simp [kdel]
      rw [this, ih]
      by_cases h : j = a
      · simp [h]
      · simp [h, kfind, Ne.symm h]
    · have : kdel k ((a, w) :: t) = (a, w) :: kdel k t := by simp [kdel, ha]
      rw [this]
      simp only [kfind, ih]
      by_cases h : a = j
      · subst h; simp [ha]
      · simp [h]

theorem kget_kset [DecidableEq α] (d : α) (k j : Nat) (v : α) (m : KMap α) :
    kget d j (kset d k v m) = if j = k then v else kget d j m := by
  unfold kset kget
  split
  · rename_i h
    rw [kfind_kdel]
    by_cases hj : j = k <;> simp [hj, h]
  · rw [kfind_kput]
    by_cases hj : j = k <;> simp [hj]

@[simp] theorem kget_kset_self [DecidableEq α] (d : α) (k : Nat) (v : α) (m : KMap α) : kget d k (kset d k v m) = v := by
  simp [kget_kset]

theorem kget_kset_ne [DecidableEq α] (d : α) {k j : Nat} (h : j ≠ k) (v : α) (m : KMap α) :
    kget d j (kset d k v m) = kget d j m := by simp [kget_kset, h]

/-! ## Keys strictly rising -/

theorem ksorted_iff (m : KMap α) : ksorted m = true ↔ m.Pairwise (fun a b => a.1 < b.1) := by
  induction m with
  | nil => simp [ksorted]
  | cons a t ih =>
    cases t with
    | nil => simp [ksorted]
    | cons b u =>
      obtain ⟨x, v⟩ := a
      obtain ⟨y, w⟩ := b
      simp only [ksorted, Bool.and_eq_true, decide_eq_true_eq, ih, List.pairwise_cons, List.mem_cons, forall_eq_or_imp]
      constructor
      · rintro ⟨h, h1, h2⟩
        exact ⟨⟨h, fun e he => Nat.lt_trans h (h1 e he)⟩, h1, h2⟩
      · rintro ⟨⟨h, -⟩, h1, h2⟩
        exact ⟨h, h1, h2⟩

theorem mem_kput {k : Nat} {v : α} {m : KMap α} {e : Nat × α} (h : e ∈ kput k v m) : e = (k, v) ∨ e ∈ m := by
  induction m with
  | nil => simpa [kput] using h
  | cons a t ih =>
    obtain ⟨x, w⟩ := a
    unfold kput at h
    split at h
    · simpa using h
    · split at h
      · simp only [List.mem_cons] at h ⊢
        exact h.imp_right .inr
      · simp only [List.mem_cons] at h ⊢
        rcases h with h | h
        · exact .inr (.inl h)
        · exact (ih h).imp_right .inr

theorem ksorted_kput (k : Nat) (v : α) (m : KMap α) (h : ksorted m = true) : ksorted (kput k v m) = true := by
  rw [ksorted_iff] at h ⊢
  induction m with
  | nil => simp [kput]
  | cons a t ih =>
    obtain ⟨x, w⟩ := a
    rw [List.pairwise_cons] at h
    unfold kput
    split
    · rename_i hk
      simp only [List.pairwise_cons, List.mem_cons, forall_eq_or_imp]
      exact ⟨⟨hk, fun e he => Nat.lt_trans hk (h.1 e he)⟩, h.1, h.2⟩
    · split
      · rename_i hk
        subst hk
        exact List.pairwise_cons.mpr ⟨h.1, h.2⟩
      · rename_i h1 h2
        refine List.pairwise_cons.mpr ⟨fun e he => ?_, ih h.2⟩
        rcases mem_kput he with rfl | he
        · simp only; omega
        · exact h.1 e he

theorem ksorted_filter (p : Nat × α → Bool) (m : KMap α) (h : ksorted m = true) : ksorted (m.filter p) = true := by
  rw [ksorted_iff] at h ⊢
  exact h.filter p

/-! ## The canonical form of storage -/

theorem Memory.wf_kset (k : Nat) (b : Byte) (m : Memory) (h : Memory.wf m = true) : Memory.wf (kset 0 k b m) = true := by
  unfold Memory.wf at h ⊢
  rw [Bool.and_eq_true, List.all_eq_true] at h ⊢
  unfold kset
  split
  · exact ⟨ksorted_filter _ _ h.1, fun e he => h.2 e (List.mem_of_mem_filter he)⟩
  · rename_i hb
    refine ⟨ksorted_kput _ _ _ h.1, fun e he => ?_⟩
    rcases mem_kput he with rfl | he
    · simpa using hb
    · exact h.2 e he

theorem Memory.wf_ksets (ws : List (Nat × Byte)) (m : Memory) (h : Memory.wf m = true) :
    Memory.wf (ws.foldl (fun m w => kset 0 w.1 w.2 m) m) = true := by
  induction ws generalizing m with
  | nil => exact h
  | cons w t ih => exact ih _ (Memory.wf_kset _ _ _ h)

theorem Memory.wf_kputBytes (l : List Byte) (k : Nat) (m : Memory) (h : Memory.wf m = true) :
    Memory.wf (kputBytes m k l) = true := by
  induction l generalizing k m with
  | nil => exact h
  | cons b t ih => exact ih _ _ (Memory.wf_kset _ _ _ h)

/-- A block that is held under another key keeps the canonical form (R183). -/
theorem State.rekey_wf (s : State) (key : Option Nat) (b : Nat) (h : Memory.wf s.mem = true) :
    Memory.wf (s.rekey key b).mem = true := by
  unfold State.rekey
  split
  · exact h
  · exact Memory.wf_kputBytes _ _ _ h

theorem State.rekeys_wf (key : Option Nat) (l : List Nat) (s : State) (h : Memory.wf s.mem = true) :
    Memory.wf (l.foldl (fun s b => State.rekey s key b) s).mem = true := by
  induction l generalizing s with
  | nil => exact h
  | cons b t ih => exact ih _ (State.rekey_wf s key b h)

/-- A write of storage keeps the canonical form (R231). -/
theorem State.store_wf (s : State) (key : Option Nat) (ws : List (Nat × Byte)) (bad : Nat → Bool)
    (h : Memory.wf s.mem = true) : Memory.wf (s.store key ws bad).mem = true :=
  Memory.wf_ksets ws _ (State.rekeys_wf key _ s h)

/-- Clearing DRAM at start-up keeps it (R453 step 3). -/
theorem State.clearDram_wf (s : State) (h : Memory.wf s.mem = true) : Memory.wf s.clearDram.mem = true := by
  unfold Memory.wf at h ⊢
  rw [Bool.and_eq_true, List.all_eq_true] at h ⊢
  exact ⟨ksorted_filter _ _ h.1, fun e he => h.2 e (List.mem_of_mem_filter he)⟩

/-- Reset's storage is in canonical form. -/
theorem State.reset_wf : Memory.wf State.reset.mem = true := rfl

/-- A block that is held under the key already is left as it is. -/
theorem State.rekey_same (s : State) (key : Option Nat) (b : Nat) (h : kfind b s.crypt = key) : s.rekey key b = s := by
  simp [State.rekey, h]

theorem State.rekeys_same (key : Option Nat) (l : List Nat) (s : State) (h : ∀ b ∈ l, kfind b s.crypt = key) :
    l.foldl (fun s b => State.rekey s key b) s = s := by
  induction l with
  | nil => rfl
  | cons b t ih =>
    simp only [List.mem_cons, forall_eq_or_imp] at h
    rw [List.foldl_cons, State.rekey_same s key b h.1, ih h.2]

theorem mem_sins {k e : Nat} {l : List Nat} (h : e ∈ sins k l) : e = k ∨ e ∈ l := by
  induction l with
  | nil => simpa [sins] using h
  | cons a t ih =>
    unfold sins at h
    split at h
    · simpa using h
    · split at h
      · exact .inr h
      · rcases List.mem_cons.mp h with h | h
        · exact .inr (by simp [h])
        · exact (ih h).imp_right (List.mem_cons_of_mem a)

theorem mem_sinsAll {e : Nat} (l : List Nat) (acc : List Nat) (h : e ∈ l.foldl (fun l b => sins b l) acc) : e ∈ l ∨ e ∈ acc := by
  induction l generalizing acc with
  | nil => exact .inr h
  | cons a t ih =>
    rcases ih _ h with h | h
    · exact .inl (List.mem_cons_of_mem a h)
    · exact (mem_sins h).imp (fun h => by simp [h]) id

/-- A write of storage whose blocks are held under its key leaves every byte outside it as it was. -/
theorem State.store_byteAt_ne (s : State) (key : Option Nat) (ws : List (Nat × Byte)) (bad : Nat → Bool) (k : Nat)
    (hk : ∀ w ∈ ws, kfind (w.1 / 16) s.crypt = key) (h : ∀ w ∈ ws, w.1 ≠ k) :
    (s.store key ws bad).byteAt k = s.byteAt k := by
  have e := State.rekeys_same key ((ws.map (fun w => w.1 / 16)).foldl (fun l b => sins b l) []) s (by
    intro b hb
    rcases mem_sinsAll _ _ hb with hb | hb
    · obtain ⟨w, hw, rfl⟩ := List.mem_map.mp hb
      exact hk w hw
    · simp at hb)
  simp only [State.store, e]
  show kget 0 k (ws.foldl (fun m w => kset 0 w.1 w.2 m) s.mem) = kget 0 k s.mem
  generalize s.mem = m
  clear hk e
  induction ws generalizing m with
  | nil => rfl
  | cons w t ih =>
    simp only [List.mem_cons, forall_eq_or_imp] at h
    rw [List.foldl_cons, ih h.2, kget_kset_ne 0 (Ne.symm h.1)]

/-- What is written last at a key is what it reads as under that key. -/
theorem State.store_byteAt (s : State) (key : Option Nat) (ws : List (Nat × Byte)) (k : Nat) (b : Byte) (bad : Nat → Bool) :
    (s.store key (ws ++ [(k, b)]) bad).byteAt k = b := by
  simp [State.store, State.byteAt]

end Sys2Proof.Machine
end

