-- ==== Sys2Proof/Laws/State.lean ====
section
/-! SUPPORT. The fields of the state, of a crew and of a core after each named update: one lemma per field that the update
leaves as it was, and one for each that it writes. -/

namespace Sys2Proof.Machine

open Sys2Proof

/-! ## Updates of the state -/

@[simp] theorem State.setCore_agenda (s : State) (c : Nat) (x : Core) : (s.setCore c x).agenda = s.agenda := rfl
@[simp] theorem State.setCore_cur (s : State) (c : Nat) (x : Core) : (s.setCore c x).cur = s.cur := rfl
@[simp] theorem State.setCore_fresh (s : State) (c : Nat) (x : Core) : (s.setCore c x).fresh = s.fresh := rfl
@[simp] theorem State.setCore_blocked (s : State) (c : Nat) (x : Core) : (s.setCore c x).blocked = s.blocked := rfl
@[simp] theorem State.setCore_out (s : State) (c : Nat) (x : Core) : (s.setCore c x).out = s.out := rfl
@[simp] theorem State.setCore_mem (s : State) (c : Nat) (x : Core) : (s.setCore c x).mem = s.mem := rfl
@[simp] theorem State.setCore_poison (s : State) (c : Nat) (x : Core) : (s.setCore c x).poison = s.poison := rfl
@[simp] theorem State.setCore_crypt (s : State) (c : Nat) (x : Core) : (s.setCore c x).crypt = s.crypt := rfl
@[simp] theorem State.setCore_flight (s : State) (c : Nat) (x : Core) : (s.setCore c x).flight = s.flight := rfl
@[simp] theorem State.setCore_failed (s : State) (c : Nat) (x : Core) : (s.setCore c x).failed = s.failed := rfl
@[simp] theorem State.setCore_l2 (s : State) (c : Nat) (x : Core) : (s.setCore c x).l2 = s.l2 := rfl
@[simp] theorem State.setCore_hostHeld (s : State) (c : Nat) (x : Core) : (s.setCore c x).hostHeld = s.hostHeld := rfl
@[simp] theorem State.setCore_tlb (s : State) (c : Nat) (x : Core) : (s.setCore c x).tlb = s.tlb := rfl
@[simp] theorem State.setCore_refclk (s : State) (c : Nat) (x : Core) : (s.setCore c x).refclk = s.refclk := rfl
@[simp] theorem State.setCore_sub (s : State) (c : Nat) (x : Core) : (s.setCore c x).sub = s.sub := rfl
@[simp] theorem State.setCore_sysregs (s : State) (c : Nat) (x : Core) : (s.setCore c x).sysregs = s.sysregs := rfl
@[simp] theorem State.setCore_accounts (s : State) (c : Nat) (x : Core) : (s.setCore c x).accounts = s.accounts := rfl
@[simp] theorem State.setCore_confAcc (s : State) (c : Nat) (x : Core) : (s.setCore c x).confAcc = s.confAcc := rfl
@[simp] theorem State.setCore_panHold (s : State) (c : Nat) (x : Core) : (s.setCore c x).panHold = s.panHold := rfl
@[simp] theorem State.setCore_house (s : State) (c : Nat) (x : Core) : (s.setCore c x).house = s.house := rfl
@[simp] theorem State.setCore_lateAcc (s : State) (c : Nat) (x : Core) : (s.setCore c x).lateAcc = s.lateAcc := rfl
@[simp] theorem State.setCore_panEn (s : State) (c : Nat) (x : Core) : (s.setCore c x).panEn = s.panEn := rfl
@[simp] theorem State.setCore_domains (s : State) (c : Nat) (x : Core) : (s.setCore c x).domains = s.domains := rfl
@[simp] theorem State.setCore_substrate (s : State) (c : Nat) (x : Core) : (s.setCore c x).substrate = s.substrate := rfl
@[simp] theorem State.setCore_sensed (s : State) (c : Nat) (x : Core) : (s.setCore c x).sensed = s.sensed := rfl
@[simp] theorem State.setCore_throttle (s : State) (c : Nat) (x : Core) : (s.setCore c x).throttle = s.throttle := rfl
@[simp] theorem State.setCore_pod (s : State) (c : Nat) (x : Core) : (s.setCore c x).pod = s.pod := rfl
@[simp] theorem State.setCore_links (s : State) (c : Nat) (x : Core) : (s.setCore c x).links = s.links := rfl
@[simp] theorem State.setCore_boot (s : State) (c : Nat) (x : Core) : (s.setCore c x).boot = s.boot := rfl
@[simp] theorem State.setCore_msixOpen (s : State) (c : Nat) (x : Core) : (s.setCore c x).msixOpen = s.msixOpen := rfl
@[simp] theorem State.setCore_msixPend (s : State) (c : Nat) (x : Core) : (s.setCore c x).msixPend = s.msixPend := rfl
@[simp] theorem State.setCore_errCount (s : State) (c : Nat) (x : Core) : (s.setCore c x).errCount = s.errCount := rfl
@[simp] theorem State.setCore_parts (s : State) (c : Nat) (x : Core) : (s.setCore c x).parts = s.parts := rfl
@[simp] theorem State.setCore_funcParts (s : State) (c : Nat) (x : Core) : (s.setCore c x).funcParts = s.funcParts := rfl
@[simp] theorem State.setCore_rotation (s : State) (c : Nat) (x : Core) : (s.setCore c x).rotation = s.rotation := rfl
@[simp] theorem State.setCore_launches (s : State) (c : Nat) (x : Core) : (s.setCore c x).launches = s.launches := rfl
@[simp] theorem State.setCore_queues (s : State) (c : Nat) (x : Core) : (s.setCore c x).queues = s.queues := rfl
@[simp] theorem State.setCore_visit (s : State) (c : Nat) (x : Core) : (s.setCore c x).visit = s.visit := rfl
@[simp] theorem State.setCore_saved (s : State) (c : Nat) (x : Core) : (s.setCore c x).saved = s.saved := rfl
@[simp] theorem State.setCore_objects (s : State) (c : Nat) (x : Core) : (s.setCore c x).objects = s.objects := rfl
@[simp] theorem State.setCore_nextLaunch (s : State) (c : Nat) (x : Core) : (s.setCore c x).nextLaunch = s.nextLaunch := rfl
@[simp] theorem State.setCore_nextHandle (s : State) (c : Nat) (x : Core) : (s.setCore c x).nextHandle = s.nextHandle := rfl
@[simp] theorem State.setCore_nextSaved (s : State) (c : Nat) (x : Core) : (s.setCore c x).nextSaved = s.nextSaved := rfl
@[simp] theorem State.setCore_fqFailed (s : State) (c : Nat) (x : Core) : (s.setCore c x).fqFailed = s.fqFailed := rfl
@[simp] theorem State.setCore_fqPend (s : State) (c : Nat) (x : Core) : (s.setCore c x).fqPend = s.fqPend := rfl
@[simp] theorem State.setCore_liveCtx (s : State) (c : Nat) (x : Core) : (s.setCore c x).liveCtx = s.liveCtx := rfl

@[simp] theorem State.modCore_agenda (s : State) (c : Nat) (f : Core → Core) : (s.modCore c f).agenda = s.agenda := rfl
@[simp] theorem State.modCore_cur (s : State) (c : Nat) (f : Core → Core) : (s.modCore c f).cur = s.cur := rfl
@[simp] theorem State.modCore_fresh (s : State) (c : Nat) (f : Core → Core) : (s.modCore c f).fresh = s.fresh := rfl
@[simp] theorem State.modCore_blocked (s : State) (c : Nat) (f : Core → Core) : (s.modCore c f).blocked = s.blocked := rfl
@[simp] theorem State.modCore_out (s : State) (c : Nat) (f : Core → Core) : (s.modCore c f).out = s.out := rfl
@[simp] theorem State.modCore_mem (s : State) (c : Nat) (f : Core → Core) : (s.modCore c f).mem = s.mem := rfl
@[simp] theorem State.modCore_poison (s : State) (c : Nat) (f : Core → Core) : (s.modCore c f).poison = s.poison := rfl
@[simp] theorem State.modCore_crypt (s : State) (c : Nat) (f : Core → Core) : (s.modCore c f).crypt = s.crypt := rfl
@[simp] theorem State.modCore_flight (s : State) (c : Nat) (f : Core → Core) : (s.modCore c f).flight = s.flight := rfl
@[simp] theorem State.modCore_failed (s : State) (c : Nat) (f : Core → Core) : (s.modCore c f).failed = s.failed := rfl
@[simp] theorem State.modCore_l2 (s : State) (c : Nat) (f : Core → Core) : (s.modCore c f).l2 = s.l2 := rfl
@[simp] theorem State.modCore_hostHeld (s : State) (c : Nat) (f : Core → Core) : (s.modCore c f).hostHeld = s.hostHeld := rfl
@[simp] theorem State.modCore_tlb (s : State) (c : Nat) (f : Core → Core) : (s.modCore c f).tlb = s.tlb := rfl
@[simp] theorem State.modCore_refclk (s : State) (c : Nat) (f : Core → Core) : (s.modCore c f).refclk = s.refclk := rfl
@[simp] theorem State.modCore_sub (s : State) (c : Nat) (f : Core → Core) : (s.modCore c f).sub = s.sub := rfl
@[simp] theorem State.modCore_sysregs (s : State) (c : Nat) (f : Core → Core) : (s.modCore c f).sysregs = s.sysregs := rfl
@[simp] theorem State.modCore_accounts (s : State) (c : Nat) (f : Core → Core) : (s.modCore c f).accounts = s.accounts := rfl
@[simp] theorem State.modCore_confAcc (s : State) (c : Nat) (f : Core → Core) : (s.modCore c f).confAcc = s.confAcc := rfl
@[simp] theorem State.modCore_panHold (s : State) (c : Nat) (f : Core → Core) : (s.modCore c f).panHold = s.panHold := rfl
@[simp] theorem State.modCore_house (s : State) (c : Nat) (f : Core → Core) : (s.modCore c f).house = s.house := rfl
@[simp] theorem State.modCore_lateAcc (s : State) (c : Nat) (f : Core → Core) : (s.modCore c f).lateAcc = s.lateAcc := rfl
@[simp] theorem State.modCore_panEn (s : State) (c : Nat) (f : Core → Core) : (s.modCore c f).panEn = s.panEn := rfl
@[simp] theorem State.modCore_domains (s : State) (c : Nat) (f : Core → Core) : (s.modCore c f).domains = s.domains := rfl
@[simp] theorem State.modCore_substrate (s : State) (c : Nat) (f : Core → Core) : (s.modCore c f).substrate = s.substrate := rfl
@[simp] theorem State.modCore_sensed (s : State) (c : Nat) (f : Core → Core) : (s.modCore c f).sensed = s.sensed := rfl
@[simp] theorem State.modCore_throttle (s : State) (c : Nat) (f : Core → Core) : (s.modCore c f).throttle = s.throttle := rfl
@[simp] theorem State.modCore_pod (s : State) (c : Nat) (f : Core → Core) : (s.modCore c f).pod = s.pod := rfl
@[simp] theorem State.modCore_links (s : State) (c : Nat) (f : Core → Core) : (s.modCore c f).links = s.links := rfl
@[simp] theorem State.modCore_boot (s : State) (c : Nat) (f : Core → Core) : (s.modCore c f).boot = s.boot := rfl
@[simp] theorem State.modCore_msixOpen (s : State) (c : Nat) (f : Core → Core) : (s.modCore c f).msixOpen = s.msixOpen := rfl
@[simp] theorem State.modCore_msixPend (s : State) (c : Nat) (f : Core → Core) : (s.modCore c f).msixPend = s.msixPend := rfl
@[simp] theorem State.modCore_errCount (s : State) (c : Nat) (f : Core → Core) : (s.modCore c f).errCount = s.errCount := rfl
@[simp] theorem State.modCore_parts (s : State) (c : Nat) (f : Core → Core) : (s.modCore c f).parts = s.parts := rfl
@[simp] theorem State.modCore_funcParts (s : State) (c : Nat) (f : Core → Core) : (s.modCore c f).funcParts = s.funcParts := rfl
@[simp] theorem State.modCore_rotation (s : State) (c : Nat) (f : Core → Core) : (s.modCore c f).rotation = s.rotation := rfl
@[simp] theorem State.modCore_launches (s : State) (c : Nat) (f : Core → Core) : (s.modCore c f).launches = s.launches := rfl
@[simp] theorem State.modCore_queues (s : State) (c : Nat) (f : Core → Core) : (s.modCore c f).queues = s.queues := rfl
@[simp] theorem State.modCore_visit (s : State) (c : Nat) (f : Core → Core) : (s.modCore c f).visit = s.visit := rfl
@[simp] theorem State.modCore_saved (s : State) (c : Nat) (f : Core → Core) : (s.modCore c f).saved = s.saved := rfl
@[simp] theorem State.modCore_objects (s : State) (c : Nat) (f : Core → Core) : (s.modCore c f).objects = s.objects := rfl
@[simp] theorem State.modCore_nextLaunch (s : State) (c : Nat) (f : Core → Core) : (s.modCore c f).nextLaunch = s.nextLaunch := rfl
@[simp] theorem State.modCore_nextHandle (s : State) (c : Nat) (f : Core → Core) : (s.modCore c f).nextHandle = s.nextHandle := rfl
@[simp] theorem State.modCore_nextSaved (s : State) (c : Nat) (f : Core → Core) : (s.modCore c f).nextSaved = s.nextSaved := rfl
@[simp] theorem State.modCore_fqFailed (s : State) (c : Nat) (f : Core → Core) : (s.modCore c f).fqFailed = s.fqFailed := rfl
@[simp] theorem State.modCore_fqPend (s : State) (c : Nat) (f : Core → Core) : (s.modCore c f).fqPend = s.fqPend := rfl
@[simp] theorem State.modCore_liveCtx (s : State) (c : Nat) (f : Core → Core) : (s.modCore c f).liveCtx = s.liveCtx := rfl

@[simp] theorem State.setCrew_agenda (s : State) (k : CrewKey) (x : Crew) : (s.setCrew k x).agenda = s.agenda := rfl
@[simp] theorem State.setCrew_cur (s : State) (k : CrewKey) (x : Crew) : (s.setCrew k x).cur = s.cur := rfl
@[simp] theorem State.setCrew_fresh (s : State) (k : CrewKey) (x : Crew) : (s.setCrew k x).fresh = s.fresh := rfl
@[simp] theorem State.setCrew_blocked (s : State) (k : CrewKey) (x : Crew) : (s.setCrew k x).blocked = s.blocked := rfl
@[simp] theorem State.setCrew_out (s : State) (k : CrewKey) (x : Crew) : (s.setCrew k x).out = s.out := rfl
@[simp] theorem State.setCrew_mem (s : State) (k : CrewKey) (x : Crew) : (s.setCrew k x).mem = s.mem := rfl
@[simp] theorem State.setCrew_poison (s : State) (k : CrewKey) (x : Crew) : (s.setCrew k x).poison = s.poison := rfl
@[simp] theorem State.setCrew_crypt (s : State) (k : CrewKey) (x : Crew) : (s.setCrew k x).crypt = s.crypt := rfl
@[simp] theorem State.setCrew_flight (s : State) (k : CrewKey) (x : Crew) : (s.setCrew k x).flight = s.flight := rfl
@[simp] theorem State.setCrew_failed (s : State) (k : CrewKey) (x : Crew) : (s.setCrew k x).failed = s.failed := rfl
@[simp] theorem State.setCrew_l2 (s : State) (k : CrewKey) (x : Crew) : (s.setCrew k x).l2 = s.l2 := rfl
@[simp] theorem State.setCrew_hostHeld (s : State) (k : CrewKey) (x : Crew) : (s.setCrew k x).hostHeld = s.hostHeld := rfl
@[simp] theorem State.setCrew_tlb (s : State) (k : CrewKey) (x : Crew) : (s.setCrew k x).tlb = s.tlb := rfl
@[simp] theorem State.setCrew_refclk (s : State) (k : CrewKey) (x : Crew) : (s.setCrew k x).refclk = s.refclk := rfl
@[simp] theorem State.setCrew_sub (s : State) (k : CrewKey) (x : Crew) : (s.setCrew k x).sub = s.sub := rfl
@[simp] theorem State.setCrew_sysregs (s : State) (k : CrewKey) (x : Crew) : (s.setCrew k x).sysregs = s.sysregs := rfl
@[simp] theorem State.setCrew_accounts (s : State) (k : CrewKey) (x : Crew) : (s.setCrew k x).accounts = s.accounts := rfl
@[simp] theorem State.setCrew_confAcc (s : State) (k : CrewKey) (x : Crew) : (s.setCrew k x).confAcc = s.confAcc := rfl
@[simp] theorem State.setCrew_panHold (s : State) (k : CrewKey) (x : Crew) : (s.setCrew k x).panHold = s.panHold := rfl
@[simp] theorem State.setCrew_house (s : State) (k : CrewKey) (x : Crew) : (s.setCrew k x).house = s.house := rfl
@[simp] theorem State.setCrew_lateAcc (s : State) (k : CrewKey) (x : Crew) : (s.setCrew k x).lateAcc = s.lateAcc := rfl
@[simp] theorem State.setCrew_panEn (s : State) (k : CrewKey) (x : Crew) : (s.setCrew k x).panEn = s.panEn := rfl
@[simp] theorem State.setCrew_domains (s : State) (k : CrewKey) (x : Crew) : (s.setCrew k x).domains = s.domains := rfl
@[simp] theorem State.setCrew_substrate (s : State) (k : CrewKey) (x : Crew) : (s.setCrew k x).substrate = s.substrate := rfl
@[simp] theorem State.setCrew_sensed (s : State) (k : CrewKey) (x : Crew) : (s.setCrew k x).sensed = s.sensed := rfl
@[simp] theorem State.setCrew_throttle (s : State) (k : CrewKey) (x : Crew) : (s.setCrew k x).throttle = s.throttle := rfl
@[simp] theorem State.setCrew_pod (s : State) (k : CrewKey) (x : Crew) : (s.setCrew k x).pod = s.pod := rfl
@[simp] theorem State.setCrew_links (s : State) (k : CrewKey) (x : Crew) : (s.setCrew k x).links = s.links := rfl
@[simp] theorem State.setCrew_boot (s : State) (k : CrewKey) (x : Crew) : (s.setCrew k x).boot = s.boot := rfl
@[simp] theorem State.setCrew_msixOpen (s : State) (k : CrewKey) (x : Crew) : (s.setCrew k x).msixOpen = s.msixOpen := rfl
@[simp] theorem State.setCrew_msixPend (s : State) (k : CrewKey) (x : Crew) : (s.setCrew k x).msixPend = s.msixPend := rfl
@[simp] theorem State.setCrew_errCount (s : State) (k : CrewKey) (x : Crew) : (s.setCrew k x).errCount = s.errCount := rfl
@[simp] theorem State.setCrew_parts (s : State) (k : CrewKey) (x : Crew) : (s.setCrew k x).parts = s.parts := rfl
@[simp] theorem State.setCrew_funcParts (s : State) (k : CrewKey) (x : Crew) : (s.setCrew k x).funcParts = s.funcParts := rfl
@[simp] theorem State.setCrew_rotation (s : State) (k : CrewKey) (x : Crew) : (s.setCrew k x).rotation = s.rotation := rfl
@[simp] theorem State.setCrew_launches (s : State) (k : CrewKey) (x : Crew) : (s.setCrew k x).launches = s.launches := rfl
@[simp] theorem State.setCrew_queues (s : State) (k : CrewKey) (x : Crew) : (s.setCrew k x).queues = s.queues := rfl
@[simp] theorem State.setCrew_visit (s : State) (k : CrewKey) (x : Crew) : (s.setCrew k x).visit = s.visit := rfl
@[simp] theorem State.setCrew_saved (s : State) (k : CrewKey) (x : Crew) : (s.setCrew k x).saved = s.saved := rfl
@[simp] theorem State.setCrew_objects (s : State) (k : CrewKey) (x : Crew) : (s.setCrew k x).objects = s.objects := rfl
@[simp] theorem State.setCrew_nextLaunch (s : State) (k : CrewKey) (x : Crew) : (s.setCrew k x).nextLaunch = s.nextLaunch := rfl
@[simp] theorem State.setCrew_nextHandle (s : State) (k : CrewKey) (x : Crew) : (s.setCrew k x).nextHandle = s.nextHandle := rfl
@[simp] theorem State.setCrew_nextSaved (s : State) (k : CrewKey) (x : Crew) : (s.setCrew k x).nextSaved = s.nextSaved := rfl
@[simp] theorem State.setCrew_fqFailed (s : State) (k : CrewKey) (x : Crew) : (s.setCrew k x).fqFailed = s.fqFailed := rfl
@[simp] theorem State.setCrew_fqPend (s : State) (k : CrewKey) (x : Crew) : (s.setCrew k x).fqPend = s.fqPend := rfl
@[simp] theorem State.setCrew_liveCtx (s : State) (k : CrewKey) (x : Crew) : (s.setCrew k x).liveCtx = s.liveCtx := rfl

@[simp] theorem State.setWg_agenda (s : State) (c w : Nat) (x : Wg) : (s.setWg c w x).agenda = s.agenda := rfl
@[simp] theorem State.setWg_cur (s : State) (c w : Nat) (x : Wg) : (s.setWg c w x).cur = s.cur := rfl
@[simp] theorem State.setWg_fresh (s : State) (c w : Nat) (x : Wg) : (s.setWg c w x).fresh = s.fresh := rfl
@[simp] theorem State.setWg_blocked (s : State) (c w : Nat) (x : Wg) : (s.setWg c w x).blocked = s.blocked := rfl
@[simp] theorem State.setWg_out (s : State) (c w : Nat) (x : Wg) : (s.setWg c w x).out = s.out := rfl
@[simp] theorem State.setWg_mem (s : State) (c w : Nat) (x : Wg) : (s.setWg c w x).mem = s.mem := rfl
@[simp] theorem State.setWg_poison (s : State) (c w : Nat) (x : Wg) : (s.setWg c w x).poison = s.poison := rfl
@[simp] theorem State.setWg_crypt (s : State) (c w : Nat) (x : Wg) : (s.setWg c w x).crypt = s.crypt := rfl
@[simp] theorem State.setWg_flight (s : State) (c w : Nat) (x : Wg) : (s.setWg c w x).flight = s.flight := rfl
@[simp] theorem State.setWg_failed (s : State) (c w : Nat) (x : Wg) : (s.setWg c w x).failed = s.failed := rfl
@[simp] theorem State.setWg_l2 (s : State) (c w : Nat) (x : Wg) : (s.setWg c w x).l2 = s.l2 := rfl
@[simp] theorem State.setWg_hostHeld (s : State) (c w : Nat) (x : Wg) : (s.setWg c w x).hostHeld = s.hostHeld := rfl
@[simp] theorem State.setWg_tlb (s : State) (c w : Nat) (x : Wg) : (s.setWg c w x).tlb = s.tlb := rfl
@[simp] theorem State.setWg_refclk (s : State) (c w : Nat) (x : Wg) : (s.setWg c w x).refclk = s.refclk := rfl
@[simp] theorem State.setWg_sub (s : State) (c w : Nat) (x : Wg) : (s.setWg c w x).sub = s.sub := rfl
@[simp] theorem State.setWg_sysregs (s : State) (c w : Nat) (x : Wg) : (s.setWg c w x).sysregs = s.sysregs := rfl
@[simp] theorem State.setWg_accounts (s : State) (c w : Nat) (x : Wg) : (s.setWg c w x).accounts = s.accounts := rfl
@[simp] theorem State.setWg_confAcc (s : State) (c w : Nat) (x : Wg) : (s.setWg c w x).confAcc = s.confAcc := rfl
@[simp] theorem State.setWg_panHold (s : State) (c w : Nat) (x : Wg) : (s.setWg c w x).panHold = s.panHold := rfl
@[simp] theorem State.setWg_house (s : State) (c w : Nat) (x : Wg) : (s.setWg c w x).house = s.house := rfl
@[simp] theorem State.setWg_lateAcc (s : State) (c w : Nat) (x : Wg) : (s.setWg c w x).lateAcc = s.lateAcc := rfl
@[simp] theorem State.setWg_panEn (s : State) (c w : Nat) (x : Wg) : (s.setWg c w x).panEn = s.panEn := rfl
@[simp] theorem State.setWg_domains (s : State) (c w : Nat) (x : Wg) : (s.setWg c w x).domains = s.domains := rfl
@[simp] theorem State.setWg_substrate (s : State) (c w : Nat) (x : Wg) : (s.setWg c w x).substrate = s.substrate := rfl
@[simp] theorem State.setWg_sensed (s : State) (c w : Nat) (x : Wg) : (s.setWg c w x).sensed = s.sensed := rfl
@[simp] theorem State.setWg_throttle (s : State) (c w : Nat) (x : Wg) : (s.setWg c w x).throttle = s.throttle := rfl
@[simp] theorem State.setWg_pod (s : State) (c w : Nat) (x : Wg) : (s.setWg c w x).pod = s.pod := rfl
@[simp] theorem State.setWg_links (s : State) (c w : Nat) (x : Wg) : (s.setWg c w x).links = s.links := rfl
@[simp] theorem State.setWg_boot (s : State) (c w : Nat) (x : Wg) : (s.setWg c w x).boot = s.boot := rfl
@[simp] theorem State.setWg_msixOpen (s : State) (c w : Nat) (x : Wg) : (s.setWg c w x).msixOpen = s.msixOpen := rfl
@[simp] theorem State.setWg_msixPend (s : State) (c w : Nat) (x : Wg) : (s.setWg c w x).msixPend = s.msixPend := rfl
@[simp] theorem State.setWg_errCount (s : State) (c w : Nat) (x : Wg) : (s.setWg c w x).errCount = s.errCount := rfl
@[simp] theorem State.setWg_parts (s : State) (c w : Nat) (x : Wg) : (s.setWg c w x).parts = s.parts := rfl
@[simp] theorem State.setWg_funcParts (s : State) (c w : Nat) (x : Wg) : (s.setWg c w x).funcParts = s.funcParts := rfl
@[simp] theorem State.setWg_rotation (s : State) (c w : Nat) (x : Wg) : (s.setWg c w x).rotation = s.rotation := rfl
@[simp] theorem State.setWg_launches (s : State) (c w : Nat) (x : Wg) : (s.setWg c w x).launches = s.launches := rfl
@[simp] theorem State.setWg_queues (s : State) (c w : Nat) (x : Wg) : (s.setWg c w x).queues = s.queues := rfl
@[simp] theorem State.setWg_visit (s : State) (c w : Nat) (x : Wg) : (s.setWg c w x).visit = s.visit := rfl
@[simp] theorem State.setWg_saved (s : State) (c w : Nat) (x : Wg) : (s.setWg c w x).saved = s.saved := rfl
@[simp] theorem State.setWg_objects (s : State) (c w : Nat) (x : Wg) : (s.setWg c w x).objects = s.objects := rfl
@[simp] theorem State.setWg_nextLaunch (s : State) (c w : Nat) (x : Wg) : (s.setWg c w x).nextLaunch = s.nextLaunch := rfl
@[simp] theorem State.setWg_nextHandle (s : State) (c w : Nat) (x : Wg) : (s.setWg c w x).nextHandle = s.nextHandle := rfl
@[simp] theorem State.setWg_nextSaved (s : State) (c w : Nat) (x : Wg) : (s.setWg c w x).nextSaved = s.nextSaved := rfl
@[simp] theorem State.setWg_fqFailed (s : State) (c w : Nat) (x : Wg) : (s.setWg c w x).fqFailed = s.fqFailed := rfl
@[simp] theorem State.setWg_fqPend (s : State) (c w : Nat) (x : Wg) : (s.setWg c w x).fqPend = s.fqPend := rfl
@[simp] theorem State.setWg_liveCtx (s : State) (c w : Nat) (x : Wg) : (s.setWg c w x).liveCtx = s.liveCtx := rfl

@[simp] theorem State.say_agenda (s : State) (r : Reply) : (s.say r).agenda = s.agenda := rfl
@[simp] theorem State.say_cur (s : State) (r : Reply) : (s.say r).cur = s.cur := rfl
@[simp] theorem State.say_fresh (s : State) (r : Reply) : (s.say r).fresh = s.fresh := rfl
@[simp] theorem State.say_blocked (s : State) (r : Reply) : (s.say r).blocked = s.blocked := rfl
@[simp] theorem State.say_mem (s : State) (r : Reply) : (s.say r).mem = s.mem := rfl
@[simp] theorem State.say_poison (s : State) (r : Reply) : (s.say r).poison = s.poison := rfl
@[simp] theorem State.say_crypt (s : State) (r : Reply) : (s.say r).crypt = s.crypt := rfl
@[simp] theorem State.say_flight (s : State) (r : Reply) : (s.say r).flight = s.flight := rfl
@[simp] theorem State.say_failed (s : State) (r : Reply) : (s.say r).failed = s.failed := rfl
@[simp] theorem State.say_l2 (s : State) (r : Reply) : (s.say r).l2 = s.l2 := rfl
@[simp] theorem State.say_hostHeld (s : State) (r : Reply) : (s.say r).hostHeld = s.hostHeld := rfl
@[simp] theorem State.say_tlb (s : State) (r : Reply) : (s.say r).tlb = s.tlb := rfl
@[simp] theorem State.say_cores (s : State) (r : Reply) : (s.say r).cores = s.cores := rfl
@[simp] theorem State.say_refclk (s : State) (r : Reply) : (s.say r).refclk = s.refclk := rfl
@[simp] theorem State.say_sub (s : State) (r : Reply) : (s.say r).sub = s.sub := rfl
@[simp] theorem State.say_sysregs (s : State) (r : Reply) : (s.say r).sysregs = s.sysregs := rfl
@[simp] theorem State.say_accounts (s : State) (r : Reply) : (s.say r).accounts = s.accounts := rfl
@[simp] theorem State.say_confAcc (s : State) (r : Reply) : (s.say r).confAcc = s.confAcc := rfl
@[simp] theorem State.say_panHold (s : State) (r : Reply) : (s.say r).panHold = s.panHold := rfl
@[simp] theorem State.say_house (s : State) (r : Reply) : (s.say r).house = s.house := rfl
@[simp] theorem State.say_lateAcc (s : State) (r : Reply) : (s.say r).lateAcc = s.lateAcc := rfl
@[simp] theorem State.say_panEn (s : State) (r : Reply) : (s.say r).panEn = s.panEn := rfl
@[simp] theorem State.say_domains (s : State) (r : Reply) : (s.say r).domains = s.domains := rfl
@[simp] theorem State.say_substrate (s : State) (r : Reply) : (s.say r).substrate = s.substrate := rfl
@[simp] theorem State.say_sensed (s : State) (r : Reply) : (s.say r).sensed = s.sensed := rfl
@[simp] theorem State.say_throttle (s : State) (r : Reply) : (s.say r).throttle = s.throttle := rfl
@[simp] theorem State.say_pod (s : State) (r : Reply) : (s.say r).pod = s.pod := rfl
@[simp] theorem State.say_links (s : State) (r : Reply) : (s.say r).links = s.links := rfl
@[simp] theorem State.say_boot (s : State) (r : Reply) : (s.say r).boot = s.boot := rfl
@[simp] theorem State.say_msixOpen (s : State) (r : Reply) : (s.say r).msixOpen = s.msixOpen := rfl
@[simp] theorem State.say_msixPend (s : State) (r : Reply) : (s.say r).msixPend = s.msixPend := rfl
@[simp] theorem State.say_errCount (s : State) (r : Reply) : (s.say r).errCount = s.errCount := rfl
@[simp] theorem State.say_parts (s : State) (r : Reply) : (s.say r).parts = s.parts := rfl
@[simp] theorem State.say_funcParts (s : State) (r : Reply) : (s.say r).funcParts = s.funcParts := rfl
@[simp] theorem State.say_rotation (s : State) (r : Reply) : (s.say r).rotation = s.rotation := rfl
@[simp] theorem State.say_launches (s : State) (r : Reply) : (s.say r).launches = s.launches := rfl
@[simp] theorem State.say_queues (s : State) (r : Reply) : (s.say r).queues = s.queues := rfl
@[simp] theorem State.say_visit (s : State) (r : Reply) : (s.say r).visit = s.visit := rfl
@[simp] theorem State.say_saved (s : State) (r : Reply) : (s.say r).saved = s.saved := rfl
@[simp] theorem State.say_objects (s : State) (r : Reply) : (s.say r).objects = s.objects := rfl
@[simp] theorem State.say_nextLaunch (s : State) (r : Reply) : (s.say r).nextLaunch = s.nextLaunch := rfl
@[simp] theorem State.say_nextHandle (s : State) (r : Reply) : (s.say r).nextHandle = s.nextHandle := rfl
@[simp] theorem State.say_nextSaved (s : State) (r : Reply) : (s.say r).nextSaved = s.nextSaved := rfl
@[simp] theorem State.say_fqFailed (s : State) (r : Reply) : (s.say r).fqFailed = s.fqFailed := rfl
@[simp] theorem State.say_fqPend (s : State) (r : Reply) : (s.say r).fqPend = s.fqPend := rfl
@[simp] theorem State.say_liveCtx (s : State) (r : Reply) : (s.say r).liveCtx = s.liveCtx := rfl

@[simp] theorem State.setSysreg_agenda (s : State) (n i : Nat) (v : W64) : (s.setSysreg n i v).agenda = s.agenda := rfl
@[simp] theorem State.setSysreg_cur (s : State) (n i : Nat) (v : W64) : (s.setSysreg n i v).cur = s.cur := rfl
@[simp] theorem State.setSysreg_fresh (s : State) (n i : Nat) (v : W64) : (s.setSysreg n i v).fresh = s.fresh := rfl
@[simp] theorem State.setSysreg_blocked (s : State) (n i : Nat) (v : W64) : (s.setSysreg n i v).blocked = s.blocked := rfl
@[simp] theorem State.setSysreg_out (s : State) (n i : Nat) (v : W64) : (s.setSysreg n i v).out = s.out := rfl
@[simp] theorem State.setSysreg_mem (s : State) (n i : Nat) (v : W64) : (s.setSysreg n i v).mem = s.mem := rfl
@[simp] theorem State.setSysreg_poison (s : State) (n i : Nat) (v : W64) : (s.setSysreg n i v).poison = s.poison := rfl
@[simp] theorem State.setSysreg_crypt (s : State) (n i : Nat) (v : W64) : (s.setSysreg n i v).crypt = s.crypt := rfl
@[simp] theorem State.setSysreg_flight (s : State) (n i : Nat) (v : W64) : (s.setSysreg n i v).flight = s.flight := rfl
@[simp] theorem State.setSysreg_failed (s : State) (n i : Nat) (v : W64) : (s.setSysreg n i v).failed = s.failed := rfl
@[simp] theorem State.setSysreg_l2 (s : State) (n i : Nat) (v : W64) : (s.setSysreg n i v).l2 = s.l2 := rfl
@[simp] theorem State.setSysreg_hostHeld (s : State) (n i : Nat) (v : W64) : (s.setSysreg n i v).hostHeld = s.hostHeld := rfl
@[simp] theorem State.setSysreg_tlb (s : State) (n i : Nat) (v : W64) : (s.setSysreg n i v).tlb = s.tlb := rfl
@[simp] theorem State.setSysreg_cores (s : State) (n i : Nat) (v : W64) : (s.setSysreg n i v).cores = s.cores := rfl
@[simp] theorem State.setSysreg_refclk (s : State) (n i : Nat) (v : W64) : (s.setSysreg n i v).refclk = s.refclk := rfl
@[simp] theorem State.setSysreg_sub (s : State) (n i : Nat) (v : W64) : (s.setSysreg n i v).sub = s.sub := rfl
@[simp] theorem State.setSysreg_accounts (s : State) (n i : Nat) (v : W64) : (s.setSysreg n i v).accounts = s.accounts := rfl
@[simp] theorem State.setSysreg_confAcc (s : State) (n i : Nat) (v : W64) : (s.setSysreg n i v).confAcc = s.confAcc := rfl
@[simp] theorem State.setSysreg_panHold (s : State) (n i : Nat) (v : W64) : (s.setSysreg n i v).panHold = s.panHold := rfl
@[simp] theorem State.setSysreg_house (s : State) (n i : Nat) (v : W64) : (s.setSysreg n i v).house = s.house := rfl
@[simp] theorem State.setSysreg_lateAcc (s : State) (n i : Nat) (v : W64) : (s.setSysreg n i v).lateAcc = s.lateAcc := rfl
@[simp] theorem State.setSysreg_panEn (s : State) (n i : Nat) (v : W64) : (s.setSysreg n i v).panEn = s.panEn := rfl
@[simp] theorem State.setSysreg_domains (s : State) (n i : Nat) (v : W64) : (s.setSysreg n i v).domains = s.domains := rfl
@[simp] theorem State.setSysreg_substrate (s : State) (n i : Nat) (v : W64) : (s.setSysreg n i v).substrate = s.substrate := rfl
@[simp] theorem State.setSysreg_sensed (s : State) (n i : Nat) (v : W64) : (s.setSysreg n i v).sensed = s.sensed := rfl
@[simp] theorem State.setSysreg_throttle (s : State) (n i : Nat) (v : W64) : (s.setSysreg n i v).throttle = s.throttle := rfl
@[simp] theorem State.setSysreg_pod (s : State) (n i : Nat) (v : W64) : (s.setSysreg n i v).pod = s.pod := rfl
@[simp] theorem State.setSysreg_links (s : State) (n i : Nat) (v : W64) : (s.setSysreg n i v).links = s.links := rfl
@[simp] theorem State.setSysreg_boot (s : State) (n i : Nat) (v : W64) : (s.setSysreg n i v).boot = s.boot := rfl
@[simp] theorem State.setSysreg_msixOpen (s : State) (n i : Nat) (v : W64) : (s.setSysreg n i v).msixOpen = s.msixOpen := rfl
@[simp] theorem State.setSysreg_msixPend (s : State) (n i : Nat) (v : W64) : (s.setSysreg n i v).msixPend = s.msixPend := rfl
@[simp] theorem State.setSysreg_errCount (s : State) (n i : Nat) (v : W64) : (s.setSysreg n i v).errCount = s.errCount := rfl
@[simp] theorem State.setSysreg_parts (s : State) (n i : Nat) (v : W64) : (s.setSysreg n i v).parts = s.parts := rfl
@[simp] theorem State.setSysreg_funcParts (s : State) (n i : Nat) (v : W64) : (s.setSysreg n i v).funcParts = s.funcParts := rfl
@[simp] theorem State.setSysreg_rotation (s : State) (n i : Nat) (v : W64) : (s.setSysreg n i v).rotation = s.rotation := rfl
@[simp] theorem State.setSysreg_launches (s : State) (n i : Nat) (v : W64) : (s.setSysreg n i v).launches = s.launches := rfl
@[simp] theorem State.setSysreg_queues (s : State) (n i : Nat) (v : W64) : (s.setSysreg n i v).queues = s.queues := rfl
@[simp] theorem State.setSysreg_visit (s : State) (n i : Nat) (v : W64) : (s.setSysreg n i v).visit = s.visit := rfl
@[simp] theorem State.setSysreg_saved (s : State) (n i : Nat) (v : W64) : (s.setSysreg n i v).saved = s.saved := rfl
@[simp] theorem State.setSysreg_objects (s : State) (n i : Nat) (v : W64) : (s.setSysreg n i v).objects = s.objects := rfl
@[simp] theorem State.setSysreg_nextLaunch (s : State) (n i : Nat) (v : W64) : (s.setSysreg n i v).nextLaunch = s.nextLaunch := rfl
@[simp] theorem State.setSysreg_nextHandle (s : State) (n i : Nat) (v : W64) : (s.setSysreg n i v).nextHandle = s.nextHandle := rfl
@[simp] theorem State.setSysreg_nextSaved (s : State) (n i : Nat) (v : W64) : (s.setSysreg n i v).nextSaved = s.nextSaved := rfl
@[simp] theorem State.setSysreg_fqFailed (s : State) (n i : Nat) (v : W64) : (s.setSysreg n i v).fqFailed = s.fqFailed := rfl
@[simp] theorem State.setSysreg_fqPend (s : State) (n i : Nat) (v : W64) : (s.setSysreg n i v).fqPend = s.fqPend := rfl
@[simp] theorem State.setSysreg_liveCtx (s : State) (n i : Nat) (v : W64) : (s.setSysreg n i v).liveCtx = s.liveCtx := rfl

@[simp] theorem State.chargeLate_agenda (s : State) (ctx : Nat) (p : Place) (cls n : Nat) : (s.chargeLate ctx p cls n).agenda = s.agenda := rfl
@[simp] theorem State.chargeLate_cur (s : State) (ctx : Nat) (p : Place) (cls n : Nat) : (s.chargeLate ctx p cls n).cur = s.cur := rfl
@[simp] theorem State.chargeLate_fresh (s : State) (ctx : Nat) (p : Place) (cls n : Nat) : (s.chargeLate ctx p cls n).fresh = s.fresh := rfl
@[simp] theorem State.chargeLate_blocked (s : State) (ctx : Nat) (p : Place) (cls n : Nat) : (s.chargeLate ctx p cls n).blocked = s.blocked := rfl
@[simp] theorem State.chargeLate_out (s : State) (ctx : Nat) (p : Place) (cls n : Nat) : (s.chargeLate ctx p cls n).out = s.out := rfl
@[simp] theorem State.chargeLate_mem (s : State) (ctx : Nat) (p : Place) (cls n : Nat) : (s.chargeLate ctx p cls n).mem = s.mem := rfl
@[simp] theorem State.chargeLate_poison (s : State) (ctx : Nat) (p : Place) (cls n : Nat) : (s.chargeLate ctx p cls n).poison = s.poison := rfl
@[simp] theorem State.chargeLate_crypt (s : State) (ctx : Nat) (p : Place) (cls n : Nat) : (s.chargeLate ctx p cls n).crypt = s.crypt := rfl
@[simp] theorem State.chargeLate_flight (s : State) (ctx : Nat) (p : Place) (cls n : Nat) : (s.chargeLate ctx p cls n).flight = s.flight := rfl
@[simp] theorem State.chargeLate_failed (s : State) (ctx : Nat) (p : Place) (cls n : Nat) : (s.chargeLate ctx p cls n).failed = s.failed := rfl
@[simp] theorem State.chargeLate_l2 (s : State) (ctx : Nat) (p : Place) (cls n : Nat) : (s.chargeLate ctx p cls n).l2 = s.l2 := rfl
@[simp] theorem State.chargeLate_hostHeld (s : State) (ctx : Nat) (p : Place) (cls n : Nat) : (s.chargeLate ctx p cls n).hostHeld = s.hostHeld := rfl
@[simp] theorem State.chargeLate_tlb (s : State) (ctx : Nat) (p : Place) (cls n : Nat) : (s.chargeLate ctx p cls n).tlb = s.tlb := rfl
@[simp] theorem State.chargeLate_cores (s : State) (ctx : Nat) (p : Place) (cls n : Nat) : (s.chargeLate ctx p cls n).cores = s.cores := rfl
@[simp] theorem State.chargeLate_refclk (s : State) (ctx : Nat) (p : Place) (cls n : Nat) : (s.chargeLate ctx p cls n).refclk = s.refclk := rfl
@[simp] theorem State.chargeLate_sub (s : State) (ctx : Nat) (p : Place) (cls n : Nat) : (s.chargeLate ctx p cls n).sub = s.sub := rfl
@[simp] theorem State.chargeLate_sysregs (s : State) (ctx : Nat) (p : Place) (cls n : Nat) : (s.chargeLate ctx p cls n).sysregs = s.sysregs := rfl
@[simp] theorem State.chargeLate_accounts (s : State) (ctx : Nat) (p : Place) (cls n : Nat) : (s.chargeLate ctx p cls n).accounts = s.accounts := rfl
@[simp] theorem State.chargeLate_confAcc (s : State) (ctx : Nat) (p : Place) (cls n : Nat) : (s.chargeLate ctx p cls n).confAcc = s.confAcc := rfl
@[simp] theorem State.chargeLate_panHold (s : State) (ctx : Nat) (p : Place) (cls n : Nat) : (s.chargeLate ctx p cls n).panHold = s.panHold := rfl
@[simp] theorem State.chargeLate_house (s : State) (ctx : Nat) (p : Place) (cls n : Nat) : (s.chargeLate ctx p cls n).house = s.house := rfl
@[simp] theorem State.chargeLate_panEn (s : State) (ctx : Nat) (p : Place) (cls n : Nat) : (s.chargeLate ctx p cls n).panEn = s.panEn := rfl
@[simp] theorem State.chargeLate_substrate (s : State) (ctx : Nat) (p : Place) (cls n : Nat) : (s.chargeLate ctx p cls n).substrate = s.substrate := rfl
@[simp] theorem State.chargeLate_sensed (s : State) (ctx : Nat) (p : Place) (cls n : Nat) : (s.chargeLate ctx p cls n).sensed = s.sensed := rfl
@[simp] theorem State.chargeLate_throttle (s : State) (ctx : Nat) (p : Place) (cls n : Nat) : (s.chargeLate ctx p cls n).throttle = s.throttle := rfl
@[simp] theorem State.chargeLate_pod (s : State) (ctx : Nat) (p : Place) (cls n : Nat) : (s.chargeLate ctx p cls n).pod = s.pod := rfl
@[simp] theorem State.chargeLate_links (s : State) (ctx : Nat) (p : Place) (cls n : Nat) : (s.chargeLate ctx p cls n).links = s.links := rfl
@[simp] theorem State.chargeLate_boot (s : State) (ctx : Nat) (p : Place) (cls n : Nat) : (s.chargeLate ctx p cls n).boot = s.boot := rfl
@[simp] theorem State.chargeLate_msixOpen (s : State) (ctx : Nat) (p : Place) (cls n : Nat) : (s.chargeLate ctx p cls n).msixOpen = s.msixOpen := rfl
@[simp] theorem State.chargeLate_msixPend (s : State) (ctx : Nat) (p : Place) (cls n : Nat) : (s.chargeLate ctx p cls n).msixPend = s.msixPend := rfl
@[simp] theorem State.chargeLate_errCount (s : State) (ctx : Nat) (p : Place) (cls n : Nat) : (s.chargeLate ctx p cls n).errCount = s.errCount := rfl
@[simp] theorem State.chargeLate_parts (s : State) (ctx : Nat) (p : Place) (cls n : Nat) : (s.chargeLate ctx p cls n).parts = s.parts := rfl
@[simp] theorem State.chargeLate_funcParts (s : State) (ctx : Nat) (p : Place) (cls n : Nat) : (s.chargeLate ctx p cls n).funcParts = s.funcParts := rfl
@[simp] theorem State.chargeLate_rotation (s : State) (ctx : Nat) (p : Place) (cls n : Nat) : (s.chargeLate ctx p cls n).rotation = s.rotation := rfl
@[simp] theorem State.chargeLate_launches (s : State) (ctx : Nat) (p : Place) (cls n : Nat) : (s.chargeLate ctx p cls n).launches = s.launches := rfl
@[simp] theorem State.chargeLate_queues (s : State) (ctx : Nat) (p : Place) (cls n : Nat) : (s.chargeLate ctx p cls n).queues = s.queues := rfl
@[simp] theorem State.chargeLate_visit (s : State) (ctx : Nat) (p : Place) (cls n : Nat) : (s.chargeLate ctx p cls n).visit = s.visit := rfl
@[simp] theorem State.chargeLate_saved (s : State) (ctx : Nat) (p : Place) (cls n : Nat) : (s.chargeLate ctx p cls n).saved = s.saved := rfl
@[simp] theorem State.chargeLate_objects (s : State) (ctx : Nat) (p : Place) (cls n : Nat) : (s.chargeLate ctx p cls n).objects = s.objects := rfl
@[simp] theorem State.chargeLate_nextLaunch (s : State) (ctx : Nat) (p : Place) (cls n : Nat) : (s.chargeLate ctx p cls n).nextLaunch = s.nextLaunch := rfl
@[simp] theorem State.chargeLate_nextHandle (s : State) (ctx : Nat) (p : Place) (cls n : Nat) : (s.chargeLate ctx p cls n).nextHandle = s.nextHandle := rfl
@[simp] theorem State.chargeLate_nextSaved (s : State) (ctx : Nat) (p : Place) (cls n : Nat) : (s.chargeLate ctx p cls n).nextSaved = s.nextSaved := rfl
@[simp] theorem State.chargeLate_fqFailed (s : State) (ctx : Nat) (p : Place) (cls n : Nat) : (s.chargeLate ctx p cls n).fqFailed = s.fqFailed := rfl
@[simp] theorem State.chargeLate_fqPend (s : State) (ctx : Nat) (p : Place) (cls n : Nat) : (s.chargeLate ctx p cls n).fqPend = s.fqPend := rfl
@[simp] theorem State.chargeLate_liveCtx (s : State) (ctx : Nat) (p : Place) (cls n : Nat) : (s.chargeLate ctx p cls n).liveCtx = s.liveCtx := rfl

/-- rekey writes the bytes and the marks of a block alone. -/
theorem State.rekey_eq (s : State) (key : Option Nat) (b : Nat) :
    s.rekey key b = { s with mem := (s.rekey key b).mem, crypt := (s.rekey key b).crypt } := by
  unfold State.rekey
  split <;> rfl

theorem State.rekeys_eq (key : Option Nat) (l : List Nat) (s : State) :
    ∃ m c, l.foldl (fun s b => State.rekey s key b) s = { s with mem := m, crypt := c } := by
  induction l generalizing s with
  | nil => exact ⟨_, _, rfl⟩
  | cons b t ih =>
    obtain ⟨m, c, h⟩ := ih (s.rekey key b)
    exact ⟨m, c, by rw [List.foldl_cons, h, State.rekey_eq]⟩

/-- store writes the bytes, the marks and the poison of storage alone. -/
theorem State.store_eq (s : State) (key : Option Nat) (ws : List (Nat × Byte)) (bad : Nat → Bool) :
    s.store key ws bad = { s with mem := (s.store key ws bad).mem, crypt := (s.store key ws bad).crypt,
                                  poison := (s.store key ws bad).poison } := by
  unfold State.store
  obtain ⟨m, c, h⟩ := State.rekeys_eq key ((ws.map (fun w => w.1 / 16)).foldl (fun l b => sins b l) []) s
  simp only [h]

@[simp] theorem State.store_agenda (s : State) (key : Option Nat) (ws : List (Nat × Byte)) (bad : Nat → Bool) :
    (s.store key ws bad).agenda = s.agenda := by
  rw [State.store_eq]
@[simp] theorem State.store_cur (s : State) (key : Option Nat) (ws : List (Nat × Byte)) (bad : Nat → Bool) :
    (s.store key ws bad).cur = s.cur := by
  rw [State.store_eq]
@[simp] theorem State.store_fresh (s : State) (key : Option Nat) (ws : List (Nat × Byte)) (bad : Nat → Bool) :
    (s.store key ws bad).fresh = s.fresh := by
  rw [State.store_eq]
@[simp] theorem State.store_blocked (s : State) (key : Option Nat) (ws : List (Nat × Byte)) (bad : Nat → Bool) :
    (s.store key ws bad).blocked = s.blocked := by
  rw [State.store_eq]
@[simp] theorem State.store_out (s : State) (key : Option Nat) (ws : List (Nat × Byte)) (bad : Nat → Bool) :
    (s.store key ws bad).out = s.out := by
  rw [State.store_eq]
@[simp] theorem State.store_flight (s : State) (key : Option Nat) (ws : List (Nat × Byte)) (bad : Nat → Bool) :
    (s.store key ws bad).flight = s.flight := by
  rw [State.store_eq]
@[simp] theorem State.store_failed (s : State) (key : Option Nat) (ws : List (Nat × Byte)) (bad : Nat → Bool) :
    (s.store key ws bad).failed = s.failed := by
  rw [State.store_eq]
@[simp] theorem State.store_l2 (s : State) (key : Option Nat) (ws : List (Nat × Byte)) (bad : Nat → Bool) :
    (s.store key ws bad).l2 = s.l2 := by
  rw [State.store_eq]
@[simp] theorem State.store_hostHeld (s : State) (key : Option Nat) (ws : List (Nat × Byte)) (bad : Nat → Bool) :
    (s.store key ws bad).hostHeld = s.hostHeld := by
  rw [State.store_eq]
@[simp] theorem State.store_tlb (s : State) (key : Option Nat) (ws : List (Nat × Byte)) (bad : Nat → Bool) :
    (s.store key ws bad).tlb = s.tlb := by
  rw [State.store_eq]
@[simp] theorem State.store_cores (s : State) (key : Option Nat) (ws : List (Nat × Byte)) (bad : Nat → Bool) :
    (s.store key ws bad).cores = s.cores := by
  rw [State.store_eq]
@[simp] theorem State.store_refclk (s : State) (key : Option Nat) (ws : List (Nat × Byte)) (bad : Nat → Bool) :
    (s.store key ws bad).refclk = s.refclk := by
  rw [State.store_eq]
@[simp] theorem State.store_sub (s : State) (key : Option Nat) (ws : List (Nat × Byte)) (bad : Nat → Bool) :
    (s.store key ws bad).sub = s.sub := by
  rw [State.store_eq]
@[simp] theorem State.store_sysregs (s : State) (key : Option Nat) (ws : List (Nat × Byte)) (bad : Nat → Bool) :
    (s.store key ws bad).sysregs = s.sysregs := by
  rw [State.store_eq]
@[simp] theorem State.store_accounts (s : State) (key : Option Nat) (ws : List (Nat × Byte)) (bad : Nat → Bool) :
    (s.store key ws bad).accounts = s.accounts := by
  rw [State.store_eq]
@[simp] theorem State.store_confAcc (s : State) (key : Option Nat) (ws : List (Nat × Byte)) (bad : Nat → Bool) :
    (s.store key ws bad).confAcc = s.confAcc := by
  rw [State.store_eq]
@[simp] theorem State.store_panHold (s : State) (key : Option Nat) (ws : List (Nat × Byte)) (bad : Nat → Bool) :
    (s.store key ws bad).panHold = s.panHold := by
  rw [State.store_eq]
@[simp] theorem State.store_house (s : State) (key : Option Nat) (ws : List (Nat × Byte)) (bad : Nat → Bool) :
    (s.store key ws bad).house = s.house := by
  rw [State.store_eq]
@[simp] theorem State.store_lateAcc (s : State) (key : Option Nat) (ws : List (Nat × Byte)) (bad : Nat → Bool) :
    (s.store key ws bad).lateAcc = s.lateAcc := by
  rw [State.store_eq]
@[simp] theorem State.store_panEn (s : State) (key : Option Nat) (ws : List (Nat × Byte)) (bad : Nat → Bool) :
    (s.store key ws bad).panEn = s.panEn := by
  rw [State.store_eq]
@[simp] theorem State.store_domains (s : State) (key : Option Nat) (ws : List (Nat × Byte)) (bad : Nat → Bool) :
    (s.store key ws bad).domains = s.domains := by
  rw [State.store_eq]
@[simp] theorem State.store_substrate (s : State) (key : Option Nat) (ws : List (Nat × Byte)) (bad : Nat → Bool) :
    (s.store key ws bad).substrate = s.substrate := by
  rw [State.store_eq]
@[simp] theorem State.store_sensed (s : State) (key : Option Nat) (ws : List (Nat × Byte)) (bad : Nat → Bool) :
    (s.store key ws bad).sensed = s.sensed := by
  rw [State.store_eq]
@[simp] theorem State.store_throttle (s : State) (key : Option Nat) (ws : List (Nat × Byte)) (bad : Nat → Bool) :
    (s.store key ws bad).throttle = s.throttle := by
  rw [State.store_eq]
@[simp] theorem State.store_pod (s : State) (key : Option Nat) (ws : List (Nat × Byte)) (bad : Nat → Bool) :
    (s.store key ws bad).pod = s.pod := by
  rw [State.store_eq]
@[simp] theorem State.store_links (s : State) (key : Option Nat) (ws : List (Nat × Byte)) (bad : Nat → Bool) :
    (s.store key ws bad).links = s.links := by
  rw [State.store_eq]
@[simp] theorem State.store_boot (s : State) (key : Option Nat) (ws : List (Nat × Byte)) (bad : Nat → Bool) :
    (s.store key ws bad).boot = s.boot := by
  rw [State.store_eq]
@[simp] theorem State.store_msixOpen (s : State) (key : Option Nat) (ws : List (Nat × Byte)) (bad : Nat → Bool) :
    (s.store key ws bad).msixOpen = s.msixOpen := by
  rw [State.store_eq]
@[simp] theorem State.store_msixPend (s : State) (key : Option Nat) (ws : List (Nat × Byte)) (bad : Nat → Bool) :
    (s.store key ws bad).msixPend = s.msixPend := by
  rw [State.store_eq]
@[simp] theorem State.store_errCount (s : State) (key : Option Nat) (ws : List (Nat × Byte)) (bad : Nat → Bool) :
    (s.store key ws bad).errCount = s.errCount := by
  rw [State.store_eq]
@[simp] theorem State.store_parts (s : State) (key : Option Nat) (ws : List (Nat × Byte)) (bad : Nat → Bool) :
    (s.store key ws bad).parts = s.parts := by
  rw [State.store_eq]
@[simp] theorem State.store_funcParts (s : State) (key : Option Nat) (ws : List (Nat × Byte)) (bad : Nat → Bool) :
    (s.store key ws bad).funcParts = s.funcParts := by
  rw [State.store_eq]
@[simp] theorem State.store_rotation (s : State) (key : Option Nat) (ws : List (Nat × Byte)) (bad : Nat → Bool) :
    (s.store key ws bad).rotation = s.rotation := by
  rw [State.store_eq]
@[simp] theorem State.store_launches (s : State) (key : Option Nat) (ws : List (Nat × Byte)) (bad : Nat → Bool) :
    (s.store key ws bad).launches = s.launches := by
  rw [State.store_eq]
@[simp] theorem State.store_queues (s : State) (key : Option Nat) (ws : List (Nat × Byte)) (bad : Nat → Bool) :
    (s.store key ws bad).queues = s.queues := by
  rw [State.store_eq]
@[simp] theorem State.store_visit (s : State) (key : Option Nat) (ws : List (Nat × Byte)) (bad : Nat → Bool) :
    (s.store key ws bad).visit = s.visit := by
  rw [State.store_eq]
@[simp] theorem State.store_saved (s : State) (key : Option Nat) (ws : List (Nat × Byte)) (bad : Nat → Bool) :
    (s.store key ws bad).saved = s.saved := by
  rw [State.store_eq]
@[simp] theorem State.store_objects (s : State) (key : Option Nat) (ws : List (Nat × Byte)) (bad : Nat → Bool) :
    (s.store key ws bad).objects = s.objects := by
  rw [State.store_eq]
@[simp] theorem State.store_nextLaunch (s : State) (key : Option Nat) (ws : List (Nat × Byte)) (bad : Nat → Bool) :
    (s.store key ws bad).nextLaunch = s.nextLaunch := by
  rw [State.store_eq]
@[simp] theorem State.store_nextHandle (s : State) (key : Option Nat) (ws : List (Nat × Byte)) (bad : Nat → Bool) :
    (s.store key ws bad).nextHandle = s.nextHandle := by
  rw [State.store_eq]
@[simp] theorem State.store_nextSaved (s : State) (key : Option Nat) (ws : List (Nat × Byte)) (bad : Nat → Bool) :
    (s.store key ws bad).nextSaved = s.nextSaved := by
  rw [State.store_eq]
@[simp] theorem State.store_fqFailed (s : State) (key : Option Nat) (ws : List (Nat × Byte)) (bad : Nat → Bool) :
    (s.store key ws bad).fqFailed = s.fqFailed := by
  rw [State.store_eq]
@[simp] theorem State.store_fqPend (s : State) (key : Option Nat) (ws : List (Nat × Byte)) (bad : Nat → Bool) :
    (s.store key ws bad).fqPend = s.fqPend := by
  rw [State.store_eq]
@[simp] theorem State.store_liveCtx (s : State) (key : Option Nat) (ws : List (Nat × Byte)) (bad : Nat → Bool) :
    (s.store key ws bad).liveCtx = s.liveCtx := by
  rw [State.store_eq]

@[simp] theorem State.addDyn_agenda (s : State) (p : Place) (e : Nat) : (s.addDyn p e).agenda = s.agenda := rfl
@[simp] theorem State.addDyn_cur (s : State) (p : Place) (e : Nat) : (s.addDyn p e).cur = s.cur := rfl
@[simp] theorem State.addDyn_fresh (s : State) (p : Place) (e : Nat) : (s.addDyn p e).fresh = s.fresh := rfl
@[simp] theorem State.addDyn_blocked (s : State) (p : Place) (e : Nat) : (s.addDyn p e).blocked = s.blocked := rfl
@[simp] theorem State.addDyn_out (s : State) (p : Place) (e : Nat) : (s.addDyn p e).out = s.out := rfl
@[simp] theorem State.addDyn_mem (s : State) (p : Place) (e : Nat) : (s.addDyn p e).mem = s.mem := rfl
@[simp] theorem State.addDyn_poison (s : State) (p : Place) (e : Nat) : (s.addDyn p e).poison = s.poison := rfl
@[simp] theorem State.addDyn_crypt (s : State) (p : Place) (e : Nat) : (s.addDyn p e).crypt = s.crypt := rfl
@[simp] theorem State.addDyn_flight (s : State) (p : Place) (e : Nat) : (s.addDyn p e).flight = s.flight := rfl
@[simp] theorem State.addDyn_failed (s : State) (p : Place) (e : Nat) : (s.addDyn p e).failed = s.failed := rfl
@[simp] theorem State.addDyn_l2 (s : State) (p : Place) (e : Nat) : (s.addDyn p e).l2 = s.l2 := rfl
@[simp] theorem State.addDyn_hostHeld (s : State) (p : Place) (e : Nat) : (s.addDyn p e).hostHeld = s.hostHeld := rfl
@[simp] theorem State.addDyn_tlb (s : State) (p : Place) (e : Nat) : (s.addDyn p e).tlb = s.tlb := rfl
@[simp] theorem State.addDyn_cores (s : State) (p : Place) (e : Nat) : (s.addDyn p e).cores = s.cores := rfl
@[simp] theorem State.addDyn_refclk (s : State) (p : Place) (e : Nat) : (s.addDyn p e).refclk = s.refclk := rfl
@[simp] theorem State.addDyn_sub (s : State) (p : Place) (e : Nat) : (s.addDyn p e).sub = s.sub := rfl
@[simp] theorem State.addDyn_sysregs (s : State) (p : Place) (e : Nat) : (s.addDyn p e).sysregs = s.sysregs := rfl
@[simp] theorem State.addDyn_accounts (s : State) (p : Place) (e : Nat) : (s.addDyn p e).accounts = s.accounts := rfl
@[simp] theorem State.addDyn_confAcc (s : State) (p : Place) (e : Nat) : (s.addDyn p e).confAcc = s.confAcc := rfl
@[simp] theorem State.addDyn_panHold (s : State) (p : Place) (e : Nat) : (s.addDyn p e).panHold = s.panHold := rfl
@[simp] theorem State.addDyn_house (s : State) (p : Place) (e : Nat) : (s.addDyn p e).house = s.house := rfl
@[simp] theorem State.addDyn_lateAcc (s : State) (p : Place) (e : Nat) : (s.addDyn p e).lateAcc = s.lateAcc := rfl
@[simp] theorem State.addDyn_panEn (s : State) (p : Place) (e : Nat) : (s.addDyn p e).panEn = s.panEn := rfl
@[simp] theorem State.addDyn_substrate (s : State) (p : Place) (e : Nat) : (s.addDyn p e).substrate = s.substrate := rfl
@[simp] theorem State.addDyn_sensed (s : State) (p : Place) (e : Nat) : (s.addDyn p e).sensed = s.sensed := rfl
@[simp] theorem State.addDyn_throttle (s : State) (p : Place) (e : Nat) : (s.addDyn p e).throttle = s.throttle := rfl
@[simp] theorem State.addDyn_pod (s : State) (p : Place) (e : Nat) : (s.addDyn p e).pod = s.pod := rfl
@[simp] theorem State.addDyn_links (s : State) (p : Place) (e : Nat) : (s.addDyn p e).links = s.links := rfl
@[simp] theorem State.addDyn_boot (s : State) (p : Place) (e : Nat) : (s.addDyn p e).boot = s.boot := rfl
@[simp] theorem State.addDyn_msixOpen (s : State) (p : Place) (e : Nat) : (s.addDyn p e).msixOpen = s.msixOpen := rfl
@[simp] theorem State.addDyn_msixPend (s : State) (p : Place) (e : Nat) : (s.addDyn p e).msixPend = s.msixPend := rfl
@[simp] theorem State.addDyn_errCount (s : State) (p : Place) (e : Nat) : (s.addDyn p e).errCount = s.errCount := rfl
@[simp] theorem State.addDyn_parts (s : State) (p : Place) (e : Nat) : (s.addDyn p e).parts = s.parts := rfl
@[simp] theorem State.addDyn_funcParts (s : State) (p : Place) (e : Nat) : (s.addDyn p e).funcParts = s.funcParts := rfl
@[simp] theorem State.addDyn_rotation (s : State) (p : Place) (e : Nat) : (s.addDyn p e).rotation = s.rotation := rfl
@[simp] theorem State.addDyn_launches (s : State) (p : Place) (e : Nat) : (s.addDyn p e).launches = s.launches := rfl
@[simp] theorem State.addDyn_queues (s : State) (p : Place) (e : Nat) : (s.addDyn p e).queues = s.queues := rfl
@[simp] theorem State.addDyn_visit (s : State) (p : Place) (e : Nat) : (s.addDyn p e).visit = s.visit := rfl
@[simp] theorem State.addDyn_saved (s : State) (p : Place) (e : Nat) : (s.addDyn p e).saved = s.saved := rfl
@[simp] theorem State.addDyn_objects (s : State) (p : Place) (e : Nat) : (s.addDyn p e).objects = s.objects := rfl
@[simp] theorem State.addDyn_nextLaunch (s : State) (p : Place) (e : Nat) : (s.addDyn p e).nextLaunch = s.nextLaunch := rfl
@[simp] theorem State.addDyn_nextHandle (s : State) (p : Place) (e : Nat) : (s.addDyn p e).nextHandle = s.nextHandle := rfl
@[simp] theorem State.addDyn_nextSaved (s : State) (p : Place) (e : Nat) : (s.addDyn p e).nextSaved = s.nextSaved := rfl
@[simp] theorem State.addDyn_fqFailed (s : State) (p : Place) (e : Nat) : (s.addDyn p e).fqFailed = s.fqFailed := rfl
@[simp] theorem State.addDyn_fqPend (s : State) (p : Place) (e : Nat) : (s.addDyn p e).fqPend = s.fqPend := rfl
@[simp] theorem State.addDyn_liveCtx (s : State) (p : Place) (e : Nat) : (s.addDyn p e).liveCtx = s.liveCtx := rfl

/-- modCrew writes the cores alone. -/
theorem State.modCrew_eq (s : State) (k : CrewKey) (f : Crew → Crew) : s.modCrew k f = { s with cores := (s.modCrew k f).cores } := by
  unfold State.modCrew
  split <;> rfl

@[simp] theorem State.modCrew_agenda (s : State) (k : CrewKey) (f : Crew → Crew) : (s.modCrew k f).agenda = s.agenda := by
  rw [State.modCrew_eq]
@[simp] theorem State.modCrew_cur (s : State) (k : CrewKey) (f : Crew → Crew) : (s.modCrew k f).cur = s.cur := by
  rw [State.modCrew_eq]
@[simp] theorem State.modCrew_fresh (s : State) (k : CrewKey) (f : Crew → Crew) : (s.modCrew k f).fresh = s.fresh := by
  rw [State.modCrew_eq]
@[simp] theorem State.modCrew_blocked (s : State) (k : CrewKey) (f : Crew → Crew) : (s.modCrew k f).blocked = s.blocked := by
  rw [State.modCrew_eq]
@[simp] theorem State.modCrew_out (s : State) (k : CrewKey) (f : Crew → Crew) : (s.modCrew k f).out = s.out := by
  rw [State.modCrew_eq]
@[simp] theorem State.modCrew_mem (s : State) (k : CrewKey) (f : Crew → Crew) : (s.modCrew k f).mem = s.mem := by
  rw [State.modCrew_eq]
@[simp] theorem State.modCrew_poison (s : State) (k : CrewKey) (f : Crew → Crew) : (s.modCrew k f).poison = s.poison := by
  rw [State.modCrew_eq]
@[simp] theorem State.modCrew_crypt (s : State) (k : CrewKey) (f : Crew → Crew) : (s.modCrew k f).crypt = s.crypt := by
  rw [State.modCrew_eq]
@[simp] theorem State.modCrew_flight (s : State) (k : CrewKey) (f : Crew → Crew) : (s.modCrew k f).flight = s.flight := by
  rw [State.modCrew_eq]
@[simp] theorem State.modCrew_failed (s : State) (k : CrewKey) (f : Crew → Crew) : (s.modCrew k f).failed = s.failed := by
  rw [State.modCrew_eq]
@[simp] theorem State.modCrew_l2 (s : State) (k : CrewKey) (f : Crew → Crew) : (s.modCrew k f).l2 = s.l2 := by
  rw [State.modCrew_eq]
@[simp] theorem State.modCrew_hostHeld (s : State) (k : CrewKey) (f : Crew → Crew) : (s.modCrew k f).hostHeld = s.hostHeld := by
  rw [State.modCrew_eq]
@[simp] theorem State.modCrew_tlb (s : State) (k : CrewKey) (f : Crew → Crew) : (s.modCrew k f).tlb = s.tlb := by
  rw [State.modCrew_eq]
@[simp] theorem State.modCrew_refclk (s : State) (k : CrewKey) (f : Crew → Crew) : (s.modCrew k f).refclk = s.refclk := by
  rw [State.modCrew_eq]
@[simp] theorem State.modCrew_sub (s : State) (k : CrewKey) (f : Crew → Crew) : (s.modCrew k f).sub = s.sub := by
  rw [State.modCrew_eq]
@[simp] theorem State.modCrew_sysregs (s : State) (k : CrewKey) (f : Crew → Crew) : (s.modCrew k f).sysregs = s.sysregs := by
  rw [State.modCrew_eq]
@[simp] theorem State.modCrew_accounts (s : State) (k : CrewKey) (f : Crew → Crew) : (s.modCrew k f).accounts = s.accounts := by
  rw [State.modCrew_eq]
@[simp] theorem State.modCrew_confAcc (s : State) (k : CrewKey) (f : Crew → Crew) : (s.modCrew k f).confAcc = s.confAcc := by
  rw [State.modCrew_eq]
@[simp] theorem State.modCrew_panHold (s : State) (k : CrewKey) (f : Crew → Crew) : (s.modCrew k f).panHold = s.panHold := by
  rw [State.modCrew_eq]
@[simp] theorem State.modCrew_house (s : State) (k : CrewKey) (f : Crew → Crew) : (s.modCrew k f).house = s.house := by
  rw [State.modCrew_eq]
@[simp] theorem State.modCrew_lateAcc (s : State) (k : CrewKey) (f : Crew → Crew) : (s.modCrew k f).lateAcc = s.lateAcc := by
  rw [State.modCrew_eq]
@[simp] theorem State.modCrew_panEn (s : State) (k : CrewKey) (f : Crew → Crew) : (s.modCrew k f).panEn = s.panEn := by
  rw [State.modCrew_eq]
@[simp] theorem State.modCrew_domains (s : State) (k : CrewKey) (f : Crew → Crew) : (s.modCrew k f).domains = s.domains := by
  rw [State.modCrew_eq]
@[simp] theorem State.modCrew_substrate (s : State) (k : CrewKey) (f : Crew → Crew) : (s.modCrew k f).substrate = s.substrate := by
  rw [State.modCrew_eq]
@[simp] theorem State.modCrew_sensed (s : State) (k : CrewKey) (f : Crew → Crew) : (s.modCrew k f).sensed = s.sensed := by
  rw [State.modCrew_eq]
@[simp] theorem State.modCrew_throttle (s : State) (k : CrewKey) (f : Crew → Crew) : (s.modCrew k f).throttle = s.throttle := by
  rw [State.modCrew_eq]
@[simp] theorem State.modCrew_pod (s : State) (k : CrewKey) (f : Crew → Crew) : (s.modCrew k f).pod = s.pod := by
  rw [State.modCrew_eq]
@[simp] theorem State.modCrew_links (s : State) (k : CrewKey) (f : Crew → Crew) : (s.modCrew k f).links = s.links := by
  rw [State.modCrew_eq]
@[simp] theorem State.modCrew_boot (s : State) (k : CrewKey) (f : Crew → Crew) : (s.modCrew k f).boot = s.boot := by
  rw [State.modCrew_eq]
@[simp] theorem State.modCrew_msixOpen (s : State) (k : CrewKey) (f : Crew → Crew) : (s.modCrew k f).msixOpen = s.msixOpen := by
  rw [State.modCrew_eq]
@[simp] theorem State.modCrew_msixPend (s : State) (k : CrewKey) (f : Crew → Crew) : (s.modCrew k f).msixPend = s.msixPend := by
  rw [State.modCrew_eq]
@[simp] theorem State.modCrew_errCount (s : State) (k : CrewKey) (f : Crew → Crew) : (s.modCrew k f).errCount = s.errCount := by
  rw [State.modCrew_eq]
@[simp] theorem State.modCrew_parts (s : State) (k : CrewKey) (f : Crew → Crew) : (s.modCrew k f).parts = s.parts := by
  rw [State.modCrew_eq]
@[simp] theorem State.modCrew_funcParts (s : State) (k : CrewKey) (f : Crew → Crew) : (s.modCrew k f).funcParts = s.funcParts := by
  rw [State.modCrew_eq]
@[simp] theorem State.modCrew_rotation (s : State) (k : CrewKey) (f : Crew → Crew) : (s.modCrew k f).rotation = s.rotation := by
  rw [State.modCrew_eq]
@[simp] theorem State.modCrew_launches (s : State) (k : CrewKey) (f : Crew → Crew) : (s.modCrew k f).launches = s.launches := by
  rw [State.modCrew_eq]
@[simp] theorem State.modCrew_queues (s : State) (k : CrewKey) (f : Crew → Crew) : (s.modCrew k f).queues = s.queues := by
  rw [State.modCrew_eq]
@[simp] theorem State.modCrew_visit (s : State) (k : CrewKey) (f : Crew → Crew) : (s.modCrew k f).visit = s.visit := by
  rw [State.modCrew_eq]
@[simp] theorem State.modCrew_saved (s : State) (k : CrewKey) (f : Crew → Crew) : (s.modCrew k f).saved = s.saved := by
  rw [State.modCrew_eq]
@[simp] theorem State.modCrew_objects (s : State) (k : CrewKey) (f : Crew → Crew) : (s.modCrew k f).objects = s.objects := by
  rw [State.modCrew_eq]
@[simp] theorem State.modCrew_nextLaunch (s : State) (k : CrewKey) (f : Crew → Crew) : (s.modCrew k f).nextLaunch = s.nextLaunch := by
  rw [State.modCrew_eq]
@[simp] theorem State.modCrew_nextHandle (s : State) (k : CrewKey) (f : Crew → Crew) : (s.modCrew k f).nextHandle = s.nextHandle := by
  rw [State.modCrew_eq]
@[simp] theorem State.modCrew_nextSaved (s : State) (k : CrewKey) (f : Crew → Crew) : (s.modCrew k f).nextSaved = s.nextSaved := by
  rw [State.modCrew_eq]
@[simp] theorem State.modCrew_fqFailed (s : State) (k : CrewKey) (f : Crew → Crew) : (s.modCrew k f).fqFailed = s.fqFailed := by
  rw [State.modCrew_eq]
@[simp] theorem State.modCrew_fqPend (s : State) (k : CrewKey) (f : Crew → Crew) : (s.modCrew k f).fqPend = s.fqPend := by
  rw [State.modCrew_eq]
@[simp] theorem State.modCrew_liveCtx (s : State) (k : CrewKey) (f : Crew → Crew) : (s.modCrew k f).liveCtx = s.liveCtx := by
  rw [State.modCrew_eq]

/-- modWg writes the cores alone. -/
theorem State.modWg_eq (s : State) (c w : Nat) (f : Wg → Wg) : s.modWg c w f = { s with cores := (s.modWg c w f).cores } := by
  unfold State.modWg
  split <;> rfl

@[simp] theorem State.modWg_agenda (s : State) (c w : Nat) (f : Wg → Wg) : (s.modWg c w f).agenda = s.agenda := by
  rw [State.modWg_eq]
@[simp] theorem State.modWg_cur (s : State) (c w : Nat) (f : Wg → Wg) : (s.modWg c w f).cur = s.cur := by
  rw [State.modWg_eq]
@[simp] theorem State.modWg_fresh (s : State) (c w : Nat) (f : Wg → Wg) : (s.modWg c w f).fresh = s.fresh := by
  rw [State.modWg_eq]
@[simp] theorem State.modWg_blocked (s : State) (c w : Nat) (f : Wg → Wg) : (s.modWg c w f).blocked = s.blocked := by
  rw [State.modWg_eq]
@[simp] theorem State.modWg_out (s : State) (c w : Nat) (f : Wg → Wg) : (s.modWg c w f).out = s.out := by
  rw [State.modWg_eq]
@[simp] theorem State.modWg_mem (s : State) (c w : Nat) (f : Wg → Wg) : (s.modWg c w f).mem = s.mem := by
  rw [State.modWg_eq]
@[simp] theorem State.modWg_poison (s : State) (c w : Nat) (f : Wg → Wg) : (s.modWg c w f).poison = s.poison := by
  rw [State.modWg_eq]
@[simp] theorem State.modWg_crypt (s : State) (c w : Nat) (f : Wg → Wg) : (s.modWg c w f).crypt = s.crypt := by
  rw [State.modWg_eq]
@[simp] theorem State.modWg_flight (s : State) (c w : Nat) (f : Wg → Wg) : (s.modWg c w f).flight = s.flight := by
  rw [State.modWg_eq]
@[simp] theorem State.modWg_failed (s : State) (c w : Nat) (f : Wg → Wg) : (s.modWg c w f).failed = s.failed := by
  rw [State.modWg_eq]
@[simp] theorem State.modWg_l2 (s : State) (c w : Nat) (f : Wg → Wg) : (s.modWg c w f).l2 = s.l2 := by
  rw [State.modWg_eq]
@[simp] theorem State.modWg_hostHeld (s : State) (c w : Nat) (f : Wg → Wg) : (s.modWg c w f).hostHeld = s.hostHeld := by
  rw [State.modWg_eq]
@[simp] theorem State.modWg_tlb (s : State) (c w : Nat) (f : Wg → Wg) : (s.modWg c w f).tlb = s.tlb := by
  rw [State.modWg_eq]
@[simp] theorem State.modWg_refclk (s : State) (c w : Nat) (f : Wg → Wg) : (s.modWg c w f).refclk = s.refclk := by
  rw [State.modWg_eq]
@[simp] theorem State.modWg_sub (s : State) (c w : Nat) (f : Wg → Wg) : (s.modWg c w f).sub = s.sub := by
  rw [State.modWg_eq]
@[simp] theorem State.modWg_sysregs (s : State) (c w : Nat) (f : Wg → Wg) : (s.modWg c w f).sysregs = s.sysregs := by
  rw [State.modWg_eq]
@[simp] theorem State.modWg_accounts (s : State) (c w : Nat) (f : Wg → Wg) : (s.modWg c w f).accounts = s.accounts := by
  rw [State.modWg_eq]
@[simp] theorem State.modWg_confAcc (s : State) (c w : Nat) (f : Wg → Wg) : (s.modWg c w f).confAcc = s.confAcc := by
  rw [State.modWg_eq]
@[simp] theorem State.modWg_panHold (s : State) (c w : Nat) (f : Wg → Wg) : (s.modWg c w f).panHold = s.panHold := by
  rw [State.modWg_eq]
@[simp] theorem State.modWg_house (s : State) (c w : Nat) (f : Wg → Wg) : (s.modWg c w f).house = s.house := by
  rw [State.modWg_eq]
@[simp] theorem State.modWg_lateAcc (s : State) (c w : Nat) (f : Wg → Wg) : (s.modWg c w f).lateAcc = s.lateAcc := by
  rw [State.modWg_eq]
@[simp] theorem State.modWg_panEn (s : State) (c w : Nat) (f : Wg → Wg) : (s.modWg c w f).panEn = s.panEn := by
  rw [State.modWg_eq]
@[simp] theorem State.modWg_domains (s : State) (c w : Nat) (f : Wg → Wg) : (s.modWg c w f).domains = s.domains := by
  rw [State.modWg_eq]
@[simp] theorem State.modWg_substrate (s : State) (c w : Nat) (f : Wg → Wg) : (s.modWg c w f).substrate = s.substrate := by
  rw [State.modWg_eq]
@[simp] theorem State.modWg_sensed (s : State) (c w : Nat) (f : Wg → Wg) : (s.modWg c w f).sensed = s.sensed := by
  rw [State.modWg_eq]
@[simp] theorem State.modWg_throttle (s : State) (c w : Nat) (f : Wg → Wg) : (s.modWg c w f).throttle = s.throttle := by
  rw [State.modWg_eq]
@[simp] theorem State.modWg_pod (s : State) (c w : Nat) (f : Wg → Wg) : (s.modWg c w f).pod = s.pod := by
  rw [State.modWg_eq]
@[simp] theorem State.modWg_links (s : State) (c w : Nat) (f : Wg → Wg) : (s.modWg c w f).links = s.links := by
  rw [State.modWg_eq]
@[simp] theorem State.modWg_boot (s : State) (c w : Nat) (f : Wg → Wg) : (s.modWg c w f).boot = s.boot := by
  rw [State.modWg_eq]
@[simp] theorem State.modWg_msixOpen (s : State) (c w : Nat) (f : Wg → Wg) : (s.modWg c w f).msixOpen = s.msixOpen := by
  rw [State.modWg_eq]
@[simp] theorem State.modWg_msixPend (s : State) (c w : Nat) (f : Wg → Wg) : (s.modWg c w f).msixPend = s.msixPend := by
  rw [State.modWg_eq]
@[simp] theorem State.modWg_errCount (s : State) (c w : Nat) (f : Wg → Wg) : (s.modWg c w f).errCount = s.errCount := by
  rw [State.modWg_eq]
@[simp] theorem State.modWg_parts (s : State) (c w : Nat) (f : Wg → Wg) : (s.modWg c w f).parts = s.parts := by
  rw [State.modWg_eq]
@[simp] theorem State.modWg_funcParts (s : State) (c w : Nat) (f : Wg → Wg) : (s.modWg c w f).funcParts = s.funcParts := by
  rw [State.modWg_eq]
@[simp] theorem State.modWg_rotation (s : State) (c w : Nat) (f : Wg → Wg) : (s.modWg c w f).rotation = s.rotation := by
  rw [State.modWg_eq]
@[simp] theorem State.modWg_launches (s : State) (c w : Nat) (f : Wg → Wg) : (s.modWg c w f).launches = s.launches := by
  rw [State.modWg_eq]
@[simp] theorem State.modWg_queues (s : State) (c w : Nat) (f : Wg → Wg) : (s.modWg c w f).queues = s.queues := by
  rw [State.modWg_eq]
@[simp] theorem State.modWg_visit (s : State) (c w : Nat) (f : Wg → Wg) : (s.modWg c w f).visit = s.visit := by
  rw [State.modWg_eq]
@[simp] theorem State.modWg_saved (s : State) (c w : Nat) (f : Wg → Wg) : (s.modWg c w f).saved = s.saved := by
  rw [State.modWg_eq]
@[simp] theorem State.modWg_objects (s : State) (c w : Nat) (f : Wg → Wg) : (s.modWg c w f).objects = s.objects := by
  rw [State.modWg_eq]
@[simp] theorem State.modWg_nextLaunch (s : State) (c w : Nat) (f : Wg → Wg) : (s.modWg c w f).nextLaunch = s.nextLaunch := by
  rw [State.modWg_eq]
@[simp] theorem State.modWg_nextHandle (s : State) (c w : Nat) (f : Wg → Wg) : (s.modWg c w f).nextHandle = s.nextHandle := by
  rw [State.modWg_eq]
@[simp] theorem State.modWg_nextSaved (s : State) (c w : Nat) (f : Wg → Wg) : (s.modWg c w f).nextSaved = s.nextSaved := by
  rw [State.modWg_eq]
@[simp] theorem State.modWg_fqFailed (s : State) (c w : Nat) (f : Wg → Wg) : (s.modWg c w f).fqFailed = s.fqFailed := by
  rw [State.modWg_eq]
@[simp] theorem State.modWg_fqPend (s : State) (c w : Nat) (f : Wg → Wg) : (s.modWg c w f).fqPend = s.fqPend := by
  rw [State.modWg_eq]
@[simp] theorem State.modWg_liveCtx (s : State) (c w : Nat) (f : Wg → Wg) : (s.modWg c w f).liveCtx = s.liveCtx := by
  rw [State.modWg_eq]

/-! ## Updates of a crew -/

@[simp] theorem Crew.advance_wg (cr : Crew) (n : W64) : (cr.advance n).wg = cr.wg := rfl
@[simp] theorem Crew.advance_cidx (cr : Crew) (n : W64) : (cr.advance n).cidx = cr.cidx := rfl
@[simp] theorem Crew.advance_threads (cr : Crew) (n : W64) : (cr.advance n).threads = cr.threads := rfl
@[simp] theorem Crew.advance_s (cr : Crew) (n : W64) : (cr.advance n).s = cr.s := rfl
@[simp] theorem Crew.advance_q (cr : Crew) (n : W64) : (cr.advance n).q = cr.q := rfl
@[simp] theorem Crew.advance_flags (cr : Crew) (n : W64) : (cr.advance n).flags = cr.flags := rfl
@[simp] theorem Crew.advance_owed (cr : Crew) (n : W64) : (cr.advance n).owed = cr.owed := rfl
@[simp] theorem Crew.advance_nextId (cr : Crew) (n : W64) : (cr.advance n).nextId = cr.nextId := rfl
@[simp] theorem Crew.advance_fps (cr : Crew) (n : W64) : (cr.advance n).fps = cr.fps := rfl
@[simp] theorem Crew.advance_cst (cr : Crew) (n : W64) : (cr.advance n).cst = cr.cst := rfl
@[simp] theorem Crew.advance_abscnt (cr : Crew) (n : W64) : (cr.advance n).abscnt = cr.abscnt := rfl
@[simp] theorem Crew.advance_groups (cr : Crew) (n : W64) : (cr.advance n).groups = cr.groups := rfl
@[simp] theorem Crew.advance_hb (cr : Crew) (n : W64) : (cr.advance n).hb = cr.hb := rfl
@[simp] theorem Crew.advance_dir (cr : Crew) (n : W64) : (cr.advance n).dir = cr.dir := rfl
@[simp] theorem Crew.advance_nreg (cr : Crew) (n : W64) : (cr.advance n).nreg = cr.nreg := rfl
@[simp] theorem Crew.advance_rdesc (cr : Crew) (n : W64) : (cr.advance n).rdesc = cr.rdesc := rfl
@[simp] theorem Crew.advance_cr (cr : Crew) (n : W64) : (cr.advance n).cr = cr.cr := rfl
@[simp] theorem Crew.advance_ss (cr : Crew) (n : W64) : (cr.advance n).ss = cr.ss := rfl
@[simp] theorem Crew.advance_sid (cr : Crew) (n : W64) : (cr.advance n).sid = cr.sid := rfl
@[simp] theorem Crew.advance_sset (cr : Crew) (n : W64) : (cr.advance n).sset = cr.sset := rfl
@[simp] theorem Crew.advance_sweep (cr : Crew) (n : W64) : (cr.advance n).sweep = cr.sweep := rfl
@[simp] theorem Crew.advance_retry (cr : Crew) (n : W64) : (cr.advance n).retry = cr.retry := rfl
@[simp] theorem Crew.advance_votePending (cr : Crew) (n : W64) : (cr.advance n).votePending = cr.votePending := rfl
@[simp] theorem Crew.advance_epc (cr : Crew) (n : W64) : (cr.advance n).epc = cr.epc := rfl
@[simp] theorem Crew.advance_ecause (cr : Crew) (n : W64) : (cr.advance n).ecause = cr.ecause := rfl
@[simp] theorem Crew.advance_earg (cr : Crew) (n : W64) : (cr.advance n).earg = cr.earg := rfl
@[simp] theorem Crew.advance_ethr (cr : Crew) (n : W64) : (cr.advance n).ethr = cr.ethr := rfl
@[simp] theorem Crew.advance_esave (cr : Crew) (n : W64) : (cr.advance n).esave = cr.esave := rfl
@[simp] theorem Crew.advance_hmode (cr : Crew) (n : W64) : (cr.advance n).hmode = cr.hmode := rfl
@[simp] theorem Crew.advance_frame (cr : Crew) (n : W64) : (cr.advance n).frame = cr.frame := rfl
@[simp] theorem Crew.advance_batchCnt (cr : Crew) (n : W64) : (cr.advance n).batchCnt = cr.batchCnt := rfl
@[simp] theorem Crew.advance_openSet (cr : Crew) (n : W64) : (cr.advance n).openSet = cr.openSet := rfl
@[simp] theorem Crew.advance_batches (cr : Crew) (n : W64) : (cr.advance n).batches = cr.batches := rfl
@[simp] theorem Crew.advance_failures (cr : Crew) (n : W64) : (cr.advance n).failures = cr.failures := rfl
@[simp] theorem Crew.advance_outRes (cr : Crew) (n : W64) : (cr.advance n).outRes = cr.outRes := rfl
@[simp] theorem Crew.advance_park (cr : Crew) (n : W64) : (cr.advance n).park = cr.park := rfl
@[simp] theorem Crew.advance_block (cr : Crew) (n : W64) : (cr.advance n).block = cr.block := rfl
@[simp] theorem Crew.advance_pause (cr : Crew) (n : W64) : (cr.advance n).pause = cr.pause := rfl
@[simp] theorem Crew.advance_gbarArr (cr : Crew) (n : W64) : (cr.advance n).gbarArr = cr.gbarArr := rfl
@[simp] theorem Crew.advance_fbuf (cr : Crew) (n : W64) : (cr.advance n).fbuf = cr.fbuf := rfl
@[simp] theorem Crew.advance_ready (cr : Crew) (n : W64) : (cr.advance n).ready = cr.ready := rfl
@[simp] theorem Crew.advance_voteTill (cr : Crew) (n : W64) : (cr.advance n).voteTill = cr.voteTill := rfl
@[simp] theorem Crew.advance_lastIssue (cr : Crew) (n : W64) : (cr.advance n).lastIssue = cr.lastIssue := rfl
@[simp] theorem Crew.advance_finished (cr : Crew) (n : W64) : (cr.advance n).finished = cr.finished := rfl

@[simp] theorem Crew.advance_pos (cr : Crew) (n : W64) : (cr.advance n).pos = n := rfl
@[simp] theorem Crew.advance_replay (cr : Crew) (n : W64) : (cr.advance n).replay = none := rfl

@[simp] theorem Crew.owe_wg (cr : Crew) (f : Option (Fin 12)) (d : Option Nat) (ws : List RegWrite) (e : BitVec 5) (b : Bool) : (cr.owe f d ws e b).wg = cr.wg := rfl
@[simp] theorem Crew.owe_cidx (cr : Crew) (f : Option (Fin 12)) (d : Option Nat) (ws : List RegWrite) (e : BitVec 5) (b : Bool) : (cr.owe f d ws e b).cidx = cr.cidx := rfl
@[simp] theorem Crew.owe_threads (cr : Crew) (f : Option (Fin 12)) (d : Option Nat) (ws : List RegWrite) (e : BitVec 5) (b : Bool) : (cr.owe f d ws e b).threads = cr.threads := rfl
@[simp] theorem Crew.owe_s (cr : Crew) (f : Option (Fin 12)) (d : Option Nat) (ws : List RegWrite) (e : BitVec 5) (b : Bool) : (cr.owe f d ws e b).s = cr.s := rfl
@[simp] theorem Crew.owe_q (cr : Crew) (f : Option (Fin 12)) (d : Option Nat) (ws : List RegWrite) (e : BitVec 5) (b : Bool) : (cr.owe f d ws e b).q = cr.q := rfl
@[simp] theorem Crew.owe_flags (cr : Crew) (f : Option (Fin 12)) (d : Option Nat) (ws : List RegWrite) (e : BitVec 5) (b : Bool) : (cr.owe f d ws e b).flags = cr.flags := rfl
@[simp] theorem Crew.owe_fps (cr : Crew) (f : Option (Fin 12)) (d : Option Nat) (ws : List RegWrite) (e : BitVec 5) (b : Bool) : (cr.owe f d ws e b).fps = cr.fps := rfl
@[simp] theorem Crew.owe_cst (cr : Crew) (f : Option (Fin 12)) (d : Option Nat) (ws : List RegWrite) (e : BitVec 5) (b : Bool) : (cr.owe f d ws e b).cst = cr.cst := rfl
@[simp] theorem Crew.owe_abscnt (cr : Crew) (f : Option (Fin 12)) (d : Option Nat) (ws : List RegWrite) (e : BitVec 5) (b : Bool) : (cr.owe f d ws e b).abscnt = cr.abscnt := rfl
@[simp] theorem Crew.owe_groups (cr : Crew) (f : Option (Fin 12)) (d : Option Nat) (ws : List RegWrite) (e : BitVec 5) (b : Bool) : (cr.owe f d ws e b).groups = cr.groups := rfl
@[simp] theorem Crew.owe_hb (cr : Crew) (f : Option (Fin 12)) (d : Option Nat) (ws : List RegWrite) (e : BitVec 5) (b : Bool) : (cr.owe f d ws e b).hb = cr.hb := rfl
@[simp] theorem Crew.owe_dir (cr : Crew) (f : Option (Fin 12)) (d : Option Nat) (ws : List RegWrite) (e : BitVec 5) (b : Bool) : (cr.owe f d ws e b).dir = cr.dir := rfl
@[simp] theorem Crew.owe_nreg (cr : Crew) (f : Option (Fin 12)) (d : Option Nat) (ws : List RegWrite) (e : BitVec 5) (b : Bool) : (cr.owe f d ws e b).nreg = cr.nreg := rfl
@[simp] theorem Crew.owe_rdesc (cr : Crew) (f : Option (Fin 12)) (d : Option Nat) (ws : List RegWrite) (e : BitVec 5) (b : Bool) : (cr.owe f d ws e b).rdesc = cr.rdesc := rfl
@[simp] theorem Crew.owe_pos (cr : Crew) (f : Option (Fin 12)) (d : Option Nat) (ws : List RegWrite) (e : BitVec 5) (b : Bool) : (cr.owe f d ws e b).pos = cr.pos := rfl
@[simp] theorem Crew.owe_cr (cr : Crew) (f : Option (Fin 12)) (d : Option Nat) (ws : List RegWrite) (e : BitVec 5) (b : Bool) : (cr.owe f d ws e b).cr = cr.cr := rfl
@[simp] theorem Crew.owe_ss (cr : Crew) (f : Option (Fin 12)) (d : Option Nat) (ws : List RegWrite) (e : BitVec 5) (b : Bool) : (cr.owe f d ws e b).ss = cr.ss := rfl
@[simp] theorem Crew.owe_sid (cr : Crew) (f : Option (Fin 12)) (d : Option Nat) (ws : List RegWrite) (e : BitVec 5) (b : Bool) : (cr.owe f d ws e b).sid = cr.sid := rfl
@[simp] theorem Crew.owe_sset (cr : Crew) (f : Option (Fin 12)) (d : Option Nat) (ws : List RegWrite) (e : BitVec 5) (b : Bool) : (cr.owe f d ws e b).sset = cr.sset := rfl
@[simp] theorem Crew.owe_sweep (cr : Crew) (f : Option (Fin 12)) (d : Option Nat) (ws : List RegWrite) (e : BitVec 5) (b : Bool) : (cr.owe f d ws e b).sweep = cr.sweep := rfl
@[simp] theorem Crew.owe_retry (cr : Crew) (f : Option (Fin 12)) (d : Option Nat) (ws : List RegWrite) (e : BitVec 5) (b : Bool) : (cr.owe f d ws e b).retry = cr.retry := rfl
@[simp] theorem Crew.owe_votePending (cr : Crew) (f : Option (Fin 12)) (d : Option Nat) (ws : List RegWrite) (e : BitVec 5) (b : Bool) : (cr.owe f d ws e b).votePending = cr.votePending := rfl
@[simp] theorem Crew.owe_epc (cr : Crew) (f : Option (Fin 12)) (d : Option Nat) (ws : List RegWrite) (e : BitVec 5) (b : Bool) : (cr.owe f d ws e b).epc = cr.epc := rfl
@[simp] theorem Crew.owe_ecause (cr : Crew) (f : Option (Fin 12)) (d : Option Nat) (ws : List RegWrite) (e : BitVec 5) (b : Bool) : (cr.owe f d ws e b).ecause = cr.ecause := rfl
@[simp] theorem Crew.owe_earg (cr : Crew) (f : Option (Fin 12)) (d : Option Nat) (ws : List RegWrite) (e : BitVec 5) (b : Bool) : (cr.owe f d ws e b).earg = cr.earg := rfl
@[simp] theorem Crew.owe_ethr (cr : Crew) (f : Option (Fin 12)) (d : Option Nat) (ws : List RegWrite) (e : BitVec 5) (b : Bool) : (cr.owe f d ws e b).ethr = cr.ethr := rfl
@[simp] theorem Crew.owe_esave (cr : Crew) (f : Option (Fin 12)) (d : Option Nat) (ws : List RegWrite) (e : BitVec 5) (b : Bool) : (cr.owe f d ws e b).esave = cr.esave := rfl
@[simp] theorem Crew.owe_hmode (cr : Crew) (f : Option (Fin 12)) (d : Option Nat) (ws : List RegWrite) (e : BitVec 5) (b : Bool) : (cr.owe f d ws e b).hmode = cr.hmode := rfl
@[simp] theorem Crew.owe_frame (cr : Crew) (f : Option (Fin 12)) (d : Option Nat) (ws : List RegWrite) (e : BitVec 5) (b : Bool) : (cr.owe f d ws e b).frame = cr.frame := rfl
@[simp] theorem Crew.owe_batchCnt (cr : Crew) (f : Option (Fin 12)) (d : Option Nat) (ws : List RegWrite) (e : BitVec 5) (b : Bool) : (cr.owe f d ws e b).batchCnt = cr.batchCnt := rfl
@[simp] theorem Crew.owe_openSet (cr : Crew) (f : Option (Fin 12)) (d : Option Nat) (ws : List RegWrite) (e : BitVec 5) (b : Bool) : (cr.owe f d ws e b).openSet = cr.openSet := rfl
@[simp] theorem Crew.owe_batches (cr : Crew) (f : Option (Fin 12)) (d : Option Nat) (ws : List RegWrite) (e : BitVec 5) (b : Bool) : (cr.owe f d ws e b).batches = cr.batches := rfl
@[simp] theorem Crew.owe_failures (cr : Crew) (f : Option (Fin 12)) (d : Option Nat) (ws : List RegWrite) (e : BitVec 5) (b : Bool) : (cr.owe f d ws e b).failures = cr.failures := rfl
@[simp] theorem Crew.owe_outRes (cr : Crew) (f : Option (Fin 12)) (d : Option Nat) (ws : List RegWrite) (e : BitVec 5) (b : Bool) : (cr.owe f d ws e b).outRes = cr.outRes := rfl
@[simp] theorem Crew.owe_park (cr : Crew) (f : Option (Fin 12)) (d : Option Nat) (ws : List RegWrite) (e : BitVec 5) (b : Bool) : (cr.owe f d ws e b).park = cr.park := rfl
@[simp] theorem Crew.owe_replay (cr : Crew) (f : Option (Fin 12)) (d : Option Nat) (ws : List RegWrite) (e : BitVec 5) (b : Bool) : (cr.owe f d ws e b).replay = cr.replay := rfl
@[simp] theorem Crew.owe_block (cr : Crew) (f : Option (Fin 12)) (d : Option Nat) (ws : List RegWrite) (e : BitVec 5) (b : Bool) : (cr.owe f d ws e b).block = cr.block := rfl
@[simp] theorem Crew.owe_pause (cr : Crew) (f : Option (Fin 12)) (d : Option Nat) (ws : List RegWrite) (e : BitVec 5) (b : Bool) : (cr.owe f d ws e b).pause = cr.pause := rfl
@[simp] theorem Crew.owe_gbarArr (cr : Crew) (f : Option (Fin 12)) (d : Option Nat) (ws : List RegWrite) (e : BitVec 5) (b : Bool) : (cr.owe f d ws e b).gbarArr = cr.gbarArr := rfl
@[simp] theorem Crew.owe_fbuf (cr : Crew) (f : Option (Fin 12)) (d : Option Nat) (ws : List RegWrite) (e : BitVec 5) (b : Bool) : (cr.owe f d ws e b).fbuf = cr.fbuf := rfl
@[simp] theorem Crew.owe_ready (cr : Crew) (f : Option (Fin 12)) (d : Option Nat) (ws : List RegWrite) (e : BitVec 5) (b : Bool) : (cr.owe f d ws e b).ready = cr.ready := rfl
@[simp] theorem Crew.owe_voteTill (cr : Crew) (f : Option (Fin 12)) (d : Option Nat) (ws : List RegWrite) (e : BitVec 5) (b : Bool) : (cr.owe f d ws e b).voteTill = cr.voteTill := rfl
@[simp] theorem Crew.owe_lastIssue (cr : Crew) (f : Option (Fin 12)) (d : Option Nat) (ws : List RegWrite) (e : BitVec 5) (b : Bool) : (cr.owe f d ws e b).lastIssue = cr.lastIssue := rfl
@[simp] theorem Crew.owe_bpSkip (cr : Crew) (f : Option (Fin 12)) (d : Option Nat) (ws : List RegWrite) (e : BitVec 5) (b : Bool) : (cr.owe f d ws e b).bpSkip = cr.bpSkip := rfl
@[simp] theorem Crew.owe_finished (cr : Crew) (f : Option (Fin 12)) (d : Option Nat) (ws : List RegWrite) (e : BitVec 5) (b : Bool) : (cr.owe f d ws e b).finished = cr.finished := rfl

@[simp] theorem Crew.raiseFps_wg (cr : Crew) (f : BitVec 5) : (cr.raiseFps f).wg = cr.wg := rfl
@[simp] theorem Crew.raiseFps_cidx (cr : Crew) (f : BitVec 5) : (cr.raiseFps f).cidx = cr.cidx := rfl
@[simp] theorem Crew.raiseFps_threads (cr : Crew) (f : BitVec 5) : (cr.raiseFps f).threads = cr.threads := rfl
@[simp] theorem Crew.raiseFps_s (cr : Crew) (f : BitVec 5) : (cr.raiseFps f).s = cr.s := rfl
@[simp] theorem Crew.raiseFps_q (cr : Crew) (f : BitVec 5) : (cr.raiseFps f).q = cr.q := rfl
@[simp] theorem Crew.raiseFps_flags (cr : Crew) (f : BitVec 5) : (cr.raiseFps f).flags = cr.flags := rfl
@[simp] theorem Crew.raiseFps_owed (cr : Crew) (f : BitVec 5) : (cr.raiseFps f).owed = cr.owed := rfl
@[simp] theorem Crew.raiseFps_nextId (cr : Crew) (f : BitVec 5) : (cr.raiseFps f).nextId = cr.nextId := rfl
@[simp] theorem Crew.raiseFps_cst (cr : Crew) (f : BitVec 5) : (cr.raiseFps f).cst = cr.cst := rfl
@[simp] theorem Crew.raiseFps_abscnt (cr : Crew) (f : BitVec 5) : (cr.raiseFps f).abscnt = cr.abscnt := rfl
@[simp] theorem Crew.raiseFps_groups (cr : Crew) (f : BitVec 5) : (cr.raiseFps f).groups = cr.groups := rfl
@[simp] theorem Crew.raiseFps_hb (cr : Crew) (f : BitVec 5) : (cr.raiseFps f).hb = cr.hb := rfl
@[simp] theorem Crew.raiseFps_dir (cr : Crew) (f : BitVec 5) : (cr.raiseFps f).dir = cr.dir := rfl
@[simp] theorem Crew.raiseFps_nreg (cr : Crew) (f : BitVec 5) : (cr.raiseFps f).nreg = cr.nreg := rfl
@[simp] theorem Crew.raiseFps_rdesc (cr : Crew) (f : BitVec 5) : (cr.raiseFps f).rdesc = cr.rdesc := rfl
@[simp] theorem Crew.raiseFps_pos (cr : Crew) (f : BitVec 5) : (cr.raiseFps f).pos = cr.pos := rfl
@[simp] theorem Crew.raiseFps_cr (cr : Crew) (f : BitVec 5) : (cr.raiseFps f).cr = cr.cr := rfl
@[simp] theorem Crew.raiseFps_ss (cr : Crew) (f : BitVec 5) : (cr.raiseFps f).ss = cr.ss := rfl
@[simp] theorem Crew.raiseFps_sid (cr : Crew) (f : BitVec 5) : (cr.raiseFps f).sid = cr.sid := rfl
@[simp] theorem Crew.raiseFps_sset (cr : Crew) (f : BitVec 5) : (cr.raiseFps f).sset = cr.sset := rfl
@[simp] theorem Crew.raiseFps_sweep (cr : Crew) (f : BitVec 5) : (cr.raiseFps f).sweep = cr.sweep := rfl
@[simp] theorem Crew.raiseFps_retry (cr : Crew) (f : BitVec 5) : (cr.raiseFps f).retry = cr.retry := rfl
@[simp] theorem Crew.raiseFps_votePending (cr : Crew) (f : BitVec 5) : (cr.raiseFps f).votePending = cr.votePending := rfl
@[simp] theorem Crew.raiseFps_epc (cr : Crew) (f : BitVec 5) : (cr.raiseFps f).epc = cr.epc := rfl
@[simp] theorem Crew.raiseFps_ecause (cr : Crew) (f : BitVec 5) : (cr.raiseFps f).ecause = cr.ecause := rfl
@[simp] theorem Crew.raiseFps_earg (cr : Crew) (f : BitVec 5) : (cr.raiseFps f).earg = cr.earg := rfl
@[simp] theorem Crew.raiseFps_ethr (cr : Crew) (f : BitVec 5) : (cr.raiseFps f).ethr = cr.ethr := rfl
@[simp] theorem Crew.raiseFps_esave (cr : Crew) (f : BitVec 5) : (cr.raiseFps f).esave = cr.esave := rfl
@[simp] theorem Crew.raiseFps_hmode (cr : Crew) (f : BitVec 5) : (cr.raiseFps f).hmode = cr.hmode := rfl
@[simp] theorem Crew.raiseFps_frame (cr : Crew) (f : BitVec 5) : (cr.raiseFps f).frame = cr.frame := rfl
@[simp] theorem Crew.raiseFps_batchCnt (cr : Crew) (f : BitVec 5) : (cr.raiseFps f).batchCnt = cr.batchCnt := rfl
@[simp] theorem Crew.raiseFps_openSet (cr : Crew) (f : BitVec 5) : (cr.raiseFps f).openSet = cr.openSet := rfl
@[simp] theorem Crew.raiseFps_batches (cr : Crew) (f : BitVec 5) : (cr.raiseFps f).batches = cr.batches := rfl
@[simp] theorem Crew.raiseFps_failures (cr : Crew) (f : BitVec 5) : (cr.raiseFps f).failures = cr.failures := rfl
@[simp] theorem Crew.raiseFps_outRes (cr : Crew) (f : BitVec 5) : (cr.raiseFps f).outRes = cr.outRes := rfl
@[simp] theorem Crew.raiseFps_park (cr : Crew) (f : BitVec 5) : (cr.raiseFps f).park = cr.park := rfl
@[simp] theorem Crew.raiseFps_replay (cr : Crew) (f : BitVec 5) : (cr.raiseFps f).replay = cr.replay := rfl
@[simp] theorem Crew.raiseFps_block (cr : Crew) (f : BitVec 5) : (cr.raiseFps f).block = cr.block := rfl
@[simp] theorem Crew.raiseFps_pause (cr : Crew) (f : BitVec 5) : (cr.raiseFps f).pause = cr.pause := rfl
@[simp] theorem Crew.raiseFps_gbarArr (cr : Crew) (f : BitVec 5) : (cr.raiseFps f).gbarArr = cr.gbarArr := rfl
@[simp] theorem Crew.raiseFps_fbuf (cr : Crew) (f : BitVec 5) : (cr.raiseFps f).fbuf = cr.fbuf := rfl
@[simp] theorem Crew.raiseFps_ready (cr : Crew) (f : BitVec 5) : (cr.raiseFps f).ready = cr.ready := rfl
@[simp] theorem Crew.raiseFps_voteTill (cr : Crew) (f : BitVec 5) : (cr.raiseFps f).voteTill = cr.voteTill := rfl
@[simp] theorem Crew.raiseFps_lastIssue (cr : Crew) (f : BitVec 5) : (cr.raiseFps f).lastIssue = cr.lastIssue := rfl
@[simp] theorem Crew.raiseFps_bpSkip (cr : Crew) (f : BitVec 5) : (cr.raiseFps f).bpSkip = cr.bpSkip := rfl
@[simp] theorem Crew.raiseFps_finished (cr : Crew) (f : BitVec 5) : (cr.raiseFps f).finished = cr.finished := rfl

@[simp] theorem Crew.raiseUv_wg (cr : Crew)  : (cr.raiseUv ).wg = cr.wg := rfl
@[simp] theorem Crew.raiseUv_cidx (cr : Crew)  : (cr.raiseUv ).cidx = cr.cidx := rfl
@[simp] theorem Crew.raiseUv_threads (cr : Crew)  : (cr.raiseUv ).threads = cr.threads := rfl
@[simp] theorem Crew.raiseUv_s (cr : Crew)  : (cr.raiseUv ).s = cr.s := rfl
@[simp] theorem Crew.raiseUv_q (cr : Crew)  : (cr.raiseUv ).q = cr.q := rfl
@[simp] theorem Crew.raiseUv_flags (cr : Crew)  : (cr.raiseUv ).flags = cr.flags := rfl
@[simp] theorem Crew.raiseUv_owed (cr : Crew)  : (cr.raiseUv ).owed = cr.owed := rfl
@[simp] theorem Crew.raiseUv_nextId (cr : Crew)  : (cr.raiseUv ).nextId = cr.nextId := rfl
@[simp] theorem Crew.raiseUv_fps (cr : Crew)  : (cr.raiseUv ).fps = cr.fps := rfl
@[simp] theorem Crew.raiseUv_abscnt (cr : Crew)  : (cr.raiseUv ).abscnt = cr.abscnt := rfl
@[simp] theorem Crew.raiseUv_groups (cr : Crew)  : (cr.raiseUv ).groups = cr.groups := rfl
@[simp] theorem Crew.raiseUv_hb (cr : Crew)  : (cr.raiseUv ).hb = cr.hb := rfl
@[simp] theorem Crew.raiseUv_dir (cr : Crew)  : (cr.raiseUv ).dir = cr.dir := rfl
@[simp] theorem Crew.raiseUv_nreg (cr : Crew)  : (cr.raiseUv ).nreg = cr.nreg := rfl
@[simp] theorem Crew.raiseUv_rdesc (cr : Crew)  : (cr.raiseUv ).rdesc = cr.rdesc := rfl
@[simp] theorem Crew.raiseUv_pos (cr : Crew)  : (cr.raiseUv ).pos = cr.pos := rfl
@[simp] theorem Crew.raiseUv_cr (cr : Crew)  : (cr.raiseUv ).cr = cr.cr := rfl
@[simp] theorem Crew.raiseUv_ss (cr : Crew)  : (cr.raiseUv ).ss = cr.ss := rfl
@[simp] theorem Crew.raiseUv_sid (cr : Crew)  : (cr.raiseUv ).sid = cr.sid := rfl
@[simp] theorem Crew.raiseUv_sset (cr : Crew)  : (cr.raiseUv ).sset = cr.sset := rfl
@[simp] theorem Crew.raiseUv_sweep (cr : Crew)  : (cr.raiseUv ).sweep = cr.sweep := rfl
@[simp] theorem Crew.raiseUv_retry (cr : Crew)  : (cr.raiseUv ).retry = cr.retry := rfl
@[simp] theorem Crew.raiseUv_votePending (cr : Crew)  : (cr.raiseUv ).votePending = cr.votePending := rfl
@[simp] theorem Crew.raiseUv_epc (cr : Crew)  : (cr.raiseUv ).epc = cr.epc := rfl
@[simp] theorem Crew.raiseUv_ecause (cr : Crew)  : (cr.raiseUv ).ecause = cr.ecause := rfl
@[simp] theorem Crew.raiseUv_earg (cr : Crew)  : (cr.raiseUv ).earg = cr.earg := rfl
@[simp] theorem Crew.raiseUv_ethr (cr : Crew)  : (cr.raiseUv ).ethr = cr.ethr := rfl
@[simp] theorem Crew.raiseUv_esave (cr : Crew)  : (cr.raiseUv ).esave = cr.esave := rfl
@[simp] theorem Crew.raiseUv_hmode (cr : Crew)  : (cr.raiseUv ).hmode = cr.hmode := rfl
@[simp] theorem Crew.raiseUv_frame (cr : Crew)  : (cr.raiseUv ).frame = cr.frame := rfl
@[simp] theorem Crew.raiseUv_batchCnt (cr : Crew)  : (cr.raiseUv ).batchCnt = cr.batchCnt := rfl
@[simp] theorem Crew.raiseUv_openSet (cr : Crew)  : (cr.raiseUv ).openSet = cr.openSet := rfl
@[simp] theorem Crew.raiseUv_batches (cr : Crew)  : (cr.raiseUv ).batches = cr.batches := rfl
@[simp] theorem Crew.raiseUv_failures (cr : Crew)  : (cr.raiseUv ).failures = cr.failures := rfl
@[simp] theorem Crew.raiseUv_outRes (cr : Crew)  : (cr.raiseUv ).outRes = cr.outRes := rfl
@[simp] theorem Crew.raiseUv_park (cr : Crew)  : (cr.raiseUv ).park = cr.park := rfl
@[simp] theorem Crew.raiseUv_replay (cr : Crew)  : (cr.raiseUv ).replay = cr.replay := rfl
@[simp] theorem Crew.raiseUv_block (cr : Crew)  : (cr.raiseUv ).block = cr.block := rfl
@[simp] theorem Crew.raiseUv_pause (cr : Crew)  : (cr.raiseUv ).pause = cr.pause := rfl
@[simp] theorem Crew.raiseUv_gbarArr (cr : Crew)  : (cr.raiseUv ).gbarArr = cr.gbarArr := rfl
@[simp] theorem Crew.raiseUv_fbuf (cr : Crew)  : (cr.raiseUv ).fbuf = cr.fbuf := rfl
@[simp] theorem Crew.raiseUv_ready (cr : Crew)  : (cr.raiseUv ).ready = cr.ready := rfl
@[simp] theorem Crew.raiseUv_voteTill (cr : Crew)  : (cr.raiseUv ).voteTill = cr.voteTill := rfl
@[simp] theorem Crew.raiseUv_lastIssue (cr : Crew)  : (cr.raiseUv ).lastIssue = cr.lastIssue := rfl
@[simp] theorem Crew.raiseUv_bpSkip (cr : Crew)  : (cr.raiseUv ).bpSkip = cr.bpSkip := rfl
@[simp] theorem Crew.raiseUv_finished (cr : Crew)  : (cr.raiseUv ).finished = cr.finished := rfl

@[simp] theorem Crew.setThr_wg (cr : Crew) (t : Nat) (x : Thread) : (cr.setThr t x).wg = cr.wg := rfl
@[simp] theorem Crew.setThr_cidx (cr : Crew) (t : Nat) (x : Thread) : (cr.setThr t x).cidx = cr.cidx := rfl
@[simp] theorem Crew.setThr_s (cr : Crew) (t : Nat) (x : Thread) : (cr.setThr t x).s = cr.s := rfl
@[simp] theorem Crew.setThr_q (cr : Crew) (t : Nat) (x : Thread) : (cr.setThr t x).q = cr.q := rfl
@[simp] theorem Crew.setThr_flags (cr : Crew) (t : Nat) (x : Thread) : (cr.setThr t x).flags = cr.flags := rfl
@[simp] theorem Crew.setThr_owed (cr : Crew) (t : Nat) (x : Thread) : (cr.setThr t x).owed = cr.owed := rfl
@[simp] theorem Crew.setThr_nextId (cr : Crew) (t : Nat) (x : Thread) : (cr.setThr t x).nextId = cr.nextId := rfl
@[simp] theorem Crew.setThr_fps (cr : Crew) (t : Nat) (x : Thread) : (cr.setThr t x).fps = cr.fps := rfl
@[simp] theorem Crew.setThr_cst (cr : Crew) (t : Nat) (x : Thread) : (cr.setThr t x).cst = cr.cst := rfl
@[simp] theorem Crew.setThr_abscnt (cr : Crew) (t : Nat) (x : Thread) : (cr.setThr t x).abscnt = cr.abscnt := rfl
@[simp] theorem Crew.setThr_groups (cr : Crew) (t : Nat) (x : Thread) : (cr.setThr t x).groups = cr.groups := rfl
@[simp] theorem Crew.setThr_hb (cr : Crew) (t : Nat) (x : Thread) : (cr.setThr t x).hb = cr.hb := rfl
@[simp] theorem Crew.setThr_dir (cr : Crew) (t : Nat) (x : Thread) : (cr.setThr t x).dir = cr.dir := rfl
@[simp] theorem Crew.setThr_nreg (cr : Crew) (t : Nat) (x : Thread) : (cr.setThr t x).nreg = cr.nreg := rfl
@[simp] theorem Crew.setThr_rdesc (cr : Crew) (t : Nat) (x : Thread) : (cr.setThr t x).rdesc = cr.rdesc := rfl
@[simp] theorem Crew.setThr_pos (cr : Crew) (t : Nat) (x : Thread) : (cr.setThr t x).pos = cr.pos := rfl
@[simp] theorem Crew.setThr_cr (cr : Crew) (t : Nat) (x : Thread) : (cr.setThr t x).cr = cr.cr := rfl
@[simp] theorem Crew.setThr_ss (cr : Crew) (t : Nat) (x : Thread) : (cr.setThr t x).ss = cr.ss := rfl
@[simp] theorem Crew.setThr_sid (cr : Crew) (t : Nat) (x : Thread) : (cr.setThr t x).sid = cr.sid := rfl
@[simp] theorem Crew.setThr_sset (cr : Crew) (t : Nat) (x : Thread) : (cr.setThr t x).sset = cr.sset := rfl
@[simp] theorem Crew.setThr_sweep (cr : Crew) (t : Nat) (x : Thread) : (cr.setThr t x).sweep = cr.sweep := rfl
@[simp] theorem Crew.setThr_retry (cr : Crew) (t : Nat) (x : Thread) : (cr.setThr t x).retry = cr.retry := rfl
@[simp] theorem Crew.setThr_votePending (cr : Crew) (t : Nat) (x : Thread) : (cr.setThr t x).votePending = cr.votePending := rfl
@[simp] theorem Crew.setThr_epc (cr : Crew) (t : Nat) (x : Thread) : (cr.setThr t x).epc = cr.epc := rfl
@[simp] theorem Crew.setThr_ecause (cr : Crew) (t : Nat) (x : Thread) : (cr.setThr t x).ecause = cr.ecause := rfl
@[simp] theorem Crew.setThr_earg (cr : Crew) (t : Nat) (x : Thread) : (cr.setThr t x).earg = cr.earg := rfl
@[simp] theorem Crew.setThr_ethr (cr : Crew) (t : Nat) (x : Thread) : (cr.setThr t x).ethr = cr.ethr := rfl
@[simp] theorem Crew.setThr_esave (cr : Crew) (t : Nat) (x : Thread) : (cr.setThr t x).esave = cr.esave := rfl
@[simp] theorem Crew.setThr_hmode (cr : Crew) (t : Nat) (x : Thread) : (cr.setThr t x).hmode = cr.hmode := rfl
@[simp] theorem Crew.setThr_frame (cr : Crew) (t : Nat) (x : Thread) : (cr.setThr t x).frame = cr.frame := rfl
@[simp] theorem Crew.setThr_batchCnt (cr : Crew) (t : Nat) (x : Thread) : (cr.setThr t x).batchCnt = cr.batchCnt := rfl
@[simp] theorem Crew.setThr_openSet (cr : Crew) (t : Nat) (x : Thread) : (cr.setThr t x).openSet = cr.openSet := rfl
@[simp] theorem Crew.setThr_batches (cr : Crew) (t : Nat) (x : Thread) : (cr.setThr t x).batches = cr.batches := rfl
@[simp] theorem Crew.setThr_failures (cr : Crew) (t : Nat) (x : Thread) : (cr.setThr t x).failures = cr.failures := rfl
@[simp] theorem Crew.setThr_outRes (cr : Crew) (t : Nat) (x : Thread) : (cr.setThr t x).outRes = cr.outRes := rfl
@[simp] theorem Crew.setThr_park (cr : Crew) (t : Nat) (x : Thread) : (cr.setThr t x).park = cr.park := rfl
@[simp] theorem Crew.setThr_replay (cr : Crew) (t : Nat) (x : Thread) : (cr.setThr t x).replay = cr.replay := rfl
@[simp] theorem Crew.setThr_block (cr : Crew) (t : Nat) (x : Thread) : (cr.setThr t x).block = cr.block := rfl
@[simp] theorem Crew.setThr_pause (cr : Crew) (t : Nat) (x : Thread) : (cr.setThr t x).pause = cr.pause := rfl
@[simp] theorem Crew.setThr_gbarArr (cr : Crew) (t : Nat) (x : Thread) : (cr.setThr t x).gbarArr = cr.gbarArr := rfl
@[simp] theorem Crew.setThr_fbuf (cr : Crew) (t : Nat) (x : Thread) : (cr.setThr t x).fbuf = cr.fbuf := rfl
@[simp] theorem Crew.setThr_ready (cr : Crew) (t : Nat) (x : Thread) : (cr.setThr t x).ready = cr.ready := rfl
@[simp] theorem Crew.setThr_voteTill (cr : Crew) (t : Nat) (x : Thread) : (cr.setThr t x).voteTill = cr.voteTill := rfl
@[simp] theorem Crew.setThr_lastIssue (cr : Crew) (t : Nat) (x : Thread) : (cr.setThr t x).lastIssue = cr.lastIssue := rfl
@[simp] theorem Crew.setThr_bpSkip (cr : Crew) (t : Nat) (x : Thread) : (cr.setThr t x).bpSkip = cr.bpSkip := rfl
@[simp] theorem Crew.setThr_finished (cr : Crew) (t : Nat) (x : Thread) : (cr.setThr t x).finished = cr.finished := rfl

@[simp] theorem Crew.mapThr_wg (cr : Crew) (f : Nat → Thread → Thread) : (cr.mapThr f).wg = cr.wg := rfl
@[simp] theorem Crew.mapThr_cidx (cr : Crew) (f : Nat → Thread → Thread) : (cr.mapThr f).cidx = cr.cidx := rfl
@[simp] theorem Crew.mapThr_s (cr : Crew) (f : Nat → Thread → Thread) : (cr.mapThr f).s = cr.s := rfl
@[simp] theorem Crew.mapThr_q (cr : Crew) (f : Nat → Thread → Thread) : (cr.mapThr f).q = cr.q := rfl
@[simp] theorem Crew.mapThr_flags (cr : Crew) (f : Nat → Thread → Thread) : (cr.mapThr f).flags = cr.flags := rfl
@[simp] theorem Crew.mapThr_owed (cr : Crew) (f : Nat → Thread → Thread) : (cr.mapThr f).owed = cr.owed := rfl
@[simp] theorem Crew.mapThr_nextId (cr : Crew) (f : Nat → Thread → Thread) : (cr.mapThr f).nextId = cr.nextId := rfl
@[simp] theorem Crew.mapThr_fps (cr : Crew) (f : Nat → Thread → Thread) : (cr.mapThr f).fps = cr.fps := rfl
@[simp] theorem Crew.mapThr_cst (cr : Crew) (f : Nat → Thread → Thread) : (cr.mapThr f).cst = cr.cst := rfl
@[simp] theorem Crew.mapThr_abscnt (cr : Crew) (f : Nat → Thread → Thread) : (cr.mapThr f).abscnt = cr.abscnt := rfl
@[simp] theorem Crew.mapThr_groups (cr : Crew) (f : Nat → Thread → Thread) : (cr.mapThr f).groups = cr.groups := rfl
@[simp] theorem Crew.mapThr_hb (cr : Crew) (f : Nat → Thread → Thread) : (cr.mapThr f).hb = cr.hb := rfl
@[simp] theorem Crew.mapThr_dir (cr : Crew) (f : Nat → Thread → Thread) : (cr.mapThr f).dir = cr.dir := rfl
@[simp] theorem Crew.mapThr_nreg (cr : Crew) (f : Nat → Thread → Thread) : (cr.mapThr f).nreg = cr.nreg := rfl
@[simp] theorem Crew.mapThr_rdesc (cr : Crew) (f : Nat → Thread → Thread) : (cr.mapThr f).rdesc = cr.rdesc := rfl
@[simp] theorem Crew.mapThr_pos (cr : Crew) (f : Nat → Thread → Thread) : (cr.mapThr f).pos = cr.pos := rfl
@[simp] theorem Crew.mapThr_cr (cr : Crew) (f : Nat → Thread → Thread) : (cr.mapThr f).cr = cr.cr := rfl
@[simp] theorem Crew.mapThr_ss (cr : Crew) (f : Nat → Thread → Thread) : (cr.mapThr f).ss = cr.ss := rfl
@[simp] theorem Crew.mapThr_sid (cr : Crew) (f : Nat → Thread → Thread) : (cr.mapThr f).sid = cr.sid := rfl
@[simp] theorem Crew.mapThr_sset (cr : Crew) (f : Nat → Thread → Thread) : (cr.mapThr f).sset = cr.sset := rfl
@[simp] theorem Crew.mapThr_sweep (cr : Crew) (f : Nat → Thread → Thread) : (cr.mapThr f).sweep = cr.sweep := rfl
@[simp] theorem Crew.mapThr_retry (cr : Crew) (f : Nat → Thread → Thread) : (cr.mapThr f).retry = cr.retry := rfl
@[simp] theorem Crew.mapThr_votePending (cr : Crew) (f : Nat → Thread → Thread) : (cr.mapThr f).votePending = cr.votePending := rfl
@[simp] theorem Crew.mapThr_epc (cr : Crew) (f : Nat → Thread → Thread) : (cr.mapThr f).epc = cr.epc := rfl
@[simp] theorem Crew.mapThr_ecause (cr : Crew) (f : Nat → Thread → Thread) : (cr.mapThr f).ecause = cr.ecause := rfl
@[simp] theorem Crew.mapThr_earg (cr : Crew) (f : Nat → Thread → Thread) : (cr.mapThr f).earg = cr.earg := rfl
@[simp] theorem Crew.mapThr_ethr (cr : Crew) (f : Nat → Thread → Thread) : (cr.mapThr f).ethr = cr.ethr := rfl
@[simp] theorem Crew.mapThr_esave (cr : Crew) (f : Nat → Thread → Thread) : (cr.mapThr f).esave = cr.esave := rfl
@[simp] theorem Crew.mapThr_hmode (cr : Crew) (f : Nat → Thread → Thread) : (cr.mapThr f).hmode = cr.hmode := rfl
@[simp] theorem Crew.mapThr_frame (cr : Crew) (f : Nat → Thread → Thread) : (cr.mapThr f).frame = cr.frame := rfl
@[simp] theorem Crew.mapThr_batchCnt (cr : Crew) (f : Nat → Thread → Thread) : (cr.mapThr f).batchCnt = cr.batchCnt := rfl
@[simp] theorem Crew.mapThr_openSet (cr : Crew) (f : Nat → Thread → Thread) : (cr.mapThr f).openSet = cr.openSet := rfl
@[simp] theorem Crew.mapThr_batches (cr : Crew) (f : Nat → Thread → Thread) : (cr.mapThr f).batches = cr.batches := rfl
@[simp] theorem Crew.mapThr_failures (cr : Crew) (f : Nat → Thread → Thread) : (cr.mapThr f).failures = cr.failures := rfl
@[simp] theorem Crew.mapThr_outRes (cr : Crew) (f : Nat → Thread → Thread) : (cr.mapThr f).outRes = cr.outRes := rfl
@[simp] theorem Crew.mapThr_park (cr : Crew) (f : Nat → Thread → Thread) : (cr.mapThr f).park = cr.park := rfl
@[simp] theorem Crew.mapThr_replay (cr : Crew) (f : Nat → Thread → Thread) : (cr.mapThr f).replay = cr.replay := rfl
@[simp] theorem Crew.mapThr_block (cr : Crew) (f : Nat → Thread → Thread) : (cr.mapThr f).block = cr.block := rfl
@[simp] theorem Crew.mapThr_pause (cr : Crew) (f : Nat → Thread → Thread) : (cr.mapThr f).pause = cr.pause := rfl
@[simp] theorem Crew.mapThr_gbarArr (cr : Crew) (f : Nat → Thread → Thread) : (cr.mapThr f).gbarArr = cr.gbarArr := rfl
@[simp] theorem Crew.mapThr_fbuf (cr : Crew) (f : Nat → Thread → Thread) : (cr.mapThr f).fbuf = cr.fbuf := rfl
@[simp] theorem Crew.mapThr_ready (cr : Crew) (f : Nat → Thread → Thread) : (cr.mapThr f).ready = cr.ready := rfl
@[simp] theorem Crew.mapThr_voteTill (cr : Crew) (f : Nat → Thread → Thread) : (cr.mapThr f).voteTill = cr.voteTill := rfl
@[simp] theorem Crew.mapThr_lastIssue (cr : Crew) (f : Nat → Thread → Thread) : (cr.mapThr f).lastIssue = cr.lastIssue := rfl
@[simp] theorem Crew.mapThr_bpSkip (cr : Crew) (f : Nat → Thread → Thread) : (cr.mapThr f).bpSkip = cr.bpSkip := rfl
@[simp] theorem Crew.mapThr_finished (cr : Crew) (f : Nat → Thread → Thread) : (cr.mapThr f).finished = cr.finished := rfl

@[simp] theorem Crew.raiseSat_wg (cr : Crew) (b : Bool) : (cr.raiseSat b).wg = cr.wg := by
  unfold Crew.raiseSat; split <;> rfl
@[simp] theorem Crew.raiseSat_cidx (cr : Crew) (b : Bool) : (cr.raiseSat b).cidx = cr.cidx := by
  unfold Crew.raiseSat; split <;> rfl
@[simp] theorem Crew.raiseSat_threads (cr : Crew) (b : Bool) : (cr.raiseSat b).threads = cr.threads := by
  unfold Crew.raiseSat; split <;> rfl
@[simp] theorem Crew.raiseSat_s (cr : Crew) (b : Bool) : (cr.raiseSat b).s = cr.s := by
  unfold Crew.raiseSat; split <;> rfl
@[simp] theorem Crew.raiseSat_q (cr : Crew) (b : Bool) : (cr.raiseSat b).q = cr.q := by
  unfold Crew.raiseSat; split <;> rfl
@[simp] theorem Crew.raiseSat_flags (cr : Crew) (b : Bool) : (cr.raiseSat b).flags = cr.flags := by
  unfold Crew.raiseSat; split <;> rfl
@[simp] theorem Crew.raiseSat_owed (cr : Crew) (b : Bool) : (cr.raiseSat b).owed = cr.owed := by
  unfold Crew.raiseSat; split <;> rfl
@[simp] theorem Crew.raiseSat_nextId (cr : Crew) (b : Bool) : (cr.raiseSat b).nextId = cr.nextId := by
  unfold Crew.raiseSat; split <;> rfl
@[simp] theorem Crew.raiseSat_fps (cr : Crew) (b : Bool) : (cr.raiseSat b).fps = cr.fps := by
  unfold Crew.raiseSat; split <;> rfl
@[simp] theorem Crew.raiseSat_abscnt (cr : Crew) (b : Bool) : (cr.raiseSat b).abscnt = cr.abscnt := by
  unfold Crew.raiseSat; split <;> rfl
@[simp] theorem Crew.raiseSat_groups (cr : Crew) (b : Bool) : (cr.raiseSat b).groups = cr.groups := by
  unfold Crew.raiseSat; split <;> rfl
@[simp] theorem Crew.raiseSat_hb (cr : Crew) (b : Bool) : (cr.raiseSat b).hb = cr.hb := by
  unfold Crew.raiseSat; split <;> rfl
@[simp] theorem Crew.raiseSat_dir (cr : Crew) (b : Bool) : (cr.raiseSat b).dir = cr.dir := by
  unfold Crew.raiseSat; split <;> rfl
@[simp] theorem Crew.raiseSat_nreg (cr : Crew) (b : Bool) : (cr.raiseSat b).nreg = cr.nreg := by
  unfold Crew.raiseSat; split <;> rfl
@[simp] theorem Crew.raiseSat_rdesc (cr : Crew) (b : Bool) : (cr.raiseSat b).rdesc = cr.rdesc := by
  unfold Crew.raiseSat; split <;> rfl
@[simp] theorem Crew.raiseSat_pos (cr : Crew) (b : Bool) : (cr.raiseSat b).pos = cr.pos := by
  unfold Crew.raiseSat; split <;> rfl
@[simp] theorem Crew.raiseSat_cr (cr : Crew) (b : Bool) : (cr.raiseSat b).cr = cr.cr := by
  unfold Crew.raiseSat; split <;> rfl
@[simp] theorem Crew.raiseSat_ss (cr : Crew) (b : Bool) : (cr.raiseSat b).ss = cr.ss := by
  unfold Crew.raiseSat; split <;> rfl
@[simp] theorem Crew.raiseSat_sid (cr : Crew) (b : Bool) : (cr.raiseSat b).sid = cr.sid := by
  unfold Crew.raiseSat; split <;> rfl
@[simp] theorem Crew.raiseSat_sset (cr : Crew) (b : Bool) : (cr.raiseSat b).sset = cr.sset := by
  unfold Crew.raiseSat; split <;> rfl
@[simp] theorem Crew.raiseSat_sweep (cr : Crew) (b : Bool) : (cr.raiseSat b).sweep = cr.sweep := by
  unfold Crew.raiseSat; split <;> rfl
@[simp] theorem Crew.raiseSat_retry (cr : Crew) (b : Bool) : (cr.raiseSat b).retry = cr.retry := by
  unfold Crew.raiseSat; split <;> rfl
@[simp] theorem Crew.raiseSat_votePending (cr : Crew) (b : Bool) : (cr.raiseSat b).votePending = cr.votePending := by
  unfold Crew.raiseSat; split <;> rfl
@[simp] theorem Crew.raiseSat_epc (cr : Crew) (b : Bool) : (cr.raiseSat b).epc = cr.epc := by
  unfold Crew.raiseSat; split <;> rfl
@[simp] theorem Crew.raiseSat_ecause (cr : Crew) (b : Bool) : (cr.raiseSat b).ecause = cr.ecause := by
  unfold Crew.raiseSat; split <;> rfl
@[simp] theorem Crew.raiseSat_earg (cr : Crew) (b : Bool) : (cr.raiseSat b).earg = cr.earg := by
  unfold Crew.raiseSat; split <;> rfl
@[simp] theorem Crew.raiseSat_ethr (cr : Crew) (b : Bool) : (cr.raiseSat b).ethr = cr.ethr := by
  unfold Crew.raiseSat; split <;> rfl
@[simp] theorem Crew.raiseSat_esave (cr : Crew) (b : Bool) : (cr.raiseSat b).esave = cr.esave := by
  unfold Crew.raiseSat; split <;> rfl
@[simp] theorem Crew.raiseSat_hmode (cr : Crew) (b : Bool) : (cr.raiseSat b).hmode = cr.hmode := by
  unfold Crew.raiseSat; split <;> rfl
@[simp] theorem Crew.raiseSat_frame (cr : Crew) (b : Bool) : (cr.raiseSat b).frame = cr.frame := by
  unfold Crew.raiseSat; split <;> rfl
@[simp] theorem Crew.raiseSat_batchCnt (cr : Crew) (b : Bool) : (cr.raiseSat b).batchCnt = cr.batchCnt := by
  unfold Crew.raiseSat; split <;> rfl
@[simp] theorem Crew.raiseSat_openSet (cr : Crew) (b : Bool) : (cr.raiseSat b).openSet = cr.openSet := by
  unfold Crew.raiseSat; split <;> rfl
@[simp] theorem Crew.raiseSat_batches (cr : Crew) (b : Bool) : (cr.raiseSat b).batches = cr.batches := by
  unfold Crew.raiseSat; split <;> rfl
@[simp] theorem Crew.raiseSat_failures (cr : Crew) (b : Bool) : (cr.raiseSat b).failures = cr.failures := by
  unfold Crew.raiseSat; split <;> rfl
@[simp] theorem Crew.raiseSat_outRes (cr : Crew) (b : Bool) : (cr.raiseSat b).outRes = cr.outRes := by
  unfold Crew.raiseSat; split <;> rfl
@[simp] theorem Crew.raiseSat_park (cr : Crew) (b : Bool) : (cr.raiseSat b).park = cr.park := by
  unfold Crew.raiseSat; split <;> rfl
@[simp] theorem Crew.raiseSat_replay (cr : Crew) (b : Bool) : (cr.raiseSat b).replay = cr.replay := by
  unfold Crew.raiseSat; split <;> rfl
@[simp] theorem Crew.raiseSat_block (cr : Crew) (b : Bool) : (cr.raiseSat b).block = cr.block := by
  unfold Crew.raiseSat; split <;> rfl
@[simp] theorem Crew.raiseSat_pause (cr : Crew) (b : Bool) : (cr.raiseSat b).pause = cr.pause := by
  unfold Crew.raiseSat; split <;> rfl
@[simp] theorem Crew.raiseSat_gbarArr (cr : Crew) (b : Bool) : (cr.raiseSat b).gbarArr = cr.gbarArr := by
  unfold Crew.raiseSat; split <;> rfl
@[simp] theorem Crew.raiseSat_fbuf (cr : Crew) (b : Bool) : (cr.raiseSat b).fbuf = cr.fbuf := by
  unfold Crew.raiseSat; split <;> rfl
@[simp] theorem Crew.raiseSat_ready (cr : Crew) (b : Bool) : (cr.raiseSat b).ready = cr.ready := by
  unfold Crew.raiseSat; split <;> rfl
@[simp] theorem Crew.raiseSat_voteTill (cr : Crew) (b : Bool) : (cr.raiseSat b).voteTill = cr.voteTill := by
  unfold Crew.raiseSat; split <;> rfl
@[simp] theorem Crew.raiseSat_lastIssue (cr : Crew) (b : Bool) : (cr.raiseSat b).lastIssue = cr.lastIssue := by
  unfold Crew.raiseSat; split <;> rfl
@[simp] theorem Crew.raiseSat_bpSkip (cr : Crew) (b : Bool) : (cr.raiseSat b).bpSkip = cr.bpSkip := by
  unfold Crew.raiseSat; split <;> rfl
@[simp] theorem Crew.raiseSat_finished (cr : Crew) (b : Bool) : (cr.raiseSat b).finished = cr.finished := by
  unfold Crew.raiseSat; split <;> rfl

@[simp] theorem Crew.flagUp_wg (cr : Crew) (k : Option (Fin 12)) (pc : W64) (d : Dest) : (cr.flagUp k pc d).wg = cr.wg := by
  unfold Crew.flagUp; split <;> rfl
@[simp] theorem Crew.flagUp_cidx (cr : Crew) (k : Option (Fin 12)) (pc : W64) (d : Dest) : (cr.flagUp k pc d).cidx = cr.cidx := by
  unfold Crew.flagUp; split <;> rfl
@[simp] theorem Crew.flagUp_threads (cr : Crew) (k : Option (Fin 12)) (pc : W64) (d : Dest) : (cr.flagUp k pc d).threads = cr.threads := by
  unfold Crew.flagUp; split <;> rfl
@[simp] theorem Crew.flagUp_s (cr : Crew) (k : Option (Fin 12)) (pc : W64) (d : Dest) : (cr.flagUp k pc d).s = cr.s := by
  unfold Crew.flagUp; split <;> rfl
@[simp] theorem Crew.flagUp_q (cr : Crew) (k : Option (Fin 12)) (pc : W64) (d : Dest) : (cr.flagUp k pc d).q = cr.q := by
  unfold Crew.flagUp; split <;> rfl
@[simp] theorem Crew.flagUp_owed (cr : Crew) (k : Option (Fin 12)) (pc : W64) (d : Dest) : (cr.flagUp k pc d).owed = cr.owed := by
  unfold Crew.flagUp; split <;> rfl
@[simp] theorem Crew.flagUp_nextId (cr : Crew) (k : Option (Fin 12)) (pc : W64) (d : Dest) : (cr.flagUp k pc d).nextId = cr.nextId := by
  unfold Crew.flagUp; split <;> rfl
@[simp] theorem Crew.flagUp_fps (cr : Crew) (k : Option (Fin 12)) (pc : W64) (d : Dest) : (cr.flagUp k pc d).fps = cr.fps := by
  unfold Crew.flagUp; split <;> rfl
@[simp] theorem Crew.flagUp_cst (cr : Crew) (k : Option (Fin 12)) (pc : W64) (d : Dest) : (cr.flagUp k pc d).cst = cr.cst := by
  unfold Crew.flagUp; split <;> rfl
@[simp] theorem Crew.flagUp_abscnt (cr : Crew) (k : Option (Fin 12)) (pc : W64) (d : Dest) : (cr.flagUp k pc d).abscnt = cr.abscnt := by
  unfold Crew.flagUp; split <;> rfl
@[simp] theorem Crew.flagUp_groups (cr : Crew) (k : Option (Fin 12)) (pc : W64) (d : Dest) : (cr.flagUp k pc d).groups = cr.groups := by
  unfold Crew.flagUp; split <;> rfl
@[simp] theorem Crew.flagUp_hb (cr : Crew) (k : Option (Fin 12)) (pc : W64) (d : Dest) : (cr.flagUp k pc d).hb = cr.hb := by
  unfold Crew.flagUp; split <;> rfl
@[simp] theorem Crew.flagUp_dir (cr : Crew) (k : Option (Fin 12)) (pc : W64) (d : Dest) : (cr.flagUp k pc d).dir = cr.dir := by
  unfold Crew.flagUp; split <;> rfl
@[simp] theorem Crew.flagUp_nreg (cr : Crew) (k : Option (Fin 12)) (pc : W64) (d : Dest) : (cr.flagUp k pc d).nreg = cr.nreg := by
  unfold Crew.flagUp; split <;> rfl
@[simp] theorem Crew.flagUp_rdesc (cr : Crew) (k : Option (Fin 12)) (pc : W64) (d : Dest) : (cr.flagUp k pc d).rdesc = cr.rdesc := by
  unfold Crew.flagUp; split <;> rfl
@[simp] theorem Crew.flagUp_pos (cr : Crew) (k : Option (Fin 12)) (pc : W64) (d : Dest) : (cr.flagUp k pc d).pos = cr.pos := by
  unfold Crew.flagUp; split <;> rfl
@[simp] theorem Crew.flagUp_cr (cr : Crew) (k : Option (Fin 12)) (pc : W64) (d : Dest) : (cr.flagUp k pc d).cr = cr.cr := by
  unfold Crew.flagUp; split <;> rfl
@[simp] theorem Crew.flagUp_ss (cr : Crew) (k : Option (Fin 12)) (pc : W64) (d : Dest) : (cr.flagUp k pc d).ss = cr.ss := by
  unfold Crew.flagUp; split <;> rfl
@[simp] theorem Crew.flagUp_sid (cr : Crew) (k : Option (Fin 12)) (pc : W64) (d : Dest) : (cr.flagUp k pc d).sid = cr.sid := by
  unfold Crew.flagUp; split <;> rfl
@[simp] theorem Crew.flagUp_sset (cr : Crew) (k : Option (Fin 12)) (pc : W64) (d : Dest) : (cr.flagUp k pc d).sset = cr.sset := by
  unfold Crew.flagUp; split <;> rfl
@[simp] theorem Crew.flagUp_sweep (cr : Crew) (k : Option (Fin 12)) (pc : W64) (d : Dest) : (cr.flagUp k pc d).sweep = cr.sweep := by
  unfold Crew.flagUp; split <;> rfl
@[simp] theorem Crew.flagUp_retry (cr : Crew) (k : Option (Fin 12)) (pc : W64) (d : Dest) : (cr.flagUp k pc d).retry = cr.retry := by
  unfold Crew.flagUp; split <;> rfl
@[simp] theorem Crew.flagUp_votePending (cr : Crew) (k : Option (Fin 12)) (pc : W64) (d : Dest) : (cr.flagUp k pc d).votePending = cr.votePending := by
  unfold Crew.flagUp; split <;> rfl
@[simp] theorem Crew.flagUp_epc (cr : Crew) (k : Option (Fin 12)) (pc : W64) (d : Dest) : (cr.flagUp k pc d).epc = cr.epc := by
  unfold Crew.flagUp; split <;> rfl
@[simp] theorem Crew.flagUp_ecause (cr : Crew) (k : Option (Fin 12)) (pc : W64) (d : Dest) : (cr.flagUp k pc d).ecause = cr.ecause := by
  unfold Crew.flagUp; split <;> rfl
@[simp] theorem Crew.flagUp_earg (cr : Crew) (k : Option (Fin 12)) (pc : W64) (d : Dest) : (cr.flagUp k pc d).earg = cr.earg := by
  unfold Crew.flagUp; split <;> rfl
@[simp] theorem Crew.flagUp_ethr (cr : Crew) (k : Option (Fin 12)) (pc : W64) (d : Dest) : (cr.flagUp k pc d).ethr = cr.ethr := by
  unfold Crew.flagUp; split <;> rfl
@[simp] theorem Crew.flagUp_esave (cr : Crew) (k : Option (Fin 12)) (pc : W64) (d : Dest) : (cr.flagUp k pc d).esave = cr.esave := by
  unfold Crew.flagUp; split <;> rfl
@[simp] theorem Crew.flagUp_hmode (cr : Crew) (k : Option (Fin 12)) (pc : W64) (d : Dest) : (cr.flagUp k pc d).hmode = cr.hmode := by
  unfold Crew.flagUp; split <;> rfl
@[simp] theorem Crew.flagUp_frame (cr : Crew) (k : Option (Fin 12)) (pc : W64) (d : Dest) : (cr.flagUp k pc d).frame = cr.frame := by
  unfold Crew.flagUp; split <;> rfl
@[simp] theorem Crew.flagUp_batchCnt (cr : Crew) (k : Option (Fin 12)) (pc : W64) (d : Dest) : (cr.flagUp k pc d).batchCnt = cr.batchCnt := by
  unfold Crew.flagUp; split <;> rfl
@[simp] theorem Crew.flagUp_openSet (cr : Crew) (k : Option (Fin 12)) (pc : W64) (d : Dest) : (cr.flagUp k pc d).openSet = cr.openSet := by
  unfold Crew.flagUp; split <;> rfl
@[simp] theorem Crew.flagUp_batches (cr : Crew) (k : Option (Fin 12)) (pc : W64) (d : Dest) : (cr.flagUp k pc d).batches = cr.batches := by
  unfold Crew.flagUp; split <;> rfl
@[simp] theorem Crew.flagUp_failures (cr : Crew) (k : Option (Fin 12)) (pc : W64) (d : Dest) : (cr.flagUp k pc d).failures = cr.failures := by
  unfold Crew.flagUp; split <;> rfl
@[simp] theorem Crew.flagUp_outRes (cr : Crew) (k : Option (Fin 12)) (pc : W64) (d : Dest) : (cr.flagUp k pc d).outRes = cr.outRes := by
  unfold Crew.flagUp; split <;> rfl
@[simp] theorem Crew.flagUp_park (cr : Crew) (k : Option (Fin 12)) (pc : W64) (d : Dest) : (cr.flagUp k pc d).park = cr.park := by
  unfold Crew.flagUp; split <;> rfl
@[simp] theorem Crew.flagUp_replay (cr : Crew) (k : Option (Fin 12)) (pc : W64) (d : Dest) : (cr.flagUp k pc d).replay = cr.replay := by
  unfold Crew.flagUp; split <;> rfl
@[simp] theorem Crew.flagUp_block (cr : Crew) (k : Option (Fin 12)) (pc : W64) (d : Dest) : (cr.flagUp k pc d).block = cr.block := by
  unfold Crew.flagUp; split <;> rfl
@[simp] theorem Crew.flagUp_pause (cr : Crew) (k : Option (Fin 12)) (pc : W64) (d : Dest) : (cr.flagUp k pc d).pause = cr.pause := by
  unfold Crew.flagUp; split <;> rfl
@[simp] theorem Crew.flagUp_gbarArr (cr : Crew) (k : Option (Fin 12)) (pc : W64) (d : Dest) : (cr.flagUp k pc d).gbarArr = cr.gbarArr := by
  unfold Crew.flagUp; split <;> rfl
@[simp] theorem Crew.flagUp_fbuf (cr : Crew) (k : Option (Fin 12)) (pc : W64) (d : Dest) : (cr.flagUp k pc d).fbuf = cr.fbuf := by
  unfold Crew.flagUp; split <;> rfl
@[simp] theorem Crew.flagUp_ready (cr : Crew) (k : Option (Fin 12)) (pc : W64) (d : Dest) : (cr.flagUp k pc d).ready = cr.ready := by
  unfold Crew.flagUp; split <;> rfl
@[simp] theorem Crew.flagUp_voteTill (cr : Crew) (k : Option (Fin 12)) (pc : W64) (d : Dest) : (cr.flagUp k pc d).voteTill = cr.voteTill := by
  unfold Crew.flagUp; split <;> rfl
@[simp] theorem Crew.flagUp_lastIssue (cr : Crew) (k : Option (Fin 12)) (pc : W64) (d : Dest) : (cr.flagUp k pc d).lastIssue = cr.lastIssue := by
  unfold Crew.flagUp; split <;> rfl
@[simp] theorem Crew.flagUp_bpSkip (cr : Crew) (k : Option (Fin 12)) (pc : W64) (d : Dest) : (cr.flagUp k pc d).bpSkip = cr.bpSkip := by
  unfold Crew.flagUp; split <;> rfl
@[simp] theorem Crew.flagUp_finished (cr : Crew) (k : Option (Fin 12)) (pc : W64) (d : Dest) : (cr.flagUp k pc d).finished = cr.finished := by
  unfold Crew.flagUp; split <;> rfl

@[simp] theorem Crew.flagDown_wg (cr : Crew) (k : Option (Fin 12)) : (cr.flagDown k).wg = cr.wg := by
  unfold Crew.flagDown; split <;> rfl
@[simp] theorem Crew.flagDown_cidx (cr : Crew) (k : Option (Fin 12)) : (cr.flagDown k).cidx = cr.cidx := by
  unfold Crew.flagDown; split <;> rfl
@[simp] theorem Crew.flagDown_threads (cr : Crew) (k : Option (Fin 12)) : (cr.flagDown k).threads = cr.threads := by
  unfold Crew.flagDown; split <;> rfl
@[simp] theorem Crew.flagDown_s (cr : Crew) (k : Option (Fin 12)) : (cr.flagDown k).s = cr.s := by
  unfold Crew.flagDown; split <;> rfl
@[simp] theorem Crew.flagDown_q (cr : Crew) (k : Option (Fin 12)) : (cr.flagDown k).q = cr.q := by
  unfold Crew.flagDown; split <;> rfl
@[simp] theorem Crew.flagDown_owed (cr : Crew) (k : Option (Fin 12)) : (cr.flagDown k).owed = cr.owed := by
  unfold Crew.flagDown; split <;> rfl
@[simp] theorem Crew.flagDown_nextId (cr : Crew) (k : Option (Fin 12)) : (cr.flagDown k).nextId = cr.nextId := by
  unfold Crew.flagDown; split <;> rfl
@[simp] theorem Crew.flagDown_fps (cr : Crew) (k : Option (Fin 12)) : (cr.flagDown k).fps = cr.fps := by
  unfold Crew.flagDown; split <;> rfl
@[simp] theorem Crew.flagDown_cst (cr : Crew) (k : Option (Fin 12)) : (cr.flagDown k).cst = cr.cst := by
  unfold Crew.flagDown; split <;> rfl
@[simp] theorem Crew.flagDown_abscnt (cr : Crew) (k : Option (Fin 12)) : (cr.flagDown k).abscnt = cr.abscnt := by
  unfold Crew.flagDown; split <;> rfl
@[simp] theorem Crew.flagDown_groups (cr : Crew) (k : Option (Fin 12)) : (cr.flagDown k).groups = cr.groups := by
  unfold Crew.flagDown; split <;> rfl
@[simp] theorem Crew.flagDown_hb (cr : Crew) (k : Option (Fin 12)) : (cr.flagDown k).hb = cr.hb := by
  unfold Crew.flagDown; split <;> rfl
@[simp] theorem Crew.flagDown_dir (cr : Crew) (k : Option (Fin 12)) : (cr.flagDown k).dir = cr.dir := by
  unfold Crew.flagDown; split <;> rfl
@[simp] theorem Crew.flagDown_nreg (cr : Crew) (k : Option (Fin 12)) : (cr.flagDown k).nreg = cr.nreg := by
  unfold Crew.flagDown; split <;> rfl
@[simp] theorem Crew.flagDown_rdesc (cr : Crew) (k : Option (Fin 12)) : (cr.flagDown k).rdesc = cr.rdesc := by
  unfold Crew.flagDown; split <;> rfl
@[simp] theorem Crew.flagDown_pos (cr : Crew) (k : Option (Fin 12)) : (cr.flagDown k).pos = cr.pos := by
  unfold Crew.flagDown; split <;> rfl
@[simp] theorem Crew.flagDown_cr (cr : Crew) (k : Option (Fin 12)) : (cr.flagDown k).cr = cr.cr := by
  unfold Crew.flagDown; split <;> rfl
@[simp] theorem Crew.flagDown_ss (cr : Crew) (k : Option (Fin 12)) : (cr.flagDown k).ss = cr.ss := by
  unfold Crew.flagDown; split <;> rfl
@[simp] theorem Crew.flagDown_sid (cr : Crew) (k : Option (Fin 12)) : (cr.flagDown k).sid = cr.sid := by
  unfold Crew.flagDown; split <;> rfl
@[simp] theorem Crew.flagDown_sset (cr : Crew) (k : Option (Fin 12)) : (cr.flagDown k).sset = cr.sset := by
  unfold Crew.flagDown; split <;> rfl
@[simp] theorem Crew.flagDown_sweep (cr : Crew) (k : Option (Fin 12)) : (cr.flagDown k).sweep = cr.sweep := by
  unfold Crew.flagDown; split <;> rfl
@[simp] theorem Crew.flagDown_retry (cr : Crew) (k : Option (Fin 12)) : (cr.flagDown k).retry = cr.retry := by
  unfold Crew.flagDown; split <;> rfl
@[simp] theorem Crew.flagDown_votePending (cr : Crew) (k : Option (Fin 12)) : (cr.flagDown k).votePending = cr.votePending := by
  unfold Crew.flagDown; split <;> rfl
@[simp] theorem Crew.flagDown_epc (cr : Crew) (k : Option (Fin 12)) : (cr.flagDown k).epc = cr.epc := by
  unfold Crew.flagDown; split <;> rfl
@[simp] theorem Crew.flagDown_ecause (cr : Crew) (k : Option (Fin 12)) : (cr.flagDown k).ecause = cr.ecause := by
  unfold Crew.flagDown; split <;> rfl
@[simp] theorem Crew.flagDown_earg (cr : Crew) (k : Option (Fin 12)) : (cr.flagDown k).earg = cr.earg := by
  unfold Crew.flagDown; split <;> rfl
@[simp] theorem Crew.flagDown_ethr (cr : Crew) (k : Option (Fin 12)) : (cr.flagDown k).ethr = cr.ethr := by
  unfold Crew.flagDown; split <;> rfl
@[simp] theorem Crew.flagDown_esave (cr : Crew) (k : Option (Fin 12)) : (cr.flagDown k).esave = cr.esave := by
  unfold Crew.flagDown; split <;> rfl
@[simp] theorem Crew.flagDown_hmode (cr : Crew) (k : Option (Fin 12)) : (cr.flagDown k).hmode = cr.hmode := by
  unfold Crew.flagDown; split <;> rfl
@[simp] theorem Crew.flagDown_frame (cr : Crew) (k : Option (Fin 12)) : (cr.flagDown k).frame = cr.frame := by
  unfold Crew.flagDown; split <;> rfl
@[simp] theorem Crew.flagDown_batchCnt (cr : Crew) (k : Option (Fin 12)) : (cr.flagDown k).batchCnt = cr.batchCnt := by
  unfold Crew.flagDown; split <;> rfl
@[simp] theorem Crew.flagDown_openSet (cr : Crew) (k : Option (Fin 12)) : (cr.flagDown k).openSet = cr.openSet := by
  unfold Crew.flagDown; split <;> rfl
@[simp] theorem Crew.flagDown_batches (cr : Crew) (k : Option (Fin 12)) : (cr.flagDown k).batches = cr.batches := by
  unfold Crew.flagDown; split <;> rfl
@[simp] theorem Crew.flagDown_failures (cr : Crew) (k : Option (Fin 12)) : (cr.flagDown k).failures = cr.failures := by
  unfold Crew.flagDown; split <;> rfl
@[simp] theorem Crew.flagDown_outRes (cr : Crew) (k : Option (Fin 12)) : (cr.flagDown k).outRes = cr.outRes := by
  unfold Crew.flagDown; split <;> rfl
@[simp] theorem Crew.flagDown_park (cr : Crew) (k : Option (Fin 12)) : (cr.flagDown k).park = cr.park := by
  unfold Crew.flagDown; split <;> rfl
@[simp] theorem Crew.flagDown_replay (cr : Crew) (k : Option (Fin 12)) : (cr.flagDown k).replay = cr.replay := by
  unfold Crew.flagDown; split <;> rfl
@[simp] theorem Crew.flagDown_block (cr : Crew) (k : Option (Fin 12)) : (cr.flagDown k).block = cr.block := by
  unfold Crew.flagDown; split <;> rfl
@[simp] theorem Crew.flagDown_pause (cr : Crew) (k : Option (Fin 12)) : (cr.flagDown k).pause = cr.pause := by
  unfold Crew.flagDown; split <;> rfl
@[simp] theorem Crew.flagDown_gbarArr (cr : Crew) (k : Option (Fin 12)) : (cr.flagDown k).gbarArr = cr.gbarArr := by
  unfold Crew.flagDown; split <;> rfl
@[simp] theorem Crew.flagDown_fbuf (cr : Crew) (k : Option (Fin 12)) : (cr.flagDown k).fbuf = cr.fbuf := by
  unfold Crew.flagDown; split <;> rfl
@[simp] theorem Crew.flagDown_ready (cr : Crew) (k : Option (Fin 12)) : (cr.flagDown k).ready = cr.ready := by
  unfold Crew.flagDown; split <;> rfl
@[simp] theorem Crew.flagDown_voteTill (cr : Crew) (k : Option (Fin 12)) : (cr.flagDown k).voteTill = cr.voteTill := by
  unfold Crew.flagDown; split <;> rfl
@[simp] theorem Crew.flagDown_lastIssue (cr : Crew) (k : Option (Fin 12)) : (cr.flagDown k).lastIssue = cr.lastIssue := by
  unfold Crew.flagDown; split <;> rfl
@[simp] theorem Crew.flagDown_bpSkip (cr : Crew) (k : Option (Fin 12)) : (cr.flagDown k).bpSkip = cr.bpSkip := by
  unfold Crew.flagDown; split <;> rfl
@[simp] theorem Crew.flagDown_finished (cr : Crew) (k : Option (Fin 12)) : (cr.flagDown k).finished = cr.finished := by
  unfold Crew.flagDown; split <;> rfl

/-! ## The places of the state after an update -/

@[simp] theorem State.core_setCore (s : State) (c d : Nat) (x : Core) :
    (s.setCore c x).core d = if d = c then x else s.core d := by
  show (kfind d (kput c x s.cores)).getD Core.zero = _
  rw [kfind_kput]
  split <;> rfl

@[simp] theorem State.core_modCore (s : State) (c d : Nat) (f : Core → Core) :
    (s.modCore c f).core d = if d = c then f (s.core c) else s.core d := State.core_setCore s c d _

theorem State.core_setCrew (s : State) (k : CrewKey) (x : Crew) (d : Nat) :
    (s.setCrew k x).core d = if d = k.core then { s.core k.core with crews := kput k.slot x (s.core k.core).crews }
      else s.core d := State.core_modCore s k.core d _

theorem State.core_setWg (s : State) (c w d : Nat) (x : Wg) :
    (s.setWg c w x).core d = if d = c then { s.core c with wgs := kput w x (s.core c).wgs } else s.core d :=
  State.core_modCore s c d _

@[simp] theorem State.crew_setCrew (s : State) (k j : CrewKey) (x : Crew) :
    (s.setCrew k x).crew? j = if j = k then some x else s.crew? j := by
  obtain ⟨c, q⟩ := k
  obtain ⟨d, r⟩ := j
  simp only [State.crew?, State.core_setCrew]
  by_cases h : d = c
  · subst h
    by_cases h' : r = q
    · simp [h']
    · simp [kfind_kput, h']
  · simp [h]

@[simp] theorem State.wg_setCrew (s : State) (k : CrewKey) (x : Crew) (c w : Nat) :
    (s.setCrew k x).wg? c w = s.wg? c w := by
  simp only [State.wg?, State.core_setCrew]
  split
  · rename_i h; subst h; rfl
  · rfl

@[simp] theorem State.wg_setWg (s : State) (c w d v : Nat) (x : Wg) :
    (s.setWg c w x).wg? d v = if d = c ∧ v = w then some x else s.wg? d v := by
  simp only [State.wg?, State.core_setWg]
  by_cases h : d = c
  · subst h
    by_cases h' : v = w
    · simp [h']
    · simp [kfind_kput, h']
  · simp [h]

@[simp] theorem State.crew_setWg (s : State) (c w : Nat) (x : Wg) (j : CrewKey) :
    (s.setWg c w x).crew? j = s.crew? j := by
  simp only [State.crew?, State.core_setWg]
  split
  · rename_i h; rw [h]
  · rfl

theorem State.crew_modCrew (s : State) (k j : CrewKey) (f : Crew → Crew) :
    (s.modCrew k f).crew? j = if j = k then (s.crew? k).map f else s.crew? j := by
  unfold State.modCrew
  split
  · rename_i x hx
    rw [State.crew_setCrew, hx]
    rfl
  · rename_i hx
    split
    · rename_i h; rw [h, hx]; rfl
    · rfl

@[simp] theorem State.wg_modCrew (s : State) (k : CrewKey) (f : Crew → Crew) (c w : Nat) :
    (s.modCrew k f).wg? c w = s.wg? c w := by
  unfold State.modCrew
  split
  · exact State.wg_setCrew s k _ c w
  · rfl

theorem State.wg_modWg (s : State) (c w d v : Nat) (f : Wg → Wg) :
    (s.modWg c w f).wg? d v = if d = c ∧ v = w then (s.wg? c w).map f else s.wg? d v := by
  unfold State.modWg
  split
  · rename_i x hx
    rw [State.wg_setWg, hx]
    rfl
  · rename_i hx
    split
    · rename_i h; rw [h.1, h.2, hx]; rfl
    · rfl

@[simp] theorem State.crew_modWg (s : State) (c w : Nat) (f : Wg → Wg) (j : CrewKey) :
    (s.modWg c w f).crew? j = s.crew? j := by
  unfold State.modWg
  split
  · exact State.crew_setWg s c w _ j
  · rfl

end Sys2Proof.Machine
end

