-- ==== Sys2Proof/Laws/Retire.lean ====
section
/-! SUPPORT. What the shared operations of an issue do: landing, its beginning, charges and counts, the ways of retiring, an
exception, and the form of a control instruction. -/

namespace Sys2Proof.Machine

open Sys2Proof

/-! ## Landing -/

/-- The fields of a crew that a landing may write. -/
def Crew.Landed (a b : Crew) : Prop :=
  ∃ th s q f c fl, b = { a with threads := th, s := s, q := q, fps := f, cst := c, flags := fl }

theorem Crew.Landed.refl (a : Crew) : a.Landed a := ⟨_, _, _, _, _, _, rfl⟩

theorem Crew.Landed.trans {a b c : Crew} (h : a.Landed b) (g : b.Landed c) : a.Landed c := by
  obtain ⟨_, _, _, _, _, _, rfl⟩ := h
  obtain ⟨_, _, _, _, _, _, rfl⟩ := g
  exact ⟨_, _, _, _, _, _, rfl⟩

theorem Crew.landed_land1 (cr : Crew) (w : RegWrite) : cr.Landed (cr.land1 w) := by
  cases w <;> simp only [Crew.land1]
  · exact ⟨_, _, _, _, _, _, rfl⟩
  · exact ⟨_, _, _, _, _, _, rfl⟩
  · split
    · exact ⟨_, _, _, _, _, _, rfl⟩
    · exact Crew.Landed.refl _
  · split
    · exact ⟨_, _, _, _, _, _, rfl⟩
    · exact Crew.Landed.refl _

theorem Crew.landed_landAll (cr : Crew) (l : List RegWrite) : cr.Landed (cr.landAll l) := by
  induction l generalizing cr with
  | nil => exact Crew.Landed.refl _
  | cons w t ih => exact (Crew.landed_land1 cr w).trans (ih (cr.land1 w))

theorem Crew.landed_landOwed (cr : Crew) (o : Owed) : cr.Landed (cr.landOwed o) := by
  refine (Crew.landed_landAll cr o.writes).trans ?_
  unfold Crew.landOwed Crew.raiseSat Crew.flagDown
  split <;> split <;> exact ⟨_, _, _, _, _, _, rfl⟩

theorem Crew.landed_foldl (cr : Crew) (l : List Owed) : cr.Landed (l.foldl Crew.landOwed cr) := by
  induction l generalizing cr with
  | nil => exact Crew.Landed.refl _
  | cons o t ih => exact (Crew.landed_landOwed cr o).trans (ih _)

/-- Landing writes registers, flags, FPS and CST, and takes what has landed off the owed list. -/
theorem Crew.landIf_cases (cr : Crew) (p : Owed → Bool) :
    ∃ th s q f c fl, cr.landIf p = { cr with
      threads := th, s := s, q := q, fps := f, cst := c, flags := fl,
      owed := (cr.owed.filter (fun o => !p o)).map (·.unless (cr.owed.filter p)) } := by
  obtain ⟨th, s, q, f, c, fl, h⟩ := Crew.landed_foldl cr (cr.owed.filter p)
  exact ⟨th, s, q, f, c, fl, by rw [Crew.landIf, h]⟩

/-! ## The beginning of an issue -/

/-- What an issue begins with: the crew and its workgroup exist, and only that crew and `fresh` change. -/
theorem State.begin_cases {s : State} {h : Hdr} {x : Cx} {s1 : State} (hb : s.begin h = some (x, s1)) :
    ∃ cr, s.cur = some x.key ∧ s.crew? x.key = some cr ∧ s.wg? x.key.core cr.wg = some x.wg ∧ x.h = h ∧ x.fresh = s.fresh ∧
      x.crew = ({ cr with lastIssue := some s.now } : Crew).landDue s.now ∧
      x.next = x.pc + BitVec.ofNat 64 h.form.bytes ∧ s1 = State.setCrew { s with fresh := s.fresh + 1 } x.key x.crew := by
  unfold State.begin at hb
  split at hb
  · cases hb
  · rename_i key hk
    split at hb
    · cases hb
    · rename_i cr hc
      split at hb
      · cases hb
      · rename_i wg hw
        cases hb
        exact ⟨cr, hk, hc, hw, rfl, rfl, rfl, rfl, rfl⟩

@[simp] theorem State.begin_mem {s : State} {h : Hdr} {x : Cx} {s1 : State} (hb : s.begin h = some (x, s1)) :
    s1.mem = s.mem := by
  obtain ⟨cr, -, -, -, -, -, -, -, rfl⟩ := State.begin_cases hb
  rfl

/-- The state in which the instruction acts holds the crew of its context. -/
theorem State.begin_crew {s : State} {h : Hdr} {x : Cx} {s1 : State} (hb : s.begin h = some (x, s1)) :
    s1.crew? x.key = some x.crew := by
  obtain ⟨cr, -, -, -, -, -, -, -, rfl⟩ := State.begin_cases hb
  simp

/-- Where the issue begins, the meaning runs in its context. -/
theorem withCx_eq {h : Hdr} {s : State} {x : Cx} {s1 : State} (hb : s.begin h = some (x, s1)) (k : Cx → State → Out) :
    withCx h s k = k x s1 := by
  simp [withCx, hb]

/-- An instruction with no crew to run it stops; any other next state comes from its body. -/
theorem withCx_next {h : Hdr} {s t : State} {k : Cx → State → Out} (hn : withCx h s k = .next t) :
    ∃ x s1, s.begin h = some (x, s1) ∧ k x s1 = .next t := by
  unfold withCx at hn
  split at hn
  · cases hn
  · rename_i x s1 hb
    exact ⟨x, s1, hb, hn⟩

/-! ## Charges and counts: the meters alone -/

@[simp] theorem State.charge_mem (s : State) (c w : Nat) (p : Place) (cls n : Nat) : (s.charge c w p cls n).mem = s.mem := by
  unfold State.charge
  split
  · rfl
  · dsimp only
    split <;> rfl

@[simp] theorem State.charge_crew (s : State) (c w : Nat) (p : Place) (cls n : Nat) (j : CrewKey) :
    (s.charge c w p cls n).crew? j = s.crew? j := by
  unfold State.charge
  split
  · rfl
  · dsimp only
    have e (t : State) (q : Place) (m : Nat) : (t.addDyn q m).crew? j = t.crew? j := rfl
    split
    · rw [e, State.crew_setWg]
    · show kfind j.slot ((State.modCore _ c _).core j.core).crews = _
      rw [State.core_modCore]
      split
      · rename_i h
        show kfind j.slot ((State.addDyn _ _ _).core c).crews = _
        subst h
        exact (e _ _ _).trans (State.crew_setWg s j.core w _ j)
      · exact (e _ _ _).trans (State.crew_setWg s c w _ j)

@[simp] theorem State.count_mem (s : State) (c ctx : Nat) (conf : Bool) (ev n : Nat) : (s.count c ctx conf ev n).mem = s.mem := rfl

@[simp] theorem State.count_crew (s : State) (c ctx : Nat) (conf : Bool) (ev n : Nat) (j : CrewKey) :
    (s.count c ctx conf ev n).crew? j = s.crew? j := by
  show kfind j.slot ((State.modCore _ c _).core j.core).crews = _
  rw [State.core_modCore]
  split
  · rename_i h; rw [← h]; rfl
  · rfl

@[simp] theorem State.issueCost_mem (s : State) (x : Cx) (cls : Nat) : (s.issueCost x cls).mem = s.mem := by
  unfold State.issueCost State.chargeCx State.countCx
  split
  · rfl
  · split
    · simp
    · split
      · simp
      · split <;> simp

@[simp] theorem State.issueCost_crew (s : State) (x : Cx) (cls : Nat) (j : CrewKey) :
    (s.issueCost x cls).crew? j = s.crew? j := by
  unfold State.issueCost State.chargeCx State.countCx
  split
  · rfl
  · dsimp only
    split
    · simp
    · split
      · simp
      · split <;> simp

/-! ## Retiring: the crew it retires, and storage -/

@[simp] theorem retireFixed_mem (x : Cx) (s : State) (cls d : Nat) (dst : Dest) (ws : List RegWrite) (fps : BitVec 5)
    (sat : Bool) : (retireFixed x s cls d dst ws fps sat).mem = s.mem := by simp [retireFixed]
@[simp] theorem retireVar_mem (x : Cx) (s : State) (cls : Nat) (dst : Dest) (ws : List RegWrite) (fps : BitVec 5) (sat : Bool) :
    (retireVar x s cls dst ws fps sat).mem = s.mem := by simp [retireVar]
@[simp] theorem retireNone_mem (x : Cx) (s : State) (cls : Nat) : (retireNone x s cls).mem = s.mem := by simp [retireNone]
@[simp] theorem retireIdle_mem (x : Cx) (s : State) : (retireIdle x s).mem = s.mem := by simp [retireIdle]

theorem retireFixed_crew (x : Cx) (s : State) (cls d : Nat) (dst : Dest) (ws : List RegWrite) (fps : BitVec 5) (sat : Bool)
    (j : CrewKey) :
    (retireFixed x s cls d dst ws fps sat).crew? j = if j = x.key then (s.crew? x.key).map (fun cr =>
      ((((x.flagUp cr dst).owe x.h.sf (some (s.now + if x.h.uni then 2 else d)) ws 0 false).raiseFps fps).raiseSat sat).advance
        x.next) else s.crew? j := by
  simp [retireFixed, State.crew_modCrew]

theorem retireVar_crew (x : Cx) (s : State) (cls : Nat) (dst : Dest) (ws : List RegWrite) (fps : BitVec 5) (sat : Bool)
    (j : CrewKey) :
    (retireVar x s cls dst ws fps sat).crew? j = if j = x.key then (s.crew? x.key).map (fun cr =>
      ((x.flagUp cr dst).owe x.h.sf none ws fps sat).advance x.next) else s.crew? j := by
  simp [retireVar, State.crew_modCrew]

theorem retireNone_crew (x : Cx) (s : State) (cls : Nat) (j : CrewKey) :
    (retireNone x s cls).crew? j = if j = x.key then (s.crew? x.key).map (fun cr =>
      ((x.flagUp cr Dest.none).flagDown x.h.sf).advance x.next) else s.crew? j := by
  simp [retireNone, State.crew_modCrew]

@[simp] theorem retireIdleCtl_mem (x : Cx) (s : State) : (retireIdleCtl x s).mem = s.mem := by simp [retireIdleCtl]

theorem retireIdleCtl_crew (x : Cx) (s : State) (j : CrewKey) :
    (retireIdleCtl x s).crew? j = if j = x.key then (s.crew? x.key).map (·.landFixed.advance x.next) else s.crew? j := by
  simp [retireIdleCtl, State.crew_modCrew]

theorem retireIdle_crew (x : Cx) (s : State) (j : CrewKey) :
    (retireIdle x s).crew? j = if j = x.key then (s.crew? x.key).map (·.advance x.next) else s.crew? j := by
  simp [retireIdle, State.crew_modCrew]

/-! ## Exceptions -/

@[simp] theorem State.abortWg_mem (s : State) (c w : Nat) (i : AbortInfo) : (s.abortWg c w i).mem = s.mem := by
  simp [State.abortWg]

@[simp] theorem raiseAt_mem (s : State) (key : CrewKey) (e : Exc) : (raiseAt s key e).mem = s.mem := by
  unfold raiseAt
  split
  · rfl
  · split
    · rfl
    · dsimp only
      split
      · simp
      · split <;> simp

@[simp] theorem Cx.raiseWord_mem (x : Cx) (s : State) (e : Exc) : (x.raiseWord s e).mem = s.mem := by simp [Cx.raiseWord]
@[simp] theorem Cx.raiseAs_mem (x : Cx) (s : State) (cls : Nat) (e : Exc) : (x.raiseAs s cls e).mem = s.mem := by
  simp [Cx.raiseAs]
@[simp] theorem Cx.raise_mem (x : Cx) (s : State) (e : Exc) : (x.raise s e).mem = s.mem := by simp [Cx.raise]
@[simp] theorem Cx.illegal_mem (x : Cx) (s : State) : (x.illegal s).mem = s.mem := by simp [Cx.illegal]
@[simp] theorem Cx.badOperand_mem (x : Cx) (s : State) : (x.badOperand s).mem = s.mem := by simp [Cx.badOperand]
@[simp] theorem Cx.badValue_mem (x : Cx) (s : State) : (x.badValue s).mem = s.mem := by simp [Cx.badValue]
@[simp] theorem Cx.fpTrap_mem (x : Cx) (s : State) (cls : Nat) (f : BitVec 5) : (x.fpTrap s cls f).mem = s.mem := by
  simp [Cx.fpTrap]

/-! ## Instructions that compute in registers -/

/-- Whatever it does, an instruction of groups 0x0-0x6 that computes in registers leaves every byte of storage as it was. -/
theorem computeOn_mem (x : Cx) (s : State) (ok : Bool) (cls : Nat) (delay : Option Nat) (dst : Dest) (body : Cx → Eff) :
    (computeOn x s ok cls delay dst body).mem = s.mem := by
  unfold computeOn
  split
  · simp
  · split
    · simp
    · split
      · simp
      · simp
      · split
        · simp
        · split <;> simp

theorem compute_mem {h : Hdr} {s t : State} {ok : Kernel → Bool} {cls : Nat} {delay : Option Nat} {dst : Dest}
    {body : Cx → Eff} (hn : compute h s ok cls delay dst body = .next t) : t.mem = s.mem := by
  obtain ⟨x, s1, hb, hk⟩ := withCx_next hn
  cases hk
  rw [computeOn_mem, State.begin_mem hb]

/-! ## Control instructions -/

/-- What a control instruction does where its body goes through (R161, R76). -/
theorem control_done {h : Hdr} {s s1 s2 : State} {x : Cx} {ok : Kernel → Bool} {dst : Kernel → Dest} {body : Cx → Rd Ctl} {f : Crew → Crew}
    (hb : s.begin h = some (x, s1)) (hm : x.crew.hmode = false) (hk : ok x.kernel = true) (hi : x.idle = false)
    (hd : body x s1 = (.ok (.done f), s2)) :
    control h ok dst body s = .next ((s2.issueCost x 0).modCrew x.key (fun cr =>
      ((f (x.flagUp cr (dst x.kernel)).landFixed).flagDown x.h.sf).advance x.next)) := by
  simp [control, withCx, hb, hm, hk, hi, hd]

/-- A check of R173 that fails changes nothing of any thread. -/
theorem control_bad {h : Hdr} {s s1 s2 : State} {x : Cx} {ok : Kernel → Bool} {dst : Kernel → Dest} {body : Cx → Rd Ctl}
    (hb : s.begin h = some (x, s1)) (hm : x.crew.hmode = false) (hk : ok x.kernel = true) (hi : x.idle = false)
    (hd : body x s1 = (.ok .bad, s2)) : control h ok dst body s = .next (x.badValue s2) := by
  simp [control, withCx, hb, hm, hk, hi, hd]

/-- A body that traps. -/
theorem control_exc {h : Hdr} {s s1 s2 : State} {x : Cx} {ok : Kernel → Bool} {dst : Kernel → Dest} {body : Cx → Rd Ctl} {e : Exc}
    (hb : s.begin h = some (x, s1)) (hm : x.crew.hmode = false) (hk : ok x.kernel = true) (hi : x.idle = false)
    (hd : body x s1 = (.ok (.exc e), s2)) : control h ok dst body s = .next (x.raise s2 e) := by
  simp [control, withCx, hb, hm, hk, hi, hd]

/-- In handler mode a control instruction is an illegal instruction (R413). -/
theorem control_handler {h : Hdr} {s s1 : State} {x : Cx} {ok : Kernel → Bool} {dst : Kernel → Dest} {body : Cx → Rd Ctl}
    (hb : s.begin h = some (x, s1)) (hm : x.crew.hmode = true) : control h ok dst body s = .next (x.illegal s1) := by
  simp [control, withCx, hb, hm]

/-- No thread takes part (R11, R76). -/
theorem control_idle {h : Hdr} {s s1 : State} {x : Cx} {ok : Kernel → Bool} {dst : Kernel → Dest} {body : Cx → Rd Ctl}
    (hb : s.begin h = some (x, s1)) (hm : x.crew.hmode = false) (hk : ok x.kernel = true) (hi : x.idle = true) :
    control h ok dst body s = .next (retireIdleCtl x s1) := by
  simp [control, withCx, hb, hm, hk, hi]

/-! ## Steps -/

/-- A step plays the first move of the agenda. -/
theorem step_agenda {s : State} {m : Move} {t : List Move} (h : s.agenda = m :: t) :
    step s = State.move { s with agenda := t } m := by
  simp [step, State.advance, h]

/-- With an empty agenda it plays the first move of the part's own round. -/
theorem step_round {s : State} {m : Move} {t : List Move} (h : s.agenda = []) (hr : s.round = m :: t) :
    step s = State.move { s with agenda := t } m := by
  simp [step, State.advance, h, hr]

end Sys2Proof.Machine
end

