-- ==== Sys2Proof/Tests/Slice0.lean ====
section
/-! SUPPORT. Tests: ill-formed instructions, words written out from the spec's encodings, worked examples of the spec, one-step
results on small states, and for each statement that has hypotheses a state and operands that meet them. -/

namespace Sys2Proof.Tests

open Sys2Proof Sys2Proof.Machine Sys2Proof.Claims

-- one theorem at a time: a thread for each would fill the memory
set_option Elab.async false

/-! ## Ill-formed instructions (Instr.wf, check by check) -/

/-- Control fields of an ordinary word, by form and UNI. -/
def hd (form : Form) (uni : Bool) : Hdr := wordHdr form uni none

theorem test_wf_header : ∀ i ∈ [Instr.nop { hd .w64 false with wait := 0x003 }, .nop { hd .w64 true with pg := 5 },
    .next { hd .w64 false with bt := 0 }, .regroup { hd .w64 false with pn := true } (.r .z) 0, .rdl (hd .w64 true) (.s 1),
    .unbind (hd .w64 false) (.r .z)], i.wf = false := by decide

theorem test_wf_operands : ∀ i ∈ [Instr.iadd (hd .w64 true) .s32 (.v 1) (.r .z) (.r .z),
    .iadd (hd .w64 false) .s32 (.v 1) (.imm 5) (.r .z), .iadd (hd .w96 false) .s32 (.v 1) (.imm 5) (.imm 6),
    .imad (hd .w64 false) .s32 (.v 1) (.r .z) (.r .z) (.r (.v 2)),
    .imad (hd .w128 false) .s32 (.v 1) (.imm 0x00800000) (.r .z) (.r (.v 2)),
    .icmp (hd .w64 true) .s32 .eq (.p 0) (.r .z) (.r .z), .movi (hd .w64 false) true true (.v 0) 1], i.wf = false := by decide

theorem test_wf_types : ∀ i ∈ [Instr.idiv (hd .w64 false) .s8x4 (.v 1) (.r .z) (.r .z),
    .imadw (hd .w64 false) .s64 (.v 2) (.r .z) (.r .z) (.r (.v 2)), .iabs (hd .w64 false) .n32 (.v 1) (.r .z),
    .qscale (hd .w64 false) (.scale .b16 .f16) (.v 1) (.r .z), .scan (hd .w64 false) .f32 .and false false (.v 1) (.r .z),
    .vred (hd .w64 false) .s32 .min true (.v 1) (.r .z), .cvtfi (hd .w64 false) .f32 true .rn .s32 (.v 1) (.r .z),
    .cvtff (hd .w64 false) .f32 .f32 .rn (.v 1) (.r .z) (.r .z),
    .dot4 (hd .w96 false) .s8 .s8 (some (.v 4)) (.v 1) (.r .z) (.r .z) (.r (.v 1)),
    .fmin (hd .w64 false) { ty := .f32, rm := .rz, sat := false, nega := false, absa := false } (.v 1) (.r .z) (.r .z)],
    i.wf = false := by decide

theorem test_wf_memory : ∀ i ∈ [Instr.ld (hd .w64 false) .b4 false .plain .normal (.v 1) { base := .pr 0, off := .z, disp := 4 },
    .ld (hd .w64 false) .b4 false (.acq .dev) .normal (.v 1) { base := .pr 0, off := .z, disp := 0 },
    .ld (hd .w96 false) .b4 false (.rel .dev) .normal (.v 1) { base := .pr 0, off := .z, disp := 0 },
    .st (hd .w96 false) .b4 (.acq .dev) .normal (.v 1) { base := .pr 0, off := .z, disp := 0 },
    .ld (hd .w64 false) .b4 true .plain .normal (.v 1) { base := .pr 0, off := .z, disp := 0 },
    .lds (hd .w64 false) .b4 false (.v 1) { base := .z, off := .z, disp := 4 },
    .atom (hd .w64 false) .inc .b8 .plain (.v 2) { base := .pr 0, off := .z, disp := 0 },
    .ldt (hd .w96 false) .x1 (.scl (.pr 1)) .normal (.v 1) { base := .pr 0, off := .z, disp := 0 }], i.wf = false := by decide

theorem test_wf_engines : ∀ i ∈ [Instr.arrive (hd .w64 true) (.s 1) (.off (.imm 16)),
    .copy (hd .w64 true) .none .gs (.s 16) (.r (.s 0)) (.r (.s 2)) (.r (.s 17)), .drain (hd .w64 true) false false false,
    .rsv (hd .w64 true) true 0 none (.s 1) (.r (.s 2)), .exitn (hd .w64 false) 193 (.r .z),
    .regroup (hd .w64 false) (.r .z) 193], i.wf = false := by decide

theorem test_wf_events : ∀ i ∈ [Instr.waitTimeout ⟨768, 0⟩, .waitTimeout ⟨0, 64⟩, .copyBeat 768 0, .grant 0 64,
    .stallSample 0 4, .step 0 0 16, .replay 4096, .panWrite 64 0 []], i.wf = false := by decide

/-! ## Words, bit by bit -/

/-- A 64-bit word from the fields of R69: LEN 1:0, BT 6:2, SD 9:7, UNI 10, WT 14:11, SF 18:15, OP 27:19, DST 35:28, SA 43:36,
SB 51:44, PG 54:52, PN 55, MOD 63:56. -/
def word (len uni op dst sa sb md : Nat) : Nat :=
  len + 31 * 2 ^ 2 + uni * 2 ^ 10 + 15 * 2 ^ 15 + op * 2 ^ 19 + dst * 2 ^ 28 + sa * 2 ^ 36 + sb * 2 ^ 44 + 7 * 2 ^ 52 + md * 2 ^ 56

def V (k : Fin 192) : Src := .r (.v k)

theorem test_decode_words : ∀ e ∈ specWords, (decodeBytes e.1.length e.1).toOption = e.2.map (fun i => (i, e.1.length)) := by
  decide

/-- UDF: every word whose OP is 0 (R125). -/
theorem test_decode_udf : decodeTableWord 64 0 = some .udf := by decide

theorem test_decode_logic :
    decodeTableWord 64 (word 0 0 0x022 2 3 4 0) = some (.xor (hd .w64 false) .s32 (.v 2) (V 3) (V 4)) ∧
    decodeTableWord 64 (word 0 0 0x025 2 3 4 0x96) = some (.bool3 (hd .w64 false) 0x96 (.v 2) (V 3) (V 4) (V 2)) ∧
    decodeTableWord 64 (word 0 0 0x028 2 3 4 0) = some (.sar (hd .w64 false) .s32 (.v 2) (V 3) (V 4)) := by decide

theorem test_decode_moves :
    decodeTableWord 64 (word 0 0 0x040 2 3 4 0x18) = some (.icmp (hd .w64 false) .s32 .le (.p 2) (V 3) (V 4)) ∧
    decodeTableWord 64 (word 0 0 0x042 2 4 6 0x11) = some (.sel (hd .w64 false) true (.p 1) (.v 2) (V 4) (V 6)) ∧
    decodeTableWord 64 (word 0 0 0x044 2 0x34 0x12 2) = some (.movi (hd .w64 false) false true (.v 2) 0x1234) ∧
    decodeTableWord 64 (word 0 0 0x046 2 3 9 2) = some (.pand (hd .w64 false) false true (.p 2) (.p 3) (.q 1)) := by decide

theorem test_decode_conversions :
    decodeTableWord 64 (word 0 0 0x080 2 3 254 0x8D) = some (.cvtfi (hd .w64 false) .f16x2 true .rz .s16 (.v 2) (V 3)) ∧
    decodeTableWord 64 (word 0 0 0x082 2 3 4 0xC3) = some (.cvtff (hd .w64 false) .e4m3 .f32 .rm (.v 2) (V 3) (V 4)) ∧
    decodeTableWord 64 (word 0 0 0x084 2 3 4 6) = some (.pack (hd .w64 false) .w8 .ss (.v 2) (V 3) (V 4)) := by decide

theorem test_decode_dots :
    decodeTableWord 64 (word 0 0 0x0A9 2 3 4 9) = some (.dot4 (hd .w64 false) .e5m2 .s8 none (.v 2) (V 3) (V 4) (V 2)) ∧
    decodeTableWord 64 (word 0 0 0x0A0 2 3 254 1) =
      some (.rcp (hd .w64 false) { ty := .f16x2, rm := .rn, sat := false, nega := false, absa := false } (.v 2) (V 3)) := by decide

theorem test_decode_cross :
    decodeTableWord 64 (word 0 0 0x0CA 3 254 254 1) = some (.lead (hd .w64 false) true (.p 3)) ∧
    decodeTableWord 64 (word 0 0 0x0C7 5 7 254 2) = some (.peers (hd .w64 false) false (.all (.p 5)) (V 7)) := by decide

theorem test_decode_cache :
    decodeTableWord 64 (word 0 0 0x147 254 254 254 0) = some (.isync (hd .w64 false)) ∧
    decodeTableWord 64 (word 0 1 0x142 254 197 254 0) = some (.unbind (hd .w64 true) (.r (.s 5))) ∧
    decodeTableWord 64 (word 0 0 0x142 254 197 254 0) = none := by decide

/-! ## Worked examples -/

/-- R109: S8 -100 and E2M1 -3.0 (integer -6). -/
theorem test_trits : trits 6 (-100) = [-1, 0, 1, -1, -1, 0] ∧ trits 3 (-6) = [0, 1, -1] := by decide

/-- R209's worked placement: channel 760, offset 0x51_6ABC, and the same byte in the channel window. -/
theorem test_placement : localPlace (0xFFC00F4240ABC % 2 ^ 42) = some (760 * 2 ^ 29 + 0x516ABC, false) ∧
    localPlace (0xFFCDF00516ABC % 2 ^ 42) = some (760 * 2 ^ 29 + 0x516ABC, true) := by decide

/-- R423: an image of 90,112 bytes. -/
theorem test_image : imageSize { placedKernel with crews := 2, vregs := 32, scratch := 66 * 1024, stash := 0 } 0 = 90112 := by decide

/-- The barrier's words after the steps of the table of chapter 14. -/
theorem test_barrier :
    let b1 : Bar := { expa := 2, arr := 0, expb := 0, landed := 0, phase := 0, busy := false }
    let b2 := (b1.expect 128).check; let b4 := ((b2.land 32).check.arrive).check; let b6 := ((b4.land 64).check.arrive).check
    b2.toNat = 2 + 0x80 * 2 ^ 32 + 0x80000000 * 2 ^ 96 ∧ b4.toNat = 0x10002 + 0x80 * 2 ^ 32 + 0x20 * 2 ^ 64 + 0x80000000 * 2 ^ 96 ∧
    b6.toNat = 0x20002 + 0x80 * 2 ^ 32 + 0x60 * 2 ^ 64 + 0x80000000 * 2 ^ 96 ∧ (b6.land 32).check.toNat = 2 + 2 ^ 96 := by decide

/-! ## A small state, and what it takes to issue there -/

/-- One resident workgroup of one crew, whose thread 0 alone is live; every register holds 0; its instruction runs. -/
def demo : State := { State.reset.placeBlock [] with cur := some ⟨0, 0⟩ }
/-- The same with a change to its crew. -/
def demoCrew (f : Crew → Crew) : State := demo.modCrew ⟨0, 0⟩ f
/-- The same with a change to its workgroup, or to its core. -/
def demoWg (f : Wg → Wg) : State := demo.modWg 0 0 f
def demoCore (f : Core → Core) : State := demo.modCore 0 f

/-- The crew issues and executes, and its context meets a condition. -/
def issuesWith (h : Hdr) (s : State) (p : Cx → State → Bool) : Bool :=
  match s.begin h with
  | some (x, s1) => !x.idle && p x s1
  | none => false

theorem issues_of {h : Hdr} {s : State} {p : Cx → State → Bool} (e : issuesWith h s p = true) :
    ∃ x s1, Issues h s x s1 ∧ p x s1 = true := by
  unfold issuesWith at e
  split at e
  · rename_i x s1 hb
    rw [Bool.and_eq_true, Bool.not_eq_true'] at e
    exact ⟨x, s1, ⟨hb, e.1⟩, e.2⟩
  · cases e

/-- Ordinary words of the two kinds. -/
def hv : Hdr := hd .w64 false
def hu : Hdr := hd .w64 true
def f32m : FlMod := { ty := .f32, rm := .rn, sat := false, nega := false, absa := false }

/-! ## Every statement's hypotheses are met -/

theorem witness_IntegerLanes : ∃ x s1, Issues hv demo x s1 ∧
    (ok3 .s32 (.v 1) (V 2) (V 3) (V 191) x.kernel && ok3 .n64 (.v 190) (V 2) (.r .z) (V 4) x.kernel) = true :=
  issues_of (by decide)

theorem witness_SaturatingLanes : ∃ x s1, Issues hv demo x s1 ∧
    (ok2 .s8x4 (.v 1) (V 2) (V 3) x.kernel && ok2 .n64 (.s 60) (V 2) (V 4) x.kernel) = true := issues_of (by decide)

theorem witness_CarryWideAddress : ∃ x s1, Issues hv demo x s1 ∧
    ((x.kernel.r1 (.v 1) && x.kernel.s1 (V 2) && x.kernel.s1 (V 3)) &&
     (x.kernel.rw true (.v 2) && x.kernel.s1 (V 2) && x.kernel.s1 (V 3) && x.kernel.sw true (V 4)) &&
     (x.kernel.rw true (.v 2) && x.kernel.sw true (V 4) && x.kernel.s1 (V 5))) = true := issues_of (by decide)

theorem witness_BitwiseOperations : ∃ x s1, Issues hv demo x s1 ∧
    (ok2 .s64 (.v 2) (V 4) (V 6) x.kernel && IntTy.std .s64 &&
     (x.kernel.r1 (.v 1) && x.kernel.s1 (V 2) && x.kernel.s1 (V 3) && x.kernel.s1 (V 4))) = true := issues_of (by decide)

theorem witness_ShiftsAndCounts : ∃ x s1, Issues hv demo x s1 ∧
    (ok1 .s64 (.v 2) (V 4) x.kernel && x.kernel.s1 (V 6) && (x.kernel.r1 (.v 1) && x.kernel.sw true (V 4))) = true :=
  issues_of (by decide)

theorem witness_MovesAndPredicates : ∃ x s1, Issues hv demo x s1 ∧
    ((x.kernel.sw true (V 2) && x.kernel.sw true (V 4)) && (x.kernel.rw true (.v 2) && x.kernel.sw true (V 4)) &&
     ok1 .s64 (.v 2) (V 4) x.kernel && x.kernel.r1 (.v 1) && decide ((15 : BitVec 8).toNat < 16 ∧ (15 : BitVec 8).toNat ≠ 14) &&
     !(hv.uni) && x.kernel.s1 (V 2)) = true := issues_of (by decide)

theorem witness_FloatArithmetic : ∃ x s1, Issues hv demo x s1 ∧
    ((x.kernel.r1 (.v 1) && x.kernel.s1 (V 2) && x.kernel.s1 (V 3) && x.kernel.s1 (V 191)) &&
     decide ((0 : Fps) &&& x.kernel.fpEnables = 0)) = true := issues_of (by decide)

theorem witness_FloatRounding : fE4M3 ∈ [fF32, fF16, fBF16, fE4M3, fE5M2, fE2M1] ∧ 0x7E < 2 ^ fE4M3.width ∧
    fval fE4M3 0x7E = .fin false 14 5 := by decide

theorem witness_ZeroSignsAndInvalid : ((2 : ℕ) : ℚ) * 2 ^ (-3 : ℤ) = (1 : ℕ) * 2 ^ (-2 : ℤ) ∧
    fval fF32 0x7F800001 = .nan true ∧ fval fF32 0x7FC00000 = .nan false ∧ (fval fF32 0x80000000).isNan = false :=
  ⟨by norm_num, by decide, by decide, by decide⟩

theorem witness_Conversions : ∃ x s1, Issues hv demo x s1 ∧
    ((x.kernel.rw (CvtInt.wide .s64) (.v 2) && x.kernel.s1 (V 3)) && (x.kernel.r1 (.v 1) && x.kernel.sw (CvtInt.wide .s64) (V 2)) &&
     (x.kernel.r1 (.v 1) && x.kernel.s1 (V 2) && x.kernel.s1 (V 3))) = true := issues_of (by decide)

theorem witness_PackAndUnpack : PkMode.ss ≠ .trunc ∧ ∃ x s1, Issues hv demo x s1 ∧
    (x.kernel.r1 (.v 1) && x.kernel.s1 (V 2) && x.kernel.s1 (V 3)) = true := ⟨by decide, issues_of (by decide)⟩

theorem witness_ErrorFeedback : ∃ x s1, Issues hv demo x s1 ∧
    ((x.kernel.r1 (.v 1) && x.kernel.s1 (V 2)) && decide (x.kernel.fpEnables = 0)) = true := issues_of (by decide)
/-- A sum that is a NaN, one that saturates, and one that does neither. -/
theorem witness_FeedStep : (fval fF32 (fAdd fF32 .rn (fval fF32 0x7FC00000) (fval fF32 0)).code).isNan = true ∧
    (narrowTo .e2m1 (fval fF32 0x40E00000)).ovf = true ∧ (narrowTo .e2m1 (fval fF32 0x3F200000)).ovf = false ∧
    (fval fF32 0x3F200000).isNan = false ∧ (fval fF32 0x3F200000).isInf = false := by decide +kernel

theorem witness_SpecialFunctions : ∃ x s1, Issues hv demo x s1 ∧
    ((x.kernel.r1 (.v 1) && x.kernel.s1 (V 2)) && (x.kernel.rw true (.v 190) && x.kernel.s1 (V 2))) = true := issues_of (by decide)

/-- A power of two, an integer, zeros, a negative number, infinities and NaNs. -/
theorem witness_SpecialExactCases : fval fF16 0xFC00 = .inf true ∧ fval fF32 0x7F800000 = .inf false ∧ fval fBF16 0x7FC0 = .nan false ∧
    fval fF16 0x7D00 = .nan true ∧ fval fE4M3 0 = .fin false 0 (-9) ∧ fval fF16 0x4400 = .fin false (2 ^ 10) (-8) ∧
    (2 ^ 10 : Nat) = 4 * 2 ^ (8 : Nat) ∧ fval fF16 0x8000 = .fin true 0 (-24) ∧ fval fF16 0xC400 = .fin true (2 ^ 10) (-8) := by decide

theorem witness_DotProducts : ∃ x s1, Issues hv (demoWg (fun g => { g with kernel := { g.kernel with stepping := Config.stepping } })) x s1 ∧
    (x.kernel.r1 (.v 1) && x.kernel.s1 (V 2) && x.kernel.s1 (V 3) && x.kernel.s1 (V 1)) = true ∧ x.kernel.r1 (.v 4) = true ∧
    x.kernel.steppingOk = true := ⟨_, _, ⟨rfl, rfl⟩, rfl, rfl, beq_self_eq_true Config.stepping⟩

theorem witness_LaneReads : ∃ x s1, Issues hv demo x s1 ∧ (x.kernel.rw true (.v 2) && x.kernel.sw true (V 4) && x.kernel.s1 (V 1)) = true :=
  issues_of (by decide)

theorem witness_Votes : ∃ x s1, Issues hv demo x s1 ∧
    (x.kernel.rw false (.v 1) && x.kernel.rw true (.v 2) && x.kernel.sw true (V 4) && x.kernel.sw false (V 5)) = true :=
  issues_of (by decide)

theorem witness_ScanAndReduce : ∃ x s1, Issues hv demo x s1 ∧
    ((x.kernel.rw (ScanTy.wide .n64) (.v 2) && x.kernel.sw (ScanTy.wide .n64) (V 4)) && decide (x.kernel.fpEnables = 0)) = true :=
  issues_of (by decide)

theorem witness_ScanOverIntegers : ScanTy.width .n64 = 64 ∧ [0x7FFFFFFF, 1] ≠ ([] : List Nat) := by decide

/-- Pages of context 0 at VA 0 to 2^20, in the storage of core 0's channel, as the TLB of cluster 0 holds them. -/
def demoTlb : TlbEntry :=
  { key := 0, glob := false, va := 0, size := 2 ^ 20, pa := 0x3FF * 2 ^ 42 + 2 ^ 39, w := true, x := true, u := true, fmt := 1, bg := 0,
    cmp := false, plc := false, conf := false, acc := true, d := true, leaf := 0, level := 0 }
/-- A program of one region of two blocks at 0x1000, its header at 0xFC0: the bytes of the two lines that hold it. -/
def headLine : List Byte :=
  bytesOfNat 128 (2 ^ 512 * (0x484B575A + 2 * 2 ^ 32 + 2 * 2 ^ 48 + 192 * 2 ^ 64 + 62 * 2 ^ 72 + 0x40 * 2 ^ 224 + 2 ^ 256))
def bodyLine : List Byte :=
  bytesOfNat 128 (0x1000 + 0x40 * 2 ^ 64 + 2 * 2 ^ 96 + 2 * 2 ^ 128 + 2 ^ 136 + 3 * 2 ^ 144 +
    2 ^ 512 * (1 + 0x60 * 2 ^ 32 + 2 ^ 92) + 2 ^ 640 * (2 + 0x60 * 2 ^ 32 + 2 ^ 92))
/-- The program in core 0's instruction cache, and in the storage behind it. -/
def demoCode (co : Core) : Core :=
  let line lva bs : ILine := { ctx := 0, lva := lva, pa := 0x3FF * 2 ^ 35 + lva, bytes := bs, poison := 0 }
  (co.icPut (line 0x1F headLine)).icPut (line 0x20 bodyLine)
def coded (s : State) : State :=
  { (s.modCore 0 demoCode).modCrew ⟨0, 0⟩ (fun cr => { cr with dir := 0x1000, nreg := 1 }) with
                              tlb := [(0, [demoTlb])],
                              mem := kputBytes (kputBytes [] (0x3FF * 2 ^ 42 + 0xF80) headLine) (0x3FF * 2 ^ 42 + 0x1000) bodyLine }
/-- The same with a second live thread, whose P0 is true. -/
def twoThreads (cr : Crew) : Crew :=
  { cr with threads := cr.threads.set 1 { cr.thr 1 with br := mkBr false false 0 0, p := 1 } }
/-- The workgroup's kernel changed. -/
def demoKernel (f : Kernel → Kernel) : State := demoWg (fun g => { g with kernel := f g.kernel })

theorem witness_BlockExits : ∃ x s1, Issues hv demo x s1 ∧ (!x.crew.hmode && x.kernel.s1 (V 2) &&
    x.here.blockOk (1 : BitVec 5).toNat && x.lanes.all (fun t => x.here.blockOk ((x.rd t (V 2)).toNat % 32))) = true :=
  issues_of (by decide +kernel)

def demoBxc (univ : Bool) : State :=
  (demoKernel (fun k => { k with traps := if univ then 0xFFFFFFFF else k.traps })).modCrew ⟨0, 0⟩ twoThreads

/-- The four clauses: alike, and different with UNIV 0 and 1; and a block that the region has not. -/
theorem witness_ConditionalExit :
    (∃ x s1, Issues hv demo x s1 ∧ (!x.crew.hmode && x.lanes.all (fun t => !x.pred t (.p 0)) &&
      x.here.blockOk 0 && x.here.blockOk 30 && !x.here.blockOk 31) = true) ∧
    ∀ univ ∈ [false, true], ∃ x s1, Issues hv (demoBxc univ) x s1 ∧
      (!x.crew.hmode && (x.lanes == [0, 1]) && (x.pred 0 (.p 0) != x.pred 1 (.p 0)) && (x.kernel.univ == univ) &&
        x.here.blockOk 0 && x.here.blockOk 1) = true := by
  refine ⟨issues_of (by decide +kernel), fun u hu => ?_⟩
  cases u <;> exact issues_of (by decide +kernel)

theorem witness_CallsAndExits : ∃ x s1, Issues hv (coded demo) x s1 ∧
    (!x.crew.hmode && x.kernel.r1 (.v 1) && x.kernel.s1 (V 2) && decide ((192 : BitVec 8).toNat ≤ x.kernel.vregs) && x.here.blockOk 1 &&
    (match allOk .now x.acc x.crew.dir.toNat x.crew.nreg (x.lanes.map (fun t => x.rd t (V 2))) s1 with
      | (.ok ok, _) => ok
      | _ => false) &&
    x.lanes.all (fun t => decide ((x.rd t (V 2)).toNat % 512 < x.crew.nreg)) &&
    (match x.lanes.mapM (fun t => regionVia .now x.acc x.crew.dir.toNat ((x.rd t (V 2)).toNat % 512)) s1 with
      | (.ok rs, _) => rs.all Region.node
      | _ => false) &&
    (match allOk (.fetch true) x.acc x.crew.dir.toNat x.crew.nreg (x.lanes.map (fun t => x.rd t (V 2))) s1 with
      | (.ok ok, _) => ok
      | _ => false)) = true := issues_of (by decide +kernel)

/-- S0 and S1 hold the program's address, S2 and S3 its header's. -/
theorem witness_CallsBetweenPrograms :
    ∃ x s1, Issues hv (coded (demoCrew (fun cr => { cr with s := [(0, 0x1000), (2, 0xFC0)] }))) x s1 ∧
    (!x.crew.hmode && x.everyLive && x.kernel.r1 (.v 1) && x.kernel.spairOk (.pr 0) && x.kernel.spairOk (.pr 1) && x.kernel.s1 (V 2) &&
    x.here.blockOk 1 && (match checkHead x.acc x.kernel (x.rdPair (.pr 0) - 64) s1 with
      | (.ok (some _), _) => true
      | _ => false) &&
    (match checkHead x.acc x.kernel (x.rdPair (.pr 1)) s1 with
      | (.ok (some (hd, _)), s2) => (match allOk (.fetch true) x.acc hd.dir hd.nreg (x.lanes.map (fun t => x.rd t (V 2))) s2 with
        | (.ok ok, _) => ok
        | _ => false)
      | _ => false)) = true := issues_of (by decide +kernel)

/-- The demo's vote, and what it answers. -/
def votesAs (s : State) (p : Vote → Bool) : Prop := ∃ x s1, Issues hv s x s1 ∧ (!x.crew.hmode &&
  match vote x.acc (x.key.slot / 16) x.kernel (x.crew.landFixed.landLinks) s1 with
    | (.ok v, _) => p v
    | _ => false) = true
/-- Threads 0 and 1 in blocks 0 and 1, each held back `n` times. -/
def parted (n : Nat) (cr : Crew) : Crew :=
  (twoThreads cr).mapThr (fun t th => { th.toBlock (if t = 1 then 1 else 0) with holdCnt := n })

/-- A vote that fails (no translation); one that finds its state, and one that takes it from the state cache; an absent set that
traps, that takes a cover, and that is swept from its lowest block; a block of a sweep; and a crew without a live thread. -/
theorem witness_NextVotes :
    (∃ x s1, Issues hv demo x s1 ∧ (match vote x.acc (x.key.slot / 16) x.kernel (x.crew.landFixed.landLinks) s1 with
      | (.error _, _) => true
      | _ => false) = true) ∧
    votesAs (coded demo) (fun v => match v with
      | .enter _ f _ _ _ _ sweep counted absent time => f.d.set == 1 && sweep == 0 && counted && !absent && time == 5
      | _ => false) ∧
    votesAs ((coded demo).cachePut 0 0 0x1000 0 1 { d := StateD.ofNat 0 (1 + 0x60 * 2 ^ 32 + 2 ^ 92), r := Region.ofNat 0 }) (fun v =>
      match v with
      | .enter _ f _ _ _ _ _ _ absent time => f.d.set == 1 && !absent && time == 4
      | _ => false) ∧
    votesAs (coded ((demoKernel (fun k => { k with traps := 0xFFFFFFFF })).modCrew ⟨0, 0⟩ (fun cr => { cr.mapThr (fun _ th => th.toBlock 2) with
      sset := 4 }))) (fun v => match v with
      | .trap m _ => m == 4
      | _ => false) ∧
    votesAs (coded (demoCrew (parted 0))) (fun v => match v with
      | .enter _ f go vt _ _ sweep _ absent _ => f.d.set == 1 && go == 1 && vt == 3 && sweep == 0 && absent
      | _ => false) ∧
    votesAs (coded (demoCrew (parted 16))) (fun v => match v with
      | .enter _ f go vt run _ sweep _ absent _ => f.d.set == 1 && go == 1 && vt == 3 && run == 3 && sweep == 2 && absent
      | _ => false) ∧
    votesAs (coded (demoCrew (fun cr => { (parted 0 cr).modThr 1 (fun th => { th with swp := true }.setHeld true) with sweep := 2 }))) (fun v =>
      match v with
      | .enter _ f go _ _ _ sweep counted _ _ => f.d.set == 2 && go == 2 && sweep == 0 && !counted
      | _ => false) ∧
    (∃ cr, (demoCrew (fun cr => cr.mapThr (fun _ th => th.setExited true))).crew? ⟨0, 0⟩ = some cr ∧ cr.live = [] ∧ cr.sweep = 0 ∧
      cr.threads.length = 64) :=
  ⟨issues_of (by decide +kernel), issues_of (by decide +kernel), issues_of (by decide +kernel), issues_of (by decide +kernel),
   issues_of (by decide +kernel), issues_of (by decide +kernel), issues_of (by decide +kernel), _, rfl, by decide +kernel⟩

/-- No flag pending; one pending; and a workgroup whose crew stands at its REGROUP. -/
theorem witness_Regroups :
    (∃ x s1, Issues hv demo x s1 ∧ (!x.crew.hmode && x.kernel.s1 (V 1) && decide ((192 : BitVec 8).toNat ≤ x.kernel.vregs) &&
      x.crew.flags.all (fun e => e.cnt == 0)) = true) ∧
    (∃ x s1, Issues hv (demoCrew (fun cr => { cr with flags := cr.flags.set 3 { FlagEntry.zero with cnt := 1 } })) x s1 ∧
      (!x.crew.hmode && x.crew.flags.any (fun e => e.cnt != 0)) = true) ∧
    (let s := demoCrew (fun cr => { cr with block := .regroup (some 5 :: List.replicate 63 none) 4 none none 0x1008 })
     ∃ g, s.wg? 0 0 = some g ∧ g.crews.Nodup ∧ g.crews ≠ [] ∧
      ∀ sl ∈ g.crews, (s.core 0).stopped sl = false ∧ ∃ cr key sf b nx, s.crew? ⟨0, sl⟩ = some cr ∧ cr.block = .regroup key 4 sf b nx) :=
  ⟨issues_of (by decide +kernel), issues_of (by decide +kernel), _, rfl, by decide, by decide,
    fun sl h => by obtain rfl : sl = 0 := List.mem_singleton.mp h
                   exact ⟨rfl, _, _, _, _, _, rfl, rfl⟩⟩

/-- A line of context 0 at VA 0, held exclusively; its byte i holds i. -/
def demoLine : Line :=
  { ctx := 0, lva := 0, pa := 0x3FF * 2 ^ 35, w := true, d := true, hint := .normal, excl := true, tag := none,
    at_ := demoTlb.attr { payer := .house, core := 0, ctx := 0, func := 0, conf := false, bench := false }, valid := 0xF,
    bytes := (List.range 128).map (fun i => (i, BitVec.ofNat 8 i)), dirty := 0, writers := [], poison := 0 }
def demoMem : State := { demoCore (·.l1Put demoLine) with tlb := [(0, [demoTlb])] }
/-- Byte 64 + [P0] of global memory, and byte 64 + S5 of scratchpad. -/
def m64 : MemRef := { base := .pr 0, off := .z, disp := 64 }
def s64 : ScrRef := { base := .s 5, off := .z, disp := 64 }

/-- Loads, stores and atomics on the line, plain and ordered, each clean and ending. -/
theorem witness_MemoryInstructionsEnd : ∀ ord ∈ [Order.plain, .rel .dev], ∃ x s1, Issues hv demoMem x s1 ∧
    (let addrs := x.lanes.map (fun t => (t, (x.ea m64 t).toNat))
     let clean := fun (c : Checked (List Part)) => c.fault.isNone && c.first.isNone
     let s2 := x.countLoad s1 true
     let rd := s2.checkAll x.acc addrs 4 false (fun _ => !ord.wide)
     let wr := s1.checkAll x.acc addrs 4 true (fun _ => !ord.wide)
     let cr := s2.checkAll x.acc addrs 4 false (fun l => l.excl)
     let at_ := s2.checkAll x.acc addrs 4 true (fun l => l.excl)
     let red := s1.checkAll x.acc addrs 4 true (fun l => l.excl)
     let ldt := x.lanes.foldl (fun (c : Checked (List Elem)) t => c.add t (c.st.checkLdt x m64 .wide LdtCount.x4.num t)) (Checked.init s2)
     let lr := (readLdt x.acc .normal (.elems .wide x.kernel.ftz x.kernel.fpEnables) (.v 4) (fun p => ldt.st.atHome x.acc .normal p)
       ldt.pass ldt.st).1
     x.kernel.groupOk 4 (.v 4) && x.kernel.memOk m64 && !x.kernel.align &&
       x.lanes.all (fun t => (x.ea m64 t).toNat % 4 == 0) && clean rd && clean wr && clean cr && clean at_ && clean red &&
       ((withOrder ord x.acc rd.pass rd.st (fun st => x.sampled s2 x.acc rd.pass st (readAll
         (fun st p => if ord.wide then st.readMiss x.acc p else st.readPlain x.acc (ord.hint .normal) p)
         (fun t bs => wrWords t (.v 4) 0 (assemble false bs)) rd.pass))).withLate x (.v 4) (.words false)
           (lateRows (fun _ => ord.isPlain) 4 1 rd.pass [])).bad.isNone &&
       ((x.sampled s2 x.acc cr.pass cr.st (readAll (fun st p => st.readCoherent x.acc p)
         (fun t bs => wrWords t (.v 4) 0 (assemble false bs)) cr.pass)).withLate x (.v 4) (.words false)
           (lateRows (fun _ => true) 4 1 cr.pass [])).bad.isNone &&
       (withOrder ord x.acc wr.pass wr.st (writeAll Part.n Part.va
         (fun st p bs => if ord.wide then (st.writeMiss x.acc p bs, true) else st.writePlain x.acc (ord.hint .normal) p bs)
         (fun t => x.rdGroup t (.v 4) 4) wr.pass)).bad.isNone &&
       (withOrder ord x.acc at_.pass at_.st (fun st => x.sampled s2 x.acc at_.pass st (updateAll x.acc false
         (fun t => x.casWord .b4 (.v 4) t) (fun t old => wrWords t (.v 4) 0 (wordsOf 4 old)) at_.pass))).bad.isNone &&
       (withOrder ord x.acc red.pass red.st (updateAll x.acc true (fun t old => (some (atomicNew x.kernel.ftz .add 32 old (natOfBytes (x.rdGroup t (.v 4) 4))).1, 0)) (fun _ _ => []) red.pass)).bad.isNone &&
       ldt.fault.isNone && ldt.first.isNone && lr.bad.isNone && lr.fps &&& x.kernel.fpEnables == 0) = true := by
  intro o ho
  rcases List.mem_cons.mp ho with h | h
  · subst h; exact issues_of (by decide +kernel)
  · obtain rfl := List.mem_singleton.mp h; exact issues_of (by decide +kernel)

/-- What the three statements about a first-level line need. -/
theorem witness_FirstLevel : ∃ x s1, Issues hv demoMem x s1 ∧
    (match (s1.core x.key.core).l1Find x.wg.ctx demoLine.lva with
      | some l => decide (l = demoLine)
      | none => false) && x.kernel.groupOk MSize.b16.regs (.v 4) && x.kernel.groupOk (2 * ASize.b8.regs) (.v 4) && x.kernel.memOk m64 &&
    x.lanes.all (fun t => decide ((x.ea m64 t).toNat / 128 = demoLine.lva ∧ (x.ea m64 t).toNat % 128 + 16 ≤ 128 ∧
      (x.ea m64 t).toNat < 2 ^ 57 ∧ (x.ea m64 t).toNat % 16 = 0) && demoLine.has ((x.ea m64 t).toNat % 128) 16 &&
      !demoLine.bad ((x.ea m64 t).toNat % 128) 16) && !(demoMem.sysreg 0x27 x.wg.func).getLsbD 0 &&
    decide (homeOf (demoLine.pa * 128) = .core 0) = true := issues_of (by decide +kernel)

theorem witness_ScratchpadAccesses : ∃ x s1, Issues hv demo x s1 ∧ (x.kernel.scrOk s64 && (s1.wg? x.key.core x.crew.wg == some placedWg) &&
    (s1.core x.key.core).windows.isEmpty && !(demo.sysreg 0x27 x.wg.func).getLsbD 0 && x.kernel.groupOk MSize.b16.regs (.v 4) &&
    x.kernel.groupOk (2 * ASize.b8.regs) (.v 4) &&
    x.lanes.all (fun t => decide (0 ≤ x.scrOff s64 t ∧ x.scrOff s64 t + 16 ≤ x.kernel.alloc ∧ x.scrOff s64 t % 16 = 0))) = true :=
  issues_of (by decide +kernel)

theorem witness_AtomicNewWord : 0 < 64 ∧ 2 ^ 63 < 2 ^ 64 ∧ 2 ^ 64 - 1 < 2 ^ 64 ∧ AOp.inc ≠ .fadd ∧ AOp.inc ≠ .fmin ∧ AOp.inc ≠ .fmax := by
  decide

/-- A binding image at VA 0 (base 0, limit 128), which BIND and UNBIND of index 63 read; a line for the cache instructions; one that
is dirty and its storage line's only copy; a line in the second level that the TLB translates. -/
theorem witness_FencesAndLines : Scope.wide .wg = false ∧ Scope.wide .die = true ∧
    ∃ x s1, Issues hv { demoMem with mem := [(0x3FF * 2 ^ 42 + 8, 0x80)] } x s1 ∧
    (x.kernel.memOk m64 && x.lanes.length == 1 && (match (s1.core x.key.core).l1Find x.wg.ctx ((x.ea m64 0).toNat / 128) with
      | some l => l.has 0 128
      | none => false)) = true := ⟨by decide, by decide, issues_of (by decide +kernel)⟩
def dirtyLine : Line := { demoLine with excl := false, dirty := 1 }
def demoDirty : State :=
  { demoCore (·.l1Put dirtyLine) with tlb := [(0, [demoTlb])], l2 := [(0x3FF * 2 ^ 33, { L2Sb.zero with present := 1 })] }
theorem witness_DirtyLines : ∃ x s1, Issues hv demoDirty x s1 ∧
    ((match (s1.core x.key.core).l1Find x.wg.ctx ((x.ea m64 0).toNat / 128) with
      | some l => !l.excl && l.dirty.getLsbD 0 && ((s1.core x.key.core).lines.filter (fun l' => l'.pa == l.pa)).length == 1 &&
        (s1.stashLines x.key.core).isEmpty && (s1.ownerOf l.pa).isNone
      | none => false) &&
     (match s1.tlbFind x.acc (x.ea m64 0).toNat with
      | some e => grants x.acc e false false && (match s1.keyOf e (x.ea m64 0).toNat with
        | some k => homeOf k == .core 0 && s1.l2Has (k / 128) && (kfind (k / 512) s1.l2).isSome
        | none => false)
      | none => false)) = true := issues_of (by decide +kernel)
theorem witness_Bindings : ∃ x s1, Issues hv { demo with tlb := [(0, [demoTlb])], mem := [(0x3FF * 2 ^ 42 + 8, 0x80)] } x s1 ∧
    (x.kernel.s1 (.r .z) && decide ((x.rd 0 (.r .z)).toNat < 64) && x.kernel.srcOk 2 (.r .z) && (match
      s1.checkSpan x.acc (x.rd64 0 false (.r .z)).toNat 32 false (fun _ => false) with
      | (s2, .ok ps) => (match readParts (fun s p => s.readHome x.acc p) ps s2 with
        | (_, .ok bs) => imageOk (natOfBytes bs)
        | _ => false)
      | _ => false)) = true := issues_of (by decide +kernel)

/-- No window yet; a full table; and a window of the workgroup's own. -/
def demoWin : Window := { wg := 0, va := 0, off := 4096, len := 128, lines := [], handle := 0 }
theorem witness_StashWindows :
    (∃ x s1, Issues hu demo x s1 ∧ (x.kernel.r1 (.s 9) && x.kernel.spairOk (.pr 1) && x.kernel.s1 (.r (.s 4)) &&
      decide ((x.rdPair (.pr 1)).toNat % 128 = 0 ∧ (x.rd 0 (.r (.s 4))).toNat = 0 ∧ 128 ≤ up1k x.kernel.stash) &&
      (s1.core x.key.core).windows.isEmpty) = true) ∧
    (∃ x s1, Issues hu (demoCore (fun co => { co with windows := (List.range 64).map (fun i => (i, { demoWin with wg := 1 })) })) x s1 ∧
      (List.range 64).all (fun i => (kfind i (s1.core x.key.core).windows).isSome) = true) ∧
    (∃ x s1, Issues hu (demoCore (fun co => { co with windows := [(0, demoWin)] })) x s1 ∧ (x.kernel.s1 (.r .z) &&
      (kfind (x.rd 0 (.r .z)).toNat (s1.core x.key.core).windows == some demoWin) && (s1.wg? x.key.core x.crew.wg).isSome) = true) :=
  ⟨issues_of (by decide +kernel), issues_of (by decide +kernel), issues_of (by decide +kernel)⟩

theorem witness_BarrierObjects : ∃ x s1, Issues hu (demoCrew (fun cr => { cr with s := [(5, 64)] })) x s1 ∧
    ((s1.wg? x.key.core x.crew.wg == some placedWg) && decide (64 + 16 ≤ x.kernel.alloc) && !placedWg.scrBad 64 16 &&
     !(Bar.ofNat (natOfBytes (placedWg.scrRead 64 16))).busy && x.kernel.r1 (.s 5) && x.kernel.s1 (.r (.s 6)) &&
     decide ((x.rdReg 0 (.s 5)).toNat = 64 ∧ (x.rd 0 (.r (.s 6))).toNat < 2 ^ 16) &&
     BarRef.ok x.kernel (.off (.r (.s 5))) && (match x.barAt (x.barRef (.off (.r (.s 5)))) false with
       | .ok (.scr o) => o == 64
       | _ => false)) = true := issues_of (by decide +kernel)

/-- A list of one record: a token, not satisfied, and an empty batch, satisfied. -/
theorem witness_WaitTests : ∀ rec_ ∈ [0, 1], ∃ x s1, Issues hu (demoWg (fun g => { g with scr := kset 0 0 (BitVec.ofNat 8 rec_) [] })) x s1 ∧
    (let conds := x.waitConds [natOfBytes (s1.scrRead x.key.core x.crew.wg 0 16)]
     x.kernel.r1 (.s 5) && x.kernel.s1 (.r .z) && decide (16 ≤ x.kernel.alloc) && (s1.scrPoisonAt x.key.core x.crew.wg 0 16).isNone &&
     (match conds with
      | .ok cs => (let r := s1.waitTest x.acc x.crew none s1.fresh (fun _ => true) cs [none]
          let w : WaitSt := { conds := cs, first := r.2.1, all := true, qd := 0, d := .s 5, ticks := none, sf := none, mask := x.mask, next := x.next }
          r.2.2.isNone && (w.done == (rec_ == 1)) && cs.all (fun c => !c.isMem))
      | _ => false)) = true := by
  intro r hr
  rcases List.mem_cons.mp hr with h | h
  · subst h; exact issues_of (by decide +kernel)
  · obtain rfl := List.mem_singleton.mp h; exact issues_of (by decide +kernel)

/-- Blocked crews whose condition holds and does not hold, with no tick left. -/
def demoWait (c : WaitCond) : WaitSt :=
  { conds := [c], first := [none], all := true, qd := 0, d := .s 5, ticks := some 0, sf := none, mask := 1, next := 0x1008 }
theorem witness_WaitEvents : ∀ c ∈ [WaitCond.batch 0, .token (.scr 0) 0],
    let s := demoCrew (fun cr => { cr with block := .wait (demoWait c) })
    ∃ cr g, s.crew? ⟨0, 0⟩ = some cr ∧ s.wg? 0 cr.wg = some g ∧ cr.block = .wait (demoWait c) ∧ cr.park = none ∧
      (s.core 0).stopped 0 = false ∧
      let r := ({ s with fresh := s.fresh + 1 } : State).waitTest (accOf 0 cr.wg g) cr none s.fresh (fun _ => true) [c] [none]
      (r.2.2.isNone && (({ demoWait c with first := r.2.1 } : WaitSt).done == decide (c = .batch 0)) && !c.isMem) = true := by
  intro c hc
  rcases List.mem_cons.mp hc with h | h
  · subst h; exact ⟨_, _, rfl, rfl, rfl, rfl, by decide, by decide +kernel⟩
  · obtain rfl := List.mem_singleton.mp h; exact ⟨_, _, rfl, rfl, rfl, rfl, by decide, by decide +kernel⟩

/-- A crew that waits for nothing, and one with a pending flag; a launch that is cooperative and one that is not. -/
def demoLaunch : Launch :=
  { id := 0, func := 0, queue := 0, slotPa := 0, ctx := 0, conf := false, record := List.replicate 64 0, kernel := placedKernel, args := [],
    groups := [], next := 1, nwg := 1, live := 1, energy := 0, retired := 0, start := { region := 0, block := 0, slot := 0, set := 1, rdesc := 0, dir := 0, nreg := 0 },
    prep := none, coop := true, gang := false, node := none, st := .running, aborted := false, closed := true, retryAt := 0 }
theorem witness_PausesAndGridBarriers :
    (∃ x s1, Issues hu demo x s1 ∧ (x.kernel.s1 (.r (.s 5)) && x.crew.replay.isNone && !x.crew.hmode && x.crew.owed.isEmpty &&
      (s1.core x.key.core).cmds.isEmpty && x.crew.flags.all (fun e => e.cnt == 0) && !s1.coop x.wg) = true) ∧
    (∃ x s1, Issues hu (demoCrew (fun cr => { cr with flags := cr.flags.set 3 { FlagEntry.zero with cnt := 1 } })) x s1 ∧
      (x.crew.replay.isNone && (x.crew.flag 3).cnt == 1) = true) ∧
    (∃ x s1, Issues hu { demo with launches := [(0, demoLaunch)] } x s1 ∧ (!x.crew.hmode && s1.coop x.wg) = true) ∧
    (let s : State := { demoCrew (fun cr => { cr with block := .gbar none 0x1008, gbarArr := 1 }) with launches := [(0, demoLaunch)] }
     ∃ cr g, s.crew? ⟨0, 0⟩ = some cr ∧ s.wg? 0 cr.wg = some g ∧ cr.block = .gbar none 0x1008 ∧
      (∀ l, kfind g.launch s.launches = some l → l.nwg ≤ l.next) ∧ ∀ c ∈ s.crewsOf g.launch, c.live ≠ [] → cr.gbarArr.toNat ≤ c.gbarArr.toNat) :=
  ⟨issues_of (by decide +kernel), issues_of (by decide +kernel), issues_of (by decide +kernel), _, _, rfl, rfl, rfl,
   fun l h => by obtain rfl : demoLaunch = l := Option.some.inj h
                 exact Nat.le_refl _, by decide +kernel⟩

/-! ## Engines and queues -/

/-- Scratchpad bytes, and bytes of the storage that VA 0 names, as the bytes of a number. -/
def withScr (at_ n v : Nat) (g : Wg) : Wg := { g with scr := kputBytes g.scr at_ (bytesOfNat n v) }
def withMem (at_ n v : Nat) (s : State) : State := s.store none (bytesAt (0x3FF * 2 ^ 42 + at_) (bytesOfNat n v)) (fun _ => false)
def demoPaged : State := { demo with tlb := [(0, [demoTlb])] }
/-- A command of the demo's crew. -/
def demoCmd (engine : Nat) (op : CmdOp) : Cmd :=
  { id := 0, slot := 0, wg := 0, engine := engine, flag := none, pc := 0x1000, ord := .none, begun := true, st := .ready, op := op, rd := none, wr := none, early := [] }
def withCmd (c : Cmd) (co : Core) : Core := { co with cmds := [c], nextCmd := 1 }

/-- Copies of no bytes, of 16 bytes, of 16 bytes where 16 commands stand in the channel, and of two rows. -/
theorem witness_CopiesQueue :
    let at_ (len : W32) (n : Nat) := (demoWg (withScr 16 16 (4 + 2 * 2 ^ 32 + 8 * 2 ^ 64 + 4 * 2 ^ 96))).modCrew ⟨0, 0⟩ (fun cr =>
      { cr with s := [(4, len), (6, 16)] }) |>.modCore 0 (fun co => { co with cmds := (List.range n).map (fun i =>
        { demoCmd 0 (.copy .ss 0 0 1 1 0 0 none 0 0) with id := i }) })
    ∀ p ∈ [(0, 0), (16, 0), (16, 16)], ∃ x s1, Issues hu (at_ (BitVec.ofNat 32 p.1) p.2) x s1 ∧
      (x.endpoint (CopyDir.srcGlobal .ss) (.r (.s 2)) == some 0 && x.endpoint (CopyDir.dstGlobal .ss) (.r (.s 3)) == some 0 &&
       x.kernel.s1 (.r .z) && (match x.copyBar (.r .z) with | .ok b => b.isNone | _ => false) && decide (x.key.slot < 64) &&
       x.kernel.s1 (.r (.s 4)) && decide ((x.rd 0 (.r (.s 4))).toNat = p.1 ∧ (p.1 : Int) ≤ x.kernel.alloc) &&
       (decide (((s1.core x.key.core).cmds.filter (fun c => c.engine == x.key.slot / 16)).length < 16) == (p.2 == 0)) &&
       x.crew.openSet.isEmpty && x.kernel.s1 (.r (.s 6)) && decide ((x.rd 0 (.r (.s 6))).toNat = 16 ∧ 32 ≤ x.kernel.alloc) &&
       (s1.scrPoisonAt x.key.core x.crew.wg 16 16).isNone &&
       natOfBytes (s1.scrRead x.key.core x.crew.wg 16 16) == 4 + 2 * 2 ^ 32 + 8 * 2 ^ 64 + 4 * 2 ^ 96) = true := by
  intro at_ p hp
  simp only [List.mem_cons, List.not_mem_nil, or_false] at hp
  rcases hp with rfl | rfl | rfl <;> exact issues_of (by decide +kernel)

/-- Macro 0, loaded with INT8, and the Grainer are the crew's; a GMV descriptor stands at 32. -/
def demoEngines : State :=
  ((demoPaged.modWg 0 0 (withScr 32 32 (2 ^ 160 + 2 ^ 192 + 2 ^ 208))).modCore 0 (fun co =>
    { co with cim := co.cim.set 0 { CimMac.zero with owner := some (.crew 0), fmt := some 1 }, grainer := some (.crew 0) })).modCrew
      ⟨0, 0⟩ (fun cr => { cr with s := [(5, 1), (6, 32)] })
theorem witness_CimAndGrainerQueue : ∃ x s1, Issues hu demoEngines x s1 ∧
    (pairSrc x.kernel (.r (.s 2)) == some (.pr 1) && x.kernel.r1 (.s 4) && x.kernel.s1 (.r (.s 7)) &&
     decide ((x.rdReg 0 (.s 4)).toNat = 0) && x.holds ((s1.core x.key.core).mac 0).owner && (s1.core x.key.core).cmds.isEmpty &&
     x.crew.openSet.isEmpty && (match s1.checkSpan x.acc (x.rdPair (.pr 1)).toNat 1 false (fun _ => false) with
       | (_, .ok ps) => ((ps.head?.map Part.at_).getD Attr.plain).fmt == 1
       | _ => false) && ((s1.core x.key.core).mac 0).fmt == some 1 &&
     -- MMA: mask 1, one vector
     decide ((x.rd 0 (.r (.s 5))).toNat = 1 ∧ mmaVec false false [1] ≤ x.kernel.alloc ∧ 4 * mmaOuts false [1] ≤ x.kernel.alloc) &&
     (bitsOf (BitVec.ofNat 8 1)).map (fun i => ((s1.core x.key.core).mac i).fmt) == [some 1] &&
     -- GMV
     decide ((x.rd 0 (.r (.s 6))).toNat = 32 ∧ 32 + 32 ≤ x.kernel.alloc) && x.holds (s1.core x.key.core).grainer &&
     (s1.scrPoisonAt x.key.core x.crew.wg 32 32).isNone &&
     (let v := natOfBytes (s1.scrRead x.key.core x.crew.wg 32 32); let f := fun at_ n => v / 2 ^ (8 * at_) % 2 ^ (8 * n)
      [f 0 8, f 8 4, f 12 4, f 16 4, f 20 4, f 24 1, f 25 1, f 26 2, f 28 4] == [0, 0, 0, 0, 1, 1, 0, 1, 0])) = true :=
  issues_of (by decide +kernel)

def demoHeld (cmds : List Cmd) : State := demoCore (fun co =>
  { co with cim := (List.range 8).map (fun i => { CimMac.zero with owner := some (.crew 0), name := i }), grainer := some (.crew 0), cmds := cmds })
/-- Everything free; everything held, with no command; and held, with a command that names macro 0. -/
theorem witness_ReservationsAndBatches :
    (∃ x s1, Issues hu (demoCrew (fun cr => { cr with s := [(4, 3)] })) x s1 ∧ (x.kernel.r1 (.s 5) && x.kernel.s1 (.r (.s 4)) &&
      x.ownerFor none true == some (.crew 0) && decide ((x.rd 0 (.r (.s 4))).toNat = 3) && (s1.core x.key.core).cim.length == 8 &&
      ((List.range 8).filter (fun i => ((s1.core x.key.core).mac i).owner.isNone)).length == 8 &&
      (s1.core x.key.core).grainer.isNone && (x.crew.batches.getD (x.crew.batchCnt.toNat % 16) [] == [])) = true) ∧
    (∃ x s1, Issues hu ((demoHeld []).modCrew ⟨0, 0⟩ (fun cr => { cr with s := [(4, 0x101)], batches := cr.batches.set 0 [7] })) x s1 ∧
      ((List.range 8).all (fun i => ((s1.core x.key.core).mac i).owner == some (.crew 0)) &&
      (s1.core x.key.core).grainer == some (.crew 0) && x.ownerFor none false == some (.crew 0) &&
      decide ((x.rd 0 (.r (.s 4))).toNat = 0x101) && !(s1.core x.key.core).maskBusy x.crew.wg 0x101 &&
      ((s1.core x.key.core).macAt x.crew.wg x.wg 0 == 0) &&
      (x.crew.batches.getD (x.crew.batchCnt.toNat % 16) [] != [])) = true) ∧
    (∃ x s1, Issues hu ((demoHeld [demoCmd 4 (.cld 0 0 1 0 0 (some 1) 0)]).modCrew ⟨0, 0⟩ (fun cr => { cr with s := [(4, 3), (6, 0x101)] })) x s1 ∧
      ((s1.core x.key.core).maskBusy x.crew.wg 0x101 && decide ((x.rd 0 (.r (.s 4))).toNat = 3 ∧ (x.rd 0 (.r (.s 6))).toNat = 0x101) &&
      ((List.range 8).all (fun i => ((s1.core x.key.core).mac i).owner.isSome))) = true) :=
  ⟨issues_of (by decide +kernel), issues_of (by decide +kernel), issues_of (by decide +kernel)⟩

theorem witness_TernaryArithmetic : -(3 ^ 6 - 1) ≤ 2 * (-100 : Int) ∧ 2 * (-100 : Int) ≤ 3 ^ 6 - 1 ∧
    ([-1, 0, 1, -1, -1, (0 : Int)].mapIdx (fun i d => d * 3 ^ i)).sum = -100 ∧
    cimShape 1 = some (8, 42, 6) ∧ ksorted [(0, (1 : Int)), (65535, -1)] = true ∧ (List.replicate 256 (3 : Int)).length = 256 := by decide +kernel

/-- A copy in scratchpad, a row of weights, a vector, a segment of one row with one term, and its end. -/
theorem witness_EngineUnits :
    (∃ c g, Runs (demoCore (withCmd (demoCmd 0 (.copy .ss 0 64 48 2 64 64 none 0 32)))) 0 0 c g ∧
      c.op = .copy .ss 0 64 48 2 64 64 none 0 32 ∧ (demo.scrPoisonAt 0 c.wg 32 16) = none) ∧
    (let s := demoEngines.modCore 0 (withCmd (demoCmd 4 (.cld 0 0 32 0 42 (some 1) 0)))
     ∃ c g, Runs s 0 0 c g ∧ c.op = .cld 0 0 32 0 42 (some 1) 0 ∧ 0 < (s.core 0).cim.length ∧
      s.macOf 0 c.wg 0 = 0 ∧
      (match ((s.modCore 0 (·.cmdMod 0 (fun c => { c with begun := true }))).setOp 0 0 c.op).cldRead (accOf 0 c.wg g) c.rd 0 42 1 0 with
        | (_, _, .ok (some (_, bad))) => !bad
        | _ => false) = true) ∧
    (let s := demoEngines.modCore 0 (withCmd (demoCmd 4 (.mma false true false 512 0 0 1 [1] 0 false)))
     ∃ c g, Runs s 0 0 c g ∧ c.op = .mma false true false 512 0 0 1 [1] 0 false ∧
      let ms := (bitsOf (1 : BitVec 8)).map (fun n => (s.core 0).mac (s.macOf 0 c.wg n))
      s.scrPoisonAt 0 c.wg 0 (mmaVec false false [1]) = none ∧ s.scrPoisonAt 0 c.wg 512 (4 * mmaOuts false [1]) = none ∧
      (∀ y ∈ ms, y.poison = []) ∧ (mmaSums false ms [1] (List.replicate 256 0)).length = mmaOuts false [1]) ∧
    (let s := withMem 0 36 (2 ^ 16 + 2 * 2 ^ 96 + 0xC000 * 2 ^ 272)
       (demoEngines.modCore 0 (withCmd (demoCmd 5 (.gmv 0 128 256 512 1 1 false false 1 0 0))))
     ∃ c g, Runs s 0 0 c g ∧ c.op = .gmv 0 128 256 512 1 1 false false 1 0 0 ∧
      (match gSegment { core := 0, wg := c.wg, acc := accOf 0 c.wg g, seg := 0, inp := 128, out := 256, ncol := 1, b := 1, esz := 1, add := false, early := [] }
          1 0 { st := s.modCore 0 (·.cmdMod 0 (fun c => { c with begun := true })), pieces := [], ins := [], depth := [],
                rule := 0x1FFF, rows := 0, satcol := 0, sums := [], d := 0, syms := 0 } with
        | (.ok (), g2) => g2.rows == 1
        | _ => false) = true) ∧
    (∃ c g, Runs (demoCore (withCmd { demoCmd 5 (.gmv 0 128 256 512 1 1 false false 1 1 0) with st := .ending 0 none true })) 0 0 c g ∧
      c.op = .gmv 0 128 256 512 1 1 false false 1 1 0 ∧ c.st = .ending 0 none true) :=
  ⟨⟨_, _, ⟨rfl, rfl, rfl, rfl, rfl, by decide, by decide +kernel, .inr (by decide), fun _ => rfl⟩, rfl, by decide +kernel⟩,
   ⟨_, _, ⟨rfl, rfl, rfl, rfl, rfl, by decide, by decide +kernel, .inl rfl, fun _ => rfl⟩, rfl, by decide, by decide +kernel, by decide +kernel⟩,
   ⟨_, _, ⟨rfl, rfl, rfl, rfl, rfl, by decide, by decide +kernel, .inl rfl, fun _ => rfl⟩, rfl, by decide +kernel, by decide +kernel,
    by decide +kernel, by decide +kernel⟩,
   ⟨_, _, ⟨rfl, rfl, rfl, rfl, rfl, by decide, by decide +kernel, .inr (by decide), fun _ => rfl⟩, rfl, by decide +kernel⟩,
   ⟨_, _, ⟨rfl, rfl, rfl, rfl, rfl, by decide, by decide +kernel, .inr (by decide), fun _ => rfl⟩, rfl, rfl⟩⟩

/-- The workgroup runs a node at VA 0 with one record waiting; its output 0 is at VA 64, with one record reserved. -/
def demoNode : State :=
  withMem 64 48 (0x400 + 2 ^ 256 + 2 ^ 328) (withMem 0 56 (0x400 + 2 ^ 64 + 2 ^ 328 + 2 ^ 384)
    ((demoPaged.modWg 0 0 (fun g => { g with node := some 0 })).modCrew ⟨0, 0⟩ (fun cr => { cr with outRes := [1, 0, 0, 0], s := [(5, 1)] })))
theorem witness_NodeQueues : ∃ x s1, Issues hv demoNode x s1 ∧
    (x.wg.node == some 0 && x.kernel.regOk 1 1 (.v 4) && x.kernel.s1 (.r .z) && x.kernel.s1 (.r (.s 5)) && x.lanes.length == 1 &&
     decide ((x.rd 0 (.r (.s 5))).toNat = 1 ∧ (x.rd 0 (.r .z)).toNat = 0 ∧ 4 ≤ x.kernel.alloc) &&
     (match s1.nodeRead x.acc 0 with
      | (s2, .ok own) => own.out 0 0 == some 64 && (match s2.checkSpan x.acc 64 64 true (fun _ => false) with
        | (s3, .ok (_ :: _)) => (match s3.nodeRead x.acc 64 with
          | (s4, .ok d) => d.recw == 1 && decide (1 ≤ x.crew.outRes.getD 0 0) && (match s4.checkSlots x.acc d 4 true 1 d.alloc with
            | (_, .ok sl) => sl.length == 1
            | _ => false)
          | _ => false)
        | _ => false)
      | _ => false) &&
     (match s1.checkSpan x.acc 0 64 true (fun _ => false) with
      | (s2, .ok (_ :: _)) => (match s2.nodeRead x.acc 0 with
        | (s3, .ok d) => d.recw == 1 && d.wr == 1 && d.rd == 0 && (match s3.checkSlots x.acc d 4 false 1 d.rd with
          | (s4, .ok sl) => (match State.readRecords s4 x.acc sl with
            | (_, .ok recs) => recs.length == 1
            | _ => false)
          | _ => false)
        | _ => false)
      | _ => false)) = true := issues_of (by decide +kernel)

/-- A launch queue of the context's own, enabled with room, and not enabled. -/
theorem witness_Launch : ∀ en ∈ [true, false],
    let s0 := withMem 64 18 (if en then 2 ^ 136 else 0) (withMem 0 8 (0x3FF * 2 ^ 42 + 2 ^ 39 + 65) demoPaged)
    ∃ x s1, Issues hu { s0 with sysregs := [(0x200000, BitVec.ofNat 64 (0x3FF * 2 ^ 42 + 2 ^ 39 + 1))] } x s1 ∧
    (x.kernel.regOk 2 2 (.s 6) && x.kernel.s1 (.r .z) && x.kernel.spairOk (.pr 4) && decide ((x.rdPair (.pr 4)).toNat % 64 = 0) &&
     (match (s1.lqHeader x.wg.func (x.rd 0 (.r .z)).toNat).bind s1.key with
      | some hk => (let q := s1.getKey x.acc hk 64; let hd := QHead.ofNat q.2
        hd.ctx == x.wg.ctx && hd.en == en && hd.state == 0 && decide ((hd.wr + 2 ^ 64 - hd.rd) % 2 ^ 64 < 2 ^ hd.log2n) &&
        (match (q.1.fenceRel x.acc .dev).checkSpan x.acc 0 64 false (fun _ => false) with
         | (s3, .ok ps) => (match readParts (fun s p => s.readHome x.acc p) ps s3 with
           | (_, .ok bs) => bs.length == 64
           | _ => false)
         | _ => false))
      | none => false)) = true := by
  intro en h
  cases en <;> exact issues_of (by decide +kernel)

/-! ## Exceptions, the handler, the debugger -/

def demoAbort : AbortInfo := { cause := 0x01, orig := 0, epc := 0, earg := 0, ethr := 0, slot := 0, eng := false, at_ := 0 }
/-- The demo in handler mode; without a handler; and its workgroup already to be aborted. -/
def demoHandler : State := demoCrew (fun cr => { cr with hmode := true, epc := 0x1100 })
def demoBare : State := demoKernel (fun k => { k with handler := 0 })
def demoAborted : State := demoWg (fun g => { g with abort := some demoAbort })

theorem witness_ExceptionsTaken : ∀ s ∈ [demo, demoHandler, demoBare, demoAborted], ∃ cr g, s.crew? ⟨0, 0⟩ = some cr ∧
    s.wg? 0 cr.wg = some g ∧ (0x0B < 0x10000) ∧ (cr.hmode = true ↔ s = demoHandler) ∧ (g.kernel.handler = 0 ↔ s = demoBare) ∧
    (g.abort ≠ none ↔ s = demoAborted) := by
  intro s h
  simp only [List.mem_cons, List.not_mem_nil, or_false] at h
  rcases h with rfl | rfl | rfl | rfl <;> exact ⟨_, _, rfl, rfl, by decide +kernel⟩

/-- UDF's header; the modes of the control instructions; a TRAP in which no thread takes part; a failure of a command. -/
theorem witness_ExceptionsRaised :
    (∃ x s1, demo.begin { form := .w64, bt := 31, sd := 0, uni := false, wait := 0, sf := none, pg := 7, pn := false } = some (x, s1) ∧
      x.crew.replay = none ∧ x.crew.hmode = false ∧ x.idle = false ∧ x.kernel.s1 (V 1) = true ∧ x.kernel.handler ≠ 0 ∧ x.wg.abort = none) ∧
    (∃ x s1, demoHandler.begin hv = some (x, s1) ∧ x.crew.replay = none ∧ x.crew.hmode = true ∧ x.wg.abort = none) ∧
    (∃ x s1, demoBare.begin hv = some (x, s1) ∧ x.crew.replay = none ∧ x.crew.hmode = false ∧ x.idle = false ∧
      x.kernel.handler = 0 ∧ x.wg.abort = none) ∧
    (∃ x s1, demo.begin { hv with pg := 0 } = some (x, s1) ∧ x.crew.hmode = false ∧ x.idle = true) ∧
    ∀ k ∈ [demo, demoBare], let f : EngFail := { cause := 0x17, pc := 0x1000, cmd := some 0 }
      let s := k.modCrew ⟨0, 0⟩ (fun cr => { cr with failures := [f], block := .drain true false false none 0x1008 })
      ∃ cr g, s.crew? ⟨0, 0⟩ = some cr ∧ s.wg? 0 cr.wg = some g ∧ cr.failures = [f] ∧ (s.core 0).atBoundary 0 cr = true ∧
        g.abort = none ∧ g.save = none ∧ (cr.block ≠ .none ∨ (cr.word ≠ .absent ∧ cr.wordBad g.kernel = false)) ∧
        f.cause < 0x10000 ∧ g.kernel.failToH f.cause = true ∧ (g.kernel.handler = 0 ↔ k = demoBare) := by
  refine ⟨⟨_, _, rfl, by decide +kernel⟩, ⟨_, _, rfl, by decide +kernel⟩, ⟨_, _, rfl, by decide +kernel⟩, ⟨_, _, rfl, by decide +kernel⟩, ?_⟩
  intro k h
  simp only [List.mem_cons, List.not_mem_nil, or_false] at h
  rcases h with rfl | rfl <;> exact ⟨_, _, rfl, rfl, by decide +kernel⟩

theorem witness_HandlerInstructions : ∀ s ∈ [demo, demoHandler], ∃ x s1, Issues hu s x s1 ∧ x.kernel.regOk 2 2 (.s 4) = true ∧
    x.kernel.srcOk 2 (.r (.s 4)) = true ∧ x.crew.esave.length = 4 ∧ x.crew.votePending = false ∧
    (7 : BitVec 8).toNat < 8 ∧ 8 ≤ (255 : BitVec 8).toNat ∧ x.crew.threads.length = 64 ∧ (x.crew.hmode = true ↔ s = demoHandler) := by
  intro s h
  simp only [List.mem_cons, List.not_mem_nil, or_false] at h
  rcases h with rfl | rfl <;> exact ⟨_, _, ⟨rfl, rfl⟩, by decide +kernel⟩

/-- No debugger, with a handler and without, and a debugger attached to the context. -/
theorem witness_MetersAndDebugInstructions :
    (∀ s ∈ [demo, demoBare, { demo with sysregs := [(0x500000, 2)] }], ∃ x s1, Issues hu s x s1 ∧ x.kernel.regOk 2 2 (.s 4) = true ∧
      (x.kernel.r1 (.s 4) && x.kernel.s1 (.r .z)) = true ∧ (x.rd 0 (.r .z)).toNat ≤ 31 ∧ x.crew.replay = none ∧ x.crew.hmode = false ∧
      (((s1.issueCost x 0)).wg? x.key.core x.crew.wg ≠ none) ∧ (s1.core x.key.core).seqs.length = 4 ∧ x.key.slot < 64 ∧
      (∀ q < 4, s1.stopHeld x.key.core q = false) ∧ (x.kernel.handler = 0 ↔ s = demoBare) ∧
      (s1.attach x.wg.ctx = true ↔ s ≠ demo ∧ s ≠ demoBare)) ∧
    (∃ x s1, Issues hu (demoCrew (fun cr => { cr with s := [(9, 32)] })) x s1 ∧ 31 < (x.rd 0 (.r (.s 9))).toNat) ∧
    (∃ x s1, Issues hu (demoKernel (fun k => { k with stepping := Config.stepping })) x s1 ∧ x.kernel.steppingOk = true ∧
      x.kernel.s1 (.r .z) = true) := by
  refine ⟨?_, ⟨_, _, ⟨rfl, rfl⟩, by decide +kernel⟩, _, _, ⟨rfl, rfl⟩, beq_self_eq_true Config.stepping, rfl⟩
  intro s h
  simp only [List.mem_cons, List.not_mem_nil, or_false] at h
  rcases h with rfl | rfl | rfl <;> exact ⟨_, _, ⟨rfl, rfl⟩, by decide +kernel⟩

/-! ## Events -/

/-- A device whose context 0 translates VA 0x1000 to 0x1FFF, where its fault queue stands, with 16 slots; function 0 has a launch
queue, enabled and empty. -/
def demoPa : Nat := 0x3FF * 2 ^ 42 + 2 ^ 39
def demoDev (s : State) : State :=
  withMem 0x3040 18 (4 * 2 ^ 128 + 2 ^ 136) (withMem 0x3000 8 (demoPa + 0x3041) (withMem 0x2000 32 (1 + demoPa * 2 ^ 64 + 0x1000 * 2 ^ 192)
    (withMem 0x1010 1 4 (withMem 0 16 (demoPa + 0xF + (demoPa + 0x120F) * 2 ^ 64)
      { s with sysregs := [(0x100000, BitVec.ofNat 64 (demoPa + 0x2000)), (0x200000, BitVec.ofNat 64 (demoPa + 0x3001))] }))))
def demoPark (handle : Option Nat) (fetch : Bool) : Park :=
  { mask := 1, cause := 0x10, va := 0x5000, write := false, fetch := fetch, level := 0, at_ := 0, handle := handle, logged := false }
/-- A crew with writes owed; at a fetched word; at a block to fetch, from the instruction cache and with no translation. -/
theorem witness_LandingsAndReplays :
    (let o : Owed := { id := 3, flag := some 2, due := none, writes := [.v 0 4 7], fps := 0, sat := false }
     ∃ cr g, (demoCrew (fun cr => { cr with owed := [o] })).crew? ⟨0, 0⟩ = some cr ∧ demo.wg? 0 cr.wg = some g ∧
      cr.owed.filter (fun p => p.id == o.id) = [o] ∧ cr.block = .none ∧ ∃ bs, cr.fetchAt = .word bs) ∧
    (let o : Owed := { id := 3, flag := none, due := some 6, writes := [.v 0 4 7], fps := 0, sat := false }
     ∃ cr g, (demoCrew (fun cr => { cr with owed := [o] })).crew? ⟨0, 0⟩ = some cr ∧ demo.wg? 0 cr.wg = some g ∧
      cr.owed.filter (fun p => p.id == o.id) = [o] ∧ o.due ≠ none ∧ cr.block = .none) ∧
    (let s := coded (demoCrew (fun cr => { cr with fbuf := [] }))
     ∃ cr g, s.crew? ⟨0, 0⟩ = some cr ∧ s.wg? 0 cr.wg = some g ∧ cr.park = none ∧ cr.finished = false ∧ cr.fetchAt = .need 0x1000 ∧
      (match (s.fetchLine (accOf 0 cr.wg g) 0x1000 32).2 with | .ok bs => bs.length == 32 | _ => false) = true) ∧
    (let s := demoCrew (fun cr => { cr with fbuf := [] })
     ∃ cr g, s.crew? ⟨0, 0⟩ = some cr ∧ s.wg? 0 cr.wg = some g ∧ cr.park = none ∧ cr.finished = false ∧ cr.fetchAt = .need 0x1000 ∧
      (match (s.fetchLine (accOf 0 cr.wg g) 0x1000 32).2 with | .error (.park ..) => true | _ => false) = true) ∧
    (let s := demoDev (demoCrew (fun cr => { cr with park := some (demoPark none false) }))
     ∃ cr g, s.crew? ⟨0, 0⟩ = some cr ∧ s.wg? 0 cr.wg = some g ∧ cr.park = some (demoPark none false) ∧
      (s.fqWrite g.ctx (parkRecord ⟨0, 0⟩ g (demoPark none false) cr.pos false s.nextHandle).bytes false).2 = .written) ∧
    (let r : FqRec := { ctx := 0, bytes := List.replicate 64 0, counted := false }
     let s := demoDev { State.reset with fqPend := [r] }
     s.allCrews = [] ∧ s.fqPend = [r] ∧ (({ s with fqPend := [] } : State).fqWrite 0 r.bytes r.counted).2 = .written) ∧
    ((demoDev State.reset).replayRead 0).2 = some (0x1000, 0) ∧
    (let s := withMem 0x1018 8 5 (demoDev (demoCrew (fun cr => { cr with park := some (demoPark (some 5) false) })))
     (s.replayRead 0).2 = some (0x1000, 5) ∧ (match (s.replayRead 0).1.benchWrite 0 0x1018 (bytesOfNat 8 0) with
      | (s2, true) => (match s2.allCrews.filter (fun e => e.2.2.ctx == 0 && e.2.2.abort.isNone) with
        | [(k, cr, _)] => k == ⟨0, 0⟩ && cr.park == some (demoPark (some 5) false) && cr.block == .none
        | _ => false)
      | _ => false) = true) :=
  ⟨⟨_, _, rfl, rfl, by decide +kernel, rfl, _, rfl⟩, ⟨_, _, rfl, rfl, by decide +kernel, by decide, rfl⟩,
   ⟨_, _, rfl, rfl, rfl, rfl, rfl, by decide +kernel⟩,
   ⟨_, _, rfl, rfl, rfl, rfl, rfl, by decide +kernel⟩, ⟨_, _, rfl, rfl, rfl, by decide +kernel⟩, by decide +kernel, by decide +kernel,
   by decide +kernel, by decide +kernel⟩

/-- A device with two partitions of one cluster, and with a launch of one workgroup in queue 0 of function 0. -/
def demoBench (l : Launch) : State := { demoDev State.reset with parts := [(0, [0]), (1, [1])], launches := [(1, l)], nextLaunch := 2 }
def waiting (nwg flags parts : Nat) : Launch :=
  { demoLaunch with id := 1, next := 0, live := 0, nwg := nwg, coop := flags == 1, gang := flags == 2, closed := false,
                    st := if flags = 0 then .running else .waiting, record := bytesOfNat 64 (flags * 2 ^ 280 + parts * 2 ^ 288) }

/-- The watch of an empty queue, of one with more records than slots, and of one with a record; no queue at another place of the
table; a load record and a launch record that are taken, and a launch that is admitted. -/
theorem witness_LaunchQueueWatched :
    (∀ wr ∈ [0, 17, 1], let s := withMem 0x3040 8 wr (demoDev State.reset)
    (match s.lqHeader 0 0 with
      | some pa => (match s.watchContexts.physRead pa 64 with
        | (s1, some (b, _)) => (let h := QHead.ofNat (natOfBytes b)
          h.en && !h.hold && h.waiting == wr && decide (2 ^ h.log2n = 16) &&
            !(((s1.modQ 0 0 (fun x => x.seen h)).holdCheck 0 0).qstate 0 0).overrun)
        | _ => false)
      | none => false) = true) ∧
    (demoDev State.reset).lqHeader 0 1 = none ∧
    (∀ load ∈ [true, false], let s := withMem 0x30A2 1 (if load then 0x80 else 0) (demoDev State.reset)
     let h := QHead.ofNat (natOfBytes (s.peek (0x3FF * 2 ^ 42 + 0x3040) 64))
     s.launches.length < 256 ∧ (s.qstate 0 0).load = none ∧ (match s.physRead (demoPa + 0x3040 + 64) 64 with
      | (s1, some r) => (LRec.ofBytes r.1).isLoad == load && !(s1.physWrite (demoPa + 0x3048) (bytesOfNat 8 1)).queueBad 0 h &&
          (loadBad r.1 == !load)
      | _ => false) = true) ∧
    loadBad (bytesOfNat 64 (0x800000 * 2 ^ 256)) = false ∧
    (let r := bytesOfNat 64 (0x1440 + 2 ^ 128 + 2 ^ 288)
     let s := withMem 0x1400 64 (0x484B575A + 2 * 2 ^ 32 + 2 * 2 ^ 48 + 192 * 2 ^ 64 + 62 * 2 ^ 72 + 2 ^ 80 + 0x80 * 2 ^ 224 + 2 ^ 256)
       (withMem 0x1480 32 (0x1440 + 0x80 * 2 ^ 64) (withMem 0x14C0 16 (1 + 2 ^ 92) (demoDev State.reset)))
     s.freeLaunch (s.launches.length + s.saved.length) s.nextLaunch = 1 ∧
     (match (({ s with nextLaunch := 2 } : State).admitChecks 0 0 1 false false (LRec.ofBytes r)).2 with
      | .ok _ => !(LRec.ofBytes r).node && decide ((LRec.ofBytes r).first < (LRec.ofBytes r).nwg)
      | .error _ => false) = true ∧ ∃ e ∈ [(1, demoLaunch)], e.1 % 2 ^ 32 = (2 ^ 32 + 1) % 2 ^ 32) := by
  refine ⟨fun wr h => ?_, by decide +kernel, fun b _ => ?_, by decide +kernel, by decide +kernel⟩
  · simp only [List.mem_cons, List.not_mem_nil, or_false] at h
    rcases h with rfl | rfl | rfl <;> decide +kernel
  · cases b <;> decide +kernel

/-- The visit of the due queue, where its launch places, where its estimate is above the deficit counter, and where it is a gang
that has not started; and of another queue. -/
theorem witness_QueueVisit :
    (∀ e ∈ [0, 100], let l := { waiting 1 0 1 with kernel := { placedKernel with energy := e } }
     let s := demoBench l; let key := visitKey (0, 0, l)
     let s1 := ({ s with visit := key } : State).modQ 0 0 (fun x => { x with dc := min (x.dc + s.quantum 0 0) (4 * s.quantum 0 0) })
     s.waitingLaunch 0 0 = some l ∧ s.dueVisit = some key ∧ l.estimate = e ∧ l.gang = false ∧
      (if e = 100 then (s1.qstate 0 0).dc < min (l.estimate : Int) (4 * s.quantum 0 0)
       else min (l.estimate : Int) (4 * s.quantum 0 0) ≤ (s1.qstate 0 0).dc ∧ s1.placeable l = some (0, 0) ∧
        ((s1.dispatch l l.next 0 0 0).modQ 0 0 (fun x => { x with dc := x.dc - l.estimate })).waitingLaunch 0 0 = none)) ∧
    (let l := { waiting 2 0 1 with kernel := { placedKernel with energy := 1 } }; let s := demoBench l
     let s1 := ({ s with visit := visitKey (0, 0, l) } : State).modQ 0 0 (fun x => { x with dc := min (x.dc + s.quantum 0 0) (4 * s.quantum 0 0) })
     s.waitingLaunch 0 0 = some l ∧ (State.visitLoop 0 0 (s.quantum 0 0) 2 s1).waitingLaunch 0 0 = if 2 ≤ s.quantum 0 0 then none
       else some { l with next := 1, live := 1 }) ∧
    (let m := { waiting 1 0 1 with id := 2, queue := 1 }
     let s := { demoBench (waiting 1 0 1) with launches := [(1, waiting 1 0 1), (2, m)] }
     s.waitingLaunch 0 1 = some m ∧ s.dueVisit ≠ some (visitKey (0, 1, m))) ∧
    (let l := waiting 2 2 3; let s := demoBench l
     s.waitingLaunch 0 0 = some l ∧ s.dueVisit = some (visitKey (0, 0, l)) ∧ l.gang = true ∧ l.started = false ∧ s.gangMay l = true) := by
  refine ⟨fun e h => ?_, by decide +kernel⟩
  simp only [List.mem_cons, List.not_mem_nil, or_false] at h
  rcases h with rfl | rfl <;> decide +kernel

/-- A cooperative launch that can never fit, one that starts, and one whose queue cannot be read; one that is not cooperative. -/
theorem witness_CooperativeAdmission :
    (∀ n ∈ [1000, 2], let l := waiting n 1 1; let s := demoBench l; let shut := { l with closed := true }
     let s1 := s.modLaunch 1 (fun _ => shut)
     kfind 1 s.launches = some l ∧ l.id = 1 ∧ l.coop = true ∧ l.gang = false ∧ l.started = false ∧ s.atHead l = true ∧
      (if n = 1000 then (s.coresFor l.rec_).length * l.kernel.perCore < n
       else n ≤ (s.coresFor l.rec_).length * l.kernel.perCore ∧ (s1.mayDispatch shut && s1.roomFor shut) = true ∧ l.next < l.nwg ∧
         (s1.placeIn shut shut.estimate shut.rec_.parts).isSome = true)) ∧
    (let l := waiting 2 1 1; let s : State := { State.reset with parts := [(0, [0])], launches := [(1, l)] }
     let shut := { l with closed := true }; let s1 := s.modLaunch 1 (fun _ => shut)
     s.atHead l = true ∧ 2 ≤ (s.coresFor l.rec_).length * l.kernel.perCore ∧ (s1.mayDispatch shut && s1.roomFor shut) = false) ∧
    (waiting 1 0 1).coop = false := by
  refine ⟨fun n h => ?_, by decide +kernel, by decide⟩
  simp only [List.mem_cons, List.not_mem_nil, or_false] at h
  rcases h with rfl | rfl <;> decide +kernel

/-- A gang that is due and starts, one that is not due, and a reservation; a node with a record, and none. -/
theorem witness_GangReserve :
    (∀ n ∈ [2, 1000], let l := waiting n 2 3; let s := demoBench l
     kfind 1 s.launches = some l ∧ l.gang = true ∧ s.atHead l = true ∧ s.gangTurn l = true ∧ l.committed = false ∧ l.st = .waiting ∧
      l.retryAt ≤ s.refclk ∧ s.savedOf 1 = [] ∧ s.mayDispatch l = true ∧
      (if n = 1000 then ∃ e ∈ s.gangNeeds l, (s.coresOf e.1).length * l.kernel.perCore < e.2
       else (∀ e ∈ s.gangNeeds l, e.2 ≤ (s.coresOf e.1).length * l.kernel.perCore) ∧
        (match kfind 1 (State.reserveParts 1 ((s.gangNeeds l).map (fun e => (e.1, 0, e.2)))
            (({ s with visit := visitKey (0, 0, l) } : State).modLaunch 1 (fun l => { l with st := .reserved [] s.refclk }))).launches with
          | some m => (match m.st with
            | .reserved res since => decide (res.length = m.gangParts.length ∧ s.refclk ≤ since + 10000)
            | _ => false)
          | none => false) = true)) ∧
    (let l := { waiting 2 2 3 with retryAt := 5 }; (demoBench l).refclk < l.retryAt) ∧
    (let l := { waiting 2 2 3 with st := .reserved [] 0 }; kfind 1 (demoBench l).launches = some l ∧ l.id = 1) := by
  refine ⟨fun n h => ?_, by decide +kernel, by decide +kernel⟩
  simp only [List.mem_cons, List.not_mem_nil, or_false] at h
  rcases h with rfl | rfl <;> decide +kernel
/-- A node with a record, and one that has come to its end. -/
theorem witness_NodeConsumer :
    (∀ rd ∈ [0, 1], let l := { waiting 1 0 1 with node := some 0x1100 }
     let s := withMem 0x1100 56 (0x1400 + 2 ^ 64 + rd * 2 ^ 128 + 2 ^ 328 + 2 ^ 336 + 0x8000800080008000 * 2 ^ 384) (demoBench l)
     kfind 1 s.launches = some l ∧ l.prep = none ∧ s.restoreFirst l = false ∧ kfind 1 s.nodesRead.launches = some l ∧
      (if rd = 1 then (s.nodesRead.nodeGroup l).isSome = true else s.nodesRead.nodeGroup l = none ∧
        (match s.nodesRead.nodeGet l.ctx 0x1100 with
          | (s1, some d) => (s1.formConsumer l 0x1100 d).2
          | _ => false) = true)) ∧
    (waiting 1 0 1).node = none := by
  refine ⟨fun v h => ?_, rfl⟩
  simp only [List.mem_cons, List.not_mem_nil, or_false] at h
  rcases h with rfl | rfl <;> decide +kernel

/-- A workgroup with a live thread; one without, before and after its write-back; and one to be aborted. -/
def demoDone (written : Bool) : State :=
  (demoCrew (fun cr => cr.mapThr (fun _ th => th.setExited true))).modWg 0 0 (fun g => { g with written := written })
theorem witness_WorkgroupsEnd :
    (∀ w ∈ [false, true], ∃ g, (demoDone w).wg? 0 0 = some g ∧ (demoDone w).mayRetire 0 0 g = true ∧ g.written = w ∧ g.abort = none) ∧
    (∃ g, demo.wg? 0 0 = some g ∧ demo.mayRetire 0 0 g = false) ∧
    ∃ g, demoAborted.wg? 0 0 = some g ∧ g.abort = some demoAbort := by
  refine ⟨fun w h => ?_, ⟨_, rfl, by decide +kernel⟩, ⟨_, rfl, rfl⟩⟩
  cases w <;> exact ⟨_, rfl, by decide +kernel, rfl, rfl⟩

/-- A load record of the smallest image, with one section header and nothing allocated; of no image; and an unload. -/
def demoLoad (rec_ : List Byte) : State :=
  let elf := 0x464C457F + 0x010102 * 2 ^ 32 + 3 * 2 ^ 128 + 0x2E4D * 2 ^ 144 + 64 * 2 ^ 320 + 64 * 2 ^ 464 + 2 ^ 480
  (withMem 0x1800 128 elf (demoDev { State.reset with objects := [{ ctx := 0, va := 0x1000, secs := [(0x800, 128)] }] })).setQ 0 0
    { en := true, dc := 0, overrun := false, cleared := false, held := false, run := false, load := some (0, rec_) }
def demoRec (src len va : Nat) : List Byte := bytesOfNat 64 (src + len * 2 ^ 128 + va * 2 ^ 192)
theorem witness_CodeObjects :
    (∀ src ∈ [0x1800, 0x1900], let r := demoRec src 128 0x1000; let s := demoLoad r
     s.loadDue 0 0 = some (0, 0, r) ∧ fld r 0x10 8 ≠ 0 ∧ (match s.loadCheck 0 r with
      | (_, .ok (_, code)) => decide (src = 0x1800 ∧ code = 0x1000)
      | (_, .error f) => decide (src = 0x1900 ∧ f.code = 1)) = true) ∧
    (∀ va ∈ [0x1000, 0x1200], let r := demoRec 0 0 va; let s := demoLoad r
     s.loadDue 0 0 = some (0, 0, r) ∧ fld r 0x10 8 = 0 ∧
      (match s.objects.find? (fun o => o.ctx == 0 && o.va.toNat == fld r 0x18 8) with
      | some o => va == 0x1000 && (s.pagesOk 0 (o.secs.map (fun c => (o.va.toNat + c.1, c.2)))).2
      | none => va == 0x1200) = true) ∧
    State.reset.loadDue 0 0 = none := by
  refine ⟨fun v h => ?_, fun v h => ?_, by decide +kernel⟩ <;> simp only [List.mem_cons, List.not_mem_nil, or_false] at h <;>
    rcases h with rfl | rfl <;> decide +kernel

def withReg (num sel : Nat) (v : Nat) (s : State) : State := { s with sysregs := kput (num * 65536 + sel) (BitVec.ofNat 64 v) s.sysregs }
/-- A ring at 0x1400 of the device's storage, named by a control register, enabled, with one slot and one entry. -/
def demoRing (num n entry : Nat) (s : State) : State :=
  withMem 0x1440 n entry (withMem 0x1400 18 (1 + 2 ^ 136) (withReg num 0 (demoPa + 0x1400) (demoDev s)))

/-- A request that is carried out and one that is refused, for a reserved byte. -/
theorem witness_Invalidations : ∀ bad ∈ [0, 1], let s := demoRing 0x21 32 (2 ^ 144 + bad * 2 ^ 152) demo
    (match s.ringTake (s.invRing 0) with
      | (s2, some e) => (let f := fun at_ n => natOfBytes ((List.take n (e.drop at_)))
        (match s2.ctxDesc (f 0x10 2 % 4096) with
         | some d => d.func == 0 && f 0x12 1 == 1 && f 0x13 5 == bad
         | none => false))
      | _ => false) = true := by
  intro b h
  simp only [List.mem_cons, List.not_mem_nil, or_false] at h
  rcases h with rfl | rfl <;> decide +kernel

/-- A workgroup that is not ready for its save (a load is owed), and one that is, with room in the pool; a save that drains. -/
def demoSave : State := withReg 0x23 0 0x100000 { demo with launches := [(0, demoLaunch)] }
theorem witness_Saves :
    (∃ g, (demoCrew (fun cr => { cr with owed := [{ id := 0, flag := none, due := none, writes := [], fps := 0, sat := false }] })).wg? 0 0 = some g ∧
      g.abort = none ∧ g.written = false ∧ g.save = none ∧
      (demoCrew (fun cr => { cr with owed := [{ id := 0, flag := none, due := none, writes := [], fps := 0, sat := false }] })).saveReady 0 0 g = false) ∧
    (∃ g, demoSave.wg? 0 0 = some g ∧ g.abort = none ∧ g.written = false ∧ g.save = none ∧ demoSave.saveReady 0 0 g = true ∧
      kfind g.launch demoSave.launches = some demoLaunch ∧ demoSave.poolFit g.func (imageSize g.kernel 0) = some 0) ∧
    (∃ g, demo.wg? 0 0 = some g ∧ g.abort = none ∧ g.written = false ∧ g.save = none ∧ demo.saveReady 0 0 g = true ∧
      demo.poolFit g.func (imageSize g.kernel 0) = none) ∧
    (∃ g, (demoWg (fun g => { g with save := some (1, 0) })).wg? 0 0 = some g ∧ g.save = some (1, 0)) :=
  ⟨⟨_, rfl, by decide +kernel⟩, ⟨_, rfl, by decide +kernel⟩, ⟨_, rfl, by decide +kernel⟩, ⟨_, rfl, rfl⟩⟩

/-- A saved workgroup whose launch is there, and one whose launch is gone. -/
def demoSaved : Saved :=
  { func := 0, off := 0, size := 4096, launch := waiting 1 0 1, wg := { placedWg with launch := 1 }, crews := [placedCrew []], macs := [],
    grain := none, cmds := [], wins := [], cause := 0, at_ := 0, dbg := false, index := none }
theorem witness_Restores : (∃ l p c, ({ demoBench (waiting 1 0 1) with saved := [(1, demoSaved)] } : State).restorable demoSaved = some (l, p, c)) ∧
    State.reset.restorable demoSaved = none ∧ (∀ b ∈ [true, false], (({ Core.zero with fenced := b } : Core).fenced = b)) :=
  ⟨⟨waiting 1 0 1, 0, 0, by decide +kernel⟩, by decide +kernel, by decide⟩

theorem witness_EccErrors : State.reset.eccPlace (.storage 0) = none ∧ State.reset.eccPlace (.storage demoPa) = some (0, demoPa, false) ∧
    State.reset.sysreg 0x16 0 = 0 ∧ State.reset.key demoPa = some (0x3FF * 2 ^ 42) ∧ (State.reset.eccPlace (.cimRow 0 7 255)).isSome = true ∧
    7 < (State.reset.core 0).cim.length ∧ ((coded demo).eccPlace (.icacheLine 0 0 0x1000)).isSome = true := by decide +kernel

/-- Temperatures of two cores; a debt that the PF's absent pan grants, one that an empty pan refuses; a sequencer with a stall
ring; a sample that waits. -/
theorem witness_MeterEvents :
    ksorted [(0, (250 : Int)), (1, 1000)] = true ∧ State.reset.domains.length = 5 ∧
    (let s := State.reset.modCore 0 (fun co => { co with grants := [(0, { rem := 0, debt := 5 })] })
     ((s.core 0).grantOf 0).debt ≠ 0 ∧ (s.panOp 0 Pan.grant).2 = true) ∧
    (let s := withMem 0x1470 1 3 (withReg 0x11 0 (demoPa + 0x1400) (State.reset.modCore 0 (fun co => { co with grants := [(1, { rem := 0, debt := 5 })] })))
     ((s.core 0).grantOf 1).debt ≠ 0 ∧ (s.panOp 1 Pan.grant).2 = false ∧ s.panRefuses 1 = true ∧ s.panRefuses 0 = false) ∧
    (let s := withReg 0x25 0 (1 + 0xFFF * 2 ^ 40) demo
     s.seqFuncs 0 0 = [0] ∧ s.stallTime 0 = true ∧ (s.stallNext 0 0 0).isSome = true ∧ 0 < (s.core 0).seqs.length) ∧
    (let x : Sample := { pc := 0x1000, va := 64, ctx := 0, func := 0, level := 0, tlb := false, poison := false }
     (((State.reset.modCore 0 (fun co => { co with samples := [x] })).core 0).samples.find? (fun x => x.pc.toNat == 0x1000) = some x)) := by
  decide +kernel

/-- Running, halted and held sequencers; a breakpoint; a crew's registers under the debugger; writes of the window. -/
def dseq0 (v : W64) (s : State) : State := s.modCore 0 (fun co => { co with seqs := co.seqs.set 0 { Seq.zero with dseq := v } })
theorem witness_DebuggerEvents :
    (0 < 4 ∧ (demo.core 0).seqs.length = 4 ∧ ((demo.core 0).seqs.getD 0 Seq.zero).dseq.getLsbD 16 = false ∧ demo.stopHeld 0 0 = false ∧
      demoHandler.stopHeld 0 0 = true) ∧
    (((((dseq0 0x10000 demo).core 0).seqs.getD 0 Seq.zero).dseq.getLsbD 16) = true) ∧
    (∃ cr g, demo.crew? ⟨0, 0⟩ = some cr ∧ demo.wg? 0 cr.wg = some g ∧ 0 / 16 = 0 ∧ demo.matching ⟨0, 0⟩ cr g = none ∧ g.conf = false ∧ 191 < g.kernel.vregs ∧ cr.threads.length = 64) ∧
    (∃ cr g, (dseq0 0x10000 demo).crew? ⟨0, 0⟩ = some cr ∧ (dseq0 0x10000 demo).wg? 0 cr.wg = some g ∧ g.conf = false ∧
      ((dseq0 0x10000 demo).core 0).stopped 0 = true ∧ 8 ≤ demo.boot.next) ∧
    (let s := withReg 0x4F 0 0x1001 (State.reset.withFetchWord 64 (word 0 0 0x022 2 3 4 0))
     ∃ cr g, s.crew? ⟨0, 0⟩ = some cr ∧ s.wg? 0 cr.wg = some g ∧ s.matching ⟨0, 0⟩ cr g = some 7 ∧ s.stopHeld 0 0 = false) ∧
    (sysSelectors 0x50 = some 4096 ∧ 4095 < 4096 ∧ ¬(0x30 ≤ 0x50 ∧ 0x50 ≤ 0x40) ∧ (match (demoDev State.reset).ctxDesc 0 with
      | some d => !d.conf
      | none => false) = true) ∧ 0x27 < 0x28 ∧
    (∀ kind ∈ [0, 1, 2, 5], let s := demoRing 0x17 64 (kind + (demoPa + 0x1800) * 2 ^ 64 + 0x800 * 2 ^ 128) State.reset
      (match s.nextReq with
        | some q => q.kind == kind && (match s.ringTake s.reqRing with
          | (s2, some e) => (StateReq.ofBytes e).kind == kind && (StateReq.ofBytes e).clean &&
              decide ((s2.exportBytes (StateReq.ofBytes e).classes).2.length ≤ 0x800) &&
              (s2.imagesUnder 0 (demoPa + 0x1800)).isEmpty
          | _ => false)
        | none => false) = true) ∧
    State.reset.nextReq = none := by
  refine ⟨by decide +kernel, by decide +kernel, ⟨_, _, rfl, rfl, by decide +kernel⟩, ⟨_, _, rfl, rfl, by decide +kernel⟩,
    ⟨_, _, rfl, rfl, by decide +kernel⟩, by decide +kernel, by decide, fun k h => ?_, by decide +kernel⟩
  simp only [List.mem_cons, List.not_mem_nil, or_false] at h
  rcases h with rfl | rfl | rfl | rfl <;> decide +kernel
/-- A restart and a release that find a saved workgroup under their index block. -/
theorem witness_RestartAndRelease : ∀ kind ∈ [1, 2], let s := demoRing 0x17 64 (kind + 0x1000 * 2 ^ 64) { State.reset with
      saved := [(1, { demoSaved with index := some 0x1000 })] }
    (match s.nextReq, s.ringTake s.reqRing with
      | some q, (s2, some e) => (let r := StateReq.ofBytes e
        q.kind == kind && r.clean && !(s2.imagesUnder r.func r.pa).isEmpty && (s2.lqHeader r.func r.entry).isSome)
      | _, _ => false) = true := by
  intro k h
  simp only [List.mem_cons, List.not_mem_nil, or_false] at h
  rcases h with rfl | rfl <;> decide +kernel

/-- A host access within a line and one outside the window; a part in a pod and one in none, with a peer's request that is
exposed and one that is not; links up and down. -/
theorem witness_PortsAndLinks :
    (∃ k, State.reset.key (hdmPa 0x1080) = some k ∧ 0x1080 % 128 + 128 ≤ 128 ∧ State.reset.hdmOk 0x1080 128 = true ∧ State.reset.ownerOf (k / 128) = none) ∧
    (∃ k, State.reset.key (hdmPa 0x8000000000) = some k ∧ State.reset.hdmOk 0x8000000000 128 = false ∧ State.reset.sysreg 0x16 0 = 0) ∧
    State.reset.pod = none ∧
    (let s : State := { State.reset with pod := some 3, links := State.reset.links.map (fun l => { l with up := true }) }
     let a := 3 * 2 ^ 42 + 2 ^ 39 + 0x40
     s.reached a = true ∧ State.reset.reached a = false ∧ a / 2 ^ 42 = 3 ∧ remoteBytes (.atom .add .b8 1 true) = 8 ∧ s.exposed a 8 = true ∧
      (∃ k, s.key a = some k ∧ s.ownerOf (k / 128) = none ∧ s.poisoned k 8 = false) ∧
      a % 128 + 8 ≤ 128 ∧ s.exposed (3 * 2 ^ 42 + 0x6000000000) 8 = false) ∧
    (35 < State.reset.links.length ∧ (State.reset.links.getD 35 Link.zero).up = false ∧ ∀ n ∈ [0, 8],
      let l := (([{ enabled := true, up := true, paused := false, replays := n, heard := 0, trained := true, sender := .house }] : List Link).getD 0
        Link.zero)
      l.up = true ∧ l.paused = false ∧ (l.replays < 8 ↔ n = 0) ∧ l.heard + 10000 ≤ 10000) ∧
    (575 < 576 ∧ 1 ≤ 63 ∧ 63 < 64 ∧ 56 + 8 ≤ 64) ∧
    (∃ k, State.reset.key (hostDev * 2 ^ 42 + 0x1040) = some k ∧ homeOf k = .host ∧ State.reset.ownerOf (k / 128) = none ∧
      (hostDev * 2 ^ 42 + 0x1040) % 128 + 64 ≤ 128) :=
  ⟨⟨_, rfl, by decide +kernel⟩, ⟨_, rfl, by decide +kernel⟩, rfl, ⟨by decide +kernel, by decide +kernel, by decide +kernel, by decide, by decide +kernel, ⟨_, rfl, by decide +kernel⟩,
   by decide +kernel⟩, by decide +kernel, by decide +kernel, ⟨_, rfl, by decide +kernel⟩⟩
theorem witness_StartupAndManagement : State.reset.boot.next = 0 ∧ (Move.turn 0 0).early = false ∧
    ({ State.reset with boot := { Boot.zero with stopped := true } } : State).boot.stopped = true := ⟨rfl, rfl, rfl⟩

/-! ## Steps, encodings, the invariant -/

/-- A write that a fence waits for, on its way to peer 3, whose links are paused or not. -/
def demoFlight (paused : Bool) : State :=
  { State.reset with
    flight := [{ core := 0, payer := .house, writers := [], ctx := 0, func := 0, conf := false, at_ := Attr.plain,
                 ws := [(3 * 2 ^ 42 + 2 ^ 39, 7)], bad := false, whole := false, must := true }],
    links := State.reset.links.map (fun l => { l with up := true, paused := paused }) }
/-- A placed instruction is decoded and run; a word that does not decode; a crew that may not issue, its workgroup to be aborted;
start-up over, and a core that serves; a completion that a paused link holds, and one that none does. -/
theorem witness_StepRunsDecoded :
    (∃ cr g, (State.reset.withFetchWord 64 (word 0 0 0x022 2 3 4 0)).crew? ⟨0, 0⟩ = some cr ∧
      (State.reset.withFetchWord 64 (word 0 0 0x022 2 3 4 0)).wg? 0 cr.wg = some g ∧
      (State.reset.withFetchWord 64 (word 0 0 0x022 2 3 4 0)).agenda = [.issue ⟨0, 0⟩] ∧
      (State.reset.withFetchWord 64 (word 0 0 0x022 2 3 4 0)).chosen 0 0 = some ⟨0, 0⟩ ∧
      (State.reset.withFetchWord 64 (word 0 0 0x022 2 3 4 0)).taken ⟨0, 0⟩ cr g = false ∧
      (State.reset.withFetchWord 64 (word 0 0 0x022 2 3 4 0)).seqAllows ⟨0, 0⟩ = true ∧
      cr.ready ≤ (State.reset.withFetchWord 64 (word 0 0 0x022 2 3 4 0)).now ∧ cr.lastIssue = none ∧ (∃ bs i n, cr.fetchAt = .word bs ∧
        decodeBytes bs.length bs = .ok (i, n) ∧ cr.word = .ok i)) ∧
    (∃ cr g, (State.reset.withFetchWord 64 (word 0 0 0x1FF 2 3 4 0)).crew? ⟨0, 0⟩ = some cr ∧
      (State.reset.withFetchWord 64 (word 0 0 0x1FF 2 3 4 0)).wg? 0 cr.wg = some g ∧
      (State.reset.withFetchWord 64 (word 0 0 0x1FF 2 3 4 0)).wouldIssue ⟨0, 0⟩ = true ∧
      (State.reset.withFetchWord 64 (word 0 0 0x1FF 2 3 4 0)).taken ⟨0, 0⟩ cr g = false ∧
      (∃ bs e, cr.fetchAt = .word bs ∧ decodeBytes bs.length bs = .error e)) ∧
    (∃ cr g, demoAborted.crew? ⟨0, 0⟩ = some cr ∧ demoAborted.wg? 0 cr.wg = some g ∧ demoAborted.chosen 0 0 ≠ some ⟨0, 0⟩) ∧
    (State.reset.withFetchWord 64 0).boot.next = 8 ∧ (State.reset.withFetchWord 64 0).serves 0 = true ∧
    (∀ p ∈ [true, false], let s := demoFlight p; let u := s.landFlights (fun f => f.must && f.core == 0 && !s.linkHeld f)
     u.flight.any (fun f => f.must && f.core == 0) = p ∧ endsFor (.instructionCompletion ⟨0, 0⟩ 0) = some 0) :=
  ⟨⟨_, _, rfl, rfl, rfl, by decide +kernel, by decide +kernel, by decide +kernel, by decide +kernel, rfl, _, _, _, rfl, rfl, rfl⟩,
   ⟨_, _, rfl, rfl, by decide +kernel, by decide +kernel, _, _, rfl, rfl⟩,
   ⟨_, _, rfl, rfl, by decide +kernel⟩, rfl, by decide +kernel, fun p _ => by cases p <;> decide +kernel⟩

theorem witness_DecodeEncode : (Instr.imad (hd .w96 false) .s32 (.v 4) (V 1) (V 2) (V 3)).encoded = true ∧
    (Instr.imad (hd .w96 false) .s32 (.v 4) (V 1) (V 2) (V 3)).wf = true := by decide

theorem reset_inv : State.reset.Inv := ⟨rfl, rfl⟩
theorem witness_StepKeepsInv : demo.Inv ∧ ∃ t, step (State.reset.withFetchWord 64 (word 0 0 0x022 2 3 4 0)) = .next t :=
  ⟨⟨rfl, rfl⟩, _, rfl⟩

/-- Every thread that takes part, none, and registers on which writes are owed. -/
theorem witness_IssueAndRetire :
    (∃ x s1, demo.begin hv = some (x, s1) ∧ x.crew.replay = none ∧ x.crew.hmode = false ∧ x.crew.owed = [] ∧ x.replaying = false) ∧
    (let h := { hv with pg := 0 }; let i := Instr.iadd h .s32 (.v 1) (V 2) (V 3)
     ∃ x s1, demo.begin h = some (x, s1) ∧ x.idle = true ∧ i.hdr? = some h ∧ i.wf = true ∧ x.kernel.numbersOk i = true ∧
      x.kernel.fieldsOk x.crew.hmode i = true) := ⟨⟨_, _, rfl, by decide +kernel⟩, ⟨_, _, rfl, by decide +kernel⟩⟩

/-! ## Worked examples that run -/

/-- The residency table of chapter 1, with its six crews of 96 registers. -/
theorem test_residency : [(32, 1), (64, 1), (96, 1), (192, 1), (96, 6)].map (fun p : Nat × Nat =>
    ({ placedKernel with vregs := p.1, crews := p.2, scratch := 0, stash := 0 } : Kernel).perCore) = [16, 8, 5, 2, 2] := by decide

/-- The error-feedback example of R107: five elements to E2M1, their codes, residuals and flags (NX and, as
0.625, 0.75 and 0.375 are tiny, UF; none; OF and NX). -/
theorem test_feedback :
    let go := fun (e : List (Nat × Fps) × Nat) x => let u := feedStep false .e2m1 x e.2; (e.1 ++ [(u.1, u.2.2)], u.2.1)
    ([0x3F200000, 0x3F200000, 0x3F200000, 0x3F200000, 0x40E00000].foldl go ([], 0)) =
      ([(1, 0x18), (2, 0x18), (1, 0x18), (1, 0), (7, 0x14)], 0) ∧
    (feedStep false .e2m1 0x3F200000 0).2.1 = 0x3E000000 ∧ (feedStep false .e2m1 0x3F200000 0x3E000000).2.1 = 0xBE800000 := by decide +kernel

/-- R108: 1 + 2^100 - 2^100 is exactly 1 and sets no flag. -/
theorem test_dot_exact : dotOne false 0x3F800000 0 ([0x7180, 0xF180].map (fval fBF16)) ([0x3F80, 0x3F80].map (fval fBF16)) =
    FRes.exact 0x3F800000 := by decide +kernel

/-- The worked vector of chapter 13: S4 weights 5 and -7 give 29. -/
theorem test_cim_vector :
    let m : CimMac := { CimMac.zero with cells := [(0, -1), (1, -1), (2, 1), (256, -1), (257, 1), (258, -1)] }
    (mmaSums false [m] [2] (3 :: -2 :: List.replicate 254 0)).take 2 = [29, 0] := by decide +kernel

/-- The worked entry of chapter 20: FDIV of a non-zero value by zero, with DZ enabled. -/
theorem test_division_by_zero :
    (match exec (.fdiv hv f32m (.v 3) (V 1) (V 2)) ((demoKernel (fun k => { k with traps := 0x08 })).modCrew
        ⟨0, 0⟩ (fun cr => cr.mapThr (fun _ th => { th with v := [(1, 0x3F800000)] }))) with
      | .next t => (match t.crew? ⟨0, 0⟩ with
        | some cr => cr.hmode && cr.epc == 0x1000 && cr.ecause == 3 && cr.earg == 2 && cr.ethr == 1 && cr.fps == 2 && (cr.thr 0).v == [(1, 0x3F800000)]
        | none => false)
      | _ => false) = true := by decide +kernel

end Sys2Proof.Tests
end

section
/-! PROOFS. Every function of the model that returns a state keeps the model's invariant (storage in its canonical
form, the throttle's settings from 1 to 4 of 4), from the smallest operations up to the step: one lemma `f_inv` for each
function f, which cites the lemmas of the functions that f calls and unfolds nothing but f. -/

namespace Sys2Proof.Machine

open Sys2Proof

/- As in Tests/Slice0.lean: a thread for each of several hundred theorems would fill the memory. -/
set_option Elab.async false

/-! ### The invariant as a predicate of two fields, and of outcomes -/

/-- What the invariant reads of a state: its storage and its throttle settings. -/
def FieldsInv (m : Memory) (throttle : List Nat) : Prop :=
  Memory.wf m = true ∧ throttle.length = 4 ∧ ∀ n ∈ throttle, 1 ≤ n ∧ n ≤ 4

theorem State.inv_iff {s : State} : s.Inv ↔ FieldsInv s.mem s.throttle := by
  constructor
  · rintro ⟨hmem, hthr⟩
    simpa [FieldsInv, State.throttleOk, hmem] using hthr
  · rintro ⟨hmem, hthr⟩
    exact ⟨hmem, by simpa [State.throttleOk] using hthr⟩

theorem State.Inv.congr {s t : State} (h : s.Inv) (hm : t.mem = s.mem) (ht : t.throttle = s.throttle) : t.Inv :=
  ⟨hm ▸ h.mem, by simpa [State.throttleOk, ht] using h.throttle⟩

theorem inv_fst {β : Type} {p : State × β} {t : State} {b : β} (h : p.1.Inv) (e : p = (t, b)) : t.Inv := by
  subst e
  exact h

/-- An outcome keeps the invariant: where it is a next state, that state meets it. -/
def OutInv : Out → Prop
  | .next t => t.Inv
  | .fault _ | .refused _ => True

theorem outInv_next (t : State) : OutInv (.next t) ↔ t.Inv := Iff.rfl
theorem outInv_fault (f : Fault) : OutInv (.fault f) := trivial

theorem OutInv.of_next {o : Out} {t : State} (h : OutInv o) (e : o = .next t) : t.Inv := by
  subst e
  exact h

/-! ### Folds and the model's small monads -/

theorem inv_foldl {α : Type} {s : State} {l : List α} {f : State → α → State} (h : s.Inv)
    (hf : ∀ s a, s.Inv → (f s a).Inv) : (l.foldl f s).Inv :=
  List.foldlRecOn l f h fun s hs a _ => hf s a hs

theorem inv_foldl_fst {α β : Type} {s : State × β} {l : List α} {f : State × β → α → State × β} (h : s.1.Inv)
    (hf : ∀ s a, s.1.Inv → (f s a).1.Inv) : (l.foldl f s).1.Inv :=
  List.foldlRecOn (motive := fun r => r.1.Inv) l f h fun s hs a _ => hf s a hs

/-- A monadic read (a vote, a matrix product) takes states that satisfy P to states that satisfy P. -/
structure Keeps {σ ε α : Type} (P : σ → Prop) (m : ExceptT ε (StateM σ) α) : Prop where
  run : ∀ s, P s → P (m s).2

section
variable {σ ε α β : Type} {P : σ → Prop}

theorem keeps_pure (a : α) : Keeps P (pure a : ExceptT ε (StateM σ) α) := ⟨fun _ hs => hs⟩

theorem keeps_throw (e : ε) : Keeps P (throw e : ExceptT ε (StateM σ) α) := ⟨fun _ hs => hs⟩

theorem keeps_bind {m : ExceptT ε (StateM σ) α} {f : α → ExceptT ε (StateM σ) β} (hm : Keeps P m)
    (hf : ∀ a, Keeps P (f a)) : Keeps P (m >>= f) := by
  refine ⟨fun s hs => ?_⟩
  have h := hm.run s hs
  show P (match m s with | (r, t) => (ExceptT.bindCont f r : StateM σ (Except ε β)) t).2
  rcases hr : m s with ⟨_ | a, t⟩
  · rw [hr] at h
    exact h
  · rw [hr] at h
    exact (hf a).run t h

theorem keeps_get_bind {f : σ → ExceptT ε (StateM σ) β} (hf : ∀ s, P s → Keeps P (f s)) : Keeps P (get >>= f) :=
  ⟨fun s hs => (hf s hs).run s hs⟩

theorem keeps_set {s : σ} (hs : P s) : Keeps P (set s : ExceptT ε (StateM σ) PUnit) := ⟨fun _ _ => hs⟩

theorem keeps_modify {f : σ → σ} (hf : ∀ s, P s → P (f s)) : Keeps P (modify f : ExceptT ε (StateM σ) PUnit) := ⟨hf⟩

theorem keeps_mapM {f : α → ExceptT ε (StateM σ) β} (hf : ∀ a, Keeps P (f a)) (l : List α) : Keeps P (l.mapM f) := by
  induction l with
  | nil => exact keeps_pure _
  | cons a l ih =>
    rw [List.mapM_cons]
    exact keeps_bind (hf a) fun _ => keeps_bind ih fun _ => keeps_pure _
end

/-- The state that a matrix product's reads have reached meets the invariant. -/
def GrInv (g : Gr) : Prop := g.st.Inv

/-- A part of an exported image reads storage and keeps the invariant. -/
def GatherInv (g : Gather) : Prop := ∀ s, s.Inv → (g s).1.Inv

/-! ### Operations with lemmas of their own -/

theorem State.store_inv {s : State} (hs : s.Inv) (key ws bad) : (s.store key ws bad).Inv :=
  ⟨State.store_wf s key ws bad hs.mem, by simpa [State.throttleOk, State.store_throttle] using hs.throttle⟩

theorem State.begin_inv {s : State} (hs : s.Inv) {h x t} (e : s.begin h = some (x, t)) : t.Inv := by
  obtain ⟨cr, hcur, hcr, hwg, hh, hfresh, hcrew, hnext, rfl⟩ := State.begin_cases e
  exact hs.congr (by simp) (by simp)

theorem withCx_inv {h : Hdr} {s : State} {k : Cx → State → Out} (hs : s.Inv)
    (hk : ∀ x s, s.Inv → OutInv (k x s)) : OutInv (withCx h s k) := by
  unfold withCx
  split
  · exact outInv_fault _
  · next e => exact hk _ _ (State.begin_inv hs e)

theorem atCrew_inv {s : State} {key} {k : Crew → Wg → State} (hs : s.Inv) (hk : ∀ cr wg, (k cr wg).Inv) :
    OutInv (atCrew s key k) := by
  grind [atCrew, outInv_next]

theorem atWg_inv {s : State} {c w} {k : Wg → State} (hs : s.Inv) (hk : ∀ wg, (k wg).Inv) : OutInv (atWg s c w k) := by
  grind [atWg, outInv_next]

/-! ### Places, charges, retiring and exceptions -/

theorem State.setCore_inv {s : State} (hs : s.Inv) (c x) : (s.setCore c x).Inv := hs.congr rfl rfl

theorem State.modCore_inv {s : State} (hs : s.Inv) (c f) : (s.modCore c f).Inv := State.setCore_inv hs ..

theorem State.setCrew_inv {s : State} (hs : s.Inv) (k x) : (s.setCrew k x).Inv := State.modCore_inv hs ..

theorem State.modCrew_inv {s : State} (hs : s.Inv) (k f) : (s.modCrew k f).Inv := by
  unfold State.modCrew
  grind [State.setCrew_inv]

theorem State.setWg_inv {s : State} (hs : s.Inv) (c w x) : (s.setWg c w x).Inv := State.modCore_inv hs ..

theorem State.modWg_inv {s : State} (hs : s.Inv) (c w f) : (s.modWg c w f).Inv := by
  unfold State.modWg
  grind [State.setWg_inv]

theorem State.say_inv {s : State} (hs : s.Inv) (r) : (s.say r).Inv := hs.congr rfl rfl

theorem State.modCrewsOf_inv {s : State} (hs : s.Inv) (c w f) : (s.modCrewsOf c w f).Inv := State.modCore_inv hs ..

theorem State.addDyn_inv {s : State} (hs : s.Inv) (p e) : (s.addDyn p e).Inv := hs.congr rfl rfl

theorem State.charge_inv {s : State} (hs : s.Inv) (c w p cls n) : (s.charge c w p cls n).Inv := by
  unfold State.charge
  grind [State.addDyn_inv, State.setWg_inv, State.modCore_inv]

theorem State.chargeLate_inv {s : State} (hs : s.Inv) (ctx p cls n) : (s.chargeLate ctx p cls n).Inv := by
  unfold State.chargeLate
  grind [State.addDyn_inv, State.inv_iff]

theorem State.chargeHouse_inv {s : State} (hs : s.Inv) (p cls n) : (s.chargeHouse p cls n).Inv := by
  unfold State.chargeHouse
  grind [State.addDyn_inv, State.inv_iff]

theorem State.count_inv {s : State} (hs : s.Inv) (c ctx conf ev n) : (s.count c ctx conf ev n).Inv :=
  State.modCore_inv hs ..

theorem State.chargeCx_inv {s : State} (hs : s.Inv) (x cls n) : (s.chargeCx x cls n).Inv := State.charge_inv hs ..

theorem State.countCx_inv {s : State} (hs : s.Inv) (x ev n) : (s.countCx x ev n).Inv := State.count_inv hs ..

theorem State.issueCost_inv {s : State} (hs : s.Inv) (x cls) : (s.issueCost x cls).Inv := by
  unfold State.issueCost
  grind [State.countCx_inv, State.chargeCx_inv]

theorem retireIdle_inv {s : State} (hs : s.Inv) (x) : (retireIdle x s).Inv := by
  unfold retireIdle
  grind [State.modCrew_inv, State.issueCost_inv]

theorem retireFixed_inv {s : State} (hs : s.Inv) (x cls d dst ws fps sat) :
    (retireFixed x s cls d dst ws fps sat).Inv := by
  unfold retireFixed
  grind [State.modCrew_inv, State.issueCost_inv]

theorem retireVar_inv {s : State} (hs : s.Inv) (x cls dst ws fps sat) : (retireVar x s cls dst ws fps sat).Inv := by
  unfold retireVar
  grind [State.modCrew_inv, State.issueCost_inv]

theorem retireNone_inv {s : State} (hs : s.Inv) (x cls) : (retireNone x s cls).Inv := by
  unfold retireNone
  grind [State.modCrew_inv, State.issueCost_inv]

theorem retireLater_inv {s : State} (hs : s.Inv) (x) : (retireLater x s).Inv := by
  unfold retireLater
  grind [retireVar_inv, retireNone_inv]

theorem retireIdleCtl_inv {s : State} (hs : s.Inv) (x) : (retireIdleCtl x s).Inv := by
  unfold retireIdleCtl
  grind [State.modCrew_inv, State.issueCost_inv]

theorem State.abortWg_inv {s : State} (hs : s.Inv) (c w i) : (s.abortWg c w i).Inv := State.modWg_inv hs ..

theorem raiseAt_inv {s : State} (hs : s.Inv) (key e) : (raiseAt s key e).Inv := by
  unfold raiseAt
  grind [State.abortWg_inv, State.setCrew_inv]

theorem Cx.raiseWord_inv {s : State} (hs : s.Inv) (x e) : (Cx.raiseWord x s e).Inv := by
  unfold Cx.raiseWord
  grind [raiseAt_inv, State.modCrew_inv]

theorem Cx.raiseAs_inv {s : State} (hs : s.Inv) (x cls e) : (Cx.raiseAs x s cls e).Inv := by
  unfold Cx.raiseAs
  grind [Cx.raiseWord_inv, State.issueCost_inv]

theorem Cx.raise_inv {s : State} (hs : s.Inv) (x e) : (Cx.raise x s e).Inv := Cx.raiseAs_inv hs ..

theorem Cx.illegal_inv {s : State} (hs : s.Inv) (x) : (Cx.illegal x s).Inv := Cx.raiseWord_inv hs ..

theorem Cx.badOperand_inv {s : State} (hs : s.Inv) (x) : (Cx.badOperand x s).Inv := Cx.raiseWord_inv hs ..

theorem Cx.badValue_inv {s : State} (hs : s.Inv) (x) : (Cx.badValue x s).Inv := Cx.raise_inv hs ..

theorem Cx.fpTrap_inv {s : State} (hs : s.Inv) (x cls fps) : (Cx.fpTrap x s cls fps).Inv := by
  unfold Cx.fpTrap
  grind [Cx.raiseAs_inv, State.modCrew_inv]

/-! ### Instructions that compute in registers -/

theorem computeOn_inv {s : State} (hs : s.Inv) (x ok cls delay dst body) :
    (computeOn x s ok cls delay dst body).Inv := by
  unfold computeOn
  grind [Cx.badOperand_inv, retireIdle_inv, Cx.badValue_inv, Cx.raise_inv, Cx.fpTrap_inv, retireFixed_inv,
    retireVar_inv]

theorem compute_inv {s : State} (hs : s.Inv) (h ok cls delay dst body) : OutInv (compute h s ok cls delay dst body) :=
  by
  unfold compute
  grind [withCx_inv, computeOn_inv, outInv_next]

/-! ### Integer arithmetic -/

theorem int1_inv {s : State} (hs : s.Inv) (h ty d a f) : OutInv (int1 h ty d a f s) := compute_inv hs ..

theorem int2_inv {s : State} (hs : s.Inv) (h ty delay d a b f) : OutInv (int2 h ty delay d a b f s) :=
  compute_inv hs ..

theorem int3_inv {s : State} (hs : s.Inv) (h ty delay d a b c f) : OutInv (int3 h ty delay d a b c f s) :=
  compute_inv hs ..

theorem execUdf_inv {s : State} (hs : s.Inv) : OutInv (execUdf s) := by
  unfold execUdf
  grind [withCx_inv, Cx.illegal_inv, outInv_next]

theorem execIadd_inv {s : State} (hs : s.Inv) (h ty d a b) : OutInv (execIadd h ty d a b s) := int2_inv hs ..

theorem execIsub_inv {s : State} (hs : s.Inv) (h ty d a b) : OutInv (execIsub h ty d a b s) := int2_inv hs ..

theorem execIadds_inv {s : State} (hs : s.Inv) (h ty d a b) : OutInv (execIadds h ty d a b s) := int2_inv hs ..

theorem execIsubs_inv {s : State} (hs : s.Inv) (h ty d a b) : OutInv (execIsubs h ty d a b s) := int2_inv hs ..

theorem execImul_inv {s : State} (hs : s.Inv) (h ty d a b) : OutInv (execImul h ty d a b s) := int2_inv hs ..

theorem execImulh_inv {s : State} (hs : s.Inv) (h ty d a b) : OutInv (execImulh h ty d a b s) := int2_inv hs ..

theorem execImad_inv {s : State} (hs : s.Inv) (h ty d a b c) : OutInv (execImad h ty d a b c s) := int3_inv hs ..

theorem execImadw_inv {s : State} (hs : s.Inv) (h ty d a b c) : OutInv (execImadw h ty d a b c s) := compute_inv hs ..

theorem execIdiv_inv {s : State} (hs : s.Inv) (h ty d a b) : OutInv (execIdiv h ty d a b s) := int2_inv hs ..

theorem execIrem_inv {s : State} (hs : s.Inv) (h ty d a b) : OutInv (execIrem h ty d a b s) := int2_inv hs ..

theorem execImin_inv {s : State} (hs : s.Inv) (h ty d a b) : OutInv (execImin h ty d a b s) := int2_inv hs ..

theorem execImax_inv {s : State} (hs : s.Inv) (h ty d a b) : OutInv (execImax h ty d a b s) := int2_inv hs ..

theorem execIabs_inv {s : State} (hs : s.Inv) (h ty d a) : OutInv (execIabs h ty d a s) := int1_inv hs ..

theorem execIneg_inv {s : State} (hs : s.Inv) (h ty d a) : OutInv (execIneg h ty d a s) := int1_inv hs ..

theorem carryOp_inv {s : State} (hs : s.Inv) (h d a b pc f out) : OutInv (carryOp h d a b pc f out s) :=
  compute_inv hs ..

theorem execIaddc_inv {s : State} (hs : s.Inv) (h yty d a b pc) : OutInv (execIaddc h yty d a b pc s) :=
  carryOp_inv hs ..

theorem execIsubb_inv {s : State} (hs : s.Inv) (h yty d a b pc) : OutInv (execIsubb h yty d a b pc s) :=
  carryOp_inv hs ..

theorem execLea_inv {s : State} (hs : s.Inv) (h ty sh d a b) : OutInv (execLea h ty sh d a b s) := compute_inv hs ..

/-! ### Logic and bit operations -/

theorem bitwise2_inv {s : State} (hs : s.Inv) (h ty d a b f) : OutInv (bitwise2 h ty d a b f s) := compute_inv hs ..

theorem execAnd_inv {s : State} (hs : s.Inv) (h ty d a b) : OutInv (execAnd h ty d a b s) := bitwise2_inv hs ..

theorem execOr_inv {s : State} (hs : s.Inv) (h ty d a b) : OutInv (execOr h ty d a b s) := bitwise2_inv hs ..

theorem execXor_inv {s : State} (hs : s.Inv) (h ty d a b) : OutInv (execXor h ty d a b s) := bitwise2_inv hs ..

theorem execAndn_inv {s : State} (hs : s.Inv) (h ty d a b) : OutInv (execAndn h ty d a b s) := bitwise2_inv hs ..

theorem execNot_inv {s : State} (hs : s.Inv) (h ty d a) : OutInv (execNot h ty d a s) := compute_inv hs ..

theorem word3_inv {s : State} (hs : s.Inv) (h d a b c f) : OutInv (word3 h d a b c f s) := compute_inv hs ..

theorem execBool3_inv {s : State} (hs : s.Inv) (h fn d a b c) : OutInv (execBool3 h fn d a b c s) := word3_inv hs ..

theorem shiftOp_inv {s : State} (hs : s.Inv) (h ty d a b signed f) : OutInv (shiftOp h ty d a b signed f s) :=
  compute_inv hs ..

theorem execShl_inv {s : State} (hs : s.Inv) (h ty d a b) : OutInv (execShl h ty d a b s) := shiftOp_inv hs ..

theorem execShr_inv {s : State} (hs : s.Inv) (h ty d a b) : OutInv (execShr h ty d a b s) := shiftOp_inv hs ..

theorem execSar_inv {s : State} (hs : s.Inv) (h ty d a b) : OutInv (execSar h ty d a b s) := shiftOp_inv hs ..

theorem execRol_inv {s : State} (hs : s.Inv) (h ty d a b) : OutInv (execRol h ty d a b s) := shiftOp_inv hs ..

theorem execFshr_inv {s : State} (hs : s.Inv) (h d a b c) : OutInv (execFshr h d a b c s) := word3_inv hs ..

theorem bitCount_inv {s : State} (hs : s.Inv) (h ty d a f) : OutInv (bitCount h ty d a f s) := compute_inv hs ..

theorem execPopc_inv {s : State} (hs : s.Inv) (h ty d a) : OutInv (execPopc h ty d a s) := bitCount_inv hs ..

theorem execClz_inv {s : State} (hs : s.Inv) (h ty d a) : OutInv (execClz h ty d a s) := bitCount_inv hs ..

theorem execCtz_inv {s : State} (hs : s.Inv) (h ty d a) : OutInv (execCtz h ty d a s) := bitCount_inv hs ..

theorem execBrev_inv {s : State} (hs : s.Inv) (h ty d a) : OutInv (execBrev h ty d a s) := compute_inv hs ..

theorem execBfx_inv {s : State} (hs : s.Inv) (h ty d a b) : OutInv (execBfx h ty d a b s) := compute_inv hs ..

theorem execBfi_inv {s : State} (hs : s.Inv) (h d a b c) : OutInv (execBfi h d a b c s) := word3_inv hs ..

theorem execBsel_inv {s : State} (hs : s.Inv) (h d a b c) : OutInv (execBsel h d a b c s) := word3_inv hs ..

/-! ### Compare, select, move and predicates -/

theorem execIcmp_inv {s : State} (hs : s.Inv) (h ty cc pd a b) : OutInv (execIcmp h ty cc pd a b s) :=
  compute_inv hs ..

theorem execFcmp_inv {s : State} (hs : s.Inv) (h cc nega absa pd a b) : OutInv (execFcmp h cc nega absa pd a b s) :=
  compute_inv hs ..

theorem execSel_inv {s : State} (hs : s.Inv) (h wide pc d a b) : OutInv (execSel h wide pc d a b s) :=
  compute_inv hs ..

theorem execMov_inv {s : State} (hs : s.Inv) (h ty d a) : OutInv (execMov h ty d a s) := compute_inv hs ..

theorem execMovi_inv {s : State} (hs : s.Inv) (h sx hi d imm) : OutInv (execMovi h sx hi d imm s) := compute_inv hs ..

theorem execMovs_inv {s : State} (hs : s.Inv) (h d num) : OutInv (execMovs h d num s) := by
  unfold execMovs
  grind [withCx_inv, computeOn_inv, outInv_next]

theorem execRdl_inv {s : State} (hs : s.Inv) (h d) : OutInv (execRdl h d s) := compute_inv hs ..

theorem execFclass_inv {s : State} (hs : s.Inv) (h ty d a) : OutInv (execFclass h ty d a s) := compute_inv hs ..

theorem predOp_inv {s : State} (hs : s.Inv) (h na nb pd pa pb f) : OutInv (predOp h na nb pd pa pb f s) :=
  compute_inv hs ..

theorem execPand_inv {s : State} (hs : s.Inv) (h na nb pd pa pb) : OutInv (execPand h na nb pd pa pb s) :=
  predOp_inv hs ..

theorem execPor_inv {s : State} (hs : s.Inv) (h na nb pd pa pb) : OutInv (execPor h na nb pd pa pb s) :=
  predOp_inv hs ..

theorem execPxor_inv {s : State} (hs : s.Inv) (h na nb pd pa pb) : OutInv (execPxor h na nb pd pa pb s) :=
  predOp_inv hs ..

theorem execPnot_inv {s : State} (hs : s.Inv) (h pd pa) : OutInv (execPnot h pd pa s) := compute_inv hs ..

theorem execP2v_inv {s : State} (hs : s.Inv) (h d a) : OutInv (execP2v h d a s) := compute_inv hs ..

theorem execV2p_inv {s : State} (hs : s.Inv) (h a b) : OutInv (execV2p h a b s) := by
  unfold execV2p
  grind [withCx_inv, computeOn_inv, outInv_next]

/-! ### Floating-point arithmetic -/

theorem fl1_inv {s : State} (hs : s.Inv) (h m cls delay d a f) : OutInv (fl1 h m cls delay d a f s) :=
  compute_inv hs ..

theorem fl2_inv {s : State} (hs : s.Inv) (h m delay d a b f) : OutInv (fl2 h m delay d a b f s) := compute_inv hs ..

theorem fl3_inv {s : State} (hs : s.Inv) (h m d a b c f) : OutInv (fl3 h m d a b c f s) := compute_inv hs ..

theorem execFadd_inv {s : State} (hs : s.Inv) (h m d a b) : OutInv (execFadd h m d a b s) := fl2_inv hs ..

theorem execFsub_inv {s : State} (hs : s.Inv) (h m d a b) : OutInv (execFsub h m d a b s) := fl2_inv hs ..

theorem execFmul_inv {s : State} (hs : s.Inv) (h m d a b) : OutInv (execFmul h m d a b s) := fl2_inv hs ..

theorem execFfma_inv {s : State} (hs : s.Inv) (h m d a b c) : OutInv (execFfma h m d a b c s) := fl3_inv hs ..

theorem execFmin_inv {s : State} (hs : s.Inv) (h m d a b) : OutInv (execFmin h m d a b s) := fl2_inv hs ..

theorem execFmax_inv {s : State} (hs : s.Inv) (h m d a b) : OutInv (execFmax h m d a b s) := fl2_inv hs ..

theorem execFdiv_inv {s : State} (hs : s.Inv) (h m d a b) : OutInv (execFdiv h m d a b s) := fl2_inv hs ..

theorem execFsqrt_inv {s : State} (hs : s.Inv) (h m d a) : OutInv (execFsqrt h m d a s) := fl1_inv hs ..

theorem execFscale_inv {s : State} (hs : s.Inv) (h m d a b) : OutInv (execFscale h m d a b s) := compute_inv hs ..

theorem execFrnd_inv {s : State} (hs : s.Inv) (h m d a) : OutInv (execFrnd h m d a s) := fl1_inv hs ..

theorem execFmed3_inv {s : State} (hs : s.Inv) (h m d a b c) : OutInv (execFmed3 h m d a b c s) := fl3_inv hs ..

/-! ### Conversions -/

theorem execCvtfi_inv {s : State} (hs : s.Inv) (h src hi rmode dst d a) :
    OutInv (execCvtfi h src hi rmode dst d a s) := compute_inv hs ..

theorem execCvtif_inv {s : State} (hs : s.Inv) (h src rmode dst d a) : OutInv (execCvtif h src rmode dst d a s) :=
  compute_inv hs ..

theorem execCvtff_inv {s : State} (hs : s.Inv) (h dst src rmode d a b) : OutInv (execCvtff h dst src rmode d a b s) :=
  compute_inv hs ..

theorem execCvtne_inv {s : State} (hs : s.Inv) (h bg tgt d a) : OutInv (execCvtne h bg tgt d a s) := compute_inv hs ..

theorem execPack_inv {s : State} (hs : s.Inv) (h w md d a b) : OutInv (execPack h w md d a b s) := compute_inv hs ..

theorem execUnpack_inv {s : State} (hs : s.Inv) (h w sx d a b) : OutInv (execUnpack h w sx d a b s) :=
  compute_inv hs ..

theorem execQscale_inv {s : State} (hs : s.Inv) (h md d a) : OutInv (execQscale h md d a s) := by
  unfold execQscale
  grind [compute_inv]

theorem execTern_inv {s : State} (hs : s.Inv) (h out d a b) : OutInv (execTern h out d a b s) := compute_inv hs ..

/-! ### Special functions and dot products -/

theorem sfn_inv {s : State} (hs : s.Inv) (h m d a fn) : OutInv (sfn h m d a fn s) := fl1_inv hs ..

theorem execRcp_inv {s : State} (hs : s.Inv) (h m d a) : OutInv (execRcp h m d a s) := sfn_inv hs ..

theorem execRsq_inv {s : State} (hs : s.Inv) (h m d a) : OutInv (execRsq h m d a s) := sfn_inv hs ..

theorem execEx2_inv {s : State} (hs : s.Inv) (h m d a) : OutInv (execEx2 h m d a s) := sfn_inv hs ..

theorem execLg2_inv {s : State} (hs : s.Inv) (h m d a) : OutInv (execLg2 h m d a s) := sfn_inv hs ..

theorem execSin_inv {s : State} (hs : s.Inv) (h m d a) : OutInv (execSin h m d a s) := sfn_inv hs ..

theorem execCos_inv {s : State} (hs : s.Inv) (h m d a) : OutInv (execCos h m d a s) := sfn_inv hs ..

theorem execTanh_inv {s : State} (hs : s.Inv) (h m d a) : OutInv (execTanh h m d a s) := sfn_inv hs ..

theorem execSincos_inv {s : State} (hs : s.Inv) (h m d a) : OutInv (execSincos h m d a s) := by
  unfold execSincos
  grind [compute_inv, inv_foldl, inv_foldl_fst]

theorem dot_inv {s : State} (hs : s.Inv) (h d a b c sc n ea eb) : OutInv (dot h d a b c sc n ea eb s) :=
  compute_inv hs ..

theorem execDot2_inv {s : State} (hs : s.Inv) (h fa fb d a b c) : OutInv (execDot2 h fa fb d a b c s) := dot_inv hs ..

theorem execDot4_inv {s : State} (hs : s.Inv) (h fa fb sc d a b c) : OutInv (execDot4 h fa fb sc d a b c s) :=
  dot_inv hs ..

theorem execDot8_inv {s : State} (hs : s.Inv) (h fa fb sc d a b c) : OutInv (execDot8 h fa fb sc d a b c s) :=
  dot_inv hs ..

theorem execTdot_inv {s : State} (hs : s.Inv) (h byte d a b c) : OutInv (execTdot h byte d a b c s) := by
  unfold execTdot
  grind [withCx_inv, Cx.illegal_inv, computeOn_inv, inv_foldl, inv_foldl_fst, outInv_next]

/-! ### Storage, caches, the fabric and translation -/

theorem State.setSysreg_inv {s : State} (hs : s.Inv) (num sel v) : (s.setSysreg num sel v).Inv := hs.congr rfl rfl

theorem State.bill_inv {s : State} (hs : s.Inv) (p pl cls n) : (s.bill p pl cls n).Inv := by
  unfold State.bill
  grind [State.charge_inv, State.chargeLate_inv, State.chargeHouse_inv]

theorem State.tally_inv {s : State} (hs : s.Inv) (a ev) : (s.tally a ev).Inv := by
  unfold State.tally
  grind [State.count_inv]

theorem State.hops_inv {s : State} (hs : s.Inv) (p path n) : (s.hops p path n).Inv := by
  unfold State.hops
  grind [State.bill_inv, inv_foldl, inv_foldl_fst]

theorem State.beats_inv {s : State} (hs : s.Inv) (p a b n) : (s.beats p a b n).Inv := by
  unfold State.beats
  grind [State.hops_inv, State.bill_inv]

theorem State.beatsOut_inv {s : State} (hs : s.Inv) (p a n) : (s.beatsOut p a n).Inv := by
  unfold State.beatsOut
  grind [State.bill_inv, State.hops_inv]

theorem State.beatsIn_inv {s : State} (hs : s.Inv) (p b n) : (s.beatsIn p b n).Inv := by
  unfold State.beatsIn
  grind [State.bill_inv, State.hops_inv]

theorem State.flit_inv {s : State} (hs : s.Inv) (p ln) : (s.flit p ln).Inv := by
  unfold State.flit
  grind [State.bill_inv, State.inv_iff]

theorem State.scrWrite_inv {s : State} (hs : s.Inv) (c w off bs) : (s.scrWrite c w off bs).Inv :=
  State.modWg_inv hs ..

theorem State.setOwner_inv {s : State} (hs : s.Inv) (ln o) : (s.setOwner ln o).Inv := hs.congr rfl rfl

theorem State.l2Use_inv {s : State} (hs : s.Inv) (a ln write full segs at_) :
    (s.l2Use a ln write full segs at_).Inv := by
  unfold State.l2Use
  grind [State.bill_inv, State.tally_inv, State.inv_iff]

theorem State.travel_inv {s : State} (hs : s.Inv) (a ln write full segs at_) :
    (s.travel a ln write full segs at_).Inv := by
  unfold State.travel
  grind [State.l2Use_inv, State.beats_inv, State.flit_inv, State.beatsOut_inv, State.beatsIn_inv, State.bill_inv]

theorem State.acceptRaw_inv {s : State} (hs : s.Inv) (a at_ ws bad whole) : (s.acceptRaw a at_ ws bad whole).Inv := by
  unfold State.acceptRaw
  grind [State.store_inv, State.travel_inv]

theorem State.sendDirty_inv {s : State} (hs : s.Inv) (a l) : (s.sendDirty a l).Inv := by
  unfold State.sendDirty
  grind [State.acceptRaw_inv, State.bill_inv]

theorem State.recall_inv {s : State} (hs : s.Inv) (a ln) : (s.recall a ln).Inv := by
  unfold State.recall
  grind [State.setOwner_inv, State.modCore_inv, State.sendDirty_inv]

theorem State.l2Evict_inv {s : State} (hs : s.Inv) (a sb) : (s.l2Evict a sb).Inv := by
  unfold State.l2Evict
  grind [State.recall_inv, State.bill_inv, State.inv_iff, inv_foldl, inv_foldl_fst]

theorem State.l2Trim1_inv {s : State} (hs : s.Inv) (a sb) : (s.l2Trim1 a sb).Inv := by
  unfold State.l2Trim1
  grind [State.l2Evict_inv, inv_foldl, inv_foldl_fst]

theorem State.l2Trim_inv {s : State} (hs : s.Inv) (a ln) : (s.l2Trim a ln).Inv := by
  unfold State.l2Trim
  grind [State.l2Trim1_inv, inv_foldl, inv_foldl_fst]

theorem State.noted_inv {s : State} (hs : s.Inv) (ws) : (s.noted ws).Inv := by
  unfold State.noted
  grind [State.inv_iff]

theorem State.acceptAt_inv {s : State} (hs : s.Inv) (a at_ ws bad whole) : (s.acceptAt a at_ ws bad whole).Inv := by
  unfold State.acceptAt
  grind [State.l2Trim_inv, State.noted_inv, State.acceptRaw_inv, State.recall_inv]

theorem State.landFlights_inv {s : State} (hs : s.Inv) (p) : (s.landFlights p).Inv := by
  unfold State.landFlights
  grind [State.acceptAt_inv, State.inv_iff, inv_foldl, inv_foldl_fst]

theorem State.landOwn_inv {s : State} (hs : s.Inv) (a ln) : (s.landOwn a ln).Inv := by
  unfold State.landOwn
  grind [State.landFlights_inv]

theorem State.holdFor_inv {s : State} (hs : s.Inv) (c) : (s.holdFor c).Inv := hs.congr rfl rfl

theorem State.landCore_inv {s : State} (hs : s.Inv) (c) : (s.landCore c).Inv := State.landFlights_inv hs ..

theorem State.sendOff_inv {s : State} (hs : s.Inv) (a at_ ws bad who must eng) :
    (s.sendOff a at_ ws bad who must eng).Inv := hs.congr rfl rfl

theorem State.dropHost_inv {s : State} (hs : s.Inv) (a ln) : (s.dropHost a ln).Inv := by
  unfold State.dropHost
  grind [State.landOwn_inv, State.modCore_inv, State.sendDirty_inv, inv_foldl, inv_foldl_fst]

theorem State.holdHost_inv {s : State} (hs : s.Inv) (a ln) : (s.holdHost a ln).Inv := by
  unfold State.holdHost
  grind [State.dropHost_inv, State.inv_iff]

theorem State.benchHolds_inv {s : State} (hs : s.Inv) (a ln) : (s.benchHolds a ln).Inv := by
  unfold State.benchHolds
  grind [State.holdHost_inv]

theorem State.serveRead_inv {s : State} (hs : s.Inv) (a at_ k n) : (s.serveRead a at_ k n).1.Inv := by
  unfold State.serveRead
  grind [State.recall_inv, State.benchHolds_inv, State.l2Trim_inv, State.travel_inv]

theorem State.homeRead_inv {s : State} (hs : s.Inv) (a at_ k n) : (s.homeRead a at_ k n).1.Inv := by
  unfold State.homeRead
  grind [State.serveRead_inv, State.landOwn_inv]

theorem State.homeWrite_inv {s : State} (hs : s.Inv) (a at_ ws bad) : (s.homeWrite a at_ ws bad).Inv := by
  unfold State.homeWrite
  grind [State.acceptAt_inv, State.benchHolds_inv, State.landOwn_inv]

theorem State.writeBack_inv {s : State} (hs : s.Inv) (a l) : (s.writeBack a l).Inv := by
  unfold State.writeBack
  grind [State.landOwn_inv, State.l2Trim_inv, State.sendDirty_inv, State.noted_inv, State.recall_inv]

theorem State.writeOff_inv {s : State} (hs : s.Inv) (a l must) : (s.writeOff a l must).Inv := by
  unfold State.writeOff
  grind [State.writeBack_inv, State.sendOff_inv, State.bill_inv, State.landOwn_inv]

theorem State.dropLine_inv {s : State} (hs : s.Inv) (c l) : (s.dropLine c l).Inv := by
  unfold State.dropLine
  grind [State.modCore_inv, State.setOwner_inv]

theorem State.engTake_inv {s : State} (hs : s.Inv) (a ws) : (s.engTake a ws).Inv := by
  unfold State.engTake
  grind [State.dropLine_inv, State.writeBack_inv, State.modCore_inv]

theorem State.takeFlight_inv {s : State} (hs : s.Inv) (f) : (s.takeFlight f).Inv := by
  unfold State.takeFlight
  grind [State.acceptAt_inv, State.engTake_inv]

theorem State.acceptOne_inv {s : State} (hs : s.Inv) (i) : (s.acceptOne i).Inv := by
  unfold State.acceptOne
  grind [State.takeFlight_inv, State.inv_iff]

theorem State.landEng_inv {s : State} (hs : s.Inv) (core id all) : (s.landEng core id all).Inv := by
  unfold State.landEng
  grind [State.takeFlight_inv, State.inv_iff, inv_foldl, inv_foldl_fst]

theorem State.landAll_inv {s : State} (hs : s.Inv) : (s.landAll).Inv := by
  unfold State.landAll
  grind [State.takeFlight_inv, State.inv_iff, inv_foldl, inv_foldl_fst]

theorem State.clearBindings_inv {s : State} (hs : s.Inv) (d) : (s.clearBindings d).Inv := by
  unfold State.clearBindings
  grind [State.homeWrite_inv, inv_foldl, inv_foldl_fst]

theorem State.watchContexts_inv {s : State} (hs : s.Inv) : (s.watchContexts).Inv := by
  unfold State.watchContexts
  grind [State.clearBindings_inv, State.inv_iff, inv_foldl, inv_foldl_fst]

theorem State.walkLeaf_inv {s : State} (hs : s.Inv) (a va write level k e w x u) :
    (s.walkLeaf a va write level k e w x u).1.Inv := by
  unfold State.walkLeaf
  grind [State.homeWrite_inv]

theorem State.walkStep_inv {s : State} (hs : s.Inv) (a va write level table w x u) :
    (s.walkStep a va write level table w x u).1.Inv := by
  unfold State.walkStep
  grind [State.homeRead_inv, State.bill_inv, State.walkLeaf_inv]

theorem State.walkFrom_inv {s : State} (hs : s.Inv) (a va write l table w x u) :
    (State.walkFrom a va write l table w x u s).1.Inv := by
  fun_induction State.walkFrom <;> grind [State.walkStep_inv]

theorem State.walk_inv {s : State} (hs : s.Inv) (a va write) : (s.walk a va write).1.Inv := by
  unfold State.walk
  grind [State.walkFrom_inv]

theorem State.tlbPut_inv {s : State} (hs : s.Inv) (a va t) : (s.tlbPut a va t).Inv := hs.congr rfl rfl

theorem State.translate_inv {s : State} (hs : s.Inv) (a va write exec) : (s.translate a va write exec).1.Inv := by
  unfold State.translate
  grind [State.walk_inv, State.tally_inv, State.tlbPut_inv]

theorem State.benchRead_inv {s : State} (hs : s.Inv) (ctx va n) : (s.benchRead ctx va n).1.Inv := by
  unfold State.benchRead
  grind [State.walk_inv, State.homeRead_inv, inv_foldl, inv_foldl_fst]

theorem State.benchKeys_inv {s : State} (hs : s.Inv) (a va n) : (s.benchKeys a va n).1.Inv := by
  unfold State.benchKeys
  grind [State.walk_inv, inv_foldl, inv_foldl_fst]

theorem State.benchStore_inv {s : State} (hs : s.Inv) (a l l2 l3) : (s.benchStore a l l2 l3).Inv := by
  fun_induction State.benchStore <;> grind [State.homeWrite_inv]

theorem State.benchWrite_inv {s : State} (hs : s.Inv) (ctx va bs) : (s.benchWrite ctx va bs).1.Inv := by
  unfold State.benchWrite
  grind [State.benchKeys_inv, State.benchStore_inv]

theorem State.physRead_inv {s : State} (hs : s.Inv) (pa n) : (s.physRead pa n).1.Inv := by
  unfold State.physRead
  grind [State.homeRead_inv, inv_foldl, inv_foldl_fst]

theorem State.physStore_inv {s : State} (hs : s.Inv) (a l l2) : (s.physStore a l l2).Inv := by
  fun_induction State.physStore <;> grind [State.homeWrite_inv]

theorem State.physWrite_inv {s : State} (hs : s.Inv) (pa bs) : (s.physWrite pa bs).Inv := State.physStore_inv hs ..

theorem State.msix_inv {s : State} (hs : s.Inv) (func vec) : (s.msix func vec).Inv := by
  unfold State.msix
  grind [State.say_inv, State.inv_iff]

theorem State.keepHouse_inv {s : State} (hs : s.Inv) (t) : (s.keepHouse t).Inv := by
  unfold State.keepHouse
  grind [State.inv_iff]

theorem State.benchWrites_inv {s : State} (hs : s.Inv) (ctx l) : (s.benchWrites ctx l).1.Inv := by
  fun_induction State.benchWrites <;> grind [State.benchWrite_inv]

theorem State.ringPut_inv {s : State} (hs : s.Inv) (ctx va recs) : (s.ringPut ctx va recs).1.Inv := by
  have h := State.benchRead_inv hs ctx va 64
  simp only [State.ringPut]
  split
  · exact h
  · split <;> exact State.benchWrites_inv h ..

theorem State.log_inv {s : State} (hs : s.Inv) (r) : (s.log r).Inv := by
  have h := State.physRead_inv hs (s.sysreg 0x16 0).toNat 64
  simp only [State.log]
  split
  · exact hs
  · split
    · exact h
    · split
      · exact State.msix_inv (State.physWrite_inv (State.physWrite_inv h ..) ..) ..
      · exact State.physWrite_inv h ..

/-! ### The first level and the stash windows -/

theorem State.sweep_inv {s : State} (hs : s.Inv) (a sel inval) : (s.sweep a sel inval).Inv := by
  unfold State.sweep
  grind [State.writeOff_inv, State.dropLine_inv, State.modCore_inv, inv_foldl, inv_foldl_fst]

theorem State.releaseAct_inv {s : State} (hs : s.Inv) (a tags lns) : (s.releaseAct a tags lns).Inv := by
  unfold State.releaseAct
  grind [State.landCore_inv, State.sweep_inv]

theorem State.acquireAct_inv {s : State} (hs : s.Inv) (a tags) : (s.acquireAct a tags).Inv := State.sweep_inv hs ..

theorem State.syncOwn_inv {s : State} (hs : s.Inv) (a k n) : (s.syncOwn a k n).Inv := by
  unfold State.syncOwn
  grind [State.modCore_inv, State.writeBack_inv]

theorem State.l1Room_inv {s : State} (hs : s.Inv) (a lva) : (s.l1Room a lva).Inv := by
  unfold State.l1Room
  grind [State.dropLine_inv, State.writeOff_inv]

theorem State.checkPart_inv {s : State} (hs : s.Inv) (a va n write hitOk) : (s.checkPart a va n write hitOk).1.Inv :=
  by
  unfold State.checkPart
  grind [State.translate_inv]

theorem State.checkSpan_inv {s : State} (hs : s.Inv) (a va n write hitOk) : (s.checkSpan a va n write hitOk).1.Inv :=
  by
  unfold State.checkSpan
  grind [State.checkPart_inv, inv_foldl, inv_foldl_fst]

theorem Checked.init_inv {α : Type} {s : State} (hs : s.Inv) : (Checked.init s : Checked α).st.Inv := hs

theorem Checked.add_inv {α : Type} {r : State × Except AccFail α} (hr : r.1.Inv) (c : Checked α) (t) :
    (c.add t r).st.Inv := by
  unfold Checked.add
  grind

theorem checked_foldl_inv {α β : Type} {c : Checked α} (hc : c.st.Inv) {l : List β} {f : Checked α → β → Checked α}
    (hf : ∀ c e, c.st.Inv → (f c e).st.Inv) : (l.foldl f c).st.Inv := by
  induction l generalizing c with
  | nil => exact hc
  | cons e l ih => exact ih (hf _ _ hc)

theorem State.checkAll_inv {s : State} (hs : s.Inv) (a addrs n write hitOk) :
    (s.checkAll a addrs n write hitOk).st.Inv := by
  unfold State.checkAll
  grind [checked_foldl_inv, Checked.add_inv, State.checkSpan_inv, Checked.init_inv]

theorem State.takeCopy_inv {s : State} (hs : s.Inv) (a ln) : (s.takeCopy a ln).1.Inv := by
  unfold State.takeCopy
  grind [State.modCore_inv]

theorem State.l1Alloc_inv {s : State} (hs : s.Inv) (a p hint) : (s.l1Alloc a p hint).1.Inv := by
  unfold State.l1Alloc
  grind [State.takeCopy_inv, State.holdHost_inv, State.l1Room_inv, State.modCore_inv]

theorem State.fillSectors_inv {s : State} (hs : s.Inv) (a at_ l qs) : (s.fillSectors a at_ l qs).1.Inv := by
  unfold State.fillSectors
  grind [State.homeRead_inv, State.bill_inv, inv_foldl, inv_foldl_fst]

theorem State.l1Fill_inv {s : State} (hs : s.Inv) (a at_ l off n) : (s.l1Fill a at_ l off n).1.Inv :=
  State.fillSectors_inv hs ..

theorem State.readHome_inv {s : State} (hs : s.Inv) (a p) : (s.readHome a p).1.Inv := by
  unfold State.readHome
  grind [State.homeRead_inv, State.syncOwn_inv]

theorem State.readMiss_inv {s : State} (hs : s.Inv) (a p) : (s.readMiss a p).1.Inv := by
  unfold State.readMiss
  grind [State.readHome_inv, State.tally_inv]

theorem State.readLine_inv {s : State} (hs : s.Inv) (a p l missed) : (s.readLine a p l missed).1.Inv := by
  unfold State.readLine
  grind [State.l1Fill_inv, State.bill_inv, State.modCore_inv, State.tally_inv]

theorem State.readPlain_inv {s : State} (hs : s.Inv) (a hint p) : (s.readPlain a hint p).1.Inv := by
  unfold State.readPlain
  grind [State.readLine_inv, State.readMiss_inv, State.l1Alloc_inv]

theorem State.readCoherent_inv {s : State} (hs : s.Inv) (a p) : (s.readCoherent a p).1.Inv := by
  unfold State.readCoherent
  grind [State.readLine_inv, State.readMiss_inv]

theorem State.ownCopy_inv {s : State} (hs : s.Inv) (a key bs) : (s.ownCopy a key bs).Inv := by
  unfold State.ownCopy
  grind [State.modCore_inv, State.scrWrite_inv]

theorem State.giveBackOwn_inv {s : State} (hs : s.Inv) (a ln) : (s.giveBackOwn a ln).Inv := by
  unfold State.giveBackOwn
  grind [State.recall_inv]

theorem State.writeNa_inv {s : State} (hs : s.Inv) (a p bs) : (s.writeNa a p bs).Inv := by
  unfold State.writeNa
  grind [State.ownCopy_inv, State.sendOff_inv, State.giveBackOwn_inv, State.landOwn_inv, State.syncOwn_inv]

theorem State.linePut_inv {s : State} (hs : s.Inv) (a l off bs) : (s.linePut a l off bs).Inv := by
  unfold State.linePut
  grind [State.modCore_inv, State.noted_inv]

theorem State.writePlain_inv {s : State} (hs : s.Inv) (a hint p bs) : (s.writePlain a hint p bs).1.Inv := by
  unfold State.writePlain
  grind [State.bill_inv, State.tally_inv, State.linePut_inv, State.writeNa_inv, State.l1Alloc_inv]

theorem State.writeHome_inv {s : State} (hs : s.Inv) (a p bs) : (s.writeHome a p bs).Inv := by
  unfold State.writeHome
  grind [State.ownCopy_inv, State.homeWrite_inv]

theorem State.writeMiss_inv {s : State} (hs : s.Inv) (a p bs) : (s.writeMiss a p bs).Inv := by
  unfold State.writeMiss
  grind [State.writeHome_inv, State.tally_inv]

theorem State.takeExcl_inv {s : State} (hs : s.Inv) (a p) : (s.takeExcl a p).1.Inv := by
  unfold State.takeExcl
  grind [State.l1Alloc_inv, State.fillSectors_inv, State.writeBack_inv, State.tally_inv, State.setOwner_inv,
    State.modCore_inv]

theorem State.soilWin_inv {s : State} (hs : s.Inv) (a w off n) : (s.soilWin a w off n).Inv := by
  unfold State.soilWin
  grind [State.translate_inv, State.modCore_inv]

theorem State.scrPut_inv {s : State} (hs : s.Inv) (a w off bs) : (s.scrPut a w off bs).Inv := by
  unfold State.scrPut
  grind [State.soilWin_inv, State.scrWrite_inv, inv_foldl, inv_foldl_fst]

theorem State.checkScr_inv {s : State} (hs : s.Inv) (a wg off n write) : (s.checkScr a wg off n write).1.Inv := by
  unfold State.checkScr
  grind [State.checkPart_inv]

theorem State.checkScrSpan_inv {s : State} (hs : s.Inv) (a wg off n write) :
    (s.checkScrSpan a wg off n write).1.Inv := by
  unfold State.checkScrSpan
  grind [State.checkScr_inv, inv_foldl, inv_foldl_fst]

theorem State.touchWin_inv {s : State} (hs : s.Inv) (a wi i p) : (s.touchWin a wi i p).1.Inv := by
  unfold State.touchWin
  grind [State.modCore_inv, State.recall_inv, State.takeCopy_inv, State.holdHost_inv, State.l1Fill_inv,
    State.modWg_inv, State.scrWrite_inv, State.bill_inv, inv_foldl, inv_foldl_fst]

theorem State.touchPart_inv {s : State} (hs : s.Inv) (a p) : (s.touchPart a p).1.Inv := by
  unfold State.touchPart
  grind [State.touchWin_inv]

theorem State.scrBill_inv {s : State} (hs : s.Inv) (a p) : (s.scrBill a p).Inv := State.bill_inv hs ..

theorem State.readScr_inv {s : State} (hs : s.Inv) (a wg p) : (s.readScr a wg p).1.Inv := by
  unfold State.readScr
  grind [State.touchPart_inv, State.scrBill_inv]

theorem State.writeScr_inv {s : State} (hs : s.Inv) (a wg p bs) : (s.writeScr a wg p bs).1.Inv := by
  unfold State.writeScr
  grind [State.touchPart_inv, State.scrWrite_inv, State.scrBill_inv, State.modCore_inv]

/-! ### What memory instructions share -/

theorem State.profile_inv {s : State} (hs : s.Inv) (owner num recs) : (s.profile owner num recs).Inv := by
  unfold State.profile
  grind [State.ringPut_inv, State.log_inv, State.setSysreg_inv]

theorem State.trace_inv {s : State} (hs : s.Inv) (x op code scr l) : (s.trace x op code scr l).Inv := by
  unfold State.trace
  grind [State.profile_inv]

theorem Cx.countLoad_inv {s : State} (hs : s.Inv) (x load) : (Cx.countLoad x s load).Inv := by
  unfold Cx.countLoad
  grind [State.modCore_inv]

theorem State.sampleLoad_inv {s : State} (hs : s.Inv) (x tlbMiss poison va level) :
    (s.sampleLoad x tlbMiss poison va level).Inv := by
  unfold State.sampleLoad
  grind [State.modCore_inv]

theorem Cx.park_inv {s : State} (hs : s.Inv) (x mask f write dst) : (Cx.park x s mask f write dst).Inv := by
  unfold Cx.park
  grind [State.modCrew_inv, State.issueCost_inv]

theorem State.keepCosts_inv {s : State} (hs : s.Inv) (t core w) : (s.keepCosts t core w).Inv := by
  unfold State.keepCosts
  grind [State.modWg_inv, State.modCore_inv, State.inv_iff]

theorem retireMem_inv {s : State} (hs : s.Inv) (x dst ws fps) : (retireMem x s dst ws fps).Inv := by
  unfold retireMem
  grind [State.modCrew_inv, retireVar_inv]

theorem Cx.memEnd_inv {α : Type} (x) (o) {c : Checked α} (hc : c.st.Inv) (addrs) {r : MemRes} (hr : r.st.Inv) :
    (Cx.memEnd x o c addrs r).Inv := by
  unfold Cx.memEnd
  grind [State.keepCosts_inv, Cx.fpTrap_inv, Cx.raise_inv, State.trace_inv, retireMem_inv, State.modCrew_inv,
    retireNone_inv, Cx.park_inv]

theorem Cx.memRun_inv {α : Type} (x) (o) {c : Checked α} (hc : c.st.Inv) (addrs) {perform :
    State → List (Nat × α) → MemRes}
    (hp : ∀ s l, s.Inv → (perform s l).st.Inv) : (Cx.memRun x o c addrs perform).Inv := by
  unfold Cx.memRun
  grind [Cx.raise_inv, Cx.park_inv, Cx.memEnd_inv]

theorem Cx.global_inv {s : State} (hs : s.Inv) (x o ok strict n m hitOk) {perform :
    Acc → State → List (Nat × List Part) → MemRes}
    (hp : ∀ a s l, s.Inv → (perform a s l).st.Inv) : (Cx.global x s o ok strict n m hitOk perform).Inv := by
  have hl := Cx.countLoad_inv hs x o.load
  simp only [Cx.global]
  split
  · exact Cx.badOperand_inv hs ..
  · split
    · exact retireIdle_inv hs ..
    · split
      · exact Cx.raise_inv hl ..
      · exact Cx.memRun_inv _ _ (State.checkAll_inv hl ..) _ (hp _)

theorem Cx.scratch_inv {s : State} (hs : s.Inv) (x o ok strict n m) {perform :
    Acc → State → List (Nat × List SPart) → MemRes}
    (hp : ∀ a s l, s.Inv → (perform a s l).st.Inv) : (Cx.scratch x s o ok strict n m perform).Inv := by
  have hl := Cx.countLoad_inv hs x o.load
  simp only [Cx.scratch]
  split
  · exact Cx.badOperand_inv hs ..
  · split
    · exact retireIdle_inv hs ..
    · split
      · exact Cx.raise_inv hl ..
      · split
        · exact Cx.raise_inv hl ..
        · refine Cx.memRun_inv _ _ (checked_foldl_inv (Checked.init_inv hl) fun c e hc => ?_) _ (hp _)
          exact Checked.add_inv (State.checkScrSpan_inv hc ..) _ _

theorem readParts_inv {π : Type} {rd : State → π → ReadRes} (hrd : ∀ s p, s.Inv → (rd s p).1.Inv)
    {s : State} (hs : s.Inv) (l) : (readParts rd l s).1.Inv := by
  fun_induction readParts <;> grind

theorem readAll_inv {π : Type} {rd : State → π → ReadRes} (hrd : ∀ s p, s.Inv → (rd s p).1.Inv)
    {s : State} (hs : s.Inv) (out l) : (readAll rd out l s).st.Inv := by
  fun_induction readAll <;> grind [readParts_inv]

theorem writeParts_inv {π : Type} {wr : State → π → List Byte → State × Bool}
    (hwr : ∀ s p bs, s.Inv → (wr s p bs).1.Inv) {s : State} (hs : s.Inv) (len l bs) : (writeParts len wr l bs
      s).1.Inv := by
  fun_induction writeParts <;> grind

theorem writeAll_inv {π : Type} {wr : State → π → List Byte → State × Bool}
    (hwr : ∀ s p bs, s.Inv → (wr s p bs).1.Inv) {s : State} (hs : s.Inv) (len va data l) : (writeAll len va wr data l
      s).st.Inv := by
  fun_induction writeAll <;> grind [writeParts_inv]

theorem MemRes.withLate_inv {r : MemRes} (hr : r.st.Inv) (x d form rows) : (r.withLate x d form rows).st.Inv := by
  unfold MemRes.withLate
  grind [State.modCrew_inv]

theorem State.lateRead_inv {s : State} (hs : s.Inv) (key id row piece) : (s.lateRead key id row piece).Inv := by
  unfold State.lateRead
  grind [State.recall_inv, State.landOwn_inv, State.modCrew_inv, inv_foldl, inv_foldl_fst]

theorem withOrder_inv {s : State} (hs : s.Inv) (ord a l) {f : State → MemRes} (hf : ∀ s, s.Inv → (f s).st.Inv) :
    (withOrder ord a l s f).st.Inv := by
  unfold withOrder
  grind [State.landCore_inv, State.releaseAct_inv, State.acquireAct_inv]

/-! ### Loads and stores -/

theorem Cx.sampled_inv {s : State} (hs : s.Inv) (x before a l) {f : State → MemRes} (hf : ∀ s, s.Inv → (f s).st.Inv) :
    (Cx.sampled x before a l s f).st.Inv := by
  unfold Cx.sampled
  grind [State.sampleLoad_inv]

theorem MemRes.fixes_inv {r : MemRes} (hr : r.st.Inv) (x rs) : (r.fixes x rs).st.Inv := by
  unfold MemRes.fixes
  grind [State.modCrew_inv]

theorem loadGlobal_inv {s : State} (hs : s.Inv) (h op sz sx ord d m hitOk home) {rd : Acc → State → Part → ReadRes}
    (hrd : ∀ a s p, s.Inv → (rd a s p).1.Inv) : OutInv (loadGlobal h op sz sx ord d m hitOk home rd s) := by
  unfold loadGlobal
  grind [withCx_inv, Cx.global_inv, withOrder_inv, Cx.sampled_inv, readAll_inv, MemRes.withLate_inv, outInv_next]

theorem execLd_inv {s : State} (hs : s.Inv) (h sz sx ord hint d m) : OutInv (execLd h sz sx ord hint d m s) := by
  unfold execLd
  grind [loadGlobal_inv, State.readMiss_inv, State.readPlain_inv]

theorem execLdc_inv {s : State} (hs : s.Inv) (h sz sx d m) : OutInv (execLdc h sz sx d m s) := by
  unfold execLdc
  grind [loadGlobal_inv, State.readCoherent_inv]

theorem execSt_inv {s : State} (hs : s.Inv) (h sz ord hint d m) : OutInv (execSt h sz ord hint d m s) := by
  unfold execSt
  grind [withCx_inv, Cx.global_inv, withOrder_inv, writeAll_inv, State.writeMiss_inv, State.writePlain_inv,
    outInv_next]

theorem execLds_inv {s : State} (hs : s.Inv) (h sz sx d m) : OutInv (execLds h sz sx d m s) := by
  unfold execLds
  grind [withCx_inv, Cx.scratch_inv, MemRes.fixes_inv, readAll_inv, State.readScr_inv, outInv_next]

theorem execSts_inv {s : State} (hs : s.Inv) (h sz d m) : OutInv (execSts h sz d m s) := by
  unfold execSts
  grind [withCx_inv, Cx.scratch_inv, writeAll_inv, State.writeScr_inv, outInv_next]

theorem State.checkElemBytes_inv {s : State} (hs : s.Inv) (x va n) : (s.checkElemBytes x va n).1.Inv := by
  unfold State.checkElemBytes
  grind [State.checkSpan_inv]

theorem State.checkElem_inv {s : State} (hs : s.Inv) (x base w md i) : (s.checkElem x base w md i).1.Inv := by
  unfold State.checkElem
  grind [State.checkElemBytes_inv, State.checkPart_inv]

theorem State.checkLdt_inv {s : State} (hs : s.Inv) (x m md k t) : (s.checkLdt x m md k t).1.Inv := by
  unfold State.checkLdt
  grind [State.checkPart_inv, State.checkElem_inv, inv_foldl, inv_foldl_fst]

theorem readThreads_inv {rd : State → Part → ReadRes} (hrd : ∀ s p, s.Inv → (rd s p).1.Inv)
    {s : State} (hs : s.Inv) (home l) :
    (readThreads rd home l s).1.Inv := by
  fun_induction readThreads <;> grind [readParts_inv]

theorem readLdt_inv {s : State} (hs : s.Inv) (a hint form d home l) : (readLdt a hint form d home l s).1.st.Inv := by
  unfold readLdt
  grind [readThreads_inv, State.readPlain_inv]

theorem trapFps_inv {r : MemRes} (hr : r.st.Inv) (k) : (trapFps k r).st.Inv := by
  unfold trapFps
  grind

theorem execLdt_inv {s : State} (hs : s.Inv) (h k md hint d m) : OutInv (execLdt h k md hint d m s) := by
  unfold execLdt
  refine withCx_inv hs fun x s hs => (outInv_next _).mpr ?_
  have hl := Cx.countLoad_inv hs x true
  dsimp only
  apply iteInduction <;> intro _
  · exact Cx.badOperand_inv hs ..
  apply iteInduction <;> intro _
  · exact retireIdle_inv hs ..
  · refine Cx.memRun_inv _ _ (checked_foldl_inv (Checked.init_inv hl) fun c e hc => ?_) _ fun t l ht => ?_
    · exact Checked.add_inv (State.checkLdt_inv hc ..) _ _
    · exact MemRes.withLate_inv (Cx.sampled_inv ht _ _ _ _ fun _ _ => trapFps_inv (readLdt_inv ht ..) _) ..

/-! ### Atomics -/

theorem State.updateGlobal_inv {s : State} (hs : s.Inv) (a p f) : (s.updateGlobal a p f).1.Inv := by
  unfold State.updateGlobal
  grind [State.homeRead_inv, State.syncOwn_inv, State.tally_inv, State.writeHome_inv, State.takeExcl_inv,
    State.bill_inv, State.linePut_inv]

theorem State.logRed_inv {s : State} (hs : s.Inv) (a p) : (s.logRed a p).Inv := State.log_inv hs ..

theorem updateAll_inv {s : State} (hs : s.Inv) (a red f out l) : (updateAll a red f out l s).st.Inv := by
  fun_induction updateAll <;> grind [State.updateGlobal_inv, State.logRed_inv]

theorem atomicGlobal_inv {s : State} (hs : s.Inv) (h op sz ord ok m red dst f out) :
    OutInv (atomicGlobal h op sz ord ok m red dst f out s) := by
  unfold atomicGlobal
  grind [withCx_inv, Cx.global_inv, withOrder_inv, updateAll_inv, Cx.sampled_inv, outInv_next]

theorem execAtom_inv {s : State} (hs : s.Inv) (h op sz ord d m) : OutInv (execAtom h op sz ord d m s) :=
  atomicGlobal_inv hs ..

theorem execRed_inv {s : State} (hs : s.Inv) (h op sz ord d m) : OutInv (execRed h op sz ord d m s) :=
  atomicGlobal_inv hs ..

theorem execAtomcas_inv {s : State} (hs : s.Inv) (h sz ord d m) : OutInv (execAtomcas h sz ord d m s) :=
  atomicGlobal_inv hs ..

theorem updateScr_inv {s : State} (hs : s.Inv) (a wg f out l) : (updateScr a wg f out l s).st.Inv := by
  fun_induction updateScr <;> grind [State.readScr_inv, State.writeScr_inv]

theorem Cx.sampledScr_inv {r : MemRes} (hr : r.st.Inv) (x before a l) : (Cx.sampledScr x before a l r).st.Inv := by
  unfold Cx.sampledScr
  grind [State.sampleLoad_inv]

theorem atomicScr_inv {s : State} (hs : s.Inv) (h op sz ok m dst f out) :
    OutInv (atomicScr h op sz ok m dst f out s) := by
  unfold atomicScr
  grind [withCx_inv, Cx.scratch_inv, Cx.sampledScr_inv, updateScr_inv, outInv_next]

theorem execAtoms_inv {s : State} (hs : s.Inv) (h op sz d m) : OutInv (execAtoms h op sz d m s) := atomicScr_inv hs ..

theorem execAtomcass_inv {s : State} (hs : s.Inv) (h sz d m) : OutInv (execAtomcass h sz d m s) := atomicScr_inv hs ..

/-! ### Fences, cache maintenance and bindings -/

theorem State.icFill_inv {s : State} (hs : s.Inv) (a va k at_ drop) : (s.icFill a va k at_ drop).1.Inv := by
  unfold State.icFill
  grind [State.homeRead_inv, State.modCore_inv]

theorem execFence_inv {s : State} (hs : s.Inv) (h kind sc) : OutInv (execFence h kind sc s) := by
  unfold execFence
  grind [withCx_inv, retireIdle_inv, State.holdFor_inv, retireLater_inv, State.sweep_inv, State.landCore_inv,
    outInv_next]

theorem State.putBinding_inv {s : State} (hs : s.Inv) (a i v) : (s.putBinding a i v).Inv := by
  unfold State.putBinding
  grind [State.homeWrite_inv]

theorem execBind_inv {s : State} (hs : s.Inv) (h k img) : OutInv (execBind h k img s) := by
  unfold execBind
  grind [withCx_inv, Cx.badOperand_inv, retireIdle_inv, Cx.badValue_inv, State.checkSpan_inv, Cx.park_inv,
    Cx.raise_inv, readParts_inv, State.readHome_inv, retireNone_inv, State.putBinding_inv, outInv_next]

theorem execUnbind_inv {s : State} (hs : s.Inv) (h k) : OutInv (execUnbind h k s) := by
  unfold execUnbind
  grind [withCx_inv, Cx.badOperand_inv, retireIdle_inv, Cx.badValue_inv, retireNone_inv, State.putBinding_inv,
    outInv_next]

theorem State.flushLine_inv {s : State} (hs : s.Inv) (a lva keep) : (s.flushLine a lva keep).Inv := by
  unfold State.flushLine
  grind [State.dropLine_inv, State.writeOff_inv, State.modCore_inv, inv_foldl, inv_foldl_fst]

theorem State.flushL2_inv {s : State} (hs : s.Inv) (a va) : (s.flushL2 a va).Inv := by
  have ht := State.translate_inv hs a va false false
  simp only [State.flushL2]
  split
  next u t e =>
    rw [e] at ht
    split
    · exact ht
    next k _ =>
      have hr := State.recall_inv (State.landOwn_inv ht a (k / 128)) a (k / 128)
      split
      · split
        · exact hr
        · split
          · exact (State.bill_inv hr _ _ _ _).congr rfl rfl
          · exact hr.congr rfl rfl
      · exact ht
  next u _ _ e => rw [e] at ht; exact ht

theorem lineOp_inv {s : State} (hs : s.Inv) (h m) {f : Cx → State → Nat → State} (hf : ∀ x s n, s.Inv → (f x s n).Inv)
    {retire : Cx → State → State} (hr : ∀ x s, s.Inv → (retire x s).Inv) : OutInv (lineOp h m f s retire) := by
  unfold lineOp
  grind [withCx_inv, Cx.badOperand_inv, retireIdle_inv, inv_foldl, outInv_next]

theorem execCflush_inv {s : State} (hs : s.Inv) (h l2 m) : OutInv (execCflush h l2 m s) := by
  unfold execCflush
  grind [lineOp_inv, State.flushLine_inv, State.flushL2_inv, retireLater_inv]

theorem execCinv_inv {s : State} (hs : s.Inv) (h l2 m) : OutInv (execCinv h l2 m s) := by
  unfold execCinv
  grind [lineOp_inv, State.flushLine_inv, State.flushL2_inv, retireLater_inv]

theorem State.hintL2_inv {s : State} (hs : s.Inv) (k f) : (s.hintL2 k f).Inv := by
  unfold State.hintL2
  grind [State.inv_iff]

theorem State.prefetch_inv {s : State} (hs : s.Inv) (a l2 hint va) : (s.prefetch a l2 hint va).Inv := by
  unfold State.prefetch
  grind [State.translate_inv, State.hintL2_inv, State.homeRead_inv, State.checkPart_inv, State.readPlain_inv]

theorem execPrf_inv {s : State} (hs : s.Inv) (h l2 hint m) : OutInv (execPrf h l2 hint m s) := by
  unfold execPrf
  grind [lineOp_inv, State.prefetch_inv, retireNone_inv]

theorem execHint_inv {s : State} (hs : s.Inv) (h md lv m) : OutInv (execHint h md lv m s) := by
  unfold execHint
  grind [lineOp_inv, State.modCore_inv, State.translate_inv, State.hintL2_inv, retireNone_inv]

theorem State.ipfLine_inv {s : State} (hs : s.Inv) (a va) : (s.ipfLine a va).Inv := by
  unfold State.ipfLine
  grind [State.translate_inv, State.icFill_inv]

theorem execIpf_inv {s : State} (hs : s.Inv) (h n m) : OutInv (execIpf h n m s) := by
  unfold execIpf
  grind [lineOp_inv, State.ipfLine_inv, retireNone_inv, inv_foldl, inv_foldl_fst]

theorem execIsync_inv {s : State} (hs : s.Inv) (h) : OutInv (execIsync h s) := by
  unfold execIsync
  grind [withCx_inv, retireIdle_inv, State.modCrew_inv, retireNone_inv, State.modCore_inv, outInv_next]

theorem execStashmap_inv {s : State} (hs : s.Inv) (h d sg sp) : OutInv (execStashmap h d sg sp s) := by
  unfold execStashmap
  grind [withCx_inv, Cx.badOperand_inv, retireIdle_inv, Cx.badValue_inv, retireVar_inv, State.modCore_inv,
    outInv_next]

theorem State.flushWindow_inv {s : State} (hs : s.Inv) (a wi) : (s.flushWindow a wi).Inv := by
  unfold State.flushWindow
  grind [State.modCore_inv, State.writeOff_inv, inv_foldl, inv_foldl_fst]

theorem State.unmapWindow_inv {s : State} (hs : s.Inv) (c wi) : (s.unmapWindow c wi).Inv := by
  unfold State.unmapWindow
  grind [State.modCore_inv, State.modWg_inv]

theorem stashOp_inv {s : State} (hs : s.Inv) (h sh) {f : Cx → State → Nat → State}
    (hf : ∀ x s n, s.Inv → (f x s n).Inv) : OutInv (stashOp h sh f s) := by
  unfold stashOp
  grind [withCx_inv, Cx.badOperand_inv, retireIdle_inv, retireLater_inv, Cx.badValue_inv, outInv_next]

theorem execStashwb_inv {s : State} (hs : s.Inv) (h sh) : OutInv (execStashwb h sh s) := by
  unfold execStashwb
  grind [stashOp_inv, State.flushWindow_inv]

theorem execStashdrop_inv {s : State} (hs : s.Inv) (h nowb sh) : OutInv (execStashdrop h nowb sh s) := by
  unfold execStashdrop
  grind [stashOp_inv, State.unmapWindow_inv, State.flushWindow_inv]

/-! ### The fetch path and the sequencer's walk -/

theorem State.fetchBy_inv {s : State} (hs : s.Inv) (count a va n) : (State.fetchBy count s a va n).1.Inv := by
  unfold State.fetchBy
  grind [State.modCore_inv, State.translate_inv, State.icFill_inv, State.tally_inv]

theorem State.fetchLine_inv {s : State} (hs : s.Inv) (a va n) : (s.fetchLine a va n).1.Inv := State.fetchBy_inv hs ..

theorem State.readNow_inv {s : State} (hs : s.Inv) (a va n) : (s.readNow a va n).1.Inv := by
  unfold State.readNow
  grind [State.translate_inv, State.readHome_inv]

theorem State.readVia_inv {s : State} (hs : s.Inv) (w a va n) : (State.readVia w s a va n).1.Inv := by
  unfold State.readVia
  grind [State.fetchBy_inv, State.readNow_inv]

theorem fetchBytes_inv (w a va n) : Keeps State.Inv (fetchBytes w a va n) := by
  refine ⟨fun s hs => ?_⟩
  unfold fetchBytes
  grind [State.readVia_inv, inv_foldl_fst]

theorem fetchNat_inv (w a va n) : Keeps State.Inv (fetchNat w a va n) := by
  unfold fetchNat
  grind [fetchBytes_inv, keeps_bind, keeps_pure]

theorem readHead_inv (a hb) : Keeps State.Inv (readHead a hb) := by
  unfold readHead
  grind [fetchNat_inv, keeps_bind, keeps_pure]

theorem regionVia_inv (w a dir r) : Keeps State.Inv (regionVia w a dir r) := by
  unfold regionVia
  grind [fetchNat_inv, keeps_bind, keeps_pure]

theorem readRegion_inv (a dir r) : Keeps State.Inv (readRegion a dir r) := by
  unfold readRegion
  grind [regionVia_inv]

theorem readSlot_inv (a r x) : Keeps State.Inv (readSlot a r x) := by
  unfold readSlot
  grind [fetchNat_inv, keeps_bind, keeps_pure]

theorem State.cachePut_inv {s : State} (hs : s.Inv) (core q dir r m f) : (s.cachePut core q dir r m f).Inv :=
  State.modCore_inv hs ..

theorem cached_inv (core q dir ri m) : Keeps State.Inv (cached core q dir ri m) := by
  unfold cached
  grind [State.cachePut_inv, keeps_bind, keeps_pure, keeps_get_bind, keeps_set]

theorem probe_inv (a r m h n i) : Keeps State.Inv (probe a r m h n i) := by
  fun_induction probe <;> grind [readSlot_inv, keeps_bind, keeps_pure]

theorem findSlot_inv (a r m) : Keeps State.Inv (findSlot a r m) := by
  unfold findSlot
  grind [readSlot_inv, probe_inv, keeps_bind, keeps_pure]

theorem findState_inv (a q dir ri m) : Keeps State.Inv (findState a q dir ri m) := by
  unfold findState
  refine keeps_bind (cached_inv ..) fun o => ?_
  split
  · exact keeps_pure _
  · refine keeps_bind (readRegion_inv ..) fun r => keeps_bind (findSlot_inv ..) fun d => ?_
    split
    · exact keeps_bind (keeps_modify fun s hs => State.cachePut_inv hs ..) fun _ => keeps_pure _
    · exact keeps_pure _

theorem allStates_inv (a r n i) : Keeps State.Inv (allStates a r n i) := by
  fun_induction allStates <;> grind [readSlot_inv, keeps_bind, keeps_pure]

theorem enterSlot_inv (a q dir ri r d) : Keeps State.Inv (enterSlot a q dir ri r d) := by
  unfold enterSlot
  grind [cached_inv, State.cachePut_inv, keeps_bind, keeps_pure, keeps_modify]

theorem singleton_inv (a q dir ri b) : Keeps State.Inv (singleton a q dir ri b) := by
  unfold singleton
  grind [cached_inv, readRegion_inv, readSlot_inv, State.cachePut_inv, keeps_bind, keeps_pure, keeps_modify]

theorem vote_inv (a q k cr) : Keeps State.Inv (vote a q k cr) := by
  unfold vote
  dsimp only
  split
  · exact keeps_bind (singleton_inv ..) fun f => keeps_pure _
  · split
    · exact keeps_pure _
    · refine keeps_bind (findState_inv ..) fun lk => ?_
      split
      · exact keeps_pure _
      · split
        · exact keeps_pure _
        · refine keeps_bind (allStates_inv ..) fun ds => ?_
          split
          · exact keeps_bind (enterSlot_inv ..) fun e => keeps_pure _
          · exact keeps_bind (singleton_inv ..) fun e => keeps_pure _

/-! ### Control instructions -/

theorem Cx.readFault_inv {s : State} (hs : s.Inv) (x e dst) : (Cx.readFault x s e dst).Inv := by
  unfold Cx.readFault
  grind [Cx.park_inv, Cx.raise_inv]

theorem control_inv {s : State} (hs : s.Inv) (h ok dst) {body : Cx → Rd Ctl} (hb : ∀ x, Keeps State.Inv (body x)) :
    OutInv (control h ok dst body s) := by
  have hb x := (hb x).run
  unfold control
  grind [withCx_inv, Cx.illegal_inv, Cx.badOperand_inv, retireIdleCtl_inv, Cx.readFault_inv, Cx.badValue_inv,
    Cx.raise_inv, State.modCrew_inv, State.issueCost_inv, outInv_next]

theorem blockExit_inv {s : State} (hs : s.Inv) (h ok tgts tgt yld) : OutInv (blockExit h ok tgts tgt yld s) := by
  refine control_inv hs _ _ _ fun x => ?_
  split <;> exact keeps_pure _

theorem execBx_inv {s : State} (hs : s.Inv) (h tgt) : OutInv (execBx h tgt s) := blockExit_inv hs ..

theorem execYield_inv {s : State} (hs : s.Inv) (h tgt) : OutInv (execYield h tgt s) := blockExit_inv hs ..

theorem execBxi_inv {s : State} (hs : s.Inv) (h a) : OutInv (execBxi h a s) := blockExit_inv hs ..

theorem execBxc_inv {s : State} (hs : s.Inv) (h once tt tf pc) : OutInv (execBxc h once tt tf pc s) := by
  refine control_inv hs _ _ _ fun x => ?_
  split
  · exact keeps_pure _
  · dsimp only
    split <;> exact keeps_pure _

theorem execNop_inv {s : State} (hs : s.Inv) (h) : OutInv (execNop h s) := by
  unfold execNop
  grind [withCx_inv, retireIdle_inv, retireNone_inv, outInv_next]

theorem execExit_inv {s : State} (hs : s.Inv) (h) : OutInv (execExit h s) :=
  control_inv hs _ _ _ fun _ => keeps_pure _

theorem execExitn_inv {s : State} (hs : s.Inv) (h k a) : OutInv (execExitn h k a s) := by
  refine control_inv hs _ _ _ fun x => ?_
  split
  · exact keeps_pure _
  · refine keeps_bind (keeps_mapM (fun t => ?_) _) fun rs => ?_
    · dsimp only
      split
      · exact keeps_bind (regionVia_inv ..) fun _ => keeps_pure _
      · exact keeps_pure _
    · split <;> exact keeps_pure _

theorem linkOk_inv (w a dir nreg v) : Keeps State.Inv (linkOk w a dir nreg v) := by
  unfold linkOk
  grind [regionVia_inv, keeps_bind, keeps_pure]

theorem allOk_inv (w a dir nreg vs) : Keeps State.Inv (allOk w a dir nreg vs) := by
  unfold allOk
  grind [linkOk_inv, keeps_bind, keeps_pure, keeps_mapM]

theorem execCall_inv {s : State} (hs : s.Inv) (h link a rb) : OutInv (execCall h link a rb s) := by
  unfold execCall
  refine withCx_inv hs fun x s hs => (outInv_next _).mpr ?_
  have ha := keeps_bind (allOk_inv .now x.acc x.crew.dir.toNat x.crew.nreg (x.lanes.map (fun t => x.rd t a)))
    (fun ok => keeps_pure (P := State.Inv) (x.here.blockOk rb.toNat && ok)) |>.run s hs
  grind [Cx.illegal_inv, Cx.badOperand_inv, retireIdleCtl_inv, Cx.readFault_inv, Cx.badValue_inv, State.modCrew_inv,
    State.issueCost_inv]

theorem Cx.voteNow_inv {s : State} (hs : s.Inv) (x cr owed dst) : (Cx.voteNow x s cr owed dst).Inv := by
  have h := vote_inv x.acc x.seq x.kernel cr |>.run s hs
  unfold Cx.voteNow
  grind [Cx.readFault_inv, State.issueCost_inv, State.countCx_inv, raiseAt_inv, State.setCrew_inv]

theorem execNext_inv {s : State} (hs : s.Inv) (h) : OutInv (execNext h s) := by
  unfold execNext
  grind [withCx_inv, Cx.illegal_inv, Cx.voteNow_inv, outInv_next]

theorem entryOf_inv (a hd n i) : Keeps State.Inv (entryOf a hd n i) := by
  fun_induction entryOf <;> grind [readRegion_inv, keeps_bind, keeps_pure]

theorem checkHead_inv (a k hb) : Keeps State.Inv (checkHead a k hb) := by
  unfold checkHead
  grind [readHead_inv, entryOf_inv, keeps_bind, keeps_pure]

theorem Cx.voting_inv {s : State} (hs : s.Inv) (x dst) {body : Rd (Option (Crew → Crew))} (hb : Keeps State.Inv body)
    : (Cx.voting x s dst body).Inv := by
  have h := hb.run s hs
  unfold Cx.voting
  grind [Cx.badValue_inv, Cx.readFault_inv, Cx.voteNow_inv]

theorem execCalli_inv {s : State} (hs : s.Inv) (h link sa save rb) : OutInv (execCalli h link sa save rb s) := by
  unfold execCalli
  refine withCx_inv hs fun x s hs => (outInv_next _).mpr ?_
  split
  · exact Cx.illegal_inv hs ..
  · split
    · exact Cx.badOperand_inv hs ..
    · split
      · exact retireIdleCtl_inv hs ..
      · refine Cx.voting_inv hs _ _ (keeps_bind (checkHead_inv ..) fun c => ?_)
        split
        · exact keeps_pure _
        · split <;> exact keeps_pure _

theorem execRet_inv {s : State} (hs : s.Inv) (h a restore) : OutInv (execRet h a restore s) := by
  unfold execRet
  split
  · refine control_inv hs _ _ _ fun x => keeps_bind (allOk_inv ..) fun ok => ?_
    split <;> exact keeps_pure _
  · refine withCx_inv hs fun x s hs => (outInv_next _).mpr ?_
    split
    · exact Cx.illegal_inv hs ..
    · split
      · exact Cx.badOperand_inv hs ..
      · split
        · exact retireIdleCtl_inv hs ..
        · refine Cx.voting_inv hs _ _ (keeps_bind (checkHead_inv ..) fun c => ?_)
          split
          · exact keeps_pure _
          · refine keeps_bind (allOk_inv ..) fun ok => ?_
            split <;> exact keeps_pure _

theorem execRegroup_inv {s : State} (hs : s.Inv) (h a n) : OutInv (execRegroup h a n s) := by
  unfold execRegroup
  grind [withCx_inv, Cx.illegal_inv, Cx.badOperand_inv, State.modCrew_inv, State.issueCost_inv, outInv_next]

theorem State.regroupNow_inv {s : State} (hs : s.Inv) (c slots) : (s.regroupNow c slots).Inv := by
  unfold State.regroupNow
  grind [State.setCrew_inv, raiseAt_inv, inv_foldl, inv_foldl_fst]

theorem execRegroupExchange_inv {s : State} (hs : s.Inv) (core wg) : OutInv (execRegroupExchange core wg s) := by
  unfold execRegroupExchange
  grind [atWg_inv, State.regroupNow_inv]

/-! ### Barrier objects -/

theorem State.fenceRel_inv {s : State} (hs : s.Inv) (a sc) : (s.fenceRel a sc).Inv := by
  unfold State.fenceRel
  grind [State.landCore_inv, State.sweep_inv]

theorem State.fenceAcq_inv {s : State} (hs : s.Inv) (a sc) : (s.fenceAcq a sc).Inv := by
  unfold State.fenceAcq
  grind [State.sweep_inv]

theorem State.barScr_inv {s : State} (hs : s.Inv) (a w off f) : (s.barScr a w off f).Inv := by
  unfold State.barScr
  grind [State.bill_inv, State.scrPut_inv, State.tally_inv]

theorem State.barGlob_inv {s : State} (hs : s.Inv) (a p f) : (s.barGlob a p f).1.Inv := by
  unfold State.barGlob
  grind [State.updateGlobal_inv, State.tally_inv]

/-! ### Barrier instructions, waits and pauses -/

theorem execBinit_inv {s : State} (hs : s.Inv) (h o a b) : OutInv (execBinit h o a b s) := by
  unfold execBinit
  grind [withCx_inv, Cx.badOperand_inv, retireIdle_inv, Cx.raise_inv, Cx.badValue_inv, State.bill_inv,
    retireNone_inv, State.scrPut_inv, outInv_next]

theorem Cx.barUpdate_inv {s : State} (hs : s.Inv) (x bar rel f dst) {fin : State → Nat → State}
    (hf : ∀ s n, s.Inv → (fin s n).Inv) : (Cx.barUpdate x s bar rel f dst fin).Inv := by
  unfold Cx.barUpdate
  split
  · exact Cx.raise_inv hs ..
  · split
    · exact Cx.raise_inv hs ..
    · exact hf _ _ (State.barScr_inv (by grind [State.fenceRel_inv]) ..)
  · grind [Cx.raise_inv, State.fenceRel_inv, State.checkSpan_inv, Cx.park_inv, State.barGlob_inv, State.keepCosts_inv]

theorem execArrive_inv {s : State} (hs : s.Inv) (h d bar) : OutInv (execArrive h d bar s) := by
  unfold execArrive
  grind [withCx_inv, Cx.badOperand_inv, retireIdle_inv, Cx.barUpdate_inv, retireMem_inv, outInv_next]

theorem execBexpect_inv {s : State} (hs : s.Inv) (h bar b) : OutInv (execBexpect h bar b s) := by
  unfold execBexpect
  grind [withCx_inv, Cx.badOperand_inv, retireIdle_inv, Cx.barUpdate_inv, retireNone_inv, outInv_next]

theorem State.readWord_inv {s : State} (hs : s.Inv) (a va n) : (s.readWord a va n).1.Inv := by
  unfold State.readWord
  grind [State.checkSpan_inv, readParts_inv, State.readHome_inv]

theorem State.condHolds_inv {s : State} (hs : s.Inv) (a cr own y) : (s.condHolds a cr own y).1.Inv := by
  unfold State.condHolds
  grind [State.bill_inv, State.readWord_inv]

theorem State.waitTest_inv {s : State} (hs : s.Inv) (a cr own now sel l l2) :
    (s.waitTest a cr own now sel l l2).1.Inv := by
  fun_induction State.waitTest <;> grind [State.condHolds_inv]

theorem State.waitOrder_inv {s : State} (hs : s.Inv) (a c) : (State.waitOrder a s c).Inv := by
  unfold State.waitOrder
  grind [State.fenceAcq_inv, State.acquireAct_inv]

theorem State.waitFault_inv {s : State} (hs : s.Inv) (key w wg cause arg) : (s.waitFault key w wg cause arg).Inv := by
  unfold State.waitFault
  grind [raiseAt_inv, State.setCrew_inv]

theorem State.waitOn_inv {s : State} (hs : s.Inv) (key wg a w fail) : (s.waitOn key wg a w fail).Inv := by
  unfold State.waitOn
  grind [State.modCrew_inv, State.waitFault_inv, State.waitOrder_inv, inv_foldl, inv_foldl_fst]

theorem execWait_inv {s : State} (hs : s.Inv) (h k all qd d sl timeout) :
    OutInv (execWait h k all qd d sl timeout s) := by
  unfold execWait
  grind [withCx_inv, Cx.badOperand_inv, retireIdle_inv, Cx.badValue_inv, Cx.raise_inv, State.bill_inv,
    State.waitTest_inv, State.modCrew_inv, State.issueCost_inv, State.waitOn_inv, outInv_next]

theorem atWait_inv {s : State} (hs : s.Inv) (key) {f : Crew → Wg → WaitSt → State} (hf : ∀ cr wg w, (f cr wg w).Inv) :
    OutInv (atWait key s f) := by
  unfold atWait
  grind [atCrew_inv]

theorem State.waitAgain_inv {s : State} (hs : s.Inv) (key cr wg w sel) : (s.waitAgain key cr wg w sel).Inv := by
  unfold State.waitAgain
  grind [State.waitTest_inv, State.waitOn_inv, State.inv_iff]

theorem execWaitSatisfaction_inv {s : State} (hs : s.Inv) (key) : OutInv (execWaitSatisfaction key s) := by
  unfold execWaitSatisfaction
  grind [atWait_inv, State.waitAgain_inv]

theorem execWaitMemoryRead_inv {s : State} (hs : s.Inv) (key) : OutInv (execWaitMemoryRead key s) := by
  unfold execWaitMemoryRead
  grind [atWait_inv, State.waitAgain_inv]

theorem execWaitTimeout_inv {s : State} (hs : s.Inv) (key) : OutInv (execWaitTimeout key s) := by
  unfold execWaitTimeout
  grind [atWait_inv, State.waitAgain_inv, State.modCrew_inv]

theorem execPause_inv {s : State} (hs : s.Inv) (h n) : OutInv (execPause h n s) := by
  unfold execPause
  grind [withCx_inv, Cx.badOperand_inv, retireIdle_inv, State.modCrew_inv, retireNone_inv, outInv_next]

theorem execPauseExpiry_inv {s : State} (hs : s.Inv) (key) : OutInv (execPauseExpiry key s) := by
  unfold execPauseExpiry
  grind [atCrew_inv, State.modCrew_inv]

theorem State.undrain_inv {s : State} (hs : s.Inv) (key) : (s.undrain key).Inv := by
  unfold State.undrain
  grind [State.setCrew_inv]

theorem State.undrainAll_inv {s : State} (hs : s.Inv) : (s.undrainAll).Inv := by
  unfold State.undrainAll
  grind [State.undrain_inv, inv_foldl, inv_foldl_fst]

theorem execDrain_inv {s : State} (hs : s.Inv) (h mem eng flg) : OutInv (execDrain h mem eng flg s) := by
  unfold execDrain
  grind [withCx_inv, retireIdle_inv, State.undrain_inv, State.modCrew_inv, State.issueCost_inv, outInv_next]

theorem execGbar_inv {s : State} (hs : s.Inv) (h) : OutInv (execGbar h s) := by
  unfold execGbar
  grind [withCx_inv, Cx.illegal_inv, retireIdle_inv, Cx.raise_inv, State.modCrew_inv, State.issueCost_inv,
    State.fenceRel_inv, outInv_next]

theorem execGbarRelease_inv {s : State} (hs : s.Inv) (key) : OutInv (execGbarRelease key s) := by
  unfold execGbarRelease
  grind [atCrew_inv, State.modCrew_inv, State.fenceAcq_inv]

/-! ### Engine commands and their ends -/

theorem Cx.queue_inv {s : State} (hs : s.Inv) (x engine o st op) : (Cx.queue x s engine o st op).Inv := by
  unfold Cx.queue
  grind [State.modCrew_inv, State.modCore_inv, State.issueCost_inv]

theorem State.cmdDone_inv {s : State} (hs : s.Inv) (core c sat land) : (s.cmdDone core c sat land).Inv := by
  unfold State.cmdDone
  grind [State.modCore_inv, State.barScr_inv, State.undrain_inv, State.tally_inv, State.modCrew_inv]

theorem State.fail_inv {s : State} (hs : s.Inv) (key f) : (s.fail key f).Inv := by
  unfold State.fail
  grind [State.abortWg_inv, State.setCrew_inv]

theorem State.cmdFail_inv {s : State} (hs : s.Inv) (core c cause) : (s.cmdFail core c cause).Inv := by
  unfold State.cmdFail
  grind [State.fail_inv, State.modCore_inv]

theorem State.cmdPark_inv {s : State} (hs : s.Inv) (core c f write) : (s.cmdPark core c f write).Inv :=
  State.modCore_inv hs ..

theorem State.cmdStop_inv {s : State} (hs : s.Inv) (core c write y) : (s.cmdStop core c write y).Inv := by
  unfold State.cmdStop
  grind [State.cmdPark_inv, State.cmdFail_inv]

theorem State.deliver_inv {s : State} (hs : s.Inv) (key cr wg f rest) : (s.deliver key cr wg f rest).Inv := by
  unfold State.deliver
  grind [State.modCore_inv, State.setCrew_inv, raiseAt_inv]

theorem execEngineFailureDelivery_inv {s : State} (hs : s.Inv) (key) : OutInv (execEngineFailureDelivery key s) := by
  unfold execEngineFailureDelivery
  grind [atCrew_inv, State.deliver_inv]

theorem execRsv_inv {s : State} (hs : s.Inv) (h grainer qd grp d count) :
    OutInv (execRsv h grainer qd grp d count s) := by
  unfold execRsv
  grind [withCx_inv, Cx.badOperand_inv, retireIdle_inv, Cx.badValue_inv, retireVar_inv, State.modCore_inv,
    State.setCore_inv, outInv_next]

theorem execRls_inv {s : State} (hs : s.Inv) (h grp mask) : OutInv (execRls h grp mask s) := by
  unfold execRls
  grind [withCx_inv, Cx.badOperand_inv, retireIdle_inv, Cx.badValue_inv, retireNone_inv, State.modCore_inv,
    outInv_next]

theorem Cx.copyGo_inv {s0 s : State} (h0 : s0.Inv) (hs : s.Inv) (x o dir src dst rb nr sstr dstr bar) :
    (Cx.copyGo x s0 s o dir src dst rb nr sstr dstr bar).Inv := by
  unfold Cx.copyGo
  grind [Cx.raise_inv, State.tally_inv, retireNone_inv, Cx.queue_inv]

theorem execCopy_inv {s : State} (hs : s.Inv) (h o dir dst src len bar) :
    OutInv (execCopy h o dir dst src len bar s) := by
  unfold execCopy
  grind [withCx_inv, Cx.badOperand_inv, retireIdle_inv, Cx.copyGo_inv, outInv_next]

theorem execCopy2d_inv {s : State} (hs : s.Inv) (h o dir dst src shape bar) :
    OutInv (execCopy2d h o dir dst src shape bar s) := by
  unfold execCopy2d
  grind [withCx_inv, Cx.badOperand_inv, retireIdle_inv, Cx.badValue_inv, Cx.raise_inv, State.bill_inv, Cx.copyGo_inv,
    outInv_next]

theorem execCld_inv {s : State} (hs : s.Inv) (h o place src stride) : OutInv (execCld h o place src stride s) := by
  unfold execCld
  grind [withCx_inv, Cx.badOperand_inv, retireIdle_inv, Cx.badValue_inv, State.checkSpan_inv, Cx.queue_inv,
    State.modCore_inv, outInv_next]

theorem execMma_inv {s : State} (hs : s.Inv) (h o s4 acc sum out act ctl) :
    OutInv (execMma h o s4 acc sum out act ctl s) := by
  unfold execMma
  refine withCx_inv hs fun x s1 hs1 => (outInv_next _).mpr ?_
  dsimp only
  split
  · exact Cx.badOperand_inv hs1 ..
  · split
    · exact retireIdle_inv hs1 ..
    · split
      · exact Cx.badValue_inv hs1 ..
      · split
        · exact Cx.raise_inv hs1 ..
        · exact Cx.raise_inv hs1 ..
        · split
          · exact hs
          · exact Cx.queue_inv hs1 ..

theorem execGmv_inv {s : State} (hs : s.Inv) (h o desc) : OutInv (execGmv h o desc s) := by
  unfold execGmv
  refine withCx_inv hs fun x s1 hs1 => (outInv_next _).mpr ?_
  have hb := State.bill_inv hs1 x.acc.payer (.core x.key.core) 6 1
  dsimp only
  split
  · exact Cx.badOperand_inv hs1 ..
  · split
    · exact retireIdle_inv hs1 ..
    · split
      · exact Cx.badValue_inv hs1 ..
      · split
        · exact Cx.raise_inv hs1 ..
        · split
          · exact Cx.raise_inv hb ..
          · split
            · exact Cx.badValue_inv hb ..
            · split
              · split
                · exact hs
                · exact Cx.queue_inv hb ..
              · exact Cx.raise_inv hb ..

theorem execMfence_inv {s : State} (hs : s.Inv) (h d) : OutInv (execMfence h d s) := by
  unfold execMfence
  grind [withCx_inv, Cx.badOperand_inv, retireIdle_inv, State.modCrew_inv, retireVar_inv, outInv_next]

/-! ### Units of engine work -/

theorem State.engAcquire_inv {s : State} (hs : s.Inv) (a c) : (s.engAcquire a c).Inv := by
  unfold State.engAcquire
  grind [State.landCore_inv, State.fenceRel_inv]

theorem atUnit_inv {s : State} (hs : s.Inv) (core id) {f : State → Acc → Wg → Cmd → State}
    (hf : ∀ s a wg c, s.Inv → (f s a wg c).Inv) : OutInv (atUnit core id s f) := by
  unfold atUnit
  grind [State.engAcquire_inv, State.modCore_inv, outInv_next]

theorem State.setOp_inv {s : State} (hs : s.Inv) (core id op) : (s.setOp core id op).Inv := State.modCore_inv hs ..

theorem State.readEarly_inv {s : State} (hs : s.Inv) (core id off n) : OutInv (s.readEarly core id off n) := by
  unfold State.readEarly
  grind [atUnit_inv, State.modCore_inv, inv_foldl, inv_foldl_fst]

theorem State.streamPart_inv {s : State} (hs : s.Inv) (a h va n write) : (s.streamPart a h va n write).1.Inv := by
  unfold State.streamPart
  grind [State.translate_inv]

theorem State.streamSpan_inv {s : State} (hs : s.Inv) (a h va n write) : (s.streamSpan a h va n write).1.Inv := by
  unfold State.streamSpan
  grind [State.streamPart_inv, inv_foldl, inv_foldl_fst]

theorem State.inPages_inv {s : State} (hs : s.Inv) (core id rd wr) : (s.inPages core id rd wr).Inv :=
  State.modCore_inv hs ..

theorem State.engRead_inv {s : State} (hs : s.Inv) (a l) : (s.engRead a l).1.Inv := by
  fun_induction State.engRead <;> grind [State.serveRead_inv]

theorem State.engSend_inv {s : State} (hs : s.Inv) (a id bad l l2) : (s.engSend a id bad l l2).Inv := by
  fun_induction State.engSend <;> grind [State.sendOff_inv]

theorem State.engWrite_inv {s : State} (hs : s.Inv) (a bad l l2) : (s.engWrite a bad l l2).Inv := by
  fun_induction State.engWrite <;> grind [State.homeWrite_inv, State.engTake_inv]

theorem State.engLand_inv {s : State} (hs : s.Inv) (core c) : (s.engLand core c).Inv := State.landEng_inv hs ..

theorem State.scrPutBad_inv {s : State} (hs : s.Inv) (a w off bs bad) : (s.scrPutBad a w off bs bad).Inv := by
  unfold State.scrPutBad
  grind [State.scrPut_inv, State.modWg_inv, inv_foldl, inv_foldl_fst]

theorem State.beatRead_inv {s : State} (hs : s.Inv) (a h c glob va n) : (s.beatRead a h c glob va n).1.Inv := by
  unfold State.beatRead
  grind [State.streamSpan_inv, State.engRead_inv, State.bill_inv]

theorem State.beatCheck_inv {s : State} (hs : s.Inv) (a h glob va n) : (s.beatCheck a h glob va n).1.Inv := by
  unfold State.beatCheck
  grind [State.streamSpan_inv]

theorem State.beatWrite_inv {s : State} (hs : s.Inv) (a w id glob va ps bs bad) :
    (s.beatWrite a w id glob va ps bs bad).Inv := by
  unfold State.beatWrite
  grind [State.engSend_inv, State.scrPutBad_inv, State.bill_inv]

theorem execCopyBeat_inv {s : State} (hs : s.Inv) (core cmd) : OutInv (execCopyBeat core cmd s) := by
  unfold execCopyBeat
  refine atUnit_inv hs _ _ fun s a wg c hs => ?_
  split
  · grind [State.beatCheck_inv, State.cmdStop_inv, State.beatRead_inv, State.bill_inv, State.beatWrite_inv,
    State.inPages_inv, State.barScr_inv, State.engLand_inv, State.setOp_inv, State.cmdDone_inv]
  · exact hs

theorem State.cldRead_inv {s : State} (hs : s.Inv) (a h src stride f i) : (s.cldRead a h src stride f i).1.Inv := by
  unfold State.cldRead
  grind [State.streamSpan_inv, State.engRead_inv]

theorem State.cldFail_inv {s : State} (hs : s.Inv) (core c mac fblk nr) : (s.cldFail core c mac fblk nr).Inv := by
  unfold State.cldFail
  grind [State.cmdFail_inv, State.modCore_inv]

theorem State.cldFormat_inv {s : State} (hs : s.Inv) (a src fmt) : (s.cldFormat a src fmt).1.Inv := by
  unfold State.cldFormat
  grind [State.checkSpan_inv]

theorem execCldRow_inv {s : State} (hs : s.Inv) (core cmd) : OutInv (execCldRow core cmd s) := by
  unfold execCldRow
  grind [atUnit_inv, State.cldFormat_inv, State.cmdStop_inv, State.cldFail_inv, State.modCore_inv, State.setOp_inv,
    State.cldRead_inv, State.bill_inv, State.inPages_inv, State.cmdDone_inv, inv_foldl, inv_foldl_fst]

theorem execMmaVector_inv {s : State} (hs : s.Inv) (core cmd) : OutInv (execMmaVector core cmd s) := by
  unfold execMmaVector
  grind [atUnit_inv, State.cmdFail_inv, State.bill_inv, State.scrPut_inv, State.modCore_inv, State.setOp_inv,
    State.cmdDone_inv, inv_foldl, inv_foldl_fst]

/-! ### GEMV segments -/

theorem gStop_inv {α : Type} (e) : Keeps GrInv (gStop e : Gm α) := keeps_throw e

theorem gCode_inv {α : Type} (n) : Keeps GrInv (gCode n : Gm α) := keeps_throw _

theorem gPiece_inv (o i) : Keeps GrInv (gPiece o i) := by
  unfold gPiece
  grind [gCode_inv, State.checkSpan_inv, gStop_inv, State.engRead_inv, keeps_bind, keeps_pure, keeps_get_bind,
    keeps_set, GrInv]

theorem gBytes_inv (o pos n) : Keeps GrInv (gBytes o pos n) := by
  unfold gBytes
  grind [gPiece_inv, keeps_bind, keeps_pure, GrInv]

theorem gSym_inv (o base nsym pos) : Keeps GrInv (gSym o base nsym pos) := by
  unfold gSym
  grind [gCode_inv, gBytes_inv, State.bill_inv, keeps_bind, keeps_pure, keeps_modify, GrInv]

theorem gInput_inv (o x b) : Keeps GrInv (gInput o x b) := by
  unfold gInput
  grind [State.bill_inv, gCode_inv, inv_foldl, inv_foldl_fst, keeps_bind, keeps_pure, keeps_get_bind, keeps_set,
    GrInv]

theorem gRule_inv (o j b) : Keeps GrInv (gRule o j b) := by
  unfold gRule
  grind [gCode_inv, keeps_bind, keeps_pure, keeps_get_bind, GrInv]

theorem gSat_inv (b v) : Keeps GrInv (gSat b v) := by
  unfold gSat
  grind [keeps_bind, keeps_pure, keeps_modify, GrInv]

theorem gAdd_inv (neg ts) : Keeps GrInv (gAdd neg ts) := by
  unfold gAdd
  grind [gSat_inv, keeps_bind, keeps_modify, keeps_get_bind, keeps_mapM, GrInv]

theorem gTerm_inv (o colbase w limit) : Keeps GrInv (gTerm o colbase w limit) := by
  unfold gTerm
  grind [gCode_inv, gInput_inv, gAdd_inv, gRule_inv, keeps_bind, keeps_modify, keeps_mapM, GrInv]

theorem gClear_inv (o) : Keeps GrInv (gClear o) := by
  unfold gClear
  grind [keeps_modify, GrInv]

theorem gBody_inv (o colbase base nsym limit n i) : Keeps GrInv (gBody o colbase base nsym limit n i) := by
  fun_induction gBody <;> grind [gSym_inv, gTerm_inv, keeps_bind, keeps_pure, GrInv]

theorem gPutRule_inv (o r) : Keeps GrInv (gPutRule o r) := by
  unfold gPutRule
  grind [State.modCore_inv, inv_foldl, inv_foldl_fst, keeps_modify, GrInv]

theorem gRules_inv (o colbase base nsym maxd n i j) : Keeps GrInv (gRules o colbase base nsym maxd n i j) := by
  fun_induction gRules <;> grind [gBytes_inv, gCode_inv, gClear_inv, gBody_inv, gSym_inv, gPutRule_inv, keeps_bind,
    keeps_pure, keeps_modify, keeps_get_bind, GrInv]

theorem gRow_inv (o colbase base nsym nrule skip n i) : Keeps GrInv (gRow o colbase base nsym nrule skip n i) := by
  fun_induction gRow <;> grind [gCode_inv, gSym_inv, gTerm_inv, keeps_bind, keeps_pure, GrInv]

theorem gPutRow_inv (o n) : Keeps GrInv (gPutRow o n) := by
  unfold gPutRow
  grind [gCode_inv, gSat_inv, State.bill_inv, State.scrPut_inv, keeps_bind, keeps_modify, keeps_get_bind, keeps_mapM,
    GrInv]

theorem gRows_inv (o colbase base nsym nrule done n i j) : Keeps GrInv (gRows o colbase base nsym nrule done n i j) :=
  by
  fun_induction gRows <;> grind [gClear_inv, gRow_inv, gPutRow_inv, keeps_bind, keeps_pure, GrInv]

theorem gSegment_inv (o maxrow done) : Keeps GrInv (gSegment o maxrow done) := by
  unfold gSegment
  grind [gBytes_inv, gCode_inv, gRules_inv, gRows_inv, keeps_bind, keeps_pure, keeps_modify, GrInv]

theorem execGmvSegmentStart_inv {s : State} (hs : s.Inv) (core cmd) : OutInv (execGmvSegmentStart core cmd s) := by
  unfold execGmvSegmentStart
  refine atUnit_inv hs _ _ fun s a wg c hs => ?_
  split
  next seg inp out stat ncol b s16 acc maxrow rows satcol _ =>
    split
    · grind [State.bill_inv, State.scrPut_inv, State.cmdDone_inv, State.cmdFail_inv]
    · have h := fun o g0 => (gSegment_inv o maxrow rows).run g0
      grind [GrInv, State.setOp_inv, State.modCore_inv, State.cmdPark_inv]
  · exact hs

/-! ### Work queues and launches by instruction -/

theorem State.putKey_inv {s : State} (hs : s.Inv) (a k bs) : (s.putKey a k bs).Inv := by
  unfold State.putKey
  grind [State.homeWrite_inv, State.engTake_inv]

theorem State.getKey_inv {s : State} (hs : s.Inv) (a k n) : (s.getKey a k n).1.Inv := by
  unfold State.getKey
  grind [State.homeRead_inv, State.syncOwn_inv]

theorem State.nodeRead_inv {s : State} (hs : s.Inv) (a va) : (s.nodeRead a va).1.Inv := by
  unfold State.nodeRead
  grind [State.readWord_inv]

theorem State.checkSlots_inv {s : State} (hs : s.Inv) (a d n write n' i) : (s.checkSlots a d n write n' i).1.Inv := by
  fun_induction State.checkSlots <;> grind [State.checkSpan_inv]

theorem Cx.accFail_inv {s : State} (hs : s.Inv) (x write dst y) : (Cx.accFail x s write dst y).Inv := by
  unfold Cx.accFail
  grind [Cx.park_inv, Cx.raise_inv]

theorem State.putRecords_inv {s : State} (hs : s.Inv) (a l l2) : (s.putRecords a l l2).Inv := by
  fun_induction State.putRecords <;> grind [State.engWrite_inv]

theorem Cx.enqueue_inv {s : State} (hs : s.Inv) (x n k m data) {pay : State → State} (hp : ∀ s, s.Inv → (pay s).Inv) :
    (Cx.enqueue x s n k m data pay).Inv := by
  unfold Cx.enqueue
  split
  · exact Cx.badValue_inv hs ..
  split
  next e => exact Cx.accFail_inv (inv_fst (State.nodeRead_inv hs ..) e) ..
  next e =>
    have hs := inv_fst (State.nodeRead_inv hs ..) e
    split
    · exact Cx.badValue_inv hs ..
    split
    next e => exact Cx.accFail_inv (inv_fst (State.checkSpan_inv hs ..) e) ..
    next e =>
      have hs := inv_fst (State.checkSpan_inv hs ..) e
      split
      next e => exact Cx.accFail_inv (inv_fst (State.nodeRead_inv hs ..) e) ..
      next e =>
        have hs := inv_fst (State.nodeRead_inv hs ..) e
        split
        · exact Cx.badValue_inv hs ..
        split
        · exact Cx.raise_inv hs ..
        split
        next e => exact Cx.accFail_inv (inv_fst (State.checkSlots_inv hs ..) e) ..
        next slots e =>
          have hs := fun recs => State.putRecords_inv (State.fenceRel_inv
            (hp _ (inv_fst (State.checkSlots_inv hs ..) e)) x.acc .dev) x.acc slots recs
          refine State.modCrew_inv (retireNone_inv ?_ ..) ..
          split
          · exact State.engWrite_inv (hs _) ..
          · exact hs _

theorem execEnq_inv {s : State} (hs : s.Inv) (h n k va) : OutInv (execEnq h n k va s) := by
  unfold execEnq
  grind [withCx_inv, Cx.badOperand_inv, retireIdle_inv, Cx.enqueue_inv, outInv_next]

theorem execEnqr_inv {s : State} (hs : s.Inv) (h n k ss cnt) : OutInv (execEnqr h n k ss cnt s) := by
  unfold execEnqr
  grind [withCx_inv, Cx.badOperand_inv, retireIdle_inv, retireNone_inv, Cx.badValue_inv, Cx.raise_inv,
    Cx.enqueue_inv, State.bill_inv, outInv_next]

theorem State.readRecords_inv {s : State} (hs : s.Inv) (a l) : (s.readRecords a l).1.Inv := by
  fun_induction State.readRecords <;> grind [readParts_inv, State.readHome_inv]

theorem execDeq_inv {s : State} (hs : s.Inv) (h n pd vd) : OutInv (execDeq h n pd vd s) := by
  unfold execDeq
  refine withCx_inv hs fun x s hs => (outInv_next _).mpr ?_
  extract_lets w dst
  split
  · exact Cx.badOperand_inv hs ..
  split
  · exact retireIdle_inv hs ..
  split
  · exact Cx.badValue_inv hs ..
  split
  next e => exact Cx.accFail_inv (inv_fst (State.checkSpan_inv hs ..) e) ..
  next dps e =>
    have hs := inv_fst (State.checkSpan_inv hs ..) e
    split
    next e => exact Cx.accFail_inv (inv_fst (State.nodeRead_inv hs ..) e) ..
    next d e =>
      have hs := inv_fst (State.nodeRead_inv hs ..) e
      split
      · exact Cx.badValue_inv hs ..
      extract_lets c
      split
      next e => exact Cx.accFail_inv (inv_fst (State.checkSlots_inv hs ..) e) ..
      next u slots e =>
        have hs := inv_fst (State.checkSlots_inv hs ..) e
        extract_lets t
        have ht : t.Inv := by grind -lia -ring -linarith [State.engWrite_inv]
        clear_value t
        split
        next e => exact Cx.raise_inv (inv_fst (State.readRecords_inv ht ..) e) ..
        next e => 
          have hs := inv_fst (State.readRecords_inv ht ..) e
          refine retireMem_inv ?_ ..
          split
          · exact hs
          · exact State.fenceAcq_inv hs ..

theorem execLaunch_inv {s : State} (hs : s.Inv) (h d q rc) : OutInv (execLaunch h d q rc s) := by
  unfold execLaunch
  refine withCx_inv hs fun x s hs => (outInv_next _).mpr ?_
  split
  · exact Cx.badOperand_inv hs ..
  split
  · exact retireIdle_inv hs ..
  extract_lets sr
  split
  · exact Cx.badValue_inv hs ..
  extract_lets r hd
  have hr : r.1.Inv := State.getKey_inv hs ..
  clear_value r
  split
  · exact Cx.badValue_inv hr ..
  split
  next e => exact Cx.accFail_inv (inv_fst (State.checkSpan_inv (State.fenceRel_inv hr ..) ..) e) ..
  next ps e =>
    have hs := inv_fst (State.checkSpan_inv (State.fenceRel_inv hr ..) ..) e
    split
    next e => exact Cx.raise_inv (inv_fst (readParts_inv (fun s p hs => State.readHome_inv hs ..) hs ..) e) ..
    next t bs e =>
      have ht := inv_fst (readParts_inv (fun s p hs => State.readHome_inv hs ..) hs ..) e
      split
      · exact retireMem_inv ht ..
      · refine retireMem_inv (State.putKey_inv ?_ ..) ..
        split
        · exact State.putKey_inv ht ..
        · exact ht

/-! ### System instructions -/

theorem State.stopTake_inv {s : State} (hs : s.Inv) (core q reason slot bpix) :
    (s.stopTake core q reason slot bpix).Inv := by
  unfold State.stopTake
  grind [State.say_inv, State.modCore_inv]

theorem State.stopSeq_inv {s : State} (hs : s.Inv) (core q reason slot bpix) :
    (s.stopSeq core q reason slot bpix).Inv := by
  unfold State.stopSeq
  grind [State.modCore_inv, State.stopTake_inv]

theorem State.stopRetry_inv {s : State} (hs : s.Inv) (core q) : (s.stopRetry core q).Inv := by
  unfold State.stopRetry
  grind [State.stopTake_inv]

theorem execTrap_inv {s : State} (hs : s.Inv) (h a) : OutInv (execTrap h a s) := by
  unfold execTrap
  grind [withCx_inv, Cx.illegal_inv, Cx.badOperand_inv, retireIdle_inv, raiseAt_inv, retireNone_inv, outInv_next]

theorem execRte_inv {s : State} (hs : s.Inv) (h) : OutInv (execRte h s) := by
  unfold execRte
  grind [withCx_inv, Cx.illegal_inv, retireIdleCtl_inv, State.stopRetry_inv, Cx.voteNow_inv, State.setCrew_inv,
    State.issueCost_inv, outInv_next]

theorem execMovsr_inv {s : State} (hs : s.Inv) (h num d) : OutInv (execMovsr h num d s) := by
  unfold execMovsr
  grind [withCx_inv, Cx.badOperand_inv, retireIdle_inv, Cx.badValue_inv, retireFixed_inv, outInv_next]

theorem execSetsr_inv {s : State} (hs : s.Inv) (h num a) : OutInv (execSetsr h num a s) := by
  unfold execSetsr
  grind [withCx_inv, Cx.badOperand_inv, retireIdle_inv, Cx.badValue_inv, State.modCrew_inv, retireNone_inv,
    outInv_next]

theorem Cx.owePaid_inv {s : State} (hs : s.Inv) (x dst ws) : (Cx.owePaid x s dst ws).Inv := State.modCrew_inv hs ..

theorem execMread_inv {s : State} (hs : s.Inv) (h md d) : OutInv (execMread h md d s) := by
  unfold execMread
  grind [withCx_inv, Cx.badOperand_inv, retireIdle_inv, State.issueCost_inv, Cx.owePaid_inv, Cx.badValue_inv,
    outInv_next]

theorem execBkpt_inv {s : State} (hs : s.Inv) (h tag) : OutInv (execBkpt h tag s) := by
  unfold execBkpt
  grind [withCx_inv, retireIdle_inv, retireNone_inv, State.stopSeq_inv, raiseAt_inv, outInv_next]

theorem execHalt_inv {s : State} (hs : s.Inv) (h) : OutInv (execHalt h s) := by
  unfold execHalt
  grind [withCx_inv, retireIdle_inv, retireNone_inv, State.stopSeq_inv, inv_foldl, inv_foldl_fst, outInv_next]

theorem execTmark_inv {s : State} (hs : s.Inv) (h a) : OutInv (execTmark h a s) := by
  unfold execTmark
  grind [withCx_inv, Cx.illegal_inv, Cx.badOperand_inv, retireIdle_inv, retireNone_inv, State.profile_inv,
    outInv_next]

/-! ### Parking, replay and delivery -/

theorem execInstructionCompletion_inv {s : State} (hs : s.Inv) (key id) :
    OutInv (execInstructionCompletion key id s) := by
  unfold execInstructionCompletion
  grind [atCrew_inv, State.undrain_inv, State.setCrew_inv]

theorem execDemandFetch_inv {s : State} (hs : s.Inv) (key) : OutInv (execDemandFetch key s) := by
  unfold execDemandFetch
  grind [atCrew_inv, State.fetchLine_inv, State.modCrew_inv, raiseAt_inv]

theorem State.fqFail_inv {s : State} (hs : s.Inv) (ctx fq) : (s.fqFail ctx fq).Inv := by
  unfold State.fqFail
  grind [State.log_inv, State.inv_iff]

theorem State.fqWrite_inv {s : State} (hs : s.Inv) (ctx rec_ counted) : (s.fqWrite ctx rec_ counted).1.Inv := by
  unfold State.fqWrite
  dsimp only
  split
  · exact State.fqFail_inv hs ..
  · split
    next t e => exact State.fqFail_inv (inv_fst (State.benchRead_inv hs ..) e) ..
    next t b e =>
      have ht := inv_fst (State.benchRead_inv hs ..) e
      split
      · split
        · exact State.fqFail_inv (State.keepHouse_inv ht _) ..
        next u e =>
          have hu := inv_fst (State.benchWrites_inv ht ..) e
          exact State.msix_inv (s := { u with fqFailed := kdel ctx u.fqFailed }) (hu.congr rfl rfl) _ _
      · split
        · exact ht
        · split
          next e => exact inv_fst (State.benchWrite_inv ht ..) e
          next e => exact State.fqFail_inv (inv_fst (State.benchWrite_inv ht ..) e) ..

theorem State.errorRecord_inv {s : State} (hs : s.Inv) (r conf) : (s.errorRecord r conf).Inv := by
  unfold State.errorRecord
  grind [State.fqWrite_inv, State.inv_iff]

theorem State.parkWrite_inv {s : State} (hs : s.Inv) (key wg p pc eng) : (s.parkWrite key wg p pc eng).1.Inv := by
  unfold State.parkWrite
  grind [State.fqWrite_inv, State.inv_iff]

theorem State.recordOne_inv {s : State} (hs : s.Inv) (key cr wg) : (s.recordOne key cr wg).Inv := by
  unfold State.recordOne
  grind [State.parkWrite_inv, State.modCrew_inv, State.modCore_inv]

theorem execFaultRecordWrite_inv {s : State} (hs : s.Inv) (key) : OutInv (execFaultRecordWrite key s) := by
  unfold execFaultRecordWrite
  grind [atCrew_inv, State.recordOne_inv]

theorem State.recordAll_inv {s : State} (hs : s.Inv) (key) : (s.recordAll key).Inv := by
  unfold State.recordAll
  grind [State.recordOne_inv, inv_foldl, inv_foldl_fst]

theorem State.retryPend_inv {s : State} (hs : s.Inv) (ctx) : (s.retryPend ctx).Inv := by
  unfold State.retryPend
  grind [State.fqWrite_inv, State.inv_iff, inv_foldl, inv_foldl_fst]

theorem execFaultRecordRetry_inv {s : State} (hs : s.Inv) (ctx) : OutInv (execFaultRecordRetry ctx s) := by
  unfold execFaultRecordRetry
  grind [State.retryPend_inv, State.recordAll_inv, inv_foldl, inv_foldl_fst, outInv_next]

theorem State.reloadRow_inv {s : State} (hs : s.Inv) (a mac f rl b j) : (s.reloadRow a mac f rl b j).1.Inv := by
  unfold State.reloadRow
  grind [State.cldRead_inv, State.bill_inv, State.modCore_inv]

theorem State.reloadRows_inv {s : State} (hs : s.Inv) (a mac f rl b n i) :
    (State.reloadRows a mac f rl b n i s).1.Inv := by
  fun_induction State.reloadRows <;> grind [State.reloadRow_inv]

theorem State.reload_inv {s : State} (hs : s.Inv) (a w k0 l) : (State.reload a w k0 l s).Inv := by
  fun_induction State.reload <;> grind [State.reloadRows_inv, State.fail_inv, State.modCore_inv, State.modCrew_inv]

theorem State.unpark_inv {s : State} (hs : s.Inv) (key cr wg p) : (s.unpark key cr wg p).Inv := by
  unfold State.unpark
  grind [State.setCrew_inv, State.reload_inv, State.waitAgain_inv]

theorem State.replayHandle_inv {s : State} (hs : s.Inv) (ctx h) : (s.replayHandle ctx h).Inv := by
  unfold State.replayHandle
  grind [State.unpark_inv, State.modCore_inv, inv_foldl, inv_foldl_fst]

theorem State.replayRead_inv {s : State} (hs : s.Inv) (ctx) : (s.replayRead ctx).1.Inv := by
  unfold State.replayRead
  grind [State.benchRead_inv]

theorem execReplay_inv {s : State} (hs : s.Inv) (ctx) : OutInv (execReplay ctx s) := by
  unfold execReplay
  grind [State.replayRead_inv, State.benchWrite_inv, State.fqFail_inv, State.replayHandle_inv, outInv_next]

/-! ### Queues of the Bench, launches and admission -/

theorem State.benchTry_inv {s : State} (hs : s.Inv) (ctx va n) : (s.benchTry ctx va n).1.Inv := by
  unfold State.benchTry
  refine inv_foldl_fst hs fun r p hr => ?_
  have hw := State.walk_inv hr (s.benchAcc ctx) p.1 false
  grind [State.homeRead_inv]

theorem State.findZero_inv {s : State} (hs : s.Inv) (ctx r entry n i) : (State.findZero ctx r entry n i s).1.Inv := by
  fun_induction State.findZero <;> grind [State.benchRead_inv]

theorem State.findStart_inv {s : State} (hs : s.Inv) (ctx dir nreg entry n i) :
    (State.findStart ctx dir nreg entry n i s).1.Inv := by
  fun_induction State.findStart <;> grind [State.benchRead_inv, State.findZero_inv]

theorem State.initBars_inv {s : State} (hs : s.Inv) (ctx k gs l) : (State.initBars ctx k gs l s).1.Inv := by
  fun_induction State.initBars <;> grind [State.benchWrite_inv]

theorem State.readGroups_inv {s : State} (hs : s.Inv) (ctx k r) : (s.readGroups ctx k r).1.Inv := by
  unfold State.readGroups
  grind [State.benchRead_inv, State.initBars_inv, inv_foldl, inv_foldl_fst]

theorem State.setQ_inv {s : State} (hs : s.Inv) (func q x) : (s.setQ func q x).Inv := hs.congr rfl rfl

theorem State.modQ_inv {s : State} (hs : s.Inv) (func q f) : (s.modQ func q f).Inv := State.setQ_inv hs ..

theorem State.queueIdle_inv {s : State} (hs : s.Inv) (func q) : (s.queueIdle func q).Inv := State.modQ_inv hs ..

theorem State.putQueueState_inv {s : State} (hs : s.Inv) (func q) : (s.putQueueState func q).Inv := by
  unfold State.putQueueState
  grind [State.physWrite_inv]

theorem State.holdNow_inv {s : State} (hs : s.Inv) (func q) : (s.holdNow func q).Inv := by
  unfold State.holdNow
  grind [State.physWrite_inv, State.modQ_inv, inv_foldl, inv_foldl_fst]

theorem State.holdCheck_inv {s : State} (hs : s.Inv) (func q) : (s.holdCheck func q).Inv := by
  unfold State.holdCheck
  grind [State.holdNow_inv, State.modQ_inv]

theorem State.benchDrop_inv {s : State} (hs : s.Inv) (ctx va bs) : (s.benchDrop ctx va bs).Inv := by
  unfold State.benchDrop
  grind [State.benchWrite_inv, State.log_inv]

theorem State.finishRec_inv {s : State} (hs : s.Inv) (func q ctx slotPa r energy status) :
    (s.finishRec func q ctx slotPa r energy status).Inv := by
  unfold State.finishRec
  grind [State.physWrite_inv, State.benchDrop_inv, State.msix_inv]

theorem State.finishLaunch_inv {s : State} (hs : s.Inv) (l status) : (s.finishLaunch l status).Inv := by
  unfold State.finishLaunch
  grind [State.finishRec_inv, State.putQueueState_inv, State.holdCheck_inv, State.queueIdle_inv, State.inv_iff]

theorem State.gangEnd_inv {s : State} (hs : s.Inv) (l core part index since) :
    (s.gangEnd l core part index since).Inv := by
  unfold State.gangEnd
  grind [State.physWrite_inv, State.errorRecord_inv, State.msix_inv, State.finishLaunch_inv, State.inv_iff,
    inv_foldl, inv_foldl_fst]

theorem State.launchCheck_inv {s : State} (hs : s.Inv) (id) : (s.launchCheck id).Inv := by
  unfold State.launchCheck
  grind [State.gangEnd_inv, State.finishLaunch_inv]

theorem State.nodeBad_inv {s : State} (hs : s.Inv) (ctx r) : (s.nodeBad ctx r).1.Inv := by
  unfold State.nodeBad
  grind [State.benchRead_inv]

theorem State.recBad_inv {s : State} (hs : s.Inv) (func ctx bad r) : (s.recBad func ctx bad r).1.Inv := by
  unfold State.recBad
  grind [State.nodeBad_inv]

theorem State.readKernel_inv {s : State} (hs : s.Inv) (ctx r) : (s.readKernel ctx r).1.Inv := by
  unfold State.readKernel
  grind [State.benchRead_inv, State.findStart_inv]

theorem State.admitChecks_inv {s : State} (hs : s.Inv) (func ctx id conf bad r) :
    (s.admitChecks func ctx id conf bad r).1.Inv := by
  unfold State.admitChecks
  grind [State.recBad_inv, State.readKernel_inv, State.benchRead_inv, State.readGroups_inv, State.benchTry_inv,
    State.errorRecord_inv]

theorem State.admitRecord_inv {s : State} (hs : s.Inv) (func q ctx slotPa bad rec_) :
    (s.admitRecord func q ctx slotPa bad rec_).Inv := by
  unfold State.admitRecord
  grind [State.admitChecks_inv, State.finishRec_inv, State.launchCheck_inv, State.modQ_inv, State.inv_iff]

theorem State.takeOne_inv {s : State} (hs : s.Inv) (func q pa h rd) : (s.takeOne func q pa h rd).Inv := by
  unfold State.takeOne
  grind [State.physRead_inv, State.physWrite_inv, State.modQ_inv, State.admitRecord_inv]

theorem State.takeMany_inv {s : State} (hs : s.Inv) (func q pa h n i) : (State.takeMany func q pa h n i s).Inv := by
  fun_induction State.takeMany <;> grind [State.takeOne_inv]

theorem State.overrunNow_inv {s : State} (hs : s.Inv) (func q pa h) : (s.overrunNow func q pa h).Inv := by
  unfold State.overrunNow
  grind [State.putQueueState_inv, State.modQ_inv, State.msix_inv, State.errorRecord_inv]

theorem State.watchQueue_inv {s : State} (hs : s.Inv) (func q pa) : (s.watchQueue func q pa).Inv := by
  unfold State.watchQueue
  split
  next t e => exact inv_fst (State.physRead_inv hs ..) e
  next t b _ e =>
    have ht := State.holdCheck_inv (State.modQ_inv (inv_fst (State.physRead_inv hs ..) e) func q
      (fun x => x.seen (QHead.ofNat (natOfBytes b)))) func q
    refine State.putQueueState_inv ?_ ..
    split
    · exact ht
    · split
      · exact State.overrunNow_inv ht ..
      · split
        · exact ht
        · exact State.takeMany_inv ht ..

theorem execLaunchQueueWatch_inv {s : State} (hs : s.Inv) (func q) : OutInv (execLaunchQueueWatch func q s) := by
  unfold execLaunchQueueWatch
  grind [State.watchQueue_inv, State.watchContexts_inv, outInv_next]

/-! ### Cross-lane instructions -/

theorem laneRead_inv {s : State} (hs : s.Inv) (h wide sw d a b src) : OutInv (laneRead h wide sw d a b src s) :=
  compute_inv hs ..

theorem execGeti_inv {s : State} (hs : s.Inv) (h wide sw d a b) : OutInv (execGeti h wide sw d a b s) :=
  laneRead_inv hs ..

theorem execGetb_inv {s : State} (hs : s.Inv) (h wide wrap sw d a b) : OutInv (execGetb h wide wrap sw d a b s) :=
  laneRead_inv hs ..

theorem execGeta_inv {s : State} (hs : s.Inv) (h wide wrap sw d a b) : OutInv (execGeta h wide wrap sw d a b s) :=
  laneRead_inv hs ..

theorem execGetx_inv {s : State} (hs : s.Inv) (h wide sw d a b) : OutInv (execGetx h wide sw d a b s) :=
  laneRead_inv hs ..

theorem segPred_inv {s : State} (hs : s.Inv) (h sw pd pa f) : OutInv (segPred h sw pd pa f s) := compute_inv hs ..

theorem execPany_inv {s : State} (hs : s.Inv) (h sw pd pa) : OutInv (execPany h sw pd pa s) := segPred_inv hs ..

theorem execPall_inv {s : State} (hs : s.Inv) (h sw pd pa) : OutInv (execPall h sw pd pa s) := segPred_inv hs ..

theorem execPmask_inv {s : State} (hs : s.Inv) (h cnt d pa) : OutInv (execPmask h cnt d pa s) := compute_inv hs ..

theorem execPeers_inv {s : State} (hs : s.Inv) (h wide d a) : OutInv (execPeers h wide d a s) := by
  unfold execPeers
  grind [compute_inv]

theorem execLead_inv {s : State} (hs : s.Inv) (h last pd) : OutInv (execLead h last pd s) := compute_inv hs ..

theorem scanOp_inv {s : State} (hs : s.Inv) (h ty op sat d a out) : OutInv (scanOp h ty op sat d a out s) := by
  unfold scanOp
  grind [compute_inv, inv_foldl, inv_foldl_fst]

theorem execScan_inv {s : State} (hs : s.Inv) (h ty op excl sat d a) : OutInv (execScan h ty op excl sat d a s) :=
  scanOp_inv hs ..

theorem execVred_inv {s : State} (hs : s.Inv) (h ty op sat d a) : OutInv (execVred h ty op sat d a s) :=
  scanOp_inv hs ..

/-! ### Placement, gangs and nodes -/

theorem State.nodeGet_inv {s : State} (hs : s.Inv) (ctx va) : (s.nodeGet ctx va).1.Inv := State.benchRead_inv hs ..

theorem State.nodeOf_inv {s : State} (hs : s.Inv) (l) : (s.nodeOf l).1.Inv := by
  unfold State.nodeOf
  grind [State.nodeGet_inv]

theorem State.dispatch_inv {s : State} (hs : s.Inv) (l wgidx p c est) : (s.dispatch l wgidx p c est).Inv := by
  unfold State.dispatch
  grind [State.nodeOf_inv, State.modCore_inv, State.fenceAcq_inv, State.inv_iff]

theorem State.visitLoop_inv {s : State} (hs : s.Inv) (func q quan n) : (State.visitLoop func q quan n s).Inv := by
  fun_induction State.visitLoop <;> grind [State.modQ_inv, State.dispatch_inv]

theorem State.settleDc_inv {s : State} (hs : s.Inv) (func q) : (s.settleDc func q).Inv := by
  unfold State.settleDc
  grind [State.modQ_inv]

theorem State.modLaunch_inv {s : State} (hs : s.Inv) (id f) : (s.modLaunch id f).Inv := hs.congr rfl rfl

theorem State.dispatchAll_inv {s : State} (hs : s.Inv) (id n) : (State.dispatchAll id n s).Inv := by
  fun_induction State.dispatchAll <;> grind [State.modQ_inv, State.dispatch_inv]

theorem State.coopDone_inv {s : State} (hs : s.Inv) (id) : (s.coopDone id).Inv := by
  unfold State.coopDone
  grind [State.settleDc_inv, State.modLaunch_inv]

theorem atLaunch_inv {s : State} (hs : s.Inv) (id) {f : Launch → State} (hf : ∀ l, (f l).Inv) :
    OutInv (atLaunch s id f) := by
  unfold atLaunch
  grind [outInv_next]

theorem execCooperativeAdmission_inv {s : State} (hs : s.Inv) (launch) : OutInv (execCooperativeAdmission launch s) :=
  by
  unfold execCooperativeAdmission
  grind [atLaunch_inv, State.finishLaunch_inv, State.modLaunch_inv, State.coopDone_inv, State.dispatchAll_inv]

theorem State.reserveParts_inv {s : State} (hs : s.Inv) (id l) : (State.reserveParts id l s).Inv := by
  fun_induction State.reserveParts <;> grind [State.modLaunch_inv]

theorem State.commitPart_inv {s : State} (hs : s.Inv) (id p n l) : (State.commitPart id p n l s).Inv := by
  fun_induction State.commitPart <;> grind [State.modQ_inv, State.dispatch_inv]

theorem State.gangCommit_inv {s : State} (hs : s.Inv) (l res) : (s.gangCommit l res).Inv := by
  unfold State.gangCommit
  grind [State.modLaunch_inv, State.commitPart_inv, State.settleDc_inv, inv_foldl, inv_foldl_fst]

theorem execGangReserveTimeout_inv {s : State} (hs : s.Inv) (launch) : OutInv (execGangReserveTimeout launch s) := by
  unfold execGangReserveTimeout
  grind [atLaunch_inv, State.modLaunch_inv]

theorem State.nodesRead_inv {s : State} (hs : s.Inv) : (s.nodesRead).Inv := by
  unfold State.nodesRead
  grind [State.nodeGet_inv, inv_foldl, inv_foldl_fst]

theorem State.nodeEnd_inv {s : State} (hs : s.Inv) (l) : (s.nodeEnd l).Inv := by
  unfold State.nodeEnd
  grind [State.nodeGet_inv, State.finishLaunch_inv, State.benchDrop_inv]

theorem State.nodeDone_inv {s : State} (hs : s.Inv) (id) : ∀ t ∈ (s.nodeDone id), t.Inv := by
  unfold State.nodeDone
  split
  · simp
  · intro t ht
    obtain ⟨ls, -, rfl⟩ := Option.map_eq_some_iff.mp ht
    exact inv_foldl hs fun s l hs => State.nodeEnd_inv hs l

theorem State.nodesEnd_inv {s : State} (hs : s.Inv) (n) : (State.nodesEnd n s).Inv := by
  fun_induction State.nodesEnd with
  | case1 => exact hs
  | case2 s n t ht ih =>
    obtain ⟨l, -, hl⟩ := List.exists_of_findSome?_eq_some ht
    split at hl
    · exact ih (State.nodeDone_inv hs _ _ hl)
    · cases hl
  | case3 => exact hs

theorem State.nodesDone_inv {s : State} (hs : s.Inv) : (s.nodesDone).Inv := by
  unfold State.nodesDone
  grind [State.nodesEnd_inv, State.nodesRead_inv]

theorem State.reserveOut_inv {s : State} (hs : s.Inv) (ctx n l) : (s.reserveOut ctx n l).1.Inv := by
  fun_induction State.reserveOut <;> grind [State.nodeGet_inv, State.benchWrite_inv]

theorem State.takeRecords_inv {s : State} (hs : s.Inv) (ctx d n i) : (s.takeRecords ctx d n i).1.Inv := by
  fun_induction State.takeRecords <;> grind [State.benchRead_inv]

theorem State.formConsumer_inv_of_ready {s : State} (hs : s.Inv) (l va) {d : NodeD} (hc :
    d.ready ≥ l.kernel.crews * d.batch ∨ (d.ready ≥ 1 ∧ !s.liveProducer l va)) {r}
  (hr : min d.ready (l.kernel.crews * d.batch) = r) : (s.formConsumer l va d).1.Inv := by
  unfold State.formConsumer
  rw [if_pos hc, hr]
  clear hc hr
  split
  · exact State.keepHouse_inv hs _
  next t e =>
    have ht := inv_fst (State.reserveOut_inv hs ..) e
    dsimp only
    split
    · exact State.keepHouse_inv hs _
    next u recs e =>
      have hu := inv_fst (State.takeRecords_inv ht ..) e
      split
      next v e => exact State.modLaunch_inv (inv_fst (State.benchWrite_inv hu ..) e) ..
      · exact State.keepHouse_inv hs _

theorem State.formConsumer_inv {s : State} (hs : s.Inv) (l va d) : (s.formConsumer l va d).1.Inv := by
  by_cases hc : d.ready ≥ l.kernel.crews * d.batch ∨ (d.ready ≥ 1 ∧ !s.liveProducer l va)
  · exact State.formConsumer_inv_of_ready hs l va hc rfl
  · unfold State.formConsumer
    rw [if_neg hc]
    exact hs

theorem State.nodeNext_inv {s : State} (hs : s.Inv) (l) : (s.nodeNext l).1.Inv := by
  unfold State.nodeNext
  grind [State.nodesRead_inv, State.nodeDone_inv, State.nodeGet_inv, State.formConsumer_inv]

theorem execNodeConsumerDispatch_inv {s : State} (hs : s.Inv) (launch) : OutInv (execNodeConsumerDispatch launch s) :=
  by
  unfold execNodeConsumerDispatch
  grind [atLaunch_inv, State.nodeNext_inv]

/-! ### Meters, grants and the throttle -/

theorem State.askSaves_inv {s : State} (hs : s.Inv) (cause sel) : (s.askSaves cause sel).Inv := hs.congr rfl rfl

theorem State.panStore_inv {s : State} (hs : s.Inv) (func pa q) : (s.panStore func pa q).Inv := by
  unfold State.panStore
  grind [State.physWrite_inv, State.inv_iff]

theorem State.panOp_inv {s : State} (hs : s.Inv) (func f draw) : (s.panOp func f draw).1.Inv := by
  unfold State.panOp
  grind [State.physRead_inv, State.panStore_inv, State.msix_inv, State.askSaves_inv]

theorem State.modGrant_inv {s : State} (hs : s.Inv) (core func f) : (s.modGrant core func f).Inv :=
  State.modCore_inv hs ..

theorem execGrant_inv {s : State} (hs : s.Inv) (core func) : OutInv (execGrant core func s) := by
  unfold execGrant
  grind [State.panOp_inv, State.modGrant_inv, outInv_next]

theorem State.reportDebt_inv {s : State} (hs : s.Inv) (core func) : (s.reportDebt core func).Inv := by
  unfold State.reportDebt
  grind [State.panOp_inv, State.modGrant_inv]

theorem execDebtReport_inv {s : State} (hs : s.Inv) (core func) : OutInv (execDebtReport core func s) := by
  unfold execDebtReport
  grind [State.reportDebt_inv, outInv_next]

theorem State.returnGrant_inv {s : State} (hs : s.Inv) (core func) : (s.returnGrant core func).Inv := by
  unfold State.returnGrant
  grind [State.modCore_inv, State.panOp_inv]

theorem State.addAccount_inv {s : State} (hs : s.Inv) (ctx n) : (s.addAccount ctx n).Inv := hs.congr rfl rfl

theorem State.flushSlot_inv {s : State} (hs : s.Inv) (c w) : (s.flushSlot c w).Inv := by
  unfold State.flushSlot
  grind [State.addAccount_inv, State.setWg_inv]

theorem State.flushAll_inv {s : State} (hs : s.Inv) : (s.flushAll).Inv := by
  unfold State.flushAll
  grind [State.flushSlot_inv, inv_foldl, inv_foldl_fst]

theorem State.settleDomain_inv {s : State} (hs : s.Inv) (d x) : (s.settleDomain d x).Inv := by
  unfold State.settleDomain
  grind [State.log_inv, State.panOp_inv, State.addAccount_inv, State.inv_iff, inv_foldl, inv_foldl_fst]

theorem State.settleLate_inv {s : State} (hs : s.Inv) : (s.settleLate).Inv := by
  unfold State.settleLate
  grind [State.panOp_inv, State.addAccount_inv, State.inv_iff, inv_foldl, inv_foldl_fst]

theorem State.confUpdate_inv {s : State} (hs : s.Inv) : (s.confUpdate).Inv := by
  unfold State.confUpdate
  grind [State.physWrite_inv, State.inv_iff, inv_foldl, inv_foldl_fst]

theorem execIntervalEnd_inv {s : State} (hs : s.Inv) (measured) : OutInv (execIntervalEnd measured s) := by
  unfold execIntervalEnd
  grind [State.settleDomain_inv, State.settleLate_inv, State.flushAll_inv, State.confUpdate_inv, State.inv_iff,
    inv_foldl, inv_foldl_fst, outInv_next]

theorem throttleOf_bounds (a b) : 1 ≤ throttleOf a b ∧ throttleOf a b ≤ 4 := by
  unfold throttleOf
  grind

theorem execSensorSample_inv {s : State} (hs : s.Inv) (tiles substrate) :
    OutInv (execSensorSample tiles substrate s) := by
  refine (outInv_next _).mpr ⟨(inv_foldl hs fun s e hs => State.modCore_inv hs _ _).mem, ?_⟩
  simp [State.throttleOk, throttleOf_bounds]

theorem execLoadSample_inv {s : State} (hs : s.Inv) (key pc va level tlbMiss poison times) :
    OutInv (execLoadSample key pc va level tlbMiss poison times s) := by
  unfold execLoadSample
  grind [State.profile_inv, State.modCore_inv, outInv_next]

/-! ### Retirement of workgroups and launches -/

theorem State.writeBackWg_inv {s : State} (hs : s.Inv) (c w wg) : (s.writeBackWg c w wg).Inv := by
  unfold State.writeBackWg
  grind [State.sweep_inv, State.holdFor_inv, State.unmapWindow_inv, inv_foldl, inv_foldl_fst]

theorem execRetirementWriteback_inv {s : State} (hs : s.Inv) (core wg) : OutInv (execRetirementWriteback core wg s) :=
  by
  unfold execRetirementWriteback
  grind [atWg_inv, State.modWg_inv, State.writeBackWg_inv]

theorem State.giveBack_inv {s : State} (hs : s.Inv) (c x) : (s.giveBack c x).Inv := by
  unfold State.giveBack
  grind [State.nodeGet_inv, State.benchDrop_inv, inv_foldl, inv_foldl_fst]

theorem State.benchRetire_inv {s : State} (hs : s.Inv) (c x aborted) : (s.benchRetire c x aborted).Inv := by
  unfold State.benchRetire
  grind [State.modLaunch_inv, State.returnGrant_inv, State.reportDebt_inv, State.modQ_inv, State.putQueueState_inv,
    State.holdCheck_inv, State.nodesDone_inv, State.launchCheck_inv]

theorem State.retire_inv {s : State} (hs : s.Inv) (c w x aborted) : (s.retire c w x aborted).Inv := by
  unfold State.retire
  grind [State.giveBack_inv, State.flushSlot_inv, State.modCore_inv, State.benchRetire_inv]

theorem execWorkgroupRetirement_inv {s : State} (hs : s.Inv) (core wg) : OutInv (execWorkgroupRetirement core wg s) :=
  by
  unfold execWorkgroupRetirement
  grind [atWg_inv, State.retire_inv]

theorem State.abortNow_inv {s : State} (hs : s.Inv) (core w x i) : (s.abortNow core w x i).Inv := by
  unfold State.abortNow
  grind [State.landCore_inv, State.writeBackWg_inv, State.modCore_inv, State.errorRecord_inv, State.retire_inv]

theorem execWorkgroupAbort_inv {s : State} (hs : s.Inv) (core wg) : OutInv (execWorkgroupAbort core wg s) := by
  unfold execWorkgroupAbort
  grind [atWg_inv, State.abortNow_inv]

theorem State.sampleStall_inv {s : State} (hs : s.Inv) (core seq func) : (State.sampleStall core seq s func).Inv := by
  unfold State.sampleStall
  grind [State.profile_inv, State.modCore_inv]

theorem execStallSample_inv {s : State} (hs : s.Inv) (core seq) : OutInv (execStallSample core seq s) := by
  unfold execStallSample
  grind [State.sampleStall_inv, inv_foldl, inv_foldl_fst, outInv_next]

/-! ### Saving and restoring -/

theorem State.landCmds_inv {s : State} (hs : s.Inv) (c w) : (s.landCmds c w).Inv := by
  unfold State.landCmds
  grind [State.landEng_inv, inv_foldl, inv_foldl_fst]

theorem State.saveTo_inv {s : State} (hs : s.Inv) (c w x cause off) : (s.saveTo c w x cause off).Inv := by
  have h := State.flushSlot_inv (State.sweep_inv
    (State.fenceRel_inv (State.modCrewsOf_inv (State.landCmds_inv hs c w) c w Crew.settle)
    (accOf c w x) .dev) (accOf c w x) (fun l => l.ctx == x.ctx) true) c w
  unfold State.saveTo
  dsimp only
  split
  next x1 l _ _ =>
    refine State.launchCheck_inv (State.returnGrant_inv (State.modLaunch_inv (State.modCore_inv ?_ ..) ..) ..) _
    exact (State.physStore_inv h ..).congr rfl rfl
  · exact h

theorem State.noRoom_inv {s : State} (hs : s.Inv) (c w x) : (s.noRoom c w x).Inv := by
  unfold State.noRoom
  grind [State.abortWg_inv, State.modWg_inv]

theorem State.saveNow_inv {s : State} (hs : s.Inv) (c w x cause) : (s.saveNow c w x cause).Inv := by
  unfold State.saveNow
  grind [State.saveTo_inv, State.noRoom_inv]

theorem execForcedPreemption_inv {s : State} (hs : s.Inv) (core wg cause) :
    OutInv (execForcedPreemption core wg cause s) := by
  unfold execForcedPreemption
  grind [atWg_inv, State.modWg_inv, State.saveNow_inv]

theorem execEngineDrainTimeout_inv {s : State} (hs : s.Inv) (core wg) : OutInv (execEngineDrainTimeout core wg s) :=
  by
  unfold execEngineDrainTimeout
  grind [atWg_inv, State.modCore_inv]

theorem State.restoreOn_inv {s : State} (hs : s.Inv) (ix v l p c) : (s.restoreOn ix v l p c).Inv := by
  unfold State.restoreOn
  grind [State.modCore_inv, State.modLaunch_inv, State.reload_inv, State.undrain_inv, State.inv_iff, inv_foldl,
    inv_foldl_fst]

theorem execRestore_inv {s : State} (hs : s.Inv) (ix) : OutInv (execRestore ix s) := by
  unfold execRestore
  grind [State.restoreOn_inv, outInv_next]

theorem State.restoreParts_inv {s : State} (hs : s.Inv) (l p l' l2) : (State.restoreParts l p l' l2 s).Inv := by
  fun_induction State.restoreParts <;> grind [State.restoreOn_inv]

theorem State.gangStart_inv {s : State} (hs : s.Inv) (l res) : (s.gangStart l res).Inv := by
  unfold State.gangStart
  grind [State.modLaunch_inv, State.restoreParts_inv, State.gangCommit_inv, inv_foldl, inv_foldl_fst]

theorem State.gangTry_inv {s : State} (hs : s.Inv) (l) : (s.gangTry l).Inv := by
  unfold State.gangTry
  grind [State.finishLaunch_inv, State.modLaunch_inv, State.reserveParts_inv, State.gangStart_inv]

theorem execGangReserve_inv {s : State} (hs : s.Inv) (launch) : OutInv (execGangReserve launch s) := by
  unfold execGangReserve
  grind [atLaunch_inv, State.gangTry_inv, State.inv_iff]

theorem execQueueVisit_inv {s : State} (hs : s.Inv) (func q) : OutInv (execQueueVisit func q s) := by
  unfold execQueueVisit
  grind [State.modQ_inv, State.gangTry_inv, State.settleDc_inv, State.visitLoop_inv, State.inv_iff, outInv_next]

theorem State.gangFail_inv {s : State} (hs : s.Inv) (l core lost) : (s.gangFail l core lost).Inv := by
  unfold State.gangFail
  grind [State.modLaunch_inv, State.physWrite_inv, State.launchCheck_inv, State.abortWg_inv, State.noRoom_inv,
    State.modWg_inv, State.inv_iff, inv_foldl, inv_foldl_fst]

theorem State.giveUp_inv {s : State} (hs : s.Inv) (core readable) : (s.giveUp core readable).Inv := by
  unfold State.giveUp
  grind [State.recall_inv, State.setOwner_inv, State.inv_iff, inv_foldl, inv_foldl_fst]

theorem State.fenceCore_inv {s : State} (hs : s.Inv) (core readable) : (s.fenceCore core readable).Inv := by
  unfold State.fenceCore
  grind [State.modCore_inv, State.giveUp_inv, State.log_inv, State.msix_inv, State.gangFail_inv, State.abortWg_inv,
    State.inv_iff, inv_foldl, inv_foldl_fst]

theorem execCoreFence_inv {s : State} (hs : s.Inv) (core site) : OutInv (execCoreFence core site s) := by
  unfold execCoreFence
  grind [State.fenceCore_inv, State.inv_iff, outInv_next]

theorem State.eccPoison_inv {s : State} (hs : s.Inv) (y) : (s.eccPoison y).Inv := by
  unfold State.eccPoison
  grind [State.modCore_inv, State.modWg_inv, State.inv_iff]

theorem execEccError_inv {s : State} (hs : s.Inv) (site correctable) : OutInv (execEccError site correctable s) := by
  unfold execEccError
  grind [State.eccPoison_inv, State.log_inv, State.inv_iff, outInv_next]

/-! ### Loading and unloading -/

theorem State.pagesOk_inv {s : State} (hs : s.Inv) (ctx secs) : (s.pagesOk ctx secs).1.Inv := by
  unfold State.pagesOk
  grind [State.walk_inv, inv_foldl, inv_foldl_fst]

theorem State.loadCheck_inv {s : State} (hs : s.Inv) (ctx rec_) : (s.loadCheck ctx rec_).1.Inv := by
  unfold State.loadCheck
  grind [State.benchRead_inv, State.pagesOk_inv]

theorem State.loadEnd_inv {s : State} (hs : s.Inv) (func q ctx pa rec_ w ok) :
    (s.loadEnd func q ctx pa rec_ w ok).Inv := by
  unfold State.loadEnd
  grind [State.physWrite_inv, State.benchDrop_inv, State.putQueueState_inv, State.modQ_inv, State.msix_inv]

theorem execCodeObjectLoad_inv {s : State} (hs : s.Inv) (func q) : OutInv (execCodeObjectLoad func q s) := by
  unfold execCodeObjectLoad
  grind [State.loadCheck_inv, State.loadEnd_inv, State.benchWrite_inv, State.inv_iff, inv_foldl, inv_foldl_fst,
    outInv_next]

theorem State.icDrop_inv {s : State} (hs : s.Inv) (va n) : (s.icDrop va n).Inv := hs.congr rfl rfl

theorem State.emptyStateCaches_inv {s : State} (hs : s.Inv) : (s.emptyStateCaches).Inv := hs.congr rfl rfl

theorem State.unload_inv {s : State} (hs : s.Inv) (ctx o) : (s.unload ctx o).Inv := by
  unfold State.unload
  grind [State.benchWrite_inv, State.icDrop_inv, State.emptyStateCaches_inv, State.inv_iff, inv_foldl, inv_foldl_fst]

theorem execCodeObjectUnload_inv {s : State} (hs : s.Inv) (func q) : OutInv (execCodeObjectUnload func q s) := by
  unfold execCodeObjectUnload
  grind [State.loadEnd_inv, State.pagesOk_inv, State.unload_inv, outInv_next]

/-! ### Exported images and the debugger -/

theorem State.modSeq_inv {s : State} (hs : s.Inv) (core q f) : (s.modSeq core q f).Inv := State.modCore_inv hs ..

theorem State.doStop_inv {s : State} (hs : s.Inv) (core q) : (s.doStop core q).Inv := by
  unfold State.doStop
  grind [State.modSeq_inv, State.stopSeq_inv]

theorem State.againRegroup_inv {s : State} (hs : s.Inv) (core q) : (s.againRegroup core q).Inv :=
  State.modCore_inv hs ..

theorem State.doResume_inv {s : State} (hs : s.Inv) (core q) : (s.doResume core q).Inv := by
  unfold State.doResume
  grind [State.modSeq_inv, State.againRegroup_inv]

theorem State.doStep_inv {s : State} (hs : s.Inv) (core q slot) : (s.doStep core q slot).Inv := by
  unfold State.doStep
  grind [State.modSeq_inv, State.againRegroup_inv]

theorem State.stepDone_inv {s : State} (hs : s.Inv) (core q slot) : (s.stepDone core q slot).Inv :=
  State.stopSeq_inv hs ..

theorem execStop_inv {s : State} (hs : s.Inv) (core seq) : OutInv (execStop core seq s) := by
  unfold execStop
  grind [State.doStop_inv, outInv_next]

theorem execResume_inv {s : State} (hs : s.Inv) (core seq) : OutInv (execResume core seq s) := by
  unfold execResume
  grind [State.doResume_inv, outInv_next]

theorem execStep_inv {s : State} (hs : s.Inv) (core seq slot) : OutInv (execStep core seq slot s) := by
  unfold execStep
  grind [State.doStep_inv, outInv_next]

theorem execBreakpointMatch_inv {s : State} (hs : s.Inv) (key) : OutInv (execBreakpointMatch key s) := by
  unfold execBreakpointMatch
  grind [atCrew_inv, State.stopSeq_inv, State.modCrew_inv]

theorem State.stopRetryAll_inv {s : State} (hs : s.Inv) : (s.stopRetryAll).Inv := by
  unfold State.stopRetryAll
  grind [State.stopRetry_inv, inv_foldl, inv_foldl_fst]

theorem State.crewSysWrite_inv {s : State} (hs : s.Inv) (num sel x) : (s.crewSysWrite num sel x).Inv := by
  unfold State.crewSysWrite
  grind [State.setCrew_inv]

theorem State.sysWrite_inv {s : State} (hs : s.Inv) (num sel x) : (s.sysWrite num sel x).Inv := by
  unfold State.sysWrite
  grind [State.crewSysWrite_inv, State.modCore_inv, State.modSeq_inv, State.doStop_inv, State.doResume_inv,
    State.doStep_inv, State.setSysreg_inv, State.stopRetryAll_inv]

theorem State.refuse_inv {s : State} (hs : s.Inv) (who addr) : (s.refuse who addr).Inv := State.log_inv hs ..

theorem State.sysWriteAny_inv {s : State} (hs : s.Inv) (num sel x) : (s.sysWriteAny num sel x).Inv := by
  unfold State.sysWriteAny
  grind [State.sysWrite_inv]

theorem execSystemRegisterWrite_inv {s : State} (hs : s.Inv) (agent num sel x) :
    OutInv (execSystemRegisterWrite agent num sel x s) := by
  unfold execSystemRegisterWrite
  grind [State.sysWrite_inv, State.say_inv, State.refuse_inv, State.sysWriteAny_inv, outInv_next]

theorem State.regRead_inv {s : State} (hs : s.Inv) (agent num sel) : (s.regRead agent num sel).Inv := by
  unfold State.regRead
  grind [State.say_inv, State.refuse_inv]

theorem State.acctRead_inv {s : State} (hs : s.Inv) (func ctx) : (s.acctRead func ctx).Inv := State.say_inv hs ..

theorem execDebuggerWrite_inv {s : State} (hs : s.Inv) (key off bytes) : OutInv (execDebuggerWrite key off bytes s) :=
  by
  unfold execDebuggerWrite
  grind [atCrew_inv, State.setCrew_inv]

theorem State.debugRead_inv {s : State} (hs : s.Inv) (key off n) : (s.debugRead key off n).Inv := by
  unfold State.debugRead
  grind [State.say_inv]

theorem State.cacheRead_inv {s : State} (hs : s.Inv) (core q) : (s.cacheRead core q).Inv := by
  unfold State.cacheRead
  grind [State.say_inv]

/-! ### Requests of the management rings -/

theorem State.putRingState_inv {s : State} (hs : s.Inv) (r running) : (s.putRingState r running).Inv := by
  unfold State.putRingState
  grind [State.physWrite_inv]

theorem State.ringTake_inv {s : State} (hs : s.Inv) (r) : (s.ringTake r).1.Inv := by
  unfold State.ringTake
  split
  next t e => exact inv_fst (State.physRead_inv hs ..) e
  next t b _ e =>
    have ht := State.modQ_inv (inv_fst (State.physRead_inv hs ..) e) r.table r.ix (fun x => x.seen
      (QHead.ofNat (natOfBytes b)))
    dsimp only
    split
    · exact State.putRingState_inv ht ..
    · split
      · exact State.log_inv (State.putRingState_inv (State.modQ_inv ht ..) ..) _
      · split
        next u e => exact inv_fst (State.physRead_inv ht ..) e
        next u e' _ e =>
          have hu := inv_fst (State.physRead_inv ht ..) e
          exact State.putRingState_inv (State.physWrite_inv hu ..) ..

theorem State.invalCore_inv {s : State} (hs : s.Inv) (r c) : (s.invalCore r c).Inv := by
  unfold State.invalCore
  grind [State.sweep_inv, State.modCore_inv]

theorem State.invalidate_inv {s : State} (hs : s.Inv) (r) : (s.invalidate r).Inv := by
  unfold State.invalidate
  grind [State.landAll_inv, State.invalCore_inv, State.inv_iff, inv_foldl, inv_foldl_fst]

theorem State.invDone_inv {s : State} (hs : s.Inv) (func ctx done v) : (s.invDone func ctx done v).Inv := by
  unfold State.invDone
  grind [State.benchWrite_inv, State.msix_inv, State.log_inv]

theorem execInvalidationRequest_inv {s : State} (hs : s.Inv) (func) : OutInv (execInvalidationRequest func s) := by
  unfold execInvalidationRequest
  grind [State.ringTake_inv, State.invDone_inv, State.invalidate_inv, State.keepHouse_inv, outInv_next]

theorem State.reqDone_inv {s : State} (hs : s.Inv) (q ok) : (s.reqDone q ok).Inv := by
  unfold State.reqDone
  grind [State.msix_inv, State.physWrite_inv]

theorem atReq_inv {s : State} (hs : s.Inv) (p) {f : State → StateReq → State × Bool}
    (hf : ∀ s q, s.Inv → (f s q).1.Inv) : OutInv (atReq s p f) := by
  unfold atReq
  grind [State.ringTake_inv, State.reqDone_inv, outInv_next]

theorem given_inv (b) : GatherInv (given b) := fun _ hs => hs

theorem both_inv {f g : Gather} (hf : GatherInv f) (hg : GatherInv g) : GatherInv (both f g) :=
  fun s hs => hg _ (hf s hs)

theorem allOf_inv {l : List Gather} (hl : ∀ g ∈ l, GatherInv g) : GatherInv (allOf l) := by
  induction l with
  | nil => exact given_inv _
  | cons g l ih => exact both_inv (hl g (by simp)) (ih fun g hg => hl g (by simp [hg]))

theorem mapped_inv (f) {g : Gather} (hg : GatherInv g) : GatherInv (mapped f g) := hg

theorem snap_inv (pa n) : GatherInv (snap pa n) := fun _ hs => State.physRead_inv hs ..

theorem State.dumpImage_inv (s : State) (v unit) : GatherInv (s.dumpImage v unit) := by
  unfold State.dumpImage
  exact mapped_inv _ (snap_inv _ _)

theorem State.dumpSection_inv (s : State) (l) : GatherInv (s.dumpSection l) := by
  unfold State.dumpSection
  split
  · exact given_inv _
  · refine both_inv (given_inv _) (allOf_inv fun g hg => ?_)
    obtain ⟨e, -, rfl⟩ := List.mem_map.mp hg
    exact State.dumpImage_inv s _ _

theorem State.exportClass_inv (s : State) (n) : ∀ g ∈ s.exportClass n, GatherInv g := by
  unfold State.exportClass
  split
  · intro g hg
    simp only [List.mem_append, List.mem_flatMap, List.mem_map] at hg
    obtain ⟨f, -, hg⟩ | ⟨l, -, rfl⟩ := hg
    · split at hg
      · cases hg
      · simp only [List.mem_cons, List.mem_map] at hg
        obtain rfl | ⟨q, -, rfl⟩ := hg
        · exact mapped_inv _ (snap_inv _ _)
        · split
          · exact mapped_inv _ (snap_inv _ _)
          · exact given_inv _
    · exact given_inv _
  · intro g hg
    obtain ⟨l, -, rfl⟩ := List.mem_map.mp hg
    split
    · exact mapped_inv _ fun s hs => State.benchRead_inv hs ..
    · exact given_inv _
  · simp [given_inv, mapped_inv, snap_inv]
  · simp [mapped_inv, State.dumpSection_inv]
  · simp [given_inv]
  · simp [given_inv]
  · simp [mapped_inv, snap_inv]
  · simp

theorem State.exportBytes_inv {s : State} (hs : s.Inv) (classes) : (s.exportBytes classes).1.Inv := by
  refine allOf_inv (fun g hg => ?_) s hs
  obtain ⟨c, -, hc⟩ := List.mem_flatMap.mp hg
  split at hc
  · exact State.exportClass_inv _ _ _ hc
  · cases hc

theorem execStateExport_inv {s : State} (hs : s.Inv) : OutInv (execStateExport s) := by
  unfold execStateExport
  grind [atReq_inv, State.exportBytes_inv, State.physWrite_inv]

theorem State.readmit_inv {s : State} (hs : s.Inv) (func entry l imgs) : (s.readmit func entry l imgs).Inv := by
  unfold State.readmit
  grind [State.physWrite_inv, State.inv_iff, inv_foldl, inv_foldl_fst]

theorem execRestart_inv {s : State} (hs : s.Inv) : OutInv (execRestart s) := by
  unfold execRestart
  grind [atReq_inv, State.readmit_inv, outInv_next]

theorem execRelease_inv {s : State} (hs : s.Inv) : OutInv (execRelease s) := by
  unfold execRelease
  grind [atReq_inv, State.inv_iff]

/-! ### The host port, links and management -/

theorem State.reply_inv {s : State} (hs : s.Inv) (cls k) : (s.reply cls k).Inv := by
  unfold State.reply
  grind [State.flit_inv, State.bill_inv]

theorem State.outerRead_inv {s : State} (hs : s.Inv) (cls pa n) : (s.outerRead cls pa n).1.Inv := by
  unfold State.outerRead
  grind [State.homeRead_inv, State.reply_inv, State.beatsOut_inv, inv_foldl, inv_foldl_fst]

theorem State.outerPut_inv {s : State} (hs : s.Inv) (cls bad answer l l2) : (s.outerPut cls bad answer l l2).Inv := by
  fun_induction State.outerPut <;> grind [State.beatsIn_inv, State.homeWrite_inv, State.reply_inv]

theorem State.outerWrite_inv {s : State} (hs : s.Inv) (cls pa bs bad answer) :
    (s.outerWrite cls pa bs bad answer).Inv := State.outerPut_inv hs ..

theorem execCxlMemRead_inv {s : State} (hs : s.Inv) (off n) : OutInv (execCxlMemRead off n s) := by
  unfold execCxlMemRead
  grind [State.outerRead_inv, State.say_inv, State.refuse_inv, outInv_next]

theorem execCxlMemWrite_inv {s : State} (hs : s.Inv) (off data) : OutInv (execCxlMemWrite off data s) := by
  unfold execCxlMemWrite
  grind [State.say_inv, State.outerWrite_inv, State.refuse_inv, outInv_next]

theorem State.outsidePut_inv {s : State} (hs : s.Inv) (bad l l2) : (s.outsidePut bad l l2).Inv := by
  fun_induction State.outsidePut <;> grind [State.store_inv, State.recall_inv]

theorem State.outsideStore_inv {s : State} (hs : s.Inv) (pa d) : (s.outsideStore pa d).Inv :=
  State.outsidePut_inv hs ..

theorem State.remoteAtomic_inv {s : State} (hs : s.Inv) (pa n f) : (s.remoteAtomic pa n f).1.Inv := by
  unfold State.remoteAtomic
  grind [State.outerRead_inv, State.outerWrite_inv]

theorem State.hear_inv {s : State} (hs : s.Inv) (pa) : (s.hear pa).Inv := by
  unfold State.hear
  grind [State.inv_iff]

theorem execRemoteRequest_inv {s : State} (hs : s.Inv) (peer pa op) : OutInv (execRemoteRequest peer pa op s) := by
  unfold execRemoteRequest
  grind [State.hear_inv, State.say_inv, State.refuse_inv, State.outerRead_inv, State.outerWrite_inv,
    State.remoteAtomic_inv, outInv_next]

theorem State.modLink_inv {s : State} (hs : s.Inv) (i f) : (s.modLink i f).Inv := hs.congr rfl rfl

theorem State.dropLink_inv {s : State} (hs : s.Inv) (link) : (s.dropLink link).Inv := by
  unfold State.dropLink
  grind [State.msix_inv, State.log_inv, State.modLink_inv]

theorem execFlitReplay_inv {s : State} (hs : s.Inv) (link) : OutInv (execFlitReplay link s) := by
  unfold execFlitReplay
  grind [State.dropLink_inv, State.say_inv, State.bill_inv, State.modLink_inv, outInv_next]

theorem execLinkDown_inv {s : State} (hs : s.Inv) (link) : OutInv (execLinkDown link s) := by
  unfold execLinkDown
  grind [State.dropLink_inv, outInv_next]

theorem managed_inv {s t : State} (hs : s.Inv) (ht : t.Inv) : OutInv (managed s t) := by
  unfold managed
  grind [outInv_next]

theorem execLinkEnable_inv {s : State} (hs : s.Inv) (link) : OutInv (execLinkEnable link s) := by
  unfold execLinkEnable
  grind [managed_inv, State.modLink_inv]

theorem execPauseAndResumeFlits_inv {s : State} (hs : s.Inv) (link pause) :
    OutInv (execPauseAndResumeFlits link pause s) := by
  unfold execPauseAndResumeFlits
  grind [State.modLink_inv, outInv_next]

theorem execPodIndex_inv {s : State} (hs : s.Inv) (x) : OutInv (execPodIndex x s) := by
  unfold execPodIndex
  grind [managed_inv, State.inv_iff]

theorem execPanWrite_inv {s : State} (hs : s.Inv) (func off bytes) : OutInv (execPanWrite func off bytes s) := by
  unfold execPanWrite
  grind [managed_inv, State.physWrite_inv]

theorem execTelemetry_inv {s : State} (hs : s.Inv) : OutInv (execTelemetry s) := by
  unfold execTelemetry
  grind [managed_inv, State.say_inv]

theorem State.deviceReset_inv {s : State} (hs : s.Inv) (b) : (s.deviceReset b).Inv := ⟨hs.mem, rfl⟩

theorem execRecovery_inv {s : State} (hs : s.Inv) (alternate) : OutInv (execRecovery alternate s) := by
  unfold execRecovery
  grind [State.deviceReset_inv, outInv_next]

theorem State.clearDram_inv {s : State} (hs : s.Inv) : s.clearDram.Inv := ⟨State.clearDram_wf s hs.mem, hs.throttle⟩

theorem State.trainLinks_inv {s : State} (hs : s.Inv) : (s.trainLinks).Inv := hs.congr rfl rfl

theorem State.clearCost_inv {s : State} (hs : s.Inv) : (s.clearCost).Inv := by
  unfold State.clearCost
  grind [State.chargeHouse_inv, inv_foldl, inv_foldl_fst]

theorem State.bootDone_inv {s : State} (hs : s.Inv) (k) : (s.bootDone k).Inv := by
  unfold State.bootDone
  grind [State.clearCost_inv, State.clearDram_inv, State.trainLinks_inv]

theorem State.bootSteps_inv {s : State} (hs : s.Inv) (last n i) : (State.bootSteps last n i s).Inv := by
  fun_induction State.bootSteps <;> grind [State.deviceReset_inv, State.bootDone_inv, State.inv_iff]

theorem execReset_inv {s : State} (hs : s.Inv) : OutInv (execReset s) := by
  unfold execReset
  grind [State.bootSteps_inv, outInv_next]

theorem State.benchReset_inv {s : State} (hs : s.Inv) : (s.benchReset).Inv := hs.congr rfl rfl

theorem execHeartbeatMiss_inv {s : State} (hs : s.Inv) : OutInv (execHeartbeatMiss s) := by
  unfold execHeartbeatMiss
  grind [State.log_inv, State.benchReset_inv, State.abortWg_inv, inv_foldl, inv_foldl_fst, outInv_next]

theorem execConfigurationRequest_inv {s : State} (hs : s.Inv) (ywrite) : OutInv (execConfigurationRequest ywrite s) :=
  by
  unfold execConfigurationRequest
  grind [State.say_inv, outInv_next]

theorem execGetMeasurements_inv {s : State} (hs : s.Inv) : OutInv (execGetMeasurements s) := by
  unfold execGetMeasurements
  grind [managed_inv, State.say_inv]

theorem execMsiXUnmask_inv {s : State} (hs : s.Inv) (func vec) : OutInv (execMsiXUnmask func vec s) := by
  unfold execMsiXUnmask
  grind [State.say_inv, State.inv_iff, outInv_next]

/-! ### Every instruction -/

theorem exec_inv {s : State} (hs : s.Inv) (i) : OutInv (exec i s) := by
  unfold exec
  grind [execUdf_inv, execIadd_inv, execIsub_inv, execIadds_inv, execIsubs_inv, execImul_inv, execImulh_inv,
    execImad_inv, execImadw_inv, execIdiv_inv, execIrem_inv, execImin_inv, execImax_inv, execIabs_inv, execIneg_inv,
    execIaddc_inv, execIsubb_inv, execLea_inv, execAnd_inv, execOr_inv, execXor_inv, execAndn_inv, execNot_inv,
    execBool3_inv, execShl_inv, execShr_inv, execSar_inv, execRol_inv, execFshr_inv, execPopc_inv, execClz_inv,
    execCtz_inv, execBrev_inv, execBfx_inv, execBfi_inv, execBsel_inv, execIcmp_inv, execFcmp_inv, execSel_inv,
    execMov_inv, execMovi_inv, execMovs_inv, execRdl_inv, execFclass_inv, execPand_inv, execPor_inv, execPxor_inv,
    execPnot_inv, execP2v_inv, execV2p_inv, execFadd_inv, execFsub_inv, execFmul_inv, execFfma_inv, execFmin_inv,
    execFmax_inv, execFdiv_inv, execFsqrt_inv, execFscale_inv, execFrnd_inv, execFmed3_inv, execCvtfi_inv,
    execCvtif_inv, execCvtff_inv, execCvtne_inv, execPack_inv, execUnpack_inv, execQscale_inv, execTern_inv,
    execRcp_inv, execRsq_inv, execEx2_inv, execLg2_inv, execSin_inv, execCos_inv, execSincos_inv, execTanh_inv,
    execDot2_inv, execDot4_inv, execDot8_inv, execTdot_inv, execGeti_inv, execGetb_inv, execGeta_inv, execGetx_inv,
    execPany_inv, execPall_inv, execPmask_inv, execPeers_inv, execLead_inv, execScan_inv, execVred_inv,
    execRegroup_inv, execRegroupExchange_inv, execBx_inv, execBxc_inv, execBxi_inv, execNext_inv, execCall_inv,
    execCalli_inv, execRet_inv, execExit_inv, execExitn_inv, execYield_inv, execNop_inv, execLd_inv, execSt_inv,
    execLdc_inv, execLds_inv, execSts_inv, execLdt_inv, execAtom_inv, execAtomcas_inv, execRed_inv, execAtoms_inv,
    execAtomcass_inv, execFence_inv, execBind_inv, execUnbind_inv, execCflush_inv, execCinv_inv, execPrf_inv,
    execHint_inv, execIpf_inv, execIsync_inv, execStashmap_inv, execStashwb_inv, execStashdrop_inv, execBinit_inv,
    execArrive_inv, execBexpect_inv, execWait_inv, execWaitSatisfaction_inv, execWaitTimeout_inv,
    execWaitMemoryRead_inv, execPause_inv, execPauseExpiry_inv, execDrain_inv, execGbar_inv, execGbarRelease_inv,
    execCopy_inv, execCopy2d_inv, execRsv_inv, execRls_inv, execCld_inv, execMma_inv, execGmv_inv, execMfence_inv,
    execCopyBeat_inv, execCldRow_inv, execMmaVector_inv, execGmvSegmentStart_inv, execEngineFailureDelivery_inv,
    execEnq_inv, execEnqr_inv, execDeq_inv, execLaunch_inv, execTrap_inv, execRte_inv, execMovsr_inv, execSetsr_inv,
    execMread_inv, execBkpt_inv, execHalt_inv, execTmark_inv, execInstructionCompletion_inv, execDemandFetch_inv,
    execFaultRecordWrite_inv, execFaultRecordRetry_inv, execReplay_inv, execLaunchQueueWatch_inv,
    execCodeObjectLoad_inv, execCodeObjectUnload_inv, execQueueVisit_inv, execCooperativeAdmission_inv,
    execGangReserve_inv, execGangReserveTimeout_inv, execNodeConsumerDispatch_inv, execRetirementWriteback_inv,
    execWorkgroupRetirement_inv, execInvalidationRequest_inv, execForcedPreemption_inv, execEngineDrainTimeout_inv,
    execRestore_inv, execWorkgroupAbort_inv, execCoreFence_inv, execEccError_inv, execSensorSample_inv,
    execIntervalEnd_inv, execGrant_inv, execDebtReport_inv, execStallSample_inv, execLoadSample_inv, execStop_inv,
    execResume_inv, execStep_inv, execBreakpointMatch_inv, execSystemRegisterWrite_inv, execStateExport_inv,
    execRestart_inv, execRelease_inv, execCxlMemRead_inv, execCxlMemWrite_inv, execRemoteRequest_inv,
    execFlitReplay_inv, execLinkDown_inv, execTelemetry_inv, execPanWrite_inv, execPodIndex_inv, execLinkEnable_inv,
    execRecovery_inv, execReset_inv, execHeartbeatMiss_inv, execDebuggerWrite_inv, execConfigurationRequest_inv,
    execGetMeasurements_inv, execPauseAndResumeFlits_inv, execMsiXUnmask_inv]

/-! ### Issue -/

theorem State.illegalWord_inv {s : State} (hs : s.Inv) (key cr) : (s.illegalWord key cr).Inv := by
  unfold State.illegalWord
  grind [raiseAt_inv, State.modCrew_inv]

theorem State.afterIssue_inv {s : State} (hs : s.Inv) (key) : (s.afterIssue key).Inv := by
  unfold State.afterIssue
  grind [State.stepDone_inv]

theorem State.markIssue_inv {s : State} (hs : s.Inv) (key) : (s.markIssue key).Inv := State.modCore_inv hs ..

theorem State.settled_inv {s : State} (hs : s.Inv) (key i) : (s.settled key i).Inv := by
  unfold State.settled
  grind [State.landFlights_inv, State.modCrew_inv]

theorem State.settleIssue_inv {s : State} (hs : s.Inv) (before key) : (s.settleIssue before key).Inv := by
  unfold State.settleIssue
  grind [State.afterIssue_inv, State.markIssue_inv, State.inv_iff]

theorem State.start_inv {s : State} (hs : s.Inv) (key cr) : OutInv (s.start key cr) := by
  unfold State.start
  grind [State.afterIssue_inv, State.markIssue_inv, State.illegalWord_inv, State.settled_inv, exec_inv,
    State.settleIssue_inv, State.inv_iff, outInv_next, outInv_fault]

theorem State.issue_inv {s : State} (hs : s.Inv) (key) : OutInv (s.issue key) := by
  unfold State.issue
  grind [State.start_inv, outInv_next]

theorem State.turn_inv {s : State} (hs : s.Inv) (core q) : OutInv (s.turn core q) := by
  unfold State.turn
  grind [State.issue_inv, outInv_next]

/-! ### The moves of a step -/

theorem State.idleCharges_inv {s : State} (hs : s.Inv) (c) : (s.idleCharges c).Inv := by
  unfold State.idleCharges
  grind [State.charge_inv, State.modCore_inv, inv_foldl, inv_foldl_fst]

theorem State.slotTime_inv {s : State} (hs : s.Inv) : (s.slotTime).Inv := by
  unfold State.slotTime
  grind [State.inv_iff, inv_foldl, inv_foldl_fst]

theorem State.throttledAc_inv {s : State} (hs : s.Inv) : (s.throttledAc).Inv := by
  unfold State.throttledAc
  refine inv_foldl hs fun s c hs => ?_
  split
  · refine inv_foldl hs fun s q hs => ?_
    grind [State.count_inv]
  · exact hs

theorem State.tick_inv {s : State} (hs : s.Inv) : (s.tick).Inv := by
  unfold State.tick
  grind [State.watchContexts_inv, State.inv_iff]

theorem State.ac_inv {s : State} (hs : s.Inv) : (s.ac).Inv := by
  unfold State.ac
  extract_lets out s1 s2 s3 tk s4 s5 due
  have h1 : s1.Inv := State.throttledAc_inv hs
  have h2 : s2.Inv := h1.congr rfl rfl
  have h3 : s3.Inv := State.slotTime_inv (inv_foldl h2 fun s c hs => State.idleCharges_inv hs c)
  have h4 : s4.Inv := by
    unfold s4
    split
    · exact State.tick_inv h3
    · exact h3.congr rfl rfl
  exact (State.undrainAll_inv h4).congr rfl rfl

theorem State.divide_inv {s : State} (hs : s.Inv) (p cs) : (s.divide p cs).Inv := by
  unfold State.divide
  grind [State.inv_iff]

theorem State.issued_inv {s : State} (hs : s.Inv) (key) : (s.issued key).Inv := by
  unfold State.issued
  split
  · exact hs
  · split
    · exact hs
    · split
      · split
        next t e => exact (State.start_inv hs _ _).of_next e
        · exact hs
      · exact hs

theorem State.standing_inv {s : State} (hs : s.Inv) (key) {f : Acc → Instr → State} (hf : ∀ a i, (f a i).Inv) :
    (s.standing key f).Inv := by
  unfold State.standing
  grind

theorem State.copyOut_inv {s : State} (hs : s.Inv) (a e m) : (s.copyOut a e m).Inv := by
  unfold State.copyOut
  grind [State.modCore_inv, State.writeOff_inv]

theorem State.sendOut_inv {s : State} (hs : s.Inv) (key) : (s.sendOut key).Inv := by
  unfold State.sendOut
  grind [State.standing_inv, State.issued_inv, State.copyOut_inv, inv_foldl, inv_foldl_fst]

theorem State.sendFor_inv {s : State} (hs : s.Inv) (core id) : (s.sendFor core id).Inv := by
  unfold State.sendFor
  grind [State.sweep_inv]

theorem State.fillOne_inv {s : State} (hs : s.Inv) (key va) : (s.fillOne key va).Inv := by
  unfold State.fillOne
  grind [State.standing_inv, State.issued_inv, State.translate_inv, State.settled_inv, State.l1Alloc_inv,
    State.fillSectors_inv, State.modCrew_inv, State.modCore_inv, State.tally_inv]

theorem State.event_inv {s : State} (hs : s.Inv) (i) : OutInv (s.event i) := by
  unfold State.event
  grind [State.landFlights_inv, exec_inv, outInv_next]

theorem State.retrain_inv {s : State} (hs : s.Inv) (link) : (s.retrain link).Inv := by
  unfold State.retrain
  grind [State.modLink_inv]

theorem State.maskVector_inv {s : State} (hs : s.Inv) (func vec) : (s.maskVector func vec).Inv := hs.congr rfl rfl

theorem State.act_inv {s : State} (hs : s.Inv) (y) : OutInv (s.act y) := by
  unfold State.act
  grind [State.issue_inv, State.event_inv, State.turn_inv, State.acceptOne_inv, State.lateRead_inv,
    State.sendOut_inv, State.sendFor_inv, State.readEarly_inv, State.fillOne_inv, State.ac_inv, State.divide_inv,
    State.regRead_inv, State.acctRead_inv, State.debugRead_inv, State.cacheRead_inv, State.outsideStore_inv,
    State.maskVector_inv, State.retrain_inv, State.say_inv, State.inv_iff, outInv_next]

theorem State.move_inv {s : State} (hs : s.Inv) (m) : OutInv (s.move m) := by
  unfold State.move
  grind [State.act_inv, State.inv_iff, outInv_next, outInv_fault]

theorem State.advance_inv {s : State} (hs : s.Inv) : OutInv (s.advance) := by
  unfold State.advance
  grind [State.move_inv, State.inv_iff, outInv_next]

/-! ### The step -/

theorem step_inv {s : State} (hs : s.Inv) : OutInv (step s) := State.advance_inv hs ..

/-- Settles O58: every function of the model keeps the invariant, so the step does. -/
theorem stepKeepsInv : Obligations.StepKeepsInv := by
  unfold Obligations.StepKeepsInv
  intro s t hs h
  exact (step_inv hs).of_next h

end Sys2Proof.Machine
end

section
/-! PROOFS. What a step does with the move that it plays: an event, a sequencer's turn, an issue; and the crew that a
sequencer chooses. -/

namespace Sys2Proof.Machine

open Sys2Proof Sys2Proof.Claims

/-! ### The move of a step -/

/-- A move that start-up lets through acts, and comes to nothing where it needs a flit of a paused link. -/
theorem step_eq_unlessBlocked {s : State} {m : Move} {t : List Move} (h : s.agenda = m :: t)
    (hb : 8 ≤ s.boot.next ∨ m.early = true) :
    step s = unlessBlocked { s with agenda := t } (State.act { s with agenda := t, blocked := false } m) := by
  have hearly : (decide (s.boot.next < 8) && !m.early) = false := by
    rcases hb with hb | hb
    · simp [Nat.not_lt.mpr hb]
    · simp [hb]
  rw [step_agenda h, State.move, if_neg (by simp [hearly])]
  show (match State.act { s with agenda := t, blocked := false } m with
    | .next u => _
    | o => o) = _
  cases State.act { s with agenda := t, blocked := false } m <;> rfl

theorem unlessBlocked_next {s u : State} (h : u.blocked = false) : unlessBlocked s (.next u) = .next u := by
  simp [unlessBlocked, h]

/-! ### Events -/

theorem State.event_of_endsFor {s : State} {i : Instr} {c : Nat} (h : endsFor i = some c) :
    s.event i = if ∃ f ∈ (s.landFlights (fun f => f.must && f.core == c && !s.linkHeld f)).flight, f.must = true ∧ f.core = c
      then .next (s.landFlights (fun f => f.must && f.core == c && !s.linkHeld f))
      else exec i (s.landFlights (fun f => f.must && f.core == c && !s.linkHeld f)) := by
  simp [State.event, h]

theorem State.event_of_breakpointMatch (s : State) (key : CrewKey) :
    s.event (.breakpointMatch key) = if s.wouldIssue key = true then exec (.breakpointMatch key) s else .next s := rfl

theorem State.event_eq_exec {s : State} {i : Instr} (h : endsFor i = none)
    (hb : ∀ key, i = .breakpointMatch key → s.wouldIssue key = true) : s.event i = exec i s := by
  unfold State.event
  rw [h]
  dsimp only
  split
  · next key => rw [if_pos (hb key rfl)]
  · rfl

/-! ### Issues -/

theorem State.wouldIssue_iff (s : State) (key : CrewKey) :
    s.wouldIssue key = true ↔ s.seqAllows key = true ∧ s.chosen key.core (key.slot / 16) = some key := by
  simp [State.wouldIssue, seqOf]

theorem State.issue_eq {s : State} {key : CrewKey} {cr : Crew} {wg : Wg} (hc : s.crew? key = some cr)
    (hw : s.wg? key.core cr.wg = some wg) :
    s.issue key = if s.wouldIssue key = true ∧ s.taken key cr wg = false then s.start key cr else .next s := by
  simp [State.issue, hc, hw]

theorem Crew.word_of_decodes {cr : Crew} {bs : List Byte} {i : Instr} {n : Nat} (h : cr.fetchAt = .word bs)
    (hd : decodeBytes bs.length bs = .ok (i, n)) : cr.word = .ok i := by
  simp [Crew.word, h, hd]

theorem Crew.word_of_error {cr : Crew} {bs : List Byte} {e : DecErr} (h : cr.fetchAt = .word bs)
    (hd : decodeBytes bs.length bs = .error e) : cr.word = .bad := by
  simp [Crew.word, h, hd]

section
variable {s u : State} {key : CrewKey} {cr : Crew} {i : Instr}

theorem State.start_next (hw : cr.word = .ok i) (hu : exec i { s.settled key i with cur := some key } = .next u) :
    s.start key cr = .next (u.settleIssue (s.settled key i).fresh key) := by
  simp [State.start, hw, hu]

theorem State.start_fault {f : Fault} (hw : cr.word = .ok i)
    (hf : exec i { s.settled key i with cur := some key } = .fault f) : s.start key cr = .fault f := by
  simp [State.start, hw, hf]

theorem State.start_refused {r : Refusal} (hw : cr.word = .ok i)
    (hr : exec i { s.settled key i with cur := some key } = .refused r) : s.start key cr = .refused r := by
  simp [State.start, hw, hr]
end

theorem State.start_of_bad {s : State} {key : CrewKey} {cr : Crew} (h : cr.word = .bad) :
    s.start key cr = .next (((s.illegalWord key cr).markIssue key).afterIssue key) := by
  rw [State.start, h]

/-! ### Readiness -/

theorem State.settled_of_not_reaches {s : State} {key : CrewKey} {i : Instr} (h : i.reaches = false) :
    s.settled key i = s := by
  simp [State.settled, h]

theorem State.seqAllows_of {s : State} {key : CrewKey} (ht : s.now % 4 < s.throttle.getD (key.core / 192) 4)
    (hi : (s.seq key.core (key.slot / 16)).issued ≠ some s.now) : s.seqAllows key = true := by
  have hthr : s.throttled key.core = false := by simpa [State.throttled] using ht
  simpa [State.seqAllows, hthr, seqOf] using hi

theorem Crew.stallOver_of {cr : Crew} {i : Instr} {now : Nat} (hw : cr.word = .ok i)
    (h : ∀ n, cr.lastIssue = some n → n + max 1 ((i.hdr?.map (fun h => h.sd.toNat)).getD 0) ≤ now) :
    cr.stallOver now = true := by
  unfold Crew.stallOver
  rw [hw]
  split
  · next n j hn hj =>
    cases hj
    simp [h n hn]
  · next n _ hno => exact absurd rfl (hno i)
  · rfl

theorem Crew.flagsAllow_of {cr : Crew} {i : Instr} (h : ∀ h, i.hdr? = some h →
      (∀ k < 12, h.wait.getLsbD k = true → (cr.flag k).cnt = 0) ∧ ∀ f, h.sf = some f → (cr.flag f.val).cnt < 15) :
    cr.flagsAllow i = true := by
  unfold Crew.flagsAllow
  cases hh : i.hdr? with
  | none => simp
  | some hd =>
    obtain ⟨hwait, hsf⟩ := h hd hh
    have hall : (List.range 12).all (fun k => !hd.wait.getLsbD k || (cr.flag k).cnt == 0) = true := by
      rw [List.all_eq_true]
      intro k hk
      cases hb : hd.wait.getLsbD k with
      | false => rfl
      | true => simp [hwait k (List.mem_range.mp hk) hb]
    cases hf : hd.sf with
    | none => simp only [hall, hf, Bool.and_true, Bool.or_true]
    | some f => simp only [hall, hf, hsf f hf, decide_true, Bool.and_true, Bool.or_true]

theorem State.starts_of {s : State} {key : CrewKey} {cr : Crew} {i : Instr} (hw : cr.word = .ok i)
    (hm : i.mayHold = false) (hr : i.reaches = false ∨ s.linksHold = false) : s.starts key cr = true := by
  have hno : (i.mayHold || (i.reaches && s.linksHold)) = false := by rcases hr with hr | hr <;> simp [hm, hr]
  rw [State.starts, hw]
  simp [hno]

/-! ### The choice of a sequencer -/

theorem beforeKey_iff (a b : Nat × Nat × Nat) : beforeKey a b = true ↔
    a.1 < b.1 ∨ (a.1 = b.1 ∧ (a.2.1 < b.2.1 ∨ (a.2.1 = b.2.1 ∧ a.2.2 < b.2.2))) := by
  simp [beforeKey]

/-- The fold by which a sequencer chooses gives a member of the list, and none of the list comes before it. -/
theorem foldl_beforeKey_least (k : Nat × Nat × Nat) (l : List (Nat × Nat × Nat)) :
    let r := l.foldl (fun a b => if beforeKey b a then b else a) k
    r ∈ k :: l ∧ ∀ e ∈ k :: l, beforeKey e r = false := by
  induction l generalizing k with
  | nil => simp [beforeKey]
  | cons b l ih =>
    have hr := ih (if beforeKey b k then b else k)
    dsimp only [List.foldl_cons] at hr ⊢
    generalize l.foldl (fun a b => if beforeKey b a then b else a) (if beforeKey b k then b else k) = r at hr ⊢
    obtain ⟨hmem, hleast⟩ := hr
    have hfirst := hleast _ (List.mem_cons_self ..)
    constructor
    · rcases List.mem_cons.mp hmem with h | h
      · rw [h]
        split <;> simp
      · simp [h]
    · intro e he
      rcases List.mem_cons.mp he with rfl | he
      · split at hfirst
        · next hb => grind [beforeKey_iff]
        · exact hfirst
      · rcases List.mem_cons.mp he with rfl | he
        · split at hfirst
          · exact hfirst
          · next hb => grind [beforeKey_iff]
        · exact hleast e (List.mem_cons_of_mem _ he)

/-- The crews of a sequencer that it may choose, by their places in the choice. -/
def State.choices (s : State) (core q : Nat) : List (Nat × Nat × Nat) :=
  ((s.core core).slotsOf q).filterMap (fun sl =>
    match s.crew? ⟨core, sl⟩ with
    | some cr =>
      match s.wg? core cr.wg with
      | some wg => if s.ready ⟨core, sl⟩ cr wg then some (choiceKey cr wg sl) else none
      | none => none
    | none => none)

theorem State.chosen_eq_choices (s : State) (core q : Nat) : s.chosen core q = match s.choices core q with
    | [] => none
    | k :: t => some ⟨core, (t.foldl (fun a b => if beforeKey b a then b else a) k).2.2⟩ := rfl

theorem mem_of_kfind {α : Type} {k : Nat} {v : α} {m : KMap α} (h : kfind k m = some v) : (k, v) ∈ m := by
  induction m with
  | nil => cases h
  | cons e m ih =>
    rw [kfind] at h
    split at h
    · next hk =>
      cases h
      simp [← hk]
    · exact List.mem_cons_of_mem _ (ih h)

theorem mem_kkeys_of_kfind {α : Type} {k : Nat} {v : α} {m : KMap α} (h : kfind k m = some v) : k ∈ kkeys m :=
  List.mem_map_of_mem (mem_of_kfind h)

theorem State.mem_choices {s : State} {core q : Nat} {e : Nat × Nat × Nat} : e ∈ s.choices core q ↔
    ∃ sl cr wg, sl / 16 = q ∧ s.crew? ⟨core, sl⟩ = some cr ∧ s.wg? core cr.wg = some wg ∧
      s.ready ⟨core, sl⟩ cr wg = true ∧ choiceKey cr wg sl = e := by
  simp only [State.choices, List.mem_filterMap, Core.slotsOf, List.mem_filter, seqOf, beq_iff_eq]
  constructor
  · rintro ⟨sl, ⟨-, hq⟩, h⟩
    split at h
    · next cr hc =>
      split at h
      · next wg hw =>
        split at h
        · next hr => exact ⟨sl, cr, wg, hq, hc, hw, hr, Option.some.inj h⟩
        · cases h
      · cases h
    · cases h
  · rintro ⟨sl, cr, wg, hq, hc, hw, hr, rfl⟩
    exact ⟨sl, ⟨mem_kkeys_of_kfind hc, hq⟩, by simp [hc, hw, hr]⟩

/-- The chosen crew is one that may be chosen, and none that may be comes before it. -/
theorem State.chosen_least {s : State} {core q : Nat} {key : CrewKey} (h : s.chosen core q = some key) :
    ∃ e ∈ s.choices core q, key = ⟨core, e.2.2⟩ ∧ ∀ f ∈ s.choices core q, beforeKey f e = false := by
  rw [State.chosen_eq_choices] at h
  split at h
  · cases h
  · next k t hl =>
    obtain ⟨hmem, hleast⟩ := foldl_beforeKey_least k t
    exact ⟨_, hl ▸ hmem, (Option.some.inj h).symm, hl ▸ hleast⟩

theorem choiceKey_eq (cr : Crew) (wg : Wg) (sl : Nat) : choiceKey cr wg sl =
    (if cr.pause ≠ 0 then 4 else 3 - min 3 wg.cls, (cr.lastIssue.map (· + 1)).getD 0, sl) := by
  unfold choiceKey
  cases cr.lastIssue <;> rfl

/-- Settles O55: each part is what `step`, `State.event`, `State.issue` or `State.chosen` says of its case. -/
theorem stepRunsDecoded : Obligations.StepRunsDecoded := by
  unfold Obligations.StepRunsDecoded
  refine ⟨fun s t m hm hb => ?_, fun s key i h => State.settled_of_not_reaches h,
    fun s key ht hi => State.seqAllows_of ht hi, ?_, fun s key cr wg i hw hm hr => State.starts_of hw hm hr, ?_⟩
  · intro s0 ends
    have hstep : step s = ends (s0.act m) := step_eq_unlessBlocked hm hb
    have hnext : ends (.next s0) = .next s0 := unlessBlocked_next rfl
    refine ⟨?_, ?_, ?_⟩
    · rintro i rfl
      replace hstep : step s = ends (s0.event i) := hstep
      refine ⟨fun c hc => ?_, fun hn => ⟨?_, fun hw => ?_⟩⟩
      · rw [State.event_of_endsFor hc] at hstep
        intro u held
        exact ⟨fun hh => by rw [hstep, if_neg hh], fun hh => by rw [hstep, if_pos hh]⟩
      · rintro key rfl hw
        rw [hstep, State.event_of_breakpointMatch, if_neg (by simp [hw]), hnext]
      · rw [hstep, State.event_eq_exec hn hw]
    · rintro core q rfl
      have hboot : 8 ≤ s.boot.next := by simpa [Move.early] using hb
      replace hstep : step s = ends (s0.turn core q) := hstep
      rw [hstep, State.turn]
      cases hq : s0.chosen core q with
      | none => exact hnext
      | some key => exact (step_eq_unlessBlocked (s := { s with agenda := .issue key :: t }) rfl (.inl hboot)).symm
    · rintro key cr wg rfl hc hw
      replace hstep : step s = ends (s0.issue key) := hstep
      rw [State.issue_eq (s := s0) hc hw] at hstep
      refine ⟨fun hno => ?_, fun hs hch ht bs hbs => ?_⟩
      · rw [hstep, if_neg, hnext]
        rintro ⟨hwould, ht⟩
        obtain ⟨hs, hch⟩ := (s0.wouldIssue_iff key).mp hwould
        rcases hno with h | h | h
        · exact Bool.false_ne_true (h.symm.trans hs)
        · exact h hch
        · exact Bool.false_ne_true (ht.symm.trans h)
      · rw [if_pos ⟨(s0.wouldIssue_iff key).mpr ⟨hs, hch⟩, ht⟩] at hstep
        refine ⟨fun i n hd => ?_, fun e hd => ?_⟩
        · have hword := Crew.word_of_decodes hbs hd
          refine ⟨fun u hu => ?_, fun f hf => ?_, fun r hr => ?_⟩
          · rw [hstep, State.start_next hword hu]
          · rw [hstep, State.start_fault hword hf]
            rfl
          · rw [hstep, State.start_refused hword hr]
            rfl
        · rw [hstep, State.start_of_bad (Crew.word_of_error hbs hd)]
  · intro s key cr wg i hserve hready hpark hfin hblock hstop hstep habort hsave hword hstall hflags
    simp [State.mayIssue, State.mayStand, hserve, hready, hpark, hfin, hblock, hstop, hstep, habort, hsave, hword,
      Crew.stallOver_of hword hstall, Crew.flagsAllow_of hflags]
  · intro s core q key h
    obtain ⟨e, he, rfl, hleast⟩ := State.chosen_least h
    obtain ⟨sl, cr, wg, hq, hc, hw, hr, rfl⟩ := State.mem_choices.mp he
    have hr' : s.mayIssue ⟨core, sl⟩ cr wg = true ∧ s.starts ⟨core, sl⟩ cr = true := by simpa [State.ready] using hr
    refine ⟨rfl, hq, cr, wg, hc, hw, hr'.1, hr'.2, ?_⟩
    intro sl' cr' wg' hq' hc' hw' hm' hs' rank last
    have hmem := State.mem_choices.mpr ⟨sl', cr', wg', hq', hc', hw', by simp [State.ready, hm', hs'], rfl⟩
    have hle := hleast _ hmem
    rw [← Bool.not_eq_true, beforeKey_iff, choiceKey_eq, choiceKey_eq] at hle
    change ¬ (rank cr' wg' < rank cr wg ∨ (rank cr' wg' = rank cr wg ∧
      (last cr' < last cr ∨ (last cr' = last cr ∧ sl' < sl)))) at hle
    show rank cr wg < rank cr' wg' ∨ (rank cr wg = rank cr' wg' ∧
      (last cr < last cr' ∨ (last cr = last cr' ∧ sl ≤ sl')))
    omega

end Sys2Proof.Machine
end

section
/-! PROOFS. The refutation of the statement about issue and retirement: the operand check of ENQ and the register groups of R82
part where a kernel has more V registers than the part, a size that the statement does not rule out. -/

namespace Sys2Proof.Machine

open Sys2Proof Sys2Proof.Claims

/-- An issue whose guard, the negation of P7, no thread meets. -/
def noneTakes : Hdr := { form := .w64, bt := 31, sd := 0, uni := false, wait := 0, sf := none, pg := 7, pn := true }

/-- An ENQ of 16 words from V191 on. -/
def enqPastEnd : Instr := .enq noneTakes 15 0 191

/-- The crew that an instruction is placed for is current, and its kernel has 195 V registers. -/
def wideKernelState : State :=
  { (State.reset.placeBlock []).setWg 0 0 { placedWg with kernel := { placedKernel with vregs := 195 } } with cur := some ⟨0, 0⟩ }

/-- Whether the crew of an outcome's state is in its handler. -/
def handles (o : Out) : Option Bool :=
  match o with
  | .next t => (t.crew? ⟨0, 0⟩).map Crew.hmode
  | _ => none

/-- ENQ's own check finds V191 to V206 past the kernel's registers, and raises an exception. -/
theorem handles_enqPastEnd : handles (exec enqPastEnd wideKernelState) = some true := by decide +kernel

/-- The issue begins, no thread takes part, and the word has no fault by R82's groups. -/
theorem wideKernelState_begins : ∃ x s1, wideKernelState.begin noneTakes = some (x, s1) ∧ x.idle = true ∧
    x.kernel.numbersOk enqPastEnd = true ∧ x.kernel.fieldsOk x.crew.hmode enqPastEnd = true ∧
    handles (.next (retireIdle x s1)) = some false :=
  ⟨_, _, rfl, by decide +kernel, by decide +kernel, by decide +kernel, by decide +kernel⟩

/-- Refutes O60: under a kernel of 195 V registers the registers that an ENQ of 16 words from V191 names pass R82's groups (V191,
and the group that stands for the rest, which such a kernel has), yet ENQ itself refuses them; so an ENQ in which no thread takes
part raises an exception, where the statement lets it only move on. -/
theorem not_issueAndRetire : ¬ Obligations.IssueAndRetire := by
  unfold Obligations.IssueAndRetire
  intro h
  obtain ⟨x, s1, hb, hidle, hnums, hfields, hretire⟩ := wideKernelState_begins
  obtain ⟨-, hexec, -⟩ := h noneTakes wideKernelState x s1 hb
  have hnext := hexec hidle enqPastEnd (by decide) (by decide) nofun nofun hnums hfields
  have heq := handles_enqPastEnd
  rw [hnext, if_neg (by decide), hretire] at heq
  exact absurd heq (by decide)

end Sys2Proof.Machine
end

section
/-! PROOFS. What the traffic of memory, the meters and the Bench's reports leave of the cores and of the Bench's lists: one
lemma `f_quiet` for each such function f of the model. -/

namespace Sys2Proof.Machine

open Sys2Proof

set_option Elab.async false

/-! ### A core whose lines are only cleaned or removed, and whose meters move -/

/-- A workgroup without its meters. -/
def Wg.body (x : Wg) : Wg := { x with cum := 0, frac := 0, flushed := 0 }

/-- From a to b a core keeps its crews, commands, macros, state caches and instruction cache, and of each workgroup what pr
sees of it; no line and no window is new, and no clean line is dirty. -/
structure Core.Quiet {β : Type} (pr : Wg → β) (a b : Core) : Prop where
  fenced : b.fenced = a.fenced
  seqs : b.seqs = a.seqs
  crews : b.crews = a.crews
  icache : b.icache = a.icache
  cim : b.cim = a.cim
  grainer : b.grainer = a.grainer
  cmds : b.cmds = a.cmds
  wgs : ∀ w, (kfind w b.wgs).map pr = (kfind w a.wgs).map pr
  windows : ∀ e ∈ b.windows, ∃ d ∈ a.windows, d.2.wg = e.2.wg
  lines : ∀ lva, ∀ l ∈ b.l1Set lva, ∃ m ∈ a.l1Set lva, m.ctx = l.ctx ∧ m.lva = l.lva ∧ (m.dirty = 0 → l.dirty = 0)
  noLines : a.l1 = [] → b.l1 = []

section
variable {β γ : Type} {pr : Wg → β} {a b c : Core}

theorem Core.Quiet.refl (pr : Wg → β) (a : Core) : Core.Quiet pr a a :=
  ⟨rfl, rfl, rfl, rfl, rfl, rfl, rfl, fun _ => rfl, fun e h => ⟨e, h, rfl⟩, fun _ l h => ⟨l, h, rfl, rfl, id⟩, id⟩

theorem Core.Quiet.trans (h : Core.Quiet pr a b) (k : Core.Quiet pr b c) : Core.Quiet pr a c where
  fenced := k.fenced.trans h.fenced
  seqs := k.seqs.trans h.seqs
  crews := k.crews.trans h.crews
  icache := k.icache.trans h.icache
  cim := k.cim.trans h.cim
  grainer := k.grainer.trans h.grainer
  cmds := k.cmds.trans h.cmds
  wgs w := (k.wgs w).trans (h.wgs w)
  windows e he := by
    obtain ⟨d, hd, hde⟩ := k.windows e he
    obtain ⟨d', hd', hde'⟩ := h.windows d hd
    exact ⟨d', hd', hde'.trans hde⟩
  lines v l hl := by
    obtain ⟨m, hm, hc, hv, hd⟩ := k.lines v l hl
    obtain ⟨n, hn, hc', hv', hd'⟩ := h.lines v m hm
    exact ⟨n, hn, hc'.trans hc, hv'.trans hv, hd ∘ hd'⟩
  noLines e := k.noLines (h.noLines e)

/-- What pr sees of a workgroup decides what a coarser view sees. -/
theorem Core.Quiet.mono (h : Core.Quiet pr a b) {f : Wg → γ} {g : β → γ} (hg : ∀ x, g (pr x) = f x) : Core.Quiet f a b where
  fenced := h.fenced
  seqs := h.seqs
  crews := h.crews
  icache := h.icache
  cim := h.cim
  grainer := h.grainer
  cmds := h.cmds
  wgs w := by
    have hw := congrArg (Option.map g) (h.wgs w)
    simpa only [Option.map_map, Function.comp_def, hg] using hw
  windows := h.windows
  lines := h.lines
  noLines := h.noLines

/-- Only the lines of the first level change, and they do as a quiet core's lines may. -/
theorem Core.Quiet.of_l1 (a : Core) (l1 : KMap (List Line))
    (hl : ∀ lva, ∀ l ∈ kget [] (lva % 128) l1, ∃ m ∈ a.l1Set lva, m.ctx = l.ctx ∧ m.lva = l.lva ∧ (m.dirty = 0 → l.dirty = 0))
    (hn : a.l1 = [] → l1 = []) : Core.Quiet pr a { a with l1 := l1 } :=
  ⟨rfl, rfl, rfl, rfl, rfl, rfl, rfl, fun _ => rfl, fun e h => ⟨e, h, rfl⟩, hl, hn⟩

theorem Core.Quiet.of_windows (a : Core) (ws : KMap Window) (hw : ∀ e ∈ ws, ∃ d ∈ a.windows, d.2.wg = e.2.wg) :
    Core.Quiet pr a { a with windows := ws } :=
  ⟨rfl, rfl, rfl, rfl, rfl, rfl, rfl, fun _ => rfl, hw, fun _ l h => ⟨l, h, rfl, rfl, id⟩, id⟩

theorem Core.Quiet.of_wgs (a : Core) (ws : KMap Wg) (hw : ∀ w, (kfind w ws).map pr = (kfind w a.wgs).map pr) :
    Core.Quiet pr a { a with wgs := ws } :=
  ⟨rfl, rfl, rfl, rfl, rfl, rfl, rfl, hw, fun e h => ⟨e, h, rfl⟩, fun _ l h => ⟨l, h, rfl, rfl, id⟩, id⟩

theorem Core.Quiet.of_counters (a : Core) (g : KMap GrantRec) (p o : List Nat) (q : List W32) :
    Core.Quiet pr a { a with grants := g, pmcnt := p, pmsel := q, ovf := o } :=
  ⟨rfl, rfl, rfl, rfl, rfl, rfl, rfl, fun _ => rfl, fun e h => ⟨e, h, rfl⟩, fun _ l h => ⟨l, h, rfl, rfl, id⟩, id⟩

theorem Core.Quiet.l1Find_none (h : Core.Quiet pr a b) {ctx lva : Nat} (hn : a.l1Find ctx lva = none) :
    b.l1Find ctx lva = none := by
  simp only [Core.l1Find, List.find?_eq_none] at hn ⊢
  intro l hl
  obtain ⟨m, hm, hc, hv, -⟩ := h.lines lva l hl
  simpa [← hc, ← hv] using hn m hm

theorem kget_nil_kset_nil (i : Nat) (ls : List Line) (h : ls = []) : kset [] i ls ([] : KMap (List Line)) = [] := by
  subst h
  rfl

theorem l1Del_quiet (pr : Wg → β) (a : Core) (ctx lva : Nat) : Core.Quiet pr a (a.l1Del ctx lva) := by
  refine .of_l1 a _ (fun v l hl => ?_) fun h => ?_
  · rw [kget_kset] at hl
    split at hl
    · next e => exact ⟨l, by simpa only [Core.l1Set, e] using (List.mem_filter.mp hl).1, rfl, rfl, id⟩
    · exact ⟨l, hl, rfl, rfl, id⟩
  · rw [h]
    exact kget_nil_kset_nil _ _ (by simp [Core.l1Set, h, kget, kfind])

theorem l1Mod_quiet (pr : Wg → β) (a : Core) (ctx lva : Nat) {f : Line → Line}
    (hf : ∀ l, (f l).ctx = l.ctx ∧ (f l).lva = l.lva ∧ (l.dirty = 0 → (f l).dirty = 0)) :
    Core.Quiet pr a (a.l1Mod ctx lva f) := by
  refine .of_l1 a _ (fun v l hl => ?_) fun h => ?_
  · rw [kget_kset] at hl
    split at hl
    · next e =>
      obtain ⟨m, hm, rfl⟩ := List.mem_map.mp hl
      obtain ⟨hc, hv, hd⟩ := hf m
      refine ⟨m, by simpa only [Core.l1Set, e] using hm, ?_⟩
      split
      · exact ⟨hc.symm, hv.symm, hd⟩
      · exact ⟨rfl, rfl, id⟩
    · exact ⟨l, hl, rfl, rfl, id⟩
  · rw [h]
    exact kget_nil_kset_nil _ _ (by simp [Core.l1Set, h, kget, kfind])

theorem cleanAll_quiet (pr : Wg → β) (a : Core) (ctx lva : Nat) : Core.Quiet pr a (a.l1Mod ctx lva Line.cleanAll) :=
  l1Mod_quiet pr a ctx lva fun l => ⟨rfl, rfl, fun h => by simp [Line.cleanAll, Line.clean, h]⟩

/-- A window whose lines change stays the window of its workgroup. -/
theorem Core.Quiet.of_kmod (a : Core) (wi : Nat) (f : Window → Window) (hf : ∀ w, (f w).wg = w.wg) :
    Core.Quiet pr a { a with windows := kmod wi f a.windows } := by
  refine .of_windows a _ fun e he => ?_
  unfold kmod at he
  split at he
  · next w hw =>
    obtain rfl | he := mem_kput he
    · exact ⟨_, mem_of_kfind hw, (hf w).symm⟩
    · exact ⟨e, he, rfl⟩
  · exact ⟨e, he, rfl⟩

theorem stashDel_quiet (pr : Wg → β) (a : Core) (wi i : Nat) : Core.Quiet pr a (a.stashDel wi i) :=
  .of_kmod a wi _ fun _ => rfl

theorem stashMod_quiet (pr : Wg → β) (a : Core) (wi i : Nat) (f : Line → Line) : Core.Quiet pr a (a.stashMod wi i f) :=
  .of_kmod a wi _ fun _ => rfl

/-- A workgroup that is put where one stood, with the same view. -/
theorem kput_wg_quiet {w : Nat} {x y : Wg} (hx : kfind w a.wgs = some x) (hy : pr y = pr x) :
    Core.Quiet pr a { a with wgs := kput w y a.wgs } := by
  refine .of_wgs a _ fun v => ?_
  rw [kfind_kput]
  split
  · next e => simp [e, hx, hy]
  · rfl
end

/-! ### A state in which every core is quiet and the Bench's lists stand -/

/-- Each listed core's state caches are those of a core listed before, or as at reset. -/
def SeqsFrom (s0 s : KMap Core) : Prop :=
  ∀ e ∈ s, e.2.seqs = Core.zero.seqs ∨ ∃ d ∈ s0, d.2.seqs = e.2.seqs

/-- From s0 to s every core is quiet but for its workgroups' meters, and the launches, the queues' own states, the saved
workgroups, the code objects and the failed cores stay. -/
structure State.Quiet (s0 s : State) : Prop where
  cores : ∀ c, Core.Quiet Wg.body (s0.core c) (s.core c)
  seqs : SeqsFrom s0.cores s.cores
  launches : s.launches = s0.launches
  queues : s.queues = s0.queues
  saved : s.saved = s0.saved
  nextSaved : s.nextSaved = s0.nextSaved
  objects : s.objects = s0.objects
  failed : s.failed = s0.failed

theorem State.Quiet.refl (s : State) : s.Quiet s :=
  ⟨fun _ => .refl _ _, fun e h => .inr ⟨e, h, rfl⟩, rfl, rfl, rfl, rfl, rfl, rfl⟩

theorem SeqsFrom.trans {a b c : KMap Core} (h : SeqsFrom a b) (k : SeqsFrom b c) : SeqsFrom a c := by
  intro e he
  obtain hz | ⟨d, hd, hde⟩ := k e he
  · exact .inl hz
  · simpa only [hde] using h d hd

theorem State.Quiet.trans {s t u : State} (h : s.Quiet t) (k : t.Quiet u) : s.Quiet u where
  cores c := (h.cores c).trans (k.cores c)
  seqs := h.seqs.trans k.seqs
  launches := k.launches.trans h.launches
  queues := k.queues.trans h.queues
  saved := k.saved.trans h.saved
  nextSaved := k.nextSaved.trans h.nextSaved
  objects := k.objects.trans h.objects
  failed := k.failed.trans h.failed

theorem State.Quiet.congr {s0 s t : State} (h : s0.Quiet s) (hc : t.cores = s.cores) (hl : t.launches = s.launches)
    (hq : t.queues = s.queues) (hs : t.saved = s.saved) (hn : t.nextSaved = s.nextSaved) (ho : t.objects = s.objects)
    (hf : t.failed = s.failed) : s0.Quiet t where
  cores c := by
    have hcore : t.core c = s.core c := by simp only [State.core, hc]
    simpa only [hcore] using h.cores c
  seqs := hc ▸ h.seqs
  launches := hl.trans h.launches
  queues := hq.trans h.queues
  saved := hs.trans h.saved
  nextSaved := hn.trans h.nextSaved
  objects := ho.trans h.objects
  failed := hf.trans h.failed

/-- The fields that a quiet run is about. -/
def QuietFields (s0 : State) (cores : KMap Core) (launches : KMap Launch) (queues : KMap QState) (saved : KMap Saved)
    (nextSaved : Nat) (objects : List CodeObj) (failed : List Nat) : Prop :=
  (∀ c, Core.Quiet Wg.body (s0.core c) ((kfind c cores).getD Core.zero)) ∧ SeqsFrom s0.cores cores ∧
    launches = s0.launches ∧ queues = s0.queues ∧ saved = s0.saved ∧ nextSaved = s0.nextSaved ∧ objects = s0.objects ∧
    failed = s0.failed

theorem State.quiet_iff {s0 s : State} :
    s0.Quiet s ↔ QuietFields s0 s.cores s.launches s.queues s.saved s.nextSaved s.objects s.failed := by
  constructor
  · rintro ⟨hc, hs, hl, hq, hv, hn, ho, hf⟩
    exact ⟨hc, hs, hl, hq, hv, hn, ho, hf⟩
  · rintro ⟨hc, hs, hl, hq, hv, hn, ho, hf⟩
    exact ⟨hc, hs, hl, hq, hv, hn, ho, hf⟩

theorem quiet_fst {β : Type} {s0 : State} {p : State × β} {t : State} {b : β} (h : s0.Quiet p.1) (e : p = (t, b)) :
    s0.Quiet t := by
  subst e
  exact h

theorem quiet_foldl {α : Type} {s0 s : State} {l : List α} {f : State → α → State} (h : s0.Quiet s)
    (hf : ∀ s a, s0.Quiet s → s0.Quiet (f s a)) : s0.Quiet (l.foldl f s) :=
  List.foldlRecOn l f h fun s hs a _ => hf s a hs

theorem quiet_foldl_fst {α β : Type} {s0 : State} {s : State × β} {l : List α} {f : State × β → α → State × β}
    (h : s0.Quiet s.1) (hf : ∀ s a, s0.Quiet s.1 → s0.Quiet (f s a).1) : s0.Quiet (l.foldl f s).1 :=
  List.foldlRecOn (motive := fun r => s0.Quiet r.1) l f h fun s hs a _ => hf s a hs

/-- A core that is listed is found under its number, or is as at reset. -/
theorem seqs_core (s : State) (c : Nat) : (s.core c).seqs = Core.zero.seqs ∨ ∃ d ∈ s.cores, d.2.seqs = (s.core c).seqs := by
  unfold State.core
  cases h : kfind c s.cores with
  | none => exact .inl rfl
  | some x => exact .inr ⟨_, mem_of_kfind h, rfl⟩

theorem seqsFrom_modCore (s : State) (c : Nat) {f : Core → Core} (hf : (f (s.core c)).seqs = (s.core c).seqs) :
    SeqsFrom s.cores (s.modCore c f).cores := by
  intro e he
  obtain rfl | he := mem_kput he
  · simpa only [hf] using seqs_core s c
  · exact .inr ⟨e, he, rfl⟩

theorem State.modCore_quiet {s0 s : State} (hs : s0.Quiet s) (c : Nat) {f : Core → Core}
    (hf : Core.Quiet Wg.body (s.core c) (f (s.core c))) : s0.Quiet (s.modCore c f) where
  cores d := by
    rw [State.core_modCore]
    split
    · next e =>
      subst e
      exact (hs.cores d).trans hf
    · exact hs.cores d
  seqs := hs.seqs.trans (seqsFrom_modCore s c hf.seqs)
  launches := hs.launches
  queues := hs.queues
  saved := hs.saved
  nextSaved := hs.nextSaved
  objects := hs.objects
  failed := hs.failed

theorem State.setWg_quiet {s0 s : State} (hs : s0.Quiet s) {c w : Nat} {x y : Wg} (hx : s.wg? c w = some x)
    (hy : y.body = x.body) : s0.Quiet (s.setWg c w y) :=
  State.modCore_quiet hs c (kput_wg_quiet hx hy)

theorem State.store_quiet {s0 s : State} (hs : s0.Quiet s) (key ws bad) : s0.Quiet (s.store key ws bad) :=
  hs.congr (by simp) (by simp) (by simp) (by simp) (by simp) (by simp) (by simp)

/-! ### One lemma for each function -/

theorem State.say_quiet {s0 s : State} (hs : s0.Quiet s) (r) : s0.Quiet (s.say r) :=
  hs.congr rfl rfl rfl rfl rfl rfl rfl

theorem State.addDyn_quiet {s0 s : State} (hs : s0.Quiet s) (p e) : s0.Quiet (s.addDyn p e) :=
  hs.congr rfl rfl rfl rfl rfl rfl rfl

theorem State.charge_quiet {s0 s : State} (hs : s0.Quiet s) (c w p cls n) : s0.Quiet (s.charge c w p cls n) := by
  simp only [State.charge]
  split
  · exact State.addDyn_quiet hs ..
  · next x hx =>
    have h := State.addDyn_quiet (State.setWg_quiet hs (y := { x with
      cum := x.cum + (x.frac + n * s.energy p cls) / 1000, frac := (x.frac + n * s.energy p cls) % 1000 }) hx rfl) p
      (n * s.energy p cls)
    split
    · exact h
    · exact State.modCore_quiet h _ (.of_counters ..)

theorem State.chargeLate_quiet {s0 s : State} (hs : s0.Quiet s) (ctx p cls n) : s0.Quiet (s.chargeLate ctx p cls n) :=
  by
  unfold State.chargeLate
  grind [State.addDyn_quiet, State.quiet_iff]

theorem State.chargeHouse_quiet {s0 s : State} (hs : s0.Quiet s) (p cls n) : s0.Quiet (s.chargeHouse p cls n) := by
  unfold State.chargeHouse
  grind [State.addDyn_quiet, State.quiet_iff]

theorem State.count_quiet {s0 s : State} (hs : s0.Quiet s) (c ctx conf ev n) : s0.Quiet (s.count c ctx conf ev n) :=
  State.modCore_quiet hs _ (.of_counters ..)

theorem State.bill_quiet {s0 s : State} (hs : s0.Quiet s) (p pl cls n) : s0.Quiet (s.bill p pl cls n) := by
  unfold State.bill
  grind [State.charge_quiet, State.chargeLate_quiet, State.chargeHouse_quiet]

theorem State.tally_quiet {s0 s : State} (hs : s0.Quiet s) (a ev) : s0.Quiet (s.tally a ev) := by
  unfold State.tally
  grind [State.count_quiet]

theorem State.hops_quiet {s0 s : State} (hs : s0.Quiet s) (p path n) : s0.Quiet (s.hops p path n) := by
  unfold State.hops
  grind [State.bill_quiet, quiet_foldl, quiet_foldl_fst]

theorem State.beats_quiet {s0 s : State} (hs : s0.Quiet s) (p a b n) : s0.Quiet (s.beats p a b n) := by
  unfold State.beats
  grind [State.hops_quiet, State.bill_quiet]

theorem State.beatsOut_quiet {s0 s : State} (hs : s0.Quiet s) (p a n) : s0.Quiet (s.beatsOut p a n) := by
  unfold State.beatsOut
  grind [State.bill_quiet, State.hops_quiet]

theorem State.beatsIn_quiet {s0 s : State} (hs : s0.Quiet s) (p b n) : s0.Quiet (s.beatsIn p b n) := by
  unfold State.beatsIn
  grind [State.bill_quiet, State.hops_quiet]

theorem State.flit_quiet {s0 s : State} (hs : s0.Quiet s) (p ln) : s0.Quiet (s.flit p ln) := by
  unfold State.flit
  grind [State.bill_quiet, State.quiet_iff]

theorem State.setOwner_quiet {s0 s : State} (hs : s0.Quiet s) (ln o) : s0.Quiet (s.setOwner ln o) :=
  hs.congr rfl rfl rfl rfl rfl rfl rfl

theorem State.l2Use_quiet {s0 s : State} (hs : s0.Quiet s) (a ln write full segs at_) :
    s0.Quiet (s.l2Use a ln write full segs at_) := by
  have hb := State.bill_quiet hs a.payer (.core (ln * 128 % 2 ^ 42 / 2 ^ 29)) 7 segs
  have ht : s0.Quiet (if (s.bill a.payer (.core (ln * 128 % 2 ^ 42 / 2 ^ 29)) 7 segs).l2Has ln || (write && full) then
      s.bill a.payer (.core (ln * 128 % 2 ^ 42 / 2 ^ 29)) 7 segs
    else ((s.bill a.payer (.core (ln * 128 % 2 ^ 42 / 2 ^ 29)) 7 segs).bill a.payer
      (.core (ln * 128 % 2 ^ 42 / 2 ^ 29)) 8 4).tally a 8) := by
    split
    · exact hb
    · exact State.tally_quiet (State.bill_quiet hb ..) ..
  exact ht.congr rfl rfl rfl rfl rfl rfl rfl

theorem State.travel_quiet {s0 s : State} (hs : s0.Quiet s) (a ln write full segs at_) :
    s0.Quiet (s.travel a ln write full segs at_) := by
  unfold State.travel
  grind [State.l2Use_quiet, State.beats_quiet, State.flit_quiet, State.beatsOut_quiet, State.beatsIn_quiet,
    State.bill_quiet]

theorem State.acceptRaw_quiet {s0 s : State} (hs : s0.Quiet s) (a at_ ws bad whole) :
    s0.Quiet (s.acceptRaw a at_ ws bad whole) := by
  unfold State.acceptRaw
  grind [State.store_quiet, State.travel_quiet]

theorem State.sendDirty_quiet {s0 s : State} (hs : s0.Quiet s) (a l) : s0.Quiet (s.sendDirty a l) := by
  unfold State.sendDirty
  grind [State.acceptRaw_quiet, State.bill_quiet]

theorem State.recall_quiet {s0 s : State} (hs : s0.Quiet s) (a ln) : s0.Quiet (s.recall a ln) := by
  unfold State.recall
  split
  · exact hs
  · split
    · exact State.setOwner_quiet hs ..
    · exact State.setOwner_quiet (State.modCore_quiet (State.sendDirty_quiet hs ..) _ (l1Del_quiet ..)) ..

theorem State.l2Evict_quiet {s0 s : State} (hs : s0.Quiet s) (a sb) : s0.Quiet (s.l2Evict a sb) := by
  have hr : s0.Quiet ((List.range 4).foldl (fun s i => s.recall a (sb * 4 + i)) s) :=
    quiet_foldl hs fun s i hs => State.recall_quiet hs ..
  simp only [State.l2Evict]
  split
  · exact hr
  · exact (State.bill_quiet hr ..).congr rfl rfl rfl rfl rfl rfl rfl

theorem State.l2Trim1_quiet {s0 s : State} (hs : s0.Quiet s) (a sb) : s0.Quiet (s.l2Trim1 a sb) := by
  unfold State.l2Trim1
  grind [State.l2Evict_quiet, quiet_foldl, quiet_foldl_fst]

theorem State.l2Trim_quiet {s0 s : State} (hs : s0.Quiet s) (a ln) : s0.Quiet (s.l2Trim a ln) := by
  unfold State.l2Trim
  grind [State.l2Trim1_quiet, quiet_foldl, quiet_foldl_fst]

theorem State.noted_quiet {s0 s : State} (hs : s0.Quiet s) (ws) : s0.Quiet (s.noted ws) := by
  unfold State.noted
  grind [State.quiet_iff]

theorem State.acceptAt_quiet {s0 s : State} (hs : s0.Quiet s) (a at_ ws bad whole) :
    s0.Quiet (s.acceptAt a at_ ws bad whole) := by
  unfold State.acceptAt
  grind [State.l2Trim_quiet, State.noted_quiet, State.acceptRaw_quiet, State.recall_quiet]

theorem State.landFlights_quiet {s0 s : State} (hs : s0.Quiet s) (p) : s0.Quiet (s.landFlights p) := by
  unfold State.landFlights
  grind [State.acceptAt_quiet, State.quiet_iff, quiet_foldl, quiet_foldl_fst]

theorem State.landOwn_quiet {s0 s : State} (hs : s0.Quiet s) (a ln) : s0.Quiet (s.landOwn a ln) := by
  unfold State.landOwn
  grind [State.landFlights_quiet]

theorem State.holdFor_quiet {s0 s : State} (hs : s0.Quiet s) (c) : s0.Quiet (s.holdFor c) :=
  hs.congr rfl rfl rfl rfl rfl rfl rfl

theorem State.landCore_quiet {s0 s : State} (hs : s0.Quiet s) (c) : s0.Quiet (s.landCore c) :=
  State.landFlights_quiet hs ..

theorem State.sendOff_quiet {s0 s : State} (hs : s0.Quiet s) (a at_ ws bad who must eng) :
    s0.Quiet (s.sendOff a at_ ws bad who must eng) := hs.congr rfl rfl rfl rfl rfl rfl rfl

theorem State.dropHost_quiet {s0 s : State} (hs : s0.Quiet s) (a ln) : s0.Quiet (s.dropHost a ln) := by
  unfold State.dropHost
  refine quiet_foldl hs fun s c hs => ?_
  have hland (b : Acc) : s0.Quiet (if s.hasCopy c ln then s.landOwn b ln else s) := by
    split
    · exact State.landOwn_quiet hs ..
    · exact hs
  have hcopy {s : State} (hs : s0.Quiet s) (b : Acc) : s0.Quiet (match (s.core c).copyOf ln with
      | some l => (s.sendDirty b l).modCore c (·.l1Del l.ctx l.lva)
      | none => s) := by
    split
    · exact State.modCore_quiet (State.sendDirty_quiet hs ..) _ (l1Del_quiet ..)
    · exact hs
  dsimp only
  split
  · exact State.modCore_quiet (State.sendDirty_quiet (hcopy (hland _) _) ..) _ (stashDel_quiet ..)
  · exact hcopy (hland _) _

theorem State.holdHost_quiet {s0 s : State} (hs : s0.Quiet s) (a ln) : s0.Quiet (s.holdHost a ln) := by
  unfold State.holdHost
  dsimp only
  split
  · exact hs
  · split
    · exact hs.congr rfl rfl rfl rfl rfl rfl rfl
    · split
      · split
        · exact hs.congr rfl rfl rfl rfl rfl rfl rfl
        · exact (State.dropHost_quiet hs ..).congr rfl rfl rfl rfl rfl rfl rfl
      · exact hs.congr rfl rfl rfl rfl rfl rfl rfl

theorem State.benchHolds_quiet {s0 s : State} (hs : s0.Quiet s) (a ln) : s0.Quiet (s.benchHolds a ln) := by
  unfold State.benchHolds
  grind [State.holdHost_quiet]

theorem State.serveRead_quiet {s0 s : State} (hs : s0.Quiet s) (a at_ k n) : s0.Quiet (s.serveRead a at_ k n).1 := by
  unfold State.serveRead
  grind [State.recall_quiet, State.benchHolds_quiet, State.l2Trim_quiet, State.travel_quiet]

theorem State.homeRead_quiet {s0 s : State} (hs : s0.Quiet s) (a at_ k n) : s0.Quiet (s.homeRead a at_ k n).1 := by
  unfold State.homeRead
  grind [State.serveRead_quiet, State.landOwn_quiet]

theorem State.homeWrite_quiet {s0 s : State} (hs : s0.Quiet s) (a at_ ws bad) : s0.Quiet (s.homeWrite a at_ ws bad) :=
  by
  unfold State.homeWrite
  grind [State.acceptAt_quiet, State.benchHolds_quiet, State.landOwn_quiet]

theorem State.writeBack_quiet {s0 s : State} (hs : s0.Quiet s) (a l) : s0.Quiet (s.writeBack a l) := by
  unfold State.writeBack
  grind [State.landOwn_quiet, State.l2Trim_quiet, State.sendDirty_quiet, State.noted_quiet, State.recall_quiet]

theorem State.writeOff_quiet {s0 s : State} (hs : s0.Quiet s) (a l must) : s0.Quiet (s.writeOff a l must) := by
  unfold State.writeOff
  grind [State.writeBack_quiet, State.sendOff_quiet, State.bill_quiet, State.landOwn_quiet]

theorem State.dropLine_quiet {s0 s : State} (hs : s0.Quiet s) (c l) : s0.Quiet (s.dropLine c l) := by
  unfold State.dropLine
  split
  · exact State.modCore_quiet (State.setOwner_quiet hs ..) _ (l1Del_quiet ..)
  · exact State.modCore_quiet hs _ (l1Del_quiet ..)

theorem State.engTake_quiet {s0 s : State} (hs : s0.Quiet s) (a ws) : s0.Quiet (s.engTake a ws) := by
  unfold State.engTake
  dsimp only
  split
  · exact State.dropLine_quiet (State.writeBack_quiet hs ..) ..
  · split
    · exact State.modCore_quiet (State.writeBack_quiet hs ..) _ (stashDel_quiet ..)
    · exact hs

theorem State.takeFlight_quiet {s0 s : State} (hs : s0.Quiet s) (f) : s0.Quiet (s.takeFlight f) := by
  unfold State.takeFlight
  grind [State.acceptAt_quiet, State.engTake_quiet]

theorem State.landEng_quiet {s0 s : State} (hs : s0.Quiet s) (core id all) : s0.Quiet (s.landEng core id all) := by
  unfold State.landEng
  grind [State.takeFlight_quiet, State.quiet_iff, quiet_foldl, quiet_foldl_fst]

theorem State.landAll_quiet {s0 s : State} (hs : s0.Quiet s) : s0.Quiet (s.landAll) := by
  unfold State.landAll
  grind [State.takeFlight_quiet, State.quiet_iff, quiet_foldl, quiet_foldl_fst]

theorem State.walkLeaf_quiet {s0 s : State} (hs : s0.Quiet s) (a va write level k e w x u) :
    s0.Quiet (s.walkLeaf a va write level k e w x u).1 := by
  unfold State.walkLeaf
  grind [State.homeWrite_quiet]

theorem State.walkStep_quiet {s0 s : State} (hs : s0.Quiet s) (a va write level table w x u) :
    s0.Quiet (s.walkStep a va write level table w x u).1 := by
  unfold State.walkStep
  grind [State.homeRead_quiet, State.bill_quiet, State.walkLeaf_quiet]

theorem State.walkFrom_quiet {s0 s : State} (hs : s0.Quiet s) (a va write l table w x u) :
    s0.Quiet (State.walkFrom a va write l table w x u s).1 := by
  fun_induction State.walkFrom <;> grind [State.walkStep_quiet]

theorem State.walk_quiet {s0 s : State} (hs : s0.Quiet s) (a va write) : s0.Quiet (s.walk a va write).1 := by
  unfold State.walk
  grind [State.walkFrom_quiet]

theorem State.benchRead_quiet {s0 s : State} (hs : s0.Quiet s) (ctx va n) : s0.Quiet (s.benchRead ctx va n).1 := by
  unfold State.benchRead
  refine quiet_foldl_fst hs fun r p hr => ?_
  have hw := State.walk_quiet hr (s.benchAcc ctx) p.1 false
  grind [State.homeRead_quiet]

theorem State.benchKeys_quiet {s0 s : State} (hs : s0.Quiet s) (a va n) : s0.Quiet (s.benchKeys a va n).1 := by
  unfold State.benchKeys
  grind [State.walk_quiet, quiet_foldl, quiet_foldl_fst]

theorem State.benchStore_quiet {s0 s : State} (hs : s0.Quiet s) (a l l2 l3) : s0.Quiet (s.benchStore a l l2 l3) := by
  fun_induction State.benchStore <;> grind [State.homeWrite_quiet]

theorem State.benchWrite_quiet {s0 s : State} (hs : s0.Quiet s) (ctx va bs) : s0.Quiet (s.benchWrite ctx va bs).1 :=
  by
  unfold State.benchWrite
  grind [State.benchKeys_quiet, State.benchStore_quiet]

theorem State.physRead_quiet {s0 s : State} (hs : s0.Quiet s) (pa n) : s0.Quiet (s.physRead pa n).1 := by
  unfold State.physRead
  grind [State.homeRead_quiet, quiet_foldl, quiet_foldl_fst]

theorem State.physStore_quiet {s0 s : State} (hs : s0.Quiet s) (a l l2) : s0.Quiet (s.physStore a l l2) := by
  fun_induction State.physStore <;> grind [State.homeWrite_quiet]

theorem State.physWrite_quiet {s0 s : State} (hs : s0.Quiet s) (pa bs) : s0.Quiet (s.physWrite pa bs) :=
  State.physStore_quiet hs ..

theorem State.msix_quiet {s0 s : State} (hs : s0.Quiet s) (func vec) : s0.Quiet (s.msix func vec) := by
  unfold State.msix
  grind [State.say_quiet, State.quiet_iff]

theorem State.keepHouse_quiet {s0 s : State} (hs : s0.Quiet s) (t) : s0.Quiet (s.keepHouse t) := by
  unfold State.keepHouse
  grind [State.quiet_iff]

theorem State.benchWrites_quiet {s0 s : State} (hs : s0.Quiet s) (ctx l) : s0.Quiet (s.benchWrites ctx l).1 := by
  fun_induction State.benchWrites <;> grind [State.benchWrite_quiet]

theorem State.log_quiet {s0 s : State} (hs : s0.Quiet s) (r) : s0.Quiet (s.log r) := by
  have h := State.physRead_quiet hs (s.sysreg 0x16 0).toNat 64
  simp only [State.log]
  split
  · exact hs
  · split
    · exact h
    · split
      · exact State.msix_quiet (State.physWrite_quiet (State.physWrite_quiet h ..) ..) ..
      · exact State.physWrite_quiet h ..

theorem State.sweep_quiet {s0 s : State} (hs : s0.Quiet s) (a sel inval) : s0.Quiet (s.sweep a sel inval) := by
  unfold State.sweep
  refine quiet_foldl (quiet_foldl hs fun s l hs => ?_) fun s e hs => ?_
  · dsimp only
    split
    · exact State.dropLine_quiet (State.writeOff_quiet hs ..) ..
    · exact State.modCore_quiet (State.writeOff_quiet hs ..) _ (cleanAll_quiet ..)
  · refine State.modCore_quiet (State.writeOff_quiet hs ..) _ ?_
    cases inval
    · exact stashMod_quiet ..
    · exact stashDel_quiet ..

theorem State.fenceRel_quiet {s0 s : State} (hs : s0.Quiet s) (a sc) : s0.Quiet (s.fenceRel a sc) := by
  unfold State.fenceRel
  grind [State.landCore_quiet, State.sweep_quiet]

theorem State.fqFail_quiet {s0 s : State} (hs : s0.Quiet s) (ctx fq) : s0.Quiet (s.fqFail ctx fq) := by
  unfold State.fqFail
  grind [State.log_quiet, State.quiet_iff]

theorem State.fqWrite_quiet {s0 s : State} (hs : s0.Quiet s) (ctx rec_ counted) :
    s0.Quiet (s.fqWrite ctx rec_ counted).1 := by
  unfold State.fqWrite
  dsimp only
  split
  · exact State.fqFail_quiet hs ..
  · split
    next t e => exact State.fqFail_quiet (quiet_fst (State.benchRead_quiet hs ..) e) ..
    next t b e =>
      have ht := quiet_fst (State.benchRead_quiet hs ..) e
      split
      · split
        · exact State.fqFail_quiet (State.keepHouse_quiet ht _) ..
        next u e =>
          have hu := quiet_fst (State.benchWrites_quiet ht ..) e
          exact State.msix_quiet (s := { u with fqFailed := kdel ctx u.fqFailed })
            (hu.congr rfl rfl rfl rfl rfl rfl rfl) _ _
      · split
        · exact ht
        · split
          next e => exact quiet_fst (State.benchWrite_quiet ht ..) e
          next e => exact State.fqFail_quiet (quiet_fst (State.benchWrite_quiet ht ..) e) ..

theorem State.errorRecord_quiet {s0 s : State} (hs : s0.Quiet s) (r conf) : s0.Quiet (s.errorRecord r conf) := by
  unfold State.errorRecord
  dsimp only
  split
  next e => exact quiet_fst (State.fqWrite_quiet hs ..) e
  next e => exact (quiet_fst (State.fqWrite_quiet hs ..) e).congr rfl rfl rfl rfl rfl rfl rfl

theorem State.putQueueState_quiet {s0 s : State} (hs : s0.Quiet s) (func q) : s0.Quiet (s.putQueueState func q) := by
  unfold State.putQueueState
  grind [State.physWrite_quiet]

theorem State.benchDrop_quiet {s0 s : State} (hs : s0.Quiet s) (ctx va bs) : s0.Quiet (s.benchDrop ctx va bs) := by
  unfold State.benchDrop
  grind [State.benchWrite_quiet, State.log_quiet]

theorem State.nodeGet_quiet {s0 s : State} (hs : s0.Quiet s) (ctx va) : s0.Quiet (s.nodeGet ctx va).1 :=
  State.benchRead_quiet hs ..

theorem State.addAccount_quiet {s0 s : State} (hs : s0.Quiet s) (ctx n) : s0.Quiet (s.addAccount ctx n) :=
  hs.congr rfl rfl rfl rfl rfl rfl rfl

theorem State.flushSlot_quiet {s0 s : State} (hs : s0.Quiet s) (c w) : s0.Quiet (s.flushSlot c w) := by
  unfold State.flushSlot
  split
  · exact hs
  · next x hx =>
    exact State.addAccount_quiet (State.setWg_quiet hs (y := { x with flushed := x.cum }) hx rfl) ..

theorem State.giveBack_quiet {s0 s : State} (hs : s0.Quiet s) (c x) : s0.Quiet (s.giveBack c x) := by
  unfold State.giveBack
  split
  · exact hs
  split
  next e => exact quiet_fst (State.nodeGet_quiet hs ..) e
  next e =>
    refine quiet_foldl (quiet_fst (State.nodeGet_quiet hs ..) e) fun s d hs => ?_
    split
    next e => exact quiet_fst (State.nodeGet_quiet hs ..) e
    next e => exact State.benchDrop_quiet (quiet_fst (State.nodeGet_quiet hs ..) e) ..

theorem State.landCmds_quiet {s0 s : State} (hs : s0.Quiet s) (c w) : s0.Quiet (s.landCmds c w) := by
  unfold State.landCmds
  grind [State.landEng_quiet, quiet_foldl, quiet_foldl_fst]

theorem State.giveUp_quiet {s0 s : State} (hs : s0.Quiet s) (core readable) : s0.Quiet (s.giveUp core readable) := by
  unfold State.giveUp
  grind [State.recall_quiet, State.setOwner_quiet, State.quiet_iff, quiet_foldl, quiet_foldl_fst]

theorem State.invDone_quiet {s0 s : State} (hs : s0.Quiet s) (func ctx done v) :
    s0.Quiet (s.invDone func ctx done v) := by
  unfold State.invDone
  grind [State.benchWrite_quiet, State.msix_quiet, State.log_quiet]

end Sys2Proof.Machine
end

section
/-! PROOFS. What the Bench does at the end of a workgroup, of a launch and of a gang leaves every core's crews, commands,
macros and lines alone: one lemma `f_calm` for each such function f of the model. -/

namespace Sys2Proof.Machine

open Sys2Proof

set_option Elab.async false

/-- From s0 to s every core is quiet but for what its workgroups hold beside their crews, and the failed cores stay. -/
structure State.Calm (s0 s : State) : Prop where
  cores : ∀ c, Core.Quiet Wg.crews (s0.core c) (s.core c)
  failed : s.failed = s0.failed

theorem State.Calm.refl (s : State) : s.Calm s := ⟨fun _ => .refl _ _, rfl⟩

theorem State.Calm.trans {s t u : State} (h : s.Calm t) (k : t.Calm u) : s.Calm u :=
  ⟨fun c => (h.cores c).trans (k.cores c), k.failed.trans h.failed⟩

theorem State.Quiet.calm {s t : State} (h : s.Quiet t) : s.Calm t :=
  ⟨fun c => (h.cores c).mono (g := Wg.crews) fun _ => rfl, h.failed⟩

theorem State.Calm.quiet {s t u : State} (h : s.Calm t) (k : t.Quiet u) : s.Calm u := h.trans k.calm

theorem State.Calm.congr {s0 s t : State} (h : s0.Calm s) (hc : t.cores = s.cores) (hf : t.failed = s.failed) : s0.Calm t where
  cores c := by
    have hcore : t.core c = s.core c := by simp only [State.core, hc]
    simpa only [hcore] using h.cores c
  failed := hf.trans h.failed

theorem State.Calm.saved {s0 s : State} (h : s0.Calm s) (v : KMap Saved) : s0.Calm { s with saved := v } := h.congr rfl rfl

/-- The fields that a calm run is about. -/
def CalmFields (s0 : State) (cores : KMap Core) (failed : List Nat) : Prop :=
  (∀ c, Core.Quiet Wg.crews (s0.core c) ((kfind c cores).getD Core.zero)) ∧ failed = s0.failed

theorem State.calm_iff {s0 s : State} : s0.Calm s ↔ CalmFields s0 s.cores s.failed :=
  ⟨fun ⟨hc, hf⟩ => ⟨hc, hf⟩, fun ⟨hc, hf⟩ => ⟨hc, hf⟩⟩

theorem calm_fst {β : Type} {s0 : State} {p : State × β} {t : State} {b : β} (h : s0.Calm p.1) (e : p = (t, b)) :
    s0.Calm t := by
  subst e
  exact h

theorem calm_foldl {α : Type} {s0 s : State} {l : List α} {f : State → α → State} (h : s0.Calm s)
    (hf : ∀ s a, s0.Calm s → s0.Calm (f s a)) : s0.Calm (l.foldl f s) :=
  List.foldlRecOn l f h fun s hs a _ => hf s a hs

theorem State.modCore_calm {s0 s : State} (hs : s0.Calm s) (c : Nat) {f : Core → Core}
    (hf : Core.Quiet Wg.crews (s.core c) (f (s.core c))) : s0.Calm (s.modCore c f) where
  cores d := by
    rw [State.core_modCore]
    split
    · next e =>
      subst e
      exact (hs.cores d).trans hf
    · exact hs.cores d
  failed := hs.failed

theorem State.modWg_calm {s0 s : State} (hs : s0.Calm s) (c w : Nat) {f : Wg → Wg} (hf : ∀ x, (f x).crews = x.crews) :
    s0.Calm (s.modWg c w f) := by
  unfold State.modWg
  split
  · next x hx => exact State.modCore_calm hs c (kput_wg_quiet hx (hf x))
  · exact hs

theorem kfind_kmap {α : Type} (f : Nat → α → α) (k : Nat) (m : KMap α) : kfind k (kmap f m) = (kfind k m).map (f k) := by
  induction m with
  | nil => rfl
  | cons e m ih =>
    obtain ⟨j, x⟩ := e
    simp only [kmap, List.map_cons, kfind] at ih ⊢
    split
    · next h => rw [h, Option.map_some]
    · exact ih

theorem kmap_wgs_quiet {β : Type} {pr : Wg → β} (a : Core) {f : Wg → Wg} (hf : ∀ x, pr (f x) = pr x) :
    Core.Quiet pr a { a with wgs := kmap (fun _ w => f w) a.wgs } := by
  refine .of_wgs a _ fun w => ?_
  rw [kfind_kmap, Option.map_map]
  exact congrArg (fun g => (kfind w a.wgs).map g) (funext hf)

theorem core_kmap (s : State) {f : Core → Core} (hz : f Core.zero = Core.zero) (c : Nat) :
    ({ s with cores := kmap (fun _ co => f co) s.cores } : State).core c = f (s.core c) := by
  simp only [State.core, kfind_kmap]
  cases kfind c s.cores with
  | none => exact hz.symm
  | some x => rfl

/-! ### Quiet steps, as calm ones -/

theorem State.benchDrop_calm {s0 s : State} (hs : s0.Calm s) (ctx va bs) : s0.Calm (s.benchDrop ctx va bs) :=
  hs.quiet (State.benchDrop_quiet (.refl _) ..)

theorem State.errorRecord_calm {s0 s : State} (hs : s0.Calm s) (r conf) : s0.Calm (s.errorRecord r conf) :=
  hs.quiet (State.errorRecord_quiet (.refl _) ..)

theorem State.holdFor_calm {s0 s : State} (hs : s0.Calm s) (c) : s0.Calm (s.holdFor c) :=
  hs.quiet (State.holdFor_quiet (.refl _) ..)

theorem State.msix_calm {s0 s : State} (hs : s0.Calm s) (func vec) : s0.Calm (s.msix func vec) :=
  hs.quiet (State.msix_quiet (.refl _) ..)

theorem State.nodeGet_calm {s0 s : State} (hs : s0.Calm s) (ctx va) : s0.Calm (s.nodeGet ctx va).1 :=
  hs.quiet (State.nodeGet_quiet (.refl _) ..)

theorem State.physRead_calm {s0 s : State} (hs : s0.Calm s) (pa n) : s0.Calm (s.physRead pa n).1 :=
  hs.quiet (State.physRead_quiet (.refl _) ..)

theorem State.physWrite_calm {s0 s : State} (hs : s0.Calm s) (pa bs) : s0.Calm (s.physWrite pa bs) :=
  hs.quiet (State.physWrite_quiet (.refl _) ..)

theorem State.putQueueState_calm {s0 s : State} (hs : s0.Calm s) (func q) : s0.Calm (s.putQueueState func q) :=
  hs.quiet (State.putQueueState_quiet (.refl _) ..)

theorem State.sweep_calm {s0 s : State} (hs : s0.Calm s) (a sel inval) : s0.Calm (s.sweep a sel inval) :=
  hs.quiet (State.sweep_quiet (.refl _) ..)

theorem State.landCore_calm {s0 s : State} (hs : s0.Calm s) (c) : s0.Calm (s.landCore c) :=
  hs.quiet (State.landCore_quiet (.refl _) ..)

theorem State.flushSlot_calm {s0 s : State} (hs : s0.Calm s) (c w) : s0.Calm (s.flushSlot c w) :=
  hs.quiet (State.flushSlot_quiet (.refl _) ..)

theorem State.giveBack_calm {s0 s : State} (hs : s0.Calm s) (c x) : s0.Calm (s.giveBack c x) :=
  hs.quiet (State.giveBack_quiet (.refl _) ..)

/-! ### One lemma for each function -/

theorem State.abortWg_calm {s0 s : State} (hs : s0.Calm s) (c w i) : s0.Calm (s.abortWg c w i) := by
  refine State.modWg_calm hs c w fun x => ?_
  split <;> rfl

theorem State.unmapWindow_calm {s0 s : State} (hs : s0.Calm s) (c wi) : s0.Calm (s.unmapWindow c wi) := by
  unfold State.unmapWindow
  split
  · exact hs
  · refine State.modCore_calm (State.modWg_calm hs c _ fun _ => ?_) c (.of_windows _ _ fun e he => ?_)
    · rfl
    · exact ⟨e, (List.mem_filter.mp he).1, rfl⟩

theorem State.setQ_calm {s0 s : State} (hs : s0.Calm s) (func q x) : s0.Calm (s.setQ func q x) := hs.congr rfl rfl

theorem State.modQ_calm {s0 s : State} (hs : s0.Calm s) (func q f) : s0.Calm (s.modQ func q f) :=
  State.setQ_calm hs ..

theorem State.queueIdle_calm {s0 s : State} (hs : s0.Calm s) (func q) : s0.Calm (s.queueIdle func q) :=
  State.modQ_calm hs ..

theorem State.holdNow_calm {s0 s : State} (hs : s0.Calm s) (func q) : s0.Calm (s.holdNow func q) := by
  have hl : s0.Calm ((s.launchesOf func q).foldl (fun s l =>
      if l.next < l.nwg then s.physWrite (l.slotPa + 0x14) (bytesOfNat 4 l.next) else s) s) :=
    calm_foldl hs fun s l hs => by grind [State.physWrite_calm]
  simp only [State.holdNow]
  split
  · exact State.modQ_calm (State.physWrite_calm hl ..) ..
  · exact State.modQ_calm hl ..

theorem State.holdCheck_calm {s0 s : State} (hs : s0.Calm s) (func q) : s0.Calm (s.holdCheck func q) := by
  unfold State.holdCheck
  grind [State.holdNow_calm, State.modQ_calm]

theorem State.finishRec_calm {s0 s : State} (hs : s0.Calm s) (func q ctx slotPa r energy status) :
    s0.Calm (s.finishRec func q ctx slotPa r energy status) := by
  unfold State.finishRec
  grind [State.physWrite_calm, State.benchDrop_calm, State.msix_calm]

theorem State.finishLaunch_calm {s0 s : State} (hs : s0.Calm s) (l status) : s0.Calm (s.finishLaunch l status) := by
  unfold State.finishLaunch
  grind [State.finishRec_calm, State.putQueueState_calm, State.holdCheck_calm, State.queueIdle_calm, State.calm_iff]

theorem State.gangEnd_calm {s0 s : State} (hs : s0.Calm s) (l core part index since) :
    s0.Calm (s.gangEnd l core part index since) := by
  unfold State.gangEnd
  refine State.msix_calm (State.finishLaunch_calm (State.errorRecord_calm ?_ ..) ..) ..
  cases index with
  | none => exact hs.congr rfl rfl
  | some ix => exact (State.physWrite_calm hs ..).congr rfl rfl

theorem State.launchCheck_calm {s0 s : State} (hs : s0.Calm s) (id) : s0.Calm (s.launchCheck id) := by
  unfold State.launchCheck
  grind [State.gangEnd_calm, State.finishLaunch_calm]

theorem State.modLaunch_calm {s0 s : State} (hs : s0.Calm s) (id f) : s0.Calm (s.modLaunch id f) := hs.congr rfl rfl

theorem State.nodesRead_calm {s0 s : State} (hs : s0.Calm s) : s0.Calm (s.nodesRead) := by
  unfold State.nodesRead
  grind [State.nodeGet_calm, calm_foldl]

theorem State.nodeEnd_calm {s0 s : State} (hs : s0.Calm s) (l) : s0.Calm (s.nodeEnd l) := by
  unfold State.nodeEnd
  grind [State.nodeGet_calm, State.finishLaunch_calm, State.benchDrop_calm]

theorem State.nodeDone_calm {s0 s : State} (hs : s0.Calm s) (id) : ∀ t ∈ s.nodeDone id, s0.Calm t := by
  unfold State.nodeDone
  split
  · simp
  · intro t ht
    obtain ⟨ls, -, rfl⟩ := Option.map_eq_some_iff.mp ht
    exact calm_foldl hs fun s l hs => State.nodeEnd_calm hs l

theorem State.nodesEnd_calm {s0 s : State} (hs : s0.Calm s) (n) : s0.Calm (State.nodesEnd n s) := by
  fun_induction State.nodesEnd with
  | case1 => exact hs
  | case2 s n t ht ih =>
    obtain ⟨l, -, hl⟩ := List.exists_of_findSome?_eq_some ht
    split at hl
    · exact ih (State.nodeDone_calm hs _ _ hl)
    · cases hl
  | case3 => exact hs

theorem State.nodesDone_calm {s0 s : State} (hs : s0.Calm s) : s0.Calm (s.nodesDone) := by
  unfold State.nodesDone
  grind [State.nodesEnd_calm, State.nodesRead_calm]

theorem State.askSaves_calm {s0 s : State} (hs : s0.Calm s) (cause sel) : s0.Calm (s.askSaves cause sel) where
  cores c := by
    unfold State.askSaves
    rw [core_kmap s rfl c]
    refine (hs.cores c).trans (kmap_wgs_quiet _ fun w => ?_)
    split <;> rfl
  failed := hs.failed

theorem State.panStore_calm {s0 s : State} (hs : s0.Calm s) (func pa q) : s0.Calm (s.panStore func pa q) := by
  unfold State.panStore
  cases s.ownsConf func <;> simp only [Bool.false_eq_true, ↓reduceIte]
  · have hw := State.physWrite_calm (State.physWrite_calm (State.physWrite_calm (State.physWrite_calm hs pa
      (bytesOfNat 8 (q.bal % 2 ^ 64).toNat)) (pa + 0x28) (bytesOfNat 8 q.gr)) (pa + 0x20) (bytesOfNat 8 q.last)) (pa
        + 0x30)
      (bytesOfNat 4 q.flags ++ bytesOfNat 4 q.cnt)
    exact hw.congr rfl rfl
  · exact (State.physWrite_calm (State.physWrite_calm hs ..) ..).congr rfl rfl

theorem State.panOp_calm {s0 s : State} (hs : s0.Calm s) (func f draw) : s0.Calm (s.panOp func f draw).1 := by
  unfold State.panOp
  grind [State.physRead_calm, State.panStore_calm, State.msix_calm, State.askSaves_calm]

theorem State.modGrant_calm {s0 s : State} (hs : s0.Calm s) (core func f) : s0.Calm (s.modGrant core func f) :=
  State.modCore_calm hs _ (.of_counters ..)

theorem State.reportDebt_calm {s0 s : State} (hs : s0.Calm s) (core func) : s0.Calm (s.reportDebt core func) := by
  unfold State.reportDebt
  grind [State.panOp_calm, State.modGrant_calm]

theorem State.returnGrant_calm {s0 s : State} (hs : s0.Calm s) (core func) : s0.Calm (s.returnGrant core func) := by
  unfold State.returnGrant
  split
  · exact hs
  · split
    · exact hs
    · exact State.modCore_calm (State.panOp_calm hs ..) _ (.of_counters ..)

theorem State.writeBackWg_calm {s0 s : State} (hs : s0.Calm s) (c w wg) : s0.Calm (s.writeBackWg c w wg) := by
  unfold State.writeBackWg
  grind [State.sweep_calm, State.holdFor_calm, State.unmapWindow_calm, calm_foldl]

theorem State.benchRetire_calm {s0 s : State} (hs : s0.Calm s) (c x aborted) : s0.Calm (s.benchRetire c x aborted) :=
  by
  simp only [State.benchRetire]
  have hr := State.returnGrant_calm (State.reportDebt_calm (State.modLaunch_calm hs x.launch (fun l =>
    { l with live := l.live - 1, energy := l.energy + x.cum, retired := l.retired + 1, aborted := l.aborted ||
      aborted }))
    c x.func) c x.func
  split
  · exact hr
  · exact State.putQueueState_calm (State.holdCheck_calm (State.nodesDone_calm (State.launchCheck_calm
      (State.modQ_calm hr ..) ..)) ..) ..

theorem State.noRoom_calm {s0 s : State} (hs : s0.Calm s) (c w x) : s0.Calm (s.noRoom c w x) :=
  State.abortWg_calm (State.modWg_calm hs c w (f := fun y => { y with save := none }) fun _ => rfl) ..

theorem State.gangFail_calm {s0 s : State} (hs : s0.Calm s) (l core lost) : s0.Calm (s.gangFail l core lost) := by
  unfold State.gangFail
  refine State.launchCheck_calm (calm_foldl ?_ fun s e hs => ?_) _
  · split
    · exact State.modLaunch_calm hs ..
    · refine calm_foldl (State.modLaunch_calm hs ..) fun s e hs => ?_
      exact State.physWrite_calm (hs.saved _) ..
  · split
    · exact hs
    · split
      · exact hs
      · split
        · exact State.abortWg_calm hs ..
        · split
          · exact State.noRoom_calm hs ..
          · exact State.modWg_calm hs _ _ (f := fun y => { y with save := some (y.save.getD (2, s.refclk)) }) fun _
            => rfl

end Sys2Proof.Machine
end

section
/-! PROOFS. How a workgroup ends (R19, R217, R302, R410). -/

namespace Sys2Proof.Machine

open Sys2Proof Sys2Proof.Claims

/-! ### Keys of sorted stores -/

theorem kfind_eq_none_iff {α : Type} {k : Nat} {m : KMap α} : kfind k m = none ↔ ∀ e ∈ m, e.1 ≠ k := by
  induction m with
  | nil => simp [kfind]
  | cons e m ih =>
    obtain ⟨a, v⟩ := e
    simp only [kfind, List.forall_mem_cons, ← ih]
    split <;> simp_all

theorem mem_kdel {α : Type} {k : Nat} {m : KMap α} {e : Nat × α} : e ∈ kdel k m ↔ e ∈ m ∧ e.1 ≠ k := by
  simp [kdel]

/-! ### Lines that a sweep cleans -/

/-- The lines of an address of a context hold no dirty byte. -/
def CleanAt (co : Core) (ctx lva : Nat) : Prop := ∀ l ∈ co.l1Set lva, l.ctx = ctx → l.lva = lva → l.dirty = 0

theorem CleanAt.quiet {β : Type} {pr : Wg → β} {a b : Core} {ctx lva : Nat} (h : CleanAt a ctx lva) (k : Core.Quiet pr a b) :
    CleanAt b ctx lva := by
  rintro l hl rfl rfl
  obtain ⟨m, hm, hc, hv, hd⟩ := k.lines _ l hl
  exact hd (h m hm hc hv)

theorem cleanAt_cleanAll (co : Core) (ctx lva : Nat) : CleanAt (co.l1Mod ctx lva Line.cleanAll) ctx lva := by
  rintro l hl rfl rfl
  simp only [Core.l1Mod, Core.l1Set, kget_kset_self, List.mem_map] at hl
  obtain ⟨m, -, hm⟩ := hl
  split at hm
  · rw [← hm]
    simp [Line.cleanAll, Line.clean]
  · next h => simp [hm] at h

theorem noDirty_of_cleanAt {t : State} {core ctx : Nat} (h : ∀ lva, CleanAt (t.core core) ctx lva) : NoDirty t core ctx := by
  intro lva l hl
  have hm := List.mem_of_find?_eq_some hl
  have hp := List.find?_some hl
  simp only [Bool.and_eq_true, beq_iff_eq] at hp
  exact h lva l hm hp.1 hp.2

/-- What each turn of a loop establishes for its element, and every turn keeps, holds at the end for every element. -/
theorem foldl_each {α σ : Type} {f : σ → α → σ} {P : α → σ → Prop} (hdo : ∀ s x, P x (f s x))
    (hkeep : ∀ s x y, P x s → P x (f s y)) (l : List α) (s : σ) : ∀ x ∈ l, P x (l.foldl f s) := by
  induction l generalizing s with
  | nil => simp
  | cons y l ih =>
    intro x hx
    obtain rfl | hx := List.mem_cons.mp hx
    · exact List.foldlRecOn (motive := P x) l f (hdo s x) fun t ht z _ => hkeep t x z ht
    · exact ih (f s y) x hx

theorem mem_lines_of_mem_l1Set {co : Core} {lva : Nat} {l : Line} (h : l ∈ co.l1Set lva) : l ∈ co.lines := by
  unfold Core.l1Set kget at h
  cases e : kfind (lva % 128) co.l1 with
  | none => simp [e] at h
  | some ls => exact List.mem_flatMap.mpr ⟨_, mem_of_kfind e, by simpa [e] using h⟩

/-- One turn of a sweep that does not invalidate. -/
theorem sweepLine_quiet (s : State) (a : Acc) (l : Line) :
    s.Quiet ((s.writeOff a l true).modCore a.core (·.l1Mod l.ctx l.lva Line.cleanAll)) :=
  State.modCore_quiet (State.writeOff_quiet (.refl s) ..) _ (cleanAll_quiet ..)

theorem sweep_cleanAt (s : State) (a : Acc) (ctx lva : Nat) :
    CleanAt ((s.sweep a (fun l => l.ctx == ctx) false).core a.core) ctx lva := by
  unfold State.sweep
  simp only [Bool.false_eq_true, ↓reduceIte]
  generalize hf : ((s.core a.core).lines.filter (fun l => l.ctx == ctx)).foldl (fun s l =>
    (s.writeOff a l true).modCore a.core (·.l1Mod l.ctx l.lva Line.cleanAll)) s = s1
  have hs : s.Quiet s1 := hf ▸ quiet_foldl (.refl s) fun t l ht => ht.trans (sweepLine_quiet t a l)
  have heach : ∀ l ∈ (s.core a.core).lines.filter (fun l => l.ctx == ctx), CleanAt (s1.core a.core) l.ctx l.lva :=
    hf ▸ foldl_each (P := fun (l : Line) (t : State) => CleanAt (t.core a.core) l.ctx l.lva)
      (fun t l => by simpa using cleanAt_cleanAll ((t.writeOff a l true).core a.core) l.ctx l.lva)
      (fun t l m h => h.quiet ((sweepLine_quiet t a m).cores _)) _ _
  have hclean : CleanAt (s1.core a.core) ctx lva := by
    rintro l hl rfl rfl
    obtain ⟨m, hm, hc, hv, -⟩ := (hs.cores a.core).lines _ l hl
    exact heach m (List.mem_filter.mpr ⟨mem_lines_of_mem_l1Set hm, by simp [hc]⟩) l (hv ▸ hl) hc.symm hv.symm
  exact hclean.quiet ((quiet_foldl (.refl s1) fun t e ht =>
    State.modCore_quiet (State.writeOff_quiet ht ..) _ (stashMod_quiet ..)).cores _)

/-! ### Windows that are unmapped -/

theorem windows_modWg (s : State) (c w d : Nat) (f : Wg → Wg) : ((s.modWg c w f).core d).windows = (s.core d).windows := by
  unfold State.modWg
  split
  · rw [State.core_setWg]
    split
    · next e => rw [e]
    · rfl
  · rfl

theorem windows_unmapWindow (s : State) (c wi : Nat) :
    ((s.unmapWindow c wi).core c).windows = kdel wi (s.core c).windows := by
  unfold State.unmapWindow
  split
  · next h => exact (List.filter_eq_self.mpr fun e he => by simpa using kfind_eq_none_iff.mp h e he).symm
  · simp [windows_modWg]

theorem mem_windows_unmapWindows {c : Nat} {e : Nat × Window} (l : KMap Window) (s : State)
    (h : e ∈ ((l.foldl (fun s e => s.unmapWindow c e.1) s).core c).windows) :
    e ∈ (s.core c).windows ∧ ∀ d ∈ l, e.1 ≠ d.1 := by
  induction l generalizing s with
  | nil => exact ⟨h, by simp⟩
  | cons d l ih =>
    obtain ⟨hm, hl⟩ := ih _ h
    rw [windows_unmapWindow, mem_kdel] at hm
    exact ⟨hm.1, List.forall_mem_cons.mpr ⟨hm.2, hl⟩⟩

/-! ### The write-back -/

theorem writeBackWg_windows (s : State) (c w : Nat) (g : Wg) : ∀ e ∈ ((s.writeBackWg c w g).core c).windows, e.2.wg ≠ w := by
  intro e he hw
  obtain ⟨hm, hne⟩ := mem_windows_unmapWindows _ _ he
  exact hne e (List.mem_filter.mpr ⟨hm, by simp [hw]⟩) rfl

theorem writeBackWg_cleanAt (s : State) (c w : Nat) (g : Wg) (lva : Nat) :
    CleanAt ((s.writeBackWg c w g).core c) g.ctx lva :=
  (sweep_cleanAt (s.holdFor c) (accOf c w g) g.ctx lva).quiet
    ((calm_foldl (.refl _) fun _ _ ht => State.unmapWindow_calm ht ..).cores c)

theorem State.Calm.wg {s t : State} (h : s.Calm t) {c w : Nat} {g : Wg} (hg : s.wg? c w = some g) :
    ∃ g', t.wg? c w = some g' ∧ g'.crews = g.crews := by
  have hw := (h.cores c).wgs w
  simp only [State.wg?] at hg ⊢
  rw [hg] at hw
  exact Option.map_eq_some_iff.mp hw

theorem State.Calm.wg_none {s t : State} (h : s.Calm t) {c w : Nat} (hg : s.wg? c w = none) : t.wg? c w = none := by
  have hw := (h.cores c).wgs w
  simp only [State.wg?] at hg ⊢
  rw [hg] at hw
  exact Option.map_eq_none_iff.mp hw

/-! ### The end -/

/-- Nothing of the workgroup stands in t; from s to t its macros and the Grainer are freed and others' stay. -/
def Gone (s t : State) (core w : Nat) (g : Wg) : Prop :=
  t.wg? core w = none ∧ (∀ sl ∈ g.crews, t.crew? ⟨core, sl⟩ = none) ∧
    (∀ c ∈ (t.core core).cmds, c.wg ≠ w) ∧ (∀ e ∈ (t.core core).windows, e.2.wg ≠ w) ∧
    (∀ i, (t.core core).mac i = if g.owns w ((s.core core).mac i).owner = true then CimMac.zero else (s.core core).mac i) ∧
    (t.core core).grainer = if g.owns w (s.core core).grainer = true then none else (s.core core).grainer

theorem mac_releaseWg (co : Core) (w : Nat) (x : Wg) (i : Nat) :
    (co.releaseWg w x).mac i = if x.owns w (co.mac i).owner then CimMac.zero else co.mac i := by
  have hz : (if x.owns w CimMac.zero.owner then CimMac.zero else CimMac.zero) = CimMac.zero := by simp
  simp only [Core.mac, Core.releaseWg]
  conv_lhs => rw [← hz]
  exact List.getD_map (f := fun m : CimMac => if x.owns w m.owner then CimMac.zero else m) ..

theorem mac_congr {a b : Core} (h : b.cim = a.cim) (i : Nat) : b.mac i = a.mac i := by simp only [Core.mac, h]

theorem retire_gone (s : State) (core w : Nat) (g : Wg) (aborted : Bool) : Gone s (s.retire core w g aborted) core w g := by
  let s1 := s.modCore core (·.releaseWg w g)
  let s2 := (s1.flushSlot core w).giveBack core g
  let s3 := s2.modCore core (·.freeWg w g)
  have h12 : s1.Quiet s2 := State.giveBack_quiet (State.flushSlot_quiet (.refl s1) ..) ..
  have h3t : s3.Calm (s.retire core w g aborted) := State.benchRetire_calm (.refl s3) ..
  have e1 : s1.core core = (s.core core).releaseWg w g := by simp [s1]
  have e3 : s3.core core = (s2.core core).freeWg w g := by simp [s3]
  have k := h3t.cores core
  have k2 := h12.cores core
  have hcim : ((s.retire core w g aborted).core core).cim = ((s.core core).releaseWg w g).cim := by
    rw [k.cim, e3, ← e1, ← k2.cim]
    rfl
  refine ⟨h3t.wg_none ?_, fun sl hsl => ?_, fun c hc => ?_, fun e he => ?_, fun i => ?_, ?_⟩
  · simp [State.wg?, e3, Core.freeWg, kfind_kdel]
  · rw [State.crew?, k.crews, e3, kfind_eq_none_iff]
    rintro e he rfl
    simp [Core.freeWg, hsl] at he
  · rw [k.cmds, e3] at hc
    simp only [Core.freeWg, List.mem_filter, bne_iff_ne] at hc
    exact hc.2
  · obtain ⟨d, hd, hde⟩ := k.windows e he
    rw [e3] at hd
    simp only [Core.freeWg, List.mem_filter, bne_iff_ne] at hd
    exact hde ▸ hd.2
  · rw [mac_congr hcim, mac_releaseWg]
  · rw [k.grainer, e3, show ((s2.core core).freeWg w g).grainer = (s2.core core).grainer from rfl, k2.grainer, e1]
    rfl

theorem owns_congr {x y : Wg} (h : y.crews = x.crews) (w : Nat) (o : Option Owner) : y.owns w o = x.owns w o := by
  unfold Wg.owns
  rw [h]

/-- What is freed is freed with respect to any earlier state with the same macros and Grainer, under any view with the same
crews. -/
theorem Gone.of_earlier {s s' t : State} {core w : Nat} {g g' : Wg} (h : Gone s' t core w g') (hg : g'.crews = g.crews)
    (hcim : (s'.core core).cim = (s.core core).cim) (hgr : (s'.core core).grainer = (s.core core).grainer) :
    Gone s t core w g := by
  obtain ⟨hwg, hcrew, hcmds, hwin, hmac, hgrain⟩ := h
  refine ⟨hwg, hg ▸ hcrew, hcmds, hwin, fun i => ?_, ?_⟩
  · rw [hmac, mac_congr hcim, owns_congr hg]
  · rw [hgrain, hgr, owns_congr hg]

theorem abortNow_gone {s : State} {core w : Nat} {g : Wg} (hg : s.wg? core w = some g) (i : AbortInfo) :
    Gone s (s.abortNow core w g i) core w g := by
  simp only [State.abortNow]
  have h1 := State.errorRecord_quiet (.refl s) (abortRecord core g i) g.conf
  generalize s.errorRecord (abortRecord core g i) g.conf = s1 at h1 ⊢
  generalize hs2 : s1.modCore core (fun co => { co with cmds := co.cmds.filter (fun c => c.wg != w) }) = s2
  have h3 := State.landCore_calm (State.writeBackWg_calm (.refl s2) core w g) core
  generalize (s2.writeBackWg core w g).landCore core = s3 at h3 ⊢
  have e2 : s2.core core = { s1.core core with cmds := (s1.core core).cmds.filter (fun c => c.wg != w) } := by simp [← hs2]
  obtain ⟨g1, hg1, hc1⟩ := h1.calm.wg hg
  have hg2 : s2.wg? core w = some g1 := by rw [← hg1, State.wg?, State.wg?, e2]
  obtain ⟨g3, hg3, hc3⟩ := h3.wg hg2
  rw [hg3]
  refine (retire_gone s3 core w g3 true).of_earlier (hc3.trans hc1) ?_ ?_
  · rw [(h3.cores core).cim, e2, ← (h1.cores core).cim]
  · rw [(h3.cores core).grainer, e2, ← (h1.cores core).grainer]

theorem atWg_some {s : State} {c w : Nat} {g : Wg} (hg : s.wg? c w = some g) (k : Wg → State) : atWg s c w k = .next (k g) := by
  simp [atWg, hg]

/-- Settles O49. The write-back sweeps the core's lines and unmaps the windows one by one; retiring frees what the
workgroup owns, and neither the meters nor the Bench's part of it bring anything back. -/
theorem workgroupsEnd : Obligations.WorkgroupsEnd := by
  unfold Obligations.WorkgroupsEnd
  intro s core w g hg
  refine ⟨fun hm hw => ?_, fun h => ?_, fun hm hw => ?_, fun h => ?_, fun ha => ?_, fun i ha => ?_⟩
  · obtain ⟨g', hg', -⟩ := (State.writeBackWg_calm (.refl s) core w g).wg hg
    let done : Wg → Wg := fun x => { x with written := true }
    have ht : (s.writeBackWg core w g).Calm ((s.writeBackWg core w g).modWg core w done) :=
      State.modWg_calm (.refl _) _ _ fun _ => rfl
    refine ⟨_, done g', (atWg_some hg _).trans (by rw [if_pos (by simp [hm, hw])]), ?_, rfl,
      noDirty_of_cleanAt fun lva => ?_, ?_⟩
    · simp [State.wg_modWg, hg', done]
    · exact (writeBackWg_cleanAt s core w g lva).quiet (ht.cores core)
    · rw [windows_modWg]
      exact writeBackWg_windows s core w g
  · exact (atWg_some hg _).trans (by rw [if_neg (by grind)])
  · exact ⟨_, (atWg_some hg _).trans (by rw [if_pos (by simp [hm, hw])]), retire_gone ..⟩
  · exact (atWg_some hg _).trans (by rw [if_neg (by grind)])
  · exact (atWg_some hg _).trans (by rw [ha])
  · exact ⟨_, (atWg_some hg _).trans (by rw [ha]), abortNow_gone hg i⟩

end Sys2Proof.Machine
end

section
/-! PROOFS. What loads, unloads, invalidates, saves, restores and fences (R36, R204, R205, R207, R223, R424). -/

namespace Sys2Proof.Machine

open Sys2Proof Sys2Proof.Claims

/-! ### Code objects: the load record is done with, and the state caches are empty -/

theorem load_modQ (s : State) (func q : Nat) (f : QState → QState) : (s.modQ func q f).qstate func q = f (s.qstate func q) := by
  simp [State.modQ, State.setQ, State.qstate]

/-- The end of a load or an unload: the Bench's reports, with the record no longer taken. -/
theorem loadEnd_quiet (s : State) (func q ctx pa : Nat) (rec_ : List Byte) (w : Nat) (ok : Bool) : ∃ r u : State,
    s.Quiet r ∧ u = r.modQ func q (fun x => { x with load := none }) ∧ u.Quiet (s.loadEnd func q ctx pa rec_ w ok) := by
  refine ⟨(s.benchDrop ctx (fld rec_ 0x28 8) (bytesOfNat 8 w)).physWrite (pa + 0x38) (bytesOfNat 4 (if ok then 1 else 10)), _,
    State.physWrite_quiet (State.benchDrop_quiet (.refl s) ..) .., rfl, ?_⟩
  unfold State.loadEnd
  dsimp only
  split
  · exact State.putQueueState_quiet (.refl _) ..
  · exact State.msix_quiet (State.putQueueState_quiet (.refl _) ..) ..

theorem qstate_congr {s t : State} (h : t.queues = s.queues) (func q : Nat) : t.qstate func q = s.qstate func q := by
  simp only [State.qstate, h]

theorem load_loadEnd (s : State) (func q ctx pa : Nat) (rec_ : List Byte) (w : Nat) (ok : Bool) :
    ((s.loadEnd func q ctx pa rec_ w ok).qstate func q).load = none := by
  obtain ⟨r, u, -, rfl, hu⟩ := loadEnd_quiet s func q ctx pa rec_ w ok
  rw [qstate_congr hu.queues, load_modQ]

theorem objects_loadEnd (s : State) (func q ctx pa : Nat) (rec_ : List Byte) (w : Nat) (ok : Bool) :
    (s.loadEnd func q ctx pa rec_ w ok).objects = s.objects := by
  obtain ⟨r, u, hr, rfl, hu⟩ := loadEnd_quiet s func q ctx pa rec_ w ok
  exact hu.objects.trans hr.objects

/-- Every state cache is empty. -/
def NoStates (m : KMap Core) : Prop := ∀ c ∈ m, ∀ y ∈ c.2.seqs, y.cache = []

theorem NoStates.seqsFrom {a b : KMap Core} (h : NoStates a) (k : SeqsFrom a b) : NoStates b := by
  intro e he y hy
  obtain hz | ⟨d, hd, hde⟩ := k e he
  · rw [hz] at hy
    rw [(List.mem_replicate.mp hy).2]
    rfl
  · exact h d hd y (hde ▸ hy)

theorem noStates_emptyStateCaches (s : State) : NoStates s.emptyStateCaches.cores := by
  intro e he y hy
  obtain ⟨d, -, rfl⟩ := List.mem_map.mp he
  obtain ⟨x, -, rfl⟩ := List.mem_map.mp hy
  rfl

theorem noStates_unload (s : State) (ctx : Nat) (o : CodeObj) : NoStates (s.unload ctx o).cores :=
  noStates_emptyStateCaches _

theorem noStates_loadEnd {s : State} (h : NoStates s.cores) (func q ctx pa : Nat) (rec_ : List Byte) (w : Nat) (ok : Bool) :
    NoStates (s.loadEnd func q ctx pa rec_ w ok).cores := by
  obtain ⟨r, u, hr, rfl, hu⟩ := loadEnd_quiet s func q ctx pa rec_ w ok
  exact (h.seqsFrom hr.seqs).seqsFrom hu.seqs

theorem codeObjects_load_unload (s : State) (func q : Nat) :
    (s.loadDue func q = none → exec (.codeObjectLoad func q) s = .next s ∧ exec (.codeObjectUnload func q) s = .next s) ∧
    ∀ ctx pa rec_, s.loadDue func q = some (ctx, pa, rec_) →
      (fld rec_ 0x10 8 ≠ 0 →
        (∀ s2 f, s.loadCheck ctx rec_ = (s2, .error f) → exec (.codeObjectLoad func q) s =
          .next (s2.loadEnd func q ctx pa rec_ f.word false)) ∧
        (∀ s2 e code, s.loadCheck ctx rec_ = (s2, .ok (e, code)) → ∃ t, exec (.codeObjectLoad func q) s = .next t ∧
          (t.qstate func q).load = none ∧ ∃ o ∈ t.objects, o.ctx = ctx ∧ o.va = BitVec.ofNat 64 code ∧
            o.secs = (Elf.secs e).map (fun c => (c.addr, c.bytes.length)))) ∧
      (fld rec_ 0x10 8 = 0 →
        (s.objects.find? (fun o => o.ctx == ctx && o.va.toNat == fld rec_ 0x18 8) = none →
          exec (.codeObjectUnload func q) s = .next (s.loadEnd func q ctx pa rec_ (LoadFail.word { code := 9 }) false)) ∧
        (∀ o s2, s.objects.find? (fun o => o.ctx == ctx && o.va.toNat == fld rec_ 0x18 8) = some o →
          s.pagesOk ctx (o.secs.map (fun c => (o.va.toNat + c.1, c.2))) = (s2, true) →
          ∃ t, exec (.codeObjectUnload func q) s = .next t ∧ (∀ p ∈ t.objects, ¬(p.ctx = ctx ∧ p.va = o.va)) ∧
            ∀ c ∈ t.cores, ∀ y ∈ c.2.seqs, y.cache = [])) := by
  have hl : exec (.codeObjectLoad func q) s = execCodeObjectLoad func q s := rfl
  have hu : exec (.codeObjectUnload func q) s = execCodeObjectUnload func q s := rfl
  simp only [hl, hu, execCodeObjectLoad, execCodeObjectUnload]
  refine ⟨fun h => by simp [h], fun ctx pa rec_ h => ⟨fun hz => ⟨fun s2 f hc => by simp [h, hz, hc], fun s2 e code hc => ?_⟩,
    fun hz => ⟨fun ho => by simp [h, hz, ho], fun o s2 ho hp => ?_⟩⟩⟩
  · refine ⟨_, rfl, ?_⟩
    simp only [h, if_neg hz, hc, load_loadEnd, objects_loadEnd, true_and]
    exact ⟨_, List.mem_cons_self, rfl, rfl, rfl⟩
  · refine ⟨_, rfl, ?_⟩
    simp only [h, hz, ne_eq, not_true_eq_false, if_false, ho, hp, objects_loadEnd]
    have hempty : NoStates ((s2.unload ctx o).loadEnd func q ctx pa rec_ loadedWord true).cores :=
      noStates_loadEnd (noStates_unload s2 ctx o) func q ctx pa rec_ loadedWord true
    exact ⟨fun p hm => by simpa [imp_iff_not_or] using (List.mem_filter.mp hm).2, hempty⟩

/-! ### Invalidations: no line of the context in the range stays -/

/-- A core holds no line at an address of a context, of data or of code. -/
def Core.Lacks (co : Core) (ctx lva : Nat) : Prop := co.l1Find ctx lva = none ∧ co.icFind ctx lva = none

theorem icFind_congr {a b : Core} (h : b.icache = a.icache) (ctx lva : Nat) : b.icFind ctx lva = a.icFind ctx lva := by
  simp only [Core.icFind, Core.icSet, h]

theorem Core.Lacks.quiet {β : Type} {pr : Wg → β} {a b : Core} {ctx lva : Nat} (h : a.Lacks ctx lva) (k : Core.Quiet pr a b) :
    b.Lacks ctx lva :=
  ⟨k.l1Find_none h.1, (icFind_congr k.icache ..).trans h.2⟩

theorem l1Find_l1Del (co : Core) (ctx lva : Nat) : (co.l1Del ctx lva).l1Find ctx lva = none := by
  simp only [Core.l1Find, Core.l1Del, Core.l1Set, kget_kset_self, List.find?_eq_none]
  intro l hl
  simpa [imp_iff_not_or] using (List.mem_filter.mp hl).2

theorem dropLine_l1Find (s : State) (c : Nat) (l : Line) : ((s.dropLine c l).core c).l1Find l.ctx l.lva = none := by
  unfold State.dropLine
  simp [l1Find_l1Del]

/-- A sweep that invalidates leaves no line that it selects by address. -/
theorem sweep_l1Find (s : State) (a : Acc) (sel : Nat → Nat → Bool) {ctx lva : Nat} (hsel : sel ctx lva = true) :
    ((s.sweep a (fun l => sel l.ctx l.lva) true).core a.core).l1Find ctx lva = none := by
  unfold State.sweep
  simp only [↓reduceIte]
  generalize hf : ((s.core a.core).lines.filter (fun l => sel l.ctx l.lva)).foldl (fun s l =>
    (s.writeOff a l true).dropLine a.core l) s = s1
  have hturn (t : State) (l : Line) : t.Quiet ((t.writeOff a l true).dropLine a.core l) :=
    State.dropLine_quiet (State.writeOff_quiet (.refl t) ..) ..
  have hs : s.Quiet s1 := hf ▸ quiet_foldl (.refl s) fun t l ht => ht.trans (hturn t l)
  have heach : ∀ l ∈ (s.core a.core).lines.filter (fun l => sel l.ctx l.lva), (s1.core a.core).l1Find l.ctx l.lva = none :=
    hf ▸ foldl_each (P := fun (l : Line) (t : State) => (t.core a.core).l1Find l.ctx l.lva = none)
      (fun t l => dropLine_l1Find ..) (fun t l m h => ((hturn t m).cores _).l1Find_none h) _ _
  have hgone : (s1.core a.core).l1Find ctx lva = none := by
    cases h : (s1.core a.core).l1Find ctx lva with
    | none => rfl
    | some l =>
      have hp := List.find?_some h
      simp only [Bool.and_eq_true, beq_iff_eq] at hp
      obtain ⟨rfl, rfl⟩ := hp
      obtain ⟨m, hm, hc, hv, -⟩ := (hs.cores a.core).lines _ l (List.mem_of_find?_eq_some h)
      rw [← h, ← hc, ← hv]
      exact heach m (List.mem_filter.mpr ⟨mem_lines_of_mem_l1Set hm, by rw [hc, hv, hsel]⟩)
  refine ((quiet_foldl (.refl s1) fun t e ht => ?_).cores _).l1Find_none hgone
  exact State.modCore_quiet (State.writeOff_quiet ht ..) _ (stashDel_quiet ..)

theorem mem_icKeep {co : Core} {p : ILine → Bool} {lva : Nat} {l : ILine} (h : l ∈ (co.icKeep p).icSet lva) : p l = true := by
  unfold Core.icSet kget at h
  cases e : kfind (lva % 128) (co.icKeep p).icache with
  | none => simp [e] at h
  | some ls =>
    have hm := mem_of_kfind e
    simp only [Core.icKeep, List.mem_filter, List.mem_map] at hm
    obtain ⟨⟨d, -, hd⟩, -⟩ := hm
    obtain rfl : d.2.filter p = ls := congrArg Prod.snd hd
    exact (List.mem_filter.mp (by simpa [e] using h)).2

theorem icFind_icKeep (co : Core) (p : ILine → Bool) {ctx lva : Nat}
    (h : ∀ l : ILine, l.ctx = ctx → l.lva = lva → p l = false) :
    (co.icKeep p).icFind ctx lva = none := by
  simp only [Core.icFind, List.find?_eq_none, Bool.and_eq_true, beq_iff_eq, not_and]
  intro l hl hc hv
  simpa [h l hc hv] using mem_icKeep hl

/-- The access by which a request writes back the lines of a core. -/
def Inval.acc (r : Inval) (c : Nat) : Acc :=
  { payer := .house, core := c, ctx := r.ctx, func := r.func, conf := false, bench := false }

/-- The addresses of lines that a request covers. -/
def State.hits (s : State) (r : Inval) (ctx lva : Nat) : Bool := s.covers r ctx && r.meets (lva * 128) 128

theorem invalCore_l1 (s : State) (r : Inval) (c d : Nat) :
    ((s.invalCore r c).core d).l1 = ((s.sweep (r.acc c) (fun l => s.hits r l.ctx l.lva) true).core d).l1 := by
  simp only [State.invalCore, State.core_modCore, State.hits, Inval.acc]
  split
  · next e => rw [e, Core.icKeep]
  · rfl

theorem invalCore_icache (s : State) (r : Inval) (c d : Nat) :
    ((s.invalCore r c).core d).icache = if d = c then
      (((s.sweep (r.acc c) (fun l => s.hits r l.ctx l.lva) true).core c).icKeep (fun l => !s.hits r l.ctx l.lva)).icache
      else ((s.sweep (r.acc c) (fun l => s.hits r l.ctx l.lva) true).core d).icache := by
  simp only [State.invalCore, State.core_modCore, State.hits, Inval.acc]
  split <;> rfl

theorem l1Find_congr {a b : Core} (h : b.l1 = a.l1) (ctx lva : Nat) : b.l1Find ctx lva = a.l1Find ctx lva := by
  simp only [Core.l1Find, Core.l1Set, h]

theorem hits_self (s : State) {r : Inval} {lva : Nat} (hk : r.kind ≤ 1) (hm : r.meets (lva * 128) 128 = true) :
    s.hits r r.ctx lva = true := by simp [State.hits, State.covers, hk, hm]

/-- A core's own turn removes the lines, and that of another core brings none back. -/
theorem invalCore_lacks (s : State) (r : Inval) (c d : Nat) {lva : Nat} (hk : r.kind ≤ 1) (hm : r.meets (lva * 128) 128 = true)
    (h : d = c ∨ (s.core d).Lacks r.ctx lva) : ((s.invalCore r c).core d).Lacks r.ctx lva := by
  by_cases hd : d = c
  · subst hd
    refine ⟨(l1Find_congr (invalCore_l1 ..) ..).trans (sweep_l1Find s (r.acc d) (s.hits r) (hits_self s hk hm)), ?_⟩
    refine (icFind_congr ((invalCore_icache ..).trans (if_pos rfl)) ..).trans (icFind_icKeep _ _ fun l hc hv => ?_)
    simp only [hc, hv, hits_self s hk hm, Bool.not_true]
  · obtain ⟨hl, hi⟩ := (h.resolve_left hd).quiet
      ((State.sweep_quiet (.refl s) (r.acc c) (fun l => s.hits r l.ctx l.lva) true).cores d)
    exact ⟨(l1Find_congr (invalCore_l1 ..) ..).trans hl,
      (icFind_congr ((invalCore_icache ..).trans (if_neg hd)) ..).trans hi⟩

theorem lacks_unlisted {s : State} {c : Nat} (h : c ∉ kkeys s.cores) (ctx lva : Nat) : (s.core c).Lacks ctx lva := by
  have hn : kfind c s.cores = none := kfind_eq_none_iff.mpr fun e he hec => h (List.mem_map.mpr ⟨e, he, hec⟩)
  rw [State.core, hn]
  exact ⟨rfl, rfl⟩

theorem invalidate_lacks (s : State) (r : Inval) (c : Nat) {lva : Nat} (hk : r.kind ≤ 1) (hm : r.meets (lva * 128) 128 = true) :
    ((s.invalidate r).core c).Lacks r.ctx lva := by
  simp only [State.invalidate]
  refine Core.Lacks.quiet ?_ ((State.landAll_quiet (.refl _)).cores c)
  generalize s.landAll = u
  generalize (kmap (fun _ l => l.filter (fun t => !u.coversTlb r t)) u.tlb).filter (fun e => !e.2.isEmpty) = tlb
  by_cases hc : c ∈ kkeys u.cores
  · exact foldl_each (P := fun c (t : State) => (t.core c).Lacks r.ctx lva)
      (fun t d => invalCore_lacks t r d d hk hm (.inl rfl))
      (fun t d e h => invalCore_lacks t r e d hk hm (.inr h)) _ _ c hc
  · exact List.foldlRecOn (motive := fun t : State => (t.core c).Lacks r.ctx lva) _ _ (lacks_unlisted hc r.ctx lva)
      fun t ht d _ => invalCore_lacks t r d c hk hm (.inr ht)

theorem meets_of {r : Inval} {lva : Nat}
    (h : r.kind = 1 ∨ r.len = 0 ∨ (128 * lva < r.base + r.len ∧ r.base < 128 * lva + 128)) :
    r.meets (lva * 128) 128 = true := by
  have hc : lva * 128 = 128 * lva := Nat.mul_comm ..
  simp only [Inval.meets, hc, Bool.or_eq_true, Bool.and_eq_true, beq_iff_eq, decide_eq_true_eq]
  tauto

/-- A field of a request's entry. -/
def entryField (e : List Byte) (at_ n : Nat) : Nat := natOfBytes ((e.drop at_).take n)

/-- The request that an entry of a function's ring asks for. -/
def Inval.ofEntry (func : Nat) (e : List Byte) : Inval where
  kind := entryField e 0x12 1
  ctx := entryField e 0x10 2 % 4096
  func := func
  base := entryField e 0 8
  len := entryField e 8 8

section
variable {s s2 : State} {func : Nat} {e : List Byte} {d : CtxDesc}

theorem invalidationRequest_refused (hs : s.ringTake (s.invRing func) = (s2, some e))
    (hd : s2.ctxDesc (Inval.ofEntry func e).ctx = some d)
    (h : entryField e 0x13 5 ≠ 0 ∨ 3 < (Inval.ofEntry func e).kind ∨ d.func ≠ func) :
    exec (.invalidationRequest func) s =
      .next (s2.invDone func (Inval.ofEntry func e).ctx (entryField e 0x18 8) (2 ^ 64 - 1)) := by
  have he : exec (.invalidationRequest func) s = execInvalidationRequest func s := rfl
  rw [he, ← allOnes64]
  simp only [entryField, Inval.ofEntry] at hd h ⊢
  simp only [execInvalidationRequest, hs, hd]
  rw [if_pos (by simpa using h)]

theorem invalidationRequest_taken (hs : s.ringTake (s.invRing func) = (s2, some e))
    (hd : s2.ctxDesc (Inval.ofEntry func e).ctx = some d) (hz : entryField e 0x13 5 = 0)
    (hk : (Inval.ofEntry func e).kind ≤ 1) (hf : d.func = func) : ∃ u t : State,
      exec (.invalidationRequest func) s = .next t ∧ (u.invalidate (Inval.ofEntry func e)).Quiet t := by
  have he : exec (.invalidationRequest func) s = execInvalidationRequest func s := rfl
  simp only [he, execInvalidationRequest, hs]
  simp only [entryField, Inval.ofEntry] at hd hz hk ⊢
  rw [hd, if_neg (by simp [hz, hf]; omega)]
  split
  · exact ⟨_, _, rfl, .refl _⟩
  · exact ⟨_, _, rfl, State.invDone_quiet (.refl _) ..⟩
end

end Sys2Proof.Machine
end

section
/-! PROOFS. A forced save (R36, R300, R421): the image that the pool retains, and the slots that become free. -/

namespace Sys2Proof.Machine

open Sys2Proof Sys2Proof.Claims

/-! ### What the Bench's part of a save leaves of the saved workgroups -/

theorem saved_foldl {α : Type} {s : State} {l : List α} {f : State → α → State} (hf : ∀ s a, (f s a).saved = s.saved) :
    (l.foldl f s).saved = s.saved :=
  List.foldlRecOn (motive := fun t : State => t.saved = s.saved) l f rfl fun t ht a _ => (hf t a).trans ht

theorem physWrite_saved (s : State) (pa : Nat) (bs : List Byte) : (s.physWrite pa bs).saved = s.saved :=
  (State.physWrite_quiet (.refl s) ..).saved

theorem modQ_saved (s : State) (func q : Nat) (f : QState → QState) : (s.modQ func q f).saved = s.saved := rfl

theorem holdNow_saved (s : State) (func q : Nat) : (s.holdNow func q).saved = s.saved := by
  have hl := saved_foldl (s := s) (l := s.launchesOf func q) (f := fun s l =>
    if l.next < l.nwg then s.physWrite (l.slotPa + 0x14) (bytesOfNat 4 l.next) else s) fun s l => by
      split
      · exact physWrite_saved ..
      · rfl
  simp only [State.holdNow, modQ_saved]
  split
  · rw [physWrite_saved, hl]
  · exact hl

theorem holdCheck_saved (s : State) (func q : Nat) : (s.holdCheck func q).saved = s.saved := by
  simp only [State.holdCheck]
  split
  · split
    · exact holdNow_saved ..
    · rfl
  · split <;> rfl

theorem finishRec_saved (s : State) (func q ctx slotPa : Nat) (r : LRec) (energy status : Nat) :
    (s.finishRec func q ctx slotPa r energy status).saved = s.saved := by
  have hw := (State.physWrite_quiet (State.physWrite_quiet (.refl s) (slotPa + 0x30) (bytesOfNat 8 energy)) (slotPa + 0x38)
    (bytesOfNat 4 status))
  have hd : s.Quiet (if r.cword = 0 then (s.physWrite (slotPa + 0x30) (bytesOfNat 8 energy)).physWrite (slotPa + 0x38)
      (bytesOfNat 4 status) else ((s.physWrite (slotPa + 0x30) (bytesOfNat 8 energy)).physWrite (slotPa + 0x38)
      (bytesOfNat 4 status)).benchDrop ctx r.cword (bytesOfNat 4 status ++ bytesOfNat 4 r.qtag)) := by
    split
    · exact hw
    · exact State.benchDrop_quiet hw ..
  simp only [State.finishRec]
  split
  · exact (State.msix_quiet hd ..).saved
  · exact hd.saved

theorem finishLaunch_saved (s : State) (l : Launch) (status : Nat) : (s.finishLaunch l status).saved = s.saved := by
  have hq (t : State) (func q : Nat) : (t.putQueueState func q).saved = t.saved :=
    (State.putQueueState_quiet (.refl t) ..).saved
  exact (hq ..).trans ((holdCheck_saved ..).trans (finishRec_saved ..))

/-- The saved workgroup under a number, as far as its image tells. -/
def Retains (m : KMap Saved) (n : Nat) (v : Saved) : Prop := ∃ l, kfind n m = some { v with launch := l }

theorem retains_kmap {m : KMap Saved} {n : Nat} {v : Saved} (h : Retains m n v) (id : Nat) (l : Launch) :
    Retains (kmap (fun _ v => if v.wg.launch = id then { v with launch := l } else v) m) n v := by
  obtain ⟨l', h⟩ := h
  rw [Retains, kfind_kmap, h, Option.map_some]
  split
  · exact ⟨l, rfl⟩
  · exact ⟨l', rfl⟩

theorem gangEnd_retains {s : State} {n : Nat} {v : Saved} (h : Retains s.saved n v) (l : Launch) (core part ix since : Nat) :
    Retains (s.gangEnd l core part (some ix) since).saved n v := by
  unfold State.gangEnd
  dsimp only
  rw [(State.msix_quiet (.refl _) ..).saved, finishLaunch_saved, (State.errorRecord_quiet (.refl _) ..).saved]
  refine retains_kmap ?_ ..
  rw [physWrite_saved]
  exact h

theorem launchCheck_retains {s : State} {n id : Nat} {v : Saved} (h : Retains s.saved n v)
    (hst : ∀ l, kfind id s.launches = some l → ∀ c p x, l.st ≠ .failing c p none x) : Retains (s.launchCheck id).saved n v := by
  unfold State.launchCheck
  split
  · exact h
  · next l hl =>
    split
    · next core part ix since he =>
      split
      · cases ix with
        | none => exact absurd he (hst l hl core part since)
        | some ix => exact gangEnd_retains h ..
      · exact h
    · split
      · rw [finishLaunch_saved]
        exact h
      · exact h

/-- From s to t the saved workgroups and the launches stay. -/
structure State.Ledger (s t : State) : Prop where
  saved : t.saved = s.saved
  launches : t.launches = s.launches

theorem State.Ledger.quiet {s t u : State} (h : s.Ledger t) (k : t.Quiet u) : s.Ledger u :=
  ⟨k.saved.trans h.saved, k.launches.trans h.launches⟩

theorem panStore_ledger {s0 s : State} (hs : s0.Ledger s) (func pa : Nat) (q : Pan) : s0.Ledger (s.panStore func pa q) := by
  unfold State.panStore
  cases s.ownsConf func <;> simp only [Bool.false_eq_true, ↓reduceIte]
  · have hw := State.physWrite_quiet (State.physWrite_quiet (State.physWrite_quiet (State.physWrite_quiet (.refl s) pa
      (bytesOfNat 8 (q.bal % 2 ^ 64).toNat)) (pa + 0x28) (bytesOfNat 8 q.gr)) (pa + 0x20) (bytesOfNat 8 q.last)) (pa + 0x30)
      (bytesOfNat 4 q.flags ++ bytesOfNat 4 q.cnt)
    exact ⟨hw.saved.trans hs.saved, hw.launches.trans hs.launches⟩
  · have hw := State.physWrite_quiet (State.physWrite_quiet (.refl s) (pa + 0x20) (bytesOfNat 8 q.last)) (pa + 0x30)
      (bytesOfNat 4 q.flags ++ bytesOfNat 4 q.cnt)
    exact ⟨hw.saved.trans hs.saved, hw.launches.trans hs.launches⟩

theorem askSaves_ledger {s0 s : State} (hs : s0.Ledger s) (cause : Nat) (sel : Wg → Bool) : s0.Ledger (s.askSaves cause sel) :=
  ⟨hs.saved, hs.launches⟩

theorem msix_ledger {s0 s : State} (hs : s0.Ledger s) (func v : Nat) : s0.Ledger (s.msix func v) :=
  hs.quiet (State.msix_quiet (.refl s) ..)

theorem physRead_ledger {s0 s : State} (hs : s0.Ledger s) (pa n : Nat) : s0.Ledger (s.physRead pa n).1 :=
  hs.quiet (State.physRead_quiet (.refl s) ..)

theorem panOp_ledger {s0 s : State} (hs : s0.Ledger s) (func : Nat) (f : Pan → Pan × Bool) (draw : Bool) :
    s0.Ledger (s.panOp func f draw).1 := by
  unfold State.panOp
  grind [physRead_ledger, panStore_ledger, msix_ledger, askSaves_ledger]

theorem returnGrant_ledger (s : State) (core func : Nat) : s.Ledger (s.returnGrant core func) := by
  unfold State.returnGrant
  split
  · exact ⟨rfl, rfl⟩
  · split
    · exact ⟨rfl, rfl⟩
    · next g _ =>
      exact ⟨(panOp_ledger (s := s) ⟨rfl, rfl⟩ func _ false).saved, (panOp_ledger (s := s) ⟨rfl, rfl⟩ func _ false).launches⟩

/-! ### The save -/

/-- From s to t the workgroups stay but for their meters, and so do the launches and the number of the next save. -/
structure State.Stands (s t : State) : Prop where
  wgs : ∀ c w, (t.wg? c w).map Wg.body = (s.wg? c w).map Wg.body
  launches : t.launches = s.launches
  nextSaved : t.nextSaved = s.nextSaved

theorem State.Quiet.stands {s t : State} (h : s.Quiet t) : s.Stands t :=
  ⟨fun c w => (h.cores c).wgs w, h.launches, h.nextSaved⟩

theorem State.Stands.trans {s t u : State} (h : s.Stands t) (k : t.Stands u) : s.Stands u :=
  ⟨fun c w => (k.wgs c w).trans (h.wgs c w), k.launches.trans h.launches, k.nextSaved.trans h.nextSaved⟩

theorem State.Stands.wg {s t : State} (h : s.Stands t) {c w : Nat} {x : Wg} (hx : s.wg? c w = some x) :
    ∃ y, t.wg? c w = some y ∧ y.body = x.body := by
  have hw := h.wgs c w
  rw [hx] at hw
  exact Option.map_eq_some_iff.mp hw

theorem modCrewsOf_stands (s : State) (c w : Nat) (f : Crew → Crew) : s.Stands (s.modCrewsOf c w f) := by
  refine ⟨fun d v => ?_, rfl, rfl⟩
  simp only [State.modCrewsOf, State.wg?, State.core_modCore]
  split
  · next e => rw [e]
  · rfl

/-- A state in which a workgroup's writes have been accepted and its crews have settled. -/
def State.forSave (s : State) (c w : Nat) (x : Wg) : State :=
  ((((s.landCmds c w).modCrewsOf c w Crew.settle).fenceRel (accOf c w x) .dev).sweep (accOf c w x)
    (fun l => l.ctx == x.ctx) true).flushSlot c w

theorem forSave_stands (s : State) (c w : Nat) (x : Wg) : s.Stands (s.forSave c w x) :=
  (State.landCmds_quiet (.refl s) c w).stands.trans ((modCrewsOf_stands ..).trans
    (State.flushSlot_quiet (State.sweep_quiet (State.fenceRel_quiet (.refl _) ..) ..) ..).stands)

/-- The pool's record of a save, and the slots that become free. -/
def State.saveAs (s : State) (c w : Nat) (x : Wg) (v : Saved) : State :=
  (({ s with saved := kput s.nextSaved v s.saved, nextSaved := s.nextSaved + 1 } : State).modCore c
    (fun co => (co.releaseWg w x).freeWg w x)).modLaunch x.launch (fun l => { l with live := l.live - 1 })

theorem saveTo_eq {s : State} {c w : Nat} {x y : Wg} {l : Launch} (hy : (s.forSave c w x).wg? c w = some y)
    (hl : kfind x.launch (s.forSave c w x).launches = some l) (cause off : Nat) : ∃ v u, (s.forSave c w x).Quiet u ∧
      s.saveTo c w x cause off = ((u.saveAs c w y v).returnGrant c y.func).launchCheck y.launch ∧
      v.off = off ∧ v.func = y.func ∧ v.cause = cause ∧ v.wg.wgidx = y.wgidx ∧ v.wg.scr = y.scr := by
  unfold State.saveTo
  dsimp only
  rw [← State.forSave]
  simp only [hy, hl]
  refine ⟨_, _, State.physStore_quiet (.refl _) .., rfl, rfl, rfl, rfl, rfl, rfl⟩

theorem saveAs_core (s : State) (c w : Nat) (x : Wg) (v : Saved) :
    (s.saveAs c w x v).core c = ((s.core c).releaseWg w x).freeWg w x := by
  have h := State.core_modCore ({ s with saved := kput s.nextSaved v s.saved, nextSaved := s.nextSaved + 1 } : State) c c
    (fun co => (co.releaseWg w x).freeWg w x)
  rw [if_pos rfl] at h
  exact h

/-- Two workgroups of one launch and index, with the same crews and the same scratchpad. -/
def Wg.Like (x y : Wg) : Prop :=
  y.launch = x.launch ∧ y.func = x.func ∧ y.wgidx = x.wgidx ∧ y.scr = x.scr ∧ y.crews = x.crews

theorem like_of_body {x y : Wg} (h : y.body = x.body) : x.Like y :=
  ⟨(congrArg Wg.launch h :), (congrArg Wg.func h :), (congrArg Wg.wgidx h :), (congrArg Wg.scr h :), (congrArg Wg.crews h :)⟩

theorem Wg.Like.trans {x y z : Wg} (h : x.Like y) (k : y.Like z) : x.Like z := by
  obtain ⟨hl, hf, hi, hs, hc⟩ := h
  obtain ⟨kl, kf, ki, ks, kc⟩ := k
  exact ⟨kl.trans hl, kf.trans hf, ki.trans hi, ks.trans hs, kc.trans hc⟩

theorem kfind_kmod_self {α : Type} (k : Nat) (f : α → α) (m : KMap α) : kfind k (kmod k f m) = (kfind k m).map f := by
  unfold kmod
  split
  · next h => rw [kfind_kput_self, h, Option.map_some]
  · next h => rw [h, Option.map_none]

/-- A save frees the workgroup's slots and leaves its image under the next number. -/
theorem saveTo_saves {s : State} {c w : Nat} {x x' : Wg} {l : Launch} (hx : s.wg? c w = some x') (hlike : x.Like x')
    (hl : kfind x.launch s.launches = some l) (hst : ∀ c p t, l.st ≠ .failing c p none t) (cause off : Nat) :
    (s.saveTo c w x cause off).wg? c w = none ∧ (∀ sl ∈ x.crews, (s.saveTo c w x cause off).crew? ⟨c, sl⟩ = none) ∧
      ∃ v, kfind s.nextSaved (s.saveTo c w x cause off).saved = some v ∧ v.off = off ∧ v.func = x.func ∧ v.cause = cause ∧
        v.wg.wgidx = x.wgidx ∧ v.wg.scr = x.scr := by
  have hs := forSave_stands s c w x
  obtain ⟨y, hy, hb⟩ := hs.wg hx
  obtain ⟨hyl, hyf, hyi, hys, hyc⟩ := hlike.trans (like_of_body hb)
  obtain ⟨v, u, hu, ht, hoff, hfunc, hcause, hidx, hscr⟩ :=
    saveTo_eq hy ((congrArg (kfind x.launch) hs.launches).trans hl) cause off
  rw [ht, ← hyc, hyl]
  have hg := returnGrant_ledger (u.saveAs c w y v) c y.func
  have hcalm : (u.saveAs c w y v).Calm (((u.saveAs c w y v).returnGrant c y.func).launchCheck x.launch) :=
    State.launchCheck_calm (State.returnGrant_calm (.refl (u.saveAs c w y v)) c y.func) x.launch
  refine ⟨hcalm.wg_none ?_, fun sl hsl => ?_, ?_⟩
  · simp [State.wg?, saveAs_core, Core.freeWg, kfind_kdel]
  · rw [State.crew?, (hcalm.cores c).crews, saveAs_core, kfind_eq_none_iff]
    rintro e he rfl
    simp [Core.freeWg, hsl] at he
  · have hn : u.nextSaved = s.nextSaved := hu.nextSaved.trans hs.nextSaved
    have hr : Retains ((u.saveAs c w y v).returnGrant c y.func).saved s.nextSaved v := by
      rw [hg.saved, ← hn]
      exact ⟨v.launch, kfind_kput_self ..⟩
    obtain ⟨l', hv⟩ := launchCheck_retains (id := x.launch) hr fun m hm c p t => by
      have hm' : (kfind x.launch (kmod y.launch (fun l => { l with live := l.live - 1 }) u.launches)) = some m :=
        (congrArg (kfind x.launch) hg.launches).symm.trans hm
      rw [hyl, kfind_kmod_self, hu.launches, hs.launches, hl] at hm'
      obtain rfl : { l with live := l.live - 1 } = m := Option.some.inj hm'
      exact hst c p t
    exact ⟨_, hv, hoff, hfunc.trans hyf, hcause, hidx.trans hyi, hscr.trans hys⟩

/-! ### FORCED_PREEMPTION -/

theorem modWg_some {s : State} {c w : Nat} {x : Wg} (hx : s.wg? c w = some x) (f : Wg → Wg) :
    s.modWg c w f = s.setWg c w (f x) := by
  simp only [State.modWg, hx]

/-- A workgroup whose save is asked for. -/
def Wg.asked (x : Wg) (cause at_ : Nat) : Wg := { x with save := some (cause, at_) }

theorem saveReady_setWg (s : State) (c w : Nat) (x y : Wg) : (s.setWg c w y).saveReady c w x = s.saveReady c w x := by
  have hc : ((s.setWg c w y).core c).cmds = (s.core c).cmds := by simp [State.core_setWg]
  simp only [State.saveReady, hc, State.crew_setWg]

theorem cmds_setWg (s : State) (c w : Nat) (y : Wg) : ((s.setWg c w y).core c).cmds = (s.core c).cmds := by
  simp [State.core_setWg]

theorem poolFit_setWg (s : State) (c w : Nat) (y : Wg) (func n : Nat) : (s.setWg c w y).poolFit func n = s.poolFit func n := rfl

theorem noRoom_wg {s : State} {c w : Nat} {x : Wg} (hx : s.wg? c w = some x) (ha : x.abort = none) (z : Wg) :
    ∃ y i, (s.noRoom c w z).wg? c w = some y ∧ y.abort = some i ∧ i.cause = 0x25 := by
  simp [State.noRoom, State.abortWg, State.wg_modWg, hx, ha]

section
variable {s : State} {core w : Nat} {g : Wg} (hg : s.wg? core w = some g) (ha : g.abort = none) (hw : g.written = false)
  (hsv : g.save = none) (cause : Nat)
include hg ha hw hsv

theorem forcedPreemption_eq : exec (.forcedPreemption core w cause) s = .next (
    if s.saveReady core w g then (s.setWg core w (g.asked cause s.refclk)).saveNow core w g cause
    else s.setWg core w (g.asked cause s.refclk)) := by
  refine (atWg_some hg _).trans ?_
  rw [if_neg (by simp [ha, hw]), ← saveReady_setWg s core w g (g.asked cause s.refclk)]
  simp only [hsv, modWg_some hg]
  rfl

theorem forcedPreemption_asks (h : s.saveReady core w g = false) : exec (.forcedPreemption core w cause) s =
    .next (s.setWg core w { g with save := some (cause, s.refclk) }) := by
  rw [forcedPreemption_eq hg ha hw hsv, h, if_neg Bool.false_ne_true, Wg.asked]

theorem forcedPreemption_saves {off : Nat} {l : Launch} (h : s.saveReady core w g = true)
    (hl : kfind g.launch s.launches = some l)
    (hp : s.poolFit g.func (imageSize g.kernel ((s.core core).cmds.filter (fun c => c.wg == w)).length) = some off)
    (hst : ∀ c p x, l.st ≠ .failing c p none x) :
    ∃ t v, exec (.forcedPreemption core w cause) s = .next t ∧ t.wg? core w = none ∧
      (∀ sl ∈ g.crews, t.crew? ⟨core, sl⟩ = none) ∧ kfind s.nextSaved t.saved = some v ∧ v.off = off ∧ v.func = g.func ∧
      v.cause = cause ∧ v.wg.wgidx = g.wgidx ∧ v.wg.scr = g.scr := by
  have hx : (s.setWg core w (g.asked cause s.refclk)).wg? core w = some (g.asked cause s.refclk) := by simp
  obtain ⟨hnone, hcrews, v, hv, hfields⟩ := saveTo_saves (x := g) hx ⟨rfl, rfl, rfl, rfl, rfl⟩ hl hst cause off
  refine ⟨_, v, (forcedPreemption_eq hg ha hw hsv cause).trans ?_, hnone, hcrews, hv, hfields⟩
  rw [if_pos h, State.saveNow, cmds_setWg, poolFit_setWg]
  simp only [hp]

theorem forcedPreemption_noRoom (h : s.saveReady core w g = true)
    (hp : s.poolFit g.func (imageSize g.kernel ((s.core core).cmds.filter (fun c => c.wg == w)).length) = none) :
    ∃ t y i, exec (.forcedPreemption core w cause) s = .next t ∧ t.wg? core w = some y ∧ y.abort = some i ∧ i.cause = 0x25 := by
  have hx : (s.setWg core w (g.asked cause s.refclk)).wg? core w = some (g.asked cause s.refclk) := by simp
  obtain ⟨y, i, hy, hi, hc⟩ := noRoom_wg hx ha g
  refine ⟨_, y, i, (forcedPreemption_eq hg ha hw hsv cause).trans ?_, hy, hi, hc⟩
  rw [if_pos h, State.saveNow, cmds_setWg, poolFit_setWg]
  simp only [hp]
end

end Sys2Proof.Machine
end

section
/-! PROOFS. A restore (R305, R424): what brings back a saved workgroup's macros leaves the workgroups and the pool alone. -/

namespace Sys2Proof.Machine

open Sys2Proof Sys2Proof.Claims

/-- What a restored workgroup goes on with. -/
def Wg.image (g : Wg) : Nat × Kernel × KMap Byte × Option (Nat × Nat) := (g.wgidx, g.kernel, g.scr, g.save)

/-- From s0 to s the workgroups' images and the saved workgroups stay. -/
structure State.Holds (s0 s : State) : Prop where
  wgs : ∀ c w, (s.wg? c w).map Wg.image = (s0.wg? c w).map Wg.image
  saved : s.saved = s0.saved

theorem State.Holds.refl (s : State) : s.Holds s := ⟨fun _ _ => rfl, rfl⟩

theorem State.Holds.trans {s t u : State} (h : s.Holds t) (k : t.Holds u) : s.Holds u :=
  ⟨fun c w => (k.wgs c w).trans (h.wgs c w), k.saved.trans h.saved⟩

theorem State.Quiet.holds {s t : State} (h : s.Quiet t) : s.Holds t :=
  ⟨fun c w => ((h.cores c).mono (f := Wg.image) (g := Wg.image) fun _ => rfl).wgs w, h.saved⟩

theorem holds_fst {β : Type} {s0 : State} {p : State × β} {t : State} {b : β} (h : s0.Holds p.1) (e : p = (t, b)) :
    s0.Holds t := by
  subst e
  exact h

theorem holds_foldl {α : Type} {s0 s : State} {l : List α} {f : State → α → State} (h : s0.Holds s)
    (hf : ∀ s a, s0.Holds s → s0.Holds (f s a)) : s0.Holds (l.foldl f s) :=
  List.foldlRecOn l f h fun s hs a _ => hf s a hs

theorem holds_foldl_fst {α β : Type} {s0 : State} {s : State × β} {l : List α} {f : State × β → α → State × β}
    (h : s0.Holds s.1) (hf : ∀ s a, s0.Holds s.1 → s0.Holds (f s a).1) : s0.Holds (l.foldl f s).1 :=
  List.foldlRecOn (motive := fun r => s0.Holds r.1) l f h fun s hs a _ => hf s a hs

theorem State.modCore_holds {s0 s : State} (hs : s0.Holds s) (c : Nat) {f : Core → Core}
    (hf : (f (s.core c)).wgs = (s.core c).wgs) : s0.Holds (s.modCore c f) where
  wgs d w := by
    rw [← hs.wgs, State.wg?, State.wg?, State.core_modCore]
    split
    · next e => rw [e, hf]
    · rfl
  saved := hs.saved

/-! ### Quiet steps -/

theorem State.bill_holds {s0 s : State} (hs : s0.Holds s) (p pl cls n) : s0.Holds (s.bill p pl cls n) :=
  hs.trans (State.bill_quiet (.refl _) ..).holds

theorem State.tally_holds {s0 s : State} (hs : s0.Holds s) (a ev) : s0.Holds (s.tally a ev) :=
  hs.trans (State.tally_quiet (.refl _) ..).holds

theorem State.walk_holds {s0 s : State} (hs : s0.Holds s) (a va write) : s0.Holds (s.walk a va write).1 :=
  hs.trans (State.walk_quiet (.refl _) ..).holds

theorem State.serveRead_holds {s0 s : State} (hs : s0.Holds s) (a at_ k n) : s0.Holds (s.serveRead a at_ k n).1 :=
  hs.trans (State.serveRead_quiet (.refl _) ..).holds

/-! ### One lemma for each function -/

theorem State.setCrew_holds {s0 s : State} (hs : s0.Holds s) (k x) : s0.Holds (s.setCrew k x) :=
  State.modCore_holds hs _ rfl

theorem State.modCrew_holds {s0 s : State} (hs : s0.Holds s) (k f) : s0.Holds (s.modCrew k f) := by
  unfold State.modCrew
  grind [State.setCrew_holds]

theorem State.abortWg_holds {s0 s : State} (hs : s0.Holds s) (c w i) : s0.Holds (s.abortWg c w i) where
  wgs d v := by
    rw [← hs.wgs, State.abortWg, State.wg_modWg]
    split
    · next e =>
      rw [e.1, e.2, Option.map_map]
      refine congrArg (fun f => (s.wg? c w).map f) (funext fun x => ?_)
      simp only [Function.comp_apply]
      split <;> rfl
    · rfl
  saved := by
    unfold State.abortWg State.modWg
    split
    · exact hs.saved
    · exact hs.saved

theorem State.tlbPut_holds {s0 s : State} (hs : s0.Holds s) (a va t) : s0.Holds (s.tlbPut a va t) :=
  ⟨hs.wgs, hs.saved⟩

theorem State.translate_holds {s0 s : State} (hs : s0.Holds s) (a va write exec) :
    s0.Holds (s.translate a va write exec).1 := by
  unfold State.translate
  grind [State.walk_holds, State.tally_holds, State.tlbPut_holds]

theorem State.undrain_holds {s0 s : State} (hs : s0.Holds s) (key) : s0.Holds (s.undrain key) := by
  unfold State.undrain
  grind [State.setCrew_holds]

theorem State.fail_holds {s0 s : State} (hs : s0.Holds s) (key f) : s0.Holds (s.fail key f) := by
  unfold State.fail
  grind [State.abortWg_holds, State.setCrew_holds]

theorem State.streamPart_holds {s0 s : State} (hs : s0.Holds s) (a h va n write) :
    s0.Holds (s.streamPart a h va n write).1 := by
  unfold State.streamPart
  grind [State.translate_holds]

theorem State.streamSpan_holds {s0 s : State} (hs : s0.Holds s) (a h va n write) :
    s0.Holds (s.streamSpan a h va n write).1 := by
  unfold State.streamSpan
  split
  · exact hs
  · refine holds_foldl_fst hs fun r p hr => ?_
    split
    · exact hr
    · exact State.streamPart_holds hr ..

theorem State.engRead_holds {s0 s : State} (hs : s0.Holds s) (a l) : s0.Holds (s.engRead a l).1 := by
  fun_induction State.engRead <;> grind [State.serveRead_holds]

theorem State.cldRead_holds {s0 s : State} (hs : s0.Holds s) (a h src stride f i) :
    s0.Holds (s.cldRead a h src stride f i).1 := by
  unfold State.cldRead
  grind [State.streamSpan_holds, State.engRead_holds]

theorem State.reloadRow_holds {s0 s : State} (hs : s0.Holds s) (a mac f rl b j) :
    s0.Holds (s.reloadRow a mac f rl b j).1 := by
  unfold State.reloadRow
  split
  next e => exact holds_fst (State.cldRead_holds hs ..) e
  next e => exact holds_fst (State.cldRead_holds hs ..) e
  next e => exact State.bill_holds (State.modCore_holds (holds_fst (State.cldRead_holds hs ..) e) _ rfl) ..

theorem State.reloadRows_holds {s0 s : State} (hs : s0.Holds s) (a mac f rl b n i) :
    s0.Holds (State.reloadRows a mac f rl b n i s).1 := by
  fun_induction State.reloadRows <;> grind [State.reloadRow_holds]

theorem State.reload_holds {s0 s : State} (hs : s0.Holds s) (a w k0 l) : s0.Holds (State.reload a w k0 l s) := by
  fun_induction State.reload with
  | case1 => exact hs
  | case2 _ _ _ _ _ _ _ _ _ _ _ e ih => exact ih (holds_fst (State.reloadRows_holds hs ..) e)
  | case3 _ _ _ _ _ _ _ _ _ _ _ e ih =>
    exact ih (State.fail_holds (State.modCore_holds (holds_fst (State.reloadRows_holds hs ..) e) _ rfl) ..)
  | case4 _ _ _ _ _ _ _ _ _ _ _ _ _ e ih =>
    exact ih (State.modCore_holds (holds_fst (State.reloadRows_holds hs ..) e) _ rfl)
  | case5 _ _ _ _ _ _ _ _ _ _ _ _ _ _ e =>
    exact State.modCrew_holds (holds_fst (State.reloadRows_holds hs ..) e) ..
  | case6 _ _ _ _ _ _ _ ih => exact ih hs

/-! ### RESTORE -/

/-- On a core stands a workgroup with the image of a saved one, and no save of it is asked for. -/
def Resident (t : State) (c : Nat) (x : Wg) : Prop :=
  ∃ w g, t.wg? c w = some g ∧ g.wgidx = x.wgidx ∧ g.kernel = x.kernel ∧ g.scr = x.scr ∧ g.save = none

theorem State.Holds.resident {b t : State} (h : b.Holds t) {c : Nat} {x : Wg} (hr : Resident b c x) : Resident t c x := by
  obtain ⟨w, g, hg, hidx, hk, hs, hsv⟩ := hr
  have hw := h.wgs c w
  rw [hg] at hw
  obtain ⟨g', hg', hi⟩ := Option.map_eq_some_iff.mp hw
  simp only [Wg.image, Prod.mk.injEq] at hi
  obtain ⟨hidx', hk', hs', hsv'⟩ := hi
  exact ⟨w, g', hg', hidx'.trans hidx, hk'.trans hk, hs'.trans hs, hsv'.trans hsv⟩

theorem Resident.congr {b t : State} (h : t.cores = b.cores) {c : Nat} {x : Wg} (hr : Resident b c x) : Resident t c x := by
  have hc : t.core c = b.core c := by simp only [State.core, h]
  obtain ⟨w, g, hg, hfields⟩ := hr
  exact ⟨w, g, by rw [State.wg?, hc, ← State.wg?, hg], hfields⟩

theorem resident_modCore {s : State} {c w : Nat} {f : Core → Core} {m : KMap Wg} {g x : Wg}
    (hf : (f (s.core c)).wgs = kput w g m)
    (hg : g.wgidx = x.wgidx ∧ g.kernel = x.kernel ∧ g.scr = x.scr ∧ g.save = none) : Resident (s.modCore c f) c x :=
  ⟨w, g, by rw [State.wg?, State.core_modCore, if_pos rfl, hf, kfind_kput_self], hg⟩

theorem restoreOn_restores (s : State) (ix : Nat) (v : Saved) (l : Launch) (p c : Nat) :
    kfind ix (s.restoreOn ix v l p c).saved = none ∧ Resident (s.restoreOn ix v l p c) c v.wg := by
  have hb (b : State) (k0 : CrewKey) (a : Acc) (w : Nat) (rs : List (Nat × Nat)) (sls : List Nat) :
      b.Holds (sls.foldl (fun s sl => s.undrain ⟨c, sl⟩) (State.reload a w k0 rs b)) :=
    holds_foldl (State.reload_holds (.refl b) ..) fun _ _ hs => State.undrain_holds hs _
  unfold State.restoreOn
  dsimp only
  constructor
  · rw [(hb _ _ _ _ _ _).saved]
    exact (kfind_kdel ..).trans (if_pos rfl)
  · refine (hb _ _ _ _ _ _).resident ?_
    generalize hm : s.modCore c _ = m
    refine Resident.congr (b := m) rfl ?_
    rw [← hm]
    refine resident_modCore rfl ?_
    exact ⟨rfl, rfl, rfl, rfl⟩

theorem restore_restores (s : State) (ix : Nat) (v : Saved) (hv : kfind ix s.saved = some v) :
    (s.restorable v = none → exec (.restore ix) s = .next s) ∧
    (∀ l p c, s.restorable v = some (l, p, c) → ∃ t w g, exec (.restore ix) s = .next t ∧ kfind ix t.saved = none ∧
      t.wg? c w = some g ∧ g.wgidx = v.wg.wgidx ∧ g.kernel = v.wg.kernel ∧ g.scr = v.wg.scr ∧ g.save = none) := by
  have he : exec (.restore ix) s = execRestore ix s := rfl
  simp only [he, execRestore, hv]
  refine ⟨fun h => by rw [h], fun l p c h => ?_⟩
  obtain ⟨hs, w, g, hg⟩ := restoreOn_restores s ix v l p c
  exact ⟨_, w, g, by rw [h], hs, hg⟩

end Sys2Proof.Machine
end

section
/-! PROOFS. A core that is fenced, and errors of storage (R207, R220, R229, R431). -/

namespace Sys2Proof.Machine

open Sys2Proof Sys2Proof.Claims

/-! ### ENGINE_DRAIN_TIMEOUT -/

theorem engineDrainTimeout_stops {s : State} {core w : Nat} {g : Wg} {cause at_ : Nat} (hg : s.wg? core w = some g)
    (hs : g.save = some (cause, at_)) : exec (.engineDrainTimeout core w) s =
    .next (if at_ + 2000 ≤ s.refclk then s.modCore core (fun co => { co with cmds := co.cmds.map (fun c =>
      if c.wg = w ∧ c.runs = true then { c with st := .stopped } else c) }) else s) := by
  refine (atWg_some hg _).trans ?_
  rw [hs]

/-! ### CORE_FENCE -/

/-- A core that is cut off: its lines are given up, and no gang counts on it. -/
def State.cutOff (s : State) (core : Nat) (readable : Bool) : State :=
  let s := ({ s with flight := s.flight.filter (fun f => f.core != core) }.giveUp core readable).modCore core (fun co =>
    { co with fenced := true, l1 := [], windows := kmap (fun _ w => { w with lines := [] }) co.windows })
  let s := s.log { kind := 6, die := core / 192, core := core, who := 0, addr := 0, val := 0 }
  { s.msix 0 6 with launches := kmap (fun _ l => l.withoutCore core) s.launches }

/-- The committed gangs with a member on a core fail. -/
def State.failGangs (s : State) (core : Nat) (readable : Bool) : State :=
  ((kvals s.launches).filter (fun l => l.gang && l.ordinary && (s.residents l.id).any (fun e => e.1 == core))).foldl
    (fun s l => s.gangFail l core (!readable)) s

/-- A member of a failed gang that is to be saved is not aborted. -/
def State.keepsMember (s : State) (readable : Bool) (x : Wg) : Bool :=
  readable && x.save.isSome && (kvals s.launches).any (fun l => l.id == x.launch && l.failing)

def State.abortMember (s : State) (core : Nat) (e : Nat × Wg) : State :=
  s.abortWg core e.1 { cause := 0x22, orig := 0, epc := 0, earg := 0, ethr := 0, slot := e.2.crews.headD 0, eng := false,
                       at_ := s.refclk }

/-- The workgroups of a core but for those that are kept are to be aborted. -/
def State.abortMembers (s : State) (core : Nat) (readable : Bool) : State :=
  ((s.core core).wgs.filter (fun e => !s.keepsMember readable e.2)).foldl (fun s e => s.abortMember core e) s

theorem fenceCore_eq (s : State) (core : Nat) (readable : Bool) :
    s.fenceCore core readable = ((s.cutOff core readable).failGangs core readable).abortMembers core readable := rfl

/-! #### What a fence keeps -/

theorem cutOff_core (s : State) (core : Nat) (readable : Bool) :
    ((s.cutOff core readable).core core).fenced = true ∧ ((s.cutOff core readable).core core).l1 = [] := by
  simp only [State.cutOff]
  generalize State.giveUp _ core readable = u
  generalize hm : u.modCore core _ = m
  have hq := State.msix_quiet (State.log_quiet (.refl m)
    { kind := 6, die := core / 192, core := core, who := 0, addr := 0, val := 0 }) 0 6
  have hmc : (m.core core).fenced = true ∧ (m.core core).l1 = [] := by
    rw [← hm, State.core_modCore, if_pos rfl]
    exact ⟨rfl, rfl⟩
  have hc := hq.cores core
  exact ⟨hc.fenced.trans hmc.1, hc.noLines hmc.2⟩

theorem cutOff_launches (s : State) (core : Nat) (readable : Bool) :
    (s.cutOff core readable).launches = kmap (fun _ l => l.withoutCore core) s.launches := by
  have hq := State.giveUp_quiet (.refl ({ s with flight := s.flight.filter (fun f => f.core != core) } : State)) core readable
  simp only [State.cutOff]
  rw [(State.log_quiet (.refl _) _).launches]
  exact congrArg (kmap _) hq.launches

theorem cutOff_failed (s : State) (core : Nat) (readable : Bool) : (s.cutOff core readable).failed = s.failed := by
  have hq := State.giveUp_quiet (.refl ({ s with flight := s.flight.filter (fun f => f.core != core) } : State)) core readable
  simp only [State.cutOff]
  rw [(State.msix_quiet (.refl _) ..).failed, (State.log_quiet (.refl _) _).failed]
  exact hq.failed

theorem failGangs_calm (s : State) (core : Nat) (readable : Bool) : s.Calm (s.failGangs core readable) :=
  calm_foldl (.refl s) fun _ _ hs => State.gangFail_calm hs ..

theorem abortMembers_calm (s : State) (core : Nat) (readable : Bool) : s.Calm (s.abortMembers core readable) :=
  calm_foldl (.refl s) fun _ _ hs => State.abortWg_calm hs ..

/-! #### Who is aborted -/

/-- An abort is noted once, and asks for no save and drops none. -/
theorem abortWg_wg {s : State} {c w v : Nat} {i : AbortInfo} {g : Wg} (hg : (s.abortWg c w i).wg? c v = some g) :
    ∃ x, s.wg? c v = some x ∧ g.save = x.save ∧ (v = w ∨ x.abort ≠ none → g.abort ≠ none) := by
  rw [State.abortWg, State.wg_modWg] at hg
  split at hg
  · next e =>
    obtain ⟨x, hx, rfl⟩ := Option.map_eq_some_iff.mp hg
    refine ⟨x, by rw [e.2, hx], ?_⟩
    split <;> simp_all
  · next e => exact ⟨g, hg, rfl, fun h => h.resolve_left fun hv => e ⟨rfl, hv⟩⟩

theorem abortMembers_wg {s : State} {core w : Nat} {readable : Bool} {g : Wg}
    (hg : (s.abortMembers core readable).wg? core w = some g) :
    g.abort ≠ none ∨ ∃ x, s.wg? core w = some x ∧ g.save = x.save ∧ s.keepsMember readable x = true := by
  have hsave : ∃ x, s.wg? core w = some x ∧ g.save = x.save := by
    unfold State.abortMembers at hg
    generalize (s.core core).wgs.filter (fun e => !s.keepsMember readable e.2) = l at hg
    induction l generalizing s with
    | nil => exact ⟨g, hg, rfl⟩
    | cons e l ih =>
      obtain ⟨y, hy, hgy⟩ := ih hg
      obtain ⟨x, hx, hyx, -⟩ := abortWg_wg hy
      exact ⟨x, hx, hgy.trans hyx⟩
  obtain ⟨x, hx, hgx⟩ := hsave
  cases hk : s.keepsMember readable x with
  | true => exact .inr ⟨x, hx, hgx, hk⟩
  | false =>
    refine .inl ?_
    have heach := foldl_each (f := fun s e => State.abortMember s core e)
      (P := fun (e : Nat × Wg) (t : State) => ∀ g, t.wg? core e.1 = some g → g.abort ≠ none)
      (fun t e g hg => by
        obtain ⟨y, -, -, h⟩ := abortWg_wg hg
        exact h (.inl rfl))
      (fun t e d h g hg => by
        obtain ⟨y, hy, -, hn⟩ := abortWg_wg hg
        exact hn (.inr (h y hy)))
      ((s.core core).wgs.filter (fun e => !s.keepsMember readable e.2)) s
    exact heach (w, x) (List.mem_filter.mpr ⟨mem_of_kfind hx, by simp [hk]⟩) g hg

theorem keepsMember_save {s : State} {readable : Bool} {x : Wg} (h : s.keepsMember readable x = true) : x.save ≠ none := by
  simp only [State.keepsMember, Bool.and_eq_true] at h
  exact Option.isSome_iff_ne_none.mp h.1.2

theorem withoutCore_gang (l : Launch) (core : Nat) : (l.withoutCore core).gang = l.gang := by
  unfold Launch.withoutCore
  split <;> rfl

theorem withoutCore_failing (l : Launch) (core : Nat) : (l.withoutCore core).failing = l.failing := by
  unfold Launch.withoutCore
  split
  · next h => simp [Launch.failing, h]
  · rfl

theorem kvals_kmap {α : Type} (f : α → α) (m : KMap α) : kvals (kmap (fun _ x => f x) m) = (kvals m).map f := by
  simp [kvals, kmap]

/-- Without gangs nothing fails with the core, and without failed gangs nothing is kept. -/
theorem keepsMember_eq_false {s : State} {core : Nat} {readable : Bool}
    (h : ∀ l ∈ kvals s.launches, l.gang = false ∧ l.failing = false) (x : Wg) :
    ((s.cutOff core readable).failGangs core readable).keepsMember readable x = false := by
  have hl : ∀ l ∈ kvals (s.cutOff core readable).launches, l.gang = false ∧ l.failing = false := by
    rw [cutOff_launches, kvals_kmap]
    intro l hl
    obtain ⟨m, hm, rfl⟩ := List.mem_map.mp hl
    rw [withoutCore_gang, withoutCore_failing]
    exact h m hm
  have hnone : (s.cutOff core readable).failGangs core readable = s.cutOff core readable := by
    rw [State.failGangs, List.filter_eq_nil_iff.mpr fun l hm => by simp [(hl l hm).1], List.foldl_nil]
  rw [hnone, State.keepsMember, Bool.and_eq_false_iff, List.any_eq_false]
  exact .inr fun l hm => by simp [(hl l hm).2]

/-- The failure of a slice or channel, where one is told of, before the core is looked at. -/
def State.told (s : State) (core : Nat) (bad : Bool) : State := if bad then { s with failed := sins core s.failed } else s

theorem told_cores (s : State) (core : Nat) (bad : Bool) : (s.told core bad).cores = s.cores := by
  unfold State.told
  split <;> rfl

theorem told_launches (s : State) (core : Nat) (bad : Bool) : (s.told core bad).launches = s.launches := by
  unfold State.told
  split <;> rfl

theorem told_failed (s : State) (core : Nat) (bad : Bool) :
    (s.told core bad).failed = if bad then sins core s.failed else s.failed := by
  unfold State.told
  split <;> rfl

theorem coreFence_eq (s : State) (core : Nat) (readable bad : Bool) : exec (.coreFence core ⟨readable, bad⟩) s =
    .next (if (s.core core).fenced then s.told core bad else (s.told core bad).fenceCore core readable) := by
  have hc : (s.told core bad).core core = s.core core := by simp only [State.core, told_cores]
  rw [← hc]
  rfl

theorem coreFence_fences (s : State) (core : Nat) (readable bad : Bool) :
    ((s.core core).fenced = true → exec (.coreFence core ⟨readable, bad⟩) s =
      .next (if bad then { s with failed := sins core s.failed } else s)) ∧
    ((s.core core).fenced = false → ∃ t, exec (.coreFence core ⟨readable, bad⟩) s = .next t ∧ (t.core core).fenced = true ∧
      (t.core core).l1 = [] ∧ t.failed = (if bad then sins core s.failed else s.failed) ∧
      (∀ w g, t.wg? core w = some g → g.abort ≠ none ∨ g.save ≠ none) ∧
      ((∀ l ∈ kvals s.launches, l.gang = false ∧ l.failing = false) → ∀ w g, t.wg? core w = some g → g.abort ≠ none)) := by
  refine ⟨fun h => by rw [coreFence_eq, if_pos h, State.told],
    fun h => ⟨_, by rw [coreFence_eq, h, if_neg Bool.false_ne_true], ?_⟩⟩
  rw [fenceCore_eq]
  generalize hu : s.told core bad = u
  have hcalm := (failGangs_calm (u.cutOff core readable) core readable).trans (abortMembers_calm _ core readable)
  have hcut := cutOff_core u core readable
  refine ⟨(hcalm.cores core).fenced.trans hcut.1, (hcalm.cores core).noLines hcut.2, ?_, fun w g hg => ?_, fun hl w g hg => ?_⟩
  · rw [hcalm.failed, cutOff_failed, ← hu, told_failed]
  · obtain ha | ⟨x, -, hs, hk⟩ := abortMembers_wg hg
    · exact .inl ha
    · exact .inr (hs ▸ keepsMember_save hk)
  · rw [← told_launches s core bad, hu] at hl
    obtain ha | ⟨x, -, -, hk⟩ := abortMembers_wg hg
    · exact ha
    · rw [keepsMember_eq_false hl] at hk
      cases hk

/-! ### ECC_ERROR -/

theorem log_none {s : State} (h : s.sysreg 0x16 0 = 0) (r : LogRec) : s.log r = s := by
  simp [State.log, h]

theorem mem_sins_self (k : Nat) (l : List Nat) : k ∈ sins k l := by
  induction l with
  | nil => simp [sins]
  | cons a l ih =>
    unfold sins
    split
    · exact List.mem_cons_self
    · split
      · next h => exact h ▸ List.mem_cons_self
      · exact List.mem_cons_of_mem _ ih

theorem mac_macMod {co : Core} {m : Nat} (h : m < co.cim.length) (f : CimMac → CimMac) :
    (co.macMod m f).mac m = f (co.mac m) := by
  simp [Core.mac, Core.macMod, lmod, List.getD_eq_getElem?_getD, h]

section
variable {s : State} {site : EccSite} {c addr : Nat} {conf : Bool} (hp : s.eccPlace site = some (c, addr, conf))
include hp

theorem eccError_corrected (h0 : s.sysreg 0x16 0 = 0) (hcode : codeSite site = false) : exec (.eccError site true) s =
    .next { s with errCount := kput c (kget 0 c s.errCount + 1) s.errCount } := by
  have he : exec (.eccError site true) s = execEccError site true s := rfl
  simp only [he, execEccError, hp, hcode, Bool.false_eq_true, ↓reduceIte]
  rw [log_none]
  exact h0

theorem eccError_poisons (h0 : (s.eccPoison site).sysreg 0x16 0 = 0) (hcode : codeSite site = false) :
    exec (.eccError site false) s = .next (s.eccPoison site) := by
  have he : exec (.eccError site false) s = execEccError site false s := rfl
  simp only [he, execEccError, hp, hcode, Bool.false_eq_true, ↓reduceIte]
  exact congrArg Host.Outcome.next (log_none h0 _)

theorem eccError_code (hcode : codeSite site = true) (b : Bool) : exec (.eccError site b) s = .next (s.eccPoison site) := by
  have he : exec (.eccError site b) s = execEccError site b s := rfl
  simp only [he, execEccError, hp, hcode, ↓reduceIte]
end

theorem eccError_counts (s : State) (site : EccSite) : (s.eccPlace site = none → ∀ b, exec (.eccError site b) s = .next s) ∧
    (∀ c addr conf, s.eccPlace site = some (c, addr, conf) → s.sysreg 0x16 0 = 0 →
      (codeSite site = false →
        exec (.eccError site true) s = .next { s with errCount := kput c (kget 0 c s.errCount + 1) s.errCount }) ∧
      (∀ pa k, site = .storage pa → s.key pa = some k →
        exec (.eccError site false) s = .next { s with poison := sins (k / 32) s.poison }) ∧
      (∀ m r, site = .cimRow c m r → m < (s.core c).cim.length → ∃ t, exec (.eccError site false) s = .next t ∧
        t.poison = s.poison ∧ r ∈ ((t.core c).mac m).poison) ∧
      (∀ k ctx va b, site = .icacheLine k ctx va → ∃ t, exec (.eccError site b) s = .next t ∧
        t.poison = s.poison ∧ t.errCount = s.errCount ∧ (t.core k).icFind ctx (va / 128) = none)) := by
  refine ⟨fun h b => ?_, fun c addr conf hp h0 => ⟨fun hcode => eccError_corrected hp h0 hcode, ?_, ?_, ?_⟩⟩
  · have he : exec (.eccError site b) s = execEccError site b s := rfl
    simp only [he, execEccError, h]
  · rintro pa k rfl hk
    have hpo : s.eccPoison (.storage pa) = { s with poison := sins (k / 32) s.poison } := by simp only [State.eccPoison, hk]
    rw [← hpo]
    exact eccError_poisons hp (by rw [hpo]; exact h0) rfl
  · rintro m r rfl hm
    refine ⟨_, eccError_poisons hp h0 rfl, rfl, ?_⟩
    simp only [State.eccPoison, State.core_modCore, ↓reduceIte, mac_macMod hm]
    exact mem_sins_self r _
  · rintro k ctx va b rfl
    refine ⟨_, eccError_code hp rfl b, rfl, rfl, ?_⟩
    simp only [State.eccPoison, State.core_modCore, ↓reduceIte]
    exact icFind_icKeep _ _ fun l hc hv => by simp [hc, hv]

/-- Settles O50: one theorem for each part, on code objects, invalidations, saves, restores, fences and errors. -/
theorem savesAndLoads : Obligations.SavesAndLoads := by
  unfold Obligations.SavesAndLoads
  refine ⟨codeObjects_load_unload, ?invalidation, ?save, fun s core w g cause at_ => engineDrainTimeout_stops, restore_restores,
    coreFence_fences, eccError_counts⟩
  case invalidation =>
    intro s func s2 e d hs f r hd
    refine ⟨invalidationRequest_refused hs hd, fun hz hk hf => ?_⟩
    obtain ⟨u, t, ht, hq⟩ := invalidationRequest_taken hs hd hz hk hf
    exact ⟨t, ht, fun c lva h => (invalidate_lacks u (.ofEntry func e) c hk (meets_of h)).quiet (hq.cores c)⟩
  case save =>
    intro s core w g cause hg ha hw hsv
    exact ⟨forcedPreemption_asks hg ha hw hsv cause,
      fun off l h hl hp hst => forcedPreemption_saves hg ha hw hsv cause h hl hp hst,
      forcedPreemption_noRoom hg ha hw hsv cause⟩

end Sys2Proof.Machine
end

section
/-! PROOFS. The fields of an instruction word and the operands that they name (R69, R70, R80, R81, R123): each reader of a
field, and of a list of operands, gives back what the encoder wrote. -/

namespace Sys2Proof

set_option Elab.async false

/-! ### Bits and fields of a word -/

/-- Bits `k` and up, as a number. -/
theorem toNat_div_two_pow {n : Nat} (x : BitVec n) (k : Nat) : x.toNat / 2 ^ k = (x.extractLsb' k (n - k)).toNat := by
  rw [BitVec.extractLsb'_toNat, Nat.shiftRight_eq_div_pow]
  refine (Nat.mod_eq_of_lt ?_).symm
  obtain h | h := Nat.le_total k n
  · rw [Nat.div_lt_iff_lt_mul (Nat.two_pow_pos k), ← Nat.pow_add, Nat.sub_add_cancel h]
    exact x.isLt
  · rw [Nat.div_eq_of_lt (lt_of_lt_of_le x.isLt (Nat.pow_le_pow_right (by decide) h))]
    exact Nat.two_pow_pos _

section
/- The width of a concatenation that stands in a field is written as one number, which is `v + w` by computation only, so the
concatenation is that of `v + w` only up to such a step; `simp` finds the two equal. -/
variable {v w n : Nat} {x : BitVec v} {y : BitVec w} {inst : HAppend (BitVec v) (BitVec w) (BitVec n)} {k l : Nat}
  (hn : n = v + w) (hi : HEq inst (BitVec.instHAppendHAddNat (w := v) (v := w)))
include hn hi

/-- A field that lies in the lower part. -/
@[simp] theorem extract_append_low (hk : k + l ≤ w) : (@HAppend.hAppend _ _ _ inst x y).extractLsb' k l = y.extractLsb' k l := by
  subst hn
  cases hi
  exact BitVec.extractLsb'_append_eq_of_add_le hk

/-- A field that lies in the upper part. -/
@[simp] theorem extract_append_high (hk : w ≤ k) :
    (@HAppend.hAppend _ _ _ inst x y).extractLsb' k l = x.extractLsb' (k - w) l := by
  subst hn
  cases hi
  exact BitVec.extractLsb'_append_eq_of_le hk
end

@[simp] theorem bit1_beq_one (b : Bool) : (bit1 b == 1#1) = b := by cases b <;> rfl

@[simp] theorem ok_bind {α β : Type} (x : α) (f : α → Dec β) : (Except.ok x >>= f) = f x := rfl
@[simp] theorem ok_map {α β : Type} (x : α) (f : α → β) : Except.map f (Except.ok x : Dec α) = .ok (f x) := rfl
@[simp] theorem need_true (e : DecErr) : need true e = .ok () := rfl
@[simp] theorem optE_some {α : Type} (x : α) (e : DecErr) : optE (some x) e = .ok x := rfl

@[simp] theorem mf_eq (r : Raw) (k n : Nat) : mf r k n = r.mod.extractLsb' k n := rfl
@[simp] theorem mb_eq (r : Raw) (k : Nat) : mb r k = (r.mod.extractLsb' k 1 == 1) := rfl

@[simp] theorem modZ_eq_ok {r : Raw} {k : Nat} (h : r.mod.extractLsb' k (8 - k) = 0) : modZ r k = .ok () := by
  rw [modZ, toNat_div_two_pow, h]
  rfl

theorem modZ_of_lt {r : Raw} {k : Nat} (h : r.mod.toNat < 2 ^ k) : modZ r k = .ok () := by
  rw [modZ, Nat.div_eq_of_lt h]
  rfl

/-! ### Codes of the enumerated fields -/

@[simp] theorem IntTy.ofCode_code (x : IntTy) : IntTy.ofCode x.code = x := by cases x <;> rfl
@[simp] theorem FlTy.ofCode_code (x : FlTy) : FlTy.ofCode x.code = some x := by cases x <;> rfl
@[simp] theorem flTy2_code2 (x : FlTy) : flTy2 x.code2 = some x := by cases x <;> rfl
@[simp] theorem Rm.ofCode_code (x : Rm) : Rm.ofCode x.code = x := by cases x <;> rfl
@[simp] theorem Cc.ofCode_code (x : Cc) : Cc.ofCode x.code = some x := by cases x <;> rfl
@[simp] theorem FCc.ofCode_code (x : FCc) : FCc.ofCode x.code = x := by cases x <;> rfl
@[simp] theorem FFmt.ofCode_code (x : FFmt) : FFmt.ofCode x.code = some x := by cases x <;> rfl
@[simp] theorem CvtInt.ofCode_code (x : CvtInt) : CvtInt.ofCode x.code = x := by cases x <;> rfl
@[simp] theorem NarrowFmt.ofCode_code (x : NarrowFmt) : NarrowFmt.ofCode x.code = some x := by cases x <;> rfl
@[simp] theorem Blk.ofCode_code (x : Blk) : Blk.ofCode x.code = some x := by cases x <;> rfl
@[simp] theorem PkW.ofCode_code (x : PkW) : PkW.ofCode x.code = x := by cases x <;> rfl
@[simp] theorem PkMode.ofCode_code (x : PkMode) : PkMode.ofCode x.code = some x := by cases x <;> rfl
@[simp] theorem TernOut.ofCode_code (x : TernOut) : TernOut.ofCode x.code = some x := by cases x <;> rfl
@[simp] theorem Dot2Fmt.ofCode_code (x : Dot2Fmt) : Dot2Fmt.ofCode x.code = some x := by cases x <;> rfl
@[simp] theorem Dot4Fmt.ofCode_code (x : Dot4Fmt) : Dot4Fmt.ofCode x.code = some x := by cases x <;> rfl
@[simp] theorem Dot8Fmt.ofCode_code (x : Dot8Fmt) : Dot8Fmt.ofCode x.code = some x := by cases x <;> rfl
@[simp] theorem SegW.ofCode_code (x : SegW) : SegW.ofCode x.code = some x := by cases x <;> rfl
@[simp] theorem ScanOp.ofCode_code (x : ScanOp) : ScanOp.ofCode x.code = some x := by cases x <;> rfl
@[simp] theorem ScanTy.ofCode_code (x : ScanTy) : ScanTy.ofCode x.code = some x := by cases x <;> rfl
@[simp] theorem MSize.ofCode_code (x : MSize) : MSize.ofCode x.code = some x := by cases x <;> rfl
@[simp] theorem Scope.ofCode_code (x : Scope) : Scope.ofCode x.code = some x := by cases x <;> rfl
@[simp] theorem Hint.ofCode_code (x : Hint) : Hint.ofCode x.code = x := by cases x <;> rfl
@[simp] theorem LdtCount.ofCode_code (x : LdtCount) : LdtCount.ofCode x.code = some x := by cases x <;> rfl
@[simp] theorem AOp.ofCode_code (x : AOp) : AOp.ofCode x.code = some x := by cases x <;> rfl
@[simp] theorem ASize.ofCode_code (x : ASize) : ASize.ofCode x.code = some x := by cases x <;> rfl
@[simp] theorem FenceKind.ofCode_code (x : FenceKind) : FenceKind.ofCode x.code = some x := by cases x <;> rfl
@[simp] theorem HintMode.ofCode_code (x : HintMode) : HintMode.ofCode x.code = some x := by cases x <;> rfl
@[simp] theorem HintLevels.ofCode_code (x : HintLevels) : HintLevels.ofCode x.code = some x := by cases x <;> rfl
@[simp] theorem IpfCount.ofCode_code (x : IpfCount) : IpfCount.ofCode x.code = x := by cases x <;> rfl
@[simp] theorem CopyDir.ofCode_code (x : CopyDir) : CopyDir.ofCode x.code = x := by cases x <;> rfl
@[simp] theorem Form.ofCode_code (f : Form) : Form.ofCode f.code = some f := by cases f <;> rfl
@[simp] theorem qdOf_ofNat (k : Fin 3) : qdOf (BitVec.ofNat 2 k.val) = some k := by fin_cases k <;> rfl
@[simp] theorem fin2_codeFin4 (k : Fin 4) : fin2 (codeFin4 k) = k := rfl

/-! ### Operands by their codes (R80, R81, R123) -/

theorem regOf_code {h : Hdr} {d : Reg} (hd : d.okIn h = true) : regOf h.uni d.code = .ok d := by
  cases d with
  | v r =>
    have hr : (BitVec.ofNat 8 r.val).toNat = r.val := Nat.mod_eq_of_lt (by omega)
    have hu : h.uni = false := by simpa [Reg.okIn] using hd
    simp only [regOf, Reg.code, hr, hu, r.isLt, dite_true, Bool.false_eq_true, if_false]
  | s r =>
    have hr : (BitVec.ofNat 8 (192 + r.val)).toNat = 192 + r.val := Nat.mod_eq_of_lt (by omega)
    have hlt : ¬ 192 + r.val < 192 := by omega
    have hlt' : 192 + r.val < 254 := by omega
    simp only [regOf, Reg.code, hr, hlt, hlt', dite_true, dite_false, Nat.add_sub_cancel_left]
  | z => rfl

theorem Pred.code_lt (p : Pred) : p.code < 12 := by
  cases p <;> simp only [Pred.code] <;> omega

theorem predOf_code {h : Hdr} {p : Pred} (hp : p.okIn h = true) : predOf h.uni p.code = .ok p := by
  cases p with
  | p i =>
    have hu : h.uni = false := by simpa [Pred.okIn] using hp
    simp only [predOf, Pred.code, hu, i.isLt, dite_true, Bool.false_eq_true, if_false]
  | q i =>
    have hlt : ¬ 8 + i.val < 8 := by omega
    have hlt' : 8 + i.val < 12 := by omega
    simp only [predOf, Pred.code, hlt, hlt', dite_true, dite_false, Nat.add_sub_cancel_left]

@[simp] theorem Pred.toNat_code8 (p : Pred) : p.code8.toNat = p.code :=
  Nat.mod_eq_of_lt (by have := p.code_lt; omega)

@[simp] theorem Pred.code_mod_16 (p : Pred) : p.code % 16 = p.code :=
  Nat.mod_eq_of_lt (by have := p.code_lt; omega)

@[simp] theorem spairOf_code (p : SPair) : spairOf p.code = .ok p := by
  cases p with
  | pr k =>
    have hk : (BitVec.ofNat 8 (192 + 2 * k.val)).toNat = 192 + 2 * k.val := Nat.mod_eq_of_lt (by omega)
    have hne : ¬ 192 + 2 * k.val = 254 := by omega
    have hin : 192 ≤ 192 + 2 * k.val ∧ 192 + 2 * k.val ≤ 252 ∧ (192 + 2 * k.val) % 2 = 0 := by omega
    have hhalf : (192 + 2 * k.val - 192) / 2 = k.val := by omega
    simp only [spairOf, SPair.code, hk, hne, if_false, hin, dite_true, hhalf, and_self]
  | z => rfl

@[simp] theorem vOf_code (k : Fin 192) : vOf (Reg.v k).code = .ok k := by
  have hk : (BitVec.ofNat 8 k.val).toNat = k.val := Nat.mod_eq_of_lt (by omega)
  simp only [vOf, Reg.code, hk, k.isLt, dite_true]

theorem Reg.code_ne_imm (d : Reg) : d.code ≠ 255 := by
  cases d with
  | v r =>
    intro h
    have := congrArg BitVec.toNat h
    simp [Reg.code] at this
    omega
  | s r =>
    intro h
    have := congrArg BitVec.toNat h
    simp [Reg.code] at this
    omega
  | z => decide

theorem srcOf_code {r : Raw} {h : Hdr} {imm : W32} {a : Src} (hform : r.form = h.form) (huni : r.uni = h.uni)
    (ha : a.okIn h = true) (himm : ∀ x, a = .imm x → imm = x) : srcOf r imm a.code = .ok a := by
  cases a with
  | r d => rw [srcOf, Src.code, if_neg d.code_ne_imm, huni, regOf_code ha, ok_map]
  | imm x =>
    have hne : ¬ r.form = .w64 := by simpa [Src.okIn, hform] using ha
    simp [srcOf, Src.code, hne, himm x rfl]

/-! ### Immediates (R70, R81) -/

theorem immOf_eq {l : List Src} {x : W32} (hl : immsAgree l = true) (hx : .imm x ∈ l) : immOf l = x := by
  have hmem : x ∈ l.flatMap Src.imms := List.mem_flatMap.mpr ⟨_, hx, List.mem_singleton_self x⟩
  unfold immsAgree at hl
  unfold immOf
  generalize l.flatMap Src.imms = m at *
  cases m with
  | nil => cases hmem
  | cons y t =>
    obtain rfl | ht := List.mem_cons.mp hmem
    · rfl
    · exact (eq_of_beq (List.all_eq_true.mp hl x ht)).symm

theorem flatMap_imms_eq_nil {h : Hdr} {l : List Src} (hform : h.form = .w64) (hl : ∀ a ∈ l, a.okIn h = true) :
    l.flatMap Src.imms = [] := by
  rw [List.flatMap_eq_nil_iff]
  intro a ha
  cases a with
  | r d => rfl
  | imm x => simpa [Src.okIn, hform] using hl _ ha

/-- The 64-bit form has no immediate. -/
theorem immOf_w64 {h : Hdr} {l : List Src} (hform : h.form = .w64) (hl : ∀ a ∈ l, a.okIn h = true) : immOf l = 0 := by
  rw [immOf, flatMap_imms_eq_nil hform hl]

theorem immOf_eq_zero_or (l : List Src) : immOf l = 0 ∨ ∃ a ∈ l, a.code = 255 := by
  unfold immOf
  cases hm : l.flatMap Src.imms with
  | nil => exact .inl rfl
  | cons x t =>
    have hx : x ∈ l.flatMap Src.imms := hm ▸ List.mem_cons_self
    obtain ⟨a, ha, hax⟩ := List.mem_flatMap.mp hx
    refine .inr ⟨a, ha, ?_⟩
    cases a with
    | r d => cases hax
    | imm y => rfl

theorem immX_eq_ok {r : Raw} {l : List Src} (hx : r.x32 = immOf l) : immX r (l.map Src.code) = .ok () := by
  obtain h0 | ⟨a, ha, h255⟩ := immOf_eq_zero_or l
  · simp [immX, hx, h0]
  · have hany : (l.map Src.code).any (· == 255) = true := by
      rw [List.any_map, List.any_eq_true]
      exact ⟨a, ha, beq_iff_eq.mpr h255⟩
    rw [immX, hany, Bool.or_true, need_true]

/-! ### Control fields (R69, R70, R73, R78) -/

theorem waitSet_selOf {w : BitVec 12} (hw : (selOf w).isSome = true) : waitSet ((selOf w).getD 0) = w := by
  obtain ⟨k, hk⟩ := Option.isSome_iff_exists.mp hw
  rw [hk, Option.getD_some]
  exact eq_of_beq (List.find?_some (p := fun k => waitSet k == w) hk)

/-- The word of the header's control fields and of the operand fields given. -/
def Hdr.word (h : Hdr) (op : Nat) (mod dst sa sb : BitVec 8) (x32 : W32) (ext : BitVec 20) : Raw :=
  { h.raw op with mod := mod, dst := dst, sa := sa, sb := sb, x32 := x32, ext := ext }

section
variable (h : Hdr) (op : Nat) (mod dst sa sb : BitVec 8) (x32 : W32) (ext : BitVec 20)

@[simp] theorem word_form : (h.word op mod dst sa sb x32 ext).form = h.form := rfl
@[simp] theorem word_bt : (h.word op mod dst sa sb x32 ext).bt = h.bt := rfl
@[simp] theorem word_uni : (h.word op mod dst sa sb x32 ext).uni = h.uni := rfl
@[simp] theorem word_pg : (h.word op mod dst sa sb x32 ext).pg = h.pg := rfl
@[simp] theorem word_pn : (h.word op mod dst sa sb x32 ext).pn = h.pn := rfl
@[simp] theorem word_mod : (h.word op mod dst sa sb x32 ext).mod = mod := rfl
@[simp] theorem word_dst : (h.word op mod dst sa sb x32 ext).dst = dst := rfl
@[simp] theorem word_sa : (h.word op mod dst sa sb x32 ext).sa = sa := rfl
@[simp] theorem word_sb : (h.word op mod dst sa sb x32 ext).sb = sb := rfl
@[simp] theorem word_x32 : (h.word op mod dst sa sb x32 ext).x32 = x32 := rfl
@[simp] theorem word_ext : (h.word op mod dst sa sb x32 ext).ext = ext := rfl
end

@[simp] theorem raw_mod (h : Hdr) (op : Nat) : (h.raw op).mod = 0 := rfl
@[simp] theorem raw_dst (h : Hdr) (op : Nat) : (h.raw op).dst = 254 := rfl
@[simp] theorem raw_sa (h : Hdr) (op : Nat) : (h.raw op).sa = 254 := rfl
@[simp] theorem raw_sb (h : Hdr) (op : Nat) : (h.raw op).sb = 254 := rfl
@[simp] theorem raw_x32 (h : Hdr) (op : Nat) : (h.raw op).x32 = 0 := rfl
@[simp] theorem raw_ext (h : Hdr) (op : Nat) : (h.raw op).ext = 0 := rfl

theorem word_sf_none {h : Hdr} (hs : h.sf = none) (op : Nat) (mod dst sa sb : BitVec 8) (x32 : W32) (ext : BitVec 20) :
    (h.word op mod dst sa sb x32 ext).sf = 15 := by
  simp [Hdr.word, Hdr.raw, hs]

theorem hdrOf_word {h : Hdr} {op : Nat} {mod dst sa sb : BitVec 8} {x32 : W32} {ext : BitVec 20} (hw : h.wf = true) :
    hdrOf (h.word op mod dst sa sb x32 ext) = .ok h := by
  obtain ⟨form, bt, sd, uni, wait, sf, pg, pn⟩ := h
  rw [Hdr.wf, Bool.and_eq_true] at hw
  obtain ⟨hwait, hguard⟩ := hw
  have hwt : (form != .w128 || (if form == .w128 then 0 else (selOf wait).getD 0) == 0) = true := by
    cases form <;> rfl
  have hset : (if form == .w128 then (if form == .w128 then wait else 0) else
      waitSet (if form == .w128 then 0 else (selOf wait).getD 0)) = wait := by
    cases form with
    | w128 => rfl
    | w64 => exact waitSet_selOf hwait
    | w96 => exact waitSet_selOf hwait
  have hg : (!uni || decide (pg.toNat < 4) || pg == 7) = true := hguard
  simp only [hdrOf, Hdr.word, Hdr.raw, hwt, hg, hset, need_true, ok_bind]
  cases sf with
  | none => rfl
  | some k =>
    have hk : (BitVec.ofNat 4 k.val).toNat = k.val := Nat.mod_eq_of_lt (by omega)
    simp only [hk, k.isLt, dite_true, Fin.eta]

theorem fits_word {h : Hdr} {op : Nat} {mod dst sa sb : BitVec 8} {x32 : W32} {ext : BitVec 20}
    (hx : h.form = .w64 → x32 = 0) (he : h.form ≠ .w128 → ext = 0) : (h.word op mod dst sa sb x32 ext).fits = true := by
  obtain ⟨form, bt, sd, uni, wait, sf, pg, pn⟩ := h
  cases form with
  | w64 => simp [Raw.fits, Hdr.word, Hdr.raw, hx, he]
  | w96 => simp [Raw.fits, Hdr.word, Hdr.raw, he]
  | w128 => rfl

/-! ### The shapes of operand lists -/

/-- The fields of a word of the form's own length, which a decoder reads as an instruction. -/
structure Parses (r : Raw) (x : Dec Instr) (i : Instr) : Prop where
  fits : r.fits = true
  reads : x = .ok i

theorem Parses.bind {α : Type} {r : Raw} {y : Dec α} {g : α → Dec Instr} {a : α} {i : Instr} (hy : y = .ok a)
    (hg : Parses r (g a) i) : Parses r (y >>= g) i := ⟨hg.fits, by rw [hy, ok_bind, hg.reads]⟩

theorem wf1_iff {h : Hdr} {d : Reg} {a : Src} :
    wf1 h d a = true ↔ h.wf = true ∧ d.okIn h = true ∧ a.okIn h = true := by
  simp only [wf1, Bool.and_eq_true, and_assoc]

theorem wf2_iff {h : Hdr} {d : Reg} {a b : Src} : wf2 h d a b = true ↔
    h.wf = true ∧ d.okIn h = true ∧ (∀ x ∈ [a, b], x.okIn h = true) ∧ immsAgree [a, b] = true := by
  simp only [wf2, Bool.and_eq_true, and_assoc, List.forall_mem_cons, List.not_mem_nil, IsEmpty.forall_iff, implies_true,
    true_and]

theorem wfS_iff {h : Hdr} {l : List Src} :
    wfS h l = true ↔ h.wf = true ∧ (∀ x ∈ l, x.okIn h = true) ∧ immsAgree l = true := by
  simp only [wfS, Bool.and_eq_true, List.all_eq_true, and_assoc]

theorem immsAgree_singleton (a : Src) : immsAgree [a] = true := by
  cases a with
  | r d => rfl
  | imm x => rfl

/-- UNI = 0 lets an operand be of any kind. -/
theorem Reg.okIn_of_u0 {h : Hdr} (hu : u0 h = true) (d : Reg) : d.okIn h = true := by
  cases d with
  | v r => exact hu
  | s r | z => rfl

theorem Pred.okIn_of_u0 {h : Hdr} (hu : u0 h = true) (p : Pred) : p.okIn h = true := by
  cases p with
  | p i => exact hu
  | q i => rfl

theorem wfS_singleton {h : Hdr} {a : Src} (hh : h.wf = true) (ha : a.okIn h = true) : wfS h [a] = true :=
  wfS_iff.mpr ⟨hh, by simpa using ha, immsAgree_singleton a⟩

theorem wf1_of_u0 {h : Hdr} (hu : u0 h = true) {d : Reg} {a : Src} (hh : h.wf = true) (ha : a.okIn h = true) :
    wf1 h d a = true := wf1_iff.mpr ⟨hh, d.okIn_of_u0 hu, ha⟩

section
variable {h : Hdr} {op : Nat} {mod dst sa sb : BitVec 8} {x32 : W32} {ext : BitVec 20}

/-- A source of the immediate layout. -/
theorem srcI_word {l : List Src} (hl : ∀ x ∈ l, x.okIn h = true) (hag : immsAgree l = true) {a : Src} (ha : a ∈ l) :
    srcI (h.word op mod dst sa sb (immOf l) ext) a.code = .ok a :=
  srcOf_code rfl rfl (hl a ha) fun _ hx => immOf_eq hag (hx ▸ ha)

theorem fits_word_imm {l : List Src} (hl : ∀ x ∈ l, x.okIn h = true) : (h.word op mod dst sa sb (immOf l) 0#20).fits = true :=
  fits_word (fun hform => immOf_w64 hform hl) fun _ => rfl

theorem immX_word1 {a : Src} : immX (h.word op mod dst sa sb (immOf [a]) ext) [a.code] = .ok () :=
  immX_eq_ok (l := [a]) rfl

theorem immX_word2 {a b : Src} : immX (h.word op mod dst sa sb (immOf [a, b]) ext) [a.code, b.code] = .ok () :=
  immX_eq_ok (l := [a, b]) rfl

theorem noE_word : noE (h.word op mod dst sa sb x32 0#20) = .ok () := rfl

theorem dstR_word {d : Reg} (hd : d.okIn h = true) : dstR (h.word op mod d.code sa sb x32 ext) = .ok d := regOf_code hd

theorem decPd_word {p : Pred} (hp : p.okIn h = true) : decPd (h.word op mod p.code8 sa sb x32 ext) = .ok p := by
  rw [decPd, word_dst, Pred.toNat_code8, word_uni, predOf_code hp]

theorem fix0_word (hu : u0 h = true) : fix0 (h.word op mod dst sa sb x32 ext) = .ok () := by
  rw [fix0, word_uni, show (!h.uni) = true from hu, need_true]

theorem fix1_word (hu : u1 h = true) : fix1 (h.word op mod dst sa sb x32 ext) = .ok () := by
  rw [fix1, word_uni, show h.uni = true from hu, need_true]

theorem dec1_word {d : Reg} {a : Src} {f : Hdr → Reg → Src → Instr} {i : Instr} (hw : wf1 h d a = true)
    (hi : f h d a = i) :
    let r := h.word op mod d.code a.code sb (immOf [a]) 0#20
    Parses r (dec1 r f) i := by
  subst hi
  obtain ⟨hh, hd, ha⟩ := wf1_iff.mp hw
  have hl : ∀ x ∈ [a], x.okIn h = true := by simpa using ha
  refine ⟨fits_word_imm hl, ?_⟩
  simp only [dec1, word_sa, hdrOf_word hh, dstR_word hd, srcI_word hl (immsAgree_singleton a) (List.mem_singleton_self a),
    immX_word1, noE_word, ok_bind]

theorem dec2_word {d : Reg} {a b : Src} {f : Hdr → Reg → Src → Src → Instr} {i : Instr} (hw : wf2 h d a b = true)
    (hi : f h d a b = i) :
    let r := h.word op mod d.code a.code b.code (immOf [a, b]) 0#20
    Parses r (dec2 r f) i := by
  subst hi
  obtain ⟨hh, hd, hl, hag⟩ := wf2_iff.mp hw
  refine ⟨fits_word_imm hl, ?_⟩
  simp only [dec2, word_sa, word_sb, hdrOf_word hh, dstR_word hd, srcI_word hl hag (List.mem_cons_self),
    srcI_word hl hag (List.mem_cons_of_mem a (List.mem_singleton_self b)), immX_word2, noE_word,
    ok_bind]

theorem decA_word {a : Src} {f : Hdr → Src → Instr} {i : Instr} (hw : wfS h [a] = true)
    (hi : f h a = i) :
    let r := h.word op mod dst a.code sb (immOf [a]) 0#20
    Parses r (decA r f) i := by
  subst hi
  obtain ⟨hh, hl, hag⟩ := wfS_iff.mp hw
  refine ⟨fits_word_imm hl, ?_⟩
  simp only [decA, word_sa, hdrOf_word hh, srcI_word hl hag (List.mem_singleton_self a), immX_word1,
    noE_word, ok_bind]

theorem decAB_word {a b : Src} {f : Hdr → Src → Src → Instr} {i : Instr} (hw : wfS h [a, b] = true)
    (hi : f h a b = i) :
    let r := h.word op mod dst a.code b.code (immOf [a, b]) 0#20
    Parses r (decAB r f) i := by
  subst hi
  obtain ⟨hh, hl, hag⟩ := wfS_iff.mp hw
  refine ⟨fits_word_imm hl, ?_⟩
  simp only [decAB, word_sa, word_sb, hdrOf_word hh, srcI_word hl hag (List.mem_cons_self),
    srcI_word hl hag (List.mem_cons_of_mem a (List.mem_singleton_self b)), immX_word2, noE_word,
    ok_bind]

theorem dec0_word {f : Hdr → Instr} {i : Instr} (hw : h.wf = true)
    (hi : f h = i) :
    let r := h.word op mod dst sa sb 0#32 0#20
    Parses r (dec0 r f) i := by
  subst hi
  refine ⟨fits_word (fun _ => rfl) fun _ => rfl, ?_⟩
  simp only [dec0, hdrOf_word hw, ok_bind]
  rfl

theorem decD_word {d : Reg} {f : Hdr → Reg → Instr} {i : Instr} (hw : h.wf = true) (hd : d.okIn h = true)
    (hi : f h d = i) :
    let r := h.word op mod d.code sa sb 0#32 0#20
    Parses r (decD r f) i :=
  .bind (dstR_word hd) (dec0_word hw hi)

/-! #### The SC layout: an immediate above, the third source below (R81, R122) -/

/-- X32 of the SC layout; the 64-bit form has none. -/
def Hdr.sc32 (h : Hdr) (l : List Src) (c : Src) : W32 := if h.form == .w64 then 0 else scWord l c

theorem scCode_scWord {l : List Src} {c : Src} : scCode (h.word op mod dst sa sb (scWord l c) ext) = c.code := by
  simp [scCode, scWord]

theorem scImm_scWord {l : List Src} {c : Src} {x : W32} (hl : scImmsOk l = true) (hx : .imm x ∈ l) :
    scImm (h.word op mod dst sa sb (scWord l c) ext) = x := by
  rw [scImmsOk, Bool.and_eq_true, List.all_eq_true] at hl
  obtain ⟨hag, hs⟩ := hl
  have hmem : x ∈ l.flatMap Src.imms := List.mem_flatMap.mpr ⟨_, hx, List.mem_singleton_self x⟩
  have hsx : (x.extractLsb' 0 24).signExtend 32 = x := eq_of_beq (hs x hmem)
  have hf : (scWord l c).extractLsb' 8 24 = x.extractLsb' 0 24 := by
    rw [scWord, immOf_eq hag hx]
    simp
  rw [scImm, word_x32, hf, hsx]

theorem scX_scWord {a b c : Src} : scX (h.word op mod dst a.code b.code (scWord [a, b, c] c) ext) = .ok () := by
  have hf : (scWord [a, b, c] c).extractLsb' 8 24 = (immOf [a, b, c]).extractLsb' 0 24 := by simp [scWord]
  simp only [scX, scCode_scWord, word_x32, word_sa, word_sb, hf]
  obtain h0 | ⟨x, hx, h255⟩ := immOf_eq_zero_or [a, b, c]
  · rw [h0]
    rfl
  · have hany : [a.code, b.code, c.code].any (· == 255) = true :=
      List.any_eq_true.mpr ⟨x.code, List.mem_map_of_mem (f := Src.code) hx, beq_iff_eq.mpr h255⟩
    rw [hany, Bool.or_true, need_true]

/-- A source of the SC layout. -/
theorem srcC_word {l : List Src} {c : Src} (hl : scImmsOk l = true) {a : Src} (ha : a ∈ l) (hok : a.okIn h = true) :
    srcC (h.word op mod dst sa sb (h.sc32 l c) ext) a.code = .ok a := by
  refine srcOf_code rfl rfl hok fun x hx => ?_
  subst hx
  have hform : (h.form == .w64) = false := by simpa [Src.okIn] using hok
  rw [Hdr.sc32, hform, if_neg Bool.false_ne_true]
  exact scImm_scWord hl ha

/-- The third source and X32: in the 64-bit form the source is another, `c0`, and X32 is 0. -/
theorem third_word {a b c c0 : Src} {k : Src → Dec Instr} (hl : scImmsOk [a, b, c] = true) (hok : c.okIn h = true)
    (hthird : (h.form != .w64 || c == c0) = true) :
    let r := h.word op mod dst a.code b.code (h.sc32 [a, b, c] c) ext
    (do
      let x ← if h.form == .w64 then .ok c0 else srcC r (scCode r)
      if h.form == .w64 then .ok () else scX r
      k x) = k c := by
  intro r
  obtain hform | hform := Bool.eq_false_or_eq_true (h.form == .w64)
  · have hc : c = c0 := by simpa [bne, hform] using hthird
    simp only [hform, if_true, hc, ok_bind]
  · have hsrc : srcC r c.code = .ok c := srcC_word hl (by simp) hok
    have hr : r = h.word op mod dst a.code b.code (scWord [a, b, c] c) ext := by
      simp only [r, Hdr.sc32, hform, Bool.false_eq_true, if_false]
    have hcode : scCode r = c.code := hr ▸ scCode_scWord
    have hx : scX r = .ok () := hr ▸ scX_scWord
    simp only [hform, Bool.false_eq_true, if_false, hcode, hsrc, hx, ok_bind]

theorem fits_word_sc {l : List Src} {c : Src} (he : h.form ≠ .w128 → ext = 0) :
    (h.word op mod dst sa sb (h.sc32 l c) ext).fits = true :=
  fits_word (fun hform => by rw [Hdr.sc32, hform]; rfl) he

theorem dec3E_word {d : Reg} {a b c : Src} {f : Hdr → Reg → Src → Src → Src → Instr} {i : Instr} (hw : wf3 h d a b c = true)
    (he : h.form ≠ .w128 → ext = 0)
    (hi : f h d a b c = i) :
    let r := h.word op mod d.code a.code b.code (h.sc32 [a, b, c] c) ext
    Parses r (dec3E r f) i := by
  subst hi
  simp only [wf3, Bool.and_eq_true] at hw
  obtain ⟨⟨⟨⟨⟨⟨hh, hd⟩, ha⟩, hb⟩, hc⟩, hthird⟩, hl⟩ := hw
  refine ⟨fits_word_sc he, ?_⟩
  simp only [dec3E, word_form, word_sa, word_sb, hdrOf_word hh, dstR_word hd, srcC_word hl (a := a) (by simp) ha,
    srcC_word hl (a := b) (by simp) hb, ok_bind]
  exact third_word hl hc hthird

theorem dec3_word {d : Reg} {a b c : Src} {f : Hdr → Reg → Src → Src → Src → Instr} {i : Instr} (hw : wf3 h d a b c = true)
    (hi : f h d a b c = i) :
    let r := h.word op mod d.code a.code b.code (h.sc32 [a, b, c] c) 0#20
    Parses r (dec3 r f) i :=
  .bind noE_word (dec3E_word hw (fun _ => rfl) hi)

/-! #### References to memory (R236-R239) -/

theorem memOf_word {m : MemRef} {sc : BitVec 3} (hm : m.okIn h = true) :
    memOf (h.word op mod dst m.base.code m.off.code (m.disp ++ 0#5 ++ sc) ext) = .ok m := by
  rw [MemRef.okIn, Bool.and_eq_true] at hm
  obtain ⟨hoff, -⟩ := hm
  simp [memOf, regOf_code hoff]

theorem scrOf_word {m : ScrRef} (hm : m.okIn h = true) :
    scrOf (h.word op mod dst m.base.code m.off.code (m.disp ++ 0#8) ext) = .ok m := by
  rw [ScrRef.okIn, Bool.and_eq_true, Bool.and_eq_true] at hm
  obtain ⟨⟨hbase, hoff⟩, -⟩ := hm
  simp [scrOf, regOf_code hbase, regOf_code hoff]

theorem fits_word_mem {o : Order} {m : MemRef} (ho : o.okIn h = true) (hm : m.okIn h = true)
    (he : h.form ≠ .w128 → ext = 0) : (h.word op mod dst sa sb (m.disp ++ 0#5 ++ o.scope) ext).fits = true := by
  refine fits_word (fun hform => ?_) he
  have hdisp : m.disp = 0 := by simpa [hform] using (Bool.and_eq_true_iff.mp hm).2
  have hord : o = .plain := by simpa [Order.okIn, hform] using ho
  rw [hdisp, hord]
  rfl

theorem noScope_word {d : BitVec 24} : noScope (h.word op mod dst sa sb (d ++ 0#5 ++ Order.plain.scope) ext) = .ok () := by
  simp [noScope, Order.scope]

theorem ordOf_word {o : Order} {d : BitVec 24} (ho : o.okIn h = true) :
    ordOf (h.word op mod dst sa sb (d ++ 0#5 ++ o.scope) ext) o.code = .ok o := by
  cases o with
  | plain => rw [ordOf, Order.code, if_pos rfl, noScope_word, ok_map]
  | acq s | rel s | ar s =>
    have hform : (h.form != .w64) = true := by simpa [Order.okIn] using ho
    simp [ordOf, Order.code, Order.scope, hform]

theorem decMem_word {o : Order} {d : Reg} {m : MemRef} {f : Hdr → Reg → MemRef → Instr} {i : Instr} (hw : h.wf = true)
    (ho : o.okIn h = true) (hd : d.okIn h = true) (hm : m.okIn h = true)
    (hi : f h d m = i) :
    let r := h.word op mod d.code m.base.code m.off.code (m.disp ++ 0#5 ++ o.scope) 0#20
    Parses r (decMem r f) i := by
  subst hi
  refine ⟨fits_word_mem ho hm fun _ => rfl, ?_⟩
  simp only [decMem, hdrOf_word hw, dstR_word hd, memOf_word hm, noE_word, ok_bind]

theorem decLine_word {m : MemRef} {f : Hdr → MemRef → Instr} {i : Instr} (hw : (h.wf && m.okIn h) = true)
    (hi : f h m = i) :
    let r := h.word op mod dst m.base.code m.off.code (m.disp ++ 0#5 ++ Order.plain.scope) 0#20
    Parses r (decLine r f) i := by
  subst hi
  obtain ⟨hh, hm⟩ := Bool.and_eq_true_iff.mp hw
  refine ⟨fits_word_mem (by simp [Order.okIn]) hm fun _ => rfl, ?_⟩
  simp only [decLine, hdrOf_word hh, memOf_word hm, noScope_word, noE_word, ok_bind]

theorem decScr_word {d : Reg} {m : ScrRef} {f : Hdr → Reg → ScrRef → Instr} {i : Instr} (hw : h.wf = true) (hd : d.okIn h = true)
    (hm : m.okIn h = true)
    (hi : f h d m = i) :
    let r := h.word op mod d.code m.base.code m.off.code (m.disp ++ 0#8) 0#20
    Parses r (decScr r f) i := by
  subst hi
  refine ⟨fits_word (fun hform => ?_) fun _ => rfl, ?_⟩
  · have hdisp : m.disp = 0 := by simpa [hform] using (Bool.and_eq_true_iff.mp hm).2
    rw [hdisp]
    rfl
  · simp only [decScr, hdrOf_word hw, dstR_word hd, scrOf_word hm, noE_word, ok_bind]
end
end Sys2Proof
end

section
/-! PROOFS. Each instruction's word decodes to the instruction (R86 and the encoding table of each family), by constructor. -/

namespace Sys2Proof

set_option Elab.async false

/-! ### Instruction by instruction -/

/-- The decoder of a major group (R86). -/
def decGroup (g minor : Nat) (r : Raw) : Dec Instr :=
  match g with
  | 0x0 => decG0 minor r
  | 0x1 => decG1 minor r
  | 0x2 => decG2 minor r
  | 0x3 => decG3 minor r
  | 0x4 => decG4 minor r
  | 0x5 => decG5 minor r
  | 0x6 => decG6 minor r
  | 0x7 => decG7 minor r
  | 0x8 => decG8 minor r
  | 0x9 => decG9 minor r
  | 0xA => decGA minor r
  | 0xB => decGB minor r
  | 0xC => decGC minor r
  | 0xD => decGD minor r
  | 0xE => decGE minor r
  | _ => .error .op

theorem decodeRaw_eq_decGroup (r : Raw) :
    decodeRaw r = decGroup (r.op.extractLsb' 5 4).toNat (r.op.extractLsb' 0 5).toNat r := rfl

/-- The word of an encoded instruction reads as the instruction. -/
def Instr.Decodes (i : Instr) : Prop := ∀ r, i.raw = some r → Parses r (decodeRaw r) i

section
variable {h : Hdr} {op : Nat} {mod dst sa sb : BitVec 8} {x32 : W32} {ext : BitVec 20}

theorem decodeRaw_word {g m : Nat} (hg : g < 16) (hm : m < 32) :
    let r := h.word (32 * g + m) mod dst sa sb x32 ext
    decodeRaw r = decGroup g m r := by
  intro r
  have hop : r.op.toNat = 32 * g + m := Nat.mod_eq_of_lt (by omega)
  have hgroup : (r.op.extractLsb' 5 4).toNat = g := by
    rw [BitVec.extractLsb'_toNat, hop, Nat.shiftRight_eq_div_pow]
    omega
  have hminor : (r.op.extractLsb' 0 5).toNat = m := by
    rw [BitVec.extractLsb'_toNat, hop, Nat.shiftRight_zero]
    omega
  rw [decodeRaw_eq_decGroup, hgroup, hminor]

theorem Instr.Decodes.of {i : Instr} (g m : Nat) (hraw : i.raw = some (h.word (32 * g + m) mod dst sa sb x32 ext))
    (hp : Parses (h.word (32 * g + m) mod dst sa sb x32 ext) (decGroup g m (h.word (32 * g + m) mod dst sa sb x32 ext)) i)
    (hg : g < 16 := by decide) (hm : m < 32 := by decide) : i.Decodes := by
  intro r hr
  obtain rfl : h.word (32 * g + m) mod dst sa sb x32 ext = r := Option.some.inj (hraw.symm.trans hr)
  rw [decodeRaw_word hg hm]
  exact hp

/-- A type alone in MOD. -/
theorem decIntTy_word {ok : IntTy → Bool} {ty : IntTy} {k : IntTy → Dec Instr} {i : Instr} (hok : ok ty = true)
    (hk : Parses (h.word op ty.mod dst sa sb x32 ext) (k ty) i) :
    Parses (h.word op ty.mod dst sa sb x32 ext) (decIntTy (h.word op ty.mod dst sa sb x32 ext) ok k) i := by
  refine .bind (modZ_eq_ok ?_) (.bind (a := ty) ?_ hk)
  · simp [IntTy.mod]
  · simp [intTy, mf, IntTy.mod, hok]

theorem int2_word {ok : IntTy → Bool} {ty : IntTy} {d : Reg} {a b : Src} {f : Hdr → IntTy → Reg → Src → Src → Instr}
    (hw : (ok ty && wf2 h d a b) = true) :
    let r := h.word op ty.mod d.code a.code b.code (immOf [a, b]) 0#20
    Parses r (decIntTy r ok (fun ty => dec2 r (fun h d a b => f h ty d a b))) (f h ty d a b) := by
  obtain ⟨hok, hw⟩ := Bool.and_eq_true_iff.mp hw
  exact decIntTy_word hok (dec2_word hw rfl)

/-! #### The encoders' words -/

theorem enc1_eq_word {d : Reg} {a : Src} : enc1 h op mod d a = h.word op mod d.code a.code 254 (immOf [a]) 0 := rfl
theorem enc2_eq_word {d : Reg} {a b : Src} : enc2 h op mod d a b = h.word op mod d.code a.code b.code (immOf [a, b]) 0 := rfl
theorem encA_eq_word {a : Src} : encA h op mod a = h.word op mod 254 a.code 254 (immOf [a]) 0 := rfl
theorem enc0_eq_word : enc0 h op mod dst sa sb = h.word op mod dst sa sb 0 0 := rfl
theorem encMem_eq_word {o : Order} {m : MemRef} :
    encMem h op mod o dst m = h.word op mod dst m.base.code m.off.code (m.disp ++ 0#5 ++ o.scope) 0 := rfl
end

section
variable {h : Hdr} {op : Nat} {mod dst sa sb : BitVec 8} {x32 : W32} {ext : BitVec 20}

/-! ### Groups 0x0 and 0x1 -/

theorem int1_word {ok : IntTy → Bool} {ty : IntTy} {d : Reg} {a : Src} {f : Hdr → IntTy → Reg → Src → Instr}
    (hw : (ok ty && wf1 h d a) = true) :
    let r := h.word op ty.mod d.code a.code sb (immOf [a]) 0#20
    Parses r (decIntTy r ok (fun ty => dec1 r (fun h d a => f h ty d a))) (f h ty d a) := by
  obtain ⟨hok, hw⟩ := Bool.and_eq_true_iff.mp hw
  exact decIntTy_word hok (dec1_word hw rfl)

theorem int3_word {ok : IntTy → Bool} {ty : IntTy} {d : Reg} {a b c : Src} {f : Hdr → IntTy → Reg → Src → Src → Src → Instr}
    (hw : (ok ty && wf3 h d a b c) = true) :
    let r := h.word op ty.mod d.code a.code b.code (h.sc32 [a, b, c] c) 0#20
    Parses r (decIntTy r ok (fun ty => dec3 r (fun h d a b c => f h ty d a b c))) (f h ty d a b c) := by
  obtain ⟨hok, hw⟩ := Bool.and_eq_true_iff.mp hw
  exact decIntTy_word hok (dec3_word hw rfl)

theorem decCarry_word {ty : IntTy} {pc : Pred} {d : Reg} {a b : Src} {f : Hdr → IntTy → Reg → Src → Src → Pred → Instr}
    (hw : (ty.w32 && pc.okIn h && wf2 h d a b) = true) :
    let r := h.word op (carryMod ty pc) d.code a.code b.code (immOf [a, b]) 0#20
    Parses r (decCarry r f) (f h ty d a b pc) := by
  rw [Bool.and_eq_true, Bool.and_eq_true] at hw
  obtain ⟨⟨hok, hp⟩, hw⟩ := hw
  simp [decCarry, carryMod, intTy, hok, predOf_code hp, dec2_word hw]

theorem decodes_lea {ty : IntTy} {sh : BitVec 3} {d : Reg} {a b : Src} (hw : (ty.w32 && wf2 h d a b) = true) :
    (Instr.lea h ty sh d a b).Decodes := by
  obtain ⟨hok, hw⟩ := Bool.and_eq_true_iff.mp hw
  refine .of 0 0x11 rfl ?_
  simp [decGroup, decG0, intTy, hok, dec2_word hw]

/-! ### Group 0x2 -/

theorem decodes_icmp {ty : IntTy} {cc : Cc} {pd : Pred} {a b : Src}
    (hw : (ty.std && pd.okIn h && wfS h [a, b]) = true) : (Instr.icmp h ty cc pd a b).Decodes := by
  rw [Bool.and_eq_true, Bool.and_eq_true] at hw
  obtain ⟨⟨hok, hp⟩, hw⟩ := hw
  refine .of 2 0x00 rfl ?_
  simp [decGroup, decG2, intTy, hok, decPd_word hp, decAB_word hw]

theorem decodes_fcmp {cc : FCc} {nega absa : Bool} {pd : Pred} {a b : Src} (hw : (pd.okIn h && wfS h [a, b]) = true) :
    (Instr.fcmp h cc nega absa pd a b).Decodes := by
  obtain ⟨hp, hw⟩ := Bool.and_eq_true_iff.mp hw
  refine .of 2 0x01 rfl ?_
  simp [decGroup, decG2, decPd_word hp, decAB_word hw]

theorem decodes_sel {wide : Bool} {pc : Pred} {d : Reg} {a b : Src} (hw : (pc.okIn h && wf2 h d a b) = true) :
    (Instr.sel h wide pc d a b).Decodes := by
  obtain ⟨hp, hw⟩ := Bool.and_eq_true_iff.mp hw
  refine .of 2 0x02 rfl ?_
  simp [decGroup, decG2, predOf_code hp, dec2_word hw]

theorem decodes_movi {sx hi : Bool} {d : Reg} {imm : BitVec 16} (hw : (!(sx && hi) && h.wf && d.okIn h) = true) :
    (Instr.movi h sx hi d imm).Decodes := by
  rw [Bool.and_eq_true, Bool.and_eq_true] at hw
  obtain ⟨⟨hone, hw⟩, hd⟩ := hw
  have himm : imm.extractLsb' 8 8 ++ imm.extractLsb' 0 8 = imm :=
    BitVec.extractLsb'_append_extractLsb' (w := 8) (len := 8)
  refine .of 2 0x04 rfl ?_
  simp [decGroup, decG2, hone, himm, decD_word hw hd]
  
theorem decP3_word {na nb : Bool} {pd pa pb : Pred} {f : Hdr → Bool → Bool → Pred → Pred → Pred → Instr}
    (hw : (h.wf && pd.okIn h && pa.okIn h && pb.okIn h) = true) :
    let r := h.word op ((0 : BitVec 6) ++ bit1 nb ++ bit1 na) pd.code8 pa.code8 pb.code8 0#32 0#20
    Parses r (decP3 r f) (f h na nb pd pa pb) := by
  simp only [Bool.and_eq_true] at hw
  obtain ⟨⟨⟨hw, hd⟩, ha⟩, hb⟩ := hw
  simp [decP3, decPd_word hd, predOf_code ha, predOf_code hb, dec0_word hw]

theorem decodes_pnot {pd pa : Pred} (hw : (h.wf && pd.okIn h && pa.okIn h) = true) : (Instr.pnot h pd pa).Decodes := by
  rw [Bool.and_eq_true, Bool.and_eq_true] at hw
  obtain ⟨⟨hw, hd⟩, ha⟩ := hw
  refine .of 2 0x09 rfl ?_
  simp [decGroup, decG2, decPd_word hd, predOf_code ha, dec0_word hw]

theorem decodes_rdl {d : Reg} (hw : (u0 h && h.wf && d.okIn h) = true) : (Instr.rdl h d).Decodes := by
  rw [Bool.and_eq_true, Bool.and_eq_true] at hw
  obtain ⟨⟨hu, hw⟩, hd⟩ := hw
  refine .of 2 0x0C rfl ?_
  simp [decGroup, decG2, fix0_word hu, decD_word hw hd]

theorem decodes_fclass {ty : FlTy} {d : Reg} {a : Src} (hw : wf1 h d a = true) : (Instr.fclass h ty d a).Decodes := by
  refine .of 2 0x0D rfl ?_
  simp [decGroup, decG2, dec1_word hw]

/-! ### Group 0x3 and the special functions -/


@[simp] theorem flMod_word {m : FlMod} : flMod (h.word op m.mod dst sa sb x32 ext) = .ok m := by
  simp [flMod, FlMod.mod]

theorem flModN_word {m : FlMod} (hm : (m.rm == .rn) = true) : flModN (h.word op m.mod dst sa sb x32 ext) = .ok m := by
  simp [flModN, hm]

theorem fl1_word {m : FlMod} {d : Reg} {a : Src} {f : Hdr → FlMod → Reg → Src → Instr} (hw : wf1 h d a = true) :
    let r := h.word op m.mod d.code a.code sb (immOf [a]) 0#20
    Parses r (decFl1 r flMod f) (f h m d a) := .bind flMod_word (dec1_word hw rfl)

theorem fl2_word {m : FlMod} {d : Reg} {a b : Src} {f : Hdr → FlMod → Reg → Src → Src → Instr} (hw : wf2 h d a b = true) :
    let r := h.word op m.mod d.code a.code b.code (immOf [a, b]) 0#20
    Parses r (decFl2 r flMod f) (f h m d a b) := .bind flMod_word (dec2_word hw rfl)

theorem fl3_word {m : FlMod} {d : Reg} {a b c : Src} {f : Hdr → FlMod → Reg → Src → Src → Src → Instr}
    (hw : wf3 h d a b c = true) :
    let r := h.word op m.mod d.code a.code b.code (h.sc32 [a, b, c] c) 0#20
    Parses r (decFl3 r flMod f) (f h m d a b c) := .bind flMod_word (dec3_word hw rfl)

theorem flN1_word {m : FlMod} {d : Reg} {a : Src} {f : Hdr → FlMod → Reg → Src → Instr}
    (hw : (m.rm == .rn && wf1 h d a) = true) :
    let r := h.word op m.mod d.code a.code sb (immOf [a]) 0#20
    Parses r (decFl1 r flModN f) (f h m d a) := by
  obtain ⟨hm, hw⟩ := Bool.and_eq_true_iff.mp hw
  exact .bind (flModN_word hm) (dec1_word hw rfl)

theorem flN2_word {m : FlMod} {d : Reg} {a b : Src} {f : Hdr → FlMod → Reg → Src → Src → Instr}
    (hw : (m.rm == .rn && wf2 h d a b) = true) :
    let r := h.word op m.mod d.code a.code b.code (immOf [a, b]) 0#20
    Parses r (decFl2 r flModN f) (f h m d a b) := by
  obtain ⟨hm, hw⟩ := Bool.and_eq_true_iff.mp hw
  exact .bind (flModN_word hm) (dec2_word hw rfl)

theorem flN3_word {m : FlMod} {d : Reg} {a b c : Src} {f : Hdr → FlMod → Reg → Src → Src → Src → Instr}
    (hw : (m.rm == .rn && wf3 h d a b c) = true) :
    let r := h.word op m.mod d.code a.code b.code (h.sc32 [a, b, c] c) 0#20
    Parses r (decFl3 r flModN f) (f h m d a b c) := by
  obtain ⟨hm, hw⟩ := Bool.and_eq_true_iff.mp hw
  exact .bind (flModN_word hm) (dec3_word hw rfl)

/-! ### Group 0x4 -/

theorem decodes_cvtfi {src : FlTy} {hi : Bool} {mode : Rm} {dst : CvtInt} {d : Reg} {a : Src}
    (hw : ((src != .f32 || !hi) && wf1 h d a) = true) : (Instr.cvtfi h src hi mode dst d a).Decodes := by
  obtain ⟨hhi, hw⟩ := Bool.and_eq_true_iff.mp hw
  refine .of 4 0x00 rfl ?_
  simp [decGroup, decG4, hhi, dec1_word hw]

theorem decodes_cvtif {src : CvtInt} {mode : Rm} {dst : FlTy} {d : Reg} {a : Src} (hw : wf1 h d a = true) :
    (Instr.cvtif h src mode dst d a).Decodes := by
  refine .of 4 0x01 rfl ?_
  simp [decGroup, decG4, dec1_word hw]

theorem decodes_cvtff {dst src : FFmt} {mode : Rm} {d : Reg} {a b : Src}
    (hw : ((dst == .f32) != (src == .f32) && (dst != .f32 || mode == .rn) && wf2 h d a b) = true) :
    (Instr.cvtff h dst src mode d a b).Decodes := by
  rw [Bool.and_eq_true, Bool.and_eq_true] at hw
  obtain ⟨⟨hone, hrm⟩, hw⟩ := hw
  have hrm' : (dst != .f32 || mode.code == 0#2) = true := by
    cases mode with
    | rn => exact Bool.or_true _
    | rz | rp | rm => exact hrm
  refine .of 4 0x02 rfl ?_
  simp [decGroup, decG4, hone, hrm', dec2_word hw]

theorem decodes_cvtne {bg : Blk} {tgt : NarrowFmt} {d : Reg} {a : Src} (hw : (u0 h && wf1 h d a) = true) :
    (Instr.cvtne h bg tgt d a).Decodes := by
  obtain ⟨hu, hw⟩ := Bool.and_eq_true_iff.mp hw
  refine .of 4 0x03 rfl ?_
  simp [decGroup, decG4, fix0_word hu, dec1_word hw]

theorem decodes_pack {w : PkW} {md : PkMode} {d : Reg} {a b : Src} (hw : wf2 h d a b = true) :
    (Instr.pack h w md d a b).Decodes := by
  refine .of 4 0x04 rfl ?_
  simp [decGroup, decG4, dec2_word hw]

theorem decodes_unpack {w : PkW} {sx : Bool} {d : Reg} {a b : Src} (hw : wf2 h d a b = true) :
    (Instr.unpack h w sx d a b).Decodes := by
  refine .of 4 0x05 rfl ?_
  simp [decGroup, decG4, dec2_word hw]

theorem decodes_qscale {md : QMode} {d : Reg} {a : Src} (hw : (Instr.qscale h md d a).wf = true) :
    (Instr.qscale h md d a).Decodes := by
  obtain ⟨hu, hw⟩ := Bool.and_eq_true_iff.mp hw
  cases md with
  | scale bg t | div bg t =>
    obtain ⟨ht, hw⟩ := Bool.and_eq_true_iff.mp hw
    refine .of 4 0x06 rfl ?_
    simp [decGroup, decG4, fix0_word hu, ht, dec1_word hw]
  | apply b =>
    refine .of 4 0x06 rfl ?_
    simp [decGroup, decG4, fix0_word hu, modZ_of_lt, dec2_word (show wf2 h d a b = true from hw)]

theorem decodes_tern {out : TernOut} {d : Reg} {a b : Src} (hw : wf2 h d a b = true) : (Instr.tern h out d a b).Decodes := by
  refine .of 4 0x07 rfl ?_
  simp [decGroup, decG4, dec2_word hw]

/-! ### Group 0x5: dot products -/

theorem decodes_dot2 {fa fb : Dot2Fmt} {d : Reg} {a b c : Src} (hw : wf3 h d a b c = true) :
    (Instr.dot2 h fa fb d a b c).Decodes := by
  refine .of (x32 := h.sc32 [a, b, c] c) 5 0x08 rfl ?_
  simp [decGroup, decG5, dec3_word hw]

/-- EXT where DOT4 or DOT8 has a scale operand (R144). -/
def scaleExt (sc : Option Reg) : BitVec 20 :=
  match sc with
  | none => 0
  | some e => (0 : BitVec 12) ++ e.code

/-- A scale operand needs the 128-bit form. -/
def scaleOk (h : Hdr) (sc : Option Reg) : Bool :=
  match sc with
  | none => true
  | some e => h.form == .w128 && e.okIn h

theorem scaleOp_word {sc : Option Reg} (hsc : scaleOk h sc = true) (hmod : mod.extractLsb' 4 1 = bit1 sc.isSome) :
    scaleOp (h.word op mod dst sa sb x32 (scaleExt sc)) = .ok sc := by
  cases sc with
  | none => simp [scaleOp, scaleExt, hmod, noE_word]
  | some e =>
    obtain ⟨hform, he⟩ := Bool.and_eq_true_iff.mp hsc
    simp [scaleOp, scaleExt, hmod, eq_of_beq hform, regOf_code he]

theorem scaleExt_eq_zero {sc : Option Reg} (hsc : scaleOk h sc = true) (hform : h.form ≠ .w128) : scaleExt sc = 0 := by
  cases sc with
  | none => rfl
  | some e =>
    obtain ⟨hform', -⟩ := Bool.and_eq_true_iff.mp hsc
    exact absurd (eq_of_beq hform') hform

theorem decodes_dot4 {fa fb : Dot4Fmt} {sc : Option Reg} {d : Reg} {a b c : Src}
    (hw : (Instr.dot4 h fa fb sc d a b c).wf = true) : (Instr.dot4 h fa fb sc d a b c).Decodes := by
  obtain ⟨hw, hsc⟩ := Bool.and_eq_true_iff.mp hw
  refine .of (mod := (0 : BitVec 3) ++ bit1 sc.isSome ++ fb.code ++ fa.code) (x32 := h.sc32 [a, b, c] c) (ext := scaleExt sc)
    5 0x09 (by cases sc <;> rfl) ?_
  simp [decGroup, decG5, scaleOp_word hsc, dec3E_word hw (scaleExt_eq_zero hsc)]

theorem decodes_dot8 {fa fb : Dot8Fmt} {sc : Option Reg} {d : Reg} {a b c : Src}
    (hw : (Instr.dot8 h fa fb sc d a b c).wf = true) : (Instr.dot8 h fa fb sc d a b c).Decodes := by
  obtain ⟨hw, hsc⟩ := Bool.and_eq_true_iff.mp hw
  refine .of (mod := (0 : BitVec 3) ++ bit1 sc.isSome ++ fb.code ++ fa.code) (x32 := h.sc32 [a, b, c] c) (ext := scaleExt sc)
    5 0x0A (by cases sc <;> rfl) ?_
  simp [decGroup, decG5, scaleOp_word hsc, dec3E_word hw (scaleExt_eq_zero hsc)]

theorem decodes_tdot {byte : BitVec 2} {d : Reg} {a b c : Src} (hw : wf3 h d a b c = true) :
    (Instr.tdot h byte d a b c).Decodes := by
  refine .of (x32 := h.sc32 [a, b, c] c) 5 0x0B rfl ?_
  simp [decGroup, decG5, dec3_word hw]

/-! ### Group 0x6 -/

theorem segMod_false {b : Bool} {sw : SegW} : segMod false b sw = 0#4 ++ bit1 b ++ sw.code := rfl

theorem segMod_false_false {sw : SegW} : segMod false false sw = 0#5 ++ sw.code := rfl

theorem decodes_geti {wide : Bool} {sw : SegW} {d : Reg} {a b : Src} (hw : (u0 h && wf2 h d a b) = true) :
    (Instr.geti h wide sw d a b).Decodes := by
  obtain ⟨hu, hw⟩ := Bool.and_eq_true_iff.mp hw
  refine .of 6 0x00 rfl ?_
  simp [decGroup, decG6, fix0_word hu, segMod_false, segW, dec2_word hw]

theorem decodes_getb {wide wrap : Bool} {sw : SegW} {d : Reg} {a b : Src} (hw : (u0 h && wf2 h d a b) = true) :
    (Instr.getb h wide wrap sw d a b).Decodes := by
  obtain ⟨hu, hw⟩ := Bool.and_eq_true_iff.mp hw
  refine .of 6 0x01 rfl ?_
  simp [decGroup, decG6, fix0_word hu, segMod, segW, dec2_word hw]

theorem decodes_geta {wide wrap : Bool} {sw : SegW} {d : Reg} {a b : Src} (hw : (u0 h && wf2 h d a b) = true) :
    (Instr.geta h wide wrap sw d a b).Decodes := by
  obtain ⟨hu, hw⟩ := Bool.and_eq_true_iff.mp hw
  refine .of 6 0x02 rfl ?_
  simp [decGroup, decG6, fix0_word hu, segMod, segW, dec2_word hw]

theorem decodes_getx {wide : Bool} {sw : SegW} {d : Reg} {a b : Src} (hw : (u0 h && wf2 h d a b) = true) :
    (Instr.getx h wide sw d a b).Decodes := by
  obtain ⟨hu, hw⟩ := Bool.and_eq_true_iff.mp hw
  refine .of 6 0x03 rfl ?_
  simp [decGroup, decG6, fix0_word hu, segMod_false, segW, dec2_word hw]

theorem decodes_pany {sw : SegW} {pd pa : Pred} (hw : (u0 h && h.wf) = true) : (Instr.pany h sw pd pa).Decodes := by
  obtain ⟨hu, hw⟩ := Bool.and_eq_true_iff.mp hw
  refine .of 6 0x04 rfl ?_
  simp [decGroup, decG6, fix0_word hu, segMod_false_false, segW, decPd_word (pd.okIn_of_u0 hu), predOf_code (pa.okIn_of_u0 hu),
    dec0_word hw]

theorem decodes_pall {sw : SegW} {pd pa : Pred} (hw : (u0 h && h.wf) = true) : (Instr.pall h sw pd pa).Decodes := by
  obtain ⟨hu, hw⟩ := Bool.and_eq_true_iff.mp hw
  refine .of 6 0x05 rfl ?_
  simp [decGroup, decG6, fix0_word hu, segMod_false_false, segW, decPd_word (pd.okIn_of_u0 hu), predOf_code (pa.okIn_of_u0 hu),
    dec0_word hw]

theorem decodes_pmask {cnt : Bool} {d : Reg} {pa : Pred} (hw : (u0 h && h.wf) = true) : (Instr.pmask h cnt d pa).Decodes := by
  obtain ⟨hu, hw⟩ := Bool.and_eq_true_iff.mp hw
  refine .of 6 0x06 rfl ?_
  simp [decGroup, decG6, fix0_word hu, predOf_code (pa.okIn_of_u0 hu), decD_word hw (d.okIn_of_u0 hu)]

theorem decodes_peers {wide : Bool} {d : PeersDst} {a : Src} (hw : (u0 h && h.wf && a.okIn h) = true) :
    (Instr.peers h wide d a).Decodes := by
  rw [Bool.and_eq_true, Bool.and_eq_true] at hw
  obtain ⟨⟨hu, hw⟩, ha⟩ := hw
  cases d with
  | mask d =>
    refine .of 6 0x07 rfl ?_
    simp [decGroup, decG6, fix0_word hu, dec1_word (wf1_of_u0 hu (d := d) hw ha)]
  | all pd =>
    refine .of 6 0x07 rfl ?_
    simp [decGroup, decG6, fix0_word hu, encA_eq_word, decPd_word (pd.okIn_of_u0 hu), decA_word (wfS_singleton hw ha)]

theorem decodes_scan {ty : ScanTy} {o : ScanOp} {excl sat : Bool} {d : Reg} {a : Src}
    (hw : (u0 h && scanOk ty o sat && wf1 h d a) = true) : (Instr.scan h ty o excl sat d a).Decodes := by
  rw [Bool.and_eq_true, Bool.and_eq_true] at hw
  obtain ⟨⟨hu, hok⟩, hw⟩ := hw
  refine .of 6 0x08 rfl ?_
  simp [decGroup, decG6, fix0_word hu, hok, dec1_word hw]

theorem decodes_vred {ty : ScanTy} {o : ScanOp} {sat : Bool} {d : Reg} {a : Src}
    (hw : (u0 h && scanOk ty o sat && wf1 h d a) = true) : (Instr.vred h ty o sat d a).Decodes := by
  rw [Bool.and_eq_true, Bool.and_eq_true] at hw
  obtain ⟨⟨hu, hok⟩, hw⟩ := hw
  refine .of 6 0x09 rfl ?_
  simp [decGroup, decG6, fix0_word hu, hok, dec1_word hw]

theorem decodes_lead {last : Bool} {pd : Pred} (hw : (u0 h && h.wf) = true) : (Instr.lead h last pd).Decodes := by
  obtain ⟨hu, hw⟩ := Bool.and_eq_true_iff.mp hw
  refine .of 6 0x0A rfl ?_
  simp [decGroup, decG6, fix0_word hu, decPd_word (pd.okIn_of_u0 hu), dec0_word hw]

/-- The fields that REGROUP fixes, and NEXT too. -/
theorem regroupOk_iff : regroupOk h = true ↔ (h.bt == 31 && h.pg == 7 && !h.pn) = true ∧ u0 h = true ∧ h.wf = true := by
  simp only [regroupOk, u0, Hdr.wf, Hdr.guardOk, Bool.and_eq_true, Bool.or_eq_true]
  tauto

theorem decodes_regroup {a : Src} {n : BitVec 8} (hw : (regroupOk h && a.okIn h && decide (n.toNat ≤ 192)) = true) :
    (Instr.regroup h a n).Decodes := by
  rw [Bool.and_eq_true, Bool.and_eq_true] at hw
  obtain ⟨⟨hfix, ha⟩, hn⟩ := hw
  obtain ⟨hfix, hu, hw⟩ := regroupOk_iff.mp hfix
  refine .of 6 0x0B rfl ?_
  simp only [decGroup, decG6]
  exact .bind (fix0_word hu) (.bind (congrArg (need · .mod) hn)
    (.bind (congrArg (need · .field) hfix) (decA_word (wfS_singleton hw ha) rfl)))

/-! ### Group 0x7 -/

theorem decodes_bx {tgt : BitVec 5} (hw : (u0 h && h.wf) = true) : (Instr.bx h tgt).Decodes := by
  obtain ⟨hu, hw⟩ := Bool.and_eq_true_iff.mp hw
  refine .of 7 0x00 rfl ?_
  simp [decGroup, decG7, fix0_word hu, dec0_word hw]

theorem decodes_bxc {once : Bool} {tt ft : BitVec 5} {pc : Pred} (hw : (u0 h && h.wf && pc.okIn h) = true) :
    (Instr.bxc h once tt ft pc).Decodes := by
  rw [Bool.and_eq_true, Bool.and_eq_true] at hw
  obtain ⟨⟨hu, hw⟩, hp⟩ := hw
  refine .of 7 0x01 rfl ?_
  simp [decGroup, decG7, fix0_word hu, predOf_code hp, dec0_word hw]

theorem decodes_bxi {a : Src} (hw : (u0 h && wfS h [a]) = true) : (Instr.bxi h a).Decodes := by
  obtain ⟨hu, hw⟩ := Bool.and_eq_true_iff.mp hw
  refine .of 7 0x02 rfl ?_
  simp [decGroup, decG7, fix0_word hu, decA_word hw]

theorem nextOk_iff : nextOk h = true ↔ regroupOk h = true ∧ h.sf = none := by
  simp only [nextOk, regroupOk, Bool.and_eq_true, Option.isNone_iff_eq_none]
  tauto

theorem decodes_next (hw : nextOk h = true) : (Instr.next h).Decodes := by
  obtain ⟨hw, hsf⟩ := nextOk_iff.mp hw
  obtain ⟨hfix, hu, hw⟩ := regroupOk_iff.mp hw
  refine .of 7 0x03 rfl ?_
  have hnext : (h.bt == 31 && h.pg == 7 && !h.pn && (15 : BitVec 4) == 15) = true := by rw [hfix]; rfl
  simp only [decGroup, decG7, word_sf_none hsf]
  exact .bind (fix0_word hu) (.bind (modZ_eq_ok rfl) (.bind (congrArg (need · .field) hnext) (dec0_word hw rfl)))

theorem decodes_call {link : Fin 192} {a : Src} {rb : BitVec 5} (hw : (u0 h && wfS h [a]) = true) :
    (Instr.call h link a rb).Decodes := by
  obtain ⟨hu, hw⟩ := Bool.and_eq_true_iff.mp hw
  refine .of 7 0x04 rfl ?_
  simp [decGroup, decG7, fix0_word hu, encA_eq_word, decA_word hw]

theorem decodes_calli {link : Fin 192} {sa sv : SPair} {rb : BitVec 5} (hw : (u0 h && h.wf) = true) :
    (Instr.calli h link sa sv rb).Decodes := by
  obtain ⟨hu, hw⟩ := Bool.and_eq_true_iff.mp hw
  refine .of 7 0x05 rfl ?_
  simp [decGroup, decG7, fix0_word hu, dec0_word hw]

theorem decodes_ret {a : Src} {rs : SPair} (hw : (u0 h && wfS h [a]) = true) : (Instr.ret h a rs).Decodes := by
  obtain ⟨hu, hw⟩ := Bool.and_eq_true_iff.mp hw
  refine .of 7 0x06 rfl ?_
  simp [decGroup, decG7, fix0_word hu, encA_eq_word, decA_word hw]

theorem decodes_exit (hw : (u0 h && h.wf) = true) : (Instr.exit h).Decodes := by
  obtain ⟨hu, hw⟩ := Bool.and_eq_true_iff.mp hw
  refine .of 7 0x07 rfl ?_
  simp [decGroup, decG7, fix0_word hu, dec0_word hw]

theorem decodes_exitn {k : BitVec 8} {a : Src} (hw : (u0 h && wfS h [a] && decide (k.toNat ≤ 192)) = true) :
    (Instr.exitn h k a).Decodes := by
  rw [Bool.and_eq_true, Bool.and_eq_true] at hw
  obtain ⟨⟨hu, hw⟩, hk⟩ := hw
  refine .of 7 0x08 rfl ?_
  simp only [decGroup, decG7]
  exact .bind (fix0_word hu) (.bind (congrArg (need · .mod) hk) (decA_word hw rfl))

theorem decodes_yield {tgt : BitVec 5} (hw : (u0 h && h.wf) = true) : (Instr.yield h tgt).Decodes := by
  obtain ⟨hu, hw⟩ := Bool.and_eq_true_iff.mp hw
  refine .of 7 0x09 rfl ?_
  simp [decGroup, decG7, fix0_word hu, dec0_word hw]

/-! ### Groups 0x8 and 0x9 -/

theorem order_acqRel_bit {o : Order} (ho : o.plainOrAcq = true) : (o.code.extractLsb' 1 1 == 1#1) = false := by
  cases o with
  | plain | acq s => simp [Order.code]
  | rel s | ar s => cases ho

theorem order_acq_bit {o : Order} (ho : o.plainOrRel = true) : (o.code.extractLsb' 0 1 == 1#1) = false := by
  cases o with
  | plain | rel s => simp [Order.code]
  | acq s | ar s => cases ho

theorem Order.okIn_plain : Order.plain.okIn h = true := by simp [Order.okIn]

theorem memMod_scr {sz : MSize} {sx : Bool} : memMod sz sx .plain .normal = 0#4 ++ bit1 sx ++ sz.code := rfl

theorem memMod_store {sz : MSize} : memMod sz false .plain .normal = 0#5 ++ sz.code := rfl

theorem atomMod_cas {sz : ASize} : atomMod .add sz .plain = sz.code ++ 0#6 := by
  cases sz <;> rfl

theorem decodes_ld {sz : MSize} {sx : Bool} {o : Order} {hint : Hint} {d : Reg} {m : MemRef}
    (hw : (h.wf && sxOk sz sx && o.okIn h && o.plainOrAcq && d.okIn h && m.okIn h) = true) :
    (Instr.ld h sz sx o hint d m).Decodes := by
  simp only [Bool.and_eq_true] at hw
  obtain ⟨⟨⟨⟨⟨hw, hsx⟩, ho⟩, hacq⟩, hd⟩, hm⟩ := hw
  refine .of 8 0x00 rfl ?_
  simp [decGroup, decG8, memMod, hsx, order_acqRel_bit hacq, ordOf_word ho, decMem_word hw ho hd hm]

theorem decodes_st {sz : MSize} {o : Order} {hint : Hint} {a : Reg} {m : MemRef}
    (hw : (h.wf && o.okIn h && o.plainOrRel && a.okIn h && m.okIn h) = true) : (Instr.st h sz o hint a m).Decodes := by
  simp only [Bool.and_eq_true] at hw
  obtain ⟨⟨⟨⟨hw, ho⟩, hrel⟩, ha⟩, hm⟩ := hw
  refine .of 8 0x01 rfl ?_
  simp [decGroup, decG8, memMod, order_acq_bit hrel, ordOf_word ho, decMem_word hw ho ha hm]

theorem decodes_lds {sz : MSize} {sx : Bool} {d : Reg} {m : ScrRef}
    (hw : (h.wf && sxOk sz sx && d.okIn h && m.okIn h) = true) : (Instr.lds h sz sx d m).Decodes := by
  simp only [Bool.and_eq_true] at hw
  obtain ⟨⟨⟨hw, hsx⟩, hd⟩, hm⟩ := hw
  refine .of 8 0x02 rfl ?_
  simp [decGroup, decG8, memMod_scr, hsx, decScr_word hw hd hm]

theorem decodes_sts {sz : MSize} {a : Reg} {m : ScrRef} (hw : (h.wf && a.okIn h && m.okIn h) = true) :
    (Instr.sts h sz a m).Decodes := by
  rw [Bool.and_eq_true, Bool.and_eq_true] at hw
  obtain ⟨⟨hw, ha⟩, hm⟩ := hw
  refine .of 8 0x03 rfl ?_
  simp [decGroup, decG8, memMod_store, decScr_word hw ha hm]

theorem decodes_ldc {sz : MSize} {sx : Bool} {d : Reg} {m : MemRef}
    (hw : (h.wf && sxOk sz sx && d.okIn h && m.okIn h) = true) : (Instr.ldc h sz sx d m).Decodes := by
  simp only [Bool.and_eq_true] at hw
  obtain ⟨⟨⟨hw, hsx⟩, hd⟩, hm⟩ := hw
  refine .of 8 0x05 rfl ?_
  simp [decGroup, decG8, memMod_scr, hsx, noScope_word, decMem_word hw Order.okIn_plain hd hm]

theorem decodes_ldt {k : LdtCount} {md : LdtMode} {hint : Hint} {d : Reg} {m : MemRef}
    (hw : (Instr.ldt h k md hint d m).wf = true) : (Instr.ldt h k md hint d m).Decodes := by
  obtain ⟨hwf, hmode⟩ := Bool.and_eq_true_iff.mp hw
  rw [Bool.and_eq_true, Bool.and_eq_true] at hwf
  obtain ⟨⟨hh, hd⟩, hm⟩ := hwf
  have hfits : ∀ op md' ext, (h.form ≠ .w128 → ext = 0) → (h.word op md' d.code m.base.code m.off.code
      (m.disp ++ 0#5 ++ Order.plain.scope) ext).fits = true := fun op md' ext => fits_word_mem Order.okIn_plain hm
  cases md with
  | wide | code =>
    refine .of 8 0x04 rfl ⟨hfits _ _ _ fun _ => rfl, ?_⟩
    simp [decGroup, decG8, noScope_word, noE_word, hdrOf_word hh, dstR_word hd, memOf_word hm]
  | scl ss =>
    refine .of 8 0x04 rfl ⟨hfits _ _ _ fun hform => absurd (eq_of_beq hmode) hform, ?_⟩
    simp [decGroup, decG8, encMem_eq_word, noScope_word, eq_of_beq hmode, hdrOf_word hh, dstR_word hd, memOf_word hm]

theorem decodes_atom {o : AOp} {sz : ASize} {ord : Order} {d : Reg} {m : MemRef}
    (hw : (h.wf && o.sizeOk sz && ord.okIn h && d.okIn h && m.okIn h) = true) : (Instr.atom h o sz ord d m).Decodes := by
  simp only [Bool.and_eq_true] at hw
  obtain ⟨⟨⟨⟨hw, hsz⟩, ho⟩, hd⟩, hm⟩ := hw
  refine .of 9 0x00 rfl ?_
  simp [decGroup, decG9, atomMod, hsz, ordOf_word ho, decMem_word hw ho hd hm]

theorem decodes_atomcas {sz : ASize} {ord : Order} {d : Reg} {m : MemRef}
    (hw : (h.wf && ord.okIn h && d.okIn h && m.okIn h) = true) : (Instr.atomcas h sz ord d m).Decodes := by
  simp only [Bool.and_eq_true] at hw
  obtain ⟨⟨⟨hw, ho⟩, hd⟩, hm⟩ := hw
  refine .of 9 0x01 rfl ?_
  simp [decGroup, decG9, atomMod, AOp.code, ordOf_word ho, decMem_word hw ho hd hm]

theorem decodes_red {o : AOp} {sz : ASize} {ord : Order} {a : Reg} {m : MemRef}
    (hw : (h.wf && o.sizeOk sz && ord.okIn h && ord.plainOrRel && a.okIn h && m.okIn h) = true) :
    (Instr.red h o sz ord a m).Decodes := by
  simp only [Bool.and_eq_true] at hw
  obtain ⟨⟨⟨⟨⟨hw, hsz⟩, ho⟩, hrel⟩, ha⟩, hm⟩ := hw
  refine .of 9 0x02 rfl ?_
  simp [decGroup, decG9, atomMod, hsz, order_acq_bit hrel, ordOf_word ho, decMem_word hw ho ha hm]

theorem decodes_atoms {o : AOp} {sz : ASize} {d : Reg} {m : ScrRef}
    (hw : (h.wf && o.sizeOk sz && d.okIn h && m.okIn h) = true) : (Instr.atoms h o sz d m).Decodes := by
  simp only [Bool.and_eq_true] at hw
  obtain ⟨⟨⟨hw, hsz⟩, hd⟩, hm⟩ := hw
  refine .of 9 0x03 rfl ?_
  simp [decGroup, decG9, atomMod, Order.code, hsz, decScr_word hw hd hm]

theorem decodes_atomcass {sz : ASize} {d : Reg} {m : ScrRef} (hw : (h.wf && d.okIn h && m.okIn h) = true) :
    (Instr.atomcass h sz d m).Decodes := by
  rw [Bool.and_eq_true, Bool.and_eq_true] at hw
  obtain ⟨⟨hw, hd⟩, hm⟩ := hw
  refine .of 9 0x04 rfl ?_
  simp [decGroup, decG9, atomMod_cas, decScr_word hw hd hm]

/-! ### Group 0xA -/

theorem decodes_fence {k : FenceKind} {sc : Scope} (hw : h.wf = true) : (Instr.fence h k sc).Decodes := by
  refine .of 0xA 0x00 rfl ?_
  simp [decGroup, decGA, dec0_word hw]

theorem decodes_bind {k img : Src} (hw : (u1 h && wfS h [k, img]) = true) : (Instr.bind h k img).Decodes := by
  obtain ⟨hu, hw⟩ := Bool.and_eq_true_iff.mp hw
  refine .of 0xA 0x01 rfl ?_
  simp [decGroup, decGA, fix1_word hu, decAB_word hw]

theorem decodes_unbind {k : Src} (hw : (u1 h && wfS h [k]) = true) : (Instr.unbind h k).Decodes := by
  obtain ⟨hu, hw⟩ := Bool.and_eq_true_iff.mp hw
  refine .of 0xA 0x02 rfl ?_
  simp [decGroup, decGA, fix1_word hu, decA_word hw]

theorem decodes_cflush {l2 : Bool} {m : MemRef} (hw : (h.wf && m.okIn h) = true) : (Instr.cflush h l2 m).Decodes := by
  refine .of 0xA 0x03 rfl ?_
  simp [decGroup, decGA, decLine_word hw]

theorem decodes_cinv {l2 : Bool} {m : MemRef} (hw : (h.wf && m.okIn h) = true) : (Instr.cinv h l2 m).Decodes := by
  refine .of 0xA 0x04 rfl ?_
  simp [decGroup, decGA, decLine_word hw]

theorem decodes_prf {l2 : Bool} {hint : Hint} {m : MemRef} (hw : (h.wf && m.okIn h) = true) :
    (Instr.prf h l2 hint m).Decodes := by
  refine .of 0xA 0x05 rfl ?_
  simp [decGroup, decGA, decLine_word hw]

theorem decodes_ipf {n : IpfCount} {m : MemRef} (hw : (h.wf && m.okIn h) = true) : (Instr.ipf h n m).Decodes := by
  refine .of 0xA 0x06 rfl ?_
  simp [decGroup, decGA, decLine_word hw]

theorem decodes_isync (hw : h.wf = true) : (Instr.isync h).Decodes := by
  refine .of 0xA 0x07 rfl ?_
  simp [decGroup, decGA, dec0_word hw]

theorem decodes_stashmap {d : Reg} {sg : SPair} {sp : Src} (hw : (u1 h && wf1 h d sp) = true) :
    (Instr.stashmap h d sg sp).Decodes := by
  obtain ⟨hu, hw⟩ := Bool.and_eq_true_iff.mp hw
  obtain ⟨hh, hd, hsp⟩ := wf1_iff.mp hw
  have hl : ∀ x ∈ [sp], x.okIn h = true := by simpa using hsp
  refine .of (x32 := immOf [sp]) (ext := 0) 0xA 0x08 rfl ⟨fits_word_imm hl, ?_⟩
  simp [decGroup, decGA, fix1_word hu, enc2_eq_word, hdrOf_word hh, dstR_word hd,
    srcI_word hl (immsAgree_singleton sp) (List.mem_singleton_self sp), immX_word1, noE_word]

theorem decodes_stashwb {sh : Src} (hw : (u1 h && wfS h [sh]) = true) : (Instr.stashwb h sh).Decodes := by
  obtain ⟨hu, hw⟩ := Bool.and_eq_true_iff.mp hw
  refine .of 0xA 0x09 rfl ?_
  simp [decGroup, decGA, fix1_word hu, decA_word hw]

theorem decodes_stashdrop {nowb : Bool} {sh : Src} (hw : (u1 h && wfS h [sh]) = true) :
    (Instr.stashdrop h nowb sh).Decodes := by
  obtain ⟨hu, hw⟩ := Bool.and_eq_true_iff.mp hw
  refine .of 0xA 0x0A rfl ?_
  simp [decGroup, decGA, fix1_word hu, decA_word hw]

theorem decodes_hint {md : HintMode} {lv : HintLevels} {m : MemRef} (hw : (h.wf && m.okIn h) = true) :
    (Instr.hint h md lv m).Decodes := by
  refine .of 0xA 0x0B rfl ?_
  simp [decGroup, decGA, decLine_word hw]

/-! ### Group 0xB -/

theorem decodes_binit {o : Reg} {a b : Src} (hw : (u1 h && wf2 h o a b) = true) : (Instr.binit h o a b).Decodes := by
  obtain ⟨hu, hw⟩ := Bool.and_eq_true_iff.mp hw
  refine .of 0xB 0x00 rfl ?_
  simp [decGroup, decGB, fix1_word hu, dec2_word hw]

/-- The barrier's fields: a slot in MOD and Z in SA, or a source in SA, whose immediate X32 holds. -/
theorem barOf_word {bar : BarRef} (hok : bar.okIn h = true) (himm : ∀ x, bar = .off (.imm x) → x32 = x) :
    barOf (h.word op bar.mod dst bar.sa sb x32 ext) = .ok bar := by
  cases bar with
  | off a =>
    have ha : srcI (h.word op 0#8 dst a.code sb x32 ext) a.code = .ok a :=
      srcOf_code rfl rfl hok fun x hx => himm x (by rw [hx])
    simp [barOf, BarRef.mod, BarRef.sa, ha]
  | slot k => simp [barOf, BarRef.mod, BarRef.sa]

theorem modZ_bar {bar : BarRef} : modZ (h.word op bar.mod dst sa sb x32 ext) 3 = .ok () := by
  cases bar <;> simp [BarRef.mod]

theorem decodes_arrive {d : Reg} {bar : BarRef} (hw : (u1 h && h.wf && d.okIn h && bar.okIn h) = true) :
    (Instr.arrive h d bar).Decodes := by
  simp only [Bool.and_eq_true] at hw
  obtain ⟨⟨⟨hu, hh⟩, hd⟩, hbar⟩ := hw
  have himm : ∀ x, bar = .off (.imm x) → immOf bar.srcs = x := fun x hx => by rw [hx]; rfl
  have hx : immX (h.word 0x161 bar.mod d.code bar.sa 254#8 (immOf bar.srcs) 0#20) [bar.sa] = .ok () := by
    cases bar with
    | off a => exact immX_word1
    | slot k => rfl
  have hl : ∀ a ∈ bar.srcs, a.okIn h = true := by
    cases bar with
    | off a => simpa [BarRef.srcs, BarRef.okIn] using hbar
    | slot k => simp [BarRef.srcs]
  refine .of (x32 := immOf bar.srcs) (ext := 0) 0xB 0x01 rfl ⟨fits_word_imm hl, ?_⟩
  simp [decGroup, decGB, fix1_word hu, enc0_eq_word, modZ_bar, barOf_word hbar himm, hdrOf_word hh, dstR_word hd, hx, noE_word]

theorem immsAgree_pair_comm {a b : Src} (hab : immsAgree [a, b] = true) : immsAgree [b, a] = true := by
  cases a with
  | r d => cases b <;> rfl
  | imm x =>
    cases b with
    | r d => rfl
    | imm y =>
      have hyx : y = x := by simpa [immsAgree, Src.imms] using hab
      simp [immsAgree, Src.imms, hyx]

theorem decodes_bexpect {bar : BarRef} {b : Src}
    (hw : (u1 h && h.wf && bar.okIn h && b.okIn h && immsAgree (b :: bar.srcs)) = true) : (Instr.bexpect h bar b).Decodes := by
  simp only [Bool.and_eq_true] at hw
  obtain ⟨⟨⟨⟨hu, hh⟩, hbar⟩, hb⟩, hag⟩ := hw
  have hl : ∀ a ∈ bar.srcs ++ [b], a.okIn h = true := by
    cases bar with
    | off a => simpa [BarRef.srcs] using ⟨hbar, hb⟩
    | slot k => simpa [BarRef.srcs] using hb
  have hag' : immsAgree (bar.srcs ++ [b]) = true := by
    cases bar with
    | off a => exact immsAgree_pair_comm hag
    | slot k => exact hag
  have himm : ∀ x, bar = .off (.imm x) → immOf (bar.srcs ++ [b]) = x := fun x hx => immOf_eq hag' (by rw [hx]; simp [BarRef.srcs])
  have hx : immX (h.word 0x166 bar.mod 254#8 bar.sa b.code (immOf (bar.srcs ++ [b])) 0#20) [bar.sa, b.code] = .ok () := by
    cases bar with
    | off a => exact immX_word2
    | slot k => exact immX_eq_ok (l := [.r .z, b]) rfl
  refine .of (x32 := immOf (bar.srcs ++ [b])) (ext := 0) 0xB 0x06 rfl ⟨fits_word_imm hl, ?_⟩
  simp [decGroup, decGB, fix1_word hu, enc0_eq_word, modZ_bar, barOf_word hbar himm, hdrOf_word hh,
    srcI_word hl hag' (a := b) (by simp), hx, noE_word]

theorem decodes_wait {k : BitVec 2} {all : Bool} {qd : Fin 3} {d : Reg} {sl t : Src} (hw : (u1 h && wf2 h d sl t) = true) :
    (Instr.wait h k all qd d sl t).Decodes := by
  obtain ⟨hu, hw⟩ := Bool.and_eq_true_iff.mp hw
  refine .of 0xB 0x02 rfl ?_
  simp [decGroup, decGB, fix1_word hu, dec2_word hw]

theorem decodes_pause {n : Src} (hw : (u1 h && wfS h [n]) = true) : (Instr.pause h n).Decodes := by
  obtain ⟨hu, hw⟩ := Bool.and_eq_true_iff.mp hw
  refine .of 0xB 0x03 rfl ?_
  simp [decGroup, decGB, fix1_word hu, decA_word hw]

theorem decodes_drain {mem eng flg : Bool} (hw : (u1 h && h.wf && (mem || eng || flg)) = true) :
    (Instr.drain h mem eng flg).Decodes := by
  rw [Bool.and_eq_true, Bool.and_eq_true] at hw
  obtain ⟨⟨hu, hw⟩, hany⟩ := hw
  have hmod : (((0 : BitVec 5) ++ bit1 flg ++ bit1 eng ++ bit1 mem).extractLsb' 0 3 != 0) = true := by
    revert hany
    cases mem <;> cases eng <;> cases flg <;> decide
  refine .of 0xB 0x04 rfl ?_
  simp only [decGroup, decGB]
  exact .bind (fix1_word hu) (.bind (modZ_eq_ok (by simp)) (.bind (congrArg (need · .mod) hmod) (dec0_word hw (by simp))))

theorem decodes_gbar (hw : (u1 h && h.wf) = true) : (Instr.gbar h).Decodes := by
  obtain ⟨hu, hw⟩ := Bool.and_eq_true_iff.mp hw
  refine .of 0xB 0x05 rfl ?_
  simp [decGroup, decGB, fix1_word hu, dec0_word hw]

/-! ### Group 0xC -/

theorem extract_extract {n k l k' l' : Nat} {x : BitVec n} (hl : k' + l' ≤ l) :
    (x.extractLsb' k l).extractLsb' k' l' = x.extractLsb' (k + k') l' := by
  ext i hi
  have hlt : k' + i < l := by omega
  simp [hlt, Nat.add_assoc]

/-- The order bits of an engine command are MOD 7:3 (R294). -/
theorem engOrd_word {o : EngOrder} (hmod : mod.extractLsb' 3 5 = o.mod) : engOrd (h.word op mod dst sa sb x32 ext) = .ok o := by
  have hacq : mod.extractLsb' 7 1 = o.mod.extractLsb' 4 1 := by rw [← hmod, extract_extract (by decide)]
  have hrel : mod.extractLsb' 6 1 = o.mod.extractLsb' 3 1 := by rw [← hmod, extract_extract (by decide)]
  have hsc : mod.extractLsb' 3 3 = o.mod.extractLsb' 0 3 := by rw [← hmod, extract_extract (by decide)]
  simp only [engOrd, mb_eq, mf_eq, word_mod, hacq, hrel, hsc]
  cases o <;> simp [EngOrder.mod]

/-- COPY and COPY2D: the barrier is the third source; the 64-bit form has none. -/
theorem decCopy_word {o : EngOrder} {dir : CopyDir} {d : Reg} {a b bar : Src}
    {f : Hdr → EngOrder → CopyDir → Reg → Src → Src → Src → Instr} (hw : copyOk h d a b bar = true)
    (hord : mod.extractLsb' 3 5 = o.mod) (hzero : mod.extractLsb' 2 1 = 0) (hdir : mod.extractLsb' 0 2 = dir.code) :
    let r := h.word op mod d.code a.code b.code (h.sc32 [a, b, bar] bar) 0#20
    Parses r (decCopy r f) (f h o dir d a b bar) := by
  simp only [copyOk, Bool.and_eq_true] at hw
  obtain ⟨⟨⟨⟨⟨⟨⟨-, hh⟩, hd⟩, ha⟩, hb⟩, hbar⟩, hl⟩, hz⟩ := hw
  refine ⟨fits_word_sc fun _ => rfl, ?_⟩
  have hone : (!((0 : BitVec 1) == 1)) = true := rfl
  simp only [decCopy, mb_eq, mf_eq, word_mod, hzero, hdir, CopyDir.ofCode_code, hone, need_true, engOrd_word hord, word_form,
    word_sa, word_sb, hdrOf_word hh, dstR_word hd, srcC_word hl (a := a) (by simp) ha, srcC_word hl (a := b) (by simp) hb,
    noE_word, ok_bind]
  exact third_word hl hbar hz

theorem copyOk_u1 {d : Reg} {a b bar : Src} (hw : copyOk h d a b bar = true) : u1 h = true := by
  simp only [copyOk, Bool.and_eq_true, and_assoc] at hw
  exact hw.1

theorem decodes_copy {o : EngOrder} {dir : CopyDir} {d : Reg} {a b bar : Src} (hw : copyOk h d a b bar = true) :
    (Instr.copy h o dir d a b bar).Decodes := by
  refine .of (x32 := h.sc32 [a, b, bar] bar) 0xC 0x00 rfl (.bind (fix1_word (copyOk_u1 hw)) (decCopy_word hw ?_ ?_ ?_)) <;> simp

theorem decodes_copy2d {o : EngOrder} {dir : CopyDir} {d : Reg} {a b bar : Src} (hw : copyOk h d a b bar = true) :
    (Instr.copy2d h o dir d a b bar).Decodes := by
  refine .of (x32 := h.sc32 [a, b, bar] bar) 0xC 0x01 rfl (.bind (fix1_word (copyOk_u1 hw)) (decCopy_word hw ?_ ?_ ?_)) <;> simp

/-- The group slot of RSV and RLS is MOD 7:5 (R301). -/
theorem grpOf_word {grp : Option (Fin 4)} (hmod : mod.extractLsb' 5 3 = grpMod grp) :
    grpOf (h.word op mod dst sa sb x32 ext) = grp := by
  have hset : mod.extractLsb' 7 1 = (grpMod grp).extractLsb' 2 1 := by rw [← hmod, extract_extract (by decide)]
  have hslot : mod.extractLsb' 5 2 = (grpMod grp).extractLsb' 0 2 := by rw [← hmod, extract_extract (by decide)]
  simp only [grpOf, mb_eq, mf_eq, word_mod, hset, hslot]
  cases grp <;> simp [grpMod]

theorem decodes_rsv {g : Bool} {qd : Fin 3} {grp : Option (Fin 4)} {d : Reg} {count : Src}
    (hw : (u1 h && wf1 h d count && (!g || count == .r .z)) = true) : (Instr.rsv h g qd grp d count).Decodes := by
  rw [Bool.and_eq_true, Bool.and_eq_true] at hw
  obtain ⟨⟨hu, hw⟩, hg⟩ := hw
  obtain ⟨hh, hd, -⟩ := wf1_iff.mp hw
  cases g with
  | true =>
    obtain rfl : count = .r .z := eq_of_beq hg
    refine .of (x32 := 0) (ext := 0) 0xC 0x02 rfl ?_
    simp [decGroup, decGC, fix1_word hu, dstR_word hd, grpOf_word (grp := grp), dec0_word hh]
  | false =>
    refine .of 0xC 0x02 rfl ?_
    simp [decGroup, decGC, fix1_word hu, grpOf_word (grp := grp), dec1_word hw]

theorem decodes_rls {grp : Option (Fin 4)} {mask : Src} (hw : (u1 h && wfS h [mask]) = true) :
    (Instr.rls h grp mask).Decodes := by
  obtain ⟨hu, hw⟩ := Bool.and_eq_true_iff.mp hw
  refine .of 0xC 0x03 rfl ?_
  simp [decGroup, decGC, fix1_word hu, grpOf_word (grp := grp), decA_word hw]

theorem decodes_cld {o : EngOrder} {place : Reg} {src stride : Src} (hw : (u1 h && wf2 h place src stride) = true) :
    (Instr.cld h o place src stride).Decodes := by
  obtain ⟨hu, hw⟩ := Bool.and_eq_true_iff.mp hw
  refine .of 0xC 0x04 rfl ?_
  simp [decGroup, decGC, fix1_word hu, engOrd_word (o := o), dec2_word hw]

theorem decodes_mma {o : EngOrder} {s4 acc sum : Bool} {out : Reg} {act ctl : Src} (hw : (u1 h && wf2 h out act ctl) = true) :
    (Instr.mma h o s4 acc sum out act ctl).Decodes := by
  obtain ⟨hu, hw⟩ := Bool.and_eq_true_iff.mp hw
  refine .of 0xC 0x05 rfl ?_
  simp [decGroup, decGC, fix1_word hu, engOrd_word (o := o), dec2_word hw]

theorem decodes_gmv {o : EngOrder} {desc : Src} (hw : (u1 h && wfS h [desc]) = true) : (Instr.gmv h o desc).Decodes := by
  obtain ⟨hu, hw⟩ := Bool.and_eq_true_iff.mp hw
  refine .of 0xC 0x06 rfl ?_
  simp [decGroup, decGC, fix1_word hu, engOrd_word (o := o), decA_word hw]

theorem decodes_mfence {d : Reg} (hw : (u1 h && h.wf && d.okIn h) = true) : (Instr.mfence h d).Decodes := by
  rw [Bool.and_eq_true, Bool.and_eq_true] at hw
  obtain ⟨⟨hu, hw⟩, hd⟩ := hw
  refine .of 0xC 0x07 rfl ?_
  simp [decGroup, decGC, fix1_word hu, decD_word hw hd]

/-! ### Groups 0xD and 0xE -/

theorem decodes_enq {n : BitVec 4} {k : BitVec 2} {va : Fin 192} (hw : (u0 h && h.wf) = true) : (Instr.enq h n k va).Decodes := by
  obtain ⟨hu, hw⟩ := Bool.and_eq_true_iff.mp hw
  refine .of 0xD 0x00 rfl ?_
  simp [decGroup, decGD, fix0_word hu, dec0_word hw]

theorem decodes_enqr {n : BitVec 4} {k : BitVec 2} {ss cnt : Src} (hw : (u1 h && wfS h [ss, cnt]) = true) :
    (Instr.enqr h n k ss cnt).Decodes := by
  obtain ⟨hu, hw⟩ := Bool.and_eq_true_iff.mp hw
  refine .of 0xD 0x01 rfl ?_
  simp [decGroup, decGD, fix1_word hu, decAB_word hw]

theorem decodes_launch {d : Reg} {q : Src} {rc : Fin 31} (hw : (u1 h && wf1 h d q) = true) : (Instr.launch h d q rc).Decodes := by
  obtain ⟨hu, hw⟩ := Bool.and_eq_true_iff.mp hw
  refine .of 0xD 0x02 rfl ?_
  simp [decGroup, decGD, fix1_word hu, enc1_eq_word, dec1_word hw]

theorem decodes_deq {n : BitVec 4} {pd : Fin 8} {vd : Fin 192} (hw : (u0 h && h.wf) = true) : (Instr.deq h n pd vd).Decodes := by
  obtain ⟨hu, hw⟩ := Bool.and_eq_true_iff.mp hw
  have hpd : pd.val % 256 = pd.val := Nat.mod_eq_of_lt (by omega)
  refine .of 0xD 0x03 rfl ?_
  simp [decGroup, decGD, fix0_word hu, hpd, dec0_word hw]

theorem decodes_trap {a : Src} (hw : (u1 h && wfS h [a]) = true) : (Instr.trap h a).Decodes := by
  obtain ⟨hu, hw⟩ := Bool.and_eq_true_iff.mp hw
  refine .of 0xE 0x00 rfl ?_
  simp [decGroup, decGE, fix1_word hu, decA_word hw]

theorem decodes_rte (hw : (u1 h && h.wf) = true) : (Instr.rte h).Decodes := by
  obtain ⟨hu, hw⟩ := Bool.and_eq_true_iff.mp hw
  refine .of 0xE 0x01 rfl ?_
  simp [decGroup, decGE, fix1_word hu, dec0_word hw]

theorem decodes_movsr {num : BitVec 8} {d : Reg} (hw : (u1 h && h.wf && d.okIn h) = true) : (Instr.movsr h num d).Decodes := by
  rw [Bool.and_eq_true, Bool.and_eq_true] at hw
  obtain ⟨⟨hu, hw⟩, hd⟩ := hw
  refine .of 0xE 0x02 rfl ?_
  simp [decGroup, decGE, fix1_word hu, decD_word hw hd]

theorem decodes_setsr {num : BitVec 8} {a : Src} (hw : (u1 h && wfS h [a]) = true) : (Instr.setsr h num a).Decodes := by
  obtain ⟨hu, hw⟩ := Bool.and_eq_true_iff.mp hw
  refine .of 0xE 0x03 rfl ?_
  simp [decGroup, decGE, fix1_word hu, decA_word hw]

theorem decodes_mread {md : MreadMode} {d : Reg} (hw : (Instr.mread h md d).wf = true) : (Instr.mread h md d).Decodes := by
  obtain ⟨hu, hw⟩ := Bool.and_eq_true_iff.mp hw
  cases md with
  | tot | wg =>
    obtain ⟨hh, hd⟩ := Bool.and_eq_true_iff.mp hw
    refine .of 0xE 0x04 rfl ?_
    simp [decGroup, decGE, fix1_word hu, modZ_of_lt, decD_word hh hd]
  | ev c =>
    refine .of 0xE 0x04 rfl ?_
    simp [decGroup, decGE, fix1_word hu, modZ_of_lt, dec1_word (show wf1 h d c = true from hw)]

theorem decodes_bkpt {tag : BitVec 8} (hw : (u1 h && h.wf) = true) : (Instr.bkpt h tag).Decodes := by
  obtain ⟨hu, hw⟩ := Bool.and_eq_true_iff.mp hw
  refine .of 0xE 0x05 rfl ?_
  simp [decGroup, decGE, fix1_word hu, dec0_word hw]

theorem decodes_halt (hw : (u1 h && h.wf) = true) : (Instr.halt h).Decodes := by
  obtain ⟨hu, hw⟩ := Bool.and_eq_true_iff.mp hw
  refine .of 0xE 0x06 rfl ?_
  simp [decGroup, decGE, fix1_word hu, dec0_word hw]

theorem decodes_tmark {a : Src} (hw : (u1 h && wfS h [a]) = true) : (Instr.tmark h a).Decodes := by
  obtain ⟨hu, hw⟩ := Bool.and_eq_true_iff.mp hw
  refine .of 0xE 0x07 rfl ?_
  simp [decGroup, decGE, fix1_word hu, decA_word hw]

/-! ### Every instruction -/

theorem decodes_udf : Instr.udf.Decodes := by
  rintro r ⟨⟩
  exact ⟨rfl, rfl⟩

theorem dec3_noMod_word {f : Hdr → Reg → Src → Src → Src → Instr} {d : Reg} {a b c : Src} (hw : wf3 h d a b c = true) :
    let r := h.word op 0 d.code a.code b.code (h.sc32 [a, b, c] c) 0#20
    Parses r (do modZ r 0; dec3 r (fun h d a b c => f h d a b c)) (f h d a b c) :=
  .bind (modZ_eq_ok rfl) (dec3_word hw rfl)

theorem decodes_of_raw_none {i : Instr} (hi : i.raw = none) : i.Decodes := fun _ hr => nomatch hi.symm.trans hr

/-- Every well-formed encoded instruction decodes to itself. -/
theorem decodes_of_wf (i : Instr) (hw : i.wf = true) : i.Decodes := by
  cases i with
  | udf => exact decodes_udf
  | iadd h ty d a b => exact .of 0x0 0x01 rfl (int2_word (ok := allTy) hw)
  | isub h ty d a b => exact .of 0x0 0x02 rfl (int2_word (ok := allTy) hw)
  | iadds h ty d a b => exact .of 0x0 0x03 rfl (int2_word (ok := allTy) hw)
  | isubs h ty d a b => exact .of 0x0 0x04 rfl (int2_word (ok := allTy) hw)
  | imul h ty d a b => exact .of 0x0 0x05 rfl (int2_word (ok := allTy) hw)
  | imulh h ty d a b => exact .of 0x0 0x06 rfl (int2_word (ok := allTy) hw)
  | imad h ty d a b c => exact .of 0x0 0x07 rfl (int3_word (ok := allTy) hw)
  | imadw h ty d a b c => exact .of 0x0 0x08 rfl (int3_word hw)
  | idiv h ty d a b => exact .of 0x0 0x09 rfl (int2_word hw)
  | irem h ty d a b => exact .of 0x0 0x0A rfl (int2_word hw)
  | imin h ty d a b => exact .of 0x0 0x0B rfl (int2_word (ok := allTy) hw)
  | imax h ty d a b => exact .of 0x0 0x0C rfl (int2_word (ok := allTy) hw)
  | iabs h ty d a => exact .of 0x0 0x0D rfl (int1_word hw)
  | ineg h ty d a => exact .of 0x0 0x0E rfl (int1_word (ok := allTy) hw)
  | iaddc h ty d a b pc => exact .of 0x0 0x0F rfl (decCarry_word hw)
  | isubb h ty d a b pc => exact .of 0x0 0x10 rfl (decCarry_word hw)
  | lea h ty sh d a b => exact decodes_lea hw
  | and h ty d a b => exact .of 0x1 0x00 rfl (int2_word (ok := allTy) hw)
  | or h ty d a b => exact .of 0x1 0x01 rfl (int2_word (ok := allTy) hw)
  | xor h ty d a b => exact .of 0x1 0x02 rfl (int2_word (ok := allTy) hw)
  | andn h ty d a b => exact .of 0x1 0x03 rfl (int2_word (ok := allTy) hw)
  | not h ty d a => exact .of 0x1 0x04 rfl (int1_word (ok := allTy) hw)
  | bool3 h fn d a b c => exact .of 0x1 0x05 rfl (dec3_word hw rfl)
  | shl h ty d a b => exact .of 0x1 0x06 rfl (int2_word (ok := allTy) hw)
  | shr h ty d a b => exact .of 0x1 0x07 rfl (int2_word (ok := allTy) hw)
  | sar h ty d a b => exact .of 0x1 0x08 rfl (int2_word (ok := allTy) hw)
  | rol h ty d a b => exact .of 0x1 0x09 rfl (int2_word (ok := allTy) hw)
  | fshr h d a b c => exact .of 0x1 0x0A rfl (dec3_noMod_word hw)
  | popc h ty d a => exact .of 0x1 0x0B rfl (int1_word hw)
  | clz h ty d a => exact .of 0x1 0x0C rfl (int1_word hw)
  | ctz h ty d a => exact .of 0x1 0x0D rfl (int1_word hw)
  | brev h ty d a => exact .of 0x1 0x0E rfl (int1_word hw)
  | bfx h ty d a b => exact .of 0x1 0x0F rfl (int2_word hw)
  | bfi h d a b c => exact .of 0x1 0x10 rfl (dec3_noMod_word hw)
  | bsel h d a b c => exact .of 0x1 0x11 rfl (dec3_noMod_word hw)
  | icmp h ty cc pd a b => exact decodes_icmp hw
  | fcmp h cc nega absa pd a b => exact decodes_fcmp hw
  | sel h wide pc d a b => exact decodes_sel hw
  | mov h ty d a => exact .of 0x2 0x03 rfl (int1_word (ok := allTy) hw)
  | movi h sx hi d imm => exact decodes_movi hw
  | movs h d num =>
    obtain ⟨hh, hd⟩ := Bool.and_eq_true_iff.mp hw
    exact .of 0x2 0x05 rfl (.bind (modZ_eq_ok rfl) (decD_word hh hd rfl))
  | rdl h d => exact decodes_rdl hw
  | fclass h ty d a => exact decodes_fclass hw
  | pand h na nb pd pa pb => exact .of 0x2 0x06 rfl (decP3_word hw)
  | por h na nb pd pa pb => exact .of 0x2 0x07 rfl (decP3_word hw)
  | pxor h na nb pd pa pb => exact .of 0x2 0x08 rfl (decP3_word hw)
  | pnot h pd pa => exact decodes_pnot hw
  | p2v h d a => exact .of 0x2 0x0A rfl (.bind (modZ_eq_ok rfl) (dec1_word hw rfl))
  | v2p h a b => exact .of 0x2 0x0B rfl (.bind (modZ_eq_ok rfl) (decAB_word hw rfl))
  | fadd h m d a b => exact .of 0x3 0x00 rfl (fl2_word hw)
  | fsub h m d a b => exact .of 0x3 0x01 rfl (fl2_word hw)
  | fmul h m d a b => exact .of 0x3 0x02 rfl (fl2_word hw)
  | ffma h m d a b c => exact .of 0x3 0x03 rfl (fl3_word hw)
  | fmin h m d a b => exact .of 0x3 0x04 rfl (flN2_word hw)
  | fmax h m d a b => exact .of 0x3 0x05 rfl (flN2_word hw)
  | fdiv h m d a b => exact .of 0x3 0x06 rfl (fl2_word hw)
  | fsqrt h m d a => exact .of 0x3 0x07 rfl (fl1_word hw)
  | fscale h m d a b => exact .of 0x3 0x08 rfl (fl2_word hw)
  | frnd h m d a => exact .of 0x3 0x09 rfl (fl1_word hw)
  | fmed3 h m d a b c => exact .of 0x3 0x0A rfl (flN3_word hw)
  | cvtfi h src hi mode dst d a => exact decodes_cvtfi hw
  | cvtif h src mode dst d a => exact decodes_cvtif hw
  | cvtff h dst src mode d a b => exact decodes_cvtff hw
  | cvtne h bg tgt d a => exact decodes_cvtne hw
  | pack h w md d a b => exact decodes_pack hw
  | unpack h w sx d a b => exact decodes_unpack hw
  | qscale h md d a => exact decodes_qscale hw
  | tern h out d a b => exact decodes_tern hw
  | rcp h m d a => exact .of 0x5 0x00 rfl (flN1_word hw)
  | rsq h m d a => exact .of 0x5 0x01 rfl (flN1_word hw)
  | ex2 h m d a => exact .of 0x5 0x02 rfl (flN1_word hw)
  | lg2 h m d a => exact .of 0x5 0x03 rfl (flN1_word hw)
  | sin h m d a => exact .of 0x5 0x04 rfl (flN1_word hw)
  | cos h m d a => exact .of 0x5 0x05 rfl (flN1_word hw)
  | sincos h m d a => exact .of 0x5 0x06 rfl (flN1_word hw)
  | tanh h m d a => exact .of 0x5 0x07 rfl (flN1_word hw)
  | dot2 h fa fb d a b c => exact decodes_dot2 hw
  | dot4 h fa fb sc d a b c => exact decodes_dot4 hw
  | dot8 h fa fb sc d a b c => exact decodes_dot8 hw
  | tdot h byte d a b c => exact decodes_tdot hw
  | geti h wide sw d a b => exact decodes_geti hw
  | getb h wide wrap sw d a b => exact decodes_getb hw
  | geta h wide wrap sw d a b => exact decodes_geta hw
  | getx h wide sw d a b => exact decodes_getx hw
  | pany h sw pd pa => exact decodes_pany hw
  | pall h sw pd pa => exact decodes_pall hw
  | pmask h cnt d pa => exact decodes_pmask hw
  | peers h wide d a => exact decodes_peers hw
  | lead h last pd => exact decodes_lead hw
  | scan h ty op excl sat d a => exact decodes_scan hw
  | vred h ty op sat d a => exact decodes_vred hw
  | regroup h a n => exact decodes_regroup hw
  | bx h tgt => exact decodes_bx hw
  | bxc h once tt ft pc => exact decodes_bxc hw
  | bxi h a => exact decodes_bxi hw
  | next h => exact decodes_next hw
  | call h link a rb => exact decodes_call hw
  | calli h link sa save rb => exact decodes_calli hw
  | ret h a restore => exact decodes_ret hw
  | exit h => exact decodes_exit hw
  | exitn h k a => exact decodes_exitn hw
  | yield h tgt => exact decodes_yield hw
  | nop h => exact .of 0x7 0x0A rfl (.bind (modZ_eq_ok rfl) (dec0_word hw rfl))
  | ld h sz sx ord hint d m => exact decodes_ld hw
  | st h sz ord hint a m => exact decodes_st hw
  | ldc h sz sx d m => exact decodes_ldc hw
  | lds h sz sx d m => exact decodes_lds hw
  | sts h sz a m => exact decodes_sts hw
  | ldt h k md hint d m => exact decodes_ldt hw
  | atom h op sz ord d m => exact decodes_atom hw
  | atomcas h sz ord d m => exact decodes_atomcas hw
  | red h op sz ord a m => exact decodes_red hw
  | atoms h op sz d m => exact decodes_atoms hw
  | atomcass h sz d m => exact decodes_atomcass hw
  | fence h kind sc => exact decodes_fence hw
  | bind h k img => exact decodes_bind hw
  | unbind h k => exact decodes_unbind hw
  | cflush h l2 m => exact decodes_cflush hw
  | cinv h l2 m => exact decodes_cinv hw
  | prf h l2 hint m => exact decodes_prf hw
  | hint h md lv m => exact decodes_hint hw
  | ipf h n m => exact decodes_ipf hw
  | isync h => exact decodes_isync hw
  | stashmap h d sg sp => exact decodes_stashmap hw
  | stashwb h sh => exact decodes_stashwb hw
  | stashdrop h nowb sh => exact decodes_stashdrop hw
  | binit h o a b => exact decodes_binit hw
  | arrive h d bar => exact decodes_arrive hw
  | bexpect h bar b => exact decodes_bexpect hw
  | wait h k all qd d sl timeout => exact decodes_wait hw
  | pause h n => exact decodes_pause hw
  | drain h mem eng flg => exact decodes_drain hw
  | gbar h => exact decodes_gbar hw
  | copy h o dir dst src len bar => exact decodes_copy hw
  | copy2d h o dir dst src shape bar => exact decodes_copy2d hw
  | rsv h grainer qd grp d count => exact decodes_rsv hw
  | rls h grp mask => exact decodes_rls hw
  | cld h o place src stride => exact decodes_cld hw
  | mma h o s4 acc sum out act ctl => exact decodes_mma hw
  | gmv h o desc => exact decodes_gmv hw
  | mfence h d => exact decodes_mfence hw
  | enq h n k va => exact decodes_enq hw
  | enqr h n k ss cnt => exact decodes_enqr hw
  | deq h n pd vd => exact decodes_deq hw
  | launch h d q rc => exact decodes_launch hw
  | trap h a => exact decodes_trap hw
  | rte h => exact decodes_rte hw
  | movsr h num d => exact decodes_movsr hw
  | setsr h num a => exact decodes_setsr hw
  | mread h md d => exact decodes_mread hw
  | bkpt h tag => exact decodes_bkpt hw
  | halt h => exact decodes_halt hw
  | tmark h a => exact decodes_tmark hw
  | _ => exact decodes_of_raw_none rfl
end
end Sys2Proof
end

section
/-! PROOFS. A word's bytes hold its fields (R2, R69), so that an encoded instruction decodes to itself. -/

namespace Sys2Proof

open Sys2Proof Sys2Proof.Machine Sys2Proof.Claims

set_option Elab.async false

/-! ### The bits and bytes of a word -/

/-- The fields of a word's bits are those of the word. -/
theorem ofBits_toBits {r : Raw} (hr : r.fits = true) : Raw.ofBits r.form r.toBits = r := by
  obtain ⟨form, bt, sd, uni, wt, sf, op, dst, sa, sb, pg, pn, mod, x32, wm, ext⟩ := r
  cases form <;> simp_all [Raw.fits, Raw.ofBits, Raw.toBits, bitAt]

theorem form_toBits (r : Raw) : Form.ofCode (r.toBits.extractLsb' 0 2) = some r.form := by
  simp [Raw.toBits]

theorem decodeBits_toBits {r : Raw} (hr : r.fits = true) :
    decodeBits r.toBits = (decodeRaw r).map fun i => (i, r.form.bytes) := by
  simp only [decodeBits, form_toBits, ofBits_toBits hr]

/-- A word of a shorter form has no bits beyond the form's. -/
theorem toBits_lt {r : Raw} (hr : r.fits = true) : r.toBits.toNat < 256 ^ r.form.bytes := by
  have hbits : r.toBits.extractLsb' (8 * r.form.bytes) (128 - 8 * r.form.bytes) = 0 := by
    obtain ⟨form, bt, sd, uni, wt, sf, op, dst, sa, sb, pg, pn, mod, x32, wm, ext⟩ := r
    cases form <;> simp_all [Raw.fits, Raw.toBits, Form.bytes]
  have hdiv := toNat_div_two_pow r.toBits (8 * r.form.bytes)
  rw [hbits] at hdiv
  calc r.toBits.toNat < 2 ^ (8 * r.form.bytes) := Nat.lt_of_div_eq_zero (Nat.two_pow_pos _) hdiv
    _ = 256 ^ r.form.bytes := Nat.pow_mul 2 8 _

theorem natOfBytes_bytesOfNat (n x : Nat) : natOfBytes (bytesOfNat n x) = x % 256 ^ n := by
  induction n generalizing x with
  | zero => simp [natOfBytes, bytesOfNat, Nat.mod_one]
  | succ n ih =>
    rw [bytesOfNat, natOfBytes, ih, BitVec.toNat_ofNat, Nat.pow_succ' (n := n)]
    exact Nat.mod_mul.symm

theorem length_bytesOfNat (n x : Nat) : (bytesOfNat n x).length = n := by
  induction n generalizing x with
  | zero => rfl
  | succ n ih => rw [bytesOfNat, List.length_cons, ih]

theorem Form.bytes_le (f : Form) : f.bytes ≤ 16 := by
  cases f <;> decide

theorem decodeBytes_bytesOfNat {r : Raw} (hr : r.fits = true) {i : Instr} (hi : decodeRaw r = .ok i) :
    let bs := bytesOfNat r.form.bytes r.toBits.toNat
    decodeBytes bs.length bs = .ok (i, bs.length) := by
  intro bs
  have hlen : bs.length = r.form.bytes := length_bytesOfNat _ _
  have htake : bs.take 16 = bs := List.take_of_length_le (hlen ▸ r.form.bytes_le)
  have hnat : natOfBytes bs = r.toBits.toNat := by
    rw [natOfBytes_bytesOfNat, Nat.mod_eq_of_lt (toBits_lt hr)]
  have hbits : BitVec.ofNat 128 (natOfBytes (bs.take 16)) = r.toBits := by
    rw [htake, hnat, BitVec.ofNat_toNat, BitVec.setWidth_eq]
  rw [decodeBytes, hbits, decodeBits_toBits hr, hi]
  simp [hlen]

theorem decodeBytes_encode {i : Instr} (hw : i.wf = true) {bs : List Byte} (hbs : encode i = some bs) :
    decodeBytes bs.length bs = .ok (i, bs.length) := by
  obtain ⟨r, hr, rfl⟩ := Option.map_eq_some_iff.mp hbs
  obtain ⟨hfits, hreads⟩ := decodes_of_wf i hw r hr
  exact decodeBytes_bytesOfNat hfits hreads

/-- Settles O57: each constructor's fields are those that its decoder reads back, and the bytes are those of the fields. -/
theorem decodeEncode : Obligations.DecodeEncode := by
  unfold Obligations.DecodeEncode
  intro i henc hw
  obtain ⟨r, hr⟩ := Option.isSome_iff_exists.mp henc
  have hbs : encode i = some (bytesOfNat r.form.bytes r.toBits.toNat) := by rw [encode, hr, Option.map_some]
  exact ⟨_, hbs, decodeBytes_encode hw hbs⟩

/-- Each of the words that decode is the encoding of what it decodes to. -/
theorem specWords_encode : ∀ e ∈ specWords, ∀ i ∈ e.2, i.wf = true ∧ encode i = some e.1 := by decide

theorem specWords_refused : ∀ e ∈ specWords, e.2 = none → (decodeBytes e.1.length e.1).toOption = none := by decide

/-- Settles O56: the words of instructions are their encodings, which decode to them; the two others are refused. -/
theorem decodesSpecWords : Obligations.DecodesSpecWords := by
  unfold Obligations.DecodesSpecWords
  intro e he
  cases hi : e.2 with
  | none => exact specWords_refused e he hi
  | some i =>
    obtain ⟨hw, hbs⟩ := specWords_encode e he i hi
    rw [decodeBytes_encode hw hbs]
    rfl
end Sys2Proof
end

section
/-! PROOFS. What an exception does at a crew's boundary (R408, R410, R412, R414): the handler's entry, field by field, and the
abort of the workgroup; then the exceptions of UDF, of control instructions, of TRAP and of an engine (R299, R413, R416). -/

namespace Sys2Proof.Machine

open Sys2Proof Sys2Proof.Claims

set_option Elab.async false

/-! ### Masks -/

theorem getLsbD_orBit {n : Nat} (m : BitVec n) {i j : Nat} (hj : j < n) :
    (m ||| (1#n <<< i)).getLsbD j = (m.getLsbD j || decide (i = j)) := by
  rw [BitVec.getLsbD_or, BitVec.getLsbD_shiftLeft]
  by_cases h : i = j
  · subst h
    simp [hj, show 0 < n by omega]
  · by_cases hlt : j < i
    · simp [h, hlt]
    · have : j - i ≠ 0 := by omega
      simp [h, hlt, BitVec.getLsbD_one, this]

theorem getLsbD_maskOf {n j : Nat} (l : List Nat) (hj : j < n) : (maskOf n l).getLsbD j = decide (j ∈ l) := by
  suffices h : ∀ m : BitVec n, (l.foldl (fun m i => m ||| (1#n <<< i)) m).getLsbD j = (m.getLsbD j || decide (j ∈ l)) by
    simpa [maskOf] using h 0
  induction l with
  | nil => simp
  | cons i l ih =>
    intro m
    rw [List.foldl_cons, ih, getLsbD_orBit m hj]
    simp [Bool.or_assoc, eq_comm]

theorem getLsbD_heldMask (cr : Crew) {j : Nat} (hj : j < 64) : cr.heldMask.getLsbD j = (cr.thr j).held := by
  rw [Crew.heldMask, getLsbD_maskOf _ hj]
  simp [hj]

/-! ### What landing leaves of the threads and of the owed list -/

/-- A change of one thread that keeps its BR keeps every thread's. -/
theorem br_modThr (cr : Crew) (t j : Nat) {f : Thread → Thread} (hf : ∀ th, (f th).br = th.br) :
    ((cr.modThr t f).thr j).br = (cr.thr j).br := by
  simp only [Crew.modThr, Crew.setThr, Crew.thr, List.getD_eq_getElem?_getD, List.getElem?_set]
  by_cases h : t = j
  · subst h
    by_cases hl : t < cr.threads.length <;> simp [hl, hf]
  · simp [h]

theorem br_land1 (cr : Crew) (w : RegWrite) (j : Nat) : ((cr.land1 w).thr j).br = (cr.thr j).br := by
  cases w with
  | v t r x => exact br_modThr cr t j fun _ => rfl
  | s r x => rfl
  | p t i b =>
    simp only [Crew.land1]
    split
    · exact br_modThr cr t j fun _ => rfl
    · rfl
  | q i b =>
    simp only [Crew.land1]
    split <;> rfl

theorem br_landAll (cr : Crew) (l : List RegWrite) (j : Nat) : ((cr.landAll l).thr j).br = (cr.thr j).br := by
  induction l generalizing cr with
  | nil => rfl
  | cons w l ih => exact (ih (cr.land1 w)).trans (br_land1 cr w j)

/-- Landing an instruction's writes sets, besides its registers, FPS, CST and its flag. -/
theorem landOwed_threads (cr : Crew) (o : Owed) : (cr.landOwed o).threads = (cr.landAll o.writes).threads := by
  unfold Crew.landOwed Crew.flagDown Crew.raiseSat
  split <;> split <;> rfl

theorem br_foldl_landOwed (cr : Crew) (l : List Owed) (j : Nat) : ((l.foldl Crew.landOwed cr).thr j).br = (cr.thr j).br := by
  induction l generalizing cr with
  | nil => rfl
  | cons o l ih =>
    refine (ih (cr.landOwed o)).trans ?_
    rw [Crew.thr, landOwed_threads]
    exact br_landAll cr o.writes j

theorem held_landFixed (cr : Crew) (j : Nat) : (cr.landFixed.thr j).held = (cr.thr j).held :=
  congrArg (BitVec.getLsbD · 15) (br_foldl_landOwed cr (cr.owed.filter (fun o => o.due.isSome)) j)

/-- Only a fixed-latency instruction's writes are lost in later ones. -/
theorem unless_of_due_none {o : Owed} (h : o.due = none) (l : List Owed) : o.unless l = o := by
  simp [Owed.unless, Owed.without, h]

theorem owed_landFixed (cr : Crew) : cr.landFixed.owed = cr.owed.filter (fun o => o.due.isNone) := by
  have hp : (fun o : Owed => !o.due.isSome) = fun o => o.due.isNone := by funext o; simp
  show ((cr.owed.filter (fun o => !o.due.isSome)).map _) = _
  rw [hp]
  refine (List.map_congr_left fun o ho => unless_of_due_none ?_ _).trans (List.map_id' _)
  simpa using (List.mem_filter.mp ho).2

theorem wg_landIf (cr : Crew) (p : Owed → Bool) : (cr.landIf p).wg = cr.wg := by
  obtain ⟨_, _, _, _, _, _, h⟩ := Crew.landIf_cases cr p
  rw [h]

/-- What the hidden walk frame keeps of a crew is as it was before the landing. -/
theorem landFixed_place (cr : Crew) : cr.landFixed.hb = cr.hb ∧ cr.landFixed.pos = cr.pos ∧ cr.landFixed.cr = cr.cr ∧
    cr.landFixed.ss = cr.ss ∧ cr.landFixed.sid = cr.sid := by
  obtain ⟨_, _, _, _, _, _, h⟩ := Crew.landIf_cases cr (fun o => o.due.isSome)
  rw [Crew.landFixed, h]
  exact ⟨rfl, rfl, rfl, rfl, rfl⟩

/-! ### The handler's entry and the abort -/

/-- What an abort records of an exception. -/
def Exc.abortInfo (e : Exc) (key : CrewKey) (at_ : Nat) : AbortInfo :=
  { cause := e.cause, orig := 0, epc := e.epc, earg := e.earg, ethr := e.ethr, slot := key.slot, eng := e.eng, at_ := at_ }

/-- Bit 16 of ECAUSE lies above every cause (R406). -/
theorem ecauseOf_eq {cause : Nat} (h : cause < 0x10000) (eng : Bool) :
    ecauseOf cause eng = BitVec.ofNat 64 cause + (if eng then 0x10000 else 0) := by
  unfold ecauseOf
  cases eng with
  | false => simp
  | true =>
    apply BitVec.eq_of_toNat_eq
    have hor : cause ||| 2 ^ 16 = 2 ^ 16 + cause := by
      rw [Nat.or_comm]
      simpa using (Nat.two_pow_add_eq_or_of_lt (i := 16) (b := cause) (by omega) 1).symm
    have hmod : cause % 2 ^ 64 = cause := Nat.mod_eq_of_lt (by omega)
    simp only [if_true, BitVec.toNat_or, BitVec.toNat_add, BitVec.toNat_ofNat, hmod]
    have hk : (65536#64).toNat = 2 ^ 16 := rfl
    show cause ||| 2 ^ 16 = (cause + 2 ^ 16) % 2 ^ 64
    omega

theorem entered_enterHandler (s : State) (key : CrewKey) (cr : Crew) (k : Kernel) {e : Exc} (now : Nat) (h : e.cause < 0x10000) :
    Entered (s.setCrew key (cr.enterHandler k e now)) key cr k e := by
  obtain ⟨hhb, hpos, hcr, hss, hsid⟩ := landFixed_place cr
  exact ⟨cr.enterHandler k e now, by simp, rfl, ecauseOf_eq h e.eng, rfl, rfl, rfl, rfl, rfl, hhb, hpos, hcr, hss, hsid,
    fun j hj => (getLsbD_heldMask cr.landFixed hj).trans (held_landFixed cr j), owed_landFixed cr⟩

theorem aborts_abortWg {s : State} {c w : Nat} {g : Wg} (hw : s.wg? c w = some g) (ha : g.abort = none) (i : AbortInfo) :
    Aborts (s.abortWg c w i) c w g i := by
  simp [Aborts, State.abortWg, State.wg_modWg, hw, ha]

section
variable {s : State} {key : CrewKey} {cr : Crew} {g : Wg} (hc : s.crew? key = some cr) (hw : s.wg? key.core cr.wg = some g) (e : Exc)
include hc hw

theorem raiseAt_enters (hm : cr.hmode = false) (hto : e.toH = true) (hh : g.kernel.handler ≠ 0) :
    raiseAt s key e = s.setCrew key (cr.enterHandler g.kernel e s.now) := by
  have ht : (e.toH && g.kernel.handler != 0) = true := by simpa [hto] using hh
  simp only [raiseAt, hc, hw, hm, ht, Bool.false_eq_true, if_false, if_true]

theorem raiseAt_aborts (hm : cr.hmode = false) (hto : g.kernel.handler = 0 ∨ e.toH = false) :
    raiseAt s key e = s.abortWg key.core cr.wg (e.abortInfo key s.refclk) := by
  have hn : (e.toH && g.kernel.handler != 0) = false := by
    rcases hto with h | h <;> simp [h]
  simp only [raiseAt, hc, hw, hm, hn, Bool.false_eq_true, if_false, Exc.abortInfo]

/-- A fault in handler mode is a double fault (R414). -/
theorem raiseAt_double (hm : cr.hmode = true) :
    raiseAt s key e = s.abortWg key.core cr.wg { e.abortInfo key s.refclk with cause := 0x23, orig := e.cause } := by
  simp [raiseAt, hc, hw, hm, Exc.abortInfo]

theorem raiseAt_entered (hm : cr.hmode = false) (hto : e.toH = true) (hh : g.kernel.handler ≠ 0) (hlt : e.cause < 0x10000) :
    Entered (raiseAt s key e) key cr g.kernel e := by
  rw [raiseAt_enters hc hw e hm hto hh]
  exact entered_enterHandler s key cr g.kernel s.now hlt

/-- A crew that an exception finds outside the handler keeps the failures of its commands that wait. -/
theorem raiseAt_failures (hm : cr.hmode = false) :
    ∃ cr', (raiseAt s key e).crew? key = some cr' ∧ cr'.failures = cr.failures := by
  by_cases hto : g.kernel.handler = 0 ∨ e.toH = false
  · rw [raiseAt_aborts hc hw e hm hto]
    exact ⟨cr, by rw [State.abortWg, State.crew_modWg, hc], rfl⟩
  · rw [not_or, Bool.not_eq_false] at hto
    rw [raiseAt_enters hc hw e hm hto.2 hto.1]
    obtain ⟨th, r, q, f, c, fl, hl⟩ := Crew.landIf_cases cr (fun o => o.due.isSome)
    have hl' : cr.landFixed = _ := hl
    exact ⟨_, by rw [State.crew_setCrew, if_pos rfl], by simp [Crew.enterHandler, hl']⟩

end

/-- An exception touches no command. -/
theorem cmds_setCrew (s : State) (key : CrewKey) (cr : Crew) (c : Nat) : ((s.setCrew key cr).core c).cmds = (s.core c).cmds := by
  rw [State.core_setCrew]
  split
  · next h => rw [h]
  · rfl

theorem cmds_abortWg (s : State) (d w : Nat) (i : AbortInfo) (c : Nat) : ((s.abortWg d w i).core c).cmds = (s.core c).cmds := by
  unfold State.abortWg State.modWg
  split
  · rw [State.core_setWg]
    split
    · next h => rw [h]
    · rfl
  · rfl

theorem cmds_raiseAt (s : State) (key : CrewKey) (e : Exc) (c : Nat) : ((raiseAt s key e).core c).cmds = (s.core c).cmds := by
  unfold raiseAt
  split
  · rfl
  · split
    · rfl
    · dsimp only
      split
      · exact cmds_abortWg ..
      · split
        · exact cmds_setCrew ..
        · exact cmds_abortWg ..

/-! ### An illegal instruction -/

theorem kput_kput {α : Type} (k : Nat) (v w : α) (m : KMap α) : kput k w (kput k v m) = kput k w m := by
  induction m with
  | nil => simp [kput]
  | cons e t ih =>
    obtain ⟨a, x⟩ := e
    by_cases h1 : k < a
    · simp [kput, h1]
    · by_cases h2 : k = a
      · simp [kput, h2]
      · simp [kput, h1, h2, ih]

theorem setCore_setCore (s : State) (c : Nat) (a b : Core) : (s.setCore c a).setCore c b = s.setCore c b := by
  simp only [State.setCore, kput_kput]

theorem modCore_modCore (s : State) (c : Nat) (f g : Core → Core) : (s.modCore c f).modCore c g = s.modCore c (g ∘ f) := by
  rw [State.modCore, State.core_modCore, if_pos rfl]
  exact setCore_setCore ..

theorem setCrew_setCrew (s : State) (key : CrewKey) (a b : Crew) : (s.setCrew key a).setCrew key b = s.setCrew key b := by
  simp only [State.setCrew, modCore_modCore, Function.comp_def, kput_kput]

section
variable {s s1 : State} {h : Hdr} {x : Cx} (hb : s.begin h = some (x, s1))
include hb

theorem begin_wg : s1.wg? x.key.core x.crew.wg = some x.wg := by
  obtain ⟨cr, -, -, hw, -, -, hx, -, rfl⟩ := State.begin_cases hb
  rw [State.wg_setCrew, hx, Crew.landDue, wg_landIf]
  exact hw

/-- A first issue raises the illegal-instruction fault from the state in which it begins. -/
theorem illegal_eq (hr : x.crew.replay = none) : x.illegal s1 = raiseAt s1 x.key x.illegalExc := by
  have hu : x.unflag x.crew = x.crew := by simp [Cx.unflag, Cx.replaying, hr]
  have hs : s1.modCrew x.key x.unflag = s1 := by
    rw [State.modCrew, State.begin_crew hb]
    obtain ⟨cr, -, -, -, -, -, -, -, rfl⟩ := State.begin_cases hb
    simp only [hu, setCrew_setCrew]
  rw [Cx.illegal, Cx.raiseWord, hs]

theorem withCx_handler (hm : x.crew.hmode = true) (k : Cx → State → State) :
    withCx h s (fun x s => .next (if x.crew.hmode then x.illegal s else k x s)) = .next (x.illegal s1) := by
  rw [withCx_eq hb, if_pos hm]

/-- Control instructions have no place in a handler (R413). -/
theorem control_illegal (hm : x.crew.hmode = true) (tgt : BitVec 5) (once : Bool) (tt tf : BitVec 5) (pc : Pred) (a : Src)
    (k : BitVec 8) (link : Fin 192) (sa save : SPair) (rb : BitVec 5) (rp : SPair) (n : BitVec 8) :
    ∀ i ∈ [Instr.bx h tgt, .bxc h once tt tf pc, .bxi h a, .exit h, .exitn h k a, .yield h tgt, .next h,
      .call h link a rb, .calli h link sa save rb, .ret h a rp, .regroup h a n, .gbar h, .trap h a],
      exec i s = .next (x.illegal s1) := by
  simp only [List.forall_mem_cons, List.not_mem_nil, false_imp_iff, implies_true, and_true]
  refine ⟨?bx, ?bxc, ?bxi, ?exit, ?exitn, ?yield, ?next, ?call, ?calli, ?ret, ?regroup, ?gbar, ?trap⟩
  case bx | bxc | bxi | exit | exitn | yield | next | call | calli | regroup | gbar | trap => exact withCx_handler hb hm _
  case ret =>
    cases rp with
    | z => exact withCx_handler hb hm _
    | pr p => exact withCx_handler hb hm _

theorem rte_illegal (hm : x.crew.hmode = false) : exec (.rte h) s = .next (x.illegal s1) := by
  refine (withCx_eq hb _).trans ?_
  rw [hm, Bool.not_false, if_pos rfl]


end

/-! ### TRAP (R408, R416) -/

theorem State.Quiet.wg {s t : State} (h : s.Quiet t) {c w : Nat} {g : Wg} (hg : s.wg? c w = some g) :
    ∃ g', t.wg? c w = some g' ∧ g'.body = g.body := by
  have hw := (h.cores c).wgs w
  rw [show kfind w (s.core c).wgs = some g from hg] at hw
  exact Option.map_eq_some_iff.mp hw

theorem State.issueCost_quiet {s0 s : State} (hs : s0.Quiet s) (x cls) : s0.Quiet (s.issueCost x cls) := by
  unfold State.issueCost State.chargeCx State.countCx
  grind [State.charge_quiet, State.count_quiet]

theorem retireNone_wg (x : Cx) (s : State) (cls c w : Nat) : (retireNone x s cls).wg? c w = (s.issueCost x cls).wg? c w :=
  State.wg_modCrew ..

/-- The crew as an instruction without results leaves it. -/
def Cx.retired (x : Cx) : Crew := ((x.flagUp x.crew Dest.none).flagDown x.h.sf).advance x.next

theorem retired_eq (x : Cx) : ∃ fl, x.retired = { x.crew with pos := x.next, flags := fl, replay := none, bpSkip := false } := by
  unfold Cx.retired Cx.flagUp Crew.flagUp Crew.flagDown Crew.advance
  split <;> split <;> exact ⟨_, rfl⟩

section
variable {s s1 : State} {h : Hdr} {x : Cx} {a : Src} (hb : s.begin h = some (x, s1))

/-- The exception of a TRAP. -/
def Cx.trapExc (x : Cx) (a : Src) : Exc :=
  { cause := 0x0B, eng := false, epc := x.next, earg := (x.rd 0 a).zeroExtend 64, ethr := x.crew.liveMask, toH := true }

include hb

theorem retireNone_crew_begin : (retireNone x s1 0).crew? x.key = some x.retired := by
  rw [retireNone_crew, if_pos rfl, State.begin_crew hb]
  rfl

/-- The charges of its issue leave the workgroup its kernel, and no abort is noted. -/
theorem retireNone_wg_begin : ∃ g, (retireNone x s1 0).wg? x.key.core x.retired.wg = some g ∧ g.kernel = x.kernel ∧
    g.abort = x.wg.abort := by
  obtain ⟨g, hg, hbody⟩ := (State.issueCost_quiet (.refl s1) x 0).wg (begin_wg hb)
  obtain ⟨fl, hr⟩ := retired_eq x
  exact ⟨g, by rw [retireNone_wg, hr]; exact hg, (congrArg Wg.kernel hbody :), (congrArg Wg.abort hbody :)⟩

theorem trap_idle (hm : x.crew.hmode = false) (hs : x.kernel.s1 a = true) (hi : x.idle = true) :
    exec (.trap h a) s = .next (retireIdle x s1) := by
  refine (withCx_eq hb _).trans ?_
  simp [hm, hs, hi]

theorem trap_raises (hm : x.crew.hmode = false) (hs : x.kernel.s1 a = true) (hi : x.idle = false) :
    exec (.trap h a) s = .next (raiseAt (retireNone x s1 0) x.key (x.trapExc a)) := by
  refine (withCx_eq hb _).trans ?_
  simp [hm, hs, hi, Cx.trapExc]

theorem trap_mem : (raiseAt (retireNone x s1 0) x.key (x.trapExc a)).mem = s.mem := by
  rw [raiseAt_mem, retireNone_mem, State.begin_mem hb]

theorem trap_enters (hm : x.crew.hmode = false) (hh : x.kernel.handler ≠ 0) :
    Entered (raiseAt (retireNone x s1 0) x.key (x.trapExc a)) x.key x.retired x.kernel (x.trapExc a) := by
  obtain ⟨g, hg, hk, -⟩ := retireNone_wg_begin hb
  obtain ⟨fl, hr⟩ := retired_eq x
  rw [← hk] at hh ⊢
  exact raiseAt_entered (retireNone_crew_begin hb) hg _ (by rw [hr]; exact hm) rfl hh (show 0x0B < 0x10000 by decide)

theorem trap_aborts (hm : x.crew.hmode = false) (hh : x.kernel.handler = 0) (ha : x.wg.abort = none) :
    ∃ g i, Aborts (raiseAt (retireNone x s1 0) x.key (x.trapExc a)) x.key.core x.crew.wg g i ∧ i.cause = 0x0B ∧
      i.epc = x.next ∧ i.earg = (x.rd 0 a).zeroExtend 64 := by
  obtain ⟨g, hg, hk, hab⟩ := retireNone_wg_begin hb
  obtain ⟨fl, hr⟩ := retired_eq x
  rw [raiseAt_aborts (retireNone_crew_begin hb) hg _ (by rw [hr]; exact hm) (.inl (hk ▸ hh))]
  have hwg : x.retired.wg = x.crew.wg := by rw [hr]
  rw [hwg] at hg ⊢
  exact ⟨g, _, aborts_abortWg hg (hab.trans ha) _, rfl, rfl, rfl⟩

/-- In handler mode a TRAP is an illegal instruction, and so a double fault (R413, R414). -/
theorem illegal_double (hm : x.crew.hmode = true) (hr : x.crew.replay = none) (ha : x.wg.abort = none) :
    ∃ i, Aborts (x.illegal s1) x.key.core x.crew.wg x.wg i ∧ i.cause = 0x23 := by
  rw [illegal_eq hb hr, raiseAt_double (State.begin_crew hb) (begin_wg hb) _ hm]
  exact ⟨_, aborts_abortWg (begin_wg hb) ha _, rfl⟩

end

/-! ### The delivery of an engine's failure (R299) -/

/-- The crew goes on to its failure: the first is taken, and a WAIT or DRAIN is not executed. -/
def Crew.failing (cr : Crew) (rest : List EngFail) : Crew :=
  let c := match cr.block with
    | .wait w => { (cr.flagDown w.sf) with block := .none }
    | .drain _ _ _ sf _ => { (cr.flagDown sf) with block := .none }
    | _ => cr
  { c with failures := rest }

theorem failing_eq (cr : Crew) (rest : List EngFail) :
    ∃ fl b, cr.failing rest = { cr with flags := fl, block := b, failures := rest } := by
  have down (f : Option (Fin 12)) : ∃ fl b, { ({ (cr.flagDown f) with block := .none } : Crew) with failures := rest } =
      { cr with flags := fl, block := b, failures := rest } := by
    cases f <;> exact ⟨_, _, rfl⟩
  unfold Crew.failing
  split
  · exact down _
  · exact down _
  · exact ⟨_, _, rfl⟩

/-- The command of a failure is gone from its core. -/
def Core.freed (f : EngFail) (co : Core) : Core :=
  match f.cmd with
  | some id => co.cmdDel id
  | none => co

/-- The state in which the failure is raised. -/
def State.failing (s : State) (key : CrewKey) (cr : Crew) (f : EngFail) (rest : List EngFail) : State :=
  (s.setCrew key (cr.failing rest)).modCore key.core (Core.freed f)

/-- The exception of a failure. -/
def EngFail.exc (f : EngFail) (cr : Crew) (wg : Wg) : Exc :=
  { cause := f.cause, eng := true, epc := cr.pos, earg := f.pc, ethr := cr.liveMask, toH := wg.kernel.failToH f.cause }

theorem deliver_eq (s : State) (key : CrewKey) (cr : Crew) (wg : Wg) (f : EngFail) (rest : List EngFail) :
    s.deliver key cr wg f rest = raiseAt (s.failing key cr f rest) key (f.exc cr wg) := by
  obtain ⟨fl, b, hf⟩ := failing_eq cr rest
  have hpos : (cr.failing rest).pos = cr.pos := by rw [hf]
  have hlive : (cr.failing rest).liveMask = cr.liveMask := by rw [hf]; rfl
  rw [EngFail.exc, ← hpos, ← hlive]
  rfl

theorem freed_crews (f : EngFail) (co : Core) : (co.freed f).crews = co.crews := by
  unfold Core.freed
  split <;> rfl

theorem freed_wgs (f : EngFail) (co : Core) : (co.freed f).wgs = co.wgs := by
  unfold Core.freed
  split <;> rfl

theorem freed_cmd {f : EngFail} {id : Nat} (h : f.cmd = some id) (co : Core) : (co.freed f).cmd? id = none := by
  simp [Core.freed, h, Core.cmdDel, Core.cmd?]

theorem failing_crew (s : State) (key : CrewKey) (cr : Crew) (f : EngFail) (rest : List EngFail) :
    (s.failing key cr f rest).crew? key = some (cr.failing rest) := by
  have hs : (s.setCrew key (cr.failing rest)).crew? key = some (cr.failing rest) := by simp
  rw [← hs, State.crew?, State.failing, State.core_modCore, if_pos rfl, freed_crews]
  rfl

theorem failing_wg (s : State) (key : CrewKey) (cr : Crew) (f : EngFail) (rest : List EngFail) (w : Nat) :
    (s.failing key cr f rest).wg? key.core w = s.wg? key.core w := by
  rw [← State.wg_setCrew s key (cr.failing rest) key.core w, State.wg?, State.failing, State.core_modCore, if_pos rfl, freed_wgs]
  rfl

theorem failing_cmd (s : State) (key : CrewKey) (cr : Crew) {f : EngFail} (rest : List EngFail) {id : Nat} (h : f.cmd = some id) :
    ((s.failing key cr f rest).core key.core).cmd? id = none := by
  rw [State.failing, State.core_modCore, if_pos rfl]
  exact freed_cmd h _

section
variable {s : State} {key : CrewKey} {cr : Crew} {wg : Wg} {f : EngFail} {rest : List EngFail}
  (hc : s.crew? key = some cr) (hw : s.wg? key.core cr.wg = some wg)

include hc hw in
/-- At its crew's boundary, with no fault of the word's own, the first failure is delivered. -/
theorem engineFailureDelivery_eq (hf : cr.failures = f :: rest) (hat : (s.core key.core).atBoundary key.slot cr = true)
    (ha : wg.abort = none) (hsv : wg.save = none)
    (hword : cr.block ≠ .none ∨ (cr.word ≠ .absent ∧ cr.wordBad wg.kernel = false)) :
    exec (.engineFailureDelivery key) s = .next (raiseAt (s.failing key cr f rest) key (f.exc cr wg)) := by
  have hdue : s.failureDue key cr wg = true := by
    simp only [State.failureDue, hf, hat, ha, hsv]
    simpa using hword
  show atCrew s key _ = _
  simp only [atCrew, hc, hw, hf, hdue, if_true, deliver_eq]

include hw in
theorem failing_wg_of : (s.failing key cr f rest).wg? key.core (cr.failing rest).wg = some wg := by
  obtain ⟨fl, b, h⟩ := failing_eq cr rest
  rw [failing_wg, h]
  exact hw

theorem failing_hmode : (cr.failing rest).hmode = cr.hmode := by
  obtain ⟨fl, b, h⟩ := failing_eq cr rest
  rw [h]

theorem atBoundary_hmode {co : Core} {slot : Nat} (h : co.atBoundary slot cr = true) : cr.hmode = false := by
  simp only [Core.atBoundary, Bool.and_eq_true, Bool.not_eq_true'] at h
  obtain ⟨⟨⟨⟨⟨hm, -⟩, -⟩, -⟩, -⟩, -⟩ := h
  exact hm

include hw in
theorem failure_enters (hm : cr.hmode = false) (hh : wg.kernel.handler ≠ 0) (hto : (f.exc cr wg).toH = true)
    (hlt : f.cause < 0x10000) :
    Entered (raiseAt (s.failing key cr f rest) key (f.exc cr wg)) key cr wg.kernel (f.exc cr wg) := by
  have h := raiseAt_entered (failing_crew s key cr f rest) (failing_wg_of hw) (f.exc cr wg) (failing_hmode.trans hm) hto hh hlt
  obtain ⟨fl, b, hf⟩ := failing_eq cr rest
  rw [hf] at h
  exact h

include hw in
theorem failure_aborts (hm : cr.hmode = false) (hto : wg.kernel.handler = 0 ∨ (f.exc cr wg).toH = false) (ha : wg.abort = none) :
    ∃ i, Aborts (raiseAt (s.failing key cr f rest) key (f.exc cr wg)) key.core cr.wg wg i ∧ i.cause = f.cause ∧ i.earg = f.pc ∧
      i.eng = true := by
  have hwf := failing_wg_of (f := f) (rest := rest) hw
  rw [raiseAt_aborts (failing_crew s key cr f rest) hwf _ (failing_hmode.trans hm) hto]
  have hwg : (cr.failing rest).wg = cr.wg := by
    obtain ⟨fl, b, h⟩ := failing_eq cr rest
    rw [h]
  rw [hwg] at hwf ⊢
  exact ⟨_, aborts_abortWg hwf ha _, rfl, rfl, rfl⟩

include hw in
theorem failure_taken (hm : cr.hmode = false) :
    ∃ cr', (raiseAt (s.failing key cr f rest) key (f.exc cr wg)).crew? key = some cr' ∧ cr'.failures = rest :=
  raiseAt_failures (failing_crew s key cr f rest) (failing_wg_of hw) _ (failing_hmode.trans hm)

end

/-- The command of a failure is freed whatever the exception does. -/
theorem failure_frees (s : State) (key : CrewKey) (cr : Crew) {f : EngFail} (rest : List EngFail) (e : Exc) {id : Nat}
    (h : f.cmd = some id) : ((raiseAt (s.failing key cr f rest) key e).core key.core).cmd? id = none := by
  rw [Core.cmd?, cmds_raiseAt]
  exact failing_cmd s key cr rest h

/-- Settles O43: a control instruction in handler mode and RTE outside it are illegal before anything else is looked at; TRAP and a
due failure raise their exception after what they do to the crew, which the handler's entry does not see. -/
theorem exceptionsRaised : Obligations.ExceptionsRaised := by
  unfold Obligations.ExceptionsRaised
  refine ⟨?_, ?_⟩
  · intro h s x s1 tgt once tt tf pc a k link sa save rb rp n hb hr
    have hill : (.next (x.illegal s1) : Out) = .next (raiseAt s1 x.key x.illegalExc) := by rw [illegal_eq hb hr]
    refine ⟨?udf, ?control, ?rte, ?trapEnters, ?trapAborts, ?trapHandler, fun hm hi hs => trap_idle hb hm hs hi⟩
    case udf =>
      rintro rfl
      exact (withCx_eq hb _).trans hill
    case control =>
      intro hm i hi
      exact (control_illegal hb hm tgt once tt tf pc a k link sa save rb rp n i hi).trans hill
    case rte => exact fun hm => (rte_illegal hb hm).trans hill
    case trapEnters =>
      intro hm hi hs hh _
      obtain ⟨fl, hc⟩ := retired_eq x
      exact ⟨_, x.retired, trap_raises hb hm hs hi, trap_mem hb, trap_enters hb hm hh, by rw [hc], by rw [hc], by rw [hc],
        by rw [hc], by rw [hc]⟩
    case trapAborts =>
      intro hm hi hs hh ha
      obtain ⟨g, i, hab, hi'⟩ := trap_aborts (a := a) hb hm hh ha
      exact ⟨_, g, i, trap_raises hb hm hs hi, trap_mem hb, hab, hi'⟩
    case trapHandler =>
      intro hm ha
      obtain ⟨i, hab, hi⟩ := illegal_double hb hm hr ha
      exact ⟨_, i, withCx_handler hb hm _, hab, hi⟩
  · intro s key cr wg f rest hc hw hf hat ha hsv hword hlt
    have hm := atBoundary_hmode hat
    refine ⟨_, engineFailureDelivery_eq hc hw hf hat ha hsv hword, ?_, fun id hid => failure_frees s key cr rest _ hid,
      failure_taken hw hm, fun hh hto => failure_enters hw hm hh hto hlt, fun hto => failure_aborts hw hm hto ha⟩
    rw [raiseAt_mem]
    rfl

end Sys2Proof.Machine
end

section
/-! PROOFS. No access to memory and no report of the Bench takes a handle (R227): one lemma for each function of the model. -/

namespace Sys2Proof.Machine

open Sys2Proof Sys2Proof.Claims

set_option Elab.async false

theorem nextHandle_foldl {α : Type} {f : State → α → State} (hf : ∀ s a, (f s a).nextHandle = s.nextHandle) (l : List α)
    (s : State) : (l.foldl f s).nextHandle = s.nextHandle :=
  List.foldlRecOn (motive := fun t => t.nextHandle = s.nextHandle) l f rfl fun t ht a _ => (hf t a).trans ht

theorem nextHandle_foldl_fst {α β : Type} {f : State × β → α → State × β} (hf : ∀ r a, (f r a).1.nextHandle = r.1.nextHandle)
    (l : List α) (r : State × β) : (l.foldl f r).1.nextHandle = r.1.nextHandle :=
  List.foldlRecOn (motive := fun t => t.1.nextHandle = r.1.nextHandle) l f rfl fun t ht a _ => (hf t a).trans ht

theorem nextHandle_fst {β : Type} {p : State × β} {t : State} {b : β} {n : Nat} (h : p.1.nextHandle = n) (e : p = (t, b)) :
    t.nextHandle = n := by
  subst e
  exact h

/-! ### Charges and the fabric -/

@[simp] theorem State.charge_nextHandle (s : State) (c w p cls n) : (s.charge c w p cls n).nextHandle = s.nextHandle := by
  simp only [State.charge]
  split
  · rfl
  · split <;> simp

@[simp] theorem State.chargeHouse_nextHandle (s : State) (p cls n) : (s.chargeHouse p cls n).nextHandle = s.nextHandle := rfl

@[simp] theorem State.count_nextHandle (s : State) (c ctx conf ev n) : (s.count c ctx conf ev n).nextHandle = s.nextHandle := rfl

@[simp] theorem State.bill_nextHandle (s : State) (p pl cls n) : (s.bill p pl cls n).nextHandle = s.nextHandle := by
  unfold State.bill
  split
  · split <;> simp
  · simp

@[simp] theorem State.tally_nextHandle (s : State) (a ev) : (s.tally a ev).nextHandle = s.nextHandle := by
  unfold State.tally
  split <;> simp

@[simp] theorem State.hops_nextHandle (s : State) (p path n) : (s.hops p path n).nextHandle = s.nextHandle :=
  nextHandle_foldl (fun _ _ => by simp) path s

@[simp] theorem State.beats_nextHandle (s : State) (p a b n) : (s.beats p a b n).nextHandle = s.nextHandle := by
  unfold State.beats
  dsimp only
  split <;> simp

@[simp] theorem State.beatsOut_nextHandle (s : State) (p a n) : (s.beatsOut p a n).nextHandle = s.nextHandle := by
  simp [State.beatsOut]

@[simp] theorem State.beatsIn_nextHandle (s : State) (p b n) : (s.beatsIn p b n).nextHandle = s.nextHandle := by
  simp [State.beatsIn]

@[simp] theorem State.flit_nextHandle (s : State) (p ln) : (s.flit p ln).nextHandle = s.nextHandle := by
  simp [State.flit]

/-! ### Writes at the home -/

@[simp] theorem State.setOwner_nextHandle (s : State) (ln o) : (s.setOwner ln o).nextHandle = s.nextHandle := rfl

@[simp] theorem State.l2Use_nextHandle (s : State) (a ln write full segs at_) :
    (s.l2Use a ln write full segs at_).nextHandle = s.nextHandle := by
  simp only [State.l2Use]
  split <;> simp

@[simp] theorem State.travel_nextHandle (s : State) (a ln write full segs at_) :
    (s.travel a ln write full segs at_).nextHandle = s.nextHandle := by
  unfold State.travel
  dsimp only
  split
  · split
    · simp
    · split <;> simp
  · split <;> simp
  · split
    · simp
    · split <;> simp

@[simp] theorem State.acceptRaw_nextHandle (s : State) (a at_ ws bad whole) :
    (s.acceptRaw a at_ ws bad whole).nextHandle = s.nextHandle := by
  unfold State.acceptRaw
  split <;> simp

@[simp] theorem State.sendDirty_nextHandle (s : State) (a l) : (s.sendDirty a l).nextHandle = s.nextHandle := by
  unfold State.sendDirty
  split <;> simp

@[simp] theorem State.recall_nextHandle (s : State) (a ln) : (s.recall a ln).nextHandle = s.nextHandle := by
  unfold State.recall
  split
  · rfl
  · split <;> simp

@[simp] theorem State.l2Evict_nextHandle (s : State) (a sb) : (s.l2Evict a sb).nextHandle = s.nextHandle := by
  have hr : ((List.range 4).foldl (fun s i => s.recall a (sb * 4 + i)) s).nextHandle = s.nextHandle :=
    nextHandle_foldl (fun _ _ => by simp) _ s
  simp only [State.l2Evict]
  split
  · exact hr
  · exact (State.bill_nextHandle ..).trans hr

@[simp] theorem State.l2Trim1_nextHandle (s : State) (a sb) : (s.l2Trim1 a sb).nextHandle = s.nextHandle := by
  unfold State.l2Trim1
  dsimp only
  split
  · rfl
  · split
    · rfl
    · split <;> simp

@[simp] theorem State.l2Trim_nextHandle (s : State) (a ln) : (s.l2Trim a ln).nextHandle = s.nextHandle :=
  nextHandle_foldl (fun _ _ => by simp) _ s

@[simp] theorem State.noted_nextHandle (s : State) (ws) : (s.noted ws).nextHandle = s.nextHandle := by
  unfold State.noted
  grind

@[simp] theorem State.acceptAt_nextHandle (s : State) (a at_ ws bad whole) :
    (s.acceptAt a at_ ws bad whole).nextHandle = s.nextHandle := by
  unfold State.acceptAt
  split <;> simp

@[simp] theorem State.landFlights_nextHandle (s : State) (p) : (s.landFlights p).nextHandle = s.nextHandle :=
  nextHandle_foldl (fun _ _ => by simp) _ _

@[simp] theorem State.landOwn_nextHandle (s : State) (a ln) : (s.landOwn a ln).nextHandle = s.nextHandle := by
  unfold State.landOwn
  split <;> simp

@[simp] theorem State.dropHost_nextHandle (s : State) (a ln) : (s.dropHost a ln).nextHandle = s.nextHandle := by
  refine nextHandle_foldl (fun s c => ?_) _ s
  grind [State.landOwn_nextHandle, State.sendDirty_nextHandle, State.modCore_nextHandle]

@[simp] theorem State.holdHost_nextHandle (s : State) (a ln) : (s.holdHost a ln).nextHandle = s.nextHandle := by
  unfold State.holdHost
  dsimp only
  grind [State.dropHost_nextHandle]

@[simp] theorem State.benchHolds_nextHandle (s : State) (a ln) : (s.benchHolds a ln).nextHandle = s.nextHandle := by
  unfold State.benchHolds
  split <;> simp

@[simp] theorem State.homeRead_nextHandle (s : State) (a at_ k n) : (s.homeRead a at_ k n).1.nextHandle = s.nextHandle := by
  simp [State.homeRead, State.serveRead]

@[simp] theorem State.homeWrite_nextHandle (s : State) (a at_ ws bad) : (s.homeWrite a at_ ws bad).nextHandle = s.nextHandle := by
  unfold State.homeWrite
  split <;> simp

/-! ### Translations, and the accesses of the Bench -/

@[simp] theorem State.walkLeaf_nextHandle (s : State) (a va write level k e w x u) :
    (s.walkLeaf a va write level k e w x u).1.nextHandle = s.nextHandle := by
  unfold State.walkLeaf
  grind [State.homeWrite_nextHandle]

@[simp] theorem State.walkStep_nextHandle (s : State) (a va write level table w x u) :
    (s.walkStep a va write level table w x u).1.nextHandle = s.nextHandle := by
  unfold State.walkStep
  grind [State.homeRead_nextHandle, State.bill_nextHandle, State.walkLeaf_nextHandle]

@[simp] theorem State.walkFrom_nextHandle (s : State) (a va write l table w x u) :
    (State.walkFrom a va write l table w x u s).1.nextHandle = s.nextHandle := by
  fun_induction State.walkFrom <;> grind [State.walkStep_nextHandle]

@[simp] theorem State.walk_nextHandle (s : State) (a va write) : (s.walk a va write).1.nextHandle = s.nextHandle := by
  unfold State.walk
  split
  · rfl
  · split <;> simp

@[simp] theorem State.benchRead_nextHandle (s : State) (ctx va n) : (s.benchRead ctx va n).1.nextHandle = s.nextHandle := by
  refine nextHandle_foldl_fst (fun r p => ?_) _ _
  grind [State.walk_nextHandle, State.homeRead_nextHandle]

@[simp] theorem State.benchKeys_nextHandle (s : State) (a va n) : (s.benchKeys a va n).1.nextHandle = s.nextHandle := by
  refine nextHandle_foldl_fst (fun r p => ?_) _ _
  grind [State.walk_nextHandle]

@[simp] theorem State.benchStore_nextHandle (s : State) (a l l2 l3) : (s.benchStore a l l2 l3).nextHandle = s.nextHandle := by
  fun_induction State.benchStore with
  | case1 s k at_ ks n m ps bs ih => simp [ih]
  | case2 => rfl

@[simp] theorem State.benchWrite_nextHandle (s : State) (ctx va bs) : (s.benchWrite ctx va bs).1.nextHandle = s.nextHandle := by
  unfold State.benchWrite
  dsimp only
  split <;> simp

@[simp] theorem State.benchWrites_nextHandle (s : State) (ctx l) : (s.benchWrites ctx l).1.nextHandle = s.nextHandle := by
  fun_induction State.benchWrites with
  | case1 => rfl
  | case2 s e t u h ih => exact ih.trans (nextHandle_fst (State.benchWrite_nextHandle ..) h)
  | case3 s e t u h => exact nextHandle_fst (State.benchWrite_nextHandle ..) h

@[simp] theorem State.msix_nextHandle (s : State) (func vec) : (s.msix func vec).nextHandle = s.nextHandle := by
  unfold State.msix
  dsimp only
  split <;> simp

/-- A record that a fault queue takes takes no handle of itself. -/
theorem fqWrite_written_nextHandle {s t : State} {ctx : Nat} {bs : List Byte} {counted : Bool}
    (h : s.fqWrite ctx bs counted = (t, .written)) : t.nextHandle = s.nextHandle := by
  unfold State.fqWrite at h
  split at h
  · cases h
  · dsimp only at h
    split at h
    · cases h
    next u b hr =>
      have hu := nextHandle_fst (State.benchRead_nextHandle ..) hr
      split at h
      · split at h
        · cases h
        next v hw =>
          have hv := nextHandle_fst (State.benchWrites_nextHandle ..) hw
          cases h
          rw [State.msix_nextHandle]
          exact hv.trans hu
      · split at h
        · cases h
        · split at h <;> cases h

end Sys2Proof.Machine
end

section
/-! PROOFS. What lands at an INSTRUCTION_COMPLETION (R75, R77), what a demand fetch brings (R437), and how a park gets its handle
and is replayed (R227, R228). -/

namespace Sys2Proof.Machine

open Sys2Proof Sys2Proof.Claims

set_option Elab.async false

/-! ### The fields that a landing writes -/

theorem land1_eq (cr : Crew) (w : RegWrite) (ow : List Owed) :
    ∃ th s q, cr.land1 w = { cr with threads := th, s := s, q := q } ∧
      ({ cr with owed := ow } : Crew).land1 w = { cr with threads := th, s := s, q := q, owed := ow } := by
  cases w with
  | v t r x => exact ⟨_, _, _, rfl, rfl⟩
  | s r x => exact ⟨_, _, _, rfl, rfl⟩
  | p t i b =>
    simp only [Crew.land1]
    split <;> exact ⟨_, _, _, rfl, rfl⟩
  | q i b =>
    simp only [Crew.land1]
    split <;> exact ⟨_, _, _, rfl, rfl⟩

/-- Register writes land alike whatever is owed, and write registers alone. -/
theorem landAll_eq (cr : Crew) (l : List RegWrite) (ow : List Owed) :
    ∃ th s q, cr.landAll l = { cr with threads := th, s := s, q := q } ∧
      ({ cr with owed := ow } : Crew).landAll l = { cr with threads := th, s := s, q := q, owed := ow } := by
  induction l generalizing cr with
  | nil => exact ⟨_, _, _, rfl, rfl⟩
  | cons w l ih =>
    obtain ⟨th, r, q, h, hw⟩ := land1_eq cr w ow
    obtain ⟨th', r', q', h', hw'⟩ := ih { cr with threads := th, s := r, q := q }
    refine ⟨th', r', q', ?_, ?_⟩
    · simp only [Crew.landAll, List.foldl_cons, h] at h' ⊢
      exact h'
    · simp only [Crew.landAll, List.foldl_cons, hw] at hw' ⊢
      exact hw'

theorem flagDown_cnt (cr : Crew) (f : Option (Fin 12)) (k : Nat) :
    ((cr.flagDown f).flag k).cnt = if f.map Fin.val = some k then (cr.flag k).cnt - 1 else (cr.flag k).cnt := by
  cases f with
  | none => simp [Crew.flagDown]
  | some i =>
    simp only [Crew.flagDown, Crew.flag, lmod, List.getD_eq_getElem?_getD, List.getElem?_modify, Option.map_some, Option.some.injEq]
    by_cases h : i.val = k
    · cases cr.flags[k]? <;> simp [h, FlagEntry.zero]
    · simp [h]

/-- One instruction's writes land: registers, FPS and its flag (R75, R77). -/
theorem landOwed_fields (cr : Crew) (o : Owed) (ow : List Owed) : let c := ({ cr with owed := ow } : Crew).landOwed o
    c.threads = (cr.landAll o.writes).threads ∧ c.s = (cr.landAll o.writes).s ∧ c.q = (cr.landAll o.writes).q ∧
      c.fps = cr.fps ||| o.fps.zeroExtend 32 ∧
      ∀ k, (c.flag k).cnt = if o.flag.map Fin.val = some k then (cr.flag k).cnt - 1 else (cr.flag k).cnt := by
  obtain ⟨th, s, q, hl, hlo⟩ := landAll_eq cr o.writes ow
  have hsat (c : Crew) : ∃ cst, c.raiseSat o.sat = { c with cst := cst } := by
    unfold Crew.raiseSat
    split <;> exact ⟨_, rfl⟩
  simp only [Crew.landOwed, hlo, hl, Crew.raiseFps]
  obtain ⟨cst, hc⟩ := hsat { cr with threads := th, s := s, q := q, owed := ow, fps := cr.fps ||| o.fps.zeroExtend 32 }
  rw [hc]
  refine ⟨?_, ?_, ?_, ?_, fun k => flagDown_cnt _ _ k⟩ <;> cases o.flag <;> rfl

/-! ### The reads of a load that an event settles -/

/-- Settling changes what is noted of the reads of owed loads, and nothing that lands. -/
theorem settleLoads_map {β : Type} {g : Owed → β} (hg : ∀ o l, g { o with late := l } = g o) (rs : List ByteSpan) (l : List Owed) :
    (settleLoads rs l).1.map g = l.map g := by
  induction l with
  | nil => rfl
  | cons o l ih =>
    simp only [settleLoads]
    split
    · rw [List.map_cons, List.map_cons, ih]
    · rw [List.map_cons, List.map_cons, ih, hg]

/-- An owed instruction without what is noted of its reads. -/
def Owed.landing (o : Owed) : Owed := { o with late := none }

theorem filter_map_landing {β : Type} {p : Owed → Bool} {g : Owed → β} (hp : ∀ o, p o.landing = p o) (hg : ∀ o, g o.landing = g o)
    (l : List Owed) : (l.filter p).map g = ((l.map Owed.landing).filter p).map g := by
  rw [List.filter_map, List.map_map]
  have h1 : p ∘ Owed.landing = p := funext hp
  have h2 : g ∘ Owed.landing = g := funext hg
  rw [h1, h2]

theorem settleBefore_eq (cr : Crew) (id : Nat) (o : Owed) : ∃ ow, cr.settleBefore id o = { cr with owed := ow } ∧
    ow.map Owed.landing = cr.owed.map Owed.landing ∧ ow.filter (fun p => p.id == id) = cr.owed.filter (fun p => p.id == id) := by
  unfold Crew.settleBefore
  split
  · exact ⟨_, rfl, rfl, rfl⟩
  · next l _ =>
    refine ⟨_, rfl, ?_, ?_⟩
    · rw [List.map_append, settleLoads_map (fun _ _ => rfl), ← List.map_append, List.takeWhile_append_dropWhile]
    · have none_of {l : List Owed} (h : ∀ i ∈ l.map Owed.id, i ≠ id) : l.filter (fun p => p.id == id) = [] := by
        simpa using h
      have hids : ∀ i ∈ (cr.owed.takeWhile (fun p => p.id != id)).map Owed.id, i ≠ id := by
        intro i hi
        obtain ⟨p, hp, rfl⟩ := List.mem_map.mp hi
        simpa using List.mem_takeWhile_imp hp
      conv_rhs => rw [← List.takeWhile_append_dropWhile (p := fun p : Owed => p.id != id) (l := cr.owed)]
      rw [List.filter_append, List.filter_append, none_of hids, none_of]
      rwa [settleLoads_map (fun _ _ => rfl)]

/-! ### INSTRUCTION_COMPLETION -/

theorem unless_id (o : Owed) (l : List Owed) : (o.unless l).id = o.id := by
  unfold Owed.unless Owed.without
  split <;> rfl

theorem unless_due (o : Owed) (l : List Owed) : (o.unless l).due = o.due := by
  unfold Owed.unless Owed.without
  split <;> rfl

/-- An earlier fixed-latency write of a register that the landed instruction wrote is lost (R75). -/
theorem unless_writes (p o : Owed) : (p.unless [o]).writes =
    if p.due.isSome ∧ p.id < o.id then p.writes.filter (fun w => !o.writes.any w.same) else p.writes := by
  unfold Owed.unless Owed.without
  by_cases hd : p.due.isSome <;> by_cases hi : p.id < o.id <;> simp [hd, hi]

/-- Nothing is lost where every landed instruction is earlier. -/
theorem unless_of_later {p : Owed} {l : List Owed} (h : ∀ o ∈ l, o.id ≤ p.id) : p.unless l = p := by
  have hn : l.filter (fun o => decide (p.id < o.id)) = [] := by simpa using h
  simp [Owed.unless, Owed.without, hn]

theorem find_of_filter {α : Type} {p : α → Bool} {l : List α} {a : α} (h : l.filter p = [a]) : l.find? p = some a := by
  rw [← List.head?_filter, h]
  rfl

theorem block_landIf (cr : Crew) (p : Owed → Bool) : (cr.landIf p).block = cr.block := by
  obtain ⟨_, _, _, _, _, _, h⟩ := Crew.landIf_cases cr p
  rw [h]

theorem block_complete (cr : Crew) (id : Nat) : (cr.complete id).block = cr.block := by
  unfold Crew.complete
  split
  · rfl
  · next o _ =>
    split
    · obtain ⟨ow, h, -⟩ := settleBefore_eq cr id o
      rw [block_landIf, h]
    · exact block_landIf ..

section
variable {cr : Crew} {o : Owed} (hone : cr.owed.filter (fun p => p.id == o.id) = [o])
include hone

theorem complete_variable (hd : o.due = none) : cr.complete o.id = (cr.settleBefore o.id o).landIf (fun p => p.id == o.id) := by
  simp [Crew.complete, find_of_filter hone, hd]

theorem complete_fixed (hd : o.due ≠ none) : cr.complete o.id = cr.landIf (fun p => p.due.isSome && decide (p.id ≤ o.id)) := by
  have hs : o.due.isNone = false := by simpa [Option.isSome_iff_ne_none] using hd
  simp [Crew.complete, find_of_filter hone, hs]

/-- What a view of the owed instructions that does not see their reads sees after the completion. -/
theorem complete_owed_map {β : Type} (hd : o.due = none) {g g' : Owed → β} (hg : ∀ p : Owed, g p.landing = g p)
    (hun : ∀ p : Owed, g' (p.unless [o]) = g p) :
    (cr.complete o.id).owed.map g' = (cr.owed.filter (fun p => p.id != o.id)).map g := by
  obtain ⟨ow, hs, hmap, hfil⟩ := settleBefore_eq cr o.id o
  rw [complete_variable hone hd, hs]
  show ((ow.filter (fun p => !(p.id == o.id))).map (·.unless (ow.filter (fun p => p.id == o.id)))).map g' = _
  rw [hfil, hone, List.map_map]
  have hcomp : g' ∘ (fun p : Owed => p.unless [o]) = g := funext hun
  have hp : ∀ p : Owed, (!(p.landing.id == o.id)) = !(p.id == o.id) := fun _ => rfl
  rw [hcomp, filter_map_landing hp hg, hmap, ← filter_map_landing hp hg]
  rfl

/-- The writes of the one instruction land. -/
theorem complete_fields (hd : o.due = none) : let c := cr.complete o.id
    c.threads = (cr.landAll o.writes).threads ∧ c.s = (cr.landAll o.writes).s ∧ c.q = (cr.landAll o.writes).q ∧
      c.fps = cr.fps ||| o.fps.zeroExtend 32 ∧
      ∀ k, (c.flag k).cnt = if o.flag.map Fin.val = some k then (cr.flag k).cnt - 1 else (cr.flag k).cnt := by
  obtain ⟨ow, hs, -, hfil⟩ := settleBefore_eq cr o.id o
  have hfold : (ow.filter (fun p => p.id == o.id)).foldl Crew.landOwed { cr with owed := ow } =
      ({ cr with owed := ow } : Crew).landOwed o := by rw [hfil, hone]; rfl
  rw [complete_variable hone hd, hs, Crew.landIf, hfold]
  exact landOwed_fields cr o ow

/-- With a fixed-latency instruction every earlier one lands, and no later one loses a write (R75). -/
theorem complete_fixed_owed (hd : o.due ≠ none) :
    (cr.complete o.id).owed = cr.owed.filter (fun p => !(p.due.isSome && decide (p.id ≤ o.id))) := by
  rw [complete_fixed hone hd]
  refine (List.map_congr_left fun p hp => ?_).trans (List.map_id' _)
  have hstay := (List.mem_filter.mp hp).2
  rw [Bool.not_eq_true', Bool.and_eq_false_iff, decide_eq_false_iff_not] at hstay
  rcases hstay with h | h
  · exact unless_of_due_none (by simpa using h) _
  · refine unless_of_later fun q hq => ?_
    have hq' := (List.mem_filter.mp hq).2
    rw [Bool.and_eq_true, decide_eq_true_eq] at hq'
    omega

end

theorem undrain_of_block_none {s : State} {key : CrewKey} {cr : Crew} (hc : s.crew? key = some cr) (hb : cr.block = .none) :
    s.undrain key = s := by
  simp [State.undrain, hc, hb]

theorem atCrew_some {s : State} {key : CrewKey} {cr : Crew} {wg : Wg} (hc : s.crew? key = some cr)
    (hw : s.wg? key.core cr.wg = some wg) (f : Crew → Wg → State) : atCrew s key f = .next (f cr wg) := by
  simp [atCrew, hc, hw]

theorem instructionCompletion_eq {s : State} {key : CrewKey} {cr : Crew} {wg : Wg} (hc : s.crew? key = some cr)
    (hw : s.wg? key.core cr.wg = some wg) (hb : cr.block = .none) (id : Nat) :
    exec (.instructionCompletion key id) s = .next (s.setCrew key (cr.complete id)) := by
  refine (atCrew_some hc hw _).trans ?_
  rw [undrain_of_block_none (cr := cr.complete id) (by simp) ((block_complete cr id).trans hb)]

/-! ### DEMAND_FETCH -/

theorem State.Quiet.crew {s t : State} (h : s.Quiet t) (k : CrewKey) : t.crew? k = s.crew? k := by
  rw [State.crew?, State.crew?, (h.cores k.core).crews]

theorem State.translate_quiet {s0 s : State} (hs : s0.Quiet s) (a va write exec) : s0.Quiet (s.translate a va write exec).1 := by
  have hw := State.walk_quiet (State.tally_quiet hs a 6) a va write
  have hput (t : TlbEntry) : s0.Quiet (((s.tally a 6).walk a va write).1.tlbPut a va t) := hw.congr rfl rfl rfl rfl rfl rfl rfl
  unfold State.translate
  dsimp only
  split
  · exact hs
  · split
    · exact hs
    · split
      · exact hput _
      · exact hw

theorem State.crew_modCore_of_crews (s : State) (c : Nat) {f : Core → Core} (hf : ∀ co, (f co).crews = co.crews) (k : CrewKey) :
    (s.modCore c f).crew? k = s.crew? k := by
  rw [State.crew?, State.crew?, State.core_modCore]
  split
  · next h => rw [hf, h]
  · rfl

theorem State.icFill_crew (s : State) (a : Acc) (va k : Nat) (at_ : Attr) (drop : Bool) (j : CrewKey) :
    (s.icFill a va k at_ drop).1.crew? j = s.crew? j := by
  have hh := (State.homeRead_quiet (.refl s) a at_ (k / 128 * 128) 128).crew j
  unfold State.icFill
  generalize s.homeRead a at_ (k / 128 * 128) 128 = h at hh ⊢
  dsimp only
  split
  · exact hh
  · refine Eq.trans (State.crew_modCore_of_crews h.1 a.core ?_ j) hh
    exact fun _ => rfl

/-- A demand fetch touches no crew: it moves lines, translations and meters. -/
theorem State.fetchLine_crew (s : State) (a : Acc) (va n : Nat) (j : CrewKey) : (s.fetchLine a va n).1.crew? j = s.crew? j := by
  have ht := State.translate_quiet (.refl s) a va false true
  simp only [State.fetchLine, State.fetchBy]
  split
  · have hp (l : ILine) := State.crew_modCore_of_crews s a.core (f := (·.icPut l)) (fun _ => rfl) j
    split <;> exact hp _
  · split
    · exact ht.crew j
    · exact ht.crew j
    · split
      · exact ht.crew j
      · have hf (k : Nat) (at_ : Attr) := (State.icFill_crew _ a va k at_ false j).trans ((State.tally_quiet ht a 7).crew j)
        split <;> exact hf _ _

theorem crew_of_fst {β : Type} {p : State × β} {t : State} {b : β} {j : CrewKey} {c : Option Crew} (h : p.1.crew? j = c)
    (e : p = (t, b)) : t.crew? j = c := by
  subst e
  exact h

section
variable {s : State} {key : CrewKey} {cr : Crew} {wg : Wg} (hc : s.crew? key = some cr) (hw : s.wg? key.core cr.wg = some wg)
include hc hw

theorem demandFetch_word {bs : List Byte} (hf : cr.fetchAt = .word bs) : exec (.demandFetch key) s = .next s := by
  refine (atCrew_some hc hw _).trans ?_
  rw [hf]
  simp

variable {p : Nat} (hp : cr.park = none) (hfin : cr.finished = false) (hf : cr.fetchAt = .need p)
include hp hfin hf

theorem demandFetch_brings {s2 : State} {bs : List Byte}
    (h : s.fetchLine (accOf key.core cr.wg wg) (p / 32 * 32) 32 = (s2, .ok bs)) :
    exec (.demandFetch key) s =
      .next (s2.modCrew key (fun cr => { cr with pos := BitVec.ofNat 64 p, fbuf := [(p / 32 * 32, bs)] })) := by
  refine (atCrew_some hc hw _).trans ?_
  simp only [hp, hfin, hf, h, Option.isSome_none, Bool.or_self, Bool.false_eq_true, if_false]

/-- The park of a fetch. -/
def fetchPark (cr : Crew) (p c lv at_ : Nat) : Park :=
  { mask := cr.present, cause := c, va := BitVec.ofNat 64 p, write := false, fetch := true, level := lv, at_ := at_,
    handle := none, logged := false }

theorem demandFetch_parks {s2 : State} {c v lv : Nat}
    (h : s.fetchLine (accOf key.core cr.wg wg) (p / 32 * 32) 32 = (s2, .error (.park c v lv))) :
    exec (.demandFetch key) s =
      .next (s2.modCrew key (fun cr => { cr with pos := BitVec.ofNat 64 p, park := some (fetchPark cr p c lv s2.refclk) })) := by
  refine (atCrew_some hc hw _).trans ?_
  simp only [hp, hfin, hf, h, Option.isSome_none, Bool.or_self, Bool.false_eq_true, if_false]
  rfl

end

/-! ### The records of parks -/

/-- A park whose record the queue takes gets the next handle (R227). -/
theorem faultRecordWrite_handle {s s2 : State} {key : CrewKey} {cr : Crew} {wg : Wg} {p : Park} (hc : s.crew? key = some cr)
    (hw : s.wg? key.core cr.wg = some wg) (hp : cr.park = some p) (hn : p.handle = none)
    (h : s.fqWrite wg.ctx (if wg.conf then (parkRecord key wg p cr.pos (!p.reload.isEmpty) s.nextHandle).redact true
      else parkRecord key wg p cr.pos (!p.reload.isEmpty) s.nextHandle).bytes p.logged = (s2, .written)) :
    exec (.faultRecordWrite key) s = .next (({ s2 with nextHandle := s.nextHandle + 1 } : State).modCrew key
      (fun cr => { cr with park := some { p with handle := some s.nextHandle } })) := by
  have hpark : cr.park.filter Park.unwritten = some p := by simp [hp, Park.unwritten, hn]
  refine (atCrew_some hc hw _).trans ?_
  simp only [State.recordOne, hpark, State.parkWrite, h, fqWrite_written_nextHandle h]

/-- An error record of a context is tried, and one that is not taken waits on. -/
def State.retryOne (ctx : Nat) (s : State) (r : FqRec) : State :=
  if r.ctx ≠ ctx then { s with fqPend := s.fqPend ++ [r] }
  else match s.fqWrite ctx r.bytes r.counted with
    | (s, .written) => s
    | (s, o) => { s with fqPend := s.fqPend ++ [{ r with counted := r.counted || o == .full }] }

theorem retryPend_eq (s : State) (ctx : Nat) : s.retryPend ctx = s.fqPend.foldl (State.retryOne ctx) { s with fqPend := [] } := rfl

theorem foldl_retryOne_others {ctx : Nat} {l : List FqRec} (h : ∀ r ∈ l, r.ctx ≠ ctx) (s : State) :
    l.foldl (State.retryOne ctx) s = { s with fqPend := s.fqPend ++ l } := by
  induction l generalizing s with
  | nil => simp
  | cons r l ih =>
    rw [List.forall_mem_cons] at h
    rw [List.foldl_cons, State.retryOne, if_pos h.1, ih h.2]
    simp

/-- Where no crew is of the context, only its error records are tried. -/
theorem faultRecordRetry_eq {s : State} {ctx : Nat} (h : ∀ e ∈ s.allCrews, e.2.2.ctx ≠ ctx) :
    exec (.faultRecordRetry ctx) s = .next (s.retryPend ctx) := by
  have hn : s.allCrews.filter (fun e => e.2.2.ctx == ctx) = [] := by
    rw [List.filter_eq_nil_iff]
    intro e he
    simpa using h e he
  show (.next (((s.allCrews.filter (fun e => e.2.2.ctx == ctx)).foldl (fun s e => s.recordAll e.1) s).retryPend ctx) : Out) = _
  rw [hn]
  rfl

/-! ### REPLAY -/

theorem replay_zero {s s1 : State} {ctx fq : Nat} (h : s.replayRead ctx = (s1, some (fq, 0))) : exec (.replay ctx) s = .next s1 := by
  show execReplay ctx s = _
  simp only [execReplay, h, if_true]

theorem replay_handle {s s1 s2 : State} {ctx fq h : Nat} (hr : s.replayRead ctx = (s1, some (fq, h))) (hz : h ≠ 0)
    (hb : s1.benchWrite ctx (fq + 0x18) (bytesOfNat 8 0) = (s2, true)) : exec (.replay ctx) s = .next (s2.replayHandle ctx h) := by
  show execReplay ctx s = _
  simp only [execReplay, hr, hz, if_false, hb]

/-- An instruction's park that a handle names is over: the instruction is executed again for the threads that had failed (R228). -/
theorem unpark_eq (s : State) (key : CrewKey) (wg : Wg) {cr : Crew} {p : Park} (hf : p.fetch = false) (hl : p.reload = [])
    (hb : cr.block = .none) : s.unpark key cr wg p = s.setCrew key { cr with park := none, replay := some p.mask } := by
  simp [State.unpark, hf, hl, hb]

theorem named_iff (p : Park) (h : Nat) : p.named h = true ↔ h = 2 ^ 64 - 1 ∨ p.handle = some h := by
  simp [Park.named, allOnes64]

theorem replayHandle_crew {s : State} {ctx h : Nat} {key : CrewKey} {cr : Crew} {wg : Wg} {p : Park}
    (hone : s.allCrews.filter (fun e => e.2.2.ctx == ctx && e.2.2.abort.isNone) = [(key, cr, wg)]) (hp : cr.park = some p)
    (hn : p.named h = true) (hf : p.fetch = false) (hl : p.reload = []) (hb : cr.block = .none) :
    (s.replayHandle ctx h).crew? key = some { cr with park := none, replay := some p.mask } := by
  rw [State.replayHandle, hone, List.foldl_cons, List.foldl_nil]
  simp only [hp, hn, if_true, unpark_eq s key wg hf hl hb]
  refine Eq.trans (State.crew_modCore_of_crews _ _ ?_ key) ?_
  · exact fun _ => rfl
  · rw [State.crew_setCrew, if_pos rfl]

/-! ### The obligation -/

/-- The statement's clause of variable-latency instructions. -/
theorem instructionCompletion_variable {s : State} {key : CrewKey} {cr : Crew} {wg : Wg} (hc : s.crew? key = some cr)
    (hw : s.wg? key.core cr.wg = some wg) {o : Owed} (hone : cr.owed.filter (fun p => p.id == o.id) = [o]) (hd : o.due = none)
    (hb : cr.block = .none) :
    ∃ t cr', exec (.instructionCompletion key o.id) s = .next t ∧ t.mem = s.mem ∧ t.crew? key = some cr' ∧
      cr'.owed.map Owed.id = (cr.owed.filter (fun p => p.id != o.id)).map Owed.id ∧
      cr'.owed.map Owed.due = (cr.owed.filter (fun p => p.id != o.id)).map Owed.due ∧
      cr'.owed.map Owed.writes = (cr.owed.filter (fun p => p.id != o.id)).map (fun p =>
        if p.due.isSome ∧ p.id < o.id then p.writes.filter (fun w => !o.writes.any w.same) else p.writes) ∧
      cr'.threads = (cr.landAll o.writes).threads ∧ cr'.s = (cr.landAll o.writes).s ∧ cr'.q = (cr.landAll o.writes).q ∧
      cr'.fps = cr.fps ||| o.fps.zeroExtend 32 ∧
      ∀ k < 12, (cr'.flag k).cnt = if o.flag.map Fin.val = some k then (cr.flag k).cnt - 1 else (cr.flag k).cnt := by
  obtain ⟨hth, hs, hq, hfps, hflag⟩ := complete_fields hone hd
  exact ⟨_, cr.complete o.id, instructionCompletion_eq hc hw hb o.id, by simp, by simp,
    complete_owed_map hone hd (fun _ => rfl) fun p => unless_id p _, complete_owed_map hone hd (fun _ => rfl) fun p => unless_due p _,
    complete_owed_map hone hd (fun _ => rfl) fun p => unless_writes p o, hth, hs, hq, hfps, fun k _ => hflag k⟩

/-- Settles O46: each event does one thing to its crew (a landing, a fetch, a park, a handle, a replay), and the accesses that it
makes on the way touch no crew and take no handle. -/
theorem landingsAndReplays : Obligations.LandingsAndReplays := by
  unfold Obligations.LandingsAndReplays
  refine ⟨?crew, ?retry, fun s ctx fq s1 h => replay_zero h, ?replay⟩
  case crew =>
    intro s key cr wg hc hw
    refine ⟨fun o hone hd hb => instructionCompletion_variable hc hw hone hd hb, ?fixed, fun bs hf => demandFetch_word hc hw hf,
      fun p hp hfin hf => ⟨?brings, ?parks⟩, ?record⟩
    case fixed =>
      intro o hone hd hb
      exact ⟨_, cr.complete o.id, instructionCompletion_eq hc hw hb o.id, by simp, complete_fixed_owed hone hd⟩
    case brings =>
      intro s2 bs h
      refine ⟨_, demandFetch_brings hc hw hp hfin hf h, ?_⟩
      rw [State.crew_modCrew, if_pos rfl, crew_of_fst ((State.fetchLine_crew ..).trans hc) h]
      rfl
    case parks =>
      intro s2 c v lv h
      let k := fetchPark cr p c lv s2.refclk
      refine ⟨_, { cr with pos := BitVec.ofNat 64 p, park := some k }, k, demandFetch_parks hc hw hp hfin hf h, ?_, rfl, rfl, rfl, rfl,
        rfl, rfl⟩
      rw [State.crew_modCrew, if_pos rfl, crew_of_fst ((State.fetchLine_crew ..).trans hc) h]
      rfl
    case record =>
      intro p s2 hp hn r h
      have hc2 : ({ s2 with nextHandle := s.nextHandle + 1 } : State).crew? key = some cr :=
        ((quiet_fst (State.fqWrite_quiet (.refl s) ..) h).crew key).trans hc
      refine ⟨_, faultRecordWrite_handle hc hw hp hn h, by simp, ?_⟩
      rw [State.crew_modCrew, if_pos rfl, hc2]
      rfl
  case retry =>
    refine fun s ctx => ⟨fun hcr hpend => ?_, fun r s2 hcr hpend hctx h => ?_⟩
    · rw [faultRecordRetry_eq hcr, retryPend_eq, foldl_retryOne_others hpend]
      rfl
    · rw [faultRecordRetry_eq hcr, retryPend_eq, hpend, List.foldl_cons, List.foldl_nil, State.retryOne, if_neg (by simpa using hctx), h]
  case replay =>
    intro s ctx fq h s1 s2 key cr wg p hr hz hw hone hp hn hf hl hb
    exact ⟨_, replay_handle hr hz hw, replayHandle_crew hone hp ((named_iff p h).mpr hn) hf hl hb⟩

end Sys2Proof.Machine
end

section
/-! PROOFS. Exact zeros, invalid operations, and Min and Max of one NaN (R97, R101). -/

namespace Sys2Proof.Machine

open Sys2Proof Sys2Proof.Claims

/-! ### Exact sums of two terms -/

theorem sumTerms_pair (a b : Term) : sumTerms [a, b] = (a.toInt (min a.e b.e) + b.toInt (min a.e b.e), min a.e b.e) := by
  simp [sumTerms]

/-- Equal magnitudes are equal counts of any place that neither lies below. -/
theorem scaled_eq_of_value_eq {a b : Nat} {d e q : Int} (hd : q ≤ d) (he : q ≤ e) (h : (a : ℚ) * 2 ^ d = b * 2 ^ e) :
    a * 2 ^ (d - q).toNat = b * 2 ^ (e - q).toNat := by
  have unit {x : Int} (hx : q ≤ x) : (2 : ℚ) ^ x = 2 ^ (x - q).toNat * 2 ^ q := by
    rw [← zpow_natCast, ← zpow_add₀ two_ne_zero, Int.toNat_sub_of_le hx, sub_add_cancel]
  have hq : (2 : ℚ) ^ q ≠ 0 := zpow_ne_zero _ two_ne_zero
  rw [unit hd, unit he, ← mul_assoc, ← mul_assoc, mul_left_inj' hq] at h
  exact_mod_cast h

theorem Term.toInt_not_neg (n : Bool) (m : Nat) (e q : Int) : Term.toInt ⟨!n, m, e⟩ q = -Term.toInt ⟨n, m, e⟩ q := by
  cases n <;> simp [Term.toInt]

/-- R97: a sum of finite values that is exactly zero has their common sign, or else the mode's. -/
theorem fAdd_fin_of_sum_zero (f : FSpec) (md : Rm) {s s' : Bool} {m m' : Nat} {e e' : Int}
    (h : Term.toInt ⟨s, m, e⟩ (min e e') + Term.toInt ⟨s', m', e'⟩ (min e e') = 0) :
    fAdd f md (.fin s m e) (.fin s' m' e') = .exact (f.signBit (if s == s' then s else md == .rm)) := by
  simp [fAdd, sumTerms_pair, roundInt, h]

theorem fAdd_opposite (f : FSpec) (md : Rm) (n : Bool) {a b : Nat} {d e : Int} (h : (a : ℚ) * 2 ^ d = b * 2 ^ e) :
    fAdd f md (.fin n a d) (.fin (!n) b e) = .exact (f.signBit (md == .rm)) := by
  have hab := scaled_eq_of_value_eq (Int.min_le_left d e) (Int.min_le_right d e) h
  have hsum : Term.toInt ⟨n, a, d⟩ (min d e) + Term.toInt ⟨!n, b, e⟩ (min d e) = 0 := by
    rw [Term.toInt_not_neg, ← sub_eq_add_neg, sub_eq_zero]
    simp only [Term.toInt]
    norm_cast
    rw [hab]
  rw [fAdd_fin_of_sum_zero f md hsum]
  cases n <;> rfl

theorem fAdd_zeros (f : FSpec) (md : Rm) (n : Bool) (d e : Int) :
    fAdd f md (.fin n 0 d) (.fin n 0 e) = .exact (f.signBit n) := by
  rw [fAdd_fin_of_sum_zero f md (by simp [Term.toInt])]
  simp

/-! ### Products, quotients and the NaN of an invalid operation -/

theorem fMul_zero_left (f : FSpec) (md : Rm) (n m : Bool) (a : Nat) (d e : Int) :
    fMul f md (.fin n 0 d) (.fin m a e) = .exact (f.signBit (n ^^ m)) := by
  simp [fMul, roundF]

theorem fMul_zero_right (f : FSpec) (md : Rm) (n m : Bool) (a : Nat) (d e : Int) :
    fMul f md (.fin m a e) (.fin n 0 d) = .exact (f.signBit (n ^^ m)) := by
  simp [fMul, roundF, Bool.xor_comm]

theorem fDiv_zero_left (f : FSpec) (md : Rm) (n m : Bool) {a : Nat} (ha : 0 < a) (d e : Int) :
    fDiv f md (.fin n 0 d) (.fin m a e) = .exact (f.signBit (n ^^ m)) := by
  simp [fDiv, roundF, ha.ne']

theorem fAdd_opposite_inf (f : FSpec) (md : Rm) (n : Bool) : fAdd f md (.inf n) (.inf (!n)) = f.nanRes true := by
  cases n <;> rfl

/-- R101: where one operand alone is a NaN the other is the result, on either side; NV for a signalling one. -/
theorem fMinMax_nan (f : FSpec) (isMax : Bool) {q p : Nat} {b : Bool} (hq : fval f q = .nan b) (hp : (fval f p).isNan = false) :
    fMinMax f isMax q p = .withFlag p (fpsIf b fNV) ∧ fMinMax f isMax p q = .withFlag p (fpsIf b fNV) := by
  have hsig : (fval f p).isSig = false := by
    cases h : fval f p with
    | nan c => simp [h, FVal.isNan] at hp
    | inf | fin => rfl
  have hnan : (fval f q).isNan = true ∧ (fval f q).isSig = b := by simp [hq, FVal.isNan, FVal.isSig]
  simp [fMinMax, hp, hsig, hnan]

theorem FSpec.signBit_eq (f : FSpec) (neg : Bool) : f.signBit neg = if neg then 2 ^ (f.width - 1) else 0 := by
  simp [FSpec.signBit, FSpec.width, Nat.add_assoc]

/-- Settles O8: each zero is the sign bit that R97 gives and each invalid operation the canonical NaN, format by format alike. -/
theorem zeroSignsAndInvalid : Obligations.ZeroSignsAndInvalid := by
  unfold Obligations.ZeroSignsAndInvalid
  intro f _ md n m c q nan zero
  have hzero (neg : Bool) : FRes.exact (f.signBit neg) = zero neg := by rw [FSpec.signBit_eq]; rfl
  refine ⟨fun a b d e h => ?sums, fun d e => ?zeros, fun a d e => ?products, fAdd_opposite_inf f md n, rfl, rfl, rfl, rfl,
    fun b isMax hq p hp => ?minMax⟩
  case sums => exact ⟨(fAdd_opposite f md n h).trans (hzero _), (fAdd_opposite f md n h).trans (hzero _)⟩
  case zeros =>
    refine ⟨(fAdd_zeros f md n d e).trans (hzero _), ?_⟩
    rw [fSub, FVal.neg, Bool.not_not, fAdd_zeros, hzero]
  case products =>
    exact ⟨(fMul_zero_left f md n m a d e).trans (hzero _), (fMul_zero_right f md n m a d e).trans (hzero _),
      fun ha => (fDiv_zero_left f md n m ha d e).trans (hzero _)⟩
  case minMax =>
    obtain ⟨hleft, hright⟩ := fMinMax_nan f isMax hq hp
    rw [hleft, hright]
    exact ⟨rfl, rfl, rfl⟩

end Sys2Proof.Machine
end

section
/-! PROOFS. Balanced-ternary expansions, and a CIM unit's outputs as exact sums (R109, R110). -/

namespace Sys2Proof.Machine

open Sys2Proof Sys2Proof.Claims

/-! ### The expansion -/

/-- The value of digits of weights 3^i, least first, by their head. -/
theorem sum_weights_cons (d : Int) (l : List Int) :
    ((d :: l).mapIdx (fun i d => d * 3 ^ i)).sum = d + 3 * (l.mapIdx (fun i d => d * 3 ^ i)).sum := by
  have htail : l.mapIdx (fun i d => d * 3 ^ (i + 1)) = (l.mapIdx (fun i d => d * 3 ^ i)).map (3 * ·) := by
    refine List.ext_getElem (by simp) fun i _ _ => ?_
    simp only [List.getElem_mapIdx, List.getElem_map]
    ring
  rw [List.mapIdx_cons, List.sum_cons, htail, List.sum_map_mul_left, List.map_id']
  simp

/-- The digit that an expansion begins with is the one congruent to the value. -/
theorem trits_head (v : Int) :
    ((v + 1) % 3 - 1 = -1 ∨ (v + 1) % 3 - 1 = 0 ∨ (v + 1) % 3 - 1 = 1) ∧
      v = ((v + 1) % 3 - 1) + 3 * ((v - ((v + 1) % 3 - 1)) / 3) := by omega

theorem length_trits (k : Nat) (v : Int) : (trits k v).length = k := by
  induction k generalizing v with
  | zero => rfl
  | succ k ih => simp [trits, ih]

theorem mem_trits {k : Nat} {v d : Int} (h : d ∈ trits k v) : d = -1 ∨ d = 0 ∨ d = 1 := by
  induction k generalizing v with
  | zero => simp [trits] at h
  | succ k ih =>
    rw [trits, List.mem_cons] at h
    rcases h with rfl | h
    · exact (trits_head v).1
    · exact ih h

/-- What is left of a value in range, after its lowest digit, is in the range of one digit less, as 3^k is odd. -/
theorem sum_trits {k : Nat} {v : Int} (hlo : -(3 ^ k - 1) ≤ 2 * v) (hhi : 2 * v ≤ 3 ^ k - 1) :
    ((trits k v).mapIdx (fun i d => d * 3 ^ i)).sum = v := by
  induction k generalizing v with
  | zero =>
    have : v = 0 := by omega
    simp [trits, this]
  | succ k ih =>
    obtain ⟨hd, hv⟩ := trits_head v
    have hodd : (3 : Int) ^ k % 2 = 1 := Int.odd_iff.mp (Odd.pow (by decide))
    rw [pow_succ'] at hlo hhi
    rw [trits, sum_weights_cons, ih (by omega) (by omega)]
    exact hv.symm

/-- The lowest digit of a value is fixed modulo 3, so that no other digits have its sum. -/
theorem eq_trits_of_sum {l : List Int} (hl : ∀ d ∈ l, d = -1 ∨ d = 0 ∨ d = 1) {v : Int}
    (hv : (l.mapIdx (fun i d => d * 3 ^ i)).sum = v) : l = trits l.length v := by
  induction l generalizing v with
  | nil => rfl
  | cons d l ih =>
    have hd := hl d List.mem_cons_self
    rw [sum_weights_cons] at hv
    have hhead : d = (v + 1) % 3 - 1 := by omega
    have htail : (v - ((v + 1) % 3 - 1)) / 3 = (l.mapIdx (fun i d => d * 3 ^ i)).sum := by omega
    rw [List.length_cons, trits, htail, ← ih (fun x hx => hl x (List.mem_cons_of_mem _ hx)) rfl, ← hhead]

/-! ### The outputs of a CIM unit -/

/-- What output `j`, with `k` trits a weight, takes of the cell at `n` that holds `v`. -/
def cellTerm (k j : Nat) (acts : List Int) (n : Nat) (v : Int) : Int :=
  if n % 256 / k = j then acts.getD (n / 256) 0 * v * 3 ^ (n % 256 % k) else 0

/-- The sum over 256 rows of the activation times the weight that the cells of output `j` hold. -/
def rowSum (k j : Nat) (acts : List Int) (cell : Nat → Int) : Int :=
  ((List.range 256).map (fun r => acts.getD r 0 * ((List.range k).map (fun i => cell (256 * r + (k * j + i)) * 3 ^ i)).sum)).sum

theorem rowSum_eq_sum (k j : Nat) (acts : List Int) (cell : Nat → Int) :
    rowSum k j acts cell =
      ∑ r ∈ Finset.range 256, acts.getD r 0 * ∑ i ∈ Finset.range k, cell (256 * r + (k * j + i)) * 3 ^ i := rfl

theorem rowSum_add (k j : Nat) (acts : List Int) (f g : Nat → Int) :
    rowSum k j acts (fun n => f n + g n) = rowSum k j acts f + rowSum k j acts g := by
  simp only [rowSum_eq_sum, add_mul, Finset.sum_add_distrib, mul_add]

/-- One cell alone: the row and the trit that it stands for are the only ones that count. -/
theorem rowSum_single {k j : Nat} (hj : k * j + k ≤ 256) (hk : 0 < k) (acts : List Int) {n : Nat} (hn : n < 65536) (v : Int) :
    rowSum k j acts (fun m => if m = n then v else 0) = cellTerm k j acts n v := by
  have hrow : ∀ r ∈ Finset.range 256, r ≠ n / 256 →
      acts.getD r 0 * ∑ i ∈ Finset.range k, (if 256 * r + (k * j + i) = n then v else 0) * 3 ^ i = 0 := by
    intro r _ hr
    rw [Finset.sum_eq_zero, mul_zero]
    intro i hi
    rw [Finset.mem_range] at hi
    rw [if_neg (by omega), zero_mul]
  rw [rowSum_eq_sum, Finset.sum_eq_single (n / 256) hrow (fun h => absurd (Finset.mem_range.mpr (by omega)) h), cellTerm]
  have hdiv : n % 256 % k + k * (n % 256 / k) = n % 256 := Nat.mod_add_div _ _
  have hlt : n % 256 % k < k := Nat.mod_lt _ hk
  split
  case isTrue hcol =>
    rw [hcol] at hdiv
    rw [Finset.sum_eq_single (n % 256 % k), if_pos (by omega), mul_assoc]
    · intro i hi hne
      rw [Finset.mem_range] at hi
      rw [if_neg (by omega), zero_mul]
    · exact fun h => absurd (Finset.mem_range.mpr hlt) h
  case isFalse hcol =>
    rw [Finset.sum_eq_zero, mul_zero]
    intro i hi
    rw [Finset.mem_range] at hi
    rw [if_neg, zero_mul]
    intro heq
    have hcell : n % 256 = k * j + i := by omega
    exact hcol (by rw [hcell, Nat.mul_add_div hk, Nat.div_eq_of_lt hi, add_zero])

theorem dots_eq_map (m : CimMac) (w o k : Nat) (acts : List Int) :
    m.dots (w, o, k) acts = (List.range o).map (fun j => (m.cells.map (fun e => cellTerm k j acts e.1 e.2)).sum) := by
  refine List.map_congr_left fun j _ => ?_
  rw [List.sum_eq_foldl, List.foldl_map]
  congr
  funext acc e
  simp only [cellTerm]
  split <;> simp

/-- A key that lies below every listed one holds the default. -/
theorem kget_of_lt {n : Nat} {cells : KMap Int} (h : ∀ e ∈ cells, n < e.1) : kget 0 n cells = 0 := by
  induction cells with
  | nil => rfl
  | cons e t ih =>
    have hne : e.1 ≠ n := (h e List.mem_cons_self).ne'
    simpa [kget, kfind, hne] using ih (fun x hx => h x (List.mem_cons_of_mem _ hx))

/-- A store whose first key lies below the others is that cell and the rest, added. -/
theorem kget_cons_eq_add {e : Nat × Int} {t : KMap Int} (h : ∀ x ∈ t, e.1 < x.1) (n : Nat) :
    kget 0 n (e :: t) = (if n = e.1 then e.2 else 0) + kget 0 n t := by
  by_cases hn : n = e.1
  · subst hn
    rw [kget_of_lt h]
    simp [kget, kfind]
  · simp [kget, kfind, hn, Ne.symm hn]

/-- The sum over the cells that are listed is the sum over the rows: cell by cell. -/
theorem sum_cellTerm_eq_rowSum {k j : Nat} (hj : k * j + k ≤ 256) (hk : 0 < k) (acts : List Int) {cells : KMap Int}
    (hs : ksorted cells = true) (hb : ∀ e ∈ cells, e.1 < 65536) :
    (cells.map (fun e => cellTerm k j acts e.1 e.2)).sum = rowSum k j acts (fun n => kget 0 n cells) := by
  rw [ksorted_iff] at hs
  induction cells with
  | nil => simp [rowSum_eq_sum, kget, kfind]
  | cons e t ih =>
    obtain ⟨hlt, ht⟩ := List.pairwise_cons.mp hs
    rw [List.map_cons, List.sum_cons, ih ht (fun x hx => hb x (List.mem_cons_of_mem _ hx)),
      ← rowSum_single hj hk acts (hb e List.mem_cons_self), ← rowSum_add]
    simp only [kget_cons_eq_add hlt]

/-- R109: the outputs take no more columns than there are. -/
theorem cimShape_columns {f w o k : Nat} (h : cimShape f = some (w, o, k)) : 0 < k ∧ k * o ≤ 256 := by
  unfold cimShape at h
  split at h
  case h_5 => cases h
  all_goals
    cases h
    decide

/-- Settles O39: a digit is fixed by the value modulo 3, and the cells add up row by row. -/
theorem ternaryArithmetic : Obligations.TernaryArithmetic := by
  unfold Obligations.TernaryArithmetic
  refine ⟨fun k v => ⟨length_trits k v, fun d => mem_trits, sum_trits, ?unique⟩, fun m f w o k acts hf hs hb _ => ?outputs⟩
  case unique =>
    rintro l rfl hl hv
    exact eq_trits_of_sum hl hv
  case outputs =>
    obtain ⟨hk, hcols⟩ := cimShape_columns hf
    rw [dots_eq_map]
    refine ⟨by simp, fun j hj => ?_⟩
    have hfit : k * j + k ≤ 256 := (Nat.mul_le_mul_left k hj).trans hcols
    rw [List.getD_eq_getElem _ _ (by simpa using hj), List.getElem_map, List.getElem_range,
      sum_cellTerm_eq_rowSum hfit hk acts hs hb]
    rfl

end Sys2Proof.Machine
end

section
/-! PROOFS. Error-feedback narrowing (R107): the order of a block's threads, the chain's step, and what a target holds comes back
from its narrowing as the code that it was (R96, R106). -/

namespace Sys2Proof.Machine

open Sys2Proof Sys2Proof.Claims

/-! ### Sorting by a key -/

theorem insBy_perm (key : Nat → Nat) (t : Nat) (l : List Nat) : (insBy key t l).Perm (t :: l) := by
  induction l with
  | nil => exact .refl _
  | cons u us ih =>
    rw [insBy]
    split
    · exact .refl _
    · exact (ih.cons u).trans (.swap t u us)

theorem insBy_pairwise {key : Nat → Nat} (t : Nat) {l : List Nat} (hl : l.Pairwise (fun a b => key a ≤ key b)) :
    (insBy key t l).Pairwise (fun a b => key a ≤ key b) := by
  induction l with
  | nil => exact List.pairwise_singleton ..
  | cons u us ih =>
    obtain ⟨hu, hus⟩ := List.pairwise_cons.mp hl
    rw [insBy]
    split
    case isTrue hlt =>
      refine List.pairwise_cons.mpr ⟨fun a ha => ?_, hl⟩
      rcases List.mem_cons.mp ha with rfl | ha
      · exact hlt.le
      · exact hlt.le.trans (hu a ha)
    case isFalse hge =>
      refine List.pairwise_cons.mpr ⟨fun a ha => ?_, ih hus⟩
      rcases List.mem_cons.mp ((insBy_perm key t us).mem_iff.mp ha) with rfl | ha
      · exact not_lt.mp hge
      · exact hu a ha

theorem foldl_insBy_perm (key : Nat → Nat) (l acc : List Nat) :
    (l.foldl (fun a t => insBy key t a) acc).Perm (l ++ acc) := by
  induction l generalizing acc with
  | nil => exact .refl _
  | cons t l ih => exact (ih _).trans (((insBy_perm key t acc).append_left l).trans List.perm_middle)

theorem sortBy_perm (key : Nat → Nat) (l : List Nat) : (sortBy key l).Perm l := by
  simpa [sortBy] using foldl_insBy_perm key l []

theorem sortBy_pairwise (key : Nat → Nat) (l : List Nat) : (sortBy key l).Pairwise (fun a b => key a ≤ key b) :=
  List.foldlRecOn l _ .nil fun _ h t _ => insBy_pairwise t h

/-! ### The chain's step -/

/-- The residual restarts at +0, or is what the narrowing lost (R107). -/
theorem feedStep_eq (ftz : Bool) (tgt : NarrowFmt) (v res : Nat) :
    feedStep ftz tgt v res =
      let e := add32 ftz v res
      let q := narrowTo tgt (fval fF32 e.code)
      let next := flushOut ftz fF32 (fSub fF32 .rn (fval fF32 e.code) (narrowVal tgt q.code))
      if (fval fF32 e.code).isNan = true ∨ (fval fF32 e.code).isInf = true ∨ q.ovf = true then (q.code, 0, e.fps ||| q.fps)
      else (q.code, next.code, e.fps ||| q.fps ||| next.fps) := by
  simp only [feedStep, Bool.or_eq_true, or_assoc]

/-! ### Rounding a value that the format holds -/

/-- The greatest finite value of a format: its exponent field, its count of places, and no finite code above it. -/
structure FSpec.Tops (f : FSpec) (emax mx : Nat) : Prop where
  code  : fval f f.maxCode = .fin false mx ((emax : Int) - f.bias - f.mb)
  norm  : 2 ^ f.mb ≤ mx
  one   : 1 ≤ emax
  bound : ∀ c neg m x, fval f c = .fin neg m x → expOf f c ≤ emax ∧ (expOf f c = emax → 2 ^ f.mb + fracOf f c ≤ mx)

/-- The codes of an IEEE format that have the top exponent are the infinities and NaNs (R94). -/
theorem tops_of_ieee {f : FSpec} (hk : f.kind = .ieee)
    (hc : fval f f.maxCode = .fin false (2 ^ (f.mb + 1) - 1) (((2 ^ f.eb - 2 : Nat) : Int) - f.bias - f.mb)) (he : 3 ≤ 2 ^ f.eb) :
    f.Tops (2 ^ f.eb - 2) (2 ^ (f.mb + 1) - 1) where
  code := hc
  norm := by have := Nat.two_pow_pos f.mb; omega
  one := by omega
  bound := by
    intro c neg m x h
    have hfrac : fracOf f c < 2 ^ f.mb := Nat.mod_lt _ (Nat.two_pow_pos _)
    have hexp : expOf f c < 2 ^ f.eb := Nat.mod_lt _ (Nat.two_pow_pos _)
    have htop : expOf f c ≠ 2 ^ f.eb - 1 := by
      intro hexp
      rw [fval, if_pos ⟨hk, hexp⟩] at h
      split at h <;> cases h
    omega

theorem tops_f16 : fF16.Tops 30 2047 := tops_of_ieee rfl (by decide) (by decide)
theorem tops_bf16 : fBF16.Tops 254 255 := tops_of_ieee rfl (by decide) (by decide)
theorem tops_e5m2 : fE5M2.Tops 30 7 := tops_of_ieee rfl (by decide) (by decide)

/-- E4M3 gives up one code of its top exponent, for its NaN (R102). -/
theorem tops_e4m3 : fE4M3.Tops 15 14 where
  code := by decide
  norm := by decide
  one := by decide
  bound := by
    intro c neg m x h
    have hfrac : fracOf fE4M3 c < 8 := Nat.mod_lt _ (by decide)
    have hexp : expOf fE4M3 c < 16 := Nat.mod_lt _ (by decide)
    have hnan : ¬(expOf fE4M3 c = 15 ∧ fracOf fE4M3 c = 7) := by
      rintro ⟨he, hm⟩
      have hv : fval fE4M3 c = .nan false := by
        simp only [fval, he, hm]
        rfl
      cases hv.symm.trans h
    have hmb : 2 ^ fE4M3.mb = 8 := rfl
    omega

/-- E2M1 has finite values alone (R102). -/
theorem tops_e2m1 : fE2M1.Tops 3 3 where
  code := by decide
  norm := by decide
  one := by decide
  bound := by
    intro c neg m x _
    have hfrac : fracOf fE2M1 c < 2 := Nat.mod_lt _ (by decide)
    have hexp : expOf fE2M1 c < 4 := Nat.mod_lt _ (by decide)
    have hmb : 2 ^ fE2M1.mb = 2 := rfl
    omega

/-- A finite code is subnormal, or normal with its leading 1 (R94, R102). -/
theorem fval_fin {f : FSpec} {c m : Nat} {neg : Bool} {x : Int} (h : fval f c = .fin neg m x) :
    neg = signOf f c ∧
      ((expOf f c = 0 ∧ m = fracOf f c ∧ x = f.qmin) ∨
        (expOf f c ≠ 0 ∧ m = 2 ^ f.mb + fracOf f c ∧ x = (expOf f c : Int) - f.bias - f.mb)) := by
  simp only [fval] at h
  split at h
  · split at h <;> cases h
  · split at h
    · cases h
    · split at h
      case isTrue he =>
        cases h
        exact ⟨rfl, .inl ⟨he, rfl, rfl⟩⟩
      case isFalse he =>
        cases h
        exact ⟨rfl, .inr ⟨he, rfl, rfl⟩⟩

/-- A code is its sign, exponent and fraction. -/
theorem code_of_fields {f : FSpec} {c : Nat} (h : c < 2 ^ f.width) :
    expOf f c * 2 ^ f.mb + fracOf f c + f.signBit (signOf f c) = c := by
  have hfrac : fracOf f c + 2 ^ f.mb * (c / 2 ^ f.mb) = c := Nat.mod_add_div _ _
  have hexp : expOf f c + 2 ^ f.eb * (c / 2 ^ (f.eb + f.mb)) = c / 2 ^ f.mb := by
    rw [Nat.add_comm f.eb, pow_add, ← Nat.div_div_eq_div_mul]
    exact Nat.mod_add_div _ _
  have hlt : c / 2 ^ (f.eb + f.mb) < 2 := by
    rw [Nat.div_lt_iff_lt_mul (Nat.two_pow_pos _), ← pow_succ', Nat.add_comm _ 1, ← Nat.add_assoc]
    exact h
  have hsign : f.signBit (signOf f c) = 2 ^ (f.eb + f.mb) * (c / 2 ^ (f.eb + f.mb)) := by
    rcases Nat.le_one_iff_eq_zero_or_eq_one.mp (Nat.lt_succ_iff.mp hlt) with hb | hb <;>
      simp [FSpec.signBit, signOf, Nat.testBit_eq_decide_div_mod_eq, hb]
  calc expOf f c * 2 ^ f.mb + fracOf f c + f.signBit (signOf f c)
      = fracOf f c + 2 ^ f.mb * (expOf f c + 2 ^ f.eb * (c / 2 ^ (f.eb + f.mb))) := by rw [hsign, pow_add]; ring
    _ = c := by rw [hexp, hfrac]

/-- In units of a place that it does not reach below, a value is exact. -/
theorem roundAt_exact (md : Rm) (neg : Bool) (m : Nat) {e q : Int} (h : q ≤ e) :
    roundAt md neg m e q = (m * 2 ^ (e - q).toNat, false) := if_pos h

/-- A value that lies no higher than the format's greatest is not over it, in whatever smaller units it is counted. -/
theorem exceeds_of_le {f : FSpec} {emax mx : Nat} (ht : f.Tops emax mx) {m a : Nat} {x : Int}
    (hx : x ≤ (emax : Int) - f.bias - f.mb) (hm : m ≤ mx * 2 ^ ((emax : Int) - f.bias - f.mb - x).toNat) :
    f.exceeds (m * 2 ^ a) (x - a) = false := by
  simp only [FSpec.exceeds, ht.code, if_pos (show x - (a : Int) ≤ (emax : Int) - f.bias - f.mb by omega), decide_eq_false_iff_not,
    not_lt]
  have hplaces : ((emax : Int) - f.bias - f.mb - (x - a)).toNat = ((emax : Int) - f.bias - f.mb - x).toNat + a := by omega
  calc m * 2 ^ a ≤ mx * 2 ^ ((emax : Int) - f.bias - f.mb - x).toNat * 2 ^ a := Nat.mul_le_mul_right _ hm
    _ = _ := by rw [hplaces, pow_add, mul_assoc]

/-- A finite code's value lies no higher than the format's greatest. -/
theorem fin_le_top {f : FSpec} {emax mx : Nat} (ht : f.Tops emax mx) {c m : Nat} {neg : Bool} {x : Int}
    (h : fval f c = .fin neg m x) :
    x ≤ (emax : Int) - f.bias - f.mb ∧ m ≤ mx * 2 ^ ((emax : Int) - f.bias - f.mb - x).toNat := by
  have hfrac : fracOf f c < 2 ^ f.mb := Nat.mod_lt _ (Nat.two_pow_pos _)
  have hnorm := ht.norm
  have hone := ht.one
  obtain ⟨hexp, htop⟩ := ht.bound c neg m x h
  obtain ⟨-, ⟨-, hm, hx⟩ | ⟨-, hm, hx⟩⟩ := fval_fin h
  · have hle : m ≤ mx := by omega
    exact ⟨by rw [hx, FSpec.qmin]; omega, hle.trans (Nat.le_mul_of_pos_right _ (Nat.two_pow_pos _))⟩
  · refine ⟨by omega, ?_⟩
    have hplaces : ((emax : Int) - f.bias - f.mb - x).toNat = emax - expOf f c := by omega
    rw [hplaces, hm]
    rcases hexp.eq_or_lt with heq | hlt
    · rw [heq, Nat.sub_self, pow_zero, mul_one]
      exact htop heq
    · calc 2 ^ f.mb + fracOf f c ≤ mx * 2 ^ 1 := by omega
        _ ≤ mx * 2 ^ (emax - expOf f c) := Nat.mul_le_mul_left _ (Nat.pow_le_pow_right two_pos (by omega))

/-- A value whose places the format holds, and that is not over its greatest, rounds to itself with nothing raised. -/
theorem roundFin_exact {f : FSpec} {md : Rm} {sat neg : Bool} {m : Nat} {x : Int} (hm : Nat.log2 m ≤ f.mb) (hx : f.qmin ≤ x)
    (hexc : f.exceeds (m * 2 ^ (f.mb - Nat.log2 m)) (x - (f.mb - Nat.log2 m : Nat)) = false) :
    roundFin f md sat neg m x =
      .exact ((max (x - (f.mb - Nat.log2 m : Nat)) f.qmin - f.qmin).toNat * 2 ^ f.mb +
        m * 2 ^ (x - max (x - (f.mb - Nat.log2 m : Nat)) f.qmin).toNat + f.signBit neg) := by
  have hunit : x + Nat.log2 m - f.mb = x - (f.mb - Nat.log2 m : Nat) := by omega
  have hplaces : (x - (x - (f.mb - Nat.log2 m : Nat))).toNat = f.mb - Nat.log2 m := by omega
  simp only [roundFin, hunit]
  rw [roundAt_exact md neg m (by omega), hplaces, hexc, roundAt_exact md neg m (by omega)]
  simp [FRes.exact, fpsIf]

/-- R96: what a format holds rounds to its own code, in every mode, with nothing raised. -/
theorem roundF_fval {f : FSpec} {emax mx : Nat} (ht : f.Tops emax mx) {md : Rm} {sat neg : Bool} {c m : Nat} {x : Int}
    (hc : c < 2 ^ f.width) (h : fval f c = .fin neg m x) : roundF f md sat neg m x = .exact c := by
  have hfrac : fracOf f c < 2 ^ f.mb := Nat.mod_lt _ (Nat.two_pow_pos _)
  have hcode := code_of_fields hc
  obtain ⟨hxtop, hmtop⟩ := fin_le_top ht h
  obtain ⟨hneg, ⟨hexp, hm, hx⟩ | ⟨hexp, hm, hx⟩⟩ := fval_fin h
  · rw [← hneg, hexp, ← hm, zero_mul, zero_add] at hcode
    rw [roundF]
    split
    case isTrue hzero => rw [← hcode, hzero, zero_add]
    case isFalse hpos =>
      have hlog : Nat.log2 m < f.mb := (Nat.log2_lt hpos).mpr (hm ▸ hfrac)
      rw [roundFin_exact hlog.le hx.ge (exceeds_of_le ht hxtop hmtop), max_eq_right (by omega), hx]
      simpa using congrArg FRes.exact hcode
  · have hpos : m ≠ 0 := by have := Nat.two_pow_pos f.mb; omega
    have hlog : Nat.log2 m = f.mb := (Nat.log2_eq_iff hpos).mpr ⟨by omega, by rw [pow_succ]; omega⟩
    have hqmin : f.qmin ≤ x := by rw [FSpec.qmin]; omega
    have hrank : (x - f.qmin).toNat = expOf f c - 1 := by rw [FSpec.qmin]; omega
    have hbody : (expOf f c - 1) * 2 ^ f.mb + m = expOf f c * 2 ^ f.mb + fracOf f c := by
      rw [hm, ← add_assoc, ← Nat.succ_mul, Nat.succ_eq_add_one, Nat.sub_add_cancel (Nat.one_le_iff_ne_zero.mpr hexp)]
    rw [roundF, if_neg hpos, roundFin_exact hlog.le hqmin (exceeds_of_le ht hxtop hmtop), hlog, Nat.sub_self, Nat.cast_zero,
      sub_zero, max_eq_left hqmin, hrank, sub_self, Int.toNat_zero, pow_zero, mul_one, hbody, hneg, hcode]

/-- A finite overflow gives what the mode and the format say (R96, R106), with OF and NX. -/
theorem roundF_overflow {f : FSpec} {md : Rm} {sat neg : Bool} {m : Nat} {x : Int} (h : (roundF f md sat neg m x).ovf = true) :
    roundF f md sat neg m x = ⟨overflowCode f md sat neg, fOF ||| fNX, true⟩ := by
  rw [roundF] at h ⊢
  split at h
  · cases h
  · rw [if_neg ‹_›]
    simp only [roundFin] at h ⊢
    split at h
    · rw [if_pos ‹_›]
    · cases h

/-! ### Rounding to an integer and clamping -/

theorem truncW_of_lt {w n : Nat} (h : n < 2 ^ w) : truncW w n = n := by
  rw [truncW, Int.emod_eq_of_lt (Int.natCast_nonneg n) (by exact_mod_cast h), Int.toNat_natCast]

theorem truncW_sub_two_pow (w : Nat) (x : Int) : truncW w (x - 2 ^ w) = truncW w x := by
  rw [truncW, Int.sub_emod_right, truncW]

theorem two_pow_eq_twice {w : Nat} (hw : 0 < w) : 2 ^ w = 2 * 2 ^ (w - 1) := by
  rw [← pow_succ', Nat.sub_add_cancel hw]

theorem satS_of_inRange {w : Nat} {x : Int} (hlo : -(2 ^ (w - 1)) ≤ x) (hhi : x ≤ 2 ^ (w - 1) - 1) : satS w x = (x, false) := by
  rw [satS, if_neg hlo.not_gt, if_neg hhi.not_gt]

/-- A clamp goes to the bound of the value's own sign. -/
theorem satS_of_clamped {w : Nat} {x : Int} (h : (satS w x).2 = true) :
    (x ≤ 0 → satS w x = (-(2 ^ (w - 1)), true)) ∧ (0 ≤ x → satS w x = (2 ^ (w - 1) - 1, true)) := by
  have hpos : (0 : Int) < 2 ^ (w - 1) := by positivity
  rw [satS] at h ⊢
  split at h
  · exact ⟨fun _ => if_pos ‹_›, fun _ => by omega⟩
  · rw [if_neg ‹_›]
    split at h
    · exact ⟨fun _ => by omega, fun _ => if_pos ‹_›⟩
    · cases h

/-- A signed code of `w` bits is a value of S_w, and the code is the value modulo 2^w (R92, R93). -/
theorem asInt_true_spec {w c : Nat} (hw : 0 < w) (hc : c < 2 ^ w) :
    -(2 ^ (w - 1)) ≤ asInt true w c ∧ asInt true w c ≤ 2 ^ (w - 1) - 1 ∧ truncW w (asInt true w c) = c := by
  have hpow : 2 ^ w = 2 * 2 ^ (w - 1) := two_pow_eq_twice hw
  have hcast : (2 : Int) ^ w = 2 * 2 ^ (w - 1) := by exact_mod_cast hpow
  have hhalf : ((2 ^ (w - 1) : Nat) : Int) = 2 ^ (w - 1) := by norm_cast
  simp only [asInt, Nat.mod_eq_of_lt hc, Bool.true_and, decide_eq_true_eq]
  split
  case isTrue hneg => exact ⟨by omega, by omega, by rw [truncW_sub_two_pow, truncW_of_lt hc]⟩
  case isFalse hpos => exact ⟨by omega, by omega, truncW_of_lt hc⟩

/-- The bounds of S_w as codes: the largest value, and the code above it. -/
theorem truncW_bounds {w : Nat} (hw : 0 < w) :
    truncW w (2 ^ (w - 1) - 1) = 2 ^ (w - 1) - 1 ∧ truncW w (-(2 ^ (w - 1))) = 2 ^ (w - 1) := by
  have hpow : 2 ^ w = 2 * 2 ^ (w - 1) := two_pow_eq_twice hw
  have hcast : (2 : Int) ^ w = 2 * 2 ^ (w - 1) := by exact_mod_cast hpow
  have hhalf : 0 < 2 ^ (w - 1) := Nat.two_pow_pos _
  constructor
  · have htop : ((2 ^ (w - 1) - 1 : Nat) : Int) = 2 ^ (w - 1) - 1 := by push_cast [hhalf]; ring
    rw [← htop, truncW_of_lt (by omega)]
  · have hlow : (-(2 ^ (w - 1)) : Int) = ((2 ^ (w - 1) : Nat) : Int) - 2 ^ w := by push_cast; omega
    rw [hlow, truncW_sub_two_pow, truncW_of_lt (by omega)]

theorem toIntegral_intVal (md : Rm) (v : Int) : toIntegral md (decide (v < 0)) v.natAbs 0 = (v, false) := by
  rw [toIntegral, roundAt_exact md _ _ le_rfl]
  simp only [sub_self, Int.toNat_zero, pow_zero, mul_one, decide_eq_true_eq, Prod.mk.injEq, and_true]
  split <;> omega

theorem narrowInt_intVal {w c : Nat} (hw : 0 < w) (hc : c < 2 ^ w) : narrowInt w .rn (intVal w c) = ⟨c, 0, false⟩ := by
  obtain ⟨hlo, hhi, hcode⟩ := asInt_true_spec hw hc
  simp only [narrowInt, intVal, toIntegral_intVal, satS_of_inRange hlo hhi, hcode]
  rfl

theorem narrowInt_overflow {w : Nat} (hw : 0 < w) {neg : Bool} {m : Nat} {x : Int}
    (h : (narrowInt w .rn (.fin neg m x)).ovf = true) :
    narrowInt w .rn (.fin neg m x) = ⟨if neg then 2 ^ (w - 1) - 1 + 1 else 2 ^ (w - 1) - 1, fNV ||| fNX, true⟩ := by
  obtain ⟨hmin, hmax⟩ := satS_of_clamped h
  obtain ⟨htop, hlow⟩ := truncW_bounds hw
  have hhalf : 2 ^ (w - 1) - 1 + 1 = 2 ^ (w - 1) := Nat.sub_add_cancel (Nat.two_pow_pos _)
  cases neg with
  | false =>
    have hsat := hmax (by simp [toIntegral])
    simp only [narrowInt, hsat, htop, Bool.or_true]
    rfl
  | true =>
    have hsat := hmin (by simp [toIntegral])
    simp only [narrowInt, hsat, hlow, Bool.or_true, hhalf]
    rfl

/-! ### Narrowing into a target (R106) -/

/-- What a target's narrowing gives: of a value that the target holds, of a finite overflow, and of a NaN. -/
def Narrows (tgt : NarrowFmt) (width top below nan : Nat) : Prop :=
  (∀ c < 2 ^ width, ∀ neg m (x : Int), narrowVal tgt c = .fin neg m x → narrowTo tgt (narrowVal tgt c) = ⟨c, 0, false⟩) ∧
  (∀ neg m (x : Int), (narrowTo tgt (.fin neg m x)).ovf = true → narrowTo tgt (.fin neg m x) =
    ⟨if neg then top + below else top, if tgt = .s8 ∨ tgt = .s4 then fNV ||| fNX else fOF ||| fNX, true⟩) ∧
  ∀ sig, narrowTo tgt (.nan sig) = ⟨nan, if sig = true ∨ (tgt = .s8 ∨ tgt = .s4) ∨ tgt = .e2m1 then fNV else 0, false⟩

theorem narrows_float {tgt : NarrowFmt} {f : FSpec} {emax mx : Nat} (ht : f.Tops emax mx) (hto : narrowTo tgt = narrow f .rn true)
    (hval : narrowVal tgt = fval f) (hint : ¬(tgt = .s8 ∨ tgt = .s4)) (hnan : tgt = .e2m1 ↔ f.kind = .e2m1) :
    Narrows tgt f.width f.maxCode (2 ^ (f.eb + f.mb)) f.nan := by
  rw [Narrows, hto, hval]
  refine ⟨fun c hc neg m x h => ?held, fun neg m x h => ?overflow, fun sig => ?isNan⟩
  case held =>
    rw [h]
    exact roundF_fval ht hc h
  case overflow =>
    rw [if_neg hint]
    refine (roundF_overflow h).trans ?_
    cases neg <;> rfl
  case isNan => cases sig <;> simp [narrow, FRes.withFlag, fpsIf, hint, hnan]

theorem narrows_int {tgt : NarrowFmt} {w : Nat} (hw : 0 < w) (hto : narrowTo tgt = narrowInt w .rn) (hval : narrowVal tgt = intVal w)
    (hint : tgt = .s8 ∨ tgt = .s4) : Narrows tgt w (2 ^ (w - 1) - 1) 1 0 := by
  rw [Narrows, hto, hval]
  refine ⟨fun c hc neg m x h => narrowInt_intVal hw hc, fun neg m x h => ?overflow, fun sig => ?isNan⟩
  case overflow =>
    rw [if_pos hint]
    exact narrowInt_overflow hw h
  case isNan =>
    rw [if_pos (.inr (.inl hint))]
    rfl

/-! ### The instruction -/

/-- CVTNE where its operands are in range, something executes, and no enabled exception is raised (R107, R139). -/
theorem execCvtne_eq {h : Hdr} {s s1 : State} {x : Cx} {bg : Blk} {tgt : NarrowFmt} {d : Reg} {a : Src} (hs : Issues h s x s1)
    (hk : (x.kernel.r1 d && x.kernel.s1 a) = true) {r : Res}
    (hr : joinRes (byThread ((List.range (64 / bg.size)).flatMap fun blk => (x.blockThreads bg.size blk).zip
      (feedBlock x.kernel.ftz tgt (fun t => (x.rd t a).toNat) d 0 (x.blockThreads bg.size blk)))) = r)
    (hf : r.fps &&& x.kernel.fpEnables = 0) :
    exec (.cvtne h bg tgt d a) s = retires x s1 2 (some 6) (Dest.reg d 1) r.ws r.fps r.sat := by
  subst hr
  exact compute_done (ok := fun k => k.r1 d && k.s1 a) hs.begins hs.runs hk rfl hf

/-- Settles O11: the chain's step by its two branches, the order of threads by the sort, and each target's narrowing by rounding a
value that the format holds. -/
theorem errorFeedback : Obligations.ErrorFeedback := by
  unfold Obligations.ErrorFeedback
  refine ⟨fun h s x s1 bg tgt d a hs hk => ⟨execCvtne_eq hs hk rfl, fun blk => ⟨sortBy_perm .., sortBy_pairwise ..⟩⟩,
    fun ftz tgt val d res => ⟨rfl, fun t l => rfl⟩, fun ftz tgt v res => ?step, ?targets⟩
  case step =>
    rw [feedStep_eq]
    refine ⟨?code, fun h => congrArg Prod.snd (if_pos h), fun h => congrArg Prod.snd (if_neg h)⟩
    exact (apply_ite Prod.fst ..).trans (ite_self _)
  case targets =>
    intro target ht
    fin_cases ht
    · exact narrows_float (tgt := .f16) tops_f16 rfl rfl (by decide) (by decide)
    · exact narrows_float (tgt := .bf16) tops_bf16 rfl rfl (by decide) (by decide)
    · exact narrows_float (tgt := .e4m3) tops_e4m3 rfl rfl (by decide) (by decide)
    · exact narrows_float (tgt := .e5m2) tops_e5m2 rfl rfl (by decide) (by decide)
    · exact narrows_float (tgt := .e2m1) tops_e2m1 rfl rfl (by decide) (by decide)
    · exact narrows_int (tgt := .s8) (w := 8) (by decide) rfl rfl (by decide)
    · exact narrows_int (tgt := .s4) (w := 4) (by decide) rfl rfl (by decide)

end Sys2Proof.Machine
end

section
/-! PROOFS. What an instruction that computes in registers gives, in the words of the statements: the writes of every lane (R124),
the lanes of an integer type (R92, R93), and the results of floating point with the exceptions that they raise (R99, R100). -/

namespace Sys2Proof.Machine

open Sys2Proof Sys2Proof.Claims

/-! ### From the body of an instruction to what it gives -/

section
variable {h : Hdr} {s s1 : State} {x : Cx} {ok : Kernel → Bool} {cls : Nat} {delay : Option Nat} {dst : Dest}

section
variable {body : Cx → Eff} {ws : List RegWrite} {fps : Fps} {sat : Bool}

theorem compute_retires (hs : Issues h s x s1) (hk : ok x.kernel = true) (hd : body x = .done ws fps sat)
    (hf : fps &&& x.kernel.fpEnables = 0) : compute h s ok cls delay dst body = retires x s1 cls delay dst ws fps sat := by
  rw [compute_done hs.begins hs.runs hk hd hf]
  cases delay <;> rfl

/-- R100: an enabled exception is taken. -/
theorem compute_traps (hs : Issues h s x s1) (hk : ok x.kernel = true) (hd : body x = .done ws fps sat)
    (hf : fps &&& x.kernel.fpEnables ≠ 0) : compute h s ok cls delay dst body = .next (x.fpTrap s1 cls fps) := by
  simp only [compute, withCx, hs.begins, computeOn, hk, hs.runs, hd, bne_iff_ne.mpr hf]
  rfl

end

/-- A body that only writes raises nothing and clamps nothing. -/
theorem compute_writes (hs : Issues h s x s1) (hk : ok x.kernel = true) {f : Cx → Nat → List RegWrite} :
    compute h s ok cls delay dst (fun x => x.loopW (f x)) = retires x s1 cls delay dst (perThread x (f x)) 0 false :=
  compute_retires hs hk (loopW_eq x (f x)) BitVec.zero_and

/-- A body whose threads raise exceptions: the writes of all, or the trap of an enabled exception (R99, R100). -/
theorem givesFp_of_compute {i : Instr} {f : Cx → Nat → Res} {w : Nat → List RegWrite} {e : Nat → Fps} {sat : Bool}
    (hs : Issues h s x s1) (hk : ok x.kernel = true) (hi : exec i s = compute h s ok cls delay dst (fun x => x.loop (f x)))
    (hw : ∀ t, (f x t).ws = w t) (he : ∀ t, (f x t).fps = e t) (hsat : x.lanes.any (fun t => (f x t).sat) = sat) :
    GivesFp i s x s1 cls delay dst w e sat := by
  have hd : x.loop (f x) = .done (perThread x w) (raised x e) sat := by
    rw [loop_eq, joinRes_map_fps, hsat]
    simp only [hw, he]
    rfl
  exact ⟨fun hf => hi.trans (compute_retires hs hk hd hf), fun hf => hi.trans (compute_traps hs hk hd hf)⟩

end

/-! ### The lanes of an integer type -/

section
variable {h : Hdr} {s s1 : State} {x : Cx} {ok : Kernel → Bool} {ty : IntTy} {d : Reg} {a b c : Src}

theorem width_pos (ty : IntTy) : 0 < ty.width := by cases ty <;> decide

/-- What lanes joined give, lane by lane. -/
theorem lanesAre_joinLanes {g : Nat → Nat → Nat} {f : Nat → Nat → Int}
    (hg : ∀ t k, ((g t k : Nat) : Int) % 2 ^ ty.width = f t k % 2 ^ ty.width) :
    LanesAre x ty f (fun t => joinLanes ty.width ((List.range ty.lanes).map (g t))) := by
  intro t _ k hk
  rw [joinLanes_range _ _ _ _ hk, ← hg]
  push_cast
  rfl

/-- Lane results that do not clamp (R124). -/
theorem givesLanes_of_compute {i : Instr} {delay : Option Nat} {g : Cx → Nat → Nat → Nat} {f : Nat → Nat → Int}
    (hs : Issues h s x s1) (hk : ok x.kernel = true)
    (hi : exec i s = compute h s ok 1 delay (Dest.reg d ty.regs) (fun x => x.loop (fun t => lanesOut t ty d (fun k => plain (g x t k)))))
    (hg : ∀ t k, ((g x t k : Nat) : Int) % 2 ^ ty.width = f t k % 2 ^ ty.width) : GivesLanes i s x s1 ty d delay f :=
  ⟨_, lanesAre_joinLanes hg, hi.trans (compute_retires hs hk (lanes_quiet x ty d _ fun _ _ => rfl) BitVec.zero_and)⟩

theorem truncW_emod (w : Nat) (v : Int) : ((truncW w v : Nat) : Int) % 2 ^ w = v % 2 ^ w := by
  rw [truncW_cast, Int.emod_emod_of_dvd _ dvd_rfl]

theorem int1_gives {i : Instr} (F : Int → Int) (hs : Issues h s x s1) (hk : ok1 ty d a x.kernel = true)
    (hi : exec i s = int1 h ty d a (fun p => plain (truncW ty.width (F p))) s) :
    GivesLanes i s x s1 ty d (some 4) (fun t k => F (src x ty a t k)) :=
  givesLanes_of_compute hs hk hi fun _ _ => truncW_emod ..

theorem int2_gives {i : Instr} {delay : Option Nat} (F : Int → Int → Int) (hs : Issues h s x s1) (hk : ok2 ty d a b x.kernel = true)
    (hi : exec i s = int2 h ty delay d a b (fun p q => plain (truncW ty.width (F p q))) s) :
    GivesLanes i s x s1 ty d delay (fun t k => F (src x ty a t k) (src x ty b t k)) :=
  givesLanes_of_compute hs hk hi fun _ _ => truncW_emod ..

theorem int3_gives {i : Instr} {delay : Option Nat} (F : Int → Int → Int → Int) (hs : Issues h s x s1)
    (hk : ok3 ty d a b c x.kernel = true) (hi : exec i s = int3 h ty delay d a b c (fun p q r => plain (truncW ty.width (F p q r))) s) :
    GivesLanes i s x s1 ty d delay (fun t k => F (src x ty a t k) (src x ty b t k) (src x ty c t k)) :=
  givesLanes_of_compute hs hk hi fun _ _ => truncW_emod ..

/-- Lane values count modulo 2^w alone. -/
theorem givesLanes_congr {i : Instr} {delay : Option Nat} {f f' : Nat → Nat → Int}
    (hf : ∀ t k, f t k % 2 ^ ty.width = f' t k % 2 ^ ty.width) (hg : GivesLanes i s x s1 ty d delay f) :
    GivesLanes i s x s1 ty d delay f' := by
  obtain ⟨v, hv, he⟩ := hg
  exact ⟨v, fun t ht k hk => (hv t ht k hk).trans (hf t k), he⟩

end

/-! ### Quotient and remainder (R126, R127) -/

theorem two_pow_emod (w : Nat) (hw : 0 < w) : (-(2 ^ (w - 1)) : Int) % 2 ^ w = 2 ^ (w - 1) % 2 ^ w := by
  have hpow : (2 : Int) ^ w = 2 * 2 ^ (w - 1) := by exact_mod_cast two_pow_eq_twice hw
  rw [← Int.add_emod_right, hpow]
  ring_nf

/-- The one quotient that S_w does not hold wraps round to itself. -/
theorem divRem_fst_emod (signed : Bool) {w : Nat} (hw : 0 < w) (a b : Int) :
    (divRem signed w a b).1 % 2 ^ w = (if b = 0 then -1 else a.tdiv b) % 2 ^ w := by
  unfold divRem
  split
  · rfl
  · split
    case isTrue hlow =>
      simp only [Bool.and_eq_true, beq_iff_eq] at hlow
      obtain ⟨⟨-, rfl⟩, rfl⟩ := hlow
      rw [Int.tdiv_neg, Int.tdiv_one, neg_neg, two_pow_emod w hw]
    case isFalse => rfl

theorem divRem_snd (signed : Bool) (w : Nat) (a b : Int) : (divRem signed w a b).2 = if b = 0 then a else a.tmod b := by
  unfold divRem
  split
  · rfl
  · split
    case isTrue hlow =>
      simp only [Bool.and_eq_true, beq_iff_eq] at hlow
      obtain ⟨⟨-, rfl⟩, rfl⟩ := hlow
      simp
    case isFalse => rw [Int.tmod_def, Int.mul_comm]

/-- Settles O1: each lane is the low bits of what R126 says, the quotient's own case modulo 2^w. -/
theorem integerLanes : Obligations.IntegerLanes := by
  unfold Obligations.IntegerLanes
  intro h s x s1 ty d a b c hs h3 A B C
  have h2 : ok2 ty d a b x.kernel = true := (Bool.and_eq_true_iff.mp h3).1
  have h1 : ok1 ty d a x.kernel = true := (Bool.and_eq_true_iff.mp h2).1
  refine ⟨int2_gives (fun p q => p + q) hs h2 rfl, int2_gives (fun p q => p - q) hs h2 rfl, int2_gives (fun p q => p * q) hs h2 rfl,
    int2_gives (fun p q => p * q / 2 ^ ty.width) hs h2 rfl, int3_gives (fun p q r => p * q + r) hs h3 rfl,
    int2_gives min hs h2 rfl, int2_gives max hs h2 rfl, ?abs, int1_gives (fun p => -p) hs h1 rfl, ?quotient, ?remainder⟩
  case abs => exact givesLanes_congr (fun t k => by rw [Int.abs_eq_natAbs]) (int1_gives (fun p => p.natAbs) hs h1 rfl)
  case quotient =>
    exact givesLanes_congr (fun t k => divRem_fst_emod _ (width_pos ty) ..)
      (int2_gives (fun p q => (divRem ty.signed ty.width p q).1) hs h2 rfl)
  case remainder =>
    exact givesLanes_congr (fun t k => by rw [divRem_snd]) (int2_gives (fun p q => (divRem ty.signed ty.width p q).2) hs h2 rfl)

/-! ### Clamped lanes (R93) -/

theorem intLo_le_intHi (signed : Bool) (w : Nat) : intLo signed w ≤ intHi signed w := by
  have hlow : (0 : Int) < 2 ^ (w - 1) := by positivity
  have hall : (0 : Int) < 2 ^ w := by positivity
  cases signed <;> simp only [intLo, intHi, Bool.false_eq_true, if_true, if_false] <;> omega

/-- SatS_w and SatN_w clamp to the range of the type, and say so (R93). -/
theorem satTy_eq (signed : Bool) (w : Nat) (v : Int) :
    satTy signed w v = (max (intLo signed w) (min (intHi signed w) v), decide (v < intLo signed w) || decide (intHi signed w < v)) := by
  have hle := intLo_le_intHi signed w
  have hform : satTy signed w v = if v < intLo signed w then (intLo signed w, true)
      else if v > intHi signed w then (intHi signed w, true) else (v, false) := by cases signed <;> rfl
  rw [hform]
  split
  case isTrue hlow => simp [hlow, min_eq_right (hlow.le.trans hle), hlow.le]
  case isFalse hlow =>
    split
    case isTrue hhigh => simp [hlow, hhigh, min_eq_left (le_of_lt hhigh), hle]
    case isFalse hhigh => simp [hlow, hhigh, min_eq_right (not_lt.mp hhigh), not_lt.mp hlow]

theorem satLane_eq (ty : IntTy) (v : Int) :
    satLane ty v = (truncW ty.width (max (intLo ty.signed ty.width) (min (intHi ty.signed ty.width) v)),
      decide (v < intLo ty.signed ty.width) || decide (intHi ty.signed ty.width < v)) := by
  rw [satLane, satTy_eq]

/-- Lanes whose clamps are told. -/
theorem lanes_loop (x : Cx) (ty : IntTy) (d : Reg) (g : Nat → Nat → LaneOut) :
    x.loop (fun t => lanesOut t ty d (g t)) =
      .done (perThread x (fun t => wrTy t ty d (joinLanes ty.width ((List.range ty.lanes).map (fun k => (g t k).1))))) 0
        (x.lanes.any (fun t => (List.range ty.lanes).any (fun k => (g t k).2))) := by
  rw [loop_quiet _ _ fun _ => rfl]
  simp [lanesOut, perThread, Function.comp_def]

/-- Settles O2: the clamp of R93 lane by lane, and the flag where any lane of any thread clamps. -/
theorem saturatingLanes : Obligations.SaturatingLanes := by
  unfold Obligations.SaturatingLanes
  intro h s x s1 ty d a b hs hk A B lo hi gives
  have hgives {i : Instr} (F : Int → Int → Int) (he : exec i s = int2 h ty (some 4) d a b (fun p q => satLane ty (F p q)) s) :
      gives i (fun t k => F (A t k) (B t k)) := by
    have hrun := he.trans (compute_retires hs hk (lanes_loop ..) BitVec.zero_and)
    simp only [satLane_eq] at hrun
    exact ⟨_, lanesAre_joinLanes fun t k => truncW_emod .., hrun⟩
  exact ⟨hgives (fun p q => p + q) rfl, hgives (fun p q => p - q) rfl⟩

end Sys2Proof.Machine
end

section
/-! PROOFS. Carry and borrow, the wide multiply-add and the address sum (R126, R127). -/

namespace Sys2Proof.Machine

open Sys2Proof Sys2Proof.Claims

/-! ### Instructions that write one word, one pair or one predicate -/

section
variable {i : Instr} {h : Hdr} {s s1 : State} {x : Cx} {ok : Kernel → Bool} {cls : Nat} {delay : Option Nat}

theorem givesWord_of_compute {d : Reg} {f : Cx → Nat → W32} {v : Nat → W32} (hs : Issues h s x s1) (hk : ok x.kernel = true)
    (hi : exec i s = compute h s ok cls delay (Dest.reg d 1) (fun x => x.loopW (fun t => wrReg t d (f x t)))) (hv : ∀ t, f x t = v t) :
    GivesWord i s x s1 cls delay d v := by
  obtain rfl : f x = v := funext hv
  exact hi.trans (compute_writes hs hk)

theorem givesPair_of_compute {d : Reg} {f : Cx → Nat → W64} {v : Nat → W64} (hs : Issues h s x s1) (hk : ok x.kernel = true)
    (hi : exec i s = compute h s ok cls delay (Dest.reg d 2) (fun x => x.loopW (fun t => wrReg64 t d (f x t)))) (hv : ∀ t, f x t = v t) :
    GivesPair i s x s1 cls delay d v := by
  obtain rfl : f x = v := funext hv
  exact hi.trans (compute_writes hs hk)

theorem givesPred_of_compute {p : Pred} {f : Cx → Nat → Bool} {v : Nat → Bool} (hs : Issues h s x s1) (hk : ok x.kernel = true)
    (hi : exec i s = compute h s ok cls delay (predDest p) (fun x => x.loopW (fun t => wrPred t p (f x t)))) (hv : ∀ t, f x t = v t) :
    GivesPred i s x s1 cls delay p v := by
  obtain rfl : f x = v := funext hv
  exact hi.trans (compute_writes hs hk)

end

/-! ### Carry, wide sums and addresses -/

theorem ofNat_truncW (w : Nat) (v : Int) : BitVec.ofNat w (truncW w v) = BitVec.ofInt w v := by
  apply BitVec.eq_of_toNat_eq
  rw [BitVec.toNat_ofNat, Nat.mod_eq_of_lt (truncW_lt w v)]
  simp [truncW]

section
variable {h : Hdr} {s s1 : State} {x : Cx} {d : Reg} {a b : Src} {pc : Pred}

theorem carryOp_gives {i : Instr} (f : Int → Int → Int → Int) (out : Int → Bool) {v : Nat → W32} {p : Nat → Bool} (hs : Issues h s x s1)
    (hk : (x.kernel.r1 d && x.kernel.s1 a && x.kernel.s1 b) = true) (hi : exec i s = carryOp h d a b pc f out s)
    (hv : ∀ t, let r := f (x.rd t a).toNat (x.rd t b).toNat (if x.pred t pc then 1 else 0)
      BitVec.ofInt 32 r = v t ∧ out r = p t) :
    exec i s = .next (retireFixed x s1 1 4 ((Dest.reg d 1).withPred pc) (perThread x (fun t => wrReg t d (v t) ++ wrPred t pc (p t))) 0
      false) := by
  have hrun := hi.trans (compute_writes (ok := fun k => k.r1 d && k.s1 a && k.s1 b) hs hk)
  simp only [ofNat_truncW, hv] at hrun
  exact hrun

end

/-- Settles O3: sums and differences of words are those of the numbers modulo 2^32, and a carry or borrow is what leaves that range. -/
theorem carryWideAddress : Obligations.CarryWideAddress := by
  unfold Obligations.CarryWideAddress
  intro h s x s1 ty d a b c pc sh hs A B n cin both
  have hcin (t : Nat) : (if x.pred t pc then 1 else 0 : Int) = (cin t).toNat := by
    simp only [cin]
    split <;> rfl
  refine ⟨fun hk => ⟨carryOp_gives (fun p q r => p + q + r) (fun v => decide (v ≥ 2 ^ 32)) hs hk rfl fun t => ?carry,
    carryOp_gives (fun p q r => p - q - r) (fun v => decide (v < 0)) hs hk rfl fun t => ?borrow⟩,
    fun hk => givesPair_of_compute (ok := fun k => k.rw true d && k.s1 a && k.s1 b && k.sw true c) hs hk rfl fun t => ?wide,
    fun hk => givesPair_of_compute (ok := fun k => k.rw true d && k.sw true a && k.s1 b) hs hk rfl fun t => ?address⟩
  case carry =>
    simp only [hcin]
    refine ⟨by simp [BitVec.ofInt_add, A, B], ?_⟩
    simp only [A, B]
    norm_cast
  case borrow =>
    simp only [hcin]
    refine ⟨?_, by simp only [decide_eq_decide, A, B]; omega⟩
    simp [sub_eq_add_neg, BitVec.ofInt_add, BitVec.ofInt_neg, A, B]
  case wide => rw [ofNat_truncW, BitVec.ofInt_add, BitVec.ofInt_natCast, BitVec.ofNat_toNat, BitVec.setWidth_eq]
  case address => rw [ofNat_truncW, BitVec.ofInt_add, BitVec.ofInt_natCast, BitVec.ofNat_toNat, BitVec.setWidth_eq]
end Sys2Proof.Machine
end

section
/-! PROOFS. The bitwise operations, fields and bytes, bit by bit (R128). -/

namespace Sys2Proof.Machine

open Sys2Proof Sys2Proof.Claims

section
variable {i : Instr} {h : Hdr} {s s1 : State} {x : Cx} {ok : Kernel → Bool} {ty : IntTy} {d : Reg} {a b c : Src}

theorem givesBits_of_compute {g : Cx → Nat → Nat} {f : Nat → Nat → Bool} (hs : Issues h s x s1) (hk : ok x.kernel = true)
    (hi : exec i s = compute h s ok 1 (some 4) (Dest.reg d ty.regs) (fun x => x.loopW (fun t => wrTy t ty d (g x t))))
    (hg : ∀ t, ∀ k < 32 * ty.regs, (g x t).testBit k = f t k) : GivesBits i s x s1 ty d f :=
  ⟨g x, fun t _ => hg t, hi.trans (compute_writes hs hk)⟩

theorem testBit_ones (ty : IntTy) (k : Nat) : (ones ty).testBit k = decide (k < 32 * ty.regs) := by
  unfold ones IntTy.regs
  split <;> rw [Nat.testBit_two_pow_sub_one]

theorem bitwise2_gives (F : Nat → Nat → Nat) {f : Bool → Bool → Bool} (hs : Issues h s x s1) (hk : ok2 ty d a b x.kernel = true)
    (hi : exec i s = bitwise2 h ty d a b F s) (hF : ∀ p q, ∀ k < 32 * ty.regs, (F p q).testBit k = f (p.testBit k) (q.testBit k)) :
    GivesBits i s x s1 ty d (fun t k => f ((x.rdTy t ty a).testBit k) ((x.rdTy t ty b).testBit k)) :=
  givesBits_of_compute hs hk hi fun _ => hF _ _

theorem word3_gives (F : W32 → W32 → W32 → W32) (hs : Issues h s x s1)
    (hk : (x.kernel.r1 d && x.kernel.s1 a && x.kernel.s1 b && x.kernel.s1 c) = true) (hi : exec i s = word3 h d a b c F s) :
    GivesWord i s x s1 1 (some 4) d (fun t => F (x.rd t a) (x.rd t b) (x.rd t c)) :=
  givesWord_of_compute (ok := fun k => k.r1 d && k.s1 a && k.s1 b && k.s1 c) hs hk hi fun _ => rfl

end

/-! ### Numbers as lists of bits -/

theorem testBit_bitsNat (l : List Bool) (k : Nat) : (bitsNat l).testBit k = l.getD k false := by
  induction l generalizing k with
  | nil => simp [bitsNat]
  | cons b t ih =>
    cases k with
    | zero => cases b <;> simp [bitsNat, Nat.testBit_zero] 
    | succ k =>
      have hhalf : (b.toNat + 2 * bitsNat t) / 2 = bitsNat t := by
        have hb := b.toNat_lt
        omega
      rw [bitsNat, Nat.testBit_succ, List.getD_cons_succ, ← ih, hhalf]

theorem testBit_reversed (w n : Nat) {k : Nat} (hk : k < w) : (bitsNat (natBits w n).reverse).testBit k = n.testBit (w - 1 - k) := by
  rw [testBit_bitsNat, List.getD_eq_getElem _ _ (by simpa [natBits] using hk)]
  simp [natBits]

theorem width_of_std {ty : IntTy} (h : ty.std = true) : ty.width = 32 * ty.regs := by
  cases ty with
  | s32 | n32 | s64 | n64 => rfl
  | s16x2 | n16x2 | s8x4 | n8x4 => cases h

/-! ### The table of BOOL3, fields and bytes -/

theorem getLsbD_bool3Word (fn : BitVec 8) (a b c : W32) {k : Nat} (hk : k < 32) : (bool3Word fn a b c).getLsbD k =
    fn.getLsbD ((a.getLsbD k).toNat + 2 * (b.getLsbD k).toNat + 4 * (c.getLsbD k).toNat) := by
  rw [bool3Word, getLsbD_maskOf _ hk]
  simp [hk]

theorem toNat_pair (a b : W32) : (b ++ a : W64).toNat = b.toNat * 2 ^ 32 + a.toNat := by
  rw [BitVec.toNat_append, ← Nat.shiftLeft_add_eq_or_of_lt a.isLt, Nat.shiftLeft_eq]

theorem fshr_eq (a b c : W32) : BitVec.ofNat 32 ((b.toNat * 2 ^ 32 + a.toNat) / 2 ^ (c.toNat % 64)) =
    ((b ++ a : W64) >>> (c.toNat % 64)).extractLsb' 0 32 := by
  apply BitVec.eq_of_toNat_eq
  simp [toNat_pair, BitVec.extractLsb'_toNat, Nat.shiftRight_eq_div_pow]

/-- The field of BFX and BFI where it has a bit. -/
theorem fieldOf_eq (b : W32) : fieldOf b = if 32 ≤ b.toNat % 256 ∨ b.toNat / 256 % 256 = 0 then none
    else some (b.toNat % 256, min (b.toNat / 256 % 256) (32 - b.toNat % 256)) := rfl

theorem word_of_no_field {b : W32} (hf : fieldOf b = none) (signed : Bool) (a c : W32) : bfxWord signed a b = 0 ∧ bfiWord a b c = c := by
  simp only [bfxWord, bfiWord, hf, and_self]

theorem getLsbD_fieldMask (pos len : Nat) {k : Nat} (hk : k < 32) :
    (BitVec.ofNat 32 ((2 ^ len - 1) * 2 ^ pos)).getLsbD k = decide (pos ≤ k ∧ k < pos + len) := by
  rw [BitVec.getLsbD_ofNat, Nat.testBit_mul_two_pow, Nat.testBit_two_pow_sub_one]
  by_cases hle : pos ≤ k
  · simp [hk, hle, Nat.sub_lt_iff_lt_add hle, Nat.add_comm]
  · simp [hle]

theorem getLsbD_bfiWord {a b c : W32} {pos len : Nat} (hf : fieldOf b = some (pos, len)) {k : Nat} (hk : k < 32) :
    (bfiWord a b c).getLsbD k = if pos ≤ k ∧ k < pos + len then a.getLsbD (k - pos) else c.getLsbD k := by
  simp only [bfiWord, hf, BitVec.getLsbD_or, BitVec.getLsbD_and, BitVec.getLsbD_not, getLsbD_fieldMask pos len hk,
    BitVec.getLsbD_shiftLeft]
  by_cases hin : pos ≤ k ∧ k < pos + len
  · simp [hk, hin]
  · simp [hk, hin]

theorem asInt_true_eq_toInt (len n : Nat) : asInt true len n = (BitVec.ofNat len n).toInt := by
  rw [BitVec.toInt_eq_toNat_cond, BitVec.toNat_ofNat, asInt]
  rcases Nat.eq_zero_or_pos len with rfl | hlen
  · simp [Nat.mod_one]
  · have hpow := two_pow_eq_twice hlen
    have hhalf : 2 * (n % 2 ^ len) < 2 ^ len ↔ ¬ 2 ^ (len - 1) ≤ n % 2 ^ len := by omega
    by_cases hneg : 2 ^ (len - 1) ≤ n % 2 ^ len <;> simp [hhalf, hneg]

/-- The low `len` bits of a number, as the value that a sign- or zero-extended field of them has (R92). -/
theorem ofInt_asInt (signed : Bool) (w len n : Nat) : BitVec.ofInt w (asInt signed len n) =
    if signed then (BitVec.ofNat len n).signExtend w else (BitVec.ofNat len n).zeroExtend w := by
  cases signed with
  | true => exact congrArg (BitVec.ofInt w) (asInt_true_eq_toInt len n)
  | false =>
    have hcast : asInt false len n = ((n % 2 ^ len : Nat) : Int) := rfl
    apply BitVec.eq_of_toNat_eq
    rw [hcast, BitVec.ofInt_natCast]
    simp

theorem getLsbD_bfxWord {signed : Bool} {a b : W32} {pos len : Nat} (hf : fieldOf b = some (pos, len)) (hlen : 0 < len) {k : Nat}
    (hk : k < 32) : (bfxWord signed a b).getLsbD k =
      if k < len then a.getLsbD (pos + k) else signed && a.getLsbD (pos + len - 1) := by
  have hbit {j : Nat} (hj : j < len) : (BitVec.ofNat len (a.toNat / 2 ^ pos)).getLsbD j = a.getLsbD (pos + j) := by
    rw [BitVec.getLsbD_ofNat, Nat.testBit_div_two_pow, Nat.add_comm, BitVec.testBit_toNat]
    simp [hj]
  have htop : len - 1 < len := Nat.sub_lt hlen one_pos
  simp only [bfxWord, hf, ofInt_asInt]
  cases signed with
  | true =>
    rw [if_pos rfl, BitVec.getLsbD_signExtend, BitVec.msb_eq_getLsbD_last, hbit htop]
    simp only [hk, decide_true, Bool.true_and, Nat.add_sub_assoc hlen]
    split
    case isTrue hlow => exact hbit hlow
    case isFalse => rfl
  | false =>
    rw [if_neg Bool.false_ne_true, BitVec.zeroExtend, BitVec.getLsbD_setWidth]
    simp only [hk, decide_true, Bool.true_and, Bool.false_and]
    split
    case isTrue hlow => exact hbit hlow
    case isFalse hhigh => exact BitVec.getLsbD_of_ge _ _ (not_lt.mp hhigh)

theorem testBit_joinLanes (w n : Nat) (g : Nat → Nat) {k j : Nat} (hk : k < n) (hj : j < w) :
    (joinLanes w ((List.range n).map g)).testBit (w * k + j) = (g k).testBit j := by
  have hlane := congrArg (Nat.testBit · j) (joinLanes_range w n g k hk)
  simpa [Nat.testBit_mod_two_pow, Nat.testBit_div_two_pow, hj, Nat.add_comm] using hlane

theorem testBit_bselByte (v : Nat) {sel j : Nat} (hs : sel < 32) (hj : j < 8) : (bselByte v sel).testBit j =
    if sel / 8 = 0 then v.testBit (8 * (sel % 8) + j) else if sel / 8 = 1 then false
      else if sel / 8 = 2 then v.testBit (8 * (sel % 8) + 7) else !v.testBit (8 * (sel % 8) + j) := by
  have hbyte {i : Nat} (hi : i < 8) : (v / 2 ^ (8 * (sel % 8)) % 256).testBit i = v.testBit (8 * (sel % 8) + i) := by
    rw [show (256 : Nat) = 2 ^ 8 from rfl, Nat.testBit_mod_two_pow, Nat.testBit_div_two_pow, Nat.add_comm i]
    simp [hi]
  have hlt : v / 2 ^ (8 * (sel % 8)) % 256 < 2 ^ 8 := Nat.mod_lt _ (by decide)
  have hq : sel / 8 = 0 ∨ sel / 8 = 1 ∨ sel / 8 = 2 ∨ sel / 8 = 3 := by omega
  simp only [bselByte]
  rcases hq with hq | hq | hq | hq <;> simp only [hq]
  · exact hbyte hj
  · exact Nat.zero_testBit j
  · have htop : 128 ≤ v / 2 ^ (8 * (sel % 8)) % 256 ↔ v.testBit (8 * (sel % 8) + 7) = true := by
      rw [← hbyte (by decide), Nat.testBit_eq_decide_div_mod_eq]
      simp only [decide_eq_true_eq]
      omega
    by_cases hneg : v.testBit (8 * (sel % 8) + 7) = true
    · rw [if_pos (htop.mpr hneg), show 255 = 2 ^ 8 - 1 from rfl, Nat.testBit_two_pow_sub_one]
      simp [hj, hneg]
    · rw [if_neg (mt htop.mp hneg)]
      simp [hneg]
  · rw [show 255 - v / 2 ^ (8 * (sel % 8)) % 256 = 2 ^ 8 - (v / 2 ^ (8 * (sel % 8)) % 256 + 1) by omega,
      Nat.testBit_two_pow_sub_succ hlt, hbyte hj]
    simp [hj]

theorem getLsbD_bselWord (a b c : W32) {k j : Nat} (hk : k < 4) (hj : j < 8) :
    (bselWord a b c).getLsbD (8 * k + j) =
      (bselByte (b ++ a : W64).toNat (c.toNat / 2 ^ (5 * k) % 32)).testBit j := by
  rw [bselWord, BitVec.getLsbD_ofNat, testBit_joinLanes 8 4 _ hk hj, toNat_pair]
  have hin : 8 * k + j < 32 := by omega
  simp [hin]

/-- Settles O4: the bit of each result at a place, by the place's byte or field. -/
theorem bitwiseOperations : Obligations.BitwiseOperations := by
  unfold Obligations.BitwiseOperations
  intro h s x s1 ty d a b c fn hs A B
  refine ⟨fun h2 => ?bits, fun h3 => ?words⟩
  case bits =>
    have h1 : ok1 ty d a x.kernel = true := (Bool.and_eq_true_iff.mp h2).1
    refine ⟨bitwise2_gives (· &&& ·) hs h2 rfl fun p q k _ => Nat.testBit_and p q k,
      bitwise2_gives (· ||| ·) hs h2 rfl fun p q k _ => Nat.testBit_or p q k,
      bitwise2_gives (· ^^^ ·) hs h2 rfl fun p q k _ => Nat.testBit_xor p q k,
      bitwise2_gives (f := fun p q => p && !q) (fun p q => p &&& (ones ty ^^^ q)) hs h2 rfl fun p q k hk => ?andn,
      givesBits_of_compute hs h1 rfl fun t k hk => ?not, fun hstd => givesBits_of_compute hs h1 rfl fun t k hk => ?reversed⟩
    case andn => simp [testBit_ones, hk]
    case not => simp [testBit_ones, hk, A]
    case reversed =>
      rw [← width_of_std hstd] at hk ⊢
      exact testBit_reversed _ _ hk
  case words =>
    have h2 : (x.kernel.r1 d && x.kernel.s1 a && x.kernel.s1 b) = true := (Bool.and_eq_true_iff.mp h3).1
    refine ⟨⟨_, fun t _ k hk => getLsbD_bool3Word fn _ _ _ hk, word3_gives (bool3Word fn) hs h3 rfl⟩, ?shift, ?fields, ?bytes⟩
    case shift =>
      refine givesWord_of_compute (ok := fun k => k.r1 d && k.s1 a && k.s1 b && k.s1 c) hs h3 rfl fun t => fshr_eq _ _ _
    case fields =>
      intro pos len none_ n
      refine ⟨⟨_, fun t _ => ⟨fun hn => ?_, fun hn k hk => ?_⟩, word3_gives bfiWord hs h3 rfl⟩,
        ⟨fun t => bfxWord ty.signed (x.rd t a) (x.rd t b), fun t _ => ⟨fun hn => ?_, fun hn k hk => ?_⟩, 
          givesWord_of_compute (ok := fun k => k.r1 d && k.s1 a && k.s1 b) hs h2 rfl fun _ => rfl⟩⟩
      · exact (word_of_no_field (if_pos hn) ty.signed _ _).2
      · exact getLsbD_bfiWord (if_neg hn) hk
      · exact (word_of_no_field (if_pos hn) ty.signed _ 0).1
      · have : 0 < n t := by simp only [n, none_] at hn ⊢; omega
        exact getLsbD_bfxWord (if_neg hn) this hk
    case bytes =>
      refine ⟨_, fun t _ k hk j hj => ?_, word3_gives bselWord hs h3 rfl⟩
      rw [getLsbD_bselWord _ _ _ hk hj]
      exact testBit_bselByte _ (Nat.mod_lt _ (by decide)) hj

end Sys2Proof.Machine
end

section
/-! PROOFS. Shifts, rotation and the counts of bits (R128, R129). -/

namespace Sys2Proof.Machine

open Sys2Proof Sys2Proof.Claims

/-! ### Shifts by counts that may pass the width -/

theorem truncW_natCast (w n : Nat) : truncW w n = n % 2 ^ w := by
  have hcast := truncW_cast w n
  exact_mod_cast hcast

theorem lane_false (w k n : Nat) : lane false w k n = ((n / 2 ^ (w * k) % 2 ^ w : Nat) : Int) := rfl

theorem lane_false_bounds (w k n : Nat) : 0 ≤ lane false w k n ∧ lane false w k n < 2 ^ w := by
  rw [lane_false]
  exact ⟨Int.natCast_nonneg _, by exact_mod_cast Nat.mod_lt _ (Nat.two_pow_pos w)⟩

theorem asInt_bounds (signed : Bool) {w : Nat} (hw : 0 < w) (n : Nat) :
    intLo signed w ≤ asInt signed w n ∧ asInt signed w n ≤ intHi signed w := by
  have hlt : n % 2 ^ w < 2 ^ w := Nat.mod_lt _ (Nat.two_pow_pos w)
  cases signed with
  | false =>
    have htop : ((n % 2 ^ w : Nat) : Int) < 2 ^ w := by exact_mod_cast hlt
    exact ⟨Int.natCast_nonneg _, Int.le_sub_one_of_lt htop⟩
  | true =>
    obtain ⟨hlo, hhi, -⟩ := asInt_true_spec hw hlt
    have hmod : asInt true w (n % 2 ^ w) = asInt true w n := by simp only [asInt, Nat.mod_mod]
    rw [hmod] at hlo hhi
    exact ⟨hlo, hhi⟩

/-- A left shift past the width leaves nothing. -/
theorem shl_emod (w n : Nat) (v : Int) : (((if n ≥ w then 0 else truncW w (v * 2 ^ n)) : Nat) : Int) % 2 ^ w = v * 2 ^ n % 2 ^ w := by
  split
  case isTrue hn => exact (Int.emod_eq_zero_of_dvd ((pow_dvd_pow 2 hn).mul_left v)).symm
  case isFalse => exact truncW_emod w _

/-- A right shift past the width of a value that the width holds leaves nothing. -/
theorem shr_emod {w n : Nat} {v : Int} (h0 : 0 ≤ v) (hv : v < 2 ^ w) :
    (((if n ≥ w then 0 else truncW w (v / 2 ^ n)) : Nat) : Int) % 2 ^ w = v / 2 ^ n % 2 ^ w := by
  split
  case isTrue hn =>
    have hle : (2 : Int) ^ w ≤ 2 ^ n := pow_le_pow_right₀ (by decide) hn
    rw [Int.ediv_eq_zero_of_lt h0 (hv.trans_le hle)]
    rfl
  case isFalse => exact truncW_emod w _

/-- An arithmetic shift past the width leaves the sign. -/
theorem sar_past {w n : Nat} {v : Int} (hlo : -(2 ^ (w - 1)) ≤ v) (hhi : v ≤ 2 ^ (w - 1) - 1) :
    v / 2 ^ min n (w - 1) = v / 2 ^ n := by
  rcases le_or_gt n (w - 1) with hn | hn
  · rw [min_eq_left hn]
  · have hle : (2 : Int) ^ (w - 1) ≤ 2 ^ n := pow_le_pow_right₀ (by decide) hn.le
    rw [min_eq_right hn.le]
    rcases lt_or_ge v 0 with hneg | hpos
    · rw [Int.ediv_eq_neg_one_of_neg_of_le hneg (by omega), Int.ediv_eq_neg_one_of_neg_of_le hneg (by omega)]
    · rw [Int.ediv_eq_zero_of_lt hpos (by omega), Int.ediv_eq_zero_of_lt hpos (by omega)]

/-- The two parts of a rotation share no bit. -/
theorem rol_emod {w m : Nat} {v : Int} (hm : m < w) (h0 : 0 ≤ v) (hv : v < 2 ^ w) :
    ((truncW w (v * 2 ^ m) ||| truncW w (v / 2 ^ (w - m)) : Nat) : Int) % 2 ^ w = (v * 2 ^ m + v / 2 ^ (w - m)) % 2 ^ w := by
  obtain ⟨n, rfl⟩ := Int.eq_ofNat_of_zero_le h0
  have hn : n < 2 ^ w := by exact_mod_cast hv
  have hlow : n / 2 ^ (w - m) < 2 ^ m := by
    rw [Nat.div_lt_iff_lt_mul (Nat.two_pow_pos _), ← pow_add, Nat.add_sub_cancel' hm.le]
    exact hn
  have hhigh : n * 2 ^ m % 2 ^ w = 2 ^ m * (n % 2 ^ (w - m)) := by
    rw [← Nat.mul_mod_mul_left, ← pow_add, Nat.add_sub_cancel' hm.le, Nat.mul_comm]
  have hleft : truncW w (n * 2 ^ m) = n * 2 ^ m % 2 ^ w := by exact_mod_cast truncW_natCast w (n * 2 ^ m)
  have hright : truncW w (n / 2 ^ (w - m)) = n / 2 ^ (w - m) := by
    have hfit := truncW_of_lt (hlow.trans_le (Nat.pow_le_pow_right two_pos hm.le))
    exact_mod_cast hfit
  rw [hleft, hright, hhigh, ← Nat.two_pow_add_eq_or_of_lt hlow, ← hhigh]
  exact_mod_cast Nat.mod_add_mod ..

section
variable {i : Instr} {h : Hdr} {s s1 : State} {x : Cx} {ty : IntTy} {d : Reg} {a b : Src}

theorem shiftOp_gives (signed : Bool) (F : Int → Nat → Nat) {f : Int → Nat → Int} (hs : Issues h s x s1)
    (hk : (ok1 ty d a x.kernel && x.kernel.s1 b) = true) (hi : exec i s = shiftOp h ty d a b signed F s)
    (hF : ∀ k v n, ((F (lane signed ty.width k v) n : Nat) : Int) % 2 ^ ty.width = f (lane signed ty.width k v) n % 2 ^ ty.width) :
    GivesLanes i s x s1 ty d (some 4) (fun t k => f (lane signed ty.width k (x.rdTy t ty a)) ((x.rd t b).toNat % 256)) :=
  givesLanes_of_compute (ok := fun k => ok1 ty d a k && k.s1 b) hs hk hi fun _ _ => hF ..

/-! ### Counts -/

theorem bitCount_gives (F : List Bool → Nat) {f : Nat → Nat} (hs : Issues h s x s1)
    (hk : (x.kernel.r1 d && x.kernel.sw ty.wide a) = true) (hi : exec i s = bitCount h ty d a F s)
    (hF : ∀ t, F (natBits ty.width (x.rdTy t ty a)) = f t) :
    GivesWord i s x s1 1 (some 4) d (fun t => BitVec.ofNat 32 (f t)) :=
  givesWord_of_compute (ok := fun k => k.r1 d && k.sw ty.wide a) hs hk hi fun _ => by rw [hF]

end

theorem countTrue_natBits (w v : Nat) : countTrue (natBits w v) = (List.range w).countP (fun k => v.testBit k) := by
  rw [countTrue, natBits, ← List.countP_eq_length_filter, List.countP_map]
  rfl

/-- The false bits before the first true one, of a list that is told by place. -/
theorem leadFalse_map_range (w : Nat) (g : Nat → Bool) : leadFalse ((List.range w).map g) = ((List.range w).find? g).getD w := by
  have hlead : leadFalse ((List.range w).map g) = (List.range w).findIdx g := by
    have hnot : (fun b => !!b) ∘ g = g := by funext k; simp
    rw [leadFalse, List.takeWhile_eq_take_findIdx_not, List.length_take, min_eq_left List.findIdx_le_length, List.findIdx_map, hnot]
  rw [hlead, List.find?_eq_getElem?_findIdx]
  have hle : (List.range w).findIdx g ≤ w := by simpa using List.findIdx_le_length (xs := List.range w) (p := g)
  rcases hle.lt_or_eq with hlt | heq
  · rw [List.getElem?_range hlt, Option.getD_some]
  · rw [heq, List.getElem?_eq_none (by simp), Option.getD_none]

theorem natBits_reverse (w v : Nat) : (natBits w v).reverse = (List.range w).map (fun k => v.testBit (w - 1 - k)) :=
  List.ext_getElem (by simp [natBits]) fun k _ _ => by simp [natBits]

/-- Settles O5: a count past the width leaves zeros or the sign, the parts of a rotation share no bit, and the counts go by place. -/
theorem shiftsAndCounts : Obligations.ShiftsAndCounts := by
  unfold Obligations.ShiftsAndCounts
  intro h s x s1 ty d a b hs n U S one
  have hw := width_pos ty
  refine ⟨fun hk => ⟨?shl, ?shr, ?sar, ?rol⟩, fun hk => ⟨?popc, ?clz, ?ctz⟩⟩
  case shl =>
    exact shiftOp_gives (f := fun v n => v * 2 ^ n) false (fun v n => if n ≥ ty.width then 0 else truncW ty.width (v * 2 ^ n)) hs hk rfl
      fun k v n => shl_emod ..
  case shr =>
    refine shiftOp_gives (f := fun v n => v / 2 ^ n) false (fun v n => if n ≥ ty.width then 0 else truncW ty.width (v / 2 ^ n)) hs hk rfl
      fun k v n => ?_
    obtain ⟨h0, htop⟩ := lane_false_bounds ty.width k v
    exact shr_emod h0 htop
  case sar =>
    refine shiftOp_gives (f := fun v n => v / 2 ^ n) true (fun v n => truncW ty.width (v / 2 ^ min n (ty.width - 1))) hs hk rfl
      fun k v n => ?_
    obtain ⟨hlo, hhi⟩ := asInt_bounds true hw (v / 2 ^ (ty.width * k))
    rw [truncW_emod, lane, sar_past hlo hhi]
  case rol =>
    refine shiftOp_gives (f := fun v n => v * 2 ^ (n % ty.width) + v / 2 ^ (ty.width - n % ty.width)) false
      (fun v n => truncW ty.width (v * 2 ^ (n % ty.width)) ||| truncW ty.width (v / 2 ^ (ty.width - n % ty.width))) hs hk rfl
      fun k v n => ?_
    obtain ⟨h0, htop⟩ := lane_false_bounds ty.width k v
    exact rol_emod (Nat.mod_lt _ hw) h0 htop
  case popc => exact bitCount_gives countTrue hs hk rfl fun v => countTrue_natBits ..
  case clz => exact bitCount_gives (fun l => leadFalse l.reverse) hs hk rfl fun v => by rw [natBits_reverse, leadFalse_map_range]
  case ctz => exact bitCount_gives leadFalse hs hk rfl fun v => leadFalse_map_range ..

end Sys2Proof.Machine
end

section
/-! PROOFS. Compares, selection, moves, special registers and predicates (R130-R133). -/

namespace Sys2Proof.Machine

open Sys2Proof Sys2Proof.Claims

theorem begin_refclk {s s1 : State} {h : Hdr} {x : Cx} (hb : s.begin h = some (x, s1)) : s1.refclk = s.refclk := by
  obtain ⟨cr, -, -, -, -, -, -, -, rfl⟩ := State.begin_cases hb
  rfl

theorem moviWord_eq (sx hi : Bool) (imm : BitVec 16) :
    moviWord sx hi imm = if hi then imm ++ 0#16 else if sx then imm.signExtend 32 else 0#16 ++ imm := by
  have hlow : imm.zeroExtend 32 = (0#16 ++ imm : W32) := by
    apply BitVec.eq_of_toNat_eq
    rw [BitVec.toNat_append]
    simpa using imm.isLt.trans (by decide)
  have hhigh : imm.zeroExtend 32 <<< 16 = (imm ++ 0#16 : W32) := by
    apply BitVec.eq_of_toNat_eq
    rw [BitVec.toNat_append]
    have hlt := imm.isLt
    simp [Nat.shiftLeft_eq]
    omega
  rw [moviWord, hhigh, hlow]

section
variable {i : Instr} {h : Hdr} {s s1 : State} {x : Cx} {cls : Nat} {delay : Option Nat}

/-- An instruction whose checks or destination go by the crew computes as though they were its own. -/
theorem exec_eq_compute (ok : Cx → Bool) (dst : Cx → Dest) (body : State → Cx → Eff) (hs : Issues h s x s1)
    (hi : exec i s = withCx h s (fun x s => .next (computeOn x s (ok x) cls delay (dst x) (body s)))) :
    exec i s = compute h s (fun _ => ok x) cls delay (dst x) (body s1) := by
  rw [hi, compute, withCx_eq hs.begins, withCx_eq hs.begins]

/-- What MOVS writes (R117, R133): the pair of REFCLK, or a word. -/
theorem movs_gives {d : Reg} {num : BitVec 8} (hs : Issues h s x s1)
    (hk : (x.kernel.rw (num.toNat == 14) d && decide (num.toNat < 16) && !(h.uni && num.toNat == 0)) = true) :
    exec (.movs h d num) s = retires x s1 1 (some 4) (Dest.reg d (if num.toNat == 14 then 2 else 1))
      (perThread x (fun t => if num.toNat == 14 then wrReg64 t d (BitVec.ofNat 64 s.refclk) else wrReg t d (x.special t num.toNat)))
      0 false := by
  rw [← begin_refclk hs.begins]
  exact (exec_eq_compute _ _ (fun s x => x.loopW (fun t =>
    if num.toNat == 14 then wrReg64 t d (BitVec.ofNat 64 s.refclk) else wrReg t d (x.special t num.toNat))) hs rfl).trans
    (compute_writes hs hk)

end

/-- Settles O6: the classes and relations are those of the definitions, and MOVS writes a word for every number but REFCLK's. -/
theorem movesAndPredicates : Obligations.MovesAndPredicates := by
  unfold Obligations.MovesAndPredicates
  intro h s x s1 ty d a b pd pa pb cc na nb wide sx hi imm num fty hs I
  refine ⟨fun hk => ?compare, fun hk => ?select, fun hk => ?move, fun hk => ⟨?immediate, ?read, fun hlt hne huni => ?special⟩, fun hk => ?clock,
    fun hk => ⟨?word, ?classes⟩, ?and, ?or, ?xor, ?not, fun hk => ?put⟩
  case compare =>
    refine givesPred_of_compute (ok := fun k => k.sw ty.wide a && k.sw ty.wide b) hs hk rfl fun t => ?_
    cases cc with
    | ne => exact decide_not
    | eq | lt | le | gt | ge => rfl
  case select => exact compute_writes (ok := fun k => k.rw wide d && k.sw wide a && k.sw wide b) hs hk
  case move => exact givesBits_of_compute hs hk rfl fun t k _ => rfl
  case immediate =>
    refine givesWord_of_compute (ok := fun k => k.r1 d) hs hk rfl fun t => ?_
    exact moviWord_eq ..
  case read => exact givesWord_of_compute (ok := fun k => k.r1 d) hs hk rfl fun t => rfl
  case special =>
    have hword : (num.toNat == 14) = false := beq_eq_false_iff_ne.mpr hne
    have hthread : (h.uni && num.toNat == 0) = false := Bool.eq_false_iff.mpr (by simpa using huni)
    have hrun := movs_gives (d := d) (num := num) hs (by rw [hword, hthread, decide_eq_true hlt]; simpa [Kernel.rw, Kernel.r1] using hk)
    simp only [hword] at hrun
    exact hrun
  case clock => exact movs_gives (num := 14) hs (by simpa using hk)
  case word => exact givesWord_of_compute (ok := fun k => k.r1 d && k.s1 a) hs hk rfl fun t => rfl
  case classes => exact givesWord_of_compute (ok := fun k => k.r1 d && k.s1 a) hs hk rfl fun t => rfl
  case and => 
    refine givesPred_of_compute (ok := fun _ => true) hs rfl rfl fun t => ?_
    rfl
  case or => exact givesPred_of_compute (ok := fun _ => true) hs rfl rfl fun t => rfl
  case xor => exact givesPred_of_compute (ok := fun _ => true) hs rfl rfl fun t => rfl
  case not => exact givesPred_of_compute (ok := fun _ => true) hs rfl rfl fun t => rfl
  case put => exact (exec_eq_compute _ _ _ hs rfl).trans (compute_writes hs hk)
end Sys2Proof.Machine
end

section
/-! PROOFS. The float family and FCMP, element by element, and rounding what a format holds (R96, R99, R100, R134, R135). -/

namespace Sys2Proof.Machine

open Sys2Proof Sys2Proof.Claims

/-- A body that raises exceptions and clamps nothing. -/
theorem givesFp_unclamped {i : Instr} {h : Hdr} {s s1 : State} {x : Cx} {ok : Kernel → Bool} {cls : Nat} {delay : Option Nat} {dst : Dest}
    {f : Cx → Nat → Res} {w : Nat → List RegWrite} {e : Nat → Fps} (hs : Issues h s x s1) (hk : ok x.kernel = true)
    (hi : exec i s = compute h s ok cls delay dst (fun x => x.loop (f x)))
    (hf : ∀ t, (f x t).ws = w t ∧ (f x t).fps = e t ∧ (f x t).sat = false) : GivesFp i s x s1 cls delay dst w e false :=
  givesFp_of_compute hs hk hi (fun t => (hf t).1) (fun t => (hf t).2.1) (List.any_eq_false.mpr fun t _ => by simp [hf])

/-! ### The elements of a float type -/

section
variable {i : Instr} {h : Hdr} {s s1 : State} {x : Cx} {ok : Kernel → Bool} {cls : Nat} {delay : Option Nat} {m : FlMod} {d : Reg}
  {a b c : Src}

theorem givesElems_of_compute {g : Cx → Nat → Nat → FRes} {r : Nat → Nat → FRes} (hs : Issues h s x s1) (hk : ok x.kernel = true)
    (hi : exec i s = compute h s ok cls delay (Dest.reg d 1) (fun x => x.loop (fun t => elemsOut t m.ty d (fun k =>
      finishF x.kernel.ftz (flSpec m.ty) m.sat (g x t k)))))
    (hr : ∀ t k, g x t k = r t k) : GivesElems i s x s1 cls delay m d r := by
  obtain rfl : g x = r := funext fun t => funext (hr t)
  refine givesFp_unclamped hs hk hi fun t => ⟨?codes, ?flags, rfl⟩
  case codes => simp [elemsOut, Function.comp_def]
  case flags => simp [elemsOut, List.foldl_map]

theorem fl1_gives (F : FSpec → Nat → FRes) (hs : Issues h s x s1) (hk : (x.kernel.r1 d && x.kernel.s1 a) = true)
    (hi : exec i s = fl1 h m cls delay d a F s) :
    GivesElems i s x s1 cls delay m d (fun t k => F (flSpec m.ty) (x.flA m t k a)) :=
  givesElems_of_compute (ok := fun k => k.r1 d && k.s1 a) hs hk hi fun _ _ => rfl

theorem fl2_gives (F : FSpec → Nat → Nat → FRes) (hs : Issues h s x s1) (hk : (x.kernel.r1 d && x.kernel.s1 a && x.kernel.s1 b) = true)
    (hi : exec i s = fl2 h m delay d a b F s) :
    GivesElems i s x s1 2 delay m d (fun t k => F (flSpec m.ty) (x.flA m t k a) (x.flB m t k b)) :=
  givesElems_of_compute (ok := fun k => k.r1 d && k.s1 a && k.s1 b) hs hk hi fun _ _ => rfl

theorem fl3_gives (F : FSpec → Nat → Nat → Nat → FRes) (hs : Issues h s x s1)
    (hk : (x.kernel.r1 d && x.kernel.s1 a && x.kernel.s1 b && x.kernel.s1 c) = true) (hi : exec i s = fl3 h m d a b c F s) :
    GivesElems i s x s1 2 (some 6) m d (fun t k => F (flSpec m.ty) (x.flA m t k a) (x.flB m t k b) (x.flB m t k c)) :=
  givesElems_of_compute (ok := fun k => k.r1 d && k.s1 a && k.s1 b && k.s1 c) hs hk hi fun _ _ => rfl

end

theorem tops_f32 : fF32.Tops 254 16777215 := tops_of_ieee rfl (by decide) (by decide)

/-- R96, R99: a value that any of the formats holds rounds to its own code. -/
theorem roundF_held {f : FSpec} (hf : f ∈ [fF32, fF16, fBF16, fE4M3, fE5M2, fE2M1]) {md : Rm} {sat neg : Bool} {m : Nat} {e : Int}
    {c : Nat} (hc : c < 2 ^ f.width) (hv : fval f c = .fin neg m e) : roundF f md sat neg m e = .exact c := by
  fin_cases hf
  · exact roundF_fval tops_f32 hc hv
  · exact roundF_fval tops_f16 hc hv
  · exact roundF_fval tops_bf16 hc hv
  · exact roundF_fval tops_e4m3 hc hv
  · exact roundF_fval tops_e5m2 hc hv
  · exact roundF_fval tops_e2m1 hc hv

/-- Settles O7: each instruction is its operation on the elements, and what a format holds rounds to its own code. -/
theorem floatArithmetic : Obligations.FloatArithmetic := by
  unfold Obligations.FloatArithmetic
  refine ⟨fun h s x s1 m d a b c hs => ?_, fun f hf md sat neg m e c hc hv => roundF_held hf hc hv⟩
  intro f A B C n gives
  refine ⟨fun hk => ⟨?add, ?sub, ?mul, ?min, ?max, ?div, ?scale⟩, fun hk => ⟨?sqrt, ?rnd⟩, fun hk => ⟨?fma, ?med⟩, fun cc nega absa pd hk => ?cmp⟩
  case add => exact fl2_gives (fun f p q => fAdd f m.rm (fval f p) (fval f q)) hs hk rfl
  case sub => exact fl2_gives (fun f p q => fSub f m.rm (fval f p) (fval f q)) hs hk rfl
  case mul => exact fl2_gives (fun f p q => fMul f m.rm (fval f p) (fval f q)) hs hk rfl
  case min => exact fl2_gives (fun f p q => fMinMax f false p q) hs hk rfl
  case max => exact fl2_gives (fun f p q => fMinMax f true p q) hs hk rfl
  case div => exact fl2_gives (fun f p q => fDiv f m.rm (fval f p) (fval f q)) hs hk rfl
  case scale => exact givesElems_of_compute (ok := fun k => k.r1 d && k.s1 a && k.s1 b) hs hk rfl fun t k => rfl
  case sqrt => exact fl1_gives (fun f p => fSqrt f m.rm (fval f p)) hs hk rfl
  case rnd => exact fl1_gives (fun f p => fRnd f m.rm (fval f p) p) hs hk rfl
  case fma => exact fl3_gives (fun f p q r => fFma f m.rm (fval f p) (fval f q) (fval f r)) hs hk rfl
  case med => exact fl3_gives fMed3 hs hk rfl
  case cmp => exact givesFp_unclamped (ok := fun k => k.s1 a && k.s1 b) hs hk rfl fun t => ⟨rfl, rfl, rfl⟩

end Sys2Proof.Machine
end

section
/-! PROOFS. Conversions, block scales and ternary codes (R136-R142), and the widths of PACK and UNPACK (R140). -/

namespace Sys2Proof.Machine

open Sys2Proof Sys2Proof.Claims

/-- A T2 code in two's complement of `w` bits (R104). -/
theorem truncW_t2 {w : Nat} (hw : 0 < w) (c : Nat) : truncW w (t2 c) = if c = 1 then 1 else if c = 3 then 2 ^ w - 1 else 0 := by
  have hone : 1 < 2 ^ w := Nat.one_lt_two_pow hw.ne'
  have hplus : truncW w 1 = 1 := truncW_of_lt hone
  have hminus : truncW w (-1) = 2 ^ w - 1 := by
    have hcast : (-1 : Int) = ((2 ^ w - 1 : Nat) : Int) - 2 ^ w := by
      push_cast [hone.le]
      ring
    rw [hcast, truncW_sub_two_pow, truncW_of_lt (by omega)]
  have hzero : truncW w 0 = 0 := truncW_of_lt (Nat.two_pow_pos w)
  rw [t2]
  split
  case isTrue => rw [hplus]
  case isFalse =>
    split
    case isTrue => exact hminus
    case isFalse => exact hzero

/-- TERN with `n` results of `w` bits (R142). -/
theorem tern_gives {i : Instr} {h : Hdr} {s s1 : State} {x : Cx} {d : Reg} {a b : Src} (n : Nat) {w : Nat} (hw : 0 < w)
    (hs : Issues h s x s1) (hk : (x.kernel.r1 d && x.kernel.s1 a && x.kernel.s1 b) = true)
    (hi : exec i s = compute h s (fun k => k.r1 d && k.s1 a && k.s1 b) 2 (some 6) (Dest.reg d 1) (fun x => x.loop (fun t =>
      let cs := (List.range n).map (fun i => elem 2 (n * ((x.rd t b).toNat % (16 / n)) + i) (x.rd t a))
      { ws := wrReg t d (BitVec.ofNat 32 (joinLanes w (cs.map (fun c => truncW w (t2 c))))), fps := fpsIf (cs.any t2Bad) fNV,
        sat := false }))) :
    let code := fun t k => elem 2 (n * ((x.rd t b).toNat % (16 / n)) + k) (x.rd t a)
    GivesFp i s x s1 2 (some 6) (Dest.reg d 1)
      (fun t => wrReg t d (BitVec.ofNat 32 (joinLanes w ((List.range n).map (fun k =>
        if code t k = 1 then 1 else if code t k = 3 then 2 ^ w - 1 else 0)))))
      (fun t => if (List.range n).any (fun k => code t k == 2) then fNV else 0) false := by
  refine givesFp_unclamped (ok := fun k => k.r1 d && k.s1 a && k.s1 b) hs hk hi fun t => ⟨?codes, ?flags, rfl⟩
  case codes => simp only [List.map_map, Function.comp_def, truncW_t2 hw]
  case flags => simp only [List.any_map, Function.comp_def, fpsIf, t2Bad]

/-- Settles O9: each conversion is its definition, under the operands that the rule reads; a ternary code's value is its bits. -/
theorem conversions : Obligations.Conversions := by
  unfold Obligations.Conversions
  intro h s x s1 d a b hs A word
  refine ⟨fun ty hi md dst hk => ?toInt, fun src md dst hk => ?ofInt, fun dst src md hk => ⟨fun hsrc => ?narrow, fun hsrc => ?widen⟩,
    fun out hk => ?tern, fun hk => ?apply, fun bg tgt hk => ⟨?scale, ?div⟩⟩
  case toInt =>
    exact givesFp_unclamped (ok := fun k => k.rw dst.wide d && k.s1 a) hs hk rfl fun t => ⟨rfl, rfl, rfl⟩
  case ofInt =>
    exact givesFp_unclamped (ok := fun k => k.r1 d && k.sw src.wide a) hs hk rfl fun t => ⟨rfl, rfl, rfl⟩
  case narrow => 
    subst hsrc
    exact givesFp_unclamped (ok := fun k => k.r1 d && k.s1 a && k.s1 b) hs hk rfl fun t => ⟨rfl, rfl, rfl⟩
  case widen =>
    refine givesFp_unclamped (ok := fun k => k.r1 d && k.s1 a && k.s1 b) hs hk rfl fun t => ?_
    simp only [if_neg hsrc, fpsIf, and_self]
  case tern =>
    cases out with
    | s8x4 => exact tern_gives 4 (w := 8) (by decide) hs hk rfl
    | s16x2 => exact tern_gives 2 (w := 16) (by decide) hs hk rfl
    | s32 => exact tern_gives 1 (w := 32) (by decide) hs hk rfl
  case apply => exact givesFp_unclamped (ok := fun k => k.r1 d && k.s1 a && k.s1 b) hs hk rfl fun t => ⟨rfl, rfl, rfl⟩
  case scale => exact compute_writes (ok := fun k => k.r1 d && k.s1 a) hs hk
  case div => exact givesFp_unclamped (ok := fun k => k.r1 d && k.s1 a) hs hk rfl fun t => ⟨rfl, rfl, rfl⟩

/-! ### PACK and UNPACK (R140) -/

theorem joinLanes_lt (w : Nat) (l : List Nat) : joinLanes w l < 2 ^ (w * l.length) := by
  induction l with
  | nil => exact one_pos
  | cons v t ih =>
    have hv : v % 2 ^ w < 2 ^ w := Nat.mod_lt _ (Nat.two_pow_pos w)
    rw [joinLanes, List.length_cons, Nat.mul_succ, Nat.add_comm (w * t.length), pow_add]
    calc v % 2 ^ w + 2 ^ w * joinLanes w t < 2 ^ w * (joinLanes w t + 1) := by rw [Nat.mul_succ]; omega
      _ ≤ 2 ^ w * 2 ^ (w * t.length) := Nat.mul_le_mul_left _ ih

theorem elem_joinLanes {w n k : Nat} (hn : w * n ≤ 32) (hk : k < n) (g : Nat → Nat) :
    elem w k (BitVec.ofNat 32 (joinLanes w ((List.range n).map g))) = g k % 2 ^ w := by
  have hlt : joinLanes w ((List.range n).map g) < 2 ^ 32 :=
    (joinLanes_lt w _).trans_le (Nat.pow_le_pow_right two_pos (by simpa using hn))
  rw [elem, BitVec.toNat_ofNat, Nat.mod_eq_of_lt hlt, joinLanes_range w n g k hk]

theorem elem_lt (w k : Nat) (v : W32) : elem w k v < 2 ^ w := Nat.mod_lt _ (Nat.two_pow_pos w)

/-- What a clamp keeps differs from the value where the value is out of range. -/
theorem clamp_ne {lo hi v : Int} (h : lo ≤ hi) : (decide (v < lo) || decide (hi < v)) = decide (max lo (min hi v) ≠ v) := by
  rw [← Bool.decide_or, decide_eq_decide]
  omega

theorem packElem_ss (w e : Nat) :
    let v := asInt true (2 * w) e
    let kept := max (-(2 ^ (w - 1))) (min (2 ^ (w - 1) - 1) v)
    packElem w .ss e = (truncW w kept, decide (kept ≠ v)) := by
  intro v kept
  have hsat : satS w v = (kept, decide (kept ≠ v)) := (satTy_eq true w v).trans (Prod.ext rfl (clamp_ne (intLo_le_intHi true w)))
  rw [packElem, hsat]

theorem packElem_sn {w e : Nat} (he : e < 2 ^ (2 * w)) :
    let kept : Int := min (2 ^ w - 1) e
    packElem w .sn e = (truncW w kept, decide (kept ≠ e)) := by
  intro kept
  have hv : asInt false (2 * w) e = e := congrArg Nat.cast (Nat.mod_eq_of_lt he)
  have hpos : (0 : Int) ≤ 2 ^ w - 1 := intLo_le_intHi false w
  have hkept : max 0 (min (2 ^ w - 1) (e : Int)) = kept := max_eq_right (le_min hpos (Int.natCast_nonneg e))
  have hsat : satN w e = (kept, decide (kept ≠ e)) := by
    rw [← hkept]
    exact (satTy_eq false w e).trans (Prod.ext rfl (clamp_ne (v := e) (intLo_le_intHi false w)))
  rw [packElem, hv, hsat]

section
variable {h : Hdr} {s s1 : State} {x : Cx} {d : Reg} {a b : Src} (w : PkW)

/-- Element `i` of A, then B, as PACK reads them. -/
def packIn (x : Cx) (w : PkW) (a b : Src) (t i : Nat) : Nat :=
  if i < 16 / w.bits then elem (2 * w.bits) i (x.rd t a) else elem (2 * w.bits) (i - 16 / w.bits) (x.rd t b)

/-- The word that elements narrowed by `g` make. -/
def packWord (w : PkW) (g : Nat → Nat) : W32 := BitVec.ofNat 32 (joinLanes w.bits ((List.range (2 * (16 / w.bits))).map g))

theorem packIn_lt (t i : Nat) : packIn x w a b t i < 2 ^ (2 * w.bits) := by
  unfold packIn
  split <;> exact elem_lt ..

theorem elem_packWord {i : Nat} (hi : i < 32 / w.bits) (g : Nat → Nat) : elem w.bits i (packWord w g) = g i % 2 ^ w.bits := by
  have hn : 32 / w.bits = 2 * (16 / w.bits) ∧ w.bits * (2 * (16 / w.bits)) ≤ 32 := by cases w <;> decide
  exact elem_joinLanes hn.2 (hn.1 ▸ hi) g

/-- PACK by what the narrowing of an element is: a value's low bits, and whether it clamped. -/
theorem pack_gives {md : PkMode} {f : Nat → Nat → Int} {clamps : Nat → Nat → Bool} (hs : Issues h s x s1)
    (hk : (x.kernel.r1 d && x.kernel.s1 a && x.kernel.s1 b) = true)
    (he : ∀ t i, packElem w.bits md (packIn x w a b t i) = (truncW w.bits (f t i), clamps t i)) :
    ∃ v : Nat → W32, (∀ t ∈ x.lanes, ∀ i < 32 / w.bits, ((elem w.bits i (v t) : Nat) : Int) = f t i % 2 ^ w.bits) ∧
      exec (.pack h w md d a b) s = retires x s1 2 (some 6) (Dest.reg d 1) (wordTo x d v) 0
        (x.lanes.any (fun t => (List.range (2 * (16 / w.bits))).any (clamps t))) := by
  refine ⟨fun t => packWord w (fun i => truncW w.bits (f t i)), fun t _ i hi => ?elements, ?runs⟩
  case elements =>
    rw [elem_packWord w hi, ← truncW_emod]
    push_cast
    rfl
  case runs =>
    have hbody (t i : Nat) : packElem w.bits md (if i < 16 / w.bits then elem (2 * w.bits) i (x.rd t a)
        else elem (2 * w.bits) (i - 16 / w.bits) (x.rd t b)) = (truncW w.bits (f t i), clamps t i) := he t i
    refine compute_retires (ok := fun k => k.r1 d && k.s1 a && k.s1 b) hs hk ((loop_quiet _ _ fun _ => rfl).trans ?_) BitVec.zero_and
    simp only [List.map_map, List.any_map, Function.comp_def, hbody]
    rfl

/-- UNPACK widens the half of A that B chooses. -/
theorem unpack_gives {sx : Bool} (hs : Issues h s x s1) (hk : (x.kernel.r1 d && x.kernel.s1 a && x.kernel.s1 b) = true) :
    GivesWord (.unpack h w sx d a b) s x s1 2 (some 6) d (fun t =>
      BitVec.ofNat 32 (joinLanes (2 * w.bits) ((List.range (16 / w.bits)).map (fun i => truncW (2 * w.bits) (asInt sx w.bits
        (elem w.bits ((if (x.rd t b).getLsbD 0 then 16 / w.bits else 0) + i) (x.rd t a))))))) := by
  refine givesWord_of_compute (ok := fun k => k.r1 d && k.s1 a && k.s1 b) hs hk rfl fun t => ?_
  cases (x.rd t b).getLsbD 0 <;> simp

end

/-- Settles O10: each mode's narrowing keeps a value's low bits or the nearest bound, and an element stays in its place. -/
theorem packAndUnpack : Obligations.PackAndUnpack := by
  unfold Obligations.PackAndUnpack
  intro h s x s1 w d a b hs hk k inp out
  refine ⟨?trunc, fun md hmd => ?clamped, fun sx => ⟨_, fun t _ i hi => ?widened, unpack_gives w hs hk⟩⟩
  case trunc =>
    obtain ⟨v, hv, hrun⟩ := pack_gives (md := .trunc) (f := fun t i => inp t i) (clamps := fun _ _ => false) w hs hk
      fun t i => by rw [truncW_natCast]; rfl
    have hnone : (x.lanes.any fun _ => (List.range (2 * (16 / w.bits))).any fun _ => false) = false :=
      List.any_eq_false.mpr fun _ _ => by rw [List.any_eq_true]; simp
    rw [hnone] at hrun
    exact ⟨v, hv, hrun⟩
  case clamped =>
    intro raw kept
    cases md with
    | trunc => exact absurd rfl hmd
    | ss => exact pack_gives w hs hk fun t i => packElem_ss ..
    | sn => exact pack_gives w hs hk fun t i => packElem_sn (packIn_lt ..)
  case widened =>
    have hn : 32 / (2 * w.bits) = 16 / w.bits ∧ 2 * w.bits * (16 / w.bits) ≤ 32 := by cases w <;> decide
    rw [elem_joinLanes hn.2 (hn.1 ▸ hi), ← truncW_emod]
    push_cast
    rfl

end Sys2Proof.Machine
end

section
/-! PROOFS. Special functions and the cases in which they are exact (R143); dot products (R108, R144, R145). -/

namespace Sys2Proof.Machine

open Sys2Proof Sys2Proof.Claims

/-- Settles O12: a special function is an operation on the elements of A, and SINCOS is two of them. -/
theorem specialFunctions : Obligations.SpecialFunctions := by
  unfold Obligations.SpecialFunctions
  intro h s x s1 m d a hs f
  refine ⟨fun hk e he => ?single, fun hk => ?both⟩
  case single =>
    fin_cases he
    · exact fl1_gives (special .rcp) hs hk rfl
    · exact fl1_gives (special .rsq) hs hk rfl
    · exact fl1_gives (special .ex2) hs hk rfl
    · exact fl1_gives (special .lg2) hs hk rfl
    · exact fl1_gives (special .sin) hs hk rfl
    · exact fl1_gives (special .cos) hs hk rfl
    · exact fl1_gives (special .tanh) hs hk rfl
  case both =>
    refine givesFp_unclamped (ok := fun k => k.rw true d && k.s1 a) hs hk rfl fun t => ⟨?_, rfl, rfl⟩
    simp only [List.map_map, Function.comp_def]
    rfl

/-! ### Exact cases -/

section
variable {f : FSpec} {c m : Nat} {neg : Bool} {e : Int}

theorem special_nan {sig : Bool} (h : fval f c = .nan sig) (fn : SFn) : special fn f c = ⟨f.nan, if sig then fNV else 0, false⟩ := by
  simp only [special, h, FSpec.nanRes, FRes.withFlag, fpsIf]

/-- Of an infinity (R143). -/
theorem special_inf (h : fval f c = .inf neg) :
    special .rcp f c = .exact (f.signBit neg) ∧ special .sin f c = f.nanRes true ∧ special .cos f c = f.nanRes true ∧
      special .tanh f c = .exact (f.bias * 2 ^ f.mb + f.signBit neg) ∧
      special .rsq f c = (if neg then f.nanRes true else .exact 0) ∧
      special .lg2 f c = (if neg then f.nanRes true else .exact (f.inf false)) ∧
      special .ex2 f c = .exact (if neg then 0 else f.inf false) := by
  cases neg <;> simp [special, h]

/-- Of a zero (R143). -/
theorem special_zero (h : fval f c = .fin neg 0 e) :
    special .rcp f c = .withFlag (f.inf neg) fDZ ∧ special .rsq f c = .withFlag (f.inf neg) fDZ ∧
      special .lg2 f c = .withFlag (f.inf true) fDZ ∧ special .ex2 f c = .exact (f.bias * 2 ^ f.mb) ∧
      special .cos f c = .exact (f.bias * 2 ^ f.mb) ∧ special .sin f c = .exact c ∧ special .tanh f c = .exact c := by
  simp only [special, h]
  exact ⟨rfl, rfl, rfl, rfl, rfl, rfl, rfl⟩

/-- Below zero a root and a logarithm are invalid (R143). -/
theorem special_negative (h : fval f c = .fin true m e) (hm : 0 < m) :
    special .rsq f c = f.nanRes true ∧ special .lg2 f c = f.nanRes true := by
  simp only [special, h, if_neg hm.ne']
  cases pow2Exp m e <;> exact ⟨rfl, rfl⟩

theorem pow2Exp_two_pow (k : Nat) (e : Int) : pow2Exp (2 ^ k) e = some (e + k) := by
  rw [pow2Exp, Nat.log2_two_pow, if_pos rfl]

/-- Powers of two (R143). -/
theorem special_two_pow {k : Nat} (h : fval f c = .fin neg (2 ^ k) e) :
    special .rcp f c = roundF f .rn false neg 1 (-(e + k)) ∧
      (neg = false → special .lg2 f c = intToFloat f .rn (e + k) ∧
        ((e + k) % 2 = 0 → special .rsq f c = roundF f .rn false false 1 (-((e + k) / 2)))) := by
  cases neg <;> simp +contextual [special, h, pow2Exp_two_pow]

theorem roundUp_zero (md : Rm) (neg odd : Bool) {d : Nat} (hd : 0 < d) : roundUp md neg odd 0 d = false := by
  cases md with
  | rn => simp [roundUp, hd.ne]
  | rz | rp | rm => simp [roundUp]

theorem ne_zero_of_integral {n : Nat} (hn0 : 0 < n) (hn : (m : ℚ) * 2 ^ e = n) : m ≠ 0 := by
  rintro rfl
  rw [Nat.cast_zero, zero_mul] at hn
  exact hn0.ne (by exact_mod_cast hn)

/-- Where m x 2^e is an integer, rounding it to an integer gives it. -/
theorem roundAt_of_integral {n : Nat} (md : Rm) (hn : (m : ℚ) * 2 ^ e = n) : roundAt md neg m e 0 = (n, false) := by
  rcases le_or_gt 0 e with he | he
  · have hval : n = m * 2 ^ (e - 0).toNat := by
      have hpow := scaled_eq_of_value_eq (q := 0) he le_rfl (e := 0) (b := n) (by simpa using hn)
      simpa using hpow.symm
    rw [roundAt_exact md neg m he, hval]
  · have hval : m = n * 2 ^ (0 - e).toNat := by
      have hpow := scaled_eq_of_value_eq (q := e) le_rfl he.le (e := 0) (b := n) (by simpa using hn)
      simpa using hpow
    have hunit := Nat.two_pow_pos (0 - e).toNat
    rw [roundAt, if_neg he.not_ge, hval]
    simp only [Nat.mul_div_cancel n hunit, Nat.mul_mod_left, roundUp_zero md neg _ hunit]
    rfl

/-- m x 2^e is below 2^k where its places end there. -/
theorem smaller_iff {n : Nat} (hn0 : 0 < n) (hn : (m : ℚ) * 2 ^ e = n) (k : Nat) : smaller m e k = decide (n < 2 ^ k) := by
  have hm := ne_zero_of_integral hn0 hn
  rw [smaller, decide_eq_decide, bitLen, if_neg hm]
  have hunit : (0 : ℚ) < 2 ^ e := zpow_pos two_pos e
  have hlow : (2 : ℚ) ^ ((Nat.log2 m : Int) + e) ≤ n := by
    rw [← hn, zpow_add₀ two_ne_zero, zpow_natCast]
    exact mul_le_mul_of_nonneg_right (by exact_mod_cast Nat.log2_self_le hm) hunit.le
  have hhigh : (n : ℚ) < 2 ^ ((Nat.log2 m + 1 : Nat) + e) := by
    rw [← hn, zpow_add₀ two_ne_zero, zpow_natCast]
    exact mul_lt_mul_of_pos_right (by exact_mod_cast Nat.lt_log2_self) hunit
  have hk : n < 2 ^ k ↔ (n : ℚ) < 2 ^ (k : Int) := by
    rw [zpow_natCast]
    exact_mod_cast Iff.rfl
  rw [hk]
  constructor
  · exact fun hle => hhigh.trans_le (zpow_le_zpow_right₀ one_le_two (by omega))
  · intro hlt
    by_contra hgt
    exact (hlow.trans_lt hlt).not_ge (zpow_le_zpow_right₀ one_le_two (by omega))

theorem special_ex2_integer {n : Nat} (h : fval f c = .fin neg m e) (hn0 : 0 < n) (hn : (m : ℚ) * 2 ^ e = n) :
    (n < 2 ^ 12 → special .ex2 f c = roundF f .rn false false 1 (if neg then -(n : Int) else n)) ∧
      (2 ^ 12 ≤ n → special .ex2 f c = roundF f .rn false false 1 (if neg then -(2 ^ 13) else 2 ^ 13)) := by
  have hm := ne_zero_of_integral hn0 hn
  simp only [special, h, if_neg hm]
  refine ⟨fun hlt => ?_, fun hle => ?_⟩
  · have hsm : smaller m e 12 = true := (smaller_iff hn0 hn 12).trans (decide_eq_true hlt)
    simp [hsm, roundAt_of_integral .rz hn]
  · have hsm : smaller m e 12 = false := (smaller_iff hn0 hn 12).trans (decide_eq_false hle.not_gt)
    simp [hsm]

end
/-- Settles O13: what the function gives, by the kind of value that the code holds. -/
theorem specialExactCases : Obligations.SpecialExactCases := by
  unfold Obligations.SpecialExactCases
  intro f _ c is sign
  have hsign (neg : Bool) : f.signBit neg = sign neg := f.signBit_eq neg
  refine ⟨fun sig h fn => special_nan h fn, fun neg h => ?infinite, fun neg m e h => ⟨?zero, ?negative, ?power, ?integer⟩⟩
  case infinite =>
    obtain ⟨hrcp, hsin, hcos, htanh, hrsq, hlg2, hex2⟩ := special_inf h
    rw [hsign] at hrcp htanh
    refine ⟨hrcp, hsin, hcos, htanh.trans (by rw [Nat.add_comm]; rfl), ?_, ?_⟩
    · rintro rfl
      exact ⟨hrsq, hlg2, hex2⟩
    · rintro rfl
      exact ⟨hrsq, hlg2, hex2⟩
  case zero =>
    rintro rfl
    exact special_zero h
  case negative =>
    rintro hm rfl
    exact special_negative h hm
  case power =>
    rintro k rfl
    exact special_two_pow h
  case integer => exact fun n hn0 hn => special_ex2_integer h hn0 hn


/-! ### Dot products -/

section
variable {h : Hdr} {s s1 : State} {x : Cx} {d : Reg} {a b c : Src}

/-- What one thread of TDOT gives: C and the products, clamped to S32 (R145). -/
def tdotRes (x : Cx) (byte : BitVec 2) (d : Reg) (a b c : Src) (t : Nat) : Res :=
  let cs := (List.range 4).map (fun i => elem 2 (4 * byte.toNat + i) (x.rd t a))
  let ps := (List.range 4).map (fun i => t2 (cs.getD i 0) * asInt true 8 (elem 8 i (x.rd t b)))
  let r := satS 32 ((x.rd t c).toInt + ps.foldl (· + ·) 0)
  { ws := wrReg t d (BitVec.ofNat 32 (truncW 32 r.1)), fps := fpsIf (cs.any t2Bad) fNV, sat := r.2 }

theorem tdot_eq_compute (byte : BitVec 2) (hs : Issues h s x s1) (hstep : x.kernel.steppingOk = true) :
    exec (.tdot h byte d a b c) s = compute h s (fun k => k.r1 d && k.s1 a && k.s1 b && k.s1 c) 3 (some 7) (Dest.reg d 1)
      (fun x => x.loop (tdotRes x byte d a b c)) := by
  rw [compute, withCx_eq hs.begins]
  exact (withCx_eq hs.begins _).trans (if_neg (by simp [hstep]))

/-- C and the products of the ternary codes with the bytes of B (R145). -/
def tdotSum (x : Cx) (byte : BitVec 2) (a b c : Src) (t : Nat) : Int :=
  (x.rd t c).toInt + ((List.range 4).map (fun k => t2 (elem 2 (4 * byte.toNat + k) (x.rd t a)) * asInt true 8 (elem 8 k (x.rd t b)))).sum

theorem tdotRes_eq (x : Cx) (byte : BitVec 2) (d : Reg) (a b c : Src) (t : Nat) : tdotRes x byte d a b c t =
    { ws := wrReg t d (BitVec.ofInt 32 (max (-(2 ^ 31)) (min (2 ^ 31 - 1) (tdotSum x byte a b c t)))),
      fps := if (List.range 4).any (fun k => elem 2 (4 * byte.toNat + k) (x.rd t a) == 2) then fNV else 0,
      sat := decide (tdotSum x byte a b c t < -(2 ^ 31)) || decide (2 ^ 31 - 1 < tdotSum x byte a b c t) } := by
  have hcode (i : Nat) (hi : i ∈ List.range 4) :
      ((List.range 4).map (fun i => elem 2 (4 * byte.toNat + i) (x.rd t a))).getD i 0 = elem 2 (4 * byte.toNat + i) (x.rd t a) := by
    rw [List.getD_eq_getElem _ _ (by simpa using hi), List.getElem_map, List.getElem_range]
  have hsum : (x.rd t c).toInt + ((List.range 4).map (fun i =>
      t2 (((List.range 4).map (fun i => elem 2 (4 * byte.toNat + i) (x.rd t a))).getD i 0) *
        asInt true 8 (elem 8 i (x.rd t b)))).foldl (· + ·) 0 = tdotSum x byte a b c t := by
    rw [← List.sum_eq_foldl, tdotSum, List.map_congr_left fun i hi => by rw [hcode i hi]]
  have hsat := satTy_eq true 32 (tdotSum x byte a b c t)
  simp only [tdotRes, hsum, show satS 32 = satTy true 32 from rfl, hsat, ofNat_truncW, List.any_map]
  rfl

end

/-- Settles O14: a dot product is `dotOne` of each thread's elements, and TDOT's sum goes through the clamp of S32. -/
theorem dotProducts : Obligations.DotProducts := by
  unfold Obligations.DotProducts
  intro h s x s1 d a b c hs hk els gives
  have hdot {i : Instr} {sc : Option Reg} {n : Nat} {ea eb : Nat → FVal} (hsc : ∀ e, sc = some e → x.kernel.r1 e = true)
      (hi : exec i s = dot h d a b c sc n ea eb s) : gives i sc n ea eb := by
    refine givesFp_unclamped hs ?checks hi fun t => ⟨rfl, rfl, rfl⟩
    cases sc with
    | none => simpa using hk
    | some e => simpa [hsc e rfl] using hk
  refine ⟨fun fa fb => hdot (sc := none) (fun e he => nomatch he) rfl, fun fa fb sc hsc => hdot hsc rfl, fun fa fb sc hsc => hdot hsc rfl, fun byte hstep => ?ternary⟩
  case ternary =>
    intro code sum
    exact givesFp_of_compute hs hk (tdot_eq_compute byte hs hstep) (fun t => by rw [tdotRes_eq]; rfl) (fun t => by rw [tdotRes_eq])
      (by simp only [tdotRes_eq]; rfl)

end Sys2Proof.Machine
end

section
/-! PROOFS. Lane reads and votes (R146-R148). -/

namespace Sys2Proof.Machine

open Sys2Proof Sys2Proof.Claims

/-! ### Segments -/

theorem segBase_eq (w t : Nat) : segBase w t = w * (t / w) := by
  have hdiv := Nat.mod_add_div t w
  rw [segBase]
  omega

/-- A place inside the segment of `t` (R146). -/
theorem segBase_add {w t r : Nat} (hr : r < w) : (segBase w t + r) / w = t / w ∧ (segBase w t + r) % w = r := by
  rw [segBase_eq]
  exact ⟨by rw [Nat.mul_add_div (by omega), Nat.div_eq_of_lt hr, add_zero], by rw [Nat.mul_add_mod, Nat.mod_eq_of_lt hr]⟩

theorem segBase_eq_iff {w : Nat} (hw : 0 < w) (t u : Nat) : segBase w t = segBase w u ↔ t / w = u / w := by
  rw [segBase_eq, segBase_eq]
  exact Nat.mul_right_inj hw.ne'

theorem segW_two_pow (sw : SegW) : ∃ n, sw.width = 2 ^ n := by
  cases sw
  exacts [⟨6, rfl⟩, ⟨5, rfl⟩, ⟨4, rfl⟩, ⟨3, rfl⟩, ⟨2, rfl⟩, ⟨1, rfl⟩]

theorem segW_pos (sw : SegW) : 0 < sw.width := by
  obtain ⟨n, hn⟩ := segW_two_pow sw
  exact hn ▸ Nat.two_pow_pos n

theorem segW_xor_lt (sw : SegW) (t b : Nat) : t % sw.width ^^^ b % sw.width < sw.width := by
  obtain ⟨n, hn⟩ := segW_two_pow sw
  rw [hn]
  exact Nat.xor_lt_two_pow (Nat.mod_lt _ (Nat.two_pow_pos n)) (Nat.mod_lt _ (Nat.two_pow_pos n))

theorem laneRead_gives {i : Instr} {h : Hdr} {s s1 : State} {x : Cx} {wide : Bool} {sw : SegW} {d : Reg} {a b : Src}
    {f : Nat → Nat → Nat → Nat} (hs : Issues h s x s1) (hk : (x.kernel.rw wide d && x.kernel.sw wide a && x.kernel.s1 b) = true)
    (hi : exec i s = laneRead h wide sw d a b f s) {rel : Nat → Nat → Prop} (hf : ∀ t, rel t (f sw.width t (x.rd t b).toNat)) :
    ∃ j : Nat → Nat, (∀ t ∈ x.lanes, rel t (j t)) ∧ exec i s = retires x s1 3 (some 7) (Dest.reg d (if wide then 2 else 1))
      (perThread x (fun t => if wide then wrReg64 t d (x.rd64 (j t) false a) else wrReg t d (x.rd (j t) a))) 0 false :=
  ⟨_, fun t _ => hf t, hi.trans (compute_writes (ok := fun k => k.rw wide d && k.sw wide a && k.s1 b) hs hk)⟩

theorem getbSrc_wrap {w : Nat} (hw : 0 < w) (t b : Nat) :
    getbSrc true w t b / w = t / w ∧ (getbSrc true w t b % w + b) % w = t % w := by
  obtain ⟨hseg, hplace⟩ := segBase_add (t := t) (Nat.mod_lt (t % w + w - b % w) hw)
  have hle : b % w ≤ t % w + w := (Nat.mod_lt b hw).le.trans (Nat.le_add_left w _)
  refine ⟨hseg, ?_⟩
  rw [getbSrc, if_pos rfl, hplace, Nat.mod_add_mod, ← Nat.add_mod_mod, Nat.sub_add_cancel hle, Nat.add_mod_right, Nat.mod_mod]

theorem getbSrc_stop {w : Nat} (hw : 0 < w) (t b : Nat) :
    if b ≤ t % w then getbSrc false w t b + b = t else getbSrc false w t b = t := by
  have hlt : t % w < w := Nat.mod_lt t hw
  have hle : t % w ≤ t := Nat.mod_le t w
  rw [getbSrc, if_neg Bool.false_ne_true]
  split
  case isTrue hb => rw [if_neg (by omega), Nat.sub_add_cancel (hb.trans hle)]
  case isFalse hb => rw [if_pos (by omega)]

theorem getaSrc_stop (w t b : Nat) : if t % w + b < w then getaSrc false w t b = t + b else getaSrc false w t b = t := by
  rw [getaSrc, if_neg Bool.false_ne_true]
  split
  case isTrue hb => rw [if_neg (by omega)]
  case isFalse hb => rw [if_pos (by omega)]

/-- Settles O15: each form's source by its place in the reader's segment. -/
theorem laneReads : Obligations.LaneReads := by
  unfold Obligations.LaneReads
  intro h s x s1 wide sw d a b hs hk w B reads
  have hw : 0 < w := segW_pos sw
  have hreads {i : Instr} {rel : Nat → Nat → Prop} (f : Nat → Nat → Nat → Nat) (hi : exec i s = laneRead h wide sw d a b f s)
      (hf : ∀ t, rel t (f w t (B t))) : reads i rel := laneRead_gives hs hk hi hf
  clear_value reads
  refine ⟨?index, ?belowWrap, ?below, ?aboveWrap, ?above, ?differing⟩
  case index => exact hreads getiSrc rfl fun t => segBase_add (Nat.mod_lt _ hw)
  case belowWrap => exact hreads (getbSrc true) rfl fun t => getbSrc_wrap hw t _
  case below => exact hreads (getbSrc false) rfl fun t => getbSrc_stop hw t _
  case aboveWrap => exact hreads (getaSrc true) rfl fun t => segBase_add (Nat.mod_lt _ hw)
  case above => exact hreads (getaSrc false) rfl fun t => getaSrc_stop w t _
  case differing => exact hreads getxSrc rfl fun t => segBase_add (segW_xor_lt sw t _)

/-! ### Votes -/

section
variable {h : Hdr} {s s1 : State} {x : Cx}

/-- The threads that a body runs for come in ascending order. -/
theorem lanes_sorted (x : Cx) : x.lanes.Pairwise (· < ·) := by
  unfold Cx.lanes
  split
  · exact List.pairwise_singleton ..
  · exact List.pairwise_lt_range.filter _

theorem segPred_gives {i : Instr} {sw : SegW} {pd pa : Pred} (f : List Bool → Bool) {P : Nat → Prop} (hs : Issues h s x s1)
    (hi : exec i s = segPred h sw pd pa f s)
    (hf : ∀ t, f ((x.lanes.filter (fun j => segBase sw.width j == segBase sw.width t)).map (fun j => x.pred j pa)) = true ↔ P t) :
    ∃ v : Nat → Bool, (∀ t ∈ x.lanes, (v t = true ↔ P t)) ∧ GivesPred i s x s1 3 (some 7) pd v :=
  ⟨_, fun t _ => hf t, givesPred_of_compute (ok := fun _ => true) hs rfl hi fun _ => rfl⟩

theorem sameA_iff (x : Cx) (wide : Bool) (a : Src) (t j : Nat) : x.sameA wide a t j = true ↔
    if wide then x.rd64 t false a = x.rd64 j false a else x.rd t a = x.rd j a := by
  cases wide <;> simp [Cx.sameA]

/-- The first of ascending numbers is the least. -/
theorem head?_eq_some_iff {l : List Nat} (hl : l.Pairwise (· < ·)) {t : Nat} (ht : t ∈ l) : l.head? = some t ↔ ∀ j ∈ l, t ≤ j := by
  cases l with
  | nil => cases ht
  | cons u l =>
    obtain ⟨hu, -⟩ := List.pairwise_cons.mp hl
    simp only [List.head?_cons, Option.some.injEq]
    constructor
    · rintro rfl j hj
      rcases List.mem_cons.mp hj with rfl | hj
      · exact le_rfl
      · exact (hu j hj).le
    · intro hmin
      rcases List.mem_cons.mp ht with rfl | ht
      · rfl
      · exact absurd (hmin u List.mem_cons_self) (hu t ht).not_ge

/-- The last of ascending numbers is the greatest. -/
theorem getLast?_eq_some_iff {l : List Nat} (hl : l.Pairwise (· < ·)) {t : Nat} (ht : t ∈ l) : l.getLast? = some t ↔ ∀ j ∈ l, j ≤ t := by
  induction l with
  | nil => cases ht
  | cons u l ih =>
    obtain ⟨hu, hl⟩ := List.pairwise_cons.mp hl
    cases l with
    | nil =>
      obtain rfl := List.mem_singleton.mp ht
      simp
    | cons w l =>
      rw [List.getLast?_cons_cons, List.forall_mem_cons]
      rcases List.mem_cons.mp ht with rfl | ht
      · constructor
        · intro hlast
          exact absurd (hu t (List.mem_of_getLast? hlast)) (lt_irrefl t)
        · rintro ⟨-, hmax⟩
          exact absurd (hmax w List.mem_cons_self) (hu w List.mem_cons_self).not_ge
      · rw [ih hl ht]
        exact ⟨fun hmax => ⟨(hu t ht).le, hmax⟩, fun hmax => hmax.2⟩

end

/-- Settles O16: a vote by what is said of the segment's threads, a mask bit by bit, and the ends of the ascending threads. -/
theorem votes : Obligations.Votes := by
  unfold Obligations.Votes
  intro h s x s1 sw wide cnt last pd pa d a hs same
  have hw := segW_pos sw
  refine ⟨segPred_gives (fun l => l.any id) hs rfl fun t => ?any, segPred_gives (fun l => l.all id) hs rfl fun t => ?all,
    fun hk => ⟨?count, ?mask⟩, fun hk => ?peers, fun hk => ?equal, ?lead⟩
  case any => simp [segBase_eq_iff hw]
  case all => simp [segBase_eq_iff hw, ← imp_iff_not_or]
  case count =>
    rintro rfl
    refine givesWord_of_compute (ok := fun k => k.rw (!true) d) hs hk rfl fun t => ?_
    rw [List.countP_eq_length_filter]
  case mask =>
    rintro rfl
    refine ⟨_, fun j hj => ?_, givesPair_of_compute (ok := fun k => k.rw (!false) d) hs hk rfl fun t => rfl⟩
    rw [getLsbD_maskOf _ hj]
    simp
  case peers =>
    refine ⟨_, fun t ht j hj => ?_, givesPair_of_compute (ok := fun k => k.rw true d && k.sw wide a) hs hk rfl fun t => rfl⟩
    rw [getLsbD_maskOf _ hj]
    simp [sameA_iff, same]
  case equal =>
    refine ⟨_, fun t ht => ?_, givesPred_of_compute (ok := fun k => k.sw wide a) hs hk rfl fun t => rfl⟩
    simp [sameA_iff, same]
  case lead =>
    refine ⟨_, fun t ht => ?_, givesPred_of_compute (ok := fun _ => true) hs rfl rfl fun t => rfl⟩
    rw [beq_iff_eq, eq_comm]
    cases last with
    | true => exact getLast?_eq_some_iff (lanes_sorted x) ht
    | false => exact head?_eq_some_iff (lanes_sorted x) ht

end Sys2Proof.Machine
end

section
/-! PROOFS. Scans and reductions over the threads that take part (R149). -/

namespace Sys2Proof.Machine

open Sys2Proof Sys2Proof.Claims

/-! ### The run of a scan -/

section
variable (f : Nat → Nat → Nat × Fps × Bool) (val : Nat → Nat)

/-- The accumulator after the first `n` threads of a list. -/
def accAfter (acc : Nat) (l : List Nat) (n : Nat) : Nat := (l.take n).foldl (fun acc t => (f acc (val t)).1) acc

theorem scanRun_eq (acc : Nat) (l : List Nat) : scanRun f val acc l = l.zipIdx.map (fun p =>
    (p.1, accAfter f val acc l p.2, accAfter f val acc l (p.2 + 1), (f (accAfter f val acc l p.2) (val p.1)).2)) := by
  induction l generalizing acc with
  | nil => rfl
  | cons t ts ih =>
    rw [scanRun, ih, List.zipIdx_cons', List.map_cons, List.map_map]
    rfl

theorem scanRun_last (acc : Nat) (l : List Nat) :
    ((scanRun f val acc l).getLast?.map (fun r => r.2.2.1)).getD acc = accAfter f val acc l l.length := by
  rw [accAfter, List.take_length]
  induction l generalizing acc with
  | nil => rfl
  | cons t ts ih =>
    rw [scanRun, List.getLast?_cons, List.foldl_cons, ← ih, Option.map_some, Option.getD_some]
    exact (Option.getD_map (fun r : Nat × Nat × Nat × Fps × Bool => r.2.2.1) _ _).symm

end

section
variable {h : Hdr} {s s1 : State} {x : Cx} {ty : ScanTy} {op : ScanOp} {sat : Bool} {d : Reg} {a : Src}

theorem scanOp_gives {i : Instr} (out : Nat → Nat × Nat × Nat × Fps × Bool → Nat) {n : Nat → Nat} (hs : Issues h s x s1)
    (hk : (x.kernel.rw ty.wide d && x.kernel.sw ty.wide a) = true) (hi : exec i s = scanOp h ty op sat d a out s) :
    let step := fun acc t => scanStep x.kernel.ftz ty op sat acc (x.rdScan ty t a)
    let at_ := accAfter (scanStep x.kernel.ftz ty op sat) (fun t => x.rdScan ty t a) (scanId ty op) x.lanes
    let fps := (x.lanes.zipIdx).foldl (fun e t => e ||| (step (at_ t.2) t.1).2.1) 0
    (∀ t k e, out (at_ x.lanes.length) (t, at_ k, at_ (k + 1), e) = at_ (n k)) → fps &&& x.kernel.fpEnables = 0 →
    exec i s = retires x s1 3 none (Dest.reg d (if ty.wide then 2 else 1)) ((x.lanes.zipIdx).flatMap (fun t => wrScan ty t.1 d (at_ (n t.2))))
      fps ((x.lanes.zipIdx).any (fun t => (step (at_ t.2) t.1).2.2)) := by
  intro step at_ fps hout hf
  refine hi.trans (compute_retires (ok := fun k => k.rw ty.wide d && k.sw ty.wide a) hs hk ?_ hf)
  dsimp only
  rw [scanRun_last, scanRun_eq]
  simp only [List.flatMap_map, List.foldl_map, List.any_map, Function.comp_def]
  simp only [at_] at hout
  simp only [hout]
  rfl

end


/-! ### Reductions over the integers -/

theorem asInt_emod (signed : Bool) (w n : Nat) : asInt signed w n % 2 ^ w = (n : Int) % 2 ^ w := by
  have hmod : ((n % 2 ^ w : Nat) : Int) % 2 ^ w = (n : Int) % 2 ^ w := by
    push_cast
    exact Int.emod_emod_of_dvd _ dvd_rfl
  rw [asInt]
  split
  · rw [Int.sub_emod_right, hmod]
  · exact hmod

/-- A value in the range of a type is what its low bits read as. -/
theorem asInt_truncW {signed : Bool} {w : Nat} (hw : 0 < w) {v : Int} (hlo : intLo signed w ≤ v) (hhi : v ≤ intHi signed w) :
    asInt signed w (truncW w v) = v := by
  obtain ⟨hlo', hhi'⟩ := asInt_bounds signed hw (truncW w v)
  have hspan : intHi signed w - intLo signed w = 2 ^ w - 1 := by
    have hpow : (2 : Int) ^ w = 2 * 2 ^ (w - 1) := by exact_mod_cast two_pow_eq_twice hw
    cases signed <;> simp only [intLo, intHi, if_true, Bool.false_eq_true, if_false] <;> omega
  have hmod : asInt signed w (truncW w v) % 2 ^ w = v % 2 ^ w := by rw [asInt_emod, truncW_emod]
  refine sub_eq_zero.mp (Int.eq_zero_of_abs_lt_dvd (Int.dvd_of_emod_eq_zero (Int.emod_eq_emod_iff_emod_sub_eq_zero.mp hmod)) ?_)
  rw [abs_lt]
  omega

theorem foldl_min_spec {α : Type} [LinearOrder α] (l : List α) (v : α) :
    (l.foldl min v = v ∨ l.foldl min v ∈ l) ∧ l.foldl min v ≤ v ∧ ∀ a ∈ l, l.foldl min v ≤ a := by
  induction l generalizing v with
  | nil => simp
  | cons b l ih =>
    obtain ⟨hfrom, hle, hall⟩ := ih (min v b)
    obtain ⟨hv, hb⟩ := le_min_iff.mp hle
    rw [List.foldl_cons]
    refine ⟨?_, hv, List.forall_mem_cons.mpr ⟨hb, hall⟩⟩
    rcases hfrom with heq | hmem
    · rcases min_choice v b with hmin | hmin
      · exact .inl (heq.trans hmin)
      · exact .inr (by rw [heq, hmin]; exact List.mem_cons_self)
    · exact .inr (List.mem_cons_of_mem _ hmem)

/-- A least value that starts at or above every listed one is one of them. -/
theorem foldl_min_of_le {α : Type} [LinearOrder α] {l : List α} {v : α} (hne : l ≠ []) (hv : ∀ a ∈ l, a ≤ v) :
    l.foldl min v ∈ l ∧ ∀ a ∈ l, l.foldl min v ≤ a := by
  obtain ⟨hfrom, -, hall⟩ := foldl_min_spec l v
  refine ⟨?_, hall⟩
  rcases hfrom with heq | hmem
  · obtain ⟨a, ha⟩ := List.exists_mem_of_ne_nil l hne
    have hva : v = a := le_antisymm (heq.ge.trans (hall a ha)) (hv a ha)
    rw [heq, hva]
    exact ha
  · exact hmem

section
variable {signed : Bool} {w : Nat} {step : Nat → Nat → Nat}

/-- Sums modulo 2^w of what codes read as. -/
theorem foldl_add_codes (hstep : ∀ acc v, step acc v = truncW w (asInt signed w acc + asInt signed w v)) (vals : List Nat) {acc : Nat}
    (hacc : acc < 2 ^ w) : ((vals.foldl step acc : Nat) : Int) = (acc + (vals.map (asInt signed w)).sum) % 2 ^ w := by
  induction vals generalizing acc with
  | nil => 
    rw [List.foldl_nil, List.map_nil, List.sum_nil, add_zero, Int.emod_eq_of_lt (Int.natCast_nonneg acc) (by exact_mod_cast hacc)]
  | cons v vals ih =>
    rw [List.foldl_cons, hstep, ih (truncW_lt ..), truncW_cast, Int.emod_add_emod, List.map_cons, List.sum_cons, ← add_assoc,
      add_assoc, Int.add_emod, asInt_emod, ← Int.add_emod, ← add_assoc]

/-- A choice between values of a type is made of the values that their codes read as. -/
theorem foldl_choice_codes (hw : 0 < w) {g : Int → Int → Int} (hg : ∀ p q, g p q = p ∨ g p q = q)
    (hstep : ∀ acc v, step acc v = truncW w (g (asInt signed w acc) (asInt signed w v))) (vals : List Nat) {v : Int}
    (hlo : intLo signed w ≤ v) (hhi : v ≤ intHi signed w) :
    asInt signed w (vals.foldl step (truncW w v)) = (vals.map (asInt signed w)).foldl g v := by
  induction vals generalizing v with
  | nil => exact asInt_truncW hw hlo hhi
  | cons u vals ih =>
    obtain ⟨hulo, huhi⟩ := asInt_bounds signed hw u
    have hrange : intLo signed w ≤ g v (asInt signed w u) ∧ g v (asInt signed w u) ≤ intHi signed w := by
      rcases hg v (asInt signed w u) with heq | heq <;> rw [heq]
      exacts [⟨hlo, hhi⟩, ⟨hulo, huhi⟩]
    rw [List.foldl_cons, hstep, asInt_truncW hw hlo hhi, ih hrange.1 hrange.2, List.map_cons, List.foldl_cons]

end

/-- The reductions of an integer type start from the identity and combine what codes read as (R149). -/
theorem scanStep_integer {ty : ScanTy} (hf : ty ≠ .f32) (ftz : Bool) (acc v : Nat) :
    let p := asInt ty.signed ty.width acc
    let q := asInt ty.signed ty.width v
    (scanStep ftz ty .add false acc v).1 = truncW ty.width (p + q) ∧ (scanStep ftz ty .min false acc v).1 = truncW ty.width (min p q) ∧
      (scanStep ftz ty .max false acc v).1 = truncW ty.width (max p q) := by
  simp only [scanStep, if_neg hf, Bool.false_eq_true, if_false, and_self]

theorem scanId_integer {ty : ScanTy} (hf : ty ≠ .f32) : scanId ty .add = 0 ∧ scanId ty .min = truncW ty.width (intHi ty.signed ty.width) ∧
    scanId ty .max = truncW ty.width (intLo ty.signed ty.width) := by
  simp only [scanId, if_neg hf, and_self]

/-- Settles O17: the run's accumulators by place, and over the integers sums modulo 2^w and choices between what codes read as. -/
theorem scanAndReduce : Obligations.ScanAndReduce := by
  unfold Obligations.ScanAndReduce
  refine ⟨fun h s x s1 ty op sat d a hs hk => ?runs, fun ty vals hty hne => ?reduces⟩
  case runs =>
    intro step at_ fps clamp gives hf
    have hgives {i : Instr} (n : Nat → Nat) (out : Nat → Nat × Nat × Nat × Fps × Bool → Nat) (hi : exec i s = scanOp h ty op sat d a out s)
        (hout : ∀ t k e, out (at_ x.lanes.length) (t, at_ k, at_ (k + 1), e) = at_ (n k)) : gives i n :=
      scanOp_gives out hs hk hi hout hf
    clear_value gives at_
    exact ⟨hgives (fun k => k + 1) (fun _ r => r.2.2.1) rfl fun _ _ _ => rfl, hgives (fun k => k) (fun _ r => r.2.1) rfl fun _ _ _ => rfl,
      hgives (fun _ => x.lanes.length) (fun final _ => final) rfl fun _ _ _ => rfl⟩
  case reduces =>
    intro w num last
    have hf : ty ≠ .f32 := by
      rintro rfl
      simp [ScanTy.width] at hty
    have hw : 0 < w := by cases ty <;> decide
    have hmap : vals.map num ≠ [] := by simpa using hne
    have hbounds (a : Int) (ha : a ∈ vals.map num) : intLo ty.signed w ≤ a ∧ a ≤ intHi ty.signed w := by
      obtain ⟨v, -, rfl⟩ := List.mem_map.mp ha
      exact asInt_bounds ty.signed hw v
    obtain ⟨haddId, hminId, hmaxId⟩ := scanId_integer hf
    have hstep (acc v : Nat) := scanStep_integer hf false acc v
    have hle := intLo_le_intHi ty.signed w
    have hadd : ((last .add : Nat) : Int) = (vals.map num).sum % 2 ^ w := by
      have hsum := foldl_add_codes (fun acc v => (hstep acc v).1) vals (Nat.two_pow_pos w)
      rw [Nat.cast_zero, zero_add, ← haddId] at hsum
      exact hsum
    have hmin : num (last .min) = (vals.map num).foldl min (intHi ty.signed w) := by
      have hchoice := foldl_choice_codes hw min_choice (fun acc v => (hstep acc v).2.1) vals hle le_rfl
      rw [← hminId] at hchoice
      exact hchoice
    have hmax : num (last .max) = (vals.map num).foldl max (intLo ty.signed w) := by
      have hchoice := foldl_choice_codes hw max_choice (fun acc v => (hstep acc v).2.2) vals le_rfl hle
      rw [← hmaxId] at hchoice
      exact hchoice
    obtain ⟨hleast, hlower⟩ := foldl_min_of_le hmap fun a ha => (hbounds a ha).2
    obtain ⟨hgreatest, hupper⟩ := foldl_min_of_le (α := Intᵒᵈ) hmap fun a ha => (hbounds a ha).1
    rw [← hmin] at hleast hlower
    replace hgreatest : num (last .max) ∈ vals.map num := hmax ▸ hgreatest
    replace hupper : ∀ a ∈ vals.map num, a ≤ num (last .max) := hmax ▸ hupper
    obtain ⟨v, hv, hvmin⟩ := List.mem_map.mp hleast
    obtain ⟨u, hu, humax⟩ := List.mem_map.mp hgreatest
    rw [List.forall_mem_map] at hlower hupper
    exact ⟨hadd, ⟨v, hv, hvmin.symm⟩, hlower, ⟨u, hu, humax.symm⟩, hupper⟩

end Sys2Proof.Machine
end

section
/-! PROOFS. REGROUP: where a crew stands at it, and the exchange of a workgroup's threads (R77, R151, R152). -/

namespace Sys2Proof.Machine

open Sys2Proof Sys2Proof.Claims

/-! ### The issue -/

section
variable {h : Hdr} {s s1 : State} {x : Cx} {a : Src} {n : BitVec 8}

/-- The context of a REGROUP: one in which no thread takes part names no flag (R77). -/
def Cx.regroupCx (x : Cx) : Cx := { x with h := { x.h with sf := if x.idle then none else x.h.sf } }

theorem regroup_stands (hb : s.begin h = some (x, s1)) (hm : x.crew.hmode = false) (hk : x.kernel.s1 a = true)
    (hn : n.toNat ≤ x.kernel.vregs) (hf : ∀ e ∈ x.crew.flags, e.cnt = 0) :
    exec (.regroup h a n) s = .next ((s1.issueCost x 3).modCrew x.key (fun cr =>
      { (x.regroupCx.flagUp cr.landFixed { dreg := 0, dn := n.toNat, dp := 7, dq := false, pall := true }) with
        block := .regroup ((List.range 64).map (fun t => if (x.crew.thr t).exited then none else some (x.rd t a))) n.toNat
          x.regroupCx.h.sf (x.regroupCx.h.sf.map (fun f => x.crew.flag f.val)) x.next,
        replay := none, bpSkip := false })) := by
  obtain ⟨-, -, -, -, rfl, -⟩ := State.begin_cases hb
  have hoperand : (!(x.kernel.s1 a) || decide (n.toNat > x.kernel.vregs)) = false := by simp [hk, hn]
  have hpending : x.crew.flags.any (fun e => e.cnt != 0) = false := by simpa using hf
  refine (withCx_eq hb _).trans ?_
  simp only [hm, hoperand, hpending, Bool.false_eq_true, if_false, Cx.regroupCx]
  cases x.idle <;> rfl

theorem regroup_waits (hb : s.begin h = some (x, s1)) (hm : x.crew.hmode = false) (hk : x.kernel.s1 a = true)
    (hn : n.toNat ≤ x.kernel.vregs) (hf : ∃ e ∈ x.crew.flags, e.cnt ≠ 0) : exec (.regroup h a n) s = .next s := by
  have hoperand : (!(x.kernel.s1 a) || decide (n.toNat > x.kernel.vregs)) = false := by simp [hk, hn]
  have hpending : x.crew.flags.any (fun e => e.cnt != 0) = true := by simpa using hf
  refine (withCx_eq hb _).trans ?_
  simp only [hm, hoperand, hpending, Bool.false_eq_true, if_false, if_true]

end

/-! ### The order of the threads (R152) -/

/-- The order of an exchange as one number: the key, then TIDX[9:0]. -/
def regroupKey (e : W32 × W32 × Thread) : Nat := 1024 * e.1.toNat + e.2.1.toNat % 1024

theorem regroupKey_lt_iff (e f : W32 × W32 × Thread) : regroupKey e < regroupKey f ↔
    e.1 < f.1 ∨ (e.1 = f.1 ∧ e.2.1.toNat % 1024 < f.2.1.toNat % 1024) := by
  rw [regroupKey, regroupKey, BitVec.lt_def, ← BitVec.toNat_inj]
  omega

theorem regroupKey_le_iff (e f : W32 × W32 × Thread) : regroupKey e ≤ regroupKey f ↔
    e.1 < f.1 ∨ (e.1 = f.1 ∧ e.2.1.toNat % 1024 ≤ f.2.1.toNat % 1024) := by
  rw [regroupKey, regroupKey, BitVec.lt_def, ← BitVec.toNat_inj]
  omega

theorem regroupIns_perm (e : W32 × W32 × Thread) (l : List (W32 × W32 × Thread)) : (regroupIns e l).Perm (e :: l) := by
  induction l with
  | nil => exact .refl _
  | cons f l ih =>
    rw [regroupIns]
    split
    · exact .refl _
    · exact (ih.cons f).trans (.swap e f l)

theorem regroupIns_sorted (e : W32 × W32 × Thread) {l : List (W32 × W32 × Thread)}
    (hl : l.Pairwise (fun a b => regroupKey a ≤ regroupKey b)) : (regroupIns e l).Pairwise (fun a b => regroupKey a ≤ regroupKey b) := by
  induction l with
  | nil => exact List.pairwise_singleton ..
  | cons f l ih =>
    obtain ⟨hf, hl'⟩ := List.pairwise_cons.mp hl
    rw [regroupIns]
    split
    case isTrue hlt =>
      have hle : regroupKey e ≤ regroupKey f := ((regroupKey_lt_iff e f).mpr hlt).le
      exact List.pairwise_cons.mpr ⟨List.forall_mem_cons.mpr ⟨hle, fun b hb => hle.trans (hf b hb)⟩, hl⟩
    case isFalse hge =>
      refine List.pairwise_cons.mpr ⟨fun b hb => ?_, ih hl'⟩
      rcases List.mem_cons.mp ((regroupIns_perm e l).mem_iff.mp hb) with rfl | hb
      · exact not_lt.mp (mt (regroupKey_lt_iff _ _).mp hge)
      · exact hf b hb

/-- The threads of an exchange, in its order. -/
def regroupSort (l : List (W32 × W32 × Thread)) : List (W32 × W32 × Thread) := l.foldl (fun l e => regroupIns e l) []

theorem regroupSort_perm (l : List (W32 × W32 × Thread)) : (regroupSort l).Perm l := by
  have hperm (l acc : List (W32 × W32 × Thread)) : (l.foldl (fun l e => regroupIns e l) acc).Perm (acc ++ l) := by
    induction l generalizing acc with
    | nil => rw [List.append_nil]; exact .refl _
    | cons e l ih => exact (ih _).trans (((regroupIns_perm e acc).append_right l).trans List.perm_middle.symm)
  exact hperm l []

theorem regroupSort_sorted (l : List (W32 × W32 × Thread)) : (regroupSort l).Pairwise (fun a b => regroupKey a ≤ regroupKey b) := by
  exact List.foldlRecOn (motive := List.Pairwise fun a b => regroupKey a ≤ regroupKey b) l _ .nil
    fun _ hl e _ => regroupIns_sorted e hl

/-! ### A crew after the exchange -/

theorem br_mkBr (held exited : Bool) (r b : Nat) : (mkBr held exited r b).getLsbD 14 = exited ∧
    ((mkBr held exited r b).extractLsb' 5 9).toNat = r % 512 ∧ ((mkBr held exited r b).extractLsb' 0 5).toNat = b % 32 := by
  refine ⟨?_, ?_, ?_⟩
  · rw [mkBr, BitVec.getLsbD_append, BitVec.getLsbD_append, BitVec.getLsbD_append]; simp
  · rw [mkBr, BitVec.extractLsb'_append_eq_of_le (by decide)]; simp
  · rw [mkBr, BitVec.extractLsb'_append_eq_right, BitVec.toNat_ofNat]

theorem setHeld_region (th : Thread) (b : Bool) : (th.setHeld b).region = th.region ∧ (th.setHeld b).block = th.block := by
  obtain ⟨-, hregion, hblock⟩ := br_mkBr b th.exited th.region th.block
  exact ⟨hregion.trans (Nat.mod_eq_of_lt (BitVec.isLt _)), hblock.trans (Nat.mod_eq_of_lt (BitVec.isLt _))⟩

theorem kget_filter {α : Type} (d : α) {p : Nat → Bool} {k : Nat} (hk : p k = true) (m : KMap α) :
    kget d k (m.filter (fun e => p e.1)) = kget d k m := by
  have hfind : kfind k (m.filter (fun e => p e.1)) = kfind k m := by
    induction m with
    | nil => rfl
    | cons e m ih =>
      obtain ⟨j, v⟩ := e
      by_cases hj : p j = true
      · simp [kfind, hj, ih]
      · have hne : j ≠ k := by rintro rfl; exact hj hk
        simp [kfind, hj, hne, ih]
  rw [kget, hfind, kget]

/-- What a position of a crew holds after the exchange (R152 step 4). -/
theorem thr_regrouped (cr : Crew) (n : Nat) (ths : List Thread) {j : Nat} (hj : j < 64) :
    let th := (cr.regrouped n ths).thr j
    match ths[j]? with
    | some e => th.tidx = e.tidx ∧ th.region = e.region ∧ th.block = e.block ∧ th.p = e.p ∧ ∀ r < n, kget 0 r th.v = kget 0 r e.v
    | none => th.exited = true := by
  intro th
  have hth : th = match ths[j]? with
      | some th => { (th.setHeld (th.region != cr.cr || !cr.sset.getLsbD th.block)) with
          v := th.v.filter (fun e => decide (e.1 < n)), holdCnt := 0, yld := false, swp := false }
      | none => { Thread.gone with br := mkBr false true cr.cr 0 } := by
    simp only [th, Crew.thr, Crew.regrouped]
    rw [List.getD_eq_getElem _ _ (by simpa using hj), List.getElem_map, List.getElem_range] <;> rfl
  rw [hth]
  cases ths[j]? with
  | some e =>
    obtain ⟨hregion, hblock⟩ := setHeld_region e (e.region != cr.cr || !cr.sset.getLsbD e.block)
    exact ⟨rfl, hregion, hblock, rfl, fun r hr => kget_filter 0 (p := fun k => decide (k < n)) (decide_eq_true hr) e.v⟩
  | none => exact (br_mkBr false true cr.cr 0).1

/-! ### The exchange -/

/-- A crew's threads at its REGROUP with their keys. -/
def Crew.keyed (cr : Crew) : List (W32 × W32 × Thread) :=
  match cr.block with
  | .regroup key _ _ _ _ => (List.range 64).filterMap (fun t => match key.getD t none with
      | some k => some (k, (cr.thr t).tidx, cr.thr t)
      | none => none)
  | _ => []

/-- The crew with what it receives, past its REGROUP (R152). -/
def Crew.exchanged (cr : Crew) (n : Nat) (ths : List Thread) : Crew :=
  match cr.block with
  | .regroup _ _ sf _ next => { ((cr.regrouped n ths).flagDown sf) with block := .none, pos := next }
  | _ => { cr.regrouped n ths with finished := cr.finished && ths.isEmpty }

/-- The crew as the exchange finds it: every write has landed. -/
def Crew.settled (cr : Crew) : Crew := cr.landIf (fun _ => true)

/-- The threads of the crews, in the order of the exchange. -/
def regroupOrder (crews : List Crew) : List (W32 × W32 × Thread) := regroupSort (crews.flatMap Crew.keyed)

/-- What the crew at place `i` of the workgroup receives. -/
def regroupShare (order : List (W32 × W32 × Thread)) (i : Nat) : List Thread := ((order.map (fun e => e.2.2)).drop (64 * i)).take 64

section
variable {s : State} {core n : Nat} {slots : List Nat} {crewAt : Nat → Crew}
  (hcrew : ∀ sl ∈ slots, s.crew? ⟨core, sl⟩ = some (crewAt sl))
  (hblock : ∀ sl ∈ slots, ∃ key sf b nx, (crewAt sl).block = .regroup key n sf b nx)
include hcrew hblock

/-- The exchange of a workgroup whose crews agree on `n`: each crew is set to what it receives. -/
theorem regroupNow_eq (hne : slots ≠ []) : s.regroupNow core slots =
    ((slots.map (fun sl => (sl, (crewAt sl).settled))).zipIdx).foldl (fun u e => u.setCrew ⟨core, e.1.1⟩
      (e.1.2.exchanged n (regroupShare (regroupOrder (slots.map (fun sl => (crewAt sl).settled))) e.2))) s := by
  have hcrews : slots.filterMap (fun sl => (s.crew? ⟨core, sl⟩).map (fun cr => (sl, cr.landIf (fun _ => true)))) =
      slots.map (fun sl => (sl, (crewAt sl).settled)) := by
    rw [← List.filterMap_eq_map]
    exact List.filterMap_congr fun sl hsl => by rw [hcrew sl hsl]; rfl
  have hns : (slots.map (fun sl => (sl, (crewAt sl).settled))).filterMap (fun e => match e.2.block with
      | .regroup _ n _ _ _ => some n
      | _ => none) = slots.map (fun _ => n) := by
    rw [List.filterMap_map, ← List.filterMap_eq_map]
    refine List.filterMap_congr fun sl hsl => ?_
    obtain ⟨key, sf, b, nx, hb⟩ := hblock sl hsl
    simp [Crew.settled, block_landIf, hb]
  have horder : regroupOrder (slots.map (fun sl => (crewAt sl).settled)) =
      regroupSort ((slots.map (fun sl => (sl, (crewAt sl).settled))).flatMap (fun e => e.2.keyed)) := by
    rw [regroupOrder, List.flatMap_map, List.flatMap_map]
  rw [State.regroupNow, hcrews, horder]
  dsimp only
  split
  case h_1 hnil => exact absurd (hns.symm.trans hnil) (by simpa using hne)
  case h_2 n' rest hcons =>
    have hall := hns.symm.trans hcons
    have hsame (k : Nat) (hk : k ∈ n' :: rest) : k = n := by
      obtain ⟨_, -, rfl⟩ := List.mem_map.mp (hall ▸ hk)
      rfl
    obtain rfl := hsame n' List.mem_cons_self
    rw [if_pos (List.all_eq_true.mpr fun k hk => beq_iff_eq.mpr (hsame k (List.mem_cons_of_mem _ hk)))]
    rfl

/-- The listed threads are those of the crews, each with its key. -/
theorem regroupOrder_perm : ((regroupOrder (slots.map (fun sl => (crewAt sl).settled))).map (fun e => (e.1, e.2.2))).Perm
    (slots.flatMap (fun sl => match (s.crew? ⟨core, sl⟩).map (fun cr => cr.landIf (fun _ => true)) with
      | some cr => (match cr.block with
        | .regroup key _ _ _ _ => (List.range 64).filterMap (fun i => ((key.getD i none).map (fun k => (k, cr.thr i))))
        | _ => [])
      | none => [])) := by
  refine ((regroupSort_perm _).map _).trans (.of_eq ?_)
  rw [List.map_flatMap, List.flatMap_map]
  refine List.flatMap_congr fun sl hsl => ?_
  obtain ⟨key, sf, b, nx, hb⟩ := hblock sl hsl
  have hb' : (crewAt sl).settled.block = .regroup key n sf b nx := (block_landIf ..).trans hb
  have hb'' : ((crewAt sl).landIf (fun _ => true)).block = .regroup key n sf b nx := hb'
  rw [hcrew sl hsl]
  simp only [Option.map_some, Crew.keyed, hb', hb'', List.map_filterMap]
  refine List.filterMap_congr fun i _ => ?_
  cases key.getD i none <;> rfl

end

theorem tidx_keyed {cr : Crew} {e : W32 × W32 × Thread} (he : e ∈ cr.keyed) : e.2.1 = e.2.2.tidx := by
  unfold Crew.keyed at he
  split at he
  · obtain ⟨i, -, hi⟩ := List.mem_filterMap.mp he
    split at hi
    · cases hi
      rfl
    · cases hi
  · cases he

theorem regroupOrder_sorted (crews : List Crew) : ((regroupOrder crews).map (fun e => (e.1, e.2.2))).Pairwise
    (fun a b => a.1 < b.1 ∨ (a.1 = b.1 ∧ a.2.tidx.toNat % 1024 ≤ b.2.tidx.toNat % 1024)) := by
  have htidx (e : W32 × W32 × Thread) (he : e ∈ regroupOrder crews) : e.2.1 = e.2.2.tidx := by
    obtain ⟨cr, -, he⟩ := List.mem_flatMap.mp ((regroupSort_perm _).mem_iff.mp he)
    exact tidx_keyed he
  refine List.pairwise_map.mpr ((regroupSort_sorted _).imp_of_mem fun {a b} ha hb hle => ?_)
  rw [← htidx a ha, ← htidx b hb]
  exact (regroupKey_le_iff a b).mp hle

theorem crew_foldl_setCrew {β : Type} (key : β → CrewKey) (g : β → Crew) {l : List β} (hl : (l.map key).Nodup) {e : β} (he : e ∈ l)
    (u : State) : (l.foldl (fun u e => u.setCrew (key e) (g e)) u).crew? (key e) = some (g e) := by
  have hother (l : List β) (k : CrewKey) (hk : k ∉ l.map key) (u : State) :
      (l.foldl (fun u e => u.setCrew (key e) (g e)) u).crew? k = u.crew? k := by
    induction l generalizing u with
    | nil => rfl
    | cons b l ih =>
      rw [List.map_cons, List.mem_cons, not_or] at hk
      rw [List.foldl_cons, ih hk.2, State.crew_setCrew, if_neg hk.1]
  induction l generalizing u with
  | nil => cases he
  | cons b l ih =>
    obtain ⟨hb, hl⟩ := List.nodup_cons.mp hl
    rcases List.mem_cons.mp he with rfl | he
    · rw [List.foldl_cons, hother l _ hb, State.crew_setCrew, if_pos rfl]
    · exact ih hl he _

theorem getElem?_regroupShare (order : List (W32 × W32 × Thread)) (i : Nat) {j : Nat} (hj : j < 64) :
    (regroupShare order i)[j]? = (order[64 * i + j]?).map (fun e => e.2.2) := by
  rw [regroupShare, List.getElem?_take_of_lt hj, List.getElem?_drop, List.getElem?_map]

theorem exchanged_eq {cr : Crew} {n : Nat} {key : List (Option W32)} {sf : Option (Fin 12)} {b : Option FlagEntry} {nx : W64}
    (hb : cr.block = .regroup key n sf b nx) (ths : List Thread) :
    (cr.exchanged n ths).block = .none ∧ ∀ j, (cr.exchanged n ths).thr j = (cr.regrouped n ths).thr j := by
  rw [Crew.exchanged, hb]
  refine ⟨rfl, fun j => ?_⟩
  cases sf <;> rfl

/-- A workgroup whose crews all stand at a REGROUP is ready for the exchange (R152, R153). -/
theorem regroupExchange_eq {s : State} {core wg : Nat} {x : Wg} (hx : s.wg? core wg = some x)
    (hready : ∀ sl ∈ x.crews, (s.core core).stopped sl = false ∧
      ∃ cr key n sf b nx, s.crew? ⟨core, sl⟩ = some cr ∧ cr.block = .regroup key n sf b nx) :
    exec (.regroupExchange core wg) s = .next (s.regroupNow core x.crews) := by
  have hr : s.regroupReady core x.crews = true := by
    refine List.all_eq_true.mpr fun sl hsl => ?_
    obtain ⟨hstop, cr, key, n, sf, b, nx, hc, hb⟩ := hready sl hsl
    simp [hc, hb, hstop]
  exact (atWg_some hx _).trans (by rw [if_pos hr])

/-- Settles O23: what REGROUP does at issue turns on the crew's flags alone; the exchange sorts the threads by insertion on
one number, the key followed by TIDX, and sets each crew to its 64 of them. -/
theorem regroups : Obligations.Regroups := by
  unfold Obligations.Regroups
  refine ⟨fun h s x s1 a n hb hm hk hn => ⟨regroup_stands hb hm hk hn, regroup_waits hb hm hk hn⟩, ?exchange⟩
  intro s core wg x n hx hnodup hne hstand
  have hcrews : ∀ sl ∈ x.crews, ∃ cr, s.crew? ⟨core, sl⟩ = some cr ∧ ∃ key sf b nx, cr.block = .regroup key n sf b nx := by
    intro sl hsl
    obtain ⟨-, cr, key, sf, b, nx, hc, hb⟩ := hstand sl hsl
    exact ⟨cr, hc, key, sf, b, nx, hb⟩
  have : Nonempty Crew := by
    obtain ⟨sl, hsl⟩ := List.exists_mem_of_ne_nil _ hne
    exact ⟨(hcrews sl hsl).choose⟩
  choose! crewAt hcrew hblock using hcrews
  refine ⟨s.regroupNow core x.crews, regroupExchange_eq hx ?ready, _, regroupOrder_perm hcrew hblock, regroupOrder_sorted _, fun i hi => ?share⟩
  case ready =>
    intro sl hsl
    obtain ⟨hstop, cr, key, sf, b, nx, hc, hb⟩ := hstand sl hsl
    exact ⟨hstop, cr, key, n, sf, b, nx, hc, hb⟩
  case share =>
    obtain ⟨key, sf, b, nx, hb⟩ := hblock _ (List.getElem_mem hi)
    have hb' : (crewAt x.crews[i]).settled.block = .regroup key n sf b nx := (block_landIf ..).trans hb
    obtain ⟨hfree, hthr⟩ := exchanged_eq hb' (regroupShare (regroupOrder (x.crews.map (fun sl => (crewAt sl).settled))) i)
    refine ⟨_, ?found, hfree, fun j hj => ?_⟩
    case found =>
      rw [regroupNow_eq hcrew hblock hne]
      refine crew_foldl_setCrew (fun e => ⟨core, e.1.1⟩) _ (e := ((x.crews[i], (crewAt x.crews[i]).settled), i)) ?_ ?_ s
      · have hkeys : ((x.crews.map (fun sl => (sl, (crewAt sl).settled))).zipIdx.map (fun e => (⟨core, e.1.1⟩ : CrewKey))) =
            x.crews.map (fun sl => ⟨core, sl⟩) := by
          calc _ = (((x.crews.map (fun sl => (sl, (crewAt sl).settled))).zipIdx.map Prod.fst).map (fun e => ⟨core, e.1⟩)) := by
                rw [List.map_map]; rfl
            _ = _ := by rw [List.zipIdx_map_fst, List.map_map]; rfl
        rw [hkeys]
        exact hnodup.map fun a b hab => congrArg CrewKey.slot hab
      · rw [List.mem_zipIdx_iff_getElem?, List.getElem?_map, List.getElem?_eq_getElem hi]
        rfl
    have hpos := thr_regrouped (crewAt x.crews[i]).settled n (regroupShare (regroupOrder (x.crews.map (fun sl => (crewAt sl).settled))) i) hj
    rw [getElem?_regroupShare _ _ hj, ← hthr] at hpos
    rw [List.getElem?_map]
    cases hslot : (regroupOrder (x.crews.map (fun sl => (crewAt sl).settled)))[64 * i + j]? <;> rw [hslot] at hpos <;> exact hpos

end Sys2Proof.Machine
end

section
/-! PROOFS. Block exits, conditional exits, calls and returns, and EXITN (R161, R171-R173, R458): what the body of each control
instruction reads and answers, and the crew that it leaves. -/

namespace Sys2Proof.Machine

open Sys2Proof Sys2Proof.Claims

/-! ### Reads that go through -/

section
variable {σ ε α β : Type} {m : ExceptT ε (StateM σ) α} {f : α → ExceptT ε (StateM σ) β} {s : σ}

/-- A read that goes through hands its answer and its state on. -/
theorem bind_ok {t : σ} {v : α} (hm : m s = (.ok v, t)) : (m >>= f) s = f v t := by
  change (match m s with | (r, u) => (ExceptT.bindCont f r : StateM σ (Except ε β)) u) = _
  rw [hm]
  rfl

/-- Where a sequence of reads goes through, the first does, and the rest from there. -/
theorem bind_eq_ok {u : σ} {w : β} (hmf : (m >>= f) s = (.ok w, u)) : ∃ v t, m s = (.ok v, t) ∧ f v t = (.ok w, u) := by
  rcases hm : m s with ⟨_ | v, t⟩
  · change (match m s with | (r, u) => (ExceptT.bindCont f r : StateM σ (Except ε β)) u) = _ at hmf
    rw [hm] at hmf
    cases hmf
  · exact ⟨v, t, rfl, (bind_ok hm).symm.trans hmf⟩

end

/-! ### The threads that take part -/

/-- What is done to listed threads is done by place. -/
theorem modThrs_eq (cr : Crew) (l : List Nat) (f : Nat → Thread → Thread) :
    cr.modThrs l f = cr.mapThr (fun t th => if t ∈ l then f t th else th) := by
  simp only [Crew.modThrs, List.contains_iff_mem]

/-- Listed threads are treated alike by two functions that agree on them. -/
theorem modThrs_congr {l : List Nat} {f g : Nat → Thread → Thread} (hfg : ∀ t ∈ l, ∀ th, f t th = g t th) (cr : Crew) :
    cr.modThrs l f = cr.modThrs l g := by
  rw [modThrs_eq, modThrs_eq]
  congr 1
  funext t th
  split
  case isTrue ht => exact hfg t ht th
  case isFalse => rfl

/-! ### Block exits (R161, R169, R172, R173) -/

section
variable {h : Hdr} {s s1 s2 : State} {x : Cx} {i : Instr} {ok : Kernel → Bool}
  (hs : Issues h s x s1) (hm : x.crew.hmode = false)
include hs hm

/-- A control instruction whose body goes through with a change of the threads that take part. -/
theorem control_moves {body : Cx → Rd Ctl} {f : Nat → Thread → Thread} (hi : exec i s = control h ok (fun _ => Dest.none) body s)
    (hk : ok x.kernel = true) (hd : body x s1 = (.ok (.done (fun cr => cr.modThrs x.lanes f)), s2)) : Moves i s x s2 f := by
  refine hi.trans ((control_done hs.begins hm hk hs.runs hd).trans ?_)
  simp only [modThrs_eq]
  rfl

/-- Every target is a block of the region: each thread goes to its own. -/
theorem blockExit_moves {tgts : Cx → List Nat} {tgt : Cx → Nat → Nat} {yld : Bool}
    (hi : exec i s = blockExit h ok tgts tgt yld s) (hk : ok x.kernel = true) (ht : ∀ b ∈ tgts x, x.here.blockOk b = true) :
    Moves i s x s1 (fun t th => { th.toBlock (tgt x t) with yld := yld || th.yld }) := by
  refine control_moves hs hm hi hk ?_
  rw [if_pos (List.all_eq_true.mpr ht)]
  rfl

end

/-- Settles O18: each block exit is the shared one, with its own targets; EXIT is a control instruction that checks nothing. -/
theorem blockExits : Obligations.BlockExits := by
  unfold Obligations.BlockExits
  intro h s x s1 hs hm
  refine ⟨fun a tgt => ⟨fun hblock => ⟨?bx, ?yield⟩, fun hk hblock => ?bxi⟩, ?exit, ?nop⟩
  case bx =>
    exact blockExit_moves hs hm (ok := fun _ => true) (tgts := fun _ => [tgt.toNat]) (tgt := fun _ _ => tgt.toNat) (yld := false) rfl rfl
      (List.forall_mem_singleton.mpr hblock)
  case yield =>
    exact blockExit_moves hs hm (ok := fun _ => true) (tgts := fun _ => [tgt.toNat]) (tgt := fun _ _ => tgt.toNat) (yld := true) rfl rfl
      (List.forall_mem_singleton.mpr hblock)
  case bxi =>
    exact blockExit_moves hs hm (ok := fun k => k.s1 a) (tgts := fun x => x.lanes.map (fun t => (x.rd t a).toNat % 32))
      (tgt := fun x t => (x.rd t a).toNat % 32) (yld := false) rfl hk (List.forall_mem_map.mpr hblock)
  case exit =>
    exact control_moves hs hm (ok := fun _ => true) (body := fun x => pure (.done (fun cr => cr.modThrs x.lanes (fun _ th => th.setExited true))))
      rfl rfl rfl
  case nop => exact (withCx_eq hs.begins _).trans (by rw [hs.runs]; rfl)

/-! ### The conditional exit (R171) -/

section
variable (x : Cx) (once : Bool) (tt tf : BitVec 5) (pc : Pred)

/-- The threads whose condition is true. -/
def Cx.bxcOnes : List Nat := x.lanes.filter (fun t => x.pred t pc)
/-- Under ONCE a condition differs. -/
def Cx.bxcDiffer : Bool := once && !(x.bxcOnes pc).isEmpty && (x.bxcOnes pc).length != x.lanes.length
/-- The condition by which a thread goes. -/
def Cx.bxcWay (t : Nat) : Bool := if x.bxcDiffer once pc then (x.bxcOnes pc).contains (x.lanes.headD 0) else (x.bxcOnes pc).contains t
/-- What BXC answers: by the blocks, then by the condition. -/
def Cx.bxcAnswer : Ctl :=
  if !(x.here.blockOk tt.toNat && x.here.blockOk tf.toNat) then .bad
  else if x.bxcDiffer once pc && x.kernel.univ then .exc (x.exc 0x05 (maskOf 64 (x.bxcOnes pc)) true)
  else .done (fun cr => (if x.bxcDiffer once pc then cr.raiseUv else cr).modThrs x.lanes (fun t th =>
    th.toBlock (if x.bxcWay once pc t then tt.toNat else tf.toNat)))

end

section
variable {x : Cx} {once : Bool} {tt tf : BitVec 5} {pc : Pred}

/-- BXC reads nothing. -/
theorem bxc_eq (h : Hdr) (s : State) : exec (.bxc h once tt tf pc) s =
    control h (fun _ => true) (fun _ => Dest.none) (fun x => pure (x.bxcAnswer once tt tf pc)) s := by
  refine congrArg (fun body => control h (fun _ => true) (fun _ => Dest.none) body s) (funext fun x => ?_)
  rw [Cx.bxcAnswer, apply_ite pure, apply_ite pure]
  rfl

theorem mem_bxcOnes {t : Nat} : t ∈ x.bxcOnes pc ↔ t ∈ x.lanes ∧ x.pred t pc = true := List.mem_filter

/-- The condition differs where one thread's is true and another's is false. -/
theorem bxcDiffer_iff : x.bxcDiffer once pc = true ↔
    once = true ∧ ∃ t ∈ x.lanes, ∃ u ∈ x.lanes, x.pred t pc ≠ x.pred u pc := by
  have hsome : (x.bxcOnes pc).isEmpty = false ↔ ∃ t ∈ x.lanes, x.pred t pc = true := by
    rw [List.isEmpty_eq_false_iff_exists_mem]
    simp only [mem_bxcOnes]
  have hall : (x.bxcOnes pc).length = x.lanes.length ↔ ∀ t ∈ x.lanes, x.pred t pc = true := List.length_filter_eq_length_iff
  simp only [Cx.bxcDiffer, Bool.and_eq_true, Bool.not_eq_true', bne_iff_ne, ne_eq, hsome, hall, and_assoc]
  refine and_congr_right fun _ => ⟨?_, ?_⟩
  · rintro ⟨⟨t, ht, hct⟩, hnot⟩
    push Not at hnot
    obtain ⟨u, hu, hcu⟩ := hnot
    exact ⟨t, ht, u, hu, fun he => hcu (he ▸ hct)⟩
  · rintro ⟨t, ht, u, hu, hne⟩
    cases hct : x.pred t pc with
    | true => exact ⟨⟨t, ht, hct⟩, fun hnot => hne (hct.trans (hnot u hu).symm)⟩
    | false => exact ⟨⟨u, hu, Bool.eq_true_of_not_eq_false fun hcu => hne (hct.trans hcu.symm)⟩,
        fun hnot => Bool.false_ne_true (hct.symm.trans (hnot t ht))⟩

/-- Where none differs, a thread goes by its own condition. -/
theorem bxcWay_alike (hd : x.bxcDiffer once pc = false) {t : Nat} (ht : t ∈ x.lanes) : x.bxcWay once pc t = x.pred t pc := by
  rw [Cx.bxcWay, hd, if_neg Bool.false_ne_true, Bool.eq_iff_iff, List.contains_iff_mem, mem_bxcOnes]
  exact and_iff_right ht

/-- Where one differs, every thread goes by the lowest thread's. -/
theorem bxcWay_differ (hd : x.bxcDiffer once pc = true) (t : Nat) : x.bxcWay once pc t = x.pred (x.lanes.headD 0) pc := by
  obtain ⟨-, u, hu, -⟩ := bxcDiffer_iff.mp hd
  have hhead : x.lanes.headD 0 ∈ x.lanes := by
    cases hl : x.lanes with
    | nil => rw [hl] at hu; cases hu
    | cons v l => exact List.mem_cons_self
  rw [Cx.bxcWay, hd, if_pos rfl, Bool.eq_iff_iff, List.contains_iff_mem, mem_bxcOnes]
  exact and_iff_right hhead

end

/-- Settles O19: what BXC answers is decided by the two blocks and by whether the condition differs. -/
theorem conditionalExit : Obligations.ConditionalExit := by
  unfold Obligations.ConditionalExit
  intro h s x s1 once tt tf pc hs hm blocks c differs
  have hchecks : (!(x.here.blockOk tt.toNat && x.here.blockOk tf.toNat)) = false ↔ blocks := by simp [blocks]
  have hdiffer : x.bxcDiffer once pc = true ↔ once = true ∧ differs := bxcDiffer_iff
  refine ⟨fun hb hd => ?alike, fun hb ho hd hu => ?lowest, fun hb ho hd hu => ?trap, fun hb => ?bad⟩
  case alike =>
    have hd' : x.bxcDiffer once pc = false := by
      rw [← Bool.not_eq_true, hdiffer]
      rintro ⟨ho, hdiff⟩
      rcases hd with hone | hsame
      · exact Bool.false_ne_true (hone.symm.trans ho)
      · exact hsame hdiff
    refine control_moves hs hm (ok := fun _ => true) (bxc_eq h s) rfl ?_
    rw [Cx.bxcAnswer, hchecks.mpr hb, hd', Bool.false_and]
    refine congrArg (fun f => (Except.ok (Ctl.done f), s1)) (funext fun cr => modThrs_congr (fun t ht th => ?_) cr)
    rw [bxcWay_alike hd' ht]
  case lowest =>
    have hd' := hdiffer.mpr ⟨ho, hd⟩
    refine (bxc_eq h s).trans ((control_done hs.begins hm rfl hs.runs (f := fun cr => cr.raiseUv.modThrs x.lanes (fun _ th =>
      th.toBlock (if c (x.lanes.headD 0) then tt.toNat else tf.toNat))) ?_).trans rfl)
    rw [Cx.bxcAnswer, hchecks.mpr hb, hd', hu, Bool.and_false]
    refine congrArg (fun f => (Except.ok (Ctl.done f), s1)) (funext fun cr => modThrs_congr (fun t _ th => ?_) _)
    rw [bxcWay_differ hd']
  case trap =>
    refine ⟨maskOf 64 (x.bxcOnes pc), fun j hj => ?_, (bxc_eq h s).trans (control_exc hs.begins hm rfl hs.runs ?_)⟩
    · rw [getLsbD_maskOf _ hj, decide_eq_true_iff, mem_bxcOnes]
    · rw [Cx.bxcAnswer, hchecks.mpr hb, hdiffer.mpr ⟨ho, hd⟩, hu]
      rfl
  case bad =>
    refine (bxc_eq h s).trans (control_bad hs.begins hm rfl hs.runs ?_)
    rw [Cx.bxcAnswer, if_pos (by rw [← Bool.not_eq_false, hchecks]; exact hb)]
    rfl

/-! ### Calls and returns (R172, R173) -/

section
variable {h : Hdr} {s s1 s2 : State} {x : Cx} {link : Fin 192} {a : Src} {rb : BitVec 5}
  (hs : Issues h s x s1) (hm : x.crew.hmode = false)
include hs hm

/-- CALL, where its block and the images stand (R172): the threads have moved, and the link is owed. -/
theorem call_eq (hk : (x.kernel.r1 (.v link) && x.kernel.s1 a) = true) (hrb : x.here.blockOk rb.toNat = true)
    (hok : allOk .now x.acc x.crew.dir.toNat x.crew.nreg (x.lanes.map (fun t => x.rd t a)) s1 = (.ok true, s2)) :
    exec (.call h link a rb) s = .next ((s2.issueCost x 0).modCrew x.key (fun cr =>
      let cr := (x.flagUp cr (Dest.reg (.v link) 1)).landFixed.modThrs x.lanes (fun t th =>
        th.goto (imageRegion (x.rd t a)) (imageBlock (x.rd t a)))
      { (cr.advance x.next) with
        owed := cr.owed ++ [{ id := cr.nextId, flag := x.h.sf, due := none, fps := 0, sat := false, link := true,
                              writes := x.lanes.map (fun t => .v t link.val (linkOf (x.crew.thr t) rb)) }],
        nextId := cr.nextId + 1 })) := by
  have hread := (bind_ok hok (f := fun ok => (pure (x.here.blockOk rb.toNat && ok) : Rd Bool))).trans
    (show _ = (Except.ok true, s2) by rw [hrb]; rfl)
  refine (withCx_eq hs.begins _).trans ?_
  simp only [hm, hk, hs.runs, hread, Bool.not_true, Bool.false_eq_true, if_false]
  rfl

/-- RET without a restore pair, where every image stands. -/
theorem ret_moves (hk : x.kernel.s1 a = true)
    (hok : allOk (.fetch true) x.acc x.crew.dir.toNat x.crew.nreg (x.lanes.map (fun t => x.rd t a)) s1 = (.ok true, s2)) :
    Moves (.ret h a .z) s x s2 (fun t th => th.goto (imageRegion (x.rd t a)) (imageBlock (x.rd t a))) :=
  control_moves hs hm (ok := fun kn => kn.s1 a) rfl hk (bind_ok hok)

end

/-! ### EXITN (R75, R172) -/

/-- Where each index names a region of the directory, EXITN's reads are those of the regions, in the order of the threads. -/
theorem exitnReads {w : Via} {acc : Acc} {dir nreg : Nat} {ri : Nat → Nat} {l : List Nat} (hri : ∀ t ∈ l, ri t < nreg) {rs : List Region}
    {s s2 : State} (hrs : l.mapM (fun t => regionVia w acc dir (ri t)) s = (.ok rs, s2)) :
    l.mapM (fun t => (do
      if ri t < nreg then
        let r ← regionVia w acc dir (ri t)
        return (t, ri t, some r)
      else return (t, ri t, none) : Rd (Nat × Nat × Option Region))) s =
      (.ok ((l.zip rs).map (fun e => (e.1, ri e.1, some e.2))), s2) := by
  induction l generalizing s rs with
  | nil =>
    cases hrs
    rfl
  | cons t l ih =>
    obtain ⟨ht, hl⟩ := List.forall_mem_cons.mp hri
    rw [List.mapM_cons] at hrs ⊢
    obtain ⟨r, u, hr, hrest⟩ := bind_eq_ok hrs
    obtain ⟨rs', v, hrs', hret⟩ := bind_eq_ok hrest
    cases hret
    refine (bind_ok (v := (t, ri t, some r)) (t := u) ?_).trans ((bind_ok (ih hl hrs')).trans rfl)
    rw [if_pos ht]
    exact bind_ok hr

/-- A thread that EXITN has put at a successor. -/
def Thread.exitn (th : Thread) (k : BitVec 8) (ri : Nat) (r : Region) : Thread :=
  { th with v := th.v.filter (fun v => decide (v.1 < k.toNat)), p := 0, br := mkBr false false ri r.eblk, holdCnt := 0, yld := false }

theorem exitn_eq {h : Hdr} {s s1 s2 : State} {x : Cx} {k : BitVec 8} {a : Src} {rs : List Region} (hs : Issues h s x s1)
    (hm : x.crew.hmode = false) (hk : x.kernel.s1 a = true) (hv : k.toNat ≤ x.kernel.vregs)
    (hri : ∀ t ∈ x.lanes, (x.rd t a).toNat % 512 < x.crew.nreg)
    (hrs : x.lanes.mapM (fun t => regionVia .now x.acc x.crew.dir.toNat ((x.rd t a).toNat % 512)) s1 = (.ok rs, s2))
    (hnode : ∀ r ∈ rs, r.node = true) :
    exec (.exitn h k a) s = .next (movedTo x s2 (exitnDest k x.kernel) (fun cr => (x.lanes.zip rs).foldl
      (fun cr e => cr.modThr e.1 (fun th => th.exitn k ((x.rd e.1 a).toNat % 512) e.2)) cr)) := by
  refine (control_done hs.begins hm (ok := fun kn => kn.s1 a) hk hs.runs
    (f := fun cr => (x.lanes.zip rs).foldl (fun cr e => cr.modThr e.1 (fun th => th.exitn k ((x.rd e.1 a).toNat % 512) e.2)) cr) ?_)
  rw [if_neg (by omega)]
  refine (bind_ok (exitnReads hri hrs)).trans ?_
  rw [if_pos]
  · refine congrArg (fun f => (Except.ok (Ctl.done f), s2)) (funext fun cr => ?_)
    rw [List.foldl_map]
    rfl
  · refine List.all_eq_true.mpr (List.forall_mem_map.mpr fun e he => ?_)
    exact hnode _ (List.of_mem_zip he).2

/-- Settles O20: CALL, RET and EXITN each go through once the regions that they name have been read. -/
theorem callsAndExits : Obligations.CallsAndExits := by
  unfold Obligations.CallsAndExits
  refine ⟨fun h s x s1 hs hm => ⟨fun link a rb s2 hk hrb hok => ?call, fun a s2 hk hok => ret_moves hs hm hk hok⟩,
    fun h s x s1 k a s2 rs hs hm hk hv hri hrs hnode => exitn_eq hs hm hk hv hri hrs hnode⟩
  case call =>
    obtain ⟨-, -, -, -, rfl, -⟩ := State.begin_cases hs.begins
    exact call_eq hs hm hk hrb hok

/-! ### Calls between programs (R172, R458) -/

/-- What CALLI does to a crew: link and restore pair land, and the threads stand at the entry of the program whose header follows. -/
def Cx.calli (x : Cx) (link : Fin 192) (sa save : SPair) (rb : BitVec 5) (hd : Head) (e : Nat) (r : Region) (cr : Crew) : Crew :=
  Crew.endSweep { ((cr.landAll (x.lanes.map (fun t => .v t link.val (linkOf (x.crew.thr t) rb)) ++ wrPair save x.crew.hb)).modThrs
      x.lanes (fun _ th => th.goto e r.eblk)) with
    hb := x.rdPair sa - 64, dir := BitVec.ofNat 64 hd.dir, nreg := hd.nreg, rdesc := r.raw }

/-- What RET with a restore pair does to a crew. -/
def Cx.retTo (x : Cx) (a : Src) (restore : SPair) (hd : Head) (cr : Crew) : Crew :=
  Crew.endSweep { (cr.modThrs x.lanes (fun t th => th.goto (imageRegion (x.rd t a)) (imageBlock (x.rd t a)))) with
    hb := x.rdPair restore, dir := BitVec.ofNat 64 hd.dir, nreg := hd.nreg }

section
variable {h : Hdr} {s s1 s2 s3 : State} {x : Cx} {a : Src} {hd : Head} {e : Nat} {r : Region}
  (hs : Issues h s x s1) (hm : x.crew.hmode = false) (hl : x.everyLive = true)

include hl in
/-- Where every live thread takes part and the checks go through, the crew votes as the instruction leaves it. -/
theorem voting_vote {dst : Dest} {body : Rd (Option (Crew → Crew))} {f : Crew → Crew} (hbody : body s1 = (.ok (some f), s2)) :
    x.voting s1 dst body = x.voteNow s2 ((f (x.flagUp x.crew dst).landFixed.landLinks).flagDown x.h.sf) true dst := by
  rw [Cx.voting, hl, hbody]
  rfl

include hs hm hl

theorem calli_eq {link : Fin 192} {sa save : SPair} {rb : BitVec 5}
    (hk : (x.kernel.r1 (.v link) && x.kernel.spairOk sa && x.kernel.spairOk save) = true)
    (hhead : checkHead x.acc x.kernel (x.rdPair sa - 64) s1 = (.ok (some (hd, e, r)), s2)) (hrb : x.here.blockOk rb.toNat = true) :
    exec (.calli h link sa save rb) s = .next (x.voteNow s2
      ((x.calli link sa save rb hd e r (x.flagUp x.crew (Dest.reg (.v link) 1)).landFixed.landLinks).flagDown x.h.sf) true
      (Dest.reg (.v link) 1)) := by
  refine (withCx_eq hs.begins _).trans ?_
  simp only [hm, hk, hs.runs, Bool.not_true, Bool.false_eq_true, if_false]
  refine congrArg Host.Outcome.next (voting_vote hl (f := x.calli link sa save rb hd e r) ((bind_ok hhead).trans ?_))
  simp only [hrb, Bool.not_true, Bool.false_eq_true, if_false]
  rfl

theorem retRestore_eq {k : Fin 31} (hk : (x.kernel.s1 a && x.kernel.spairOk (.pr k)) = true)
    (hhead : checkHead x.acc x.kernel (x.rdPair (.pr k)) s1 = (.ok (some (hd, e, r)), s2))
    (hok : allOk (.fetch true) x.acc hd.dir hd.nreg (x.lanes.map (fun t => x.rd t a)) s2 = (.ok true, s3)) :
    exec (.ret h a (.pr k)) s = .next (x.voteNow s3
      ((x.retTo a (.pr k) hd (x.flagUp x.crew Dest.none).landFixed.landLinks).flagDown x.h.sf) true Dest.none) := by
  refine (withCx_eq hs.begins _).trans ?_
  simp only [hm, hk, hs.runs, Bool.not_true, Bool.false_eq_true, if_false]
  exact congrArg Host.Outcome.next (voting_vote hl (f := x.retTo a (.pr k) hd) ((bind_ok hhead).trans ((bind_ok hok).trans rfl)))

end

/-- Settles O21: once the named program's header has been checked, the crew votes as the call or return leaves it. -/
theorem callsBetweenPrograms : Obligations.CallsBetweenPrograms := by
  unfold Obligations.CallsBetweenPrograms
  intro h s x s1 hs hm hl
  obtain ⟨-, -, -, -, rfl, -⟩ := State.begin_cases hs.begins
  exact ⟨fun link sa save rb hd e r s2 hk hhead hrb => calli_eq hs hm hl hk hhead hrb,
    fun a k hd e s2 s3 hk hhead hok => retRestore_eq hs hm hl hk hhead hok⟩

end Sys2Proof.Machine
end

section
/-! PROOFS. The vote (R159, R162, R165, R168-R170): the slots that a lookup probes, the voters and their set, what a vote answers by
its lookup, and what it changes of the crew. -/

namespace Sys2Proof.Machine

open Sys2Proof Sys2Proof.Claims

/-! ### The meters of a vote -/

/-- The clock is part of neither the core nor the domain that a charge writes. -/
theorem now_charge (s : State) (c w : Nat) (p : Place) (cls n : Nat) : (s.charge c w p cls n).now = s.now := by
  unfold State.charge
  split
  · rfl
  · dsimp only
    split <;> rfl

theorem now_issueCost (s : State) (x : Cx) (cls : Nat) : (s.issueCost x cls).now = s.now := by
  have hcount (t : State) (ev n : Nat) : (t.countCx x ev n).now = t.now := rfl
  have hcharge (t : State) (cls n : Nat) : (t.chargeCx x cls n).now = t.now := now_charge ..
  unfold State.issueCost
  split
  · rfl
  · dsimp only
    split
    · rw [hcount, hcharge]
    · split
      · rw [hcharge, hcount, hcharge]
      · split
        · rw [hcount, hcount, hcharge]
        · rw [hcount, hcharge, hcount, hcharge]

/-- The state once a vote has been charged and counted: it counts where it is no sweep's continuation, and an absent set counts as
well (events 3 and 4 of R340). -/
def Cx.voteCounted (x : Cx) (s : State) (v : Vote) : State :=
  match v with
  | .finished => s.issueCost x 0
  | .trap _ _ => ((s.issueCost x 0).countCx x 3 1).countCx x 4 1
  | .enter _ _ _ _ _ _ _ counted absent _ =>
    if counted then (if absent then ((s.issueCost x 0).countCx x 3 1).countCx x 4 1 else (s.issueCost x 0).countCx x 3 1)
    else s.issueCost x 0

/-- Only the meters know of the count. -/
theorem voteCounted_frame (x : Cx) (s : State) (v : Vote) : (x.voteCounted s v).mem = s.mem ∧ (∀ k, (x.voteCounted s v).crew? k = s.crew? k) ∧
    (x.voteCounted s v).now = s.now := by
  have hissue : (s.issueCost x 0).mem = s.mem ∧ (∀ k, (s.issueCost x 0).crew? k = s.crew? k) ∧ (s.issueCost x 0).now = s.now :=
    ⟨State.issueCost_mem .., State.issueCost_crew s x 0, now_issueCost ..⟩
  have hcount {t : State} (ev : Nat) (ht : t.mem = s.mem ∧ (∀ k, t.crew? k = s.crew? k) ∧ t.now = s.now) :
      (t.countCx x ev 1).mem = s.mem ∧ (∀ k, (t.countCx x ev 1).crew? k = s.crew? k) ∧ (t.countCx x ev 1).now = s.now := by
    obtain ⟨hmem, hcrew, hnow⟩ := ht
    exact ⟨hmem, fun k => (State.count_crew ..).trans (hcrew k), hnow⟩
  cases v with
  | finished =>
    rw [Cx.voteCounted]
    exact hissue
  | trap m ri =>
    rw [Cx.voteCounted]
    exact hcount 4 (hcount 3 hissue)
  | enter ri f go vt run swp sweep counted absent time =>
    rw [Cx.voteCounted]
    split
    · split
      · exact hcount 4 (hcount 3 hissue)
      · exact hcount 3 hissue
    · exact hissue

/-! ### The vote of an instruction (R165, R170) -/

section
variable {x : Cx} {s s2 : State} {cr : Crew} {owed : Bool} {dst : Dest}

theorem voteNow_error {e : AccFail} (hv : vote x.acc x.seq x.kernel cr s = (.error e, s2)) :
    x.voteNow s cr owed dst = x.readFault s2 e dst := by
  rw [Cx.voteNow, hv]

/-- The crew stands at what the vote says, and is occupied for its time. -/
theorem voteNow_ok {v : Vote} (hv : vote x.acc x.seq x.kernel cr s = (.ok v, s2)) (hno : ∀ m ri, v ≠ .trap m ri) :
    x.voteNow s cr owed dst = (x.voteCounted s2 v).setCrew x.key { (cr.applyVote v) with
      ready := s2.now + v.time + 1, voteTill := s2.now + v.time + 1 } := by
  obtain ⟨-, -, hnow⟩ := voteCounted_frame x s2 v
  rw [← hnow, Cx.voteNow, hv]
  cases v with
  | finished => rfl
  | trap m ri => exact absurd rfl (hno m ri)
  | enter ri f go vt run swp sweep counted absent time =>
    cases counted <;> cases absent <;> simp only [Cx.voteCounted, if_true, if_false, Bool.false_eq_true]

/-- An absent set that traps. -/
theorem voteNow_trap {m : BitVec 31} {ri : Nat} (hv : vote x.acc x.seq x.kernel cr s = (.ok (.trap m ri), s2)) :
    x.voteNow s cr owed dst = raiseAt ((x.voteCounted s2 (.trap m ri)).setCrew x.key
      { (cr.applyVote (.trap m ri)) with votePending := owed, replay := none, bpSkip := false }) x.key
      (x.exc 0x04 (absentArg m ri cr.ss) true) := by
  rw [Cx.voteNow, hv]
  rfl

end

theorem next_votes {h : Hdr} {s s1 : State} {x : Cx} (hb : s.begin h = some (x, s1)) (hm : x.crew.hmode = false) :
    exec (.next h) s = .next (x.voteNow s1 x.crew.landFixed.landLinks false Dest.none) :=
  (withCx_eq hb _).trans (by rw [hm, if_neg Bool.false_ne_true])

/-! ### Find (R159) -/

/-- A slot holds the set. -/
def StateD.holds (d : StateD) (m : BitVec 31) : Prop := d.valid = true ∧ d.top = false ∧ d.set = m

theorem holds_iff {d : StateD} {m : BitVec 31} : d.holds m ↔ d.valid = true ∧ d.isSet m = true := by
  rw [StateD.holds, StateD.isSet, Bool.and_eq_true, Bool.not_eq_true', beq_iff_eq]

/-- What probing up to `f` slots from the `i`th on has read, and its answer. -/
structure Probed (m : BitVec 31) (place : Nat → Nat) (f i : Nat) (res : Option StateD) (l : List (Nat × StateD)) : Prop where
  few    : l.length ≤ f
  places : l.map Prod.fst = (List.range' i l.length).map place
  filled : ∀ e ∈ l.dropLast, e.2.valid = true
  passed : ∀ e ∈ l.dropLast, ¬ e.2.holds m
  found  : ∀ d, res = some d → d.holds m ∧ l.getLast?.map Prod.snd = some d
  absent : res = none → (∀ e ∈ l, ¬ e.2.holds m) ∧ (l.length = f ∨ ∃ e, l.getLast? = some e ∧ e.2.valid = false)

section
variable {m : BitVec 31} {place : Nat → Nat} {f i : Nat} {res : Option StateD} {d : StateD} {l : List (Nat × StateD)}

/-- One probe that ends the search: an empty slot. -/
theorem Probed.empty (hd : d.valid = false) : Probed m place (f + 1) i none [(place i, d)] where
  few := by simp
  places := rfl
  filled := nofun
  passed := nofun
  found := nofun
  absent _ := ⟨List.forall_mem_singleton.mpr fun h => Bool.false_ne_true (hd.symm.trans h.1), .inr ⟨_, rfl, hd⟩⟩

/-- One probe that ends the search: the set's slot. -/
theorem Probed.hit (hd : d.holds m) : Probed m place (f + 1) i (some d) [(place i, d)] where
  few := by simp
  places := rfl
  filled := nofun
  passed := nofun
  found := fun _ he => Option.some.inj he ▸ ⟨hd, rfl⟩
  absent := nofun

/-- A probe that finds another set, and those that follow. -/
theorem Probed.cons (hv : d.valid = true) (hd : ¬ d.holds m) (hl : Probed m place f (i + 1) res l) :
    Probed m place (f + 1) i res ((place i, d) :: l) := by
  have hlast {e : Nat × StateD} (he : e ∈ ((place i, d) :: l).dropLast) : e = (place i, d) ∨ e ∈ l.dropLast := by
    cases l with
    | nil => cases he
    | cons e' l => exact List.mem_cons.mp he
  refine ⟨Nat.succ_le_succ hl.few, ?places, fun e he => ?filled, fun e he => ?passed, fun d' hres => ?found, fun hres => ?absent⟩
  case places => rw [List.map_cons, hl.places]; rfl
  case filled =>
    rcases hlast he with rfl | he
    · exact hv
    · exact hl.filled e he
  case passed =>
    rcases hlast he with rfl | he
    · exact hd
    · exact hl.passed e he
  case found =>
    obtain ⟨hh, hl'⟩ := hl.found d' hres
    cases l with
    | nil => cases hl'
    | cons e l => exact ⟨hh, hl'⟩
  case absent =>
    obtain ⟨hall, hend⟩ := hl.absent hres
    refine ⟨List.forall_mem_cons.mpr ⟨hd, hall⟩, ?_⟩
    rcases hend with hlen | ⟨e, he, hv⟩
    · exact .inl (congrArg (· + 1) hlen)
    · cases l with
      | nil => cases he
      | cons e' l => exact .inr ⟨e, he, hv⟩

end

/-- Probing reads slots one after the other until one ends it. -/
theorem probe_reads {a : Acc} {r : Region} {m : BitVec 31} {h f i n : Nat} {s s2 : State} {res : Option StateD}
    (hp : probe a r m h f i s = (.ok (res, n), s2)) :
    ∃ l, SlotReads a r l s s2 ∧ n = i + l.length ∧ Probed m (fun i => (h + i) % 2 ^ r.logdir) f i res l := by
  induction f generalizing i s with
  | zero =>
    cases hp
    exact ⟨[], rfl, rfl, ⟨le_rfl, rfl, nofun, nofun, nofun, fun _ => ⟨nofun, .inl rfl⟩⟩⟩
  | succ f ih =>
    obtain ⟨d, t, hd, hrest⟩ := bind_eq_ok hp
    split at hrest
    case isTrue hv =>
      cases hrest
      exact ⟨[(_, d)], ⟨_, hd, rfl⟩, rfl, .empty (by simpa using hv)⟩
    case isFalse hv =>
      have hv : d.valid = true := by simpa using hv
      split at hrest
      case isTrue hm =>
        cases hrest
        exact ⟨[(_, d)], ⟨_, hd, rfl⟩, rfl, .hit (holds_iff.mpr ⟨hv, hm⟩)⟩
      case isFalse hm =>
        obtain ⟨l, hl, hn, hprobed⟩ := ih hrest
        refine ⟨(_, d) :: l, ⟨t, hd, hl⟩, by rw [hn, List.length_cons]; omega, hprobed.cons hv fun h => hm (holds_iff.mp h).2⟩

theorem findSlot_one {a : Acc} {r : Region} {m : BitVec 31} {b : Nat} (hb : bitsOf m = [b]) : findSlot a r m = (do
    let d ← readSlot a r (r.single + b)
    return (if d.valid && d.isSet m then some d else none, 1)) := by
  rw [findSlot, hb]

theorem findSlot_many {a : Acc} {r : Region} {m : BitVec 31} (hb : ∀ b, bitsOf m ≠ [b]) :
    findSlot a r m = probe a r m (stateHash r.logdir m.toNat) (2 ^ r.logdir) 0 := by
  rw [findSlot]
  split
  case h_1 b hone => exact absurd hone (hb b)
  case h_2 => rfl

/-- R159: the one slot of a set of one block, and the slots probed for any other. -/
theorem findsSlots : FindsSlots := by
  intro a r m s res n s2 hfind
  by_cases hone : ∃ b, bitsOf m = [b]
  case pos =>
    obtain ⟨b, hb⟩ := hone
    rw [findSlot_one hb] at hfind
    obtain ⟨d, t, hd, hret⟩ := bind_eq_ok hfind
    have hholds : (d.valid && d.isSet m) = true ↔ d.holds m := by rw [holds_iff, Bool.and_eq_true]
    cases hret
    refine ⟨[(r.single + b, d)], ⟨_, hd, rfl⟩, rfl, fun c hc => ?place, fun hmany => absurd hb (hmany b), fun e he => ?found,
      fun he => ?absent⟩
    case place => cases hb.symm.trans hc; rfl
    case found =>
      split at he
      case isTrue hm => cases he; exact ⟨hholds.mp hm, rfl, nofun⟩
      case isFalse => cases he
    case absent =>
      split at he
      case isTrue => cases he
      case isFalse hm => exact List.forall_mem_singleton.mpr (mt hholds.mpr hm)
  case neg =>
    have hmany (b : Nat) (hb : bitsOf m = [b]) : False := hone ⟨b, hb⟩
    rw [findSlot_many hmany] at hfind
    obtain ⟨l, hl, hn, hp⟩ := probe_reads hfind
    rw [Nat.zero_add] at hn
    subst hn
    refine ⟨l, hl, rfl, fun b hb => (hmany b hb).elim, fun _ => ⟨hp.few, ?_, hp.filled, fun he => (hp.absent he).2⟩,
      fun d he => ?found, fun he => (hp.absent he).1⟩
    case found =>
      obtain ⟨hd, hlast⟩ := hp.found d he
      exact ⟨hd, hlast, hp.passed⟩
    rw [hp.places, List.range_eq_range']
    rfl

/-! ### The lookup (R162) -/

section
variable {core q dir ri : Nat} {m : BitVec 31} {s : State}

theorem cached_hit {f : Found} (hf : s.cacheFind core q dir ri m = some f) :
    cached core q dir ri m s = (.ok (some f), s.cachePut core q dir ri m f) := by
  refine (bind_ok (v := s) (t := s) rfl).trans ?_
  rw [hf]
  rfl

theorem cached_miss (hf : s.cacheFind core q dir ri m = none) : cached core q dir ri m s = (.ok none, s) := by
  refine (bind_ok (v := s) (t := s) rfl).trans ?_
  rw [hf]
  rfl

end

/-- R162: a hit reads nothing, and what the directory holds is cached. -/
theorem looksUp : LooksUp := by
  intro a q dir ri m s
  refine ⟨fun f hf => ?hit, fun hf r s1 n s2 hr => ⟨fun d hd => ?found, fun hd => ?absent⟩⟩
  case hit => exact bind_ok (cached_hit hf)
  case found => exact (bind_ok (cached_miss hf)).trans ((bind_ok hr).trans (bind_ok hd))
  case absent => exact (bind_ok (cached_miss hf)).trans ((bind_ok hr).trans (bind_ok hd))

/-! ### Live threads and voters (R165) -/

section
variable {cr : Crew} {t ri : Nat}

theorem mem_live : t ∈ cr.live ↔ t < 64 ∧ (cr.thr t).exited = false := by
  rw [Crew.live, List.mem_filter, List.mem_range, Bool.not_eq_true']

theorem live_sorted (cr : Crew) : cr.live.Pairwise (· < ·) := List.pairwise_lt_range.filter _

/-- The live threads of a region. -/
def Crew.inReg (cr : Crew) (ri : Nat) : List Nat := cr.live.filter (fun t => (cr.thr t).region == ri)

theorem mem_inReg : t ∈ cr.inReg ri ↔ (t < 64 ∧ (cr.thr t).exited = false) ∧ (cr.thr t).region = ri := by
  rw [Crew.inReg, List.mem_filter, mem_live, beq_iff_eq]

/-- The voters of a region: those that have not yielded, or all of them where all have. -/
def Crew.voters (cr : Crew) (ri : Nat) : List Nat :=
  if ((cr.inReg ri).filter (fun t => !(cr.thr t).yld)).isEmpty then cr.inReg ri else (cr.inReg ri).filter (fun t => !(cr.thr t).yld)

theorem mem_voters : t ∈ cr.voters ri ↔ (t < 64 ∧ (cr.thr t).exited = false) ∧ (cr.thr t).region = ri ∧
    ((cr.thr t).yld = false ∨ ∀ u, u < 64 ∧ (cr.thr u).exited = false → (cr.thr u).region = ri → (cr.thr u).yld = true) := by
  have hall : ((cr.inReg ri).filter (fun t => !(cr.thr t).yld)).isEmpty = true ↔
      ∀ u, u < 64 ∧ (cr.thr u).exited = false → (cr.thr u).region = ri → (cr.thr u).yld = true := by
    rw [List.isEmpty_iff, List.filter_eq_nil_iff]
    simp only [mem_inReg, and_imp, Bool.not_eq_true', Bool.not_eq_false]
  rw [Crew.voters, ← hall, ← and_assoc]
  split
  case isTrue hempty => rw [mem_inReg]; exact (and_iff_left (.inr hempty)).symm
  case isFalse hsome => rw [List.mem_filter, mem_inReg, Bool.not_eq_true', or_iff_left hsome]

/-- The region that votes: the crew's, or where it holds no live thread that of the thread `t0`. -/
def Crew.voteReg (cr : Crew) (t0 : Nat) : Nat := if (cr.inReg cr.cr).isEmpty then (cr.thr t0).region else cr.cr

theorem inReg_isEmpty : (cr.inReg ri).isEmpty = true ↔ ¬ ∃ t, (t < 64 ∧ (cr.thr t).exited = false) ∧ (cr.thr t).region = ri := by
  rw [List.isEmpty_iff, List.eq_nil_iff_forall_not_mem, not_exists]
  simp only [mem_inReg]

end

/-! ### Masks and sets of blocks -/

theorem mem_bitsOf {n b : Nat} {m : BitVec n} : b ∈ bitsOf m ↔ b < n ∧ m.getLsbD b = true := by
  rw [bitsOf, List.mem_filter, List.mem_range]

/-- The lowest bit of a set. -/
theorem headD_bitsOf {n b : Nat} {m : BitVec n} (hb : m.getLsbD b = true) (hlow : ∀ c < b, m.getLsbD c = false) (d : Nat) :
    (bitsOf m).headD d = b := by
  have hmem : b ∈ bitsOf m := mem_bitsOf.mpr ⟨BitVec.lt_of_getLsbD hb, hb⟩
  have hhead : (bitsOf m).head? = some b := by
    refine (head?_eq_some_iff (List.pairwise_lt_range.filter _) hmem).mpr fun c hc => ?_
    by_contra hlt
    exact Bool.false_ne_true ((hlow c (by omega)).symm.trans (mem_bitsOf.mp hc).2)
  rw [List.headD_eq_head?_getD, hhead]
  rfl

/-- A mask is that of the list that its bits name. -/
theorem eq_maskOf {n : Nat} {m : BitVec n} {l : List Nat} (hm : ∀ j < n, m.getLsbD j = true ↔ j ∈ l) : m = maskOf n l := by
  refine BitVec.eq_of_getLsbD_eq fun j hj => ?_
  rw [getLsbD_maskOf l hj, Bool.eq_iff_iff, hm j hj, decide_eq_true_iff]

theorem setOf_singleton (b : Nat) : setOf [b] = 1#31 <<< b := BitVec.zero_or

/-! ### The best cover (R165) -/

/-- Of two covers the first is at least as good: it has more blocks, or as many and no higher SID. -/
def StateD.beats (d e : StateD) : Prop :=
  (bitsOf e.set).length < (bitsOf d.set).length ∨ ((bitsOf e.set).length = (bitsOf d.set).length ∧ d.sid ≤ e.sid)

theorem bestCover_best {l : List StateD} (hl : l ≠ []) : ∃ d ∈ l, bestCover l = some d ∧ ∀ e ∈ l, d.beats e := by
  induction l with
  | nil => exact absurd rfl hl
  | cons d l ih =>
    have hrefl : d.beats d := .inr ⟨rfl, le_rfl⟩
    by_cases hnil : l = []
    case pos =>
      subst hnil
      exact ⟨d, List.mem_cons_self, rfl, List.forall_mem_singleton.mpr hrefl⟩
    case neg =>
      obtain ⟨e, he, hbest, hall⟩ := ih hnil
      rw [bestCover, hbest]
      dsimp only
      split
      case isTrue hover =>
        refine ⟨e, List.mem_cons_of_mem _ he, rfl, List.forall_mem_cons.mpr ⟨?_, hall⟩⟩
        rcases hover with hmore | ⟨hsame, hsid⟩
        · exact .inl hmore
        · exact .inr ⟨hsame.symm, hsid.le⟩
      case isFalse hover =>
        refine ⟨d, List.mem_cons_self, rfl, List.forall_mem_cons.mpr ⟨hrefl, fun e' he' => ?_⟩⟩
        have hbeats := hall e' he'
        unfold StateD.beats popBits at *
        omega

/-! ### What a vote answers (R165, R170) -/

section
variable {a : Acc} {q : Nat} {k : Kernel} {cr : Crew} {s s2 s3 s4 : State}

/-- The threads of a block that a sweep chose and that are held. -/
def Crew.sweepGo (cr : Crew) (b : Nat) : Mask := maskOf 64 (cr.live.filter (fun t =>
  (cr.thr t).swp && (cr.thr t).held && (cr.thr t).region == cr.cr && (cr.thr t).block == b))

/-- The next block of a sweep. -/
theorem vote_sweep {b : Nat} {f : Found} (hsweep : cr.sweep ≠ 0) (hb : (bitsOf cr.sweep).headD 0 = b)
    (hf : singleton a q cr.dir.toNat cr.cr b s = (.ok f, s2)) :
    vote a q k cr s = (.ok (.enter cr.cr f (cr.sweepGo b) 0 0 0 (cr.sweep &&& ~~~(setOf [b])) false false 4), s2) := by
  subst hb
  rw [vote, if_pos hsweep]
  exact bind_ok hf

theorem vote_finished (hsweep : cr.sweep = 0) (hlive : cr.live = []) : vote a q k cr s = (.ok .finished, s) := by
  rw [vote, if_neg (not_not_intro hsweep), hlive]
  rfl

/-- The ac of a vote that probed `n` slots, but for those of a cover (R170). -/
def Crew.voteTime (cr : Crew) (n : Nat) : Nat := 4 + n + if (cr.inReg cr.cr).isEmpty then 2 else 0

/-- The blocks of listed threads. -/
def Crew.blocksOf (cr : Crew) (l : List Nat) : BitVec 31 := setOf (l.map (fun t => (cr.thr t).block))

/-- The blocks of the voters at the hold limit. -/
def Crew.limit (cr : Crew) (ri : Nat) : BitVec 31 := cr.blocksOf ((cr.voters ri).filter (fun t => decide ((cr.thr t).holdCnt ≥ 16)))

/-- The voters whose block a set holds. -/
def Crew.votersIn (cr : Crew) (ri : Nat) (m : BitVec 31) : Mask :=
  maskOf 64 ((cr.voters ri).filter (fun t => m.getLsbD (cr.thr t).block))

/-- The voters of a block. -/
def Crew.votersAt (cr : Crew) (ri b : Nat) : Mask := maskOf 64 ((cr.voters ri).filter (fun t => (cr.thr t).block == b))

/-- What a vote of the region `ri` does where the voters' set is absent and does not trap. -/
def Crew.coverOrSweep (cr : Crew) (a : Acc) (q ri : Nat) (r : Region) (n : Nat) : Rd Vote := do
  let lim := cr.limit ri
  let vt := maskOf 64 (cr.voters ri)
  let ds ← allStates a r (2 ^ r.logdir) 0
  let time := cr.voteTime n + max 1 (2 ^ r.logdir / 4)
  match bestCover (ds.filter (·.covers (cr.blocksOf (cr.voters ri)) lim)) with
  | some d =>
    let e ← enterSlot a q cr.dir.toNat ri r d
    return .enter ri e (cr.votersIn ri d.set) vt (cr.votersIn ri d.set) 0 0 true true time
  | none =>
    let b := (bitsOf lim).headD ((bitsOf (cr.blocksOf (cr.voters ri))).headD 0)
    let e ← singleton a q cr.dir.toNat ri b
    return .enter ri e (cr.votersAt ri b) vt (cr.votersIn ri lim) (cr.votersIn ri lim) (lim &&& ~~~(setOf [b])) true true time

/-- What a vote of the region `ri` answers by the lookup of its voters' set. -/
def Crew.answer (cr : Crew) (a : Acc) (q : Nat) (k : Kernel) (ri : Nat) : Look → Rd Vote
  | .found f n =>
    let vt := maskOf 64 (cr.voters ri)
    return .enter ri f vt vt vt 0 0 true false (cr.voteTime n)
  | .absent r n => if k.absent && !cr.retry then return .trap (cr.blocksOf (cr.voters ri)) ri else cr.coverOrSweep a q ri r n

/-- Outside a sweep the set of the voters is looked up, and the vote answers by that. -/
theorem vote_looks {t0 : Nat} {l : List Nat} (hsweep : cr.sweep = 0) (hlive : cr.live = t0 :: l) :
    vote a q k cr = findState a q cr.dir.toNat (cr.voteReg t0) (cr.blocksOf (cr.voters (cr.voteReg t0))) >>=
      cr.answer a q k (cr.voteReg t0) := by
  rw [vote, if_neg (not_not_intro hsweep)]
  split
  case h_1 hnil => exact absurd (hnil.symm.trans hlive) nofun
  case h_2 t1 l1 hcons =>
    obtain ⟨rfl, rfl⟩ := List.cons.inj (hcons.symm.trans hlive)
    refine congrArg (findState a q cr.dir.toNat (cr.voteReg t1) (cr.blocksOf (cr.voters (cr.voteReg t1))) >>= ·) (funext fun look => ?_)
    cases look <;> rfl

/-- The best cover runs. -/
theorem coverOrSweep_cover {ri n : Nat} {r : Region} {ds : List StateD} {d : StateD} {f : Found}
    (hds : allStates a r (2 ^ r.logdir) 0 s2 = (.ok ds, s3))
    (hbest : bestCover (ds.filter (·.covers (cr.blocksOf (cr.voters ri)) (cr.limit ri))) = some d)
    (hf : enterSlot a q cr.dir.toNat ri r d s3 = (.ok f, s4)) :
    cr.coverOrSweep a q ri r n s2 = (.ok (.enter ri f (cr.votersIn ri d.set) (maskOf 64 (cr.voters ri)) (cr.votersIn ri d.set) 0 0 true true
      (cr.voteTime n + max 1 (2 ^ r.logdir / 4))), s4) := by
  refine (bind_ok hds).trans ?_
  rw [hbest]
  exact bind_ok hf

/-- Without a cover, the blocks at the hold limit are swept from the lowest. -/
theorem coverOrSweep_sweep {ri n b : Nat} {r : Region} {ds : List StateD} {f : Found}
    (hds : allStates a r (2 ^ r.logdir) 0 s2 = (.ok ds, s3))
    (hnone : ds.filter (·.covers (cr.blocksOf (cr.voters ri)) (cr.limit ri)) = [])
    (hb : (bitsOf (cr.limit ri)).headD ((bitsOf (cr.blocksOf (cr.voters ri))).headD 0) = b)
    (hf : singleton a q cr.dir.toNat ri b s3 = (.ok f, s4)) :
    cr.coverOrSweep a q ri r n s2 = (.ok (.enter ri f (cr.votersAt ri b) (maskOf 64 (cr.voters ri)) (cr.votersIn ri (cr.limit ri))
      (cr.votersIn ri (cr.limit ri)) (cr.limit ri &&& ~~~(setOf [b])) true true (cr.voteTime n + max 1 (2 ^ r.logdir / 4))), s4) := by
  subst hb
  refine (bind_ok hds).trans ?_
  rw [hnone]
  exact bind_ok hf

end

/-! ### The voters as a statement names them -/

section
variable {cr : Crew} {ri t b : Nat}

theorem getLsbD_blocksOf (l : List Nat) (hb : b < 31) : (cr.blocksOf l).getLsbD b = true ↔ ∃ t ∈ l, (cr.thr t).block = b := by
  rw [Crew.blocksOf, setOf, getLsbD_maskOf _ hb, decide_eq_true_iff, List.mem_map]

theorem getLsbD_votersIn (ht : t < 64) (m : BitVec 31) :
    (cr.votersIn ri m).getLsbD t = true ↔ t ∈ cr.voters ri ∧ m.getLsbD (cr.thr t).block = true := by
  rw [Crew.votersIn, getLsbD_maskOf _ ht, decide_eq_true_iff, List.mem_filter]

theorem getLsbD_votersAt (ht : t < 64) : (cr.votersAt ri b).getLsbD t = true ↔ t ∈ cr.voters ri ∧ (cr.thr t).block = b := by
  rw [Crew.votersAt, getLsbD_maskOf _ ht, decide_eq_true_iff, List.mem_filter, beq_iff_eq]

theorem getLsbD_voters (ht : t < 64) : (maskOf 64 (cr.voters ri)).getLsbD t = true ↔ t ∈ cr.voters ri := by
  rw [getLsbD_maskOf _ ht, decide_eq_true_iff]

theorem exists_voter (P : Nat → Prop) :
    (∃ t < 64, (maskOf 64 (cr.voters ri)).getLsbD t = true ∧ P t) ↔ ∃ t ∈ cr.voters ri, P t := by
  refine exists_congr fun t => ?_
  rw [← and_assoc]
  refine and_congr_left fun _ => ⟨fun ⟨ht, hv⟩ => (getLsbD_voters ht).mp hv, fun hv => ?_⟩
  obtain ⟨⟨ht, -⟩, -⟩ := mem_voters.mp hv
  exact ⟨ht, (getLsbD_voters ht).mpr hv⟩

/-- A set of blocks is that of the listed threads which its bits name. -/
theorem eq_blocksOf {m : BitVec 31} {l : List Nat} (hm : ∀ b < 31, m.getLsbD b = true ↔ ∃ t ∈ l, (cr.thr t).block = b) :
    m = cr.blocksOf l := by
  refine BitVec.eq_of_getLsbD_eq fun b hb => ?_
  rw [Bool.eq_iff_iff, hm b hb, getLsbD_blocksOf l hb]

/-- The lowest live thread comes first. -/
theorem live_cons {t0 : Nat} (ht0 : t0 < 64 ∧ (cr.thr t0).exited = false) (hlow : ∀ t < t0, ¬(t < 64 ∧ (cr.thr t).exited = false)) :
    ∃ l, cr.live = t0 :: l := by
  have hhead : cr.live.head? = some t0 := by
    refine (head?_eq_some_iff (live_sorted cr) (mem_live.mpr ht0)).mpr fun t ht => ?_
    by_contra hlt
    exact hlow t (by omega) (mem_live.mp ht)
  exact List.head?_eq_some_iff.mp hhead

/-- The region that votes, and the time that a change of region adds. -/
theorem voteReg_eq {t0 : Nat} (ht0 : t0 < 64 ∧ (cr.thr t0).exited = false)
    (hstay : (∃ t, (t < 64 ∧ (cr.thr t).exited = false) ∧ (cr.thr t).region = cr.cr) → ri = cr.cr)
    (hleave : ¬(∃ t, (t < 64 ∧ (cr.thr t).exited = false) ∧ (cr.thr t).region = cr.cr) → ri = (cr.thr t0).region) :
    cr.voteReg t0 = ri ∧ ∀ n, cr.voteTime n = 4 + n + if ri = cr.cr then 0 else 2 := by
  unfold Crew.voteReg Crew.voteTime
  by_cases hempty : (cr.inReg cr.cr).isEmpty = true
  case pos =>
    have hnone := inReg_isEmpty.mp hempty
    have hne : ri ≠ cr.cr := fun he => hnone ⟨t0, ht0, (hleave hnone).symm.trans he⟩
    rw [if_pos hempty, if_pos hempty, if_neg hne]
    exact ⟨(hleave hnone).symm, fun _ => rfl⟩
  case neg =>
    have hsome := not_not.mp (mt inReg_isEmpty.mpr hempty)
    rw [if_neg hempty, if_neg hempty, if_pos (hstay hsome)]
    exact ⟨(hstay hsome).symm, fun _ => rfl⟩

end

/-- R165, R170: the cases of a vote, with the statement's voters, sets and times in the place of the model's. -/
theorem voteAnswers : VoteAnswers := by
  intro a q k cr s lives bit
  refine ⟨fun hsweep b _ hb hlow f s2 hf => ⟨cr.sweepGo b, fun t ht => ?chosen, ?swept⟩, fun hsweep hnone => vote_finished hsweep ?dead,
    ?votes⟩
  case swept => rw [vote_sweep hsweep (headD_bitsOf hb hlow 0) hf, setOf_singleton]
  case chosen =>
    simp only [bit, lives, Crew.sweepGo, getLsbD_maskOf _ ht, decide_eq_true_iff, List.mem_filter, mem_live, Bool.and_eq_true, beq_iff_eq,
      and_assoc]
  case dead => exact List.eq_nil_iff_forall_not_mem.mpr fun t ht => hnone t (mem_live.mp ht)
  case votes =>
    intro hsweep t0 ri vt m ht0 hlow stays more hstay hleave hvt hm
    obtain ⟨l, hlive⟩ := live_cons ht0 hlow
    obtain ⟨hreg, htime⟩ := voteReg_eq ht0 hstay hleave
    obtain rfl : vt = maskOf 64 (cr.voters ri) := eq_maskOf fun t ht => (hvt t ht).trans mem_voters.symm
    obtain rfl : m = cr.blocksOf (cr.voters ri) := eq_blocksOf fun b hb => (hm b hb).trans (exists_voter _)
    have hvote := vote_looks (a := a) (q := q) (k := k) hsweep hlive
    rw [hreg] at hvote
    rw [hvote]
    refine ⟨fun f n s2 hf => ?found, fun r n s2 hf => ⟨fun hk hr => ?trap, ?covers⟩⟩
    case found => rw [bind_ok hf, Crew.answer, htime]; rfl
    case trap => rw [bind_ok hf, Crew.answer, hk, hr]; rfl
    case covers =>
      intro hkr ds s3 lim hds hlim cand time
      obtain rfl : lim = cr.limit ri := eq_blocksOf fun b hb => by
        simp only [(hlim b hb).trans (exists_voter _), List.mem_filter, decide_eq_true_iff, and_assoc, ge_iff_le]
      have hanswer : cr.answer a q k ri (.absent r n) = cr.coverOrSweep a q ri r n := by
        refine if_neg ?_
        rcases hkr with h | h <;> simp [h]
      have hgo (t : Nat) (ht : t < 64) (m : BitVec 31) :
          bit (cr.votersIn ri m) t ↔ bit (maskOf 64 (cr.voters ri)) t ∧ m.getLsbD (cr.thr t).block = true :=
        (getLsbD_votersIn ht m).trans (and_congr_left' (getLsbD_voters ht).symm)
      rw [bind_ok hf, hanswer]
      refine ⟨fun hsome => ?cover, fun hnone b hb hlow f s4 hf => ?sweep⟩
      case cover =>
        obtain ⟨d, hd, hbest, hall⟩ := bestCover_best hsome
        refine ⟨d, hd, hall, fun f s4 hf => ⟨cr.votersIn ri d.set, fun t ht => hgo t ht d.set, ?_⟩⟩
        rw [coverOrSweep_cover hds hbest hf, htime]
      case sweep =>
        refine ⟨cr.votersAt ri b, cr.votersIn ri (cr.limit ri), fun t ht => ?_, fun t ht => hgo t ht (cr.limit ri), ?_⟩
        · exact (getLsbD_votersAt ht).trans (and_congr_left' (getLsbD_voters ht).symm)
        · rw [coverOrSweep_sweep hds hnone (headD_bitsOf hb hlow _) hf, htime, setOf_singleton]

/-! ### What a vote changes (R165, R168, R169) -/

theorem thr_mapThr {cr : Crew} {t : Nat} (ht : t < cr.threads.length) (f : Nat → Thread → Thread) : (cr.mapThr f).thr t = f t (cr.thr t) := by
  rw [Crew.thr, Crew.thr, Crew.mapThr, List.getD_eq_getElem _ _ (by simpa using ht), List.getD_eq_getElem _ _ ht, List.getElem_mapIdx]

theorem setHeld_eq (th : Thread) (b : Bool) : (th.setHeld b).held = b ∧ (th.setHeld b).exited = th.exited := by
  refine ⟨?_, (br_mkBr b th.exited th.region th.block).1⟩
  rw [Thread.held, Thread.setHeld, mkBr, BitVec.getLsbD_append, BitVec.getLsbD_append, BitVec.getLsbD_append]
  simp

/-- A thread's HOLDCNT, YLD and SWP after a vote, or after a sweep's continuation, which does not count. -/
def Thread.counts (th : Thread) (votes runs sweeps counted : Bool) : Thread :=
  if counted then
    { th with holdCnt := if votes then (if runs then 0 else min (th.holdCnt + 1) 31) else th.holdCnt, yld := false, swp := sweeps || th.swp }
  else { th with swp := th.swp && th.held }

/-- A live thread is held where it does not go. -/
def Thread.heldUnless (th : Thread) (goes : Bool) : Thread := if th.exited then th else th.setHeld (!goes)

theorem counts_fields (th : Thread) (votes runs sweeps counted : Bool) : let u := th.counts votes runs sweeps counted
    u.br = th.br ∧ u.v = th.v ∧ u.p = th.p ∧ u.tidx = th.tidx ∧
    u.holdCnt = (if counted && votes then (if runs then 0 else min (th.holdCnt + 1) 31) else th.holdCnt) ∧
    u.yld = (if counted then false else th.yld) ∧ u.swp = if counted then sweeps || th.swp else th.swp && th.held := by
  cases counted <;> exact ⟨rfl, rfl, rfl, rfl, rfl, rfl, rfl⟩

theorem heldUnless_fields (th : Thread) (goes : Bool) : let u := th.heldUnless goes
    u.exited = th.exited ∧ u.region = th.region ∧ u.block = th.block ∧ u.v = th.v ∧ u.p = th.p ∧ u.tidx = th.tidx ∧
    u.held = (if th.exited then th.held else !goes) ∧ u.holdCnt = th.holdCnt ∧ u.yld = th.yld ∧ u.swp = th.swp := by
  intro u
  cases he : th.exited with
  | true =>
    have hu : u = th := if_pos he
    rw [hu]
    exact ⟨he, rfl, rfl, rfl, rfl, rfl, rfl, rfl, rfl, rfl⟩
  | false =>
    have hu : u = th.setHeld (!goes) := if_neg (by simp [he])
    obtain ⟨hheld, hexited⟩ := setHeld_eq th (!goes)
    obtain ⟨hregion, hblock⟩ := setHeld_region th (!goes)
    rw [hu]
    exact ⟨hexited.trans he, hregion, hblock, rfl, rfl, rfl, hheld, rfl, rfl, rfl⟩

/-- BR holds the exited and held bits, the region and the block (R115). -/
theorem fields_of_br {u th : Thread} (h : u.br = th.br) :
    u.exited = th.exited ∧ u.held = th.held ∧ u.region = th.region ∧ u.block = th.block := by
  unfold Thread.exited Thread.held Thread.region Thread.block
  rw [h]
  exact ⟨rfl, rfl, rfl, rfl⟩

section
variable {cr : Crew} {ri : Nat} {f : Found} {go vt run swp : Mask} {sweep : BitVec 31} {counted absent : Bool} {time : Nat}

theorem thr_applyVote {t : Nat} (ht : t < cr.threads.length) :
    (cr.applyVote (.enter ri f go vt run swp sweep counted absent time)).thr t =
      ((cr.thr t).counts (vt.getLsbD t) (run.getLsbD t) (swp.getLsbD t) counted).heldUnless (go.getLsbD t) := by
  have hthr (c : Crew) (hc : c.threads = cr.threads) (g : Nat → Thread → Thread) : (c.mapThr g).thr t = g t (cr.thr t) := by
    rw [thr_mapThr (hc ▸ ht), Crew.thr, Crew.thr, hc]
  have hthr2 (c : Crew) (hc : c.threads = cr.threads) (g g' : Nat → Thread → Thread) :
      ((c.mapThr g).mapThr g').thr t = g' t (g t (cr.thr t)) := by
    rw [thr_mapThr (by simpa [Crew.mapThr, hc] using ht), hthr c hc]
  cases counted with
  | true => cases absent <;> exact hthr2 _ rfl _ _
  | false => cases absent <;> exact hthr2 _ rfl _ _

/-- What a vote leaves of a crew but for its threads: it stands at the state's body. -/
theorem applyVote_walk : let c := cr.applyVote (.enter ri f go vt run swp sweep counted absent time)
    c.ss = f.d.slot ∧ c.sid = f.d.sid ∧ c.sset = f.d.set ∧ c.pos = f.body ∧ c.rdesc = f.r.raw ∧ c.sweep = sweep ∧
    c.cr = (if counted then ri else cr.cr) ∧ c.retry = (if counted then false else cr.retry) ∧
    c.abscnt = (if absent then cr.abscnt + 1 else cr.abscnt) ∧ c.hb = cr.hb ∧ c.dir = cr.dir ∧ c.nreg = cr.nreg := by
  cases counted with
  | true => cases absent <;> exact ⟨rfl, rfl, rfl, rfl, rfl, rfl, rfl, rfl, rfl, rfl, rfl, rfl⟩
  | false => cases absent <;> exact ⟨rfl, rfl, rfl, rfl, rfl, rfl, rfl, rfl, rfl, rfl, rfl, rfl⟩

end

/-- R165, R168, R169: a vote's changes, thread by thread. -/
theorem voteChanges : VoteChanges := by
  intro cr hlen
  refine ⟨fun _ _ => rfl, rfl, fun ri f go vt run swp sweep counted absent time => ?_⟩
  intro c
  obtain ⟨hss, hsid, hsset, hpos, hrdesc, hsweep, hcr, hretry, habscnt, hhb, hdir, hnreg⟩ := applyVote_walk (cr := cr) (ri := ri) (f := f)
    (go := go) (vt := vt) (run := run) (swp := swp) (sweep := sweep) (counted := counted) (absent := absent) (time := time)
  refine ⟨hss, hsid, hsset, hpos, hrdesc, hsweep, hcr, hretry, habscnt, hhb, hdir, hnreg, fun t ht => ?_⟩
  intro th
  rw [show c.thr t = _ from thr_applyVote (hlen ▸ ht)]
  obtain ⟨hbr, hv, hp, htidx, hcnt, hyld, hswp⟩ := counts_fields th (vt.getLsbD t) (run.getLsbD t) (swp.getLsbD t) counted
  obtain ⟨hexited, hheld, hregion, hblock⟩ := fields_of_br hbr
  obtain ⟨gexited, gregion, gblock, gv, gp, gtidx, gheld, gcnt, gyld, gswp⟩ := heldUnless_fields _ (go.getLsbD t)
  rw [hexited, hheld] at gheld
  exact ⟨gexited.trans hexited, gregion.trans hregion, gblock.trans hblock, gv.trans hv, gp.trans hp, gtidx.trans htidx, gheld,
    gcnt.trans hcnt, gyld.trans hyld, gswp.trans hswp⟩

/-- Settles O22: NEXT is the vote of the crew with its writes landed; the vote's four parts are those above. -/
theorem nextVotes : Obligations.NextVotes := by
  unfold Obligations.NextVotes
  refine ⟨fun h s x s1 hb hm => ⟨fun e s2 hv => ?fault, fun v s2 hv => ?voted⟩, findsSlots, looksUp, voteAnswers, voteChanges⟩
  case fault => rw [next_votes hb hm, voteNow_error hv]
  case voted =>
    obtain ⟨hmem, hcrew, -⟩ := voteCounted_frame x s2 v
    refine ⟨x.voteCounted s2 v, hmem, hcrew, fun hno => ?_, fun m ri htrap => ?_⟩
    · rw [next_votes hb hm, voteNow_ok hv hno]
    · subst htrap
      rw [next_votes hb hm, voteNow_trap hv]

end Sys2Proof.Machine
end

section
/-! PROOFS. Loads, stores and atomics on global memory whose checks all pass (R225, R242-R248, R251-R253, R255): what the
instruction does is what performing its accesses does. -/

namespace Sys2Proof.Machine

open Sys2Proof Sys2Proof.Claims

/-- The addresses of the threads that take part (R238), and the same as integers, as the checks and the records take them. -/
def Cx.eas (x : Cx) (m : MemRef) : List (Nat × Nat) := x.lanes.map (fun t => (t, (x.ea m t).toNat))
def Cx.easInt (x : Cx) (m : MemRef) : List (Nat × Int) := (x.eas m).map (fun e => (e.1, (e.2 : Int)))

/-- R241: every thread's address is a multiple of the size, where that is asked for. -/
def Cx.Aligned (x : Cx) (m : MemRef) (strict : Bool) (n : Nat) : Prop :=
  (strict || x.kernel.align) = true → ∀ t ∈ x.lanes, (x.ea m t).toNat % n = 0

/-- No thread's check has failed. -/
def Checked.Clean {α : Type} (c : Checked α) : Prop := c.fault = none ∧ c.first = none

section
variable {x : Cx} {m : MemRef} {strict ok : Bool} {n : Nat} {o : MemOp} {s1 st : State} {r r' : MemRes} {dst : Dest}

/-! ### From the operands to the checks -/

theorem misaligned_none (hal : x.Aligned m strict n) : x.misaligned strict n (x.easInt m) = none := by
  unfold Cx.misaligned
  split
  case isFalse => rfl
  case isTrue hs =>
    rw [Option.map_eq_none_iff, List.find?_eq_none]
    simp only [Cx.easInt, Cx.eas, List.mem_map, exists_exists_and_eq_and]
    rintro _ ⟨t, ht, rfl⟩
    have h0 := hal hs t ht
    simp only [bne_iff_ne, ne_eq, not_not]
    exact_mod_cast h0

/-! ### From the checks to the end -/

section
variable {α : Type} {c : Checked α} {addrs : List (Nat × Int)} {perform : State → List (Nat × α) → MemRes}

/-- A clean instruction's accesses, once performed, are recorded (R341). -/
def Cx.recorded (x : Cx) (op code : Nat) (scr : Bool) (c : Checked α) (addrs : List (Nat × Int)) (st : State) : State :=
  st.trace x op code scr (addrs.filter (fun e => (c.pass.map Prod.fst).contains e.1))

theorem memRun_clean (hc : c.Clean) : x.memRun o c addrs perform = x.memEnd o c addrs (perform c.st c.pass) := by
  obtain ⟨hfault, hfirst⟩ := hc
  simp only [Cx.memRun, hfault, hfirst]

theorem memRun_loads (hret : o.ret = true) (hc : c.Clean) (hr : perform c.st c.pass = r) (hbad : r.bad = none) :
    x.memRun o c addrs perform = loaded x (x.recorded o.op o.code o.scr c addrs r.st) o.dst r := by
  obtain ⟨-, hfirst⟩ := id hc
  rw [memRun_clean hc, hr, Cx.memEnd, hbad, hfirst, hret]
  rfl

theorem memRun_stores (hret : o.ret = false) (hc : c.Clean) (hr : perform c.st c.pass = r) (hbad : r.bad = none) :
    x.memRun o c addrs perform = (retireNone x (x.recorded o.op o.code o.scr c addrs r.st) 0).modCrew x.key (·.raiseFps r.fps) := by
  obtain ⟨-, hfirst⟩ := id hc
  rw [memRun_clean hc, hr, Cx.memEnd, hbad, hfirst, hret]
  rfl

end

section
variable {hitOk : Line → Bool} {perform : Acc → State → List (Nat × List Part) → MemRes} {c : Checked (List Part)}

/-- With good operands and aligned addresses the instruction checks every thread, then performs the accesses. -/
theorem global_runs (hidle : x.idle = false) (hok : ok = true) (hal : x.Aligned m strict n) :
    x.global s1 o ok strict n m hitOk perform =
      x.memRun o ((x.countLoad s1 o.load).checkAll x.acc (x.eas m) n o.write hitOk) (x.easInt m) (perform x.acc) := by
  have hmis := misaligned_none hal
  unfold Cx.easInt Cx.eas at hmis
  simp only [Cx.global, hok, hidle, hmis, Bool.not_true, Bool.false_eq_true, if_false]
  rfl

theorem global_loads (hidle : x.idle = false) (hok : ok = true) (hal : x.Aligned m strict n) (hret : o.ret = true)
    (hcheck : (x.countLoad s1 o.load).checkAll x.acc (x.eas m) n o.write hitOk = c) (hc : c.Clean)
    (hr : perform x.acc c.st c.pass = r) (hbad : r.bad = none) :
    x.global s1 o ok strict n m hitOk perform = loaded x (x.recorded o.op o.code o.scr c (x.easInt m) r.st) o.dst r := by
  rw [global_runs hidle hok hal, hcheck, memRun_loads hret hc hr hbad]

theorem global_stores (hidle : x.idle = false) (hok : ok = true) (hal : x.Aligned m strict n) (hret : o.ret = false)
    (hcheck : (x.countLoad s1 o.load).checkAll x.acc (x.eas m) n o.write hitOk = c) (hc : c.Clean)
    (hr : perform x.acc c.st c.pass = r) (hbad : r.bad = none) :
    x.global s1 o ok strict n m hitOk perform =
      (retireNone x (x.recorded o.op o.code o.scr c (x.easInt m) r.st) 0).modCrew x.key (·.raiseFps r.fps) := by
  rw [global_runs hidle hok hal, hcheck, memRun_stores hret hc hr hbad]

end

/-! ### What performing gives -/

theorem loaded_of_late (hlate : r.late = none) : loaded x st dst r = retireMem x st dst r.ws r.fps := by
  rw [loaded, hlate]

/-- What the end of a load takes of its result. -/
theorem loaded_congr (hws : r.ws = r'.ws) (hfps : r.fps = r'.fps) (hlate : r.late = r'.late) :
    loaded x st dst r = loaded x st dst r' := by
  rw [loaded, loaded, hws, hfps, hlate]

section
variable {before s : State} {a : Acc} {l : List (Nat × List Part)} {f : State → MemRes}

/-- A sample is of the state alone. -/
theorem sampled_eq : x.sampled before a l s f = { f s with st := (x.sampled before a l s f).st } := by
  unfold Cx.sampled
  dsimp only
  split <;> rfl

/-- Of the state before the checks a sample reads the TLBs, which counting the load leaves alone. -/
theorem sampled_countLoad (b : Bool) : x.sampled (x.countLoad before b) a l s f = x.sampled before a l s f := by
  have htlb (va : Nat) : (x.countLoad before b).tlbFind a va = before.tlbFind a va := by
    unfold Cx.countLoad
    split <;> rfl
  simp only [Cx.sampled, htlb]

theorem withOrder_late {ord : Order} (hf : ∀ s, (f s).late = none) : (withOrder ord a l s f).late = none := by
  unfold withOrder
  split
  · exact hf _
  · split
    · rfl
    · dsimp only
      split <;> exact hf _

/-- An atomic reads once: none of its reads can come later. -/
theorem updateAll_late (red : Bool) (g : Nat → Nat → Option Nat × Fps) (out : Nat → Nat → List RegWrite) :
    (updateAll a red g out l s).late = none := by
  fun_induction updateAll with
  | case1 => rfl
  | case2 _ _ _ ih => exact ih
  | case3 _ _ _ _ _ _ _ _ _ _ ih => exact ih
  | case4 _ _ _ _ _ _ _ _ _ ih => exact ih
  | case5 => rfl

theorem trapFps_of_masked {k : Kernel} (h : r.fps &&& k.fpEnables = 0) : trapFps k r = r := by
  simp [trapFps, h]

end

end

/-! ### The instructions -/

section
variable {h : Hdr} {s s1 : State} {x : Cx} {d : Reg} {m : MemRef} {ord : Order} {hitOk : Line → Bool}

/-- LD reads each part past the first level, or as a plain load does, by the scope of its order (R242, R244). -/
theorem execLd_eq (h : Hdr) (sz : MSize) (sx : Bool) (ord : Order) (hint : Hint) (d : Reg) (m : MemRef) (s : State) :
    execLd h sz sx ord hint d m s = loadGlobal h 0x100 sz sx ord d m (fun _ => !ord.wide) (fun a s p => s.atHome a hint p)
      (fun a s p => if ord.wide then s.readMiss a p else s.readPlain a (ord.hint hint) p) s := by
  unfold execLd
  cases ord.wide <;> rfl

/-- LD and LDC (R248). -/
theorem loadGlobal_clean (hi : Issues h s x s1) (op : Nat) {sz : MSize} {sx : Bool}
    {home : Acc → State → Part → Bool} {rd : Acc → State → Part → ReadRes}
    (hok : (x.kernel.groupOk (MSize.regs sz) d && x.kernel.memOk m) = true) (hal : x.Aligned m (!ord.isPlain) sz.bytes) :
    let s2 := x.countLoad s1 true
    let c := s2.checkAll x.acc (x.eas m) sz.bytes false hitOk
    let q := withOrder ord x.acc c.pass c.st (fun st => x.sampled s2 x.acc c.pass st
      (readAll (rd x.acc) (fun t bs => wrWords t d 0 (assemble sx bs)) c.pass))
    let r := q.withLate x d (.words sx) (lateRows (fun p => ord.isPlain && home x.acc c.st p) sz.bytes sz.regs c.pass q.ws)
    c.Clean → r.bad = none → loadGlobal h op sz sx ord d m hitOk home rd s = .next
      (loaded x (x.recorded op sz.code.toNat false c (x.easInt m) r.st) (Dest.reg d sz.regs) r) := by
  intro s2 c q r hc hbad
  refine (withCx_eq hi.begins _).trans (congrArg _ (global_loads hi.runs hok hal rfl rfl hc ?_ hbad))
  simp only [r, q, s2, sampled_countLoad]

/-- ST (R248). -/
theorem execSt_clean (hi : Issues h s x s1) {sz : MSize} {hint : Hint}
    (hok : (x.kernel.groupOk (MSize.regs sz) d && x.kernel.memOk m) = true) (hal : x.Aligned m (!ord.isPlain) sz.bytes) :
    let c := s1.checkAll x.acc (x.eas m) sz.bytes true (fun _ => !ord.wide)
    let r := withOrder ord x.acc c.pass c.st (writeAll Part.n Part.va
      (fun st p bs => if ord.wide then (st.writeMiss x.acc p bs, true) else st.writePlain x.acc (ord.hint hint) p bs)
      (fun t => x.rdGroup t d sz.bytes) c.pass)
    c.Clean → r.bad = none → exec (.st h sz ord hint d m) s = .next
      ((retireNone x (x.recorded 0x101 sz.code.toNat false c (x.easInt m) r.st) 0).modCrew x.key (·.raiseFps r.fps)) := by
  intro c r hc hbad
  exact (withCx_eq hi.begins _).trans (congrArg _ (global_stores hi.runs hok hal rfl rfl hc rfl hbad))

section
variable {sz : ASize} {ok : Kernel → Bool} {dst : Dest} {f : Cx → Nat → Nat → Option Nat × Fps}
  {out : Nat → Nat → List RegWrite}

/-- ATOM and ATOMCAS (R255, R257): none of the reads of an atomic comes later. -/
theorem atomicGlobal_clean (hi : Issues h s x s1) (op : Nat) (hok : (ok x.kernel && x.kernel.memOk m) = true)
    (hal : x.Aligned m true (ASize.bytes sz)) :
    let s2 := x.countLoad s1 true
    let c := s2.checkAll x.acc (x.eas m) (ASize.bytes sz) true (fun l => l.excl)
    let r := withOrder ord x.acc c.pass c.st (fun st => x.sampled s2 x.acc c.pass st (updateAll x.acc false (f x) out c.pass))
    c.Clean → r.bad = none → atomicGlobal h op sz ord ok m false dst f out s = .next
      (retireMem x (x.recorded op (if sz = .b4 then 2 else 3) false c (x.easInt m) r.st) dst r.ws r.fps) := by
  intro s2 c r hc hbad
  have hlate : r.late = none := withOrder_late fun st => by
    rw [sampled_eq]
    exact updateAll_late ..
  rw [← loaded_of_late hlate]
  refine (withCx_eq hi.begins _).trans (congrArg _ (global_loads hi.runs hok hal rfl rfl hc ?_ hbad))
  simp only [r, s2, sampled_countLoad]
  rfl

/-- RED (R255), which returns nothing. -/
theorem redGlobal_clean (hi : Issues h s x s1) (op : Nat) (hok : (ok x.kernel && x.kernel.memOk m) = true)
    (hal : x.Aligned m true (ASize.bytes sz)) :
    let c := s1.checkAll x.acc (x.eas m) (ASize.bytes sz) true (fun l => l.excl)
    let r := withOrder ord x.acc c.pass c.st (updateAll x.acc true (f x) out c.pass)
    c.Clean → r.bad = none → atomicGlobal h op sz ord ok m true dst f out s = .next
      ((retireNone x (x.recorded op (if sz = .b4 then 2 else 3) false c (x.easInt m) r.st) 0).modCrew x.key (·.raiseFps r.fps)) := by
  intro c r hc hbad
  exact (withCx_eq hi.begins _).trans (congrArg _ (global_stores hi.runs hok hal rfl rfl hc rfl hbad))

end

/-- What a thread of ATOM or RED does to the word that it finds (R254). -/
def Cx.rmwWord (x : Cx) (op : AOp) (sz : ASize) (d : Reg) (t old : Nat) : Option Nat × Fps :=
  let r := atomicNew x.kernel.ftz op (8 * sz.bytes) old (natOfBytes (x.rdGroup t d sz.bytes))
  (some r.1, r.2)

/-- The checks of an LDT (R225, R252). -/
def Cx.ldtChecks (x : Cx) (s : State) (m : MemRef) (md : LdtMode) (k : Nat) : Checked (List Elem) :=
  x.lanes.foldl (fun (c : Checked (List Elem)) t => c.add t (c.st.checkLdt x m md k t)) (Checked.init s)

/-- LDT (R251-R253) in which no enabled exception is raised (R100). -/
theorem execLdt_clean (hi : Issues h s x s1) {k : LdtCount} {md : LdtMode} {hint : Hint}
    (hok : (x.kernel.groupOk (LdtCount.num k) d && x.kernel.memOk m) = true) (hscl : ∀ ss, md = .scl ss → x.kernel.spairOk ss = true) :
    let c := x.ldtChecks (x.countLoad s1 true) m md k.num
    let form := LateForm.elems md x.kernel.ftz x.kernel.fpEnables
    let q := readLdt x.acc hint form d (fun p => c.st.atHome x.acc hint p) c.pass c.st
    c.Clean → q.1.bad = none → q.1.fps &&& x.kernel.fpEnables = 0 →
    ∃ st, exec (.ldt h k md hint d m) s = .next (loaded x st (Dest.reg d k.num) (q.1.withLate x d form q.2)) := by
  intro c form q hc hbad hfps
  have htrap : trapFps x.kernel q.1 = q.1 := trapFps_of_masked hfps
  obtain ⟨st, hst⟩ : ∃ st, x.sampled (x.countLoad s1 true) x.acc (c.pass.map (fun e => (e.1, (e.2.head?.map Elem.parts).getD [])))
      c.st (fun _ => trapFps x.kernel q.1) = { q.1 with st := st } := by
    rw [htrap]
    exact ⟨_, sampled_eq⟩
  refine ⟨_, (withCx_eq hi.begins _).trans (congrArg _ ((if_neg ?operands).trans ((if_neg ?runs).trans
    ((memRun_loads rfl hc rfl ?good).trans (loaded_congr ?ws ?fps rfl)))))⟩
  case operands =>
    cases md with
    | scl ss => simp [hok, hscl ss rfl]
    | _ => simp [hok]
  case runs => simp [hi.runs]
  case good => exact (congrArg MemRes.bad hst :).trans hbad
  case ws => exact (congrArg MemRes.ws hst :)
  case fps => exact (congrArg MemRes.fps hst :)

end

/-- Settles O24: each instruction's checks pass, so it performs every thread's access and retires. -/
theorem memoryInstructionsEnd : Obligations.MemoryInstructionsEnd := by
  unfold Obligations.MemoryInstructionsEnd
  intro h s x s1 d m sx hint ord op hi addrs ints aligned s2 clean tell
  refine ⟨?ld, ?ldc, ?st, ?atomics, ?ldt⟩
  case ld =>
    intro sz hok hal c home q r hc hbad
    exact (execLd_eq h sz sx ord hint d m s).trans (loadGlobal_clean hi 0x100 hok hal hc hbad)
  case ldc =>
    intro sz hok hal c home q r hc hbad
    exact loadGlobal_clean (ord := .plain) hi 0x105 hok hal hc hbad
  case st =>
    intro sz hok hal c r hc hbad
    exact execSt_clean hi hok hal hc hbad
  case atomics =>
    intro sz hal hm c c0 code f out run
    refine ⟨fun hg hc hbad => ?atom, fun hg hc hbad => ?atomcas, ?red⟩
    case atom =>
      exact atomicGlobal_clean (ok := fun k => k.groupOk sz.regs d) (f := fun x => x.rmwWord op sz d) hi 0x120
        (Bool.and_eq_true_iff.mpr ⟨hg, hm⟩) hal hc hbad
    case atomcas =>
      exact atomicGlobal_clean (ok := fun k => k.groupOk (2 * sz.regs) d) (f := fun x => x.casWord sz d) hi 0x121
        (Bool.and_eq_true_iff.mpr ⟨hg, hm⟩) hal hc hbad
    case red =>
      intro r hg hc hbad
      exact redGlobal_clean (ok := fun k => k.groupOk sz.regs d) (f := fun x => x.rmwWord op sz d) hi 0x122
        (Bool.and_eq_true_iff.mpr ⟨hg, hm⟩) hal hc hbad
  case ldt =>
    intro k md hok hscl c form q hfault hfirst hbad hfps
    exact execLdt_clean hi hok hscl ⟨hfault, hfirst⟩ hbad hfps

end Sys2Proof.Machine
end

section
/-! PROOFS. What reset leaves (R206, R320, R343, R404). -/

namespace Sys2Proof.Machine

open Sys2Proof

/-! ### Reset, part by part -/

theorem State.inv_reset : State.reset.Inv := ⟨rfl, rfl⟩

/-- Reset lists no core, so that each one reads as its default. -/
theorem reset_core (c : Nat) : State.reset.core c = Core.zero := rfl

theorem reset_crew (k : CrewKey) : State.reset.crew? k = none := rfl

theorem reset_wg (c w : Nat) : State.reset.wg? c w = none := rfl

theorem reset_sysreg (num sel : Nat) : State.reset.sysreg num sel = sysregReset num := rfl

theorem coreZero_l1Find (ctx lva : Nat) : Core.zero.l1Find ctx lva = none := rfl

theorem coreZero_pm {i : Nat} (hi : i < 8) : Core.zero.pmcnt.getD i 1 = 0 ∧ Core.zero.pmsel.getD i 1 = 0 :=
  ⟨List.getD_replicate _ hi, List.getD_replicate _ hi⟩

theorem coreZero_cim {i : Nat} (hi : i < 8) : Core.zero.cim.getD i CimMac.zero = CimMac.zero := List.getD_replicate _ hi

theorem reset_domain {d : Nat} (hd : d < 5) : State.reset.domains.getD d Domain.zero = Domain.zero := List.getD_replicate _ hd

/-- Settles O59: reset's fields are written out, and what it does not list reads as its default. -/
theorem resetState : Obligations.ResetState := by
  unfold Obligations.ResetState
  refine ⟨State.inv_reset, rfl, rfl, rfl, rfl, rfl, rfl, rfl, fun c => ?core, reset_crew, reset_wg, fun d hd => reset_domain hd,
    reset_sysreg⟩
  case core =>
    rw [reset_core]
    refine ⟨rfl, rfl, rfl, rfl, rfl, rfl, coreZero_l1Find, rfl, fun i hi => coreZero_pm hi, fun i hi k => ?cells, fun k => rfl,
      fun f => rfl⟩
    case cells =>
      rw [coreZero_cim hi]
      rfl

end Sys2Proof.Machine
end

section
/-! PROOFS. The refutation of the statement about ports and links: the log record of a link that goes down may itself travel over
another link, which hears it (R433, R448, R450). -/

namespace Sys2Proof.Machine

open Sys2Proof

/-! ### A part whose error log lies in a peer's memory -/

/-- A link that carries flits and has heard none since tick 0. -/
def upLink : Link :=
  { enabled := true, up := true, paused := false, replays := 0, heard := 0, trained := true, sender := .house }

/-- Device 3 of a pod at tick 1: every link is up, 8 replays on link 0 have failed, and ERRLOG (0x16) names the first channel of
device 4. -/
def loggedAtPeer : State := { State.reset with
  pod := some 3
  refclk := 1
  links := { upLink with replays := 8 } :: List.replicate 35 upLink
  sysregs := [(0x16 * 65536, BitVec.ofNat 64 (4 * 2 ^ 42 + 2 ^ 39))] }

/-- A link that has failed 8 replays goes down at the next (R450). -/
theorem flitReplay_drops {s : State} {i : Nat} (hup : (s.link i).up = true) (hgo : (s.link i).paused = false)
    (hfail : 8 ≤ (s.link i).replays) : exec (.flitReplay i) s = .next (s.dropLink i) := by
  show execFlitReplay i s = _
  simp [execFlitReplay, hup, hgo, hfail]

/-- The record that link 0 is down goes to device 4 over link 1, which has then heard a flit. -/
theorem dropLink_loggedAtPeer_heard : ((loggedAtPeer.dropLink 0).link 1).heard = 1 := by decide +kernel

/-- Refutes O53: where a link goes down, the other links need not stay as they were. With the error log in a peer's memory
(`loggedAtPeer`), link 1 carries the record of link 0's fall and hears of it at tick 1. -/
theorem not_portsAndLinks : ¬ Obligations.PortsAndLinks := by
  unfold Obligations.PortsAndLinks
  rintro ⟨-, -, hlinks, -⟩
  obtain ⟨-, -, -, -, hfalls, -⟩ := hlinks loggedAtPeer 0 false
  obtain ⟨t, ht, -, hothers⟩ := hfalls rfl rfl le_rfl
  obtain rfl : loggedAtPeer.dropLink 0 = t := Host.Outcome.next.inj ((flitReplay_drops rfl rfl le_rfl).symm.trans ht)
  have hsame : ((loggedAtPeer.dropLink 0).link 1).heard = 0 := congrArg Link.heard (hothers 1 one_ne_zero)
  exact absurd (dropLink_loggedAtPeer_heard.symm.trans hsame) one_ne_zero

end Sys2Proof.Machine
end
